-- ==== Sys2Proof/Word.lean ====
section
/-! DEFINITION. The word types of R3 and the plainest helpers on lists that stand for register lanes. -/

namespace Sys2Proof

/-- R3. A byte. -/
abbrev Byte := BitVec 8
/-- R3. A word: one 32-bit register element. -/
abbrev W32 := BitVec 32
/-- R3. A dword: a register pair, a scalar register, an address. -/
abbrev W64 := BitVec 64
/-- A set of lanes of one wave, bit L for lane L. -/
abbrev Lanes := BitVec 64

end Sys2Proof
end

