-- ==== Sys2Proof/Syntax.lean ====
section
/-! DEFINITION. The syntax: operands (R51), special registers (R72), fence kinds and scopes (R66, R197), the data an
outside event carries, and the one inductive of all 277 rows of the opcode table: 196 instructions of the Nimjo words
and 81 events of the device and of its surroundings. -/

namespace Sys2Proof

/-- R51, R53. The register-field map. A literal operand holds the literal words that follow the instruction. -/
inductive Operand where
  /-- 0x00 to 0xBF: a vector register, 32 bits per lane. -/
  | v (n : Nat)
  /-- 0xC0 to 0xEF: a scalar register, 64 bits. -/
  | k (n : Nat)
  /-- 0xF0 to 0xF7: a temporary of the clause. -/
  | x (n : Nat)
  /-- 0xF8. -/
  | zero
  /-- 0xF9: 1 in the element type of the mode. -/
  | one
  /-- 0xFA: minus 1 in the element type of the mode. -/
  | minusOne
  /-- 0xFB. -/
  | lane
  /-- 0xFC. -/
  | wave
  /-- 0xFE: one literal word follows. -/
  | lit32 (w : BitVec 32)
  /-- 0xFF: two literal words follow, the low word first. -/
  | lit64 (w : BitVec 64)
  deriving DecidableEq, Repr

/-- R72. The special registers, in the order of their numbers 0x00 to 0x0A. -/
inductive SpecialReg where
  | lane | wave | helper | retired | timebase | step | fpflags | faultmask | xva | pathmask | watch
  deriving DecidableEq, Repr

/-- R201. The kinds of `fnc`. -/
inductive FenceKind where
  | acq | rel | acqrel | sc
  deriving DecidableEq, Repr

/-- R197. The scopes, codes 0 to 5. -/
inductive Scope where
  | wave | group | cluster | die | device | system
  deriving DecidableEq, Repr

/-- The name of a wave: its launch, the linear index of its group (R26) and its index in the group (R24). -/
structure WaveId where
  launch : Nat
  group : Nat
  wave : Nat
  deriving DecidableEq, Repr

/-- R416. The fields of the context command register that a driver write of the op word finds. -/
structure ContextCommand where
  ctx : Nat
  image : BitVec 64
  clusters : BitVec 64
  wdog : BitVec 32
  deriving DecidableEq, Repr

/-- R407. A host access through a base address register: a read of some bytes of HBM, a write of them (BAR4), or a read of
the driver status window (BAR0) or of the doorbell pages (BAR2). -/
inductive HostAccess where
  | read (bytes : Nat)
  | write (data : List (BitVec 8))
  | readWindow (bytes : Nat)
  | readDoorbell (bytes : Nat)
  deriving DecidableEq, Repr

/-- R79, R226, R253, R311, R342, R408. Where the driver writes: from an offset of the driver status window on, an
access-table entry of 8 bytes, the base and the limit of a region register in 8 bytes each, the grant of a source in units,
the bandwidth shares of the five classes in a byte each, or the constant section of the kernels of a context whose code lies
in a range of addresses. -/
inductive DriverField where
  | window (offset : Nat)
  | access (target master : Nat)
  | region (target index : Nat)
  | grant (source : Nat)
  | shares
  | constants (ctx codeBase codeLimit : Nat)
  deriving DecidableEq, Repr

/-- R46, R160. The core whose matrix queue goes on, and the elements of the D registers that this writes: of the sixteen
registers from the first on, those of a mask, in some lanes. -/
structure DPart where
  core : Nat
  regs : BitVec 16
  lanes : BitVec 64
  deriving DecidableEq, Repr

/-- R45, R46. The results that arrive in some lanes: whole, or one half of each pair. -/
inductive Arrival where
  | whole (lanes : BitVec 64)
  | half (high : Bool) (lanes : BitVec 64)
  deriving DecidableEq, Repr

/-- R308. A page whose window of atomics ends: of this device, or of another device whose right this one holds. -/
inductive RightPage where
  | own (page : Nat)
  | of (home page : Nat)
  deriving DecidableEq, Repr

/-- R311, R316. A path that has trained: its port, and the grant that the peer's driver has set for this device, 0 for the
default. -/
structure LinkUp where
  port : Nat
  grant : Nat
  deriving DecidableEq, Repr

/-- R305, R314. The payload of an inbound transaction: bytes as they are, or the units that a port has rebuilt since it last
delivered some. -/
inductive Payload where
  | inline (data : List (BitVec 8))
  | received (port : Nat)
  deriving DecidableEq, Repr

/-- R308, R309. How the right to perform atomics on a page moves: it has arrived at a remote owner; it comes back to this
device, the home, with the page's bytes and the 128-byte lines of the page that were written meanwhile; it comes to this
device from its home; or its home takes it back. -/
inductive RightMove where
  | away
  | home (words : List (Nat × BitVec 8)) (written : List Nat)
  | here (peer : Nat) (words : List (Nat × BitVec 8))
  | taken (peer : Nat)
  deriving DecidableEq, Repr

/-- R303, R305, R311. An inbound fabric request: the peer that sends it, its context there, the tag by which the reply is
matched, the virtual address at this device, the number of bytes, and whether an engine of the peer sends it. An atomic that
comes to this device as the owner of a page of another device names that device, the page's home (R308). -/
structure FabricRequest where
  src : Nat
  srcCtx : Nat
  tag : Nat
  va : BitVec 48
  bytes : Nat
  home : Option Nat
  engine : Bool
  deriving DecidableEq, Repr

/-- R232, R233. The fabric atomics: an add of a width in bytes, or a compare and swap. -/
inductive FabricAtomic where
  | add (value : BitVec 64)
  | cas (cmp new : BitVec 64)
  deriving DecidableEq, Repr

/-- R305, R316, R317. What comes back for an outbound transaction. -/
inductive FabricReply where
  /-- Data of a load, with the line's write sequence number (R305), or the old value of an atomic. -/
  | data (bytes : Payload) (seq : BitVec 32)
  /-- A store was performed. -/
  | ack
  /-- The destination refused the access (R304). -/
  | refused
  /-- R310, R365. The data of the access is lost at the destination. -/
  | dataLoss
  /-- The destination refused a version-tagged store because its step is another (R322). -/
  | stepRefused
  /-- The verdict on an `lfe` entry (R212). -/
  | verdict (confirmed : Bool)
  /-- The destination passed the access on to another device, and it failed there (R316). -/
  | failed
  /-- The right of the page has left the device that was asked as its owner: the atomic was not performed (R309). -/
  | notOwner
  deriving DecidableEq, Repr

/-- R324, R325. One participant's contribution to an all-reduce: the device and its context, its digest fields and its
elements; or its note of the devices that failed or are missing, or, with no device named, of digests that differ. -/
structure CollectiveMessage where
  src : Nat
  ctx : Nat
  id : BitVec 32
  rank : Nat
  digest : List (BitVec 64)
  data : List (BitVec 64)
  failed : Bool
  deriving DecidableEq, Repr

/-- R410. How a bring-up stage ends; or the device number that the driver assigns at bring-up (R301). -/
inductive StageResult where
  | done
  | assigned (devId : Nat)
  | signatureBad
  | memoryFailed
  | noPortUp
  deriving DecidableEq, Repr

/-- One constructor for each row of the opcode table, each with the rule that governs it. -/
inductive Instr where
  /-- R265. Retires with no other effect. -/
  | nop
  /-- R58. Writes the selected fields of the issuing path's mode register for the next instruction of the clause. -/
  | mode (s : BitVec 6) (v : BitVec 16)
  /-- R269. Moves the whole path to the target clause header, unwinding loops against the target. -/
  | bra (i : BitVec 16)
  /-- R270. Splits the path on a predicate into taken and not-taken arms, pushing or reusing a divergence entry at the
  reconvergence address. -/
  | bif (q : BitVec 4) (i : BitVec 16)
  /-- R269. Branches the whole path when the predicate is set in any lane of its active mask. -/
  | bany (q : BitVec 4) (i : BitVec 16)
  /-- R269. Branches the whole path when the predicate is set in every lane of its active mask. -/
  | ball (q : BitVec 4) (i : BitVec 16)
  /-- R270. Writes the path's pending join address without branching. -/
  | join (i : BitVec 16)
  /-- R273. Writes the return header address to a k register and branches to the target. -/
  | call (k : Nat) (i : BitVec 16)
  /-- R273. Branches to the address held in a k register, faulting on a bad address. -/
  | ret (a : Nat)
  /-- R274. Pushes a loop entry with the count from a k register, or skips the body when the count is zero. -/
  | loop (a : Nat) (n : BitVec 8)
  /-- R275. Removes lanes with the predicate set from the path into the top loop entry's broken mask. -/
  | lbrk (q : BitVec 4)
  /-- R277. Makes the path wait until the named group in-flight counter is at most a threshold. -/
  | wcnt (p : BitVec 2) (a : Nat)
  /-- R278. Device-scope release over the path that marks the wave triggered for the graph walker. -/
  | trig
  /-- R279. Arrives the path at a group or cluster barrier as a release and waits for completion. -/
  | bar (s : Bool) (n : BitVec 4)
  /-- R272. Ends every lane of the path's active mask, ignoring the guard. -/
  | exit
  /-- R281. Completes the clause and then halts the wave with the software-trap fault and its code. -/
  | trap (c : BitVec 16)
  /-- R281. Completes the clause and then halts the wave with a resumable breakpoint fault. -/
  | brk (c : BitVec 16)
  /-- R282. Reads a special register into a v or k destination. -/
  | sysrd (d : Operand) (n : SpecialReg)
  /-- R282. Writes %fpflags or %xva from a source. -/
  | syswr (a : Operand) (n : SpecialReg)
  /-- R287. Marks the wave as passed over by its bay's selection until every other wave has been considered. -/
  | yield
  /-- R239. Makes a watch set the wave's current set. -/
  | wset (s : BitVec 2)
  /-- R241. Waits for the path's watch entries of a set to resolve, consumes them, and branches to repair code if any was
  struck. -/
  | wchk (s : BitVec 2) (i : BitVec 16)
  /-- R284. Branches the whole path when a destination's send allowance is below a threshold. -/
  | bsa (k : Nat) (i : BitVec 16)
  /-- R284. Reads the send allowance of a fabric destination. -/
  | sal (d : Operand) (a : Operand)
  /-- R248. Converts further L1 ways of the core to scratchpad for the issuing group. -/
  | spcfg (a : Nat)
  /-- R283. Writes the core's arithmetic clock count, or %retired in deterministic mode. -/
  | clk (d : Operand)
  /-- R285. Writes one word of the running graph's condition table as a relaxed device-scope atomic. -/
  | cond (a : Operand) (b : Operand)
  /-- R286. Submits a graph descriptor to the context's walker as a device-scope release. -/
  | enq (a : Operand) (b : Operand)
  /-- R112. Integer add per slot through WriteInt. -/
  | add (d : Operand) (a : Operand) (b : Operand)
  /-- R112. Integer subtract per slot through WriteInt. -/
  | sub (d : Operand) (a : Operand) (b : Operand)
  /-- R113. Add with carry in and out through predicate q14. -/
  | addc (d : Operand) (a : Operand) (b : Operand)
  /-- R113. Subtract with borrow in and out through predicate q14. -/
  | subb (d : Operand) (a : Operand) (b : Operand)
  /-- R112. Integer multiply per slot through WriteInt. -/
  | mul (d : Operand) (a : Operand) (b : Operand)
  /-- R114. Writes the high half of the exact product. -/
  | mulh (d : Operand) (a : Operand) (b : Operand)
  /-- R114. Writes the full 64-bit product of two 32-bit values to a pair. -/
  | mulw (d : Operand) (a : Operand) (b : Operand)
  /-- R112. Integer multiply-add with d as addend and destination. -/
  | mad (d : Operand) (a : Operand) (b : Operand)
  /-- R112. Integer minimum per slot. -/
  | min (d : Operand) (a : Operand) (b : Operand)
  /-- R112. Integer maximum per slot. -/
  | max (d : Operand) (a : Operand) (b : Operand)
  /-- R112. Integer absolute value through WriteInt. -/
  | abs (d : Operand) (a : Operand)
  /-- R112. Integer negation through WriteInt. -/
  | neg (d : Operand) (a : Operand)
  /-- R116. Bitwise AND per slot. -/
  | and (d : Operand) (a : Operand) (b : Operand)
  /-- R116. Bitwise OR per slot. -/
  | or (d : Operand) (a : Operand) (b : Operand)
  /-- R116. Bitwise XOR per slot. -/
  | xor (d : Operand) (a : Operand) (b : Operand)
  /-- R116. Bitwise a AND NOT b per slot. -/
  | andn (d : Operand) (a : Operand) (b : Operand)
  /-- R116. Bitwise NOT per slot. -/
  | not (d : Operand) (a : Operand)
  /-- R117. Left shift written through WriteInt. -/
  | shl (d : Operand) (a : Operand) (b : Operand)
  /-- R117. Logical right shift. -/
  | shr (d : Operand) (a : Operand) (b : Operand)
  /-- R117. Arithmetic right shift. -/
  | sra (d : Operand) (a : Operand) (b : Operand)
  /-- R117. Rotate left by s mod n. -/
  | rotl (d : Operand) (a : Operand) (b : Operand)
  /-- R117. Rotate right by s mod n. -/
  | rotr (d : Operand) (a : Operand) (b : Operand)
  /-- R116. Counts leading zero bits. -/
  | clz (d : Operand) (a : Operand)
  /-- R116. Counts trailing zero bits. -/
  | ctz (d : Operand) (a : Operand)
  /-- R116. Counts one bits. -/
  | popc (d : Operand) (a : Operand)
  /-- R116. Reverses the bits of each slot. -/
  | brev (d : Operand) (a : Operand)
  /-- R118. Extracts a bit field with sign or zero extension. -/
  | bfe (d : Operand) (a : Operand) (b : Operand)
  /-- R118. Inserts a bit field into the destination. -/
  | bfi (d : Operand) (a : Operand) (b : Operand)
  /-- R119. Interleaves the bits of two sources. -/
  | bzi (d : Operand) (a : Operand) (b : Operand)
  /-- R119. Spreads bits to every third position. -/
  | bsp3 (d : Operand) (a : Operand)
  /-- R119. Compacts every third bit. -/
  | bcp3 (d : Operand) (a : Operand)
  /-- R115. Computes a 64-bit address scaled by the mode's element size. -/
  | lea (d : Operand) (a : Operand) (b : Operand)
  /-- R112. Copies a value bit for bit. -/
  | mov (d : Operand) (a : Operand)
  /-- R115. Dot product over the packed slots into a 32-bit result. -/
  | dp4 (d : Operand) (a : Operand) (b : Operand)
  /-- R115. Sum of absolute differences over the slots. -/
  | sad (d : Operand) (a : Operand) (b : Operand)
  /-- R118. Builds a bit mask of a width at an offset. -/
  | bmsk (d : Operand) (a : Operand) (b : Operand)
  /-- R115. Clamps a wide integer to the mode type's range. -/
  | sat (d : Operand) (a : Operand)
  /-- R112. Subtracts b when a is at least b. -/
  | csub (d : Operand) (a : Operand) (b : Operand)
  /-- R120. Floating add rounded once. -/
  | fadd (d : Operand) (a : Operand) (b : Operand)
  /-- R120. Floating subtract rounded once. -/
  | fsub (d : Operand) (a : Operand) (b : Operand)
  /-- R120. Floating multiply rounded once. -/
  | fmul (d : Operand) (a : Operand) (b : Operand)
  /-- R120. Fused a*b+d with one rounding. -/
  | fma (d : Operand) (a : Operand) (b : Operand)
  /-- R120. Fused a*b-d with one rounding. -/
  | fms (d : Operand) (a : Operand) (b : Operand)
  /-- R120. Fused -(a*b)+d with one rounding. -/
  | fnma (d : Operand) (a : Operand) (b : Operand)
  /-- R121. Floating minimum with the stated NaN and zero rules. -/
  | fmin (d : Operand) (a : Operand) (b : Operand)
  /-- R121. Floating maximum with the stated NaN and zero rules. -/
  | fmax (d : Operand) (a : Operand) (b : Operand)
  /-- R122. Clears the sign bit. -/
  | fabs (d : Operand) (a : Operand)
  /-- R122. Inverts the sign bit. -/
  | fneg (d : Operand) (a : Operand)
  /-- R122. Copies the sign of b onto a. -/
  | fcps (d : Operand) (a : Operand) (b : Operand)
  /-- R123. Correctly rounded division, long-latency. -/
  | fdiv (d : Operand) (a : Operand) (b : Operand)
  /-- R123. Correctly rounded square root, long-latency. -/
  | fsqrt (d : Operand) (a : Operand)
  /-- R124. Correctly rounded reciprocal, long-latency. -/
  | frcp (d : Operand) (a : Operand)
  /-- R124. Correctly rounded reciprocal square root, long-latency. -/
  | frsq (d : Operand) (a : Operand)
  /-- R124. Correctly rounded power of two, long-latency. -/
  | fex2 (d : Operand) (a : Operand)
  /-- R124. Correctly rounded base-2 logarithm, long-latency. -/
  | flg2 (d : Operand) (a : Operand)
  /-- R124. Correctly rounded sin(pi a), long-latency. -/
  | fsnp (d : Operand) (a : Operand)
  /-- R124. Correctly rounded cos(pi a), long-latency. -/
  | fcsp (d : Operand) (a : Operand)
  /-- R124. Correctly rounded tanh, long-latency. -/
  | ftnh (d : Operand) (a : Operand)
  /-- R125. Rounds to an integral value toward minus infinity. -/
  | fflr (d : Operand) (a : Operand)
  /-- R125. Rounds to an integral value toward plus infinity. -/
  | fcel (d : Operand) (a : Operand)
  /-- R125. Rounds to an integral value toward zero. -/
  | ftrc (d : Operand) (a : Operand)
  /-- R125. Rounds to an integral value under the mode's rounding. -/
  | frnd (d : Operand) (a : Operand)
  /-- R126. Scales a by a power of two given in b. -/
  | fldx (d : Operand) (a : Operand) (b : Operand)
  /-- R126. Returns the binary exponent of a in the same format. -/
  | fgtx (d : Operand) (a : Operand)
  /-- R126. Writes a one-hot class mask of a. -/
  | fcls (d : Operand) (a : Operand)
  /-- R128. Converts to f64. -/
  | cvd (d : Operand) (a : Operand)
  /-- R128. Converts to f32. -/
  | cvs (d : Operand) (a : Operand)
  /-- R128. Converts to f16. -/
  | cvh (d : Operand) (a : Operand)
  /-- R128. Converts to bf16. -/
  | cvb (d : Operand) (a : Operand)
  /-- R128. Converts to t8. -/
  | cv8 (d : Operand) (a : Operand)
  /-- R128. Converts to t6. -/
  | cv6 (d : Operand) (a : Operand)
  /-- R128. Converts to f4. -/
  | cv4 (d : Operand) (a : Operand)
  /-- R128. Converts to a signed integer. -/
  | cvi (d : Operand) (a : Operand)
  /-- R128. Converts to an unsigned integer. -/
  | cvn (d : Operand) (a : Operand)
  /-- R129. Computes a BS20 block scale for a block maximum. -/
  | bsc (d : Operand) (a : Operand)
  /-- R130. Quantises an f32 value with a BS20 scale. -/
  | bsq (d : Operand) (a : Operand) (b : Operand)
  /-- R131. Writes a == b into a predicate. -/
  | ceq (q : BitVec 4) (a : Operand) (b : Operand)
  /-- R131. Writes a != b or unordered into a predicate. -/
  | cne (q : BitVec 4) (a : Operand) (b : Operand)
  /-- R131. Writes a < b into a predicate. -/
  | clt (q : BitVec 4) (a : Operand) (b : Operand)
  /-- R131. Writes a <= b into a predicate. -/
  | cle (q : BitVec 4) (a : Operand) (b : Operand)
  /-- R131. Writes a > b into a predicate. -/
  | cgt (q : BitVec 4) (a : Operand) (b : Operand)
  /-- R131. Writes a >= b into a predicate. -/
  | cge (q : BitVec 4) (a : Operand) (b : Operand)
  /-- R131. Writes whether either operand is NaN into a predicate. -/
  | cun (q : BitVec 4) (a : Operand) (b : Operand)
  /-- R132. Selects a or b per lane by the guard predicate. -/
  | sel (d : Operand) (a : Operand) (b : Operand)
  /-- R133. ANDs two predicates. -/
  | qand (q : BitVec 4) (a : BitVec 4) (b : BitVec 4)
  /-- R133. ORs two predicates. -/
  | qor (q : BitVec 4) (a : BitVec 4) (b : BitVec 4)
  /-- R133. XORs two predicates. -/
  | qxor (q : BitVec 4) (a : BitVec 4) (b : BitVec 4)
  /-- R133. Inverts a predicate. -/
  | qnot (q : BitVec 4) (a : BitVec 4)
  /-- R133. Copies a predicate. -/
  | qmov (q : BitVec 4) (a : BitVec 4)
  /-- R134. Sets predicate bits from an integer mask. -/
  | qmsk (q : BitVec 4) (a : Operand)
  /-- R134. Counts the set predicate bits of active lanes. -/
  | qpop (d : Operand) (a : BitVec 4)
  /-- R134. Copies a predicate into a k register. -/
  | kq (d : Nat) (a : BitVec 4)
  /-- R141. Reads a source lane chosen by index within the subgroup. -/
  | shf (d : Operand) (a : Operand) (b : Operand)
  /-- R141. Reads the lane at position XOR b within the subgroup. -/
  | shx (d : Operand) (a : Operand) (b : Operand)
  /-- R141. Reads the lane b positions lower, wrapping. -/
  | shup (d : Operand) (a : Operand) (b : Operand)
  /-- R141. Reads the lane b positions higher, wrapping. -/
  | shdn (d : Operand) (a : Operand) (b : Operand)
  /-- R141. Exchanges horizontally within a quad. -/
  | qswx (d : Operand) (a : Operand)
  /-- R141. Exchanges vertically within a quad. -/
  | qswy (d : Operand) (a : Operand)
  /-- R141. Exchanges diagonally within a quad. -/
  | qswd (d : Operand) (a : Operand)
  /-- R141. Broadcasts a lane within each quad. -/
  | qbc (d : Operand) (a : Operand) (b : Operand)
  /-- R142. Compresses participating lanes' values into the path's lowest lanes. -/
  | cmpr (d : Operand) (a : Operand)
  /-- R142. Expands the path's lowest lanes' values into the participating lanes. -/
  | expd (d : Operand) (a : Operand)
  /-- R141. Slides values up by a uniform distance with zero fill. -/
  | sldu (d : Operand) (a : Operand) (b : Operand)
  /-- R141. Slides values down by a uniform distance with zero fill. -/
  | sldd (d : Operand) (a : Operand) (b : Operand)
  /-- R143. Writes the mask of lanes with bit-identical keys. -/
  | mtch (d : Operand) (a : Operand)
  /-- R143. Writes the mask of lanes with value-equal keys. -/
  | mtcn (d : Operand) (a : Operand)
  /-- R144. Sum reduction over the subgroup in tree order. -/
  | radd (d : Operand) (a : Operand)
  /-- R144. Minimum reduction over the subgroup. -/
  | rmin (d : Operand) (a : Operand)
  /-- R144. Maximum reduction over the subgroup. -/
  | rmax (d : Operand) (a : Operand)
  /-- R144. Bitwise OR reduction over the subgroup. -/
  | rbor (d : Operand) (a : Operand)
  /-- R144. Bitwise AND reduction over the subgroup. -/
  | rband (d : Operand) (a : Operand)
  /-- R145. Inclusive prefix over the participating lanes. -/
  | pfx (d : Operand) (a : Operand)
  /-- R141. Broadcasts a uniform-indexed lane within the subgroup. -/
  | bcl (d : Operand) (a : Operand) (b : Operand)
  /-- R146. Writes the mask of participating lanes with non-zero a. -/
  | vote (d : Operand) (a : Operand)
  /-- R147. Ranks participating lanes under the total order. -/
  | topk (d : Operand) (a : Operand) (b : Operand)
  /-- R146. Writes the position of the lowest participating lane with non-zero a. -/
  | ffs (d : Operand) (a : Operand)
  /-- R230. Loads from global space at the current version. -/
  | ldg (d : Operand) (a : Operand) (b : Operand)
  /-- R230. Stores to global space at the current version. -/
  | stg (d : Operand) (a : Operand) (b : Operand)
  /-- R231. Asynchronously copies 16 bytes per lane from global to scratchpad. -/
  | ldgs (d : Operand) (a : Operand) (b : Operand)
  /-- R231. Asynchronously copies 16 bytes per lane from scratchpad to global. -/
  | stsg (d : Operand) (a : Operand) (b : Operand)
  /-- R230. Loads from the group scratchpad. -/
  | lds (d : Operand) (a : Operand) (b : Operand)
  /-- R230. Stores to the group scratchpad. -/
  | sts (d : Operand) (a : Operand) (b : Operand)
  /-- R230. Loads from cluster scratchpad. -/
  | ldcl (d : Operand) (a : Operand) (b : Operand)
  /-- R230. Stores to cluster scratchpad. -/
  | stcl (d : Operand) (a : Operand) (b : Operand)
  /-- R230. Loads from the lane's private space. -/
  | ldp (d : Operand) (a : Operand) (b : Operand)
  /-- R230. Stores to the lane's private space. -/
  | stp (d : Operand) (a : Operand) (b : Operand)
  /-- R230. Loads from the launch's constant section. -/
  | ldk (d : Operand) (a : Operand) (b : Operand)
  /-- R230. Loads through the fabric, performed at the home. -/
  | ldf (d : Operand) (a : Operand) (b : Operand)
  /-- R230. Stores through the fabric, charged to the send allowance. -/
  | stf (d : Operand) (a : Operand) (b : Operand)
  /-- R245. Loads the version of a page that holds a named step. -/
  | ldv (d : Operand) (a : Operand) (b : Operand)
  /-- R240. Early global load from a local copy, recording a watch entry. -/
  | lde (d : Operand) (a : Operand) (b : Operand)
  /-- R234. Global load that sets the lane's reservation on the line. -/
  | ldr (d : Operand) (a : Operand) (b : Operand)
  /-- R234. Store-conditional that succeeds only while the reservation holds. -/
  | stcn (d : Operand) (a : Operand) (b : Operand)
  /-- R232. Global atomic integer add returning the old value. -/
  | aadd (d : Operand) (a : Operand) (b : Operand)
  /-- R232. Global atomic floating add returning the old value. -/
  | afad (d : Operand) (a : Operand) (b : Operand)
  /-- R232. Global atomic minimum. -/
  | amin (d : Operand) (a : Operand) (b : Operand)
  /-- R232. Global atomic maximum. -/
  | amax (d : Operand) (a : Operand) (b : Operand)
  /-- R232. Global atomic AND. -/
  | aand (d : Operand) (a : Operand) (b : Operand)
  /-- R232. Global atomic OR. -/
  | aor (d : Operand) (a : Operand) (b : Operand)
  /-- R232. Global atomic XOR. -/
  | axor (d : Operand) (a : Operand) (b : Operand)
  /-- R232. Global atomic exchange. -/
  | axch (d : Operand) (a : Operand) (b : Operand)
  /-- R233. Global atomic compare-and-swap. -/
  | acas (d : Operand) (a : Operand) (b : Operand)
  /-- R232. Scratchpad atomic add. -/
  | asad (d : Operand) (a : Operand) (b : Operand)
  /-- R233. Scratchpad atomic compare-and-swap. -/
  | ascs (d : Operand) (a : Operand) (b : Operand)
  /-- R232. Fabric atomic add at the home or migrated owner. -/
  | xadd (d : Operand) (a : Operand) (b : Operand)
  /-- R233. Fabric atomic compare-and-swap. -/
  | xcas (d : Operand) (a : Operand) (b : Operand)
  /-- R236. Fence of a kind at a scope over the path's lanes. -/
  | fnc (k : FenceKind) (s : Scope)
  /-- R237. System-scope release that then writes the peer-failure bitmap and its count. -/
  | fsys (d : Operand) (a : Operand) (b : Operand)
  /-- R154. Issues a copy of compressed weights from scratchpad into the load bank. -/
  | wld (d : Operand) (a : Operand) (b : Operand)
  /-- R153. Issues a latch of the load bank's B type and XVW. -/
  | wfmt (a : Operand)
  /-- R155. Issues an exchange of the active and load weight banks. -/
  | wswp
  /-- R158. Issues one matrix multiply-accumulate operation per octet into the core's queue. -/
  | mma (d : Operand) (a : Operand) (b : Operand)
  /-- R161. Issues a matrix operation along the cluster's eastward chain of cores. -/
  | mmac (d : Operand) (a : Operand) (b : Operand)
  /-- R162. Issues an in-order clear of sixteen D registers through the matrix queue. -/
  | mmz (d : Operand)
  /-- R174. Issues a splat command that sets the group's splat parameters. -/
  | spm (a : Operand)
  /-- R176. Issues a splat command that projects Gaussians. -/
  | spj (a : Operand)
  /-- R180. Issues a splat command that bins splats into tiles. -/
  | sbn (a : Operand)
  /-- R181. Issues a splat command that sorts each tile by depth. -/
  | sst (a : Operand)
  /-- R182. Issues a splat command that blends each tile front to back. -/
  | sbl (a : Operand)
  /-- R185. Issues a splat command that replays each tile backwards for gradients. -/
  | sbk (a : Operand)
  /-- R255. Issues a Runner copy-and-convert command. -/
  | cpy (a : Operand)
  /-- R258. Issues a Pattern engine list command. -/
  | lxf (a : Operand)
  /-- R320. Issues a Runner halo-exchange command through the fabric. -/
  | hxc (a : Operand)
  /-- R323. Issues a Runner all-reduce command across devices. -/
  | ared (a : Operand)
  /-- R261. Issues a snapshot command that publishes a range at the current step. -/
  | pub (a : Operand)
  /-- R263. Issues a snapshot command that retires old versions of a range. -/
  | vret (a : Operand)
  /-- R368. Issues a Runner checkpoint command to drain, load or revert. -/
  | ckp (a : Operand)
  /-- R240. Early fabric load from a stale-retained copy, recording a watch entry. -/
  | lfe (d : Operand) (a : Operand) (b : Operand)
  /-- R287. A bay selects the next ready wave and path, decodes the clause whole and starts it. -/
  | clauseIssue (dom : Nat)
  /-- R36. A path's ageing counter reaching 256 forces it to issue at the next clause boundary. -/
  | ageingSwitch (w : WaveId)
  /-- R297. In deterministic mode the running path gives way after 256 clauses. -/
  | detPathSwitch (w : WaveId)
  /-- R45. A long-latency instruction writes its register results or is accepted, clearing its completion flag. -/
  | longLatencyCompletion (op : Nat) (a : Arrival)
  /-- R37. An issued store, atomic or fabric write is performed at its scope. -/
  | accessPerformed (op count : Nat)
  /-- R61. An in-flight counter is lowered when its oldest counted instruction completes. -/
  | counterDecrement (launch group ctr : Nat)
  /-- R27. The launcher, under the Barometer, places a whole cluster or deterministic grid and starts its waves. -/
  | groupPlacement (launch hw : Nat)
  /-- R294. A wave's new logical clock is made known and the context-wide minimum is updated. -/
  | isobarMinimumUpdate (w : WaveId)
  /-- R39. The launch's issue-slot budget is used up and every wave of the context halts. -/
  | watchdogExpiry (launch : Nat)
  /-- R212. The home confirms or strikes an early load's watch entry. -/
  | watchVerdict (w : WaveId) (entry : Nat) (strike : Bool)
  /-- R339. The parked group's faulting wave runs the supervisor fill routine to map first-touched pages. -/
  | firstTouchFill (n : Nat)
  /-- R414. A retired version's frame returns to its pool list once every checked ldv has been performed. -/
  | frameReturn (n : Nat)
  /-- R251. An engine class queue accepts a command when it has room, clearing its flag. -/
  | engineQueueAccept (cmd : Nat)
  /-- R256. The Runner performs a copy-and-convert in logical order and writes its completion area. -/
  | cpyExecution (cmd : Nat)
  /-- R259. The Pattern engine runs the operation list and writes its completion area. -/
  | lxfExecution (cmd : Nat)
  /-- R261. At one moment the snapshot engine stamps every page of the range and may advance the step. -/
  | pubStamp (cmd : Nat)
  /-- R263. The snapshot engine retires old versions of each page in the range. -/
  | vretRetire (cmd : Nat)
  /-- R321. The Runner sends the block's rows through the fabric and adds to the arrival flag. -/
  | hxcExecution (cmd : Nat)
  /-- R324. The Runners reduce the buffer across participants in rank order and write results. -/
  | aredExecution (cmd : Nat)
  /-- R325. A participant missing past the limit ends the reduction with code 5. -/
  | aredLimitExpiry (cmd : Nat)
  /-- R371. The Runner drains a shard at a published step into a shard image. -/
  | ckpDrain (cmd : Nat)
  /-- R372. The Runner checks listed shard images and copies their boxes into the destination. -/
  | ckpLoad (cmd : Nat)
  /-- R373. The Runner copies a published step's version of each page into the current version. -/
  | ckpRevert (cmd : Nat)
  /-- R171. The splat queue accepts an operation, copying its record and clearing its flag. -/
  | splatQueueAccept (unit : Nat)
  /-- R174. The splat unit replaces the group's parameters. -/
  | splatParameterSet (unit : Nat)
  /-- R178. The splat unit projects Gaussian records to screen-space splat records. -/
  | projection (unit : Nat)
  /-- R180. The splat unit writes each visible splat into the bins of its tiles. -/
  | binning (unit : Nat)
  /-- R181. The splat unit sorts each tile's entries by depth and id. -/
  | tileSort (unit : Nat)
  /-- R184. The splat unit blends each pixel front to back and writes its record. -/
  | blend (unit : Nat)
  /-- R186. The splat unit replays each pixel backwards, buffering gradient contributions. -/
  | gradientGather (unit : Nat)
  /-- R154. The array reads the wld bytes from scratchpad into the load bank. -/
  | weightLoadAccept (core : Nat)
  /-- R153. At the queue head the array latches the load bank's B type and XVW. -/
  | formatLatch (core : Nat)
  /-- R155. The swap takes effect after earlier loads are accepted and earlier operations have read B. -/
  | bankSwap (core : Nat)
  /-- R159. The array performs a queued octet operation, accumulating into D; some of its results are written. -/
  | matrixOperation (core : DPart)
  /-- R161. One part of a chained operation runs on a chain core's array; some of its results are written. -/
  | mmacPart (core : DPart)
  /-- R162. The queued zero write to D registers is performed in order, in some of them. -/
  | mmzWrite (core : DPart)
  /-- R410. A bring-up stage such as training finishes and the device advances or records a failure code. -/
  | bringupStageComplete (r : StageResult)
  /-- R309. A message carrying the atomic right arrives at another device. Either the home hands a page's atomic state to
  a new owner, or a recall reaches the owner, which hands the right back to the home. -/
  | atomicRightHandover (ctx page : Nat) (m : RightMove)
  /-- R308. A window of 64 atomics ends and the atomic right migrates or returns. -/
  | atomicWindowEnd (ctx : Nat) (p : RightPage)
  /-- R409. A host write to a context's doorbell page submits a graph descriptor. -/
  | doorbell (ctx : Nat) (addr : BitVec 64)
  /-- R286. A held enq graph is accepted once fewer than 64 graphs are outstanding. -/
  | graphAcceptance (ctx : Nat)
  /-- R292. The walker starts a ready node by its kind. -/
  | nodeStart (graph node : Nat)
  /-- R291. A node completes and delivers done or skipped to its successors. -/
  | nodeCompletion (graph node : Nat)
  /-- R292. A timed node completes when the timebase reaches its start time. -/
  | timedNodeExpiry (graph node : Nat)
  /-- R353. Context command that halts every path of the context at clause boundaries for saving. -/
  | preempt (c : ContextCommand)
  /-- R354. After the halt and outstanding work, the context's state is written to the save image. -/
  | contextSave (ctx : Nat)
  /-- R364. Context command that checks an image and places and loads the saved context. -/
  | restore (c : ContextCommand)
  /-- R351. Context command that restarts a resumable halted launch. -/
  | resume (c : ContextCommand)
  /-- R416. Context command that clears a context's state and frees its descriptor. -/
  | free (c : ContextCommand)
  /-- R334. Driver write that revokes a translation across TLBs and L1 lines in order. -/
  | revocation (ctx : Nat) (base length : BitVec 64)
  /-- R318. Driver write of 1 clears a context's sticky per-peer error bit. -/
  | errorBitClear (ctx : Nat) (mask : BitVec 512)
  /-- R408. Driver write of 0 clears a context's pool-overflow count. -/
  | poolOverflowClear (ctx : Nat)
  /-- R408. Driver write of 0 to the count clears a context's walker-fault entry. -/
  | walkerFaultClear (ctx : Nat)
  /-- R408. Driver write to a status-window register with no behaviour of its own, such as descriptors or budgets. -/
  | registerWrite (at_ : DriverField) (data : List (BitVec 8))
  /-- R407. A host read or write of HBM through BAR4. -/
  | bar4Access (pa : Nat) (acc : HostAccess)
  /-- R305. An inbound fabric load is translated and performed at the home, returning data. -/
  | fabricLoadRequest (r : FabricRequest)
  /-- R305. An inbound fabric store is performed at the home and acknowledged, or refused. -/
  | fabricStoreRequest (r : FabricRequest) (data : Payload)
  /-- R309. An inbound fabric atomic is performed at the home or owner, returning the old value. -/
  | fabricAtomicRequest (r : FabricRequest) (a : FabricAtomic)
  /-- R305. An inbound tagged store is performed only if the paired context's step equals the tag. -/
  | versionTaggedStore (r : FabricRequest) (data : Payload) (tag : BitVec 24)
  /-- R305. An inbound lfe watch check is confirmed or struck at the home. -/
  | watchVerdictRequest (r : FabricRequest) (seq : BitVec 32)
  /-- R324. An inbound all-reduce message carries partial or final results or a digest. -/
  | collectiveMessage (m : CollectiveMessage)
  /-- R305. A reply, acknowledgement or refusal arrives for an outbound transaction. -/
  | fabricReply (txn : Nat) (r : FabricReply)
  /-- R311. A destination returns send credit as its buffers drain, waking parked waves. -/
  | allowanceGrant (dest units : Nat)
  /-- R314. A port receives a compressed payload unit and rebuilds it; no body stands for a block whose tag fails (R346). -/
  | fabricUnitReceive (port : Nat) (descriptor : BitVec 16) (body : Option (List (BitVec 8)))
  /-- R346. A port's key is replaced before its block counter reaches 2^48. -/
  | linkKeyRollover (port : Nat) (outbound : Bool) (key : BitVec 256)
  /-- R316. A path begins retraining and its transactions are held in order. -/
  | linkRetrainStart (peer port : Nat)
  /-- R316. A retrained path returns and held transactions are retried in order. -/
  | linkRetrainComplete (peer : Nat) (link : LinkUp)
  /-- R316. Retraining passes 2 ms, the path is declared down and held transactions fail. -/
  | retrainTimeout (peer port : Nat)
  /-- R316. The switch planes report a peer lost, so it is declared down and its transactions fail. -/
  | peerLostReport (peer : Nat)
  /-- R326. Every 10 us each path's offset and delay are measured and the timebase is slewed. -/
  | timebaseSync (offset : Int)
  /-- R326. An inbound timebase-service message carrying offsets. -/
  | timeMessage (src : Nat) (offset : Int)
  /-- R410. Deassertion of fundamental reset starts bring-up at state 1 with signature verification. -/
  | fundamentalReset (signatureGood : Bool)
  /-- R410. A function-level reset returns to state 1, frees every context and loses the LPDDR tier. -/
  | functionLevelReset
  /-- R411. Module power reaching the cap lowers the arithmetic clock and sets power held. -/
  | powerHold (watts : Nat)
  /-- R412. A junction at 100 C lowers the clock and sets thermal held. -/
  | thermalHold (junctions : List Nat)
  /-- R412. A junction at 115 C stops every clock, reports the trip and drops the link. -/
  | thermalTrip (celsius : Nat)
  /-- R413. Management request returning power, temperatures, clock and error counts. -/
  | telemetry
  /-- R413. Management request setting the module power cap. -/
  | powerCap (watts : Nat)
  /-- R345. Request with a nonce returning a signed measurement report. -/
  | attest (nonce : List (BitVec 8))
  /-- R413. Management request provisioning a port's encryption key. -/
  | linkKey (port : Nat) (outbound : Bool) (key : BitVec 256)
  /-- R413. Management request storing a firmware image to verify at the next reset. -/
  | stageFirmware (image : List (BitVec 8))
  deriving DecidableEq, Repr

end Sys2Proof
end

