-- ==== Sys2Proof/Machine/OperandClass.lean ====
section
/-! DEFINITION. The fields of each instruction word (R41, R66) and the classes of operand that each field admits
(R51, R55, R110, R134, R138, R153, R154, R158, R170, R225, R229, R250). -/

namespace Sys2Proof

/-- R41, R349. Why the decoder refuses a word: each constructor is one fault of the words alone. -/
inductive DecodeError where
  /-- R65. The opcode's cell in the map is reserved. -/
  | reservedOpcode
  /-- R4, R51, R58, R72. A field holds a reserved value. -/
  | reservedField
  /-- R41. A field the instruction does not use is not zero. -/
  | unusedField
  /-- R51, R66. An operand is of a class the field does not admit. -/
  | operandClass
  /-- R42. A header stands in an instruction position. -/
  | headerWord
  /-- R66. A value lies outside a limit of the field. -/
  | limit
  /-- R44. A literal word that the instruction needs lies beyond the words of the clause. -/
  | literalBeyond
  /-- R58. `mode` selects a rounding of 6 or 7. -/
  | modeRounding
  /-- R58. `mode` selects a subgroup of 5 to 7. -/
  | modeSubgroup
  deriving DecidableEq, Repr

/-- One byte field of an instruction word: a plain number, or an operand of the register-field map. -/
inductive RawField where
  | num (n : BitVec 8)
  | opnd (o : Operand)
  deriving DecidableEq, Repr

/-- R72. The number of a special register. -/
def SpecialReg.code : SpecialReg → BitVec 8
  | .lane => 0x00 | .wave => 0x01 | .helper => 0x02 | .retired => 0x03 | .timebase => 0x04 | .step => 0x05
  | .fpflags => 0x06 | .faultmask => 0x07 | .xva => 0x08 | .pathmask => 0x09 | .watch => 0x0A

/-- R201. The code of a fence kind. -/
def FenceKind.code : FenceKind → BitVec 2
  | .acq => 0 | .rel => 1 | .acqrel => 2 | .sc => 3

/-- R197. The code of a scope. -/
def Scope.code : Scope → BitVec 3
  | .wave => 0 | .group => 1 | .cluster => 2 | .die => 3 | .device => 4 | .system => 5

/-- R65, R66. The opcode and the three byte fields d, a and b of an instruction's word; the two bytes of an imm16
stand in the places of a and b. An event has no word. -/
def Instr.raw : Instr → Option (BitVec 8 × RawField × RawField × RawField)
  | .nop => some (0x00, .num 0, .num 0, .num 0)
  | .mode s v => some (0x01, .num (0#2 ++ s), .num (v.extractLsb' 8 8), .num (v.extractLsb' 0 8))
  | .bra i => some (0x02, .num 0, .num (i.extractLsb' 8 8), .num (i.extractLsb' 0 8))
  | .bif q i => some (0x03, .num (0#4 ++ q), .num (i.extractLsb' 8 8), .num (i.extractLsb' 0 8))
  | .bany q i => some (0x04, .num (0#4 ++ q), .num (i.extractLsb' 8 8), .num (i.extractLsb' 0 8))
  | .ball q i => some (0x05, .num (0#4 ++ q), .num (i.extractLsb' 8 8), .num (i.extractLsb' 0 8))
  | .join i => some (0x06, .num 0, .num (i.extractLsb' 8 8), .num (i.extractLsb' 0 8))
  | .call k i => some (0x07, .opnd (.k k), .num (i.extractLsb' 8 8), .num (i.extractLsb' 0 8))
  | .ret a => some (0x08, .num 0, .opnd (.k a), .num 0)
  | .loop a n => some (0x09, .num 0, .opnd (.k a), .num n)
  | .lbrk q => some (0x0A, .num (0#4 ++ q), .num 0, .num 0)
  | .wcnt p a => some (0x0B, .num (0#6 ++ p), .opnd (.k a), .num 0)
  | .trig => some (0x0C, .num 0, .num 0, .num 0)
  | .bar s n => some (0x0D, .num (if s then 1 else 0), .num 0, .num (0#4 ++ n))
  | .exit => some (0x0E, .num 0, .num 0, .num 0)
  | .trap c => some (0x0F, .num 0, .num (c.extractLsb' 8 8), .num (c.extractLsb' 0 8))
  | .brk c => some (0x10, .num 0, .num (c.extractLsb' 8 8), .num (c.extractLsb' 0 8))
  | .sysrd d n => some (0x11, .opnd d, .num 0, .num n.code)
  | .syswr a n => some (0x12, .num 0, .opnd a, .num n.code)
  | .yield => some (0x13, .num 0, .num 0, .num 0)
  | .wset s => some (0x14, .num (0#6 ++ s), .num 0, .num 0)
  | .wchk s i => some (0x15, .num (0#6 ++ s), .num (i.extractLsb' 8 8), .num (i.extractLsb' 0 8))
  | .bsa k i => some (0x16, .opnd (.k k), .num (i.extractLsb' 8 8), .num (i.extractLsb' 0 8))
  | .sal d a => some (0x17, .opnd d, .opnd a, .num 0)
  | .spcfg a => some (0x18, .num 0, .opnd (.k a), .num 0)
  | .clk d => some (0x19, .opnd d, .num 0, .num 0)
  | .cond a b => some (0x1A, .num 0, .opnd a, .opnd b)
  | .enq a b => some (0x1B, .num 0, .opnd a, .opnd b)
  | .add d a b => some (0x20, .opnd d, .opnd a, .opnd b)
  | .sub d a b => some (0x21, .opnd d, .opnd a, .opnd b)
  | .addc d a b => some (0x22, .opnd d, .opnd a, .opnd b)
  | .subb d a b => some (0x23, .opnd d, .opnd a, .opnd b)
  | .mul d a b => some (0x24, .opnd d, .opnd a, .opnd b)
  | .mulh d a b => some (0x25, .opnd d, .opnd a, .opnd b)
  | .mulw d a b => some (0x26, .opnd d, .opnd a, .opnd b)
  | .mad d a b => some (0x27, .opnd d, .opnd a, .opnd b)
  | .min d a b => some (0x28, .opnd d, .opnd a, .opnd b)
  | .max d a b => some (0x29, .opnd d, .opnd a, .opnd b)
  | .abs d a => some (0x2A, .opnd d, .opnd a, .num 0)
  | .neg d a => some (0x2B, .opnd d, .opnd a, .num 0)
  | .and d a b => some (0x2C, .opnd d, .opnd a, .opnd b)
  | .or d a b => some (0x2D, .opnd d, .opnd a, .opnd b)
  | .xor d a b => some (0x2E, .opnd d, .opnd a, .opnd b)
  | .andn d a b => some (0x2F, .opnd d, .opnd a, .opnd b)
  | .not d a => some (0x30, .opnd d, .opnd a, .num 0)
  | .shl d a b => some (0x31, .opnd d, .opnd a, .opnd b)
  | .shr d a b => some (0x32, .opnd d, .opnd a, .opnd b)
  | .sra d a b => some (0x33, .opnd d, .opnd a, .opnd b)
  | .rotl d a b => some (0x34, .opnd d, .opnd a, .opnd b)
  | .rotr d a b => some (0x35, .opnd d, .opnd a, .opnd b)
  | .clz d a => some (0x36, .opnd d, .opnd a, .num 0)
  | .ctz d a => some (0x37, .opnd d, .opnd a, .num 0)
  | .popc d a => some (0x38, .opnd d, .opnd a, .num 0)
  | .brev d a => some (0x39, .opnd d, .opnd a, .num 0)
  | .bfe d a b => some (0x3A, .opnd d, .opnd a, .opnd b)
  | .bfi d a b => some (0x3B, .opnd d, .opnd a, .opnd b)
  | .bzi d a b => some (0x3C, .opnd d, .opnd a, .opnd b)
  | .bsp3 d a => some (0x3D, .opnd d, .opnd a, .num 0)
  | .bcp3 d a => some (0x3E, .opnd d, .opnd a, .num 0)
  | .lea d a b => some (0x3F, .opnd d, .opnd a, .opnd b)
  | .mov d a => some (0x40, .opnd d, .opnd a, .num 0)
  | .dp4 d a b => some (0x41, .opnd d, .opnd a, .opnd b)
  | .sad d a b => some (0x42, .opnd d, .opnd a, .opnd b)
  | .bmsk d a b => some (0x43, .opnd d, .opnd a, .opnd b)
  | .sat d a => some (0x44, .opnd d, .opnd a, .num 0)
  | .csub d a b => some (0x45, .opnd d, .opnd a, .opnd b)
  | .fadd d a b => some (0x50, .opnd d, .opnd a, .opnd b)
  | .fsub d a b => some (0x51, .opnd d, .opnd a, .opnd b)
  | .fmul d a b => some (0x52, .opnd d, .opnd a, .opnd b)
  | .fma d a b => some (0x53, .opnd d, .opnd a, .opnd b)
  | .fms d a b => some (0x54, .opnd d, .opnd a, .opnd b)
  | .fnma d a b => some (0x55, .opnd d, .opnd a, .opnd b)
  | .fmin d a b => some (0x56, .opnd d, .opnd a, .opnd b)
  | .fmax d a b => some (0x57, .opnd d, .opnd a, .opnd b)
  | .fabs d a => some (0x58, .opnd d, .opnd a, .num 0)
  | .fneg d a => some (0x59, .opnd d, .opnd a, .num 0)
  | .fcps d a b => some (0x5A, .opnd d, .opnd a, .opnd b)
  | .fdiv d a b => some (0x5B, .opnd d, .opnd a, .opnd b)
  | .fsqrt d a => some (0x5C, .opnd d, .opnd a, .num 0)
  | .frcp d a => some (0x5D, .opnd d, .opnd a, .num 0)
  | .frsq d a => some (0x5E, .opnd d, .opnd a, .num 0)
  | .fex2 d a => some (0x5F, .opnd d, .opnd a, .num 0)
  | .flg2 d a => some (0x60, .opnd d, .opnd a, .num 0)
  | .fsnp d a => some (0x61, .opnd d, .opnd a, .num 0)
  | .fcsp d a => some (0x62, .opnd d, .opnd a, .num 0)
  | .ftnh d a => some (0x63, .opnd d, .opnd a, .num 0)
  | .fflr d a => some (0x64, .opnd d, .opnd a, .num 0)
  | .fcel d a => some (0x65, .opnd d, .opnd a, .num 0)
  | .ftrc d a => some (0x66, .opnd d, .opnd a, .num 0)
  | .frnd d a => some (0x67, .opnd d, .opnd a, .num 0)
  | .fldx d a b => some (0x68, .opnd d, .opnd a, .opnd b)
  | .fgtx d a => some (0x69, .opnd d, .opnd a, .num 0)
  | .fcls d a => some (0x6A, .opnd d, .opnd a, .num 0)
  | .cvd d a => some (0x6B, .opnd d, .opnd a, .num 0)
  | .cvs d a => some (0x6C, .opnd d, .opnd a, .num 0)
  | .cvh d a => some (0x6D, .opnd d, .opnd a, .num 0)
  | .cvb d a => some (0x6E, .opnd d, .opnd a, .num 0)
  | .cv8 d a => some (0x6F, .opnd d, .opnd a, .num 0)
  | .cv6 d a => some (0x70, .opnd d, .opnd a, .num 0)
  | .cv4 d a => some (0x71, .opnd d, .opnd a, .num 0)
  | .cvi d a => some (0x72, .opnd d, .opnd a, .num 0)
  | .cvn d a => some (0x73, .opnd d, .opnd a, .num 0)
  | .bsc d a => some (0x74, .opnd d, .opnd a, .num 0)
  | .bsq d a b => some (0x75, .opnd d, .opnd a, .opnd b)
  | .ceq q a b => some (0x80, .num (0#4 ++ q), .opnd a, .opnd b)
  | .cne q a b => some (0x81, .num (0#4 ++ q), .opnd a, .opnd b)
  | .clt q a b => some (0x82, .num (0#4 ++ q), .opnd a, .opnd b)
  | .cle q a b => some (0x83, .num (0#4 ++ q), .opnd a, .opnd b)
  | .cgt q a b => some (0x84, .num (0#4 ++ q), .opnd a, .opnd b)
  | .cge q a b => some (0x85, .num (0#4 ++ q), .opnd a, .opnd b)
  | .cun q a b => some (0x86, .num (0#4 ++ q), .opnd a, .opnd b)
  | .sel d a b => some (0x87, .opnd d, .opnd a, .opnd b)
  | .qand q a b => some (0x88, .num (0#4 ++ q), .num (0#4 ++ a), .num (0#4 ++ b))
  | .qor q a b => some (0x89, .num (0#4 ++ q), .num (0#4 ++ a), .num (0#4 ++ b))
  | .qxor q a b => some (0x8A, .num (0#4 ++ q), .num (0#4 ++ a), .num (0#4 ++ b))
  | .qnot q a => some (0x8B, .num (0#4 ++ q), .num (0#4 ++ a), .num 0)
  | .qmov q a => some (0x8C, .num (0#4 ++ q), .num (0#4 ++ a), .num 0)
  | .qmsk q a => some (0x8D, .num (0#4 ++ q), .opnd a, .num 0)
  | .qpop d a => some (0x8E, .opnd d, .num (0#4 ++ a), .num 0)
  | .kq d a => some (0x8F, .opnd (.k d), .num (0#4 ++ a), .num 0)
  | .shf d a b => some (0x98, .opnd d, .opnd a, .opnd b)
  | .shx d a b => some (0x99, .opnd d, .opnd a, .opnd b)
  | .shup d a b => some (0x9A, .opnd d, .opnd a, .opnd b)
  | .shdn d a b => some (0x9B, .opnd d, .opnd a, .opnd b)
  | .qswx d a => some (0x9C, .opnd d, .opnd a, .num 0)
  | .qswy d a => some (0x9D, .opnd d, .opnd a, .num 0)
  | .qswd d a => some (0x9E, .opnd d, .opnd a, .num 0)
  | .qbc d a b => some (0x9F, .opnd d, .opnd a, .opnd b)
  | .cmpr d a => some (0xA0, .opnd d, .opnd a, .num 0)
  | .expd d a => some (0xA1, .opnd d, .opnd a, .num 0)
  | .sldu d a b => some (0xA2, .opnd d, .opnd a, .opnd b)
  | .sldd d a b => some (0xA3, .opnd d, .opnd a, .opnd b)
  | .mtch d a => some (0xA4, .opnd d, .opnd a, .num 0)
  | .mtcn d a => some (0xA5, .opnd d, .opnd a, .num 0)
  | .radd d a => some (0xA6, .opnd d, .opnd a, .num 0)
  | .rmin d a => some (0xA7, .opnd d, .opnd a, .num 0)
  | .rmax d a => some (0xA8, .opnd d, .opnd a, .num 0)
  | .rbor d a => some (0xA9, .opnd d, .opnd a, .num 0)
  | .rband d a => some (0xAA, .opnd d, .opnd a, .num 0)
  | .pfx d a => some (0xAB, .opnd d, .opnd a, .num 0)
  | .bcl d a b => some (0xAC, .opnd d, .opnd a, .opnd b)
  | .vote d a => some (0xAD, .opnd d, .opnd a, .num 0)
  | .topk d a b => some (0xAE, .opnd d, .opnd a, .opnd b)
  | .ffs d a => some (0xAF, .opnd d, .opnd a, .num 0)
  | .ldg d a b => some (0xB0, .opnd d, .opnd a, .opnd b)
  | .stg d a b => some (0xB1, .opnd d, .opnd a, .opnd b)
  | .ldgs d a b => some (0xB2, .opnd d, .opnd a, .opnd b)
  | .stsg d a b => some (0xB3, .opnd d, .opnd a, .opnd b)
  | .lds d a b => some (0xB4, .opnd d, .opnd a, .opnd b)
  | .sts d a b => some (0xB5, .opnd d, .opnd a, .opnd b)
  | .ldcl d a b => some (0xB6, .opnd d, .opnd a, .opnd b)
  | .stcl d a b => some (0xB7, .opnd d, .opnd a, .opnd b)
  | .ldp d a b => some (0xB8, .opnd d, .opnd a, .opnd b)
  | .stp d a b => some (0xB9, .opnd d, .opnd a, .opnd b)
  | .ldk d a b => some (0xBA, .opnd d, .opnd a, .opnd b)
  | .ldf d a b => some (0xBB, .opnd d, .opnd a, .opnd b)
  | .stf d a b => some (0xBC, .opnd d, .opnd a, .opnd b)
  | .ldv d a b => some (0xBD, .opnd d, .opnd a, .opnd b)
  | .lde d a b => some (0xBE, .opnd d, .opnd a, .opnd b)
  | .ldr d a b => some (0xBF, .opnd d, .opnd a, .opnd b)
  | .stcn d a b => some (0xC0, .opnd d, .opnd a, .opnd b)
  | .aadd d a b => some (0xC1, .opnd d, .opnd a, .opnd b)
  | .afad d a b => some (0xC2, .opnd d, .opnd a, .opnd b)
  | .amin d a b => some (0xC3, .opnd d, .opnd a, .opnd b)
  | .amax d a b => some (0xC4, .opnd d, .opnd a, .opnd b)
  | .aand d a b => some (0xC5, .opnd d, .opnd a, .opnd b)
  | .aor d a b => some (0xC6, .opnd d, .opnd a, .opnd b)
  | .axor d a b => some (0xC7, .opnd d, .opnd a, .opnd b)
  | .axch d a b => some (0xC8, .opnd d, .opnd a, .opnd b)
  | .acas d a b => some (0xC9, .opnd d, .opnd a, .opnd b)
  | .asad d a b => some (0xCA, .opnd d, .opnd a, .opnd b)
  | .ascs d a b => some (0xCB, .opnd d, .opnd a, .opnd b)
  | .xadd d a b => some (0xCC, .opnd d, .opnd a, .opnd b)
  | .xcas d a b => some (0xCD, .opnd d, .opnd a, .opnd b)
  | .fnc k s => some (0xCE, .num (0#3 ++ k.code ++ s.code), .num 0, .num 0)
  | .fsys d a b => some (0xCF, .opnd d, .opnd a, .opnd b)
  | .wld d a b => some (0xD0, .opnd d, .opnd a, .opnd b)
  | .wfmt a => some (0xD1, .num 0, .opnd a, .num 0)
  | .wswp => some (0xD2, .num 0, .num 0, .num 0)
  | .mma d a b => some (0xD3, .opnd d, .opnd a, .opnd b)
  | .mmac d a b => some (0xD4, .opnd d, .opnd a, .opnd b)
  | .mmz d => some (0xD5, .opnd d, .num 0, .num 0)
  | .spm a => some (0xE0, .num 0, .opnd a, .num 0)
  | .spj a => some (0xE1, .num 0, .opnd a, .num 0)
  | .sbn a => some (0xE2, .num 0, .opnd a, .num 0)
  | .sst a => some (0xE3, .num 0, .opnd a, .num 0)
  | .sbl a => some (0xE4, .num 0, .opnd a, .num 0)
  | .sbk a => some (0xE5, .num 0, .opnd a, .num 0)
  | .cpy a => some (0xE8, .num 0, .opnd a, .num 0)
  | .lxf a => some (0xE9, .num 0, .opnd a, .num 0)
  | .hxc a => some (0xEA, .num 0, .opnd a, .num 0)
  | .ared a => some (0xEB, .num 0, .opnd a, .num 0)
  | .pub a => some (0xEC, .num 0, .opnd a, .num 0)
  | .vret a => some (0xED, .num 0, .opnd a, .num 0)
  | .ckp a => some (0xEE, .num 0, .opnd a, .num 0)
  | .lfe d a b => some (0xF0, .opnd d, .opnd a, .opnd b)
  | .clauseIssue _ => none
  | .ageingSwitch _ => none
  | .detPathSwitch _ => none
  | .longLatencyCompletion _ _ => none
  | .accessPerformed _ _ => none
  | .counterDecrement _ _ _ => none
  | .groupPlacement _ _ => none
  | .isobarMinimumUpdate _ => none
  | .watchdogExpiry _ => none
  | .watchVerdict _ _ _ => none
  | .firstTouchFill _ => none
  | .frameReturn _ => none
  | .engineQueueAccept _ => none
  | .cpyExecution _ => none
  | .lxfExecution _ => none
  | .pubStamp _ => none
  | .vretRetire _ => none
  | .hxcExecution _ => none
  | .aredExecution _ => none
  | .aredLimitExpiry _ => none
  | .ckpDrain _ => none
  | .ckpLoad _ => none
  | .ckpRevert _ => none
  | .splatQueueAccept _ => none
  | .splatParameterSet _ => none
  | .projection _ => none
  | .binning _ => none
  | .tileSort _ => none
  | .blend _ => none
  | .gradientGather _ => none
  | .weightLoadAccept _ => none
  | .formatLatch _ => none
  | .bankSwap _ => none
  | .matrixOperation _ => none
  | .mmacPart _ => none
  | .mmzWrite _ => none
  | .doorbell _ _ => none
  | .graphAcceptance _ => none
  | .nodeStart _ _ => none
  | .nodeCompletion _ _ => none
  | .timedNodeExpiry _ _ => none
  | .preempt _ => none
  | .contextSave _ => none
  | .restore _ => none
  | .resume _ => none
  | .free _ => none
  | .revocation _ _ _ => none
  | .errorBitClear _ _ => none
  | .poolOverflowClear _ => none
  | .walkerFaultClear _ => none
  | .registerWrite _ _ => none
  | .bar4Access _ _ => none
  | .fabricLoadRequest _ => none
  | .fabricStoreRequest _ _ => none
  | .fabricAtomicRequest _ _ => none
  | .versionTaggedStore _ _ _ => none
  | .watchVerdictRequest _ _ => none
  | .collectiveMessage _ => none
  | .fabricReply _ _ => none
  | .allowanceGrant _ _ => none
  | .atomicWindowEnd _ _ => none
  | .fabricUnitReceive _ _ _ => none
  | .linkKeyRollover _ _ _ => none
  | .linkRetrainStart _ _ => none
  | .linkRetrainComplete _ _ => none
  | .retrainTimeout _ _ => none
  | .peerLostReport _ => none
  | .timebaseSync _ => none
  | .timeMessage _ _ => none
  | .fundamentalReset _ => none
  | .functionLevelReset => none
  | .bringupStageComplete _ => none
  | .powerHold _ => none
  | .thermalHold _ => none
  | .thermalTrip _ => none
  | .telemetry => none
  | .powerCap _ => none
  | .attest _ => none
  | .linkKey _ _ _ => none
  | .stageFirmware _ => none
  | .atomicRightHandover _ _ _ => none

/-- What a byte field admits as an operand. -/
inductive FieldClass where
  /-- R51. v, k or x. -/
  | dest
  /-- R138. v or x. -/
  | destVX
  /-- R225. v. -/
  | destV
  /-- R283. k or v. -/
  | destKV
  /-- R51. Any source. -/
  | src
  /-- R53. Any source of a 32-bit position: no 64-bit literal. -/
  | src32
  /-- R138, R153, R170. A k register, a 32-bit literal or zero. -/
  | uniform
  /-- R134. A k register, a literal or zero. -/
  | kLitZero
  /-- R285. A k register or a literal. -/
  | kLit
  /-- R225. v, k, a literal or zero: a global or fabric address. -/
  | gaddr
  /-- R63. A k register kn with n at most 45. -/
  | layout
  /-- Not an operand. -/
  | none
  deriving DecidableEq, Repr

/-- R51. Whether an operand is of a class. -/
def FieldClass.admits : FieldClass → Operand → Bool
  | .dest, o => match o with | .v _ | .k _ | .x _ => true | _ => false
  | .destVX, o => match o with | .v _ | .x _ => true | _ => false
  | .destV, o => match o with | .v _ => true | _ => false
  | .destKV, o => match o with | .v _ | .k _ => true | _ => false
  | .src, _ => true
  | .src32, o => match o with | .lit64 _ => false | _ => true
  | .uniform, o => match o with | .k _ | .lit32 _ | .zero => true | _ => false
  | .kLitZero, o => match o with | .k _ | .lit32 _ | .lit64 _ | .zero => true | _ => false
  | .kLit, o => match o with | .k _ | .lit32 _ | .lit64 _ => true | _ => false
  | .gaddr, o => match o with | .v _ | .k _ | .lit32 _ | .lit64 _ | .zero => true | _ => false
  | .layout, o => match o with | .k n => decide (n ≤ 45) | _ => false
  | .none, _ => false

/-- R55. A source that the scalar unit reads. -/
def Operand.scalarSource : Operand → Bool
  | .v _ | .x _ | .lane => false
  | _ => true

/-- R229. A source of a scalar load. -/
def Operand.scalarAddress : Operand → Bool
  | .k _ | .zero | .lit32 _ | .lit64 _ => true
  | _ => false

/-- R66. The classes of the fields d, a and b of an opcode. -/
def fieldClasses (op : Nat) : FieldClass × FieldClass × FieldClass :=
  if op = 0x17 then (.dest, .src32, .none)
  else if op = 0x19 then (.destKV, .none, .none)
  else if op = 0x1A then (.none, .kLit, .src32)
  else if op = 0x1B then (.none, .src, .src32)
  else if op < 0x20 then (.dest, .src, .src)
  else if op = 0x26 then (.dest, .src32, .src32)
  else if op = 0x3F ∨ op = 0x68 then (.dest, .src, .src32)
  else if op < 0x8D then (.dest, .src, .src)
  else if op = 0x8D then (.none, .kLitZero, .none)
  else if op < 0x98 then (.dest, .src, .src)
  else if op = 0xA2 ∨ op = 0xA3 ∨ op = 0xAC then (.destVX, .src, .uniform)
  else if op < 0xB0 then (.destVX, .src, .src32)
  else if op = 0xB0 ∨ op = 0xBB ∨ op = 0xBD then (.dest, .gaddr, .src32)
  else if op = 0xB4 ∨ op = 0xB6 ∨ op = 0xBA then (.dest, .src, .src32)
  else if op = 0xB8 then (.destV, .src, .src32)
  else if op = 0xB1 ∨ op = 0xB3 ∨ op = 0xBC then (.src, .gaddr, .src32)
  else if op = 0xB5 ∨ op = 0xB7 ∨ op = 0xB9 then (.src, .src, .src32)
  else if op = 0xCA ∨ op = 0xCB then (.destV, .src, .src32)
  else if op = 0xCF then (.dest, .src, .src32)
  else if op < 0xD0 ∨ op = 0xF0 then (.destV, .gaddr, .src32)
  else if op = 0xD3 ∨ op = 0xD4 then (.destV, .layout, .uniform)
  else if op = 0xD5 then (.destV, .none, .none)
  else (.uniform, .uniform, .uniform)

/-- R51. The operand fault of one field: a field 0xFD never reaches this point, so the class is what is judged; a
layout register beyond k45 breaks a limit (R63). -/
def fieldFault (c : FieldClass) : RawField → Option DecodeError
  | .num _ => none
  | .opnd o => if c.admits o then none
      else match c, o with
        | .layout, .k _ => some .limit
        | _, _ => some .operandClass

/-- R55, R110, R229. With a k destination: `addc`, `subb` and `sel` have no scalar form, and the sources of the other
per-lane instructions are those of the scalar unit. -/
def scalarFault (op : Nat) (d a b : RawField) : Option DecodeError :=
  match d with
  | .opnd (.k _) =>
    if op = 0x22 ∨ op = 0x23 ∨ op = 0x87 then some .operandClass
    else
      let ok : Operand → Bool :=
        if op = 0xB0 ∨ op = 0xBB ∨ op = 0xBD ∨ op = 0xB4 ∨ op = 0xB6 ∨ op = 0xBA then Operand.scalarAddress
        else if op = 0x17 ∨ (0x20 ≤ op ∧ op ≤ 0x75) then Operand.scalarSource
        else fun _ => true
      let good : RawField → Bool := fun f => match f with | .num _ => true | .opnd o => ok o
      if good a && good b then none else some .operandClass
  | _ => none

/-- R51, R55, R66. The first operand fault of an instruction, in the order d, a, b and then the scalar rule. -/
def Instr.classFault (i : Instr) : Option DecodeError :=
  match i.raw with
  | none => none
  | some (op, d, a, b) =>
    let c := fieldClasses op.toNat
    (fieldFault c.1 d).or ((fieldFault c.2.1 a).or ((fieldFault c.2.2 b).or (scalarFault op.toNat d a b)))

/-- R58, R66, R72, R274. The remaining limits of the words: the reserved values that `mode` selects, a loop body of no
words, a write of a special register that is only read. -/
def Instr.limitFault : Instr → Option DecodeError
  | .mode s v =>
    if s.getLsbD 1 && decide (6 ≤ (v.extractLsb' 4 3).toNat) then some .modeRounding
    else if s.getLsbD 3 && decide (5 ≤ (v.extractLsb' 11 3).toNat) then some .modeSubgroup
    else none
  | .loop _ n => if n = 0 then some .limit else none
  | .syswr _ n => if n = .fpflags ∨ n = .xva then none else some .operandClass
  | _ => none

end Sys2Proof
end

