-- ==== Sys2Proof/WellFormed.lean ====
section
/-! DEFINITION. Well-formed instructions: every register number is one that the register-field map can name (R51), every
operand is of a class its field admits (R66), and no selected or stated value is reserved. -/

namespace Sys2Proof

/-- R51. The register numbers that the field map names. -/
def Operand.inRange : Operand → Bool
  | .v n => decide (n < 192)
  | .k n => decide (n < 48)
  | .x n => decide (n < 8)
  | _ => true

/-- The range check of one field. -/
def RawField.inRange : RawField → Bool
  | .num _ => true
  | .opnd o => o.inRange

/-- The range check of the three fields of an instruction's word; an event has no word. -/
def Instr.fieldsInRange (i : Instr) : Bool :=
  match i.raw with
  | none => true
  | some (_, d, a, b) => d.inRange && a.inRange && b.inRange

/-- R41, R51, R66. An instruction that some words of the opcode map stand for. Every event is well formed. -/
def Instr.wellFormed (i : Instr) : Bool :=
  i.fieldsInRange && i.classFault.isNone && i.limitFault.isNone

/-- Whether a row is an instruction with a word, and not an event. -/
def Instr.hasWord (i : Instr) : Bool := i.raw.isSome

end Sys2Proof
end

