-- ==== Sys2Proof/Decode.lean ====
section
/-! DEFINITION. The decoder (R41, R42, R51, R53, R65, R66), total on any words and refusing by name, and after it the
encoder, both written from the opcode map and the format table. -/

namespace Sys2Proof

/-- R66. The shape of an opcode's word and the constructor it builds: d, s and q are a destination, a source and a
predicate. -/
inductive Fmt where
  | none (i : Instr)
  | mode
  | off (f : BitVec 16 → Instr)
  | qoff (f : BitVec 4 → BitVec 16 → Instr)
  | koff (f : Nat → BitVec 16 → Instr)
  | kreg (f : Nat → Instr)
  | loop
  | q (f : BitVec 4 → Instr)
  | wcnt
  | bar
  | sysrd
  | syswr
  | wset
  | wchk
  | fnc
  | d (f : Operand → Instr)
  | a (f : Operand → Instr)
  | da (f : Operand → Operand → Instr)
  | ab (f : Operand → Operand → Instr)
  | dab (f : Operand → Operand → Operand → Instr)
  | sab (f : Operand → Operand → Operand → Instr)
  | qab (f : BitVec 4 → Operand → Operand → Instr)
  | qqq (f : BitVec 4 → BitVec 4 → BitVec 4 → Instr)
  | qq (f : BitVec 4 → BitVec 4 → Instr)
  | qa (f : BitVec 4 → Operand → Instr)
  | dq (f : Operand → BitVec 4 → Instr)
  | kq

/-- R65, R66. The opcode map. -/
def fmtOf : Nat → Option Fmt
  | 0x00 => some (.none .nop)
  | 0x01 => some .mode
  | 0x02 => some (.off .bra)
  | 0x03 => some (.qoff .bif)
  | 0x04 => some (.qoff .bany)
  | 0x05 => some (.qoff .ball)
  | 0x06 => some (.off .join)
  | 0x07 => some (.koff .call)
  | 0x08 => some (.kreg .ret)
  | 0x09 => some .loop
  | 0x0A => some (.q .lbrk)
  | 0x0B => some .wcnt
  | 0x0C => some (.none .trig)
  | 0x0D => some .bar
  | 0x0E => some (.none .exit)
  | 0x0F => some (.off .trap)
  | 0x10 => some (.off .brk)
  | 0x11 => some .sysrd
  | 0x12 => some .syswr
  | 0x13 => some (.none .yield)
  | 0x14 => some .wset
  | 0x15 => some .wchk
  | 0x16 => some (.koff .bsa)
  | 0x17 => some (.da .sal)
  | 0x18 => some (.kreg .spcfg)
  | 0x19 => some (.d .clk)
  | 0x1A => some (.ab .cond)
  | 0x1B => some (.ab .enq)
  | 0x20 => some (.dab .add)
  | 0x21 => some (.dab .sub)
  | 0x22 => some (.dab .addc)
  | 0x23 => some (.dab .subb)
  | 0x24 => some (.dab .mul)
  | 0x25 => some (.dab .mulh)
  | 0x26 => some (.dab .mulw)
  | 0x27 => some (.dab .mad)
  | 0x28 => some (.dab .min)
  | 0x29 => some (.dab .max)
  | 0x2A => some (.da .abs)
  | 0x2B => some (.da .neg)
  | 0x2C => some (.dab .and)
  | 0x2D => some (.dab .or)
  | 0x2E => some (.dab .xor)
  | 0x2F => some (.dab .andn)
  | 0x30 => some (.da .not)
  | 0x31 => some (.dab .shl)
  | 0x32 => some (.dab .shr)
  | 0x33 => some (.dab .sra)
  | 0x34 => some (.dab .rotl)
  | 0x35 => some (.dab .rotr)
  | 0x36 => some (.da .clz)
  | 0x37 => some (.da .ctz)
  | 0x38 => some (.da .popc)
  | 0x39 => some (.da .brev)
  | 0x3A => some (.dab .bfe)
  | 0x3B => some (.dab .bfi)
  | 0x3C => some (.dab .bzi)
  | 0x3D => some (.da .bsp3)
  | 0x3E => some (.da .bcp3)
  | 0x3F => some (.dab .lea)
  | 0x40 => some (.da .mov)
  | 0x41 => some (.dab .dp4)
  | 0x42 => some (.dab .sad)
  | 0x43 => some (.dab .bmsk)
  | 0x44 => some (.da .sat)
  | 0x45 => some (.dab .csub)
  | 0x50 => some (.dab .fadd)
  | 0x51 => some (.dab .fsub)
  | 0x52 => some (.dab .fmul)
  | 0x53 => some (.dab .fma)
  | 0x54 => some (.dab .fms)
  | 0x55 => some (.dab .fnma)
  | 0x56 => some (.dab .fmin)
  | 0x57 => some (.dab .fmax)
  | 0x58 => some (.da .fabs)
  | 0x59 => some (.da .fneg)
  | 0x5A => some (.dab .fcps)
  | 0x5B => some (.dab .fdiv)
  | 0x5C => some (.da .fsqrt)
  | 0x5D => some (.da .frcp)
  | 0x5E => some (.da .frsq)
  | 0x5F => some (.da .fex2)
  | 0x60 => some (.da .flg2)
  | 0x61 => some (.da .fsnp)
  | 0x62 => some (.da .fcsp)
  | 0x63 => some (.da .ftnh)
  | 0x64 => some (.da .fflr)
  | 0x65 => some (.da .fcel)
  | 0x66 => some (.da .ftrc)
  | 0x67 => some (.da .frnd)
  | 0x68 => some (.dab .fldx)
  | 0x69 => some (.da .fgtx)
  | 0x6A => some (.da .fcls)
  | 0x6B => some (.da .cvd)
  | 0x6C => some (.da .cvs)
  | 0x6D => some (.da .cvh)
  | 0x6E => some (.da .cvb)
  | 0x6F => some (.da .cv8)
  | 0x70 => some (.da .cv6)
  | 0x71 => some (.da .cv4)
  | 0x72 => some (.da .cvi)
  | 0x73 => some (.da .cvn)
  | 0x74 => some (.da .bsc)
  | 0x75 => some (.dab .bsq)
  | 0x80 => some (.qab .ceq)
  | 0x81 => some (.qab .cne)
  | 0x82 => some (.qab .clt)
  | 0x83 => some (.qab .cle)
  | 0x84 => some (.qab .cgt)
  | 0x85 => some (.qab .cge)
  | 0x86 => some (.qab .cun)
  | 0x87 => some (.dab .sel)
  | 0x88 => some (.qqq .qand)
  | 0x89 => some (.qqq .qor)
  | 0x8A => some (.qqq .qxor)
  | 0x8B => some (.qq .qnot)
  | 0x8C => some (.qq .qmov)
  | 0x8D => some (.qa .qmsk)
  | 0x8E => some (.dq .qpop)
  | 0x8F => some .kq
  | 0x98 => some (.dab .shf)
  | 0x99 => some (.dab .shx)
  | 0x9A => some (.dab .shup)
  | 0x9B => some (.dab .shdn)
  | 0x9C => some (.da .qswx)
  | 0x9D => some (.da .qswy)
  | 0x9E => some (.da .qswd)
  | 0x9F => some (.dab .qbc)
  | 0xA0 => some (.da .cmpr)
  | 0xA1 => some (.da .expd)
  | 0xA2 => some (.dab .sldu)
  | 0xA3 => some (.dab .sldd)
  | 0xA4 => some (.da .mtch)
  | 0xA5 => some (.da .mtcn)
  | 0xA6 => some (.da .radd)
  | 0xA7 => some (.da .rmin)
  | 0xA8 => some (.da .rmax)
  | 0xA9 => some (.da .rbor)
  | 0xAA => some (.da .rband)
  | 0xAB => some (.da .pfx)
  | 0xAC => some (.dab .bcl)
  | 0xAD => some (.da .vote)
  | 0xAE => some (.dab .topk)
  | 0xAF => some (.da .ffs)
  | 0xB0 => some (.dab .ldg)
  | 0xB1 => some (.sab .stg)
  | 0xB2 => some (.dab .ldgs)
  | 0xB3 => some (.sab .stsg)
  | 0xB4 => some (.dab .lds)
  | 0xB5 => some (.sab .sts)
  | 0xB6 => some (.dab .ldcl)
  | 0xB7 => some (.sab .stcl)
  | 0xB8 => some (.dab .ldp)
  | 0xB9 => some (.sab .stp)
  | 0xBA => some (.dab .ldk)
  | 0xBB => some (.dab .ldf)
  | 0xBC => some (.sab .stf)
  | 0xBD => some (.dab .ldv)
  | 0xBE => some (.dab .lde)
  | 0xBF => some (.dab .ldr)
  | 0xC0 => some (.dab .stcn)
  | 0xC1 => some (.dab .aadd)
  | 0xC2 => some (.dab .afad)
  | 0xC3 => some (.dab .amin)
  | 0xC4 => some (.dab .amax)
  | 0xC5 => some (.dab .aand)
  | 0xC6 => some (.dab .aor)
  | 0xC7 => some (.dab .axor)
  | 0xC8 => some (.dab .axch)
  | 0xC9 => some (.dab .acas)
  | 0xCA => some (.dab .asad)
  | 0xCB => some (.dab .ascs)
  | 0xCC => some (.dab .xadd)
  | 0xCD => some (.dab .xcas)
  | 0xCE => some .fnc
  | 0xCF => some (.dab .fsys)
  | 0xD0 => some (.sab .wld)
  | 0xD1 => some (.a .wfmt)
  | 0xD2 => some (.none .wswp)
  | 0xD3 => some (.dab .mma)
  | 0xD4 => some (.dab .mmac)
  | 0xD5 => some (.d .mmz)
  | 0xE0 => some (.a .spm)
  | 0xE1 => some (.a .spj)
  | 0xE2 => some (.a .sbn)
  | 0xE3 => some (.a .sst)
  | 0xE4 => some (.a .sbl)
  | 0xE5 => some (.a .sbk)
  | 0xE8 => some (.a .cpy)
  | 0xE9 => some (.a .lxf)
  | 0xEA => some (.a .hxc)
  | 0xEB => some (.a .ared)
  | 0xEC => some (.a .pub)
  | 0xED => some (.a .vret)
  | 0xEE => some (.a .ckp)
  | 0xF0 => some (.dab .lfe)
  | _ => none




/-- R51. A destination field: it never takes a literal. -/
def decDest (c : Nat) : Except DecodeError Operand :=
  if c < 0xC0 then .ok (.v c)
  else if c < 0xF0 then .ok (.k (c - 0xC0))
  else if c < 0xF8 then .ok (.x (c - 0xF0))
  else if c = 0xFD then .error .reservedField
  else .error .operandClass

/-- R51, R53. A source field, with the literal words it calls for. -/
def decSrc (c : Nat) (ws : List W32) : Except DecodeError (Operand × List W32) :=
  if c < 0xC0 then .ok (.v c, ws)
  else if c < 0xF0 then .ok (.k (c - 0xC0), ws)
  else if c < 0xF8 then .ok (.x (c - 0xF0), ws)
  else if c = 0xF8 then .ok (.zero, ws)
  else if c = 0xF9 then .ok (.one, ws)
  else if c = 0xFA then .ok (.minusOne, ws)
  else if c = 0xFB then .ok (.lane, ws)
  else if c = 0xFC then .ok (.wave, ws)
  else if c = 0xFE then match ws with
    | w :: r => .ok (.lit32 w, r)
    | _ => .error .literalBeyond
  else if c = 0xFF then match ws with
    | lo :: hi :: r => .ok (.lit64 (hi ++ lo), r)
    | _ => .error .literalBeyond
  else .error .reservedField

/-- R66. A field that must name a k register. -/
def decK (c : Nat) : Except DecodeError Nat :=
  if 0xC0 ≤ c ∧ c < 0xF0 then .ok (c - 0xC0)
  else if c = 0xFD then .error .reservedField else .error .operandClass

/-- R56. A predicate field. -/
def decQ (c : BitVec 8) : Except DecodeError (BitVec 4) :=
  if c.extractLsb' 4 4 = 0 then .ok (c.extractLsb' 0 4) else .error .limit

/-- R41. A field that the instruction does not use. -/
def decZero (c : BitVec 8) : Except DecodeError Unit :=
  if c = 0 then .ok () else .error .unusedField

/-- R72. A special register number. -/
def decSpecial (c : BitVec 8) : Except DecodeError SpecialReg :=
  match c.toNat with
  | 0 => .ok .lane | 1 => .ok .wave | 2 => .ok .helper | 3 => .ok .retired | 4 => .ok .timebase | 5 => .ok .step
  | 6 => .ok .fpflags | 7 => .ok .faultmask | 8 => .ok .xva | 9 => .ok .pathmask | 10 => .ok .watch
  | _ => .error .reservedField

/-- R201. A fence kind. -/
def decKind (c : BitVec 2) : FenceKind :=
  match c.toNat with | 0 => .acq | 1 => .rel | 2 => .acqrel | _ => .sc

/-- R197, R236. A scope; 6 and 7 are beyond the limit. -/
def decScope (c : BitVec 3) : Except DecodeError Scope :=
  match c.toNat with
  | 0 => .ok .wave | 1 => .ok .group | 2 => .ok .cluster | 3 => .ok .die | 4 => .ok .device | 5 => .ok .system
  | _ => .error .limit

/-- R41, R53, R66. The instruction of one shape, from its three byte fields and the words that follow; literals stand
in the order d, a, b. -/
def Fmt.decode (d a b : BitVec 8) (ws : List W32) : Fmt → Except DecodeError (Instr × List W32)
  | .none i => do decZero d; decZero a; decZero b; .ok (i, ws)
  | .mode =>
    if d.extractLsb' 6 2 = 0 then .ok (.mode (d.extractLsb' 0 6) (a ++ b), ws) else .error .reservedField
  | .off f => do decZero d; .ok (f (a ++ b), ws)
  | .qoff f => do let q ← decQ d; .ok (f q (a ++ b), ws)
  | .koff f => do let k ← decK d.toNat; .ok (f k (a ++ b), ws)
  | .kreg f => do decZero d; decZero b; let k ← decK a.toNat; .ok (f k, ws)
  | .loop => do decZero d; let k ← decK a.toNat; .ok (.loop k b, ws)
  | .q f => do decZero a; decZero b; let q ← decQ d; .ok (f q, ws)
  | .wcnt => do
    decZero b
    if d.extractLsb' 2 6 ≠ 0 then .error .limit else
    let k ← decK a.toNat
    .ok (.wcnt (d.extractLsb' 0 2) k, ws)
  | .bar => do
    decZero a
    if 1 < d.toNat ∨ 15 < b.toNat then .error .limit else
    .ok (.bar (decide (d = 1)) (b.extractLsb' 0 4), ws)
  | .sysrd => do decZero a; let n ← decSpecial b; let o ← decDest d.toNat; .ok (.sysrd o n, ws)
  | .syswr => do decZero d; let n ← decSpecial b; let (o, r) ← decSrc a.toNat ws; .ok (.syswr o n, r)
  | .wset => do
    decZero a; decZero b
    if d.extractLsb' 2 6 = 0 then .ok (.wset (d.extractLsb' 0 2), ws) else .error .limit
  | .wchk => if d.extractLsb' 2 6 = 0 then .ok (.wchk (d.extractLsb' 0 2) (a ++ b), ws) else .error .limit
  | .fnc => do
    decZero a; decZero b
    if d.extractLsb' 5 3 ≠ 0 then .error .limit else
    let s ← decScope (d.extractLsb' 0 3)
    .ok (.fnc (decKind (d.extractLsb' 3 2)) s, ws)
  | .d f => do decZero a; decZero b; let o ← decDest d.toNat; .ok (f o, ws)
  | .a f => do decZero d; decZero b; let (o, r) ← decSrc a.toNat ws; .ok (f o, r)
  | .da f => do decZero b; let o ← decDest d.toNat; let (p, r) ← decSrc a.toNat ws; .ok (f o p, r)
  | .ab f => do decZero d; let (o, r) ← decSrc a.toNat ws; let (p, r) ← decSrc b.toNat r; .ok (f o p, r)
  | .dab f => do
    let o ← decDest d.toNat; let (p, r) ← decSrc a.toNat ws; let (z, r) ← decSrc b.toNat r; .ok (f o p z, r)
  | .sab f => do
    let (o, r) ← decSrc d.toNat ws; let (p, r) ← decSrc a.toNat r; let (z, r) ← decSrc b.toNat r; .ok (f o p z, r)
  | .qab f => do
    let q ← decQ d; let (o, r) ← decSrc a.toNat ws; let (p, r) ← decSrc b.toNat r; .ok (f q o p, r)
  | .qqq f => do let q ← decQ d; let o ← decQ a; let p ← decQ b; .ok (f q o p, ws)
  | .qq f => do decZero b; let q ← decQ d; let o ← decQ a; .ok (f q o, ws)
  | .qa f => do decZero b; let q ← decQ d; let (o, r) ← decSrc a.toNat ws; .ok (f q o, r)
  | .dq f => do decZero b; let o ← decDest d.toNat; let q ← decQ a; .ok (f o q, ws)
  | .kq => do decZero b; let k ← decK d.toNat; let q ← decQ a; .ok (.kq k q, ws)

/-- R41, R42, R65. The instruction at the head of a list of clause words, with the words after its literals. -/
def decodeInstr : List W32 → Except DecodeError (Instr × List W32)
  | [] => .error .literalBeyond
  | w :: ws =>
    if w.extractLsb' 27 5 = 0b11111 then .error .headerWord else
    match fmtOf (w.extractLsb' 24 8).toNat with
    | none => .error .reservedOpcode
    | some f => do
      let (i, r) ← f.decode (w.extractLsb' 16 8) (w.extractLsb' 8 8) (w.extractLsb' 0 8) ws
      match i.classFault.or i.limitFault with
      | some e => .error e
      | none => .ok (i, r)

/-- R43. The fields of a clause header. -/
structure Header where
  len : Nat
  wait : BitVec 12
  setA : Nat
  setB : Nat
  temps : Bool
  deriving DecidableEq, Repr

/-- R43. Whether the reserved values of the header layout are absent. -/
def Header.valid (h : Header) : Bool :=
  decide (1 ≤ h.len ∧ h.len ≤ 24 ∧ (h.setA ≤ 11 ∨ h.setA = 15) ∧ (h.setB ≤ 11 ∨ h.setB = 15))

/-- R42, R43. A header word: none where the word is no header; the flag of the second component is false where a field
is reserved. -/
def decodeHeader (w : W32) : Option (Header × Bool) :=
  if w.extractLsb' 27 5 = 0b11111 then
    let h : Header := ⟨(w.extractLsb' 22 5).toNat, w.extractLsb' 10 12, (w.extractLsb' 6 4).toNat,
      (w.extractLsb' 2 4).toNat, w.getLsbD 1⟩
    some (h, h.valid && !w.getLsbD 0)
  else none

/-- R2. The words of a little-endian byte string; a last part of fewer than four bytes is dropped. -/
def wordsOfBytes : List Byte → List W32
  | b0 :: b1 :: b2 :: b3 :: r => (b3 ++ b2 ++ b1 ++ b0) :: wordsOfBytes r
  | _ => []

/-- The bytes of a number, the low byte first. -/
def bytesOfNat : Nat → Nat → List Byte
  | 0, _ => []
  | n + 1, w => BitVec.ofNat 8 w :: bytesOfNat n (w / 256)

/-- The bytes of an instruction whose bits are `w`, as the opcode table numbers them, with operand words of zeros up to
the longest instruction of seven words (R2, R53). -/
def tableBytes (nbits w : Nat) : List Byte :=
  bytesOfNat 28 (w % 2 ^ nbits)

/-- The instruction that the decoder reads from the bits of a table row. -/
def decodeTableWord (nbits w : Nat) : Option Instr :=
  match decodeInstr (wordsOfBytes (tableBytes nbits w)) with
  | .ok (i, _) => some i
  | .error _ => none

/-- R349. The fault class and code of a decode error: class 1 illegal instruction, 2 illegal mode, 3 illegal clause. -/
def DecodeError.faultCode : DecodeError → Nat × Nat
  | .reservedOpcode => (1, 0x01)
  | .reservedField => (1, 0x01)
  | .unusedField => (1, 0x02)
  | .operandClass => (1, 0x03)
  | .headerWord => (1, 0x06)
  | .limit => (1, 0x08)
  | .literalBeyond => (3, 0x02)
  | .modeRounding => (2, 0x01)
  | .modeSubgroup => (2, 0x02)

/-- R51. The field byte of an operand. -/
def Operand.code : Operand → BitVec 8
  | .v n => BitVec.ofNat 8 n
  | .k n => BitVec.ofNat 8 (0xC0 + n)
  | .x n => BitVec.ofNat 8 (0xF0 + n)
  | .zero => 0xF8 | .one => 0xF9 | .minusOne => 0xFA | .lane => 0xFB | .wave => 0xFC
  | .lit32 _ => 0xFE
  | .lit64 _ => 0xFF

/-- R53. The literal words of an operand. -/
def Operand.literals : Operand → List W32
  | .lit32 w => [w]
  | .lit64 w => [w.extractLsb' 0 32, w.extractLsb' 32 32]
  | _ => []

/-- The byte of a field. -/
def RawField.byte : RawField → BitVec 8
  | .num n => n
  | .opnd o => o.code

/-- The literal words of a field. -/
def RawField.literals : RawField → List W32
  | .num _ => []
  | .opnd o => o.literals

/-- R41, R53. The words of an instruction: its own word, then the literals of d, a and b. An event has none. -/
def encode (i : Instr) : List W32 :=
  match i.raw with
  | none => []
  | some (op, d, a, b) => (op ++ d.byte ++ a.byte ++ b.byte) :: (d.literals ++ (a.literals ++ b.literals))

/-- R43. The word of a clause header. -/
def encodeHeader (h : Header) : W32 :=
  0b11111#5 ++ BitVec.ofNat 5 h.len ++ h.wait ++ BitVec.ofNat 4 h.setA ++ BitVec.ofNat 4 h.setB ++
    BitVec.ofBool h.temps ++ 0#1

end Sys2Proof
end

