-- ==== Sys2Proof/Machine/Formats.lean ====
section
/-! DEFINITION. The number formats and rounding of chapter 05 (R83 to R109): element types, exact values, the six
rounding modes, the sticky flags, tapered codes, f4, block scales, integer results and the total order. Everything is
computed exactly on natural numbers and rounded once. -/

namespace Sys2Proof.Machine

/-- R57. The element types, in the order of their codes. -/
inductive EType where
  | i8 | n8 | i16 | n16 | i32 | n32 | i64 | n64 | f64 | f32 | f16 | bf16 | t8 | t6 | f4 | b32
  deriving DecidableEq, Repr

/-- R57. The type of a code. -/
def EType.ofCode (c : Nat) : EType :=
  match c with
  | 0 => .i8 | 1 => .n8 | 2 => .i16 | 3 => .n16 | 4 => .i32 | 5 => .n32 | 6 => .i64 | 7 => .n64 | 8 => .f64
  | 9 => .f32 | 10 => .f16 | 11 => .bf16 | 12 => .t8 | 13 => .t6 | 14 => .f4 | _ => .b32

/-- R83. The width of one slot in bits. -/
def EType.bits : EType → Nat
  | .i8 | .n8 | .t8 => 8
  | .i16 | .n16 | .f16 | .bf16 => 16
  | .i32 | .n32 | .f32 | .b32 => 32
  | .i64 | .n64 | .f64 => 64
  | .t6 => 6
  | .f4 => 4

/-- R83. The number of slots of a 32-bit register element, or one for a pair. -/
def EType.slots : EType → Nat
  | .i8 | .n8 | .t8 => 4
  | .i16 | .n16 | .f16 | .bf16 => 2
  | .t6 => 5
  | .f4 => 8
  | _ => 1

/-- R54, R83. Whether an element fills an even/odd pair. -/
def EType.wide : EType → Bool
  | .i64 | .n64 | .f64 => true
  | _ => false

/-- R112. The types called int. -/
def EType.isInt : EType → Bool
  | .i8 | .n8 | .i16 | .n16 | .i32 | .n32 | .i64 | .n64 => true
  | _ => false

/-- R83. The types in are signed. -/
def EType.signed : EType → Bool
  | .i8 | .i16 | .i32 | .i64 => true
  | _ => false

/-- R112. The types called w. -/
def EType.isW : EType → Bool
  | .i32 | .n32 | .i64 | .n64 => true
  | _ => false

/-- R85. The IEEE binary formats. -/
def EType.isFloat : EType → Bool
  | .f64 | .f32 | .f16 | .bf16 => true
  | _ => false

/-- R103. The types that block scales apply to. -/
def EType.scaled : EType → Bool
  | .t8 | .t6 | .f4 => true
  | _ => false

/-- R88. The rounding modes. -/
inductive RMode where
  | rne | rtz | rup | rdn | rna | rod
  deriving DecidableEq, Repr

/-- R57. The rounding mode of a code; 6 and 7 never reach an instruction (R58). -/
def RMode.ofCode (c : Nat) : RMode :=
  match c with
  | 0 => .rne | 1 => .rtz | 2 => .rup | 3 => .rdn | 4 => .rna | _ => .rod

/-- R93. The sticky flags. -/
abbrev FpFlags := BitVec 6

/-- R93. Invalid operation. -/
def fNV : FpFlags := 0b000001
/-- R93. Divide by zero. -/
def fDZ : FpFlags := 0b000010
/-- R93. Overflow. -/
def fOF : FpFlags := 0b000100
/-- R93. Underflow. -/
def fUF : FpFlags := 0b001000
/-- R93. Inexact. -/
def fNX : FpFlags := 0b010000
/-- R93. An integer result was clamped. -/
def fSATD : FpFlags := 0b100000

/-- The flag when a condition holds. -/
def flagIf (c : Bool) (f : FpFlags) : FpFlags := if c then f else 0

/-- R85. A binary format: exponent and fraction widths. -/
structure FFmt where
  eb : Nat
  fb : Nat
  deriving DecidableEq, Repr

/-- R85. f64. -/
def fmt64 : FFmt := ⟨11, 52⟩
/-- R85. f32. -/
def fmt32 : FFmt := ⟨8, 23⟩
/-- R85. f16. -/
def fmt16 : FFmt := ⟨5, 10⟩
/-- R85. bf16. -/
def fmtB16 : FFmt := ⟨8, 7⟩

/-- R85. The format of a floating type; f32 for the others. -/
def EType.ffmt : EType → FFmt
  | .f64 => fmt64
  | .f16 => fmt16
  | .bf16 => fmtB16
  | _ => fmt32

/-- R85. The exponent bias. -/
def FFmt.bias (f : FFmt) : Nat := 2 ^ (f.eb - 1) - 1
/-- The width of the format. -/
def FFmt.width (f : FFmt) : Nat := 1 + f.eb + f.fb
/-- R85. The bits of an infinity. -/
def FFmt.inf (f : FFmt) (neg : Bool) : Nat := (if neg then 2 ^ (f.eb + f.fb) else 0) + (2 ^ f.eb - 1) * 2 ^ f.fb
/-- R85. The largest finite value of a sign. -/
def FFmt.maxFinite (f : FFmt) (neg : Bool) : Nat := f.inf neg - 1
/-- R85. The default NaN. -/
def FFmt.nan (f : FFmt) : Nat := f.inf false + 2 ^ (f.fb - 1)
/-- The bits of a zero of a sign. -/
def FFmt.zero (f : FFmt) (neg : Bool) : Nat := if neg then 2 ^ (f.eb + f.fb) else 0
/-- R85. The exponent of the smallest normal value. -/
def FFmt.emin (f : FFmt) : Int := 1 - (f.bias : Int)

/-- A decoded value: a zero, a finite m · 2^e with m not zero, an infinity, a NaN with its fraction and the fraction's
width, or NaR. -/
inductive FVal where
  | zero (neg : Bool)
  | fin (neg : Bool) (m : Nat) (e : Int)
  | inf (neg : Bool)
  | nan (neg : Bool) (frac width : Nat)
  | nar
  deriving DecidableEq, Repr

/-- R85. The value of the bits of a binary format. -/
def FFmt.decode (f : FFmt) (b : Nat) : FVal :=
  let neg := b / 2 ^ (f.eb + f.fb) % 2 == 1
  let ex := b / 2 ^ f.fb % 2 ^ f.eb
  let fr := b % 2 ^ f.fb
  if ex = 2 ^ f.eb - 1 then (if fr = 0 then .inf neg else .nan neg fr f.fb)
  else if ex = 0 then (if fr = 0 then .zero neg else .fin neg fr (f.emin - f.fb))
  else .fin neg (2 ^ f.fb + fr) ((ex : Int) - f.bias - f.fb)

/-- R85, R87. Whether the bits are a subnormal number. -/
def FFmt.subnormal (f : FFmt) (b : Nat) : Bool :=
  b / 2 ^ f.fb % 2 ^ f.eb == 0 && b % 2 ^ f.fb != 0

/-- R87. The value read under FTZ: a subnormal input of f32, f16 or bf16 is a zero of its sign. -/
def FFmt.decodeFtz (f : FFmt) (ftz : Bool) (b : Nat) : FVal :=
  if ftz && f != fmt64 && f.subnormal b then .zero (b / 2 ^ (f.eb + f.fb) % 2 == 1) else f.decode b

/-- R87. The bits of an input under FTZ: a subnormal of f32, f16 or bf16 becomes a zero of its sign. -/
def FFmt.flushBits (f : FFmt) (ftz : Bool) (b : Nat) : Nat :=
  if ftz && f != fmt64 && f.subnormal b then f.zero (b / 2 ^ (f.eb + f.fb) % 2 == 1) else b

/-- R85. A NaN is signalling when its top fraction bit is 0. -/
def FVal.isSNaN : FVal → Bool
  | .nan _ fr w => fr / 2 ^ (w - 1) % 2 == 0
  | _ => false

/-- Whether a value is a NaN or NaR. -/
def FVal.isNaN : FVal → Bool
  | .nan _ _ _ | .nar => true
  | _ => false

/-- R86. A NaN brought to a format: its sign, its fraction aligned at the top, quieted. NaR gives the default NaN
(R98). -/
def FFmt.quiet (f : FFmt) : FVal → Nat
  | .nan neg fr w =>
    let fr' := if w ≤ f.fb then fr * 2 ^ (f.fb - w) else fr / 2 ^ (w - f.fb)
    f.inf neg + (fr' ||| 2 ^ (f.fb - 1))
  | _ => f.nan

/-- R86, R98. The flags of a NaN operand: NV for a signalling NaN or a NaR. -/
def FVal.nanFlags (v : FVal) : FpFlags := flagIf (v.isSNaN || v == .nar) fNV

/-- R88. Whether the magnitude between two neighbours goes to the upper one: the sign, whether the lower neighbour is
odd, and the place of the value against the midpoint (it is not representable). -/
def roundUp (rm : RMode) (neg odd : Bool) (mid : Ordering) : Bool :=
  match rm with
  | .rne => mid == .gt || (mid == .eq && odd)
  | .rtz => false
  | .rup => !neg
  | .rdn => neg
  | .rna => mid != .lt
  | .rod => !odd

/-- R88. The magnitude m · 2^e (a little more when sticky) on the grid of multiples of 2^q: the multiple and whether
it is exact. When sticky, q is to be above e. -/
def roundGridAt (rm : RMode) (neg : Bool) (m : Nat) (e : Int) (sticky : Bool) (q : Int) : Nat × Bool :=
  if q ≤ e then (m * 2 ^ (e - q).toNat, !sticky)
  else
    let s := (q - e).toNat
    let lo := m / 2 ^ s
    let r := m % 2 ^ s
    if r = 0 ∧ !sticky then (lo, true)
    else
      let mid := if r < 2 ^ (s - 1) then Ordering.lt
        else if r = 2 ^ (s - 1) ∧ !sticky then Ordering.eq else Ordering.gt
      (if roundUp rm neg (lo % 2 == 1) mid then lo + 1 else lo, false)

/-- R88 to R90, R87. Round the non-zero magnitude m · 2^e (a little more when sticky; m then has at least two bits more
than the format) once to a format: the bits and the flags. -/
def FFmt.round (f : FFmt) (rm : RMode) (ftz neg : Bool) (m : Nat) (e : Int) (sticky : Bool) : Nat × FpFlags :=
  let top : Int := e + (Nat.log2 m : Int)
  let q := max (top - f.fb) (f.emin - f.fb)
  let (sig, exact) := roundGridAt rm neg m e sticky q
  let (sigU, _) := roundGridAt rm neg m e sticky (top - f.fb)
  let sign := f.zero neg
  let field : Int := q + f.fb + f.bias
  let ex : Int := if sig < 2 ^ (f.fb + 1) then field else field + 1
  if (2 ^ f.eb - 1 : Int) ≤ ex then
    -- R89
    let b := match rm with
      | .rne | .rna => f.inf neg
      | .rtz | .rod => f.maxFinite neg
      | .rup => if neg then f.maxFinite neg else f.inf neg
      | .rdn => if neg then f.inf neg else f.maxFinite neg
    (b, fOF ||| fNX)
  else
    let tiny := decide (top < f.emin) && decide (top + 1 < f.emin ∨ sigU < 2 ^ (f.fb + 1))
    let bits := sign + (if sig < 2 ^ f.fb then sig else (field.toNat - 1) * 2 ^ f.fb + sig)
    if ftz && f != fmt64 && sig < 2 ^ f.fb then (sign, fUF ||| fNX)
    else (bits, flagIf (!exact) fNX ||| flagIf (!exact && tiny) fUF)

/-- The sum of two signed multiples of powers of two: the sign, the magnitude and the exponent. -/
def addDyadic (na : Bool) (ma : Nat) (ea : Int) (nb : Bool) (mb : Nat) (eb : Int) : Bool × Nat × Int :=
  let e := min ea eb
  let x := ma * 2 ^ (ea - e).toNat
  let y := mb * 2 ^ (eb - e).toNat
  if na == nb then (na, x + y, e) else if y ≤ x then (na, x - y, e) else (nb, y - x, e)

/-- R88. The sign of an exact zero sum of opposite-signed values. -/
def zeroSumSign (rm : RMode) : Bool := rm == .rdn

/-- R86. The first NaN of a list of operands with its flags: NV if any operand is signalling or NaR. -/
def nanResult (f : FFmt) (vs : List FVal) : Nat × FpFlags :=
  let first := (vs.find? FVal.isNaN).getD .nar
  (f.quiet first, vs.foldl (fun a v => a ||| v.nanFlags) 0)

/-- R120. Round(a + b); negB negates b exactly. -/
def FFmt.addV (f : FFmt) (rm : RMode) (ftz negB : Bool) (a b : FVal) : Nat × FpFlags :=
  if a.isNaN || b.isNaN then nanResult f [a, b]
  else match a, b with
    | .inf s, .inf t => if s == (t != negB) then (f.inf s, 0) else (f.nan, fNV)
    | .inf s, _ => (f.inf s, 0)
    | _, .inf t => (f.inf (t != negB), 0)
    | .zero s, .zero t => (f.zero (if s == (t != negB) then s else zeroSumSign rm), 0)
    | .zero _, .fin t m e => f.round rm ftz (t != negB) m e false
    | .fin s m e, .zero _ => f.round rm ftz s m e false
    | .fin s m e, .fin t m' e' =>
      let (n, x, g) := addDyadic s m e (t != negB) m' e'
      if x = 0 then (f.zero (zeroSumSign rm), 0) else f.round rm ftz n x g false
    | _, _ => (f.nan, fNV)

/-- R120. Round(a · b). -/
def FFmt.mulV (f : FFmt) (rm : RMode) (ftz : Bool) (a b : FVal) : Nat × FpFlags :=
  if a.isNaN || b.isNaN then nanResult f [a, b]
  else match a, b with
    | .inf _, .zero _ | .zero _, .inf _ => (f.nan, fNV)
    | .inf s, .inf t | .inf s, .fin t _ _ | .fin s _ _, .inf t => (f.inf (s != t), 0)
    | .zero s, .zero t | .zero s, .fin t _ _ | .fin s _ _, .zero t => (f.zero (s != t), 0)
    | .fin s m e, .fin t m' e' => f.round rm ftz (s != t) (m * m') (e + e') false
    | _, _ => (f.nan, fNV)

/-- The exact product of two values that are not NaN, or none for 0 · ∞ (R86). -/
def exactMul (a b : FVal) : Option FVal :=
  match a, b with
  | .inf _, .zero _ | .zero _, .inf _ => none
  | .inf s, .inf t | .inf s, .fin t _ _ | .fin s _ _, .inf t => some (.inf (s != t))
  | .zero s, .zero t | .zero s, .fin t _ _ | .fin s _ _, .zero t => some (.zero (s != t))
  | .fin s m e, .fin t m' e' => some (.fin (s != t) (m * m') (e + e'))
  | _, _ => none

/-- A value with its sign inverted when asked; a NaN is left alone. -/
def FVal.negIf (c : Bool) : FVal → FVal
  | .zero s => .zero (s != c)
  | .fin s m e => .fin (s != c) m e
  | .inf s => .inf (s != c)
  | v => v

/-- R86, R120. Round(±(a · b) ± d), one rounding. -/
def FFmt.fmaV (f : FFmt) (rm : RMode) (ftz negP negD : Bool) (a b d : FVal) : Nat × FpFlags :=
  if a.isNaN || b.isNaN || d.isNaN then nanResult f [a, b, d]
  else match exactMul a b with
    | none => (f.nan, fNV)
    | some p => f.addV rm ftz negD (p.negIf negP) d

/-- The floor of a square root, bit by bit from 2^n down. -/
def isqrtAux (x : Nat) : Nat → Nat → Nat
  | 0, r => r
  | n + 1, r => let r' := r + 2 ^ n; isqrtAux x n (if r' * r' ≤ x then r' else r)

/-- The floor of a square root. -/
def isqrt (x : Nat) : Nat := isqrtAux x (Nat.log2 x / 2 + 1) 0

/-- R123. Round(a / b). -/
def FFmt.divV (f : FFmt) (rm : RMode) (ftz : Bool) (a b : FVal) : Nat × FpFlags :=
  if a.isNaN || b.isNaN then nanResult f [a, b]
  else match a, b with
    | .inf _, .inf _ | .zero _, .zero _ => (f.nan, fNV)
    | .inf s, .zero t | .inf s, .fin t _ _ => (f.inf (s != t), 0)
    | .fin s _ _, .zero t => (f.inf (s != t), fDZ)
    | .zero s, .inf t | .zero s, .fin t _ _ | .fin s _ _, .inf t => (f.zero (s != t), 0)
    | .fin s m e, .fin t m' e' =>
      let k := f.fb + 4 + Nat.log2 m'
      let n := m * 2 ^ k
      f.round rm ftz (s != t) (n / m') (e - e' - k) (n % m' != 0)
    | _, _ => (f.nan, fNV)

/-- R123. Round(√a). -/
def FFmt.sqrtV (f : FFmt) (rm : RMode) (ftz : Bool) (a : FVal) : Nat × FpFlags :=
  match a with
  | .zero s => (f.zero s, 0)
  | .inf false => (f.inf false, 0)
  | .fin false m e =>
    let k := 2 * (f.fb + 3) + (if e % 2 = 0 then 0 else 1)
    let x := m * 2 ^ k
    let r := isqrt x
    f.round rm ftz false r ((e - k) / 2) (r * r != x)
  | .inf true | .fin true _ _ => (f.nan, fNV)
  | v => nanResult f [v]

/-- An exact non-negative rational. -/
structure QVal where
  num : Nat
  den : Nat
  deriving DecidableEq, Repr

/-- m · 2^e as a rational. -/
def QVal.ofDyadic (m : Nat) (e : Int) : QVal :=
  if 0 ≤ e then ⟨m * 2 ^ e.toNat, 1⟩ else ⟨m, 2 ^ (-e).toNat⟩

/-- The order of two rationals. -/
def QVal.cmp (a b : QVal) : Ordering := compare (a.num * b.den) (b.num * a.den)

/-- R88. Round a non-zero rational to a format. -/
def FFmt.roundQ (f : FFmt) (rm : RMode) (ftz neg : Bool) (x : QVal) : Nat × FpFlags :=
  let k := f.fb + 4 + Nat.log2 x.den
  let n := x.num * 2 ^ k
  f.round rm ftz neg (n / x.den) (-(k : Int)) (n % x.den != 0)

/-- R95. Decode_taper of a code of n bits. -/
def decodeTaper (c n : Nat) : FVal :=
  if c = 0 then .zero false
  else if c = 2 ^ (n - 1) then .nar
  else
    let neg := 2 ^ (n - 1) ≤ c
    let c := if neg then 2 ^ n - c else c
    -- the n - 1 bits after the sign, the first at weight 2^(n-2)
    let bitAt := fun i : Nat => c / 2 ^ (n - 2 - i) % 2
    let first := bitAt 0
    let m := ((List.range (n - 1)).takeWhile (fun i => bitAt i == first)).length
    let k : Int := if first = 1 then (m : Int) - 1 else -(m : Int)
    let restLen := n - 1 - m - 1
    let rest := c % 2 ^ restLen
    let e : Nat := if restLen = 0 then 0 else rest / 2 ^ (restLen - 1)
    let fl := restLen - 1
    let fr := rest % 2 ^ fl
    .fin neg (2 ^ fl + fr) (2 * k + e - fl)

/-- R99. The magnitude of an f4 code below 8, in halves. -/
def f4Halves (c : Nat) : Nat :=
  match c with
  | 0 => 0 | 1 => 1 | 2 => 2 | 3 => 3 | 4 => 4 | 5 => 6 | 6 => 8 | _ => 12

/-- R99, R100. Decode_f4: code 0b1000 is the f16 value of E. -/
def decodeF4 (c : Nat) (e : Nat) : FVal :=
  if c = 8 then fmt16.decode e
  else if c % 8 = 0 then .zero false
  else .fin (8 ≤ c) (f4Halves (c % 8)) (-1)

/-- R88, R98, R101. The code of a magnitude among the codes 1 to top, of rising value: the greatest code whose value is
at most x (0 if none), whether it is exact, and the rounded code. -/
def roundCodes (val : Nat → QVal) (top : Nat) (rm : RMode) (neg : Bool) (x : QVal) : Nat × Bool :=
  let lo := ((List.range (top + 1)).filter (fun c => c == 0 || (val c).cmp x != .gt)).length - 1
  if lo ≠ 0 ∧ (val lo).cmp x = .eq then (lo, true)
  else
    let v := if lo = 0 then ⟨0, 1⟩ else val lo
    let h := val (lo + 1)
    let mid : QVal := ⟨v.num * h.den + h.num * v.den, 2 * v.den * h.den⟩
    (if roundUp rm neg (lo % 2 == 1) (x.cmp mid) then lo + 1 else lo, false)

/-- The magnitude of a decoded value as a rational; zero for what is no number. -/
def FVal.mag : FVal → QVal
  | .fin _ m e => QVal.ofDyadic m e
  | _ => ⟨0, 1⟩

/-- R98. Encode_taper of a non-zero rational. -/
def encodeTaperQ (n : Nat) (rm : RMode) (neg : Bool) (x : QVal) : Nat × FpFlags :=
  let val := fun c => (decodeTaper c n).mag
  let top := 2 ^ (n - 1) - 1
  let (c, fl) :=
    if x.cmp (val 1) = .lt then (1, fUF ||| fNX)
    else if x.cmp (val top) = .gt then (top, fOF ||| fNX)
    else
      let (c, exact) := roundCodes val top rm neg x
      (c, flagIf (!exact) fNX)
  (if neg then 2 ^ n - c else c, fl)

/-- R101. The f4 encoding of a non-zero rational. -/
def encodeF4Q (rm : RMode) (neg : Bool) (x : QVal) : Nat × FpFlags :=
  let val := fun c => (⟨f4Halves c, 2⟩ : QVal)
  if x.cmp ⟨6, 1⟩ = .gt then (if neg then 15 else 7, fOF ||| fNX)
  else
    let (c, exact) := roundCodes val 7 rm neg x
    if c = 0 then (0, fUF ||| fNX) else (if neg then 8 + c else c, flagIf (!exact) fNX)

/-- R98, R101. The code of a decoded value in a tapered type or f4. -/
def encodeNarrow (t : EType) (rm : RMode) (v : FVal) : Nat × FpFlags :=
  let n := t.bits
  match v with
  | .zero _ => (0, 0)
  | .fin neg m e => if t == .f4 then encodeF4Q rm neg (QVal.ofDyadic m e) else encodeTaperQ n rm neg (QVal.ofDyadic m e)
  | .inf neg => if t == .f4 then (if neg then 15 else 7, fOF) else (2 ^ (n - 1), fNV)
  | .nan _ _ _ => if t == .f4 then (0, fNV) else (2 ^ (n - 1), fNV)
  | .nar => if t == .f4 then (0, fNV) else (2 ^ (n - 1), 0)

/-- Two's complement: the integer that n bits stand for. -/
def toSigned (n b : Nat) : Int := if b % 2 ^ n < 2 ^ (n - 1) then (b % 2 ^ n : Nat) else (b % 2 ^ n : Nat) - (2 ^ n : Nat)

/-- R111. The integer that a slot's bits stand for. -/
def EType.intVal (t : EType) (b : Nat) : Int :=
  if t.signed then toSigned t.bits b else ((b % 2 ^ t.bits : Nat) : Int)

/-- R8. Wrap(x, n). -/
def wrapInt (n : Nat) (x : Int) : Nat := (x % (2 ^ n : Nat)).toNat

/-- R91. The least value of an integer type. -/
def EType.minInt (t : EType) : Int := if t.signed then -((2 ^ (t.bits - 1) : Nat) : Int) else 0
/-- R91. The greatest value of an integer type. -/
def EType.maxInt (t : EType) : Int :=
  if t.signed then ((2 ^ (t.bits - 1) : Nat) : Int) - 1 else ((2 ^ t.bits : Nat) : Int) - 1

/-- R111. WriteInt. -/
def writeInt (sat : Bool) (t : EType) (x : Int) : Nat × FpFlags :=
  if sat then
    if x < t.minInt then (wrapInt t.bits t.minInt, fSATD)
    else if t.maxInt < x then (wrapInt t.bits t.maxInt, fSATD)
    else (wrapInt t.bits x, 0)
  else (wrapInt t.bits x, 0)

/-- R95, R99, R128. The value of an element's bits: IEEE types under FTZ, tapered and f4 codes exactly, integers at
their value. -/
def EType.decodeV (t : EType) (ftz : Bool) (xva : Nat) (b : Nat) : FVal :=
  match t with
  | .f64 | .f32 | .f16 | .bf16 => t.ffmt.decodeFtz ftz b
  | .t8 => decodeTaper (b % 256) 8
  | .t6 => decodeTaper (b % 64) 6
  | .f4 => decodeF4 (b % 16) xva
  | _ =>
    let i := t.intVal b
    if i = 0 then .zero false else .fin (i < 0) i.natAbs 0

/-- R88, R92. A magnitude rounded to an integer, with whether it was one. -/
def roundToInt (rm : RMode) (neg : Bool) (m : Nat) (e : Int) : Nat × Bool := roundGridAt rm neg m e false 0

/-- R92. A floating or tapered value converted to an integer type. -/
def floatToInt (rm : RMode) (sat : Bool) (t : EType) (v : FVal) : Nat × FpFlags :=
  let indefinite := 2 ^ (t.bits - 1)
  let beyond := fun neg : Bool =>
    if sat then (wrapInt t.bits (if neg then t.minInt else t.maxInt), fSATD) else (indefinite, fNV)
  match v with
  | .zero _ => (0, 0)
  | .inf neg => beyond neg
  | .nan _ _ _ | .nar => (if sat then 0 else indefinite, fNV)
  | .fin neg m e =>
    let (r, exact) := roundToInt rm neg m e
    let i : Int := if neg then -(r : Int) else r
    if i < t.minInt then beyond true
    else if t.maxInt < i then beyond false
    else (wrapInt t.bits i, flagIf (!exact) fNX)

/-- R128. A decoded value converted to a type: the result bits and the flags. -/
def convertV (rm : RMode) (ftz sat : Bool) (src dst : EType) (v : FVal) (b : Nat) : Nat × FpFlags :=
  if dst.isInt then
    if src.isInt then writeInt sat dst (src.intVal b) else floatToInt rm sat dst v
  else if dst.isFloat then
    match v with
    | .zero s => (dst.ffmt.zero s, 0)
    | .inf s => (dst.ffmt.inf s, 0)
    | .fin s m e => dst.ffmt.round rm ftz s m e false
    | v => (dst.ffmt.quiet v, v.nanFlags)
  else encodeNarrow dst rm v

/-- R102. Scale_bs20: none for a NaN block; the value is a zero or (4096 + f) · 2^(e - 127 - 12). -/
def scaleVal (s : Nat) : Option FVal :=
  let e : Nat := s / 2 ^ 12 % 256
  let f : Nat := s % 2 ^ 12
  if e = 255 then none
  else if e = 0 then some (.zero false)
  else some (.fin false (2 ^ 12 + f) ((e : Int) - 127 - 12))

/-- R102, R129. The least BS20 value with e from 1 to 254 that is at least a positive rational in range. -/
def scaleAtLeast (x : QVal) : Nat :=
  -- x = 2^k · y with 1 ≤ y < 2: k from the lengths of numerator and denominator
  let k0 : Int := (Nat.log2 x.num : Int) - (Nat.log2 x.den : Int)
  let pow := fun k : Int => QVal.ofDyadic 1 k
  let k := if (pow k0).cmp x = .gt then k0 - 1 else k0
  -- f = ⌈(x / 2^k - 1) · 4096⌉
  let n := if 0 ≤ k then x.num * 4096 else x.num * 4096 * 2 ^ (-k).toNat
  let d := if 0 ≤ k then x.den * 2 ^ k.toNat else x.den
  let c := (n + d - 1) / d - 4096
  let (k, c) := if c = 4096 then (k + 1, 0) else (k, c)
  ((k + 127).toNat) * 4096 + c

/-- R129. The largest value of a scaled type. -/
def EType.scaleMax : EType → Nat
  | .t8 => 4096
  | .t6 => 256
  | _ => 6

/-- R129. The block scale for a largest magnitude. -/
def blockScale (t : EType) (v : FVal) : Nat × FpFlags :=
  match v with
  | .nan _ _ _ | .nar => (0xFF000, fNV)
  | .zero _ => (0, 0)
  | .inf _ => (0xFEFFF, fOF)
  | .fin _ m e =>
    let a := QVal.ofDyadic m e
    let x : QVal := ⟨a.num, a.den * t.scaleMax⟩
    if x.cmp (QVal.ofDyadic (2 ^ 13 - 1) (127 - 12)) = .gt then (0xFEFFF, fOF)
    else if x.cmp (QVal.ofDyadic 1 (-126)) = .lt then (0x01000, 0)
    else (scaleAtLeast x, 0)

/-- R130. A value quantised with a scale. -/
def quantise (t : EType) (rm : RMode) (v : FVal) (s : Nat) : Nat × FpFlags :=
  match scaleVal s with
  | none => (if t == .f4 then 0 else 2 ^ (t.bits - 1), fNV)
  | some (.fin _ sm se) =>
    match v with
    | .fin neg m e =>
      let a := QVal.ofDyadic m e
      let d := QVal.ofDyadic sm se
      let y : QVal := ⟨a.num * d.den, a.den * d.num⟩
      if t == .f4 then encodeF4Q rm neg y else encodeTaperQ t.bits rm neg y
    | v => encodeNarrow t rm v
  | some _ => (0, 0)

/-- R131. The order of two values, none if either is a NaN; the zeros are equal. -/
def cmpV (a b : FVal) : Option Ordering :=
  let key : FVal → Option (Int × QVal) := fun v => match v with
    | .zero _ => some (0, ⟨0, 1⟩)
    | .fin neg m e => some (if neg then -1 else 1, QVal.ofDyadic m e)
    | .inf neg => some (if neg then -2 else 2, ⟨0, 1⟩)
    | _ => none
  match key a, key b with
  | some (s, x), some (t, y) =>
    some (if s < t then .lt else if t < s then .gt else if s = -1 then y.cmp x else if s = 1 then x.cmp y else .eq)
  | _, _ => none

/-- R121. fmin (least) or fmax of two bit patterns of a format. -/
def FFmt.minmax (f : FFmt) (least ftz : Bool) (a b : Nat) : Nat × FpFlags :=
  let a := f.flushBits ftz a
  let b := f.flushBits ftz b
  let va := f.decode a
  let vb := f.decode b
  let flags := flagIf (va.isSNaN || vb.isSNaN) fNV
  if va.isNaN && vb.isNaN then (f.quiet va, flags)
  else if va.isNaN then (b, flags)
  else if vb.isNaN then (a, flags)
  else
    let neg := fun x : Nat => x / 2 ^ (f.eb + f.fb) % 2 == 1
    let lt := match cmpV va vb with
      | some .lt => true
      | some .gt => false
      | _ => neg a && !neg b
    (if lt == least then a else b, flags)

/-- The signed magnitude of a format's bits as an integer that rises with the value, the zeros apart. -/
def signedMag (w b : Nat) : Int :=
  if b / 2 ^ (w - 1) % 2 = 1 then -((b % 2 ^ (w - 1) : Nat) : Int) - 1 else ((b % 2 ^ (w - 1) : Nat) : Int)

/-- R109. The f16 encoding of an f4 code's value. -/
def f4AsF16 (c xva : Nat) : Nat :=
  match decodeF4 c xva with
  | .fin neg m e => (fmt16.round .rne false neg m e false).1
  | .zero s => fmt16.zero s
  | _ => xva

/-- R109, R147. The rank of an element in the total order: two elements have the same rank exactly when their keys are
equal, and the lower key ranks lower. -/
def rankKey (t : EType) (xva b : Nat) : Int × Int :=
  match t with
  | .f64 | .f32 | .f16 | .bf16 =>
    if (t.ffmt.decode b).isNaN then (0, ((b % 2 ^ t.bits : Nat) : Int)) else (1, signedMag t.bits b)
  | .t8 | .t6 => if b % 2 ^ t.bits = 2 ^ (t.bits - 1) then (-1, 0) else (1, toSigned t.bits b)
  | .f4 =>
    if (decodeF4 (b % 16) xva).isNaN then (0, (xva : Int))
    else (1, 2 * signedMag 16 (f4AsF16 (b % 16) xva) + (if b % 16 = 8 then 0 else 1))
  | _ => (1, t.intVal b)

/-- The lexicographic order of two ranks. -/
def rankLt (x y : Int × Int) : Bool := decide (x.1 < y.1 ∨ (x.1 = y.1 ∧ x.2 < y.2))

/-- R8, R109. Less_total. -/
def lessTotal (t : EType) (xva x i y j : Nat) : Bool :=
  let p := rankKey t xva x
  let q := rankKey t xva y
  rankLt p q || (p == q && decide (j < i))

/-- R107. Tree over a list that is not empty; the fuel is its length. -/
def treeFold {α : Type} (combine : α → α → α) (dflt : α) : Nat → List α → α
  | 0, _ => dflt
  | _ + 1, [] => dflt
  | _ + 1, [x] => x
  | fuel + 1, xs =>
    let n := xs.length
    let l := Nat.log2 (n - 1)
    let m := 2 ^ l
    combine (treeFold combine dflt fuel (xs.take m)) (treeFold combine dflt fuel (xs.drop m))

/-- R108, R257. One byte of the reflected CRC-64. -/
def crcStep (c : BitVec 64) (y : Byte) : BitVec 64 :=
  let poly : BitVec 64 := 0xC96C5795D7870F42
  (List.range 8).foldl (fun c _ => if c.getLsbD 0 then (c >>> 1) ^^^ poly else c >>> 1) (c ^^^ y.setWidth 64)

/-- R108, R257. The checksum of bytes after a seed. -/
def crc64 (seed : BitVec 64) (bs : List Byte) : BitVec 64 := ~~~ (bs.foldl crcStep (~~~ seed))

end Sys2Proof.Machine
end

