-- ==== Sys2Proof/Config.lean ====
section
/-! DEFINITION. What an implementation fixes and the free values: constants without a body, applied to a counter of the
state or to the operands they depend on, so that no proof can see them (log entries 4, 9, 10). -/

namespace Sys2Proof.Config

/-- How many timebase ticks of 1 ns pass with a step (R3, R282; log 10). -/
opaque tick : Nat → Nat

/-- How many arithmetic clocks pass with a step (R283; log 10). -/
opaque clocks : Nat → Nat

/-- Whether a load that finds its line in the L1 is served from it (R209; log 7). -/
opaque l1Serves : Nat → Bool

/-- Which line of a full L1 a fill replaces (R11; log 7). -/
opaque l1Victim : Nat → Nat

/-- The set of a die's L2 that a line falls into (R211; log 63). -/
opaque l2Set : Nat → Nat

/-- Which line of its set a die's L2 replaces as another line comes in, if it replaces one (R210, R211; log 63). -/
opaque l2Victim : Nat → Nat

/-- Which line's entry the directory evicts as another line comes in, if it evicts one (R210, R211; log 63). -/
opaque dirVictim : Nat → Nat

/-- Which entry of a full TLB a translation unit replaces (R335; log 65). -/
opaque tlbVictim : Nat → Nat

/-- Which of the codings that fit the sender of a unit chooses (R314; log 69). -/
opaque unitMethod : Nat → Nat

/-- The soft errors of the storage (R365; log 70): none, or the kind of storage, whether the error is uncorrectable, and
three numbers of the place. -/
opaque upset : Nat → List Nat

/-- The HBM traffic of a context over the trailing 10 µs, in units of 64 GB/s (R298; log 71). -/
opaque hbmDemand : Nat → Nat → Nat

/-- The power of the auxiliary rail, in watts (R411, R413; log 71). -/
opaque auxPower : Nat → Nat

/-- A context's share of module power over the trailing 10 µs, in units of 8 W (R298, R411; log 71). -/
opaque powerDemand : Nat → Nat → Nat

/-- The global address of the private backing that the driver has assigned to a wave slot of a context, by its place
(R226, R360; log 73). -/
opaque privateBacking : Nat → Nat → BitVec 64

/-- A number of `freeBits` bits with no constraint, one for each value of the counter (log 4). -/
opaque freeWord : Nat → BitVec 64

/-- The path that carries the transactions to a granule of a destination, as an index into the usable paths (R306). -/
opaque pathPick : Nat → Nat → List Nat → Nat

/-- SHAKE256 with 64 bytes of output, which the manual names and does not define (R344, R345, R355; log 9). -/
opaque shake256 : List Byte → List Byte

/-- The Falcon-1024 signature of the device's identity key, 1,280 bytes (R344, R345; log 9). -/
opaque falconSign : List Byte → List Byte

/-- Whether a staged firmware image carries a good signature (R344, R413; log 9). -/
opaque firmwareGood : List Byte → Bool

/-- The manufacturing lot and unit number, bytes 4 to 15 of the serial number (R415). -/
opaque serialUnit : List Byte

end Sys2Proof.Config
end

