-- ==== Sys2Proof/Machine/State.lean ====
section
/-! DEFINITION. The state of the device as plain data: everything the manual gives the machine, the clause in execution
and the inputs to come; the reasons a step stops; and the state after reset. -/

namespace Sys2Proof.Machine

/-- A byte-addressed memory: the listed cells in rising order of address, none of them zero; an address that is not
listed reads as zero (log 1). -/
abbrev Memory := List Host.Cell

/-- The canonical form of a memory: addresses strictly rising and no cell equal to the byte that an unlisted address
reads as. -/
def Memory.wf : Memory → Bool
  | [] => true
  | [(_, b)] => b != 0
  | (a, b) :: (a', b') :: r => b != 0 && decide (a < a') && Memory.wf ((a', b') :: r)

/-- R45, R60. A completion flag: the instructions in flight that have yet to clear it, and whether it stays set in the
faulted state. Both paths of a wave may hold one instruction's mark, inherited at a divergence. -/
structure FlagState where
  ops : List Nat
  faulted : Bool
  deriving DecidableEq, Repr

/-- R274. One entry of a loop stack: the body [start, stop), the count left and the lanes that broke out. -/
structure LoopEntry where
  start : W64
  stop : W64
  count : W32
  broken : Lanes
  deriving DecidableEq, Repr

/-- R361. What a path waits for at a clause boundary, beside its flags. -/
inductive Wait where
  | none
  /-- R279. A barrier of the group (false) or of the cluster (true). -/
  | barrier (cluster : Bool) (n : Nat)
  /-- R277. A group counter that is to fall to a threshold. -/
  | wcnt (ctr : Nat) (threshold : W32)
  /-- R241. The verdicts of a watch set; the repair label. -/
  | wchk (set : Nat) (target : W64)
  /-- R267. Waiting in the arrived mask of the dual entry. -/
  | join
  deriving DecidableEq, Repr

/-- R45, R317, R361, R366. Where a pending fault is raised. -/
inductive Trigger where
  | flag (n : Nat)
  | wcntGlob (op : Nat)
  | release
  deriving DecidableEq, Repr

/-- R329. What reads bytes of a peer's memory beside the accesses of the lanes: an operation of a unit, by its number, the
walker of a context, or the clause fetch of a wave. -/
inductive Reader where
  | unit (op : Nat)
  | walker (ctx : Nat)
  | fetch (w : WaveId)
  deriving DecidableEq, Repr

/-- R217, R286, R313. What the next clause of a path lacked when it was last found not ready. -/
inductive Park where
  | none
  /-- R312. Units of the send allowance of a destination. -/
  | allowance (dest units : Nat)
  /-- R217. Free entries of a die's range-lock table. -/
  | locks (die entries : Nat)
  /-- R286. Room among the context's accepted graphs. -/
  | graphs
  /-- R309. The right of a page that is to come home before a copy on first store. -/
  | right (page : Nat)
  /-- R163. The matrix queue of a core, in which a clause that holds is to place what it has issued. -/
  | queue (core : Nat)
  /-- R329. Bytes of a peer's memory that have been asked for. -/
  | fetch (r : Reader)
  /-- R334. The end of the revocations of a context's translations. -/
  | revocation (ctx : Nat)
  deriving DecidableEq, Repr

/-- R317, R366. A fault that rests on a path until its trigger. -/
structure PendingFault where
  trigger : Trigger
  cls : Nat
  code : Nat
  mask : Lanes
  addr : W64
  uncertain : Bool
  /-- R366. Of a matrix operation: the flag of a later matrix instruction of the path raises it too. -/
  matrix : Bool
  deriving DecidableEq, Repr

/-- R266. One path of a wave. -/
structure Path where
  live : Bool
  pc : W64
  mask : Lanes
  mode : BitVec 16
  flags : List FlagState
  /-- Innermost entry first. -/
  loops : List LoopEntry
  ageing : Nat
  join : Option W64
  wait : Wait
  /-- R313. Why the path is parked at its clause boundary; no part of an image, where it is found anew. -/
  park : Park
  pending : List PendingFault
  /-- R39. Issue slots the path has used. -/
  slots : Nat
  deriving DecidableEq, Repr

/-- R266, R362. One entry of the divergence stack. -/
structure DivEntry where
  j : W64
  mode : BitVec 16
  loops : List LoopEntry
  arrived : Lanes
  /-- R274. The broken lanes of the arms that have arrived, one mask for each saved loop entry. -/
  broke : List Lanes
  /-- R267. The deferred arm: its PC and its lanes. -/
  deferred : Option (W64 × Lanes)
  dual : Bool
  /-- The path that owns a serial entry. -/
  owner : Nat
  deriving DecidableEq, Repr

/-- A physical place of a byte: the tiers of R329, the scratchpads, the private spaces, and fabric addresses. -/
inductive Space where
  | hbm
  | lpddr
  | host
  | scratch (launch group : Nat)
  | priv (w : WaveId)
  | const (launch : Nat)
  | fabric
  deriving DecidableEq, Repr

/-- A place in a space. -/
structure Loc where
  space : Space
  addr : Nat
  deriving DecidableEq, Repr

/-- R365. A granule of storage that its check protects: 32 bits of a register, 64 bits of a scratchpad or a weight bank,
32 bytes of a line in a die's L2 or of memory. -/
inductive Granule where
  /-- A lane of a vector register. -/
  | vector (w : WaveId) (n lane : Nat)
  /-- A half of a scalar register. -/
  | scalar (w : WaveId) (n half : Nat)
  /-- A half of a predicate. -/
  | pred (w : WaveId) (n half : Nat)
  /-- A lane of a temporary. -/
  | temp (w : WaveId) (n lane : Nat)
  | scratch (launch group i : Nat)
  | bank (core bank i : Nat)
  /-- In a line that a die holds in M or O. -/
  | l2 (die : Nat) (at_ : Loc)
  | memory (at_ : Loc)
  deriving DecidableEq, Repr

/-- R365, R408. The error counts of a structure. -/
structure ErrorCount where
  structure_ : Nat
  corrected : Nat
  uncorrectable : Nat
  deriving DecidableEq, Repr

/-- R212. The state of a watch entry. -/
inductive WatchState where
  | pending | confirmed | struck
  deriving DecidableEq, Repr

/-- R240, R362. One watch entry. -/
structure WatchEntry where
  /-- The number under which its verdict is asked for. -/
  id : Nat
  fabric : Bool
  /-- The line: a physical one for `lde`, a fabric one for `lfe`. -/
  line : Loc
  va : W64
  seq : W32
  set : Nat
  lanes : Lanes
  state : WatchState
  deriving DecidableEq, Repr

/-- R234, R235. A lane's reservation on a 128-byte line. -/
structure Reservation where
  lane : Nat
  line : Loc
  /-- The 64 KiB page of the context that the line lies in, for the clear of a copy on first store. -/
  page : Nat
  deriving DecidableEq, Repr

/-- R349, R350. A fault as it is reported. -/
structure FaultInfo where
  cls : Nat
  code : Nat
  mask : Lanes
  addr : W64
  pc : W64
  uncertain : Bool
  deriving DecidableEq, Repr

/-- R350. The 64-byte wave status block. -/
structure StatusBlock where
  time : W64
  otherpc : W64
  mode : BitVec 16
  place : Nat
  wave : Nat
  group : Nat
  ctx : Nat
  watch : W32
  flags : BitVec 8
  cls : Nat
  code : Nat
  addr : W64
  mask : Lanes
  pc : W64
  deriving DecidableEq, Repr

/-- R35, R338. Why a wave as a whole is held. -/
inductive Hold where
  | none
  /-- R338. Its group is parked on a fill. -/
  | fill
  /-- R353. Halted by a pre-emption. -/
  | preempted
  /-- R348. Halted; the status block is held. -/
  | halted (b : StatusBlock)
  deriving DecidableEq, Repr

/-- R22, R33, R266. A wave. -/
structure Wave where
  id : WaveId
  /-- R24. The core, the bay, the half of the bay (16-lane waves) and the wave slot. -/
  core : Nat
  bay : Nat
  half : Nat
  slot : Nat
  width : Nat
  nregs : Nat
  real : Lanes
  helper : Lanes
  ended : Lanes
  /-- Vector registers: one list of `width` elements for each of the `nregs` registers. -/
  v : List (List W32)
  k : List W64
  q : List Lanes
  fpflags : BitVec 6
  xva : BitVec 16
  retired : W64
  path0 : Path
  path1 : Path
  /-- Innermost entry first; the dual entry, when present, is the last. -/
  div : List DivEntry
  wset : Nat
  watch : List WatchEntry
  resv : List Reservation
  triggered : Bool
  excluded : Bool
  faultmask : Lanes
  /-- R297. Clauses started since the running path became the running path. -/
  switches : Nat
  /-- R268, R297. The path that issued last, or that runs in deterministic mode. -/
  last : Nat
  /-- R36. The path that the ageing rule forces at the next boundary. -/
  forced : Option Nat
  /-- R287. The other waves of the bay that a `yield` lets pass first. -/
  yieldTo : List WaveId
  hold : Hold
  /-- R226. The lanes' private spaces: lane L at 16,384 · L. -/
  priv : Memory
  deriving DecidableEq, Repr

/-- R31. The fields of a launch record. -/
structure LaunchRecord where
  entry : W64
  args : W64
  extx : Nat
  exty : Nat
  extz : Nat
  gsx : Nat
  gsy : Nat
  gsz : Nat
  wavew : Nat
  vregs : Nat
  scratch : Nat
  cgroups : Nat
  ccores : Nat
  fuse : Bool
  det : Bool
  mode : BitVec 16
  l1conv : Nat
  diemask : BitVec 4
  wdog : Nat
  cls : Nat
  deriving DecidableEq, Repr

/-- A launch: the record and what R39, R291 and R296 keep of it. -/
structure Launch where
  id : Nat
  ctx : Nat
  graph : Nat
  node : Nat
  record : LaunchRecord
  budget : Nat
  used : Nat
  /-- The next cluster of groups to place (R26). -/
  nextCluster : Nat
  /-- R226. The constant section and its size. -/
  const : Memory
  constSize : Nat
  halted : Bool
  /-- R364. Placed by a restore: its waves of class 0, 13 or 14 resume when the driver asks. -/
  restored : Bool
  deriving DecidableEq, Repr

/-- R279, R280. One barrier: the uses completed and the arrivals of the current use. -/
structure Barrier where
  uses : Nat
  arrived : List (WaveId × Nat)
  deriving DecidableEq, Repr

/-- R169. The splat parameters of a group. -/
structure SplatParams where
  width : Nat
  height : Nat
  cutoff : W32
  near : W32
  dilation : W32
  deriving DecidableEq, Repr

/-- R24, R34, R61. A group on its core. -/
structure Group where
  launch : Nat
  index : Nat
  cluster : Nat
  member : Nat
  ccore : Nat
  core : Nat
  scratch : Memory
  scratchSize : Nat
  /-- R61. For each of glob, scr, fab and eng: the counted instructions in issue order, with whether they have
  completed; the counter reads the length. -/
  counters : List (List (Nat × Bool))
  barriers : List Barrier
  splat : SplatParams
  /-- R248. Ways this group converted. -/
  converted : Nat
  released : Bool
  parked : Bool
  deriving DecidableEq, Repr

/-- R26 to R29. A cluster of groups on one hardware cluster. -/
structure Cluster where
  launch : Nat
  index : Nat
  hw : Nat
  /-- R26. The physical cores of the cluster cores, in ascending order. -/
  cores : List Nat
  barriers : List Barrier
  deriving DecidableEq, Repr

/-- R156. A lane's row of A as a matrix instruction reads it: the bytes of its segments, and its scale words. -/
structure ARow where
  lane : Nat
  data : List Byte
  scales : List W32
  /-- R366. The address of a segment or a scale word whose data is lost. -/
  lost : Option Nat
  deriving DecidableEq, Repr

/-- R159, R161, R162. What the results that stand at the head of a matrix queue are those of: an operation, a part of a
chained one, or a clear. -/
inductive ResultsOf where
  | mma | part | zero
  deriving DecidableEq, Repr

/-- R46. An element of a D register that is still to be written: its register behind the first, its lane and its value. -/
structure DElem where
  reg : Nat
  lane : Nat
  value : W32
  deriving DecidableEq, Repr

/-- R150, R163. One entry of a core's matrix queue. -/
inductive MatrixOp where
  /-- The bytes are kept once the scratchpad is released before the array has read them (R34). -/
  | wld (op : Nat) (w : WaveId) (offset addr count : Nat) (kept : Option (List Byte))
  | wfmt (op : Nat) (w : WaveId) (btype : BitVec 4) (xvw : BitVec 16)
  | wswp (op : Nat) (w : WaveId)
  /-- An octet of `mma` or of a part of `mmac`: the first D register, the A type, the tile's byte offset, the f4 value E
  of A, and the rows of the active lanes. -/
  | mma (op : Nat) (part : Bool) (w : WaveId) (d : Nat) (atype : BitVec 4) (tile : Nat) (xva : BitVec 16)
      (rows : List ARow)
  | mmz (op : Nat) (w : WaveId) (lanes : Lanes) (d : Nat)
  /-- R46, R160. The results of an operation that has executed, as far as they are not written. -/
  | results (op : Nat) (of_ : ResultsOf) (w : WaveId) (d : Nat) (els : List DElem)
  deriving DecidableEq, Repr

/-- R332. A line of a core's L1: context, VA[47:7], the version (none: current), the physical line and its 128 bytes. -/
structure L1Line where
  ctx : Nat
  va : Nat
  version : Option Nat
  frame : Loc
  data : List Byte
  deriving DecidableEq, Repr

/-- R149, R332. A core: its matrix array, its L1 and the count of converted ways. -/
structure Core where
  index : Nat
  bank0 : Memory
  bank1 : Memory
  type0 : BitVec 4
  type1 : BitVec 4
  xvw0 : BitVec 16
  xvw1 : BitVec 16
  active : Bool
  queue : List MatrixOp
  ways : Nat
  l1 : List L1Line
  deriving DecidableEq, Repr

/-- R168, R171. One splat operation in a unit's queue. -/
structure SplatOp where
  op : Nat
  opcode : Nat
  w : WaveId
  clause : W64
  record : Nat
  command : List Byte
  accepted : Bool
  parked : Bool
  deriving DecidableEq, Repr

/-- R168. A hardware cluster's splat unit: operations accepted (at most 32) and those still waiting for room. -/
structure SplatUnit where
  index : Nat
  queue : List SplatOp
  deriving DecidableEq, Repr

/-- R253. Where an engine command runs: a Runner, the Pattern engine or the snapshot engine. -/
inductive Engine where
  | runner (n : Nat)
  | pattern
  | snapshot
  deriving DecidableEq, Repr

/-- R250 to R254. An engine command. -/
structure EngineCmd where
  id : Nat
  ctx : Nat
  engine : Engine
  opcode : Nat
  cls : Nat
  /-- The issuing wave; none for a copy node of a graph, whose completion area lies in the node (R290). -/
  w : Option WaveId
  clause : W64
  /-- Where the record lies: the scratchpad address, or the physical place of the node. -/
  record : Loc
  command : List Byte
  /-- R258. The Pattern list, as the words of R68. -/
  list : List (BitVec 16)
  /-- R251. The code with which an invalid command completes. -/
  reject : Option Nat
  accepted : Bool
  parked : Bool
  /-- R290. The graph and the node of a copy node's command. -/
  node : Option (Nat × Nat)
  /-- R321, R324. How far a command that talks to other devices has come: not begun, waiting for the other side, or
  waiting for its flag. -/
  phase : Nat
  /-- R322. Bytes acknowledged as performed. -/
  acked : Nat
  /-- R322, R325. The code with which a refusal or a failure ends it. -/
  failure : Option Nat
  /-- R217. %step at registration. -/
  regStep : Nat
  /-- R325. The timebase at registration. -/
  regTime : W64
  /-- R254. What the accesses of the operation have given so far, the oldest first, while it is held up at one. -/
  log : List (List Byte)
  /-- R254. Those of them that the operation, as it resumes, still has to pass; empty between steps. -/
  replay : List (List Byte)
  deriving DecidableEq, Repr

/-- R217. An entry of a range-lock table. -/
structure RangeLock where
  die : Nat
  ctx : Nat
  write : Bool
  /-- None: current; some t: the published step t. -/
  version : Option Nat
  base : Nat
  length : Nat
  owner : Nat
  deriving DecidableEq, Repr

/-- R210, R211. The directory's number for a line, and whether the directory holds the line's entry: a line whose entry
was evicted is tracked anew from its last number (log 63). -/
structure DirLine where
  line : Loc
  seq : W32
  held : Bool
  deriving DecidableEq, Repr

/-- R210, R211. The states of a line in a die's L2. -/
inductive LineState where
  | modified | owned | exclusive | shared | stale
  deriving DecidableEq, Repr

/-- R210, R211. A line in a die's L2: in a valid state, where its data is the line's own, or stale-retained with the data
and the number as they stood. -/
structure L2Copy where
  die : Nat
  line : Loc
  state : LineState
  seq : W32
  data : List Byte
  deriving DecidableEq, Repr

/-- R309, R409. A request from outside that is held while the right of its page is on its way, or that goes on to another
device. -/
inductive HeldRequest where
  | load (r : FabricRequest)
  | store (r : FabricRequest) (data : List Byte)
  | tagged (r : FabricRequest) (data : List Byte) (tag : BitVec 24)
  | atomic (r : FabricRequest) (a : FabricAtomic)
  | verdict (r : FabricRequest) (seq : W32)
  | doorbell (ctx : Nat) (desc : W64)
  /-- R187. A splat unit's addition to a word of a page of this device, which did not find the right with its owner. -/
  | addition (op ctx va : Nat) (value : W32)
  deriving DecidableEq, Repr

/-- R230 to R234. What an outstanding access does. -/
inductive AccessKind where
  /-- R123, R124. A computation: no memory, the results are ready. -/
  | compute
  /-- R159. A matrix instruction whose operations stand in the queues of the cores. -/
  | matrix
  | load
  | store
  | atomic (opcode : Nat)
  | ldr
  | stcn
  | ldgs
  | stsg
  | cond (op : Nat)
  | enq (value : W32)
  /-- R305. The question for the verdict on a wave's `lfe` entry, by its number, as a transaction. -/
  | verdict (w : WaveId) (entry : Nat)
  /-- R329. A line of a peer's page that something beside the lanes reads, as a transaction. -/
  | fetch (r : Reader)
  /-- R305, R308. A request of another device that this one passes on: to the owner of the page's right, or to the peer on
  which the page lies. -/
  | relay (h : HeldRequest)
  /-- R305, R324. A message of an all-reduce, as a transaction. -/
  | collective (m : CollectiveMessage)
  deriving DecidableEq, Repr

/-- One lane's part of an access: the place, the value operands, and for an asynchronous copy the scratchpad address. -/
structure LaneAccess where
  lane : Nat
  loc : Loc
  va : W64
  value : W64
  value2 : W64
  /-- An early copy that a load takes its data from (R240). -/
  copy : Option W64
  /-- R332. The published step that an `ldv` reads, for the tag of its L1 line; none for the current version. -/
  version : Option Nat
  /-- R334. Checked under a translation that has been revoked since: it is performed at its old frame, whose line no L1
  keeps. -/
  old : Bool
  deriving DecidableEq, Repr

/-- R317, R366. A lane without its result: its address, and the fault that waits. -/
structure FailedLane where
  lane : Nat
  addr : W64
  uncertain : Bool
  cls : Nat
  code : Nat
  deriving DecidableEq, Repr

/-- Where the result of a long-latency instruction goes. -/
inductive Dest where
  | none
  /-- Vector register n, or the pair n, n + 1. -/
  | v (n : Nat) (pair : Bool)
  /-- Scalar register n; whether the 32-bit result is sign-extended (R55). -/
  | k (n : Nat) (wide signed : Bool)
  deriving DecidableEq, Repr

/-- R45, R61. An instruction in flight. -/
structure Access where
  op : Nat
  ctx : Nat
  w : WaveId
  path : Nat
  clause : W64
  kind : AccessKind
  /-- Bytes per lane. -/
  width : Nat
  mtype : BitVec 4
  lanes : List LaneAccess
  dest : Dest
  /-- The completion flag to clear, if it is long-latency. -/
  flag : Option Nat
  counter : Option Nat
  /-- Sticky flags to OR in at completion (R94). -/
  fp : BitVec 6
  /-- Register results ready to be written at completion: lane and value. -/
  results : List (Nat × W64)
  /-- R46. The lanes of a pair result of which one half is written: the high half, or the low one. -/
  halves : List (Nat × Bool)
  /-- R317, R366. The lanes whose reply has failed, or whose data is lost. -/
  failed : List FailedLane
  deriving DecidableEq, Repr

/-- R305, R316. An outbound transaction that waits for its reply. -/
structure Txn where
  id : Nat
  op : Nat
  lane : Nat
  ctx : Nat
  peer : Nat
  port : Nat
  kind : AccessKind
  /-- The address of the lane's part, as the lane names it. -/
  part : Nat
  va : Nat
  /-- Bytes that the access reads or writes at the destination; a load asks for the whole line. -/
  width : Nat
  data : List Byte
  /-- R308. It goes to the owner of the right of a page of this device. -/
  away : Bool
  /-- R320. The tag step of a version-tagged store. -/
  tag : Option Nat
  /-- R306, R316. Not sent, or to be sent again: its path retrains, or an earlier transaction to its granule still
  travels on another path. -/
  held : Bool
  deriving DecidableEq, Repr

/-- R306, R311, R316. What the device knows of a peer. -/
structure Peer where
  id : Nat
  usable : BitVec 96
  retraining : BitVec 96
  down : Bool
  allowance : Nat
  deriving DecidableEq, Repr

/-- R346. The key and block counter of one direction of a port. -/
structure PortKey where
  port : Nat
  outbound : Bool
  key : BitVec 256
  counter : Nat
  deriving DecidableEq, Repr

/-- R308, R309. The atomic right of a page: the owner (none: the home) and the atomics of the window by device. -/
structure AtomicRight where
  ctx : Nat
  page : Nat
  owner : Option Nat
  window : List Nat
  /-- Handed over and not yet arrived: the new owner, or none for the home. -/
  handing : Bool
  /-- R310. The device from which the right is on its way home. -/
  from_ : Option Nat
  deriving DecidableEq, Repr

/-- R308. A page of another device whose right to perform atomics this device holds: the words as they stand here, and the
atomics of the window by device. -/
structure OwnedPage where
  ctx : Nat
  peer : Nat
  page : Nat
  words : Memory
  /-- R235. The 128-byte lines of the page that have been written here. -/
  written : List Nat
  window : List Nat
  deriving DecidableEq, Repr

/-- R329. A line of a peer's memory that has come for a reader, or the class and the code of its failure. -/
structure FetchedLine where
  reader : Reader
  line : Nat
  data : List Byte
  failure : Option (Nat × Nat)
  deriving DecidableEq, Repr

/-- R334. A revocation by the driver, of a range of a context. -/
structure Revocation where
  ctx : Nat
  base : Nat
  length : Nat
  deriving DecidableEq, Repr

/-- R291. The status of a node; `stopping` is a copy node that runs no more because its command has stopped on a fault, and
whose end is still to be written. -/
inductive NodeStatus where
  | stopping | idle | waiting | ready | running | done | skipped | recordInvalid | halted | whileLimit | detRefused | doneLate
  deriving DecidableEq, Repr

/-- R290, R291. What the walker keeps of a node beside its record in memory. -/
structure Node where
  index : Nat
  status : NodeStatus
  waiting : Nat
  /-- Whether some predecessor delivered done. -/
  wanted : Bool
  passes : Nat
  /-- The place in the order in which nodes became ready. -/
  order : Nat
  /-- R292. The timebase as the node became ready. -/
  readyAt : W64
  /-- Successor slots already counted by an early trigger (R292). -/
  counted : List Nat
  /-- Bytes 64 to 127 of the node as the walker read them when it accepted the graph. -/
  header : List Byte
  deriving DecidableEq, Repr

/-- R289. An accepted graph. -/
structure Graph where
  id : Nat
  ctx : Nat
  desc : W64
  nodesAt : Nat
  condAt : Nat
  doneAt : Nat
  nodes : List Node
  /-- R291. The node at which the walker has stopped. -/
  stopped : Option Nat
  /-- R291. The status has been written: the graph no longer counts, and stays only for a resume. -/
  ended : Bool
  deriving DecidableEq, Repr

/-- R417, R408. A context's walker-fault entry. -/
structure WalkerFault where
  addr : W64
  code : Nat
  node : Nat
  count : Nat
  deriving DecidableEq, Repr

/-- R341, R318, R408. A context: its descriptor and what the status window keeps for it. -/
structure Context where
  index : Nat
  root : Nat
  clusters : BitVec 64
  step : Nat
  state : Nat
  hints : Nat
  nhint : Nat
  wdog : Nat
  pool : Nat
  pairs : Nat
  errbits : BitVec 512
  causes : List (Nat × Nat)
  coreBudget : Nat
  hbmBudget : Nat
  powerBudget : Nat
  hbmUse : Nat
  powerUse : Nat
  refused : Nat
  poolOverflow : W32
  walker : WalkerFault
  /-- R343. The target that dropped a request of the context, as the driver status window names it. -/
  dropped : Option Nat
  /-- R353. The save area while a pre-emption is under way. -/
  saving : Option W64
  /-- R409. The accepted graphs that were saved with the context and still count. -/
  savedGraphs : Nat
  deriving DecidableEq, Repr

/-- R360. What the model keeps of a saved wave beside the image, which has no field for it: the private backing itself,
the lanes that have ended, the path that issued last, the broken masks of the arms that have arrived, and the pending
faults of each path (log 33). -/
structure SavedWave where
  launch : Nat
  group : Nat
  wave : Nat
  priv : Memory
  ended : Lanes
  last : Nat
  broke : List (List Lanes)
  pending0 : List PendingFault
  pending1 : List PendingFault
  deriving DecidableEq, Repr

/-- R354. The part of a context that is being saved which lay on one hardware cluster: it is written, and the hardware cluster
is released. The splat operations stand in the order of its unit's queue; `fresh` are those that the save has accepted. -/
structure SavePart where
  ctx : Nat
  hw : Nat
  clusters : List Cluster
  groups : List Group
  waves : List Wave
  cores : List Core
  ops : List SplatOp
  fresh : List Nat
  rotation : List (Nat × Nat)
  /-- R365. The granules of its weight banks that fail. -/
  failing : List Granule
  deriving DecidableEq, Repr

/-- R62, R359. What the model keeps of a saved group: its counters with what has completed, and the numbers of its saved
splat operations in the order of their entries (log 33). -/
structure SavedGroup where
  launch : Nat
  group : Nat
  counters : List (List (Nat × Bool))
  ops : List Nat
  deriving DecidableEq, Repr

/-- R167, R356. The core sections of the cores of a saved cluster, in the order of its core numbers (log 33). -/
structure SavedCores where
  launch : Nat
  cluster : Nat
  sections : List Nat
  deriving DecidableEq, Repr

/-- R363. What the model keeps of a saved node: whether some predecessor delivered done, the slots already counted, and when it
became ready (log 33). -/
structure SavedNode where
  wanted : Bool
  counted : List Nat
  readyAt : W64
  deriving DecidableEq, Repr

/-- R363. What the model keeps of a saved graph: where it has stopped, whether its status is written, and its nodes
(log 33). -/
structure SavedGraph where
  stopped : Option Nat
  ended : Bool
  nodes : List SavedNode
  deriving DecidableEq, Repr

/-- R355. What the model keeps beside an image: for each launch the next cluster to place, the cores of the
clusters, the groups, the waves, and the graphs (log 33). -/
structure SavedImage where
  image : Nat
  /-- R365. The granules of its registers, scratchpads and banks that fail. -/
  failing : List Granule
  next : List Nat
  cores : List SavedCores
  groups : List SavedGroup
  waves : List SavedWave
  graphs : List SavedGraph
  deriving DecidableEq, Repr

/-- R416. The context command register. -/
structure CommandReg where
  ctx : Nat
  op : Nat
  image : W64
  clusters : W64
  wdog : W32
  outcome : Nat
  reason : Nat
  deriving DecidableEq, Repr

/-- R336, R338. A first touch: the lane, the address as it is reported, an address of the page that is to be filled, and
whether the access was a write. -/
structure Touch where
  lane : Nat
  addr : W64
  page : Nat
  write : Bool
  deriving DecidableEq, Repr

/-- R338, R190, R254. A parked fault that waits for the fill routine: the faulting wave, the lanes and what they touched; a
replayed splat or engine operation. -/
structure Fill where
  w : WaveId
  ctx : Nat
  mask : Lanes
  pages : List Touch
  unit : Option Nat
  cmd : Option Nat
  deriving DecidableEq, Repr

/-- R414. A frame on its way back to a pool list. -/
structure FrameReturn where
  ctx : Nat
  lpddr : Bool
  frame : Nat
  deriving DecidableEq, Repr

/-- R331. A slot of a version record. -/
structure VSlot where
  valid : Bool
  stamped : Bool
  target : Nat
  frame : Nat
  hi : Nat
  lo : Nat
  deriving DecidableEq, Repr

/-- R335. The translation units: one for each hardware cluster, each Runner, the Pattern engine and the snapshot engine. -/
inductive TransUnit where
  | cluster (hw : Nat)
  | runner (n : Nat)
  | pattern
  | snapshot
  deriving DecidableEq, Repr

/-- R343. The verdict on a frame: whether it may be read and written. -/
structure Verdict where
  frame : Loc
  read : Bool
  write : Bool
  deriving DecidableEq, Repr

/-- R335, R337, R343. An entry of a translation unit's TLB: a page of a context, its leaf and where the leaf lies, the
version slots of its 64 KiB pages, the verdicts on its frames, and whether the driver has it kept. -/
structure TlbEntry where
  unit : TransUnit
  ctx : Nat
  page : Nat
  bits : Nat
  entry : Nat
  entryAt : Nat
  slots : List VSlot
  verdicts : List Verdict
  pinned : Bool
  deriving DecidableEq, Repr

/-- R260. The steps that were never published for a page: those from a step on, up to the version that begins at `lo`. -/
structure Gap where
  record : Nat
  from_ : Nat
  lo : Nat
  deriving DecidableEq, Repr

/-- R342. One access-table entry: the target, the master, and its masks. -/
structure AccessEntry where
  target : Nat
  master : Nat
  entry : W64
  deriving DecidableEq, Repr

/-- R342. One region register of a target. -/
structure RegionReg where
  target : Nat
  index : Nat
  base : Nat
  limit : Nat
  deriving DecidableEq, Repr

/-- What the device sends out: replies, interrupts, data, reports. -/
inductive OutMsg where
  /-- R305, R314. A reply, with its data cut into units. -/
  | fabric (dest tag : Nat) (r : FabricReply) (units : List (BitVec 16 × List Byte))
  /-- R304, R324. The answer to a collective message: whether it was taken. -/
  | collective (dest ctx : Nat) (id : BitVec 32) (taken : Bool)
  /-- R305, R314. A transaction with its payload, cut into units: the descriptor and the body of each. -/
  | request (t : Txn) (units : List (BitVec 16 × List Byte))
  /-- R311. Units of the send allowance that go back to a source. -/
  | grant (dest units : Nat)
  | msix (vector : Nat)
  | hostData (data : List Byte)
  | telemetry (values : List Nat)
  | report (data : List Byte)
  | thermalTrip (celsius : Nat)
  | time (dest : Nat) (timebase : W64)
  /-- R309. The home asks an owner for the right of a page. -/
  | recallRight (owner ctx page : Nat)
  /-- R309. The right of a page goes to a device, with the page's bytes and the lines of it that were written. -/
  | right (dest ctx page : Nat) (words : List Host.Cell) (written : List Nat)
  deriving DecidableEq, Repr

/-- R410 to R413. Bring-up, power and the management data. -/
structure Platform where
  state : Nat
  code : Nat
  unsync : Bool
  powerHeld : Bool
  thermalHeld : Bool
  tripped : Bool
  cap : Nat
  clockSteps : Nat
  /-- R411, R413. The power of the main rail as it was last measured, and the junction temperature of each die. -/
  watts : Nat
  celsius : List Nat
  /-- R413. The image that is verified at the next reset, and the image that the last reset took up. -/
  staged : List Byte
  image : List Byte
  digests : List Byte
  measurement : List Byte
  linkUp : Bool
  deriving DecidableEq, Repr

/-- A constant section that the driver has loaded with the code of a kernel object (R78, R79). -/
structure ConstSection where
  ctx : Nat
  codeBase : Nat
  codeLimit : Nat
  bytes : Memory
  size : Nat
  deriving DecidableEq, Repr

/-- The device. -/
structure Dev where
  platform : Platform
  timebase : W64
  clock : W64
  devId : Nat
  shares : List Nat
  ctxs : List Context
  command : CommandReg
  revocation : List Byte
  errorCounts : List ErrorCount
  /-- R365. The granules whose only copy fails its check. -/
  failing : List Granule
  status : List (Nat × StatusBlock)
  access : List AccessEntry
  regions : List RegionReg
  hbm : Memory
  lpddr : Memory
  host : Memory
  consts : List ConstSection
  /-- R354. What has been written of contexts whose save is under way. -/
  parts : List SavePart
  saves : List SavedImage
  graphs : List Graph
  launches : List Launch
  clusters : List Cluster
  groups : List Group
  waves : List Wave
  cores : List Core
  units : List SplatUnit
  cmds : List EngineCmd
  locks : List RangeLock
  dir : List DirLine
  l2 : List L2Copy
  inflight : List Access
  txns : List Txn
  peers : List Peer
  keys : List PortKey
  rights : List AtomicRight
  /-- R308. The rights of other devices' pages that this device holds. -/
  owned : List OwnedPage
  lost : List Loc
  /-- R335. The TLBs of the translation units. -/
  tlbs : List TlbEntry
  /-- R260. The gaps before the retained versions. -/
  gaps : List Gap
  /-- R329. Lines of peers' memories that have come for a reader. -/
  fetched : List FetchedLine
  /-- R334. The revocations whose older accesses may still have to be performed. -/
  revoking : List Revocation
  fills : List Fill
  returns : List FrameReturn
  outbox : List OutMsg
  /-- R311. The grants that the driver has set for the sources of this device. -/
  sourceGrants : List (Nat × Nat)
  /-- R324. All-reduce messages that no command has used yet, the oldest first. -/
  collect : List CollectiveMessage
  /-- R324. The contributions that are still to come for commands that have ended: the context, the id and the device. -/
  owed : List (Nat × Nat × Nat)
  /-- R309, R329, R334, R417. What the walkers wait for: the context, and the right, the peer's bytes or the revocation. -/
  walkerWaits : List (Nat × Park)
  /-- R309. Requests from outside that arrived while the right of their page was on its way, the oldest first. -/
  heldRequests : List HeldRequest
  /-- R314. The units that each port has rebuilt and not delivered yet, the oldest first. -/
  portUnits : List (Nat × List Byte)
  /-- R346. How many blocks in a row have failed their tag at each port. -/
  tagFails : List (Nat × Nat)
  /-- R287. The slot that each bay, or half of a bay, selected last. -/
  rotation : List (Nat × Nat)
  /-- R294. The clocks that the Isobar has made known. -/
  isobar : List (WaveId × W64)
  /-- Numbers handed to operations, launches, graphs and transactions. -/
  nextId : Nat
  deriving DecidableEq, Repr

/-- R49. What a clause performs at its end. -/
inductive Effect where
  | access (a : Access)
  /-- R236. A fence at its place among the accesses. -/
  | fence (lanes : Lanes) (kind : FenceKind) (scope : Scope)
  | matrix (core : Nat) (m : MatrixOp)
  | splat (unit : Nat) (o : SplatOp)
  | engine (c : EngineCmd)
  /-- R312. Units that the clause has taken from an allowance: what is to be undone if it faults. -/
  | allowance (dest units : Nat)
  /-- R278. The first trigger of the wave. -/
  | trigger
  /-- R248. Ways of the core that the clause has converted for the wave's group: what is to be undone if it faults. -/
  | convert (ways : Nat)
  /-- R237. Bytes that the instruction itself writes to a place. -/
  | put (l : Loc) (bytes : List Byte)
  deriving DecidableEq, Repr

/-- R49. The checks of a clause that waits, or takes something, between its instructions are made for the whole clause
before anything of it is performed: they are still to be made, they are being made on a copy of the state, or the clause
runs (log 14). -/
inductive Phase where
  | unchecked | checking | running
  deriving DecidableEq, Repr

/-- R49. An access whose checks have passed with those of its whole clause: how many words of the clause were left, the
addresses of the lanes, their parts, and the helper lanes without one. -/
structure CheckedAccess where
  left : Nat
  addrs : List (Nat × Int)
  parts : List LaneAccess
  zero : List Nat
  deriving DecidableEq, Repr

/-- R47 to R50. The clause in execution: a working copy of its wave, the path, the words left, the long-latency
instructions seen, the temporaries, and the effects that are performed when it ends. -/
structure Issue where
  wave : Wave
  path : Nat
  header : W64
  words : List W32
  setA : Nat
  setB : Nat
  seen : Nat
  temps : List (List W32)
  effects : List Effect
  /-- The header at which the path goes on. -/
  next : W64
  /-- R281. The software trap or breakpoint that the clause ends in. -/
  trap : Option (Nat × Nat)
  /-- A fence of the clause has already sent the effects before it (R236, R237; log 14). -/
  flushed : Bool
  /-- R49. How far the checks of the whole clause have come. -/
  phase : Phase
  /-- R312. The charges that the clause has paid: the destination and its units. -/
  paid : List (Nat × Nat)
  /-- R217. The free entries that the clause keeps for its engine instructions: the die and their number. -/
  room : List (Nat × Nat)
  /-- R163, R166. The cores whose matrix queues the clause uses. -/
  queues : List Nat
  /-- R49. The accesses that have passed their checks with those of the whole clause. -/
  checked : List CheckedAccess
  /-- R36. Whether it is still to be found if the wave's other path was ready as the clause started. -/
  rival : Bool
  /-- R39. The slot of the clause has been counted. -/
  counted : Bool
  /-- R365. The failing granules of registers that the clause has written anew. -/
  covered : List Granule
  /-- R287, R313. The slot that the bay had selected before this clause, if no selection has followed. -/
  turn : Option (Option Nat)
  deriving DecidableEq, Repr

/-- The state: the device, the clause in execution, the clauses that hold at one of their instructions until its waits
are met (R236), the events to come (inputs and choices, the oldest first), and the counter of free values. -/
structure State where
  dev : Dev
  issue : Option Issue
  held : List Issue
  tape : List Instr
  free : Nat
  deriving DecidableEq, Repr

/-- Why a step stops with a fault. -/
inductive Fault where
  /-- Raised by `exec` of an instruction in a state in which no clause is in execution: the manual gives an
  instruction an effect only as part of a clause of a path (R43, R47). `step` never raises it. Safe: nothing is claimed
  of such a state. -/
  | noIssuingPath
  deriving DecidableEq, Repr

/-- Why a step is refused. -/
inductive Refusal where
  /-- An instruction without a meaning in this model, by its mnemonic. Safe: nothing is claimed of it. -/
  | notModelled (mnemonic : String)
  deriving DecidableEq, Repr

/-- R410. The platform at the deassertion of fundamental reset: bring-up state 1, no hold, the cap at 2,400 W (R411). -/
def Platform.reset : Platform :=
  { state := 1, code := 0, unsync := false, powerHeld := false, thermalHeld := false, tripped := false, cap := 2400,
    clockSteps := 0, watts := 0, celsius := [0, 0, 0, 0], staged := [], image := [], digests := [], measurement := [],
    linkUp := true }

/-- R253. The default bandwidth shares. -/
def defaultShares : List Nat := [32, 8, 8, 12, 4]

/-- The device after reset: no context, no graph, no wave, nothing listed in memory. The registers to which the manual
gives no reset value hold zero (log 2). -/
def Dev.reset : Dev :=
  { platform := Platform.reset, timebase := 0, clock := 0, devId := 0, shares := defaultShares, ctxs := [],
    command := { ctx := 0, op := 0, image := 0, clusters := 0, wdog := 0, outcome := 0, reason := 0 },
    revocation := [], errorCounts := [], failing := [], status := [], access := [], regions := [], hbm := [], lpddr := [],
    host := [], consts := [], parts := [], saves := [], graphs := [], launches := [], clusters := [], groups := [],
    waves := [], cores := [], units := [], cmds := [], locks := [], dir := [], l2 := [], inflight := [], txns := []
    peers := [], keys := [], rights := [], owned := [], lost := [], tlbs := [], gaps := [], fetched := [], revoking := [], fills := [], returns := [], outbox := []
    sourceGrants := [], collect := [], owed := [],
    walkerWaits := [], heldRequests := [], portUnits := [], tagFails := [], rotation := [], isobar := [], nextId := 0 }

/-- The machine right after reset. -/
def State.reset : State :=
  { dev := Dev.reset, issue := none, held := [], tape := [], free := 0 }

end Sys2Proof.Machine
end

