-- ==== Sys2Proof/Machine/Flags.lean ====
section
/-! DEFINITION. Lane masks, predicates (R56), the sticky floating-point flags (R93, R94) and the completion flags
(R45). -/

namespace Sys2Proof.Machine

/-- The lanes of a wave of a width. -/
def waveMask (width : Nat) : Lanes := BitVec.ofNat 64 (2 ^ width - 1)

/-- The lanes of a mask below a width, in rising order. -/
def lanesOf (width : Nat) (m : Lanes) : List Nat := (List.range width).filter m.getLsbD

/-- The mask of one lane. -/
def bitAt (l : Nat) : Lanes := BitVec.ofNat 64 (2 ^ l)

/-- The mask of a list of lanes. -/
def maskOf (ls : List Nat) : Lanes := ls.foldl (fun m l => m ||| bitAt l) 0

/-- The lowest lane of a mask, if it has one. -/
def lowestLane (width : Nat) (m : Lanes) : Option Nat := (lanesOf width m).head?

/-- R56. A predicate; q15 reads as all ones. -/
def Wave.qread (w : Wave) (n : Nat) : Lanes := if n = 15 then waveMask w.width else w.q.getD n 0

/-- R56. Writes the bits of some lanes of a predicate; a write to q15 is ignored. -/
def Wave.qwrite (w : Wave) (n : Nat) (lanes x : Lanes) : Wave :=
  if n = 15 then w else { w with q := w.q.set n ((w.q.getD n 0 &&& ~~~ lanes) ||| (x &&& lanes)) }

/-- R93, R94. ORs flags into the wave's sticky flags. -/
def Wave.orFlags (w : Wave) (f : FpFlags) : Wave := { w with fpflags := w.fpflags ||| f }

/-- One lane's result with its flags. -/
abbrev LaneResult := Nat × (W64 × FpFlags)

/-- R94. The flags of the real lanes of some results. -/
def realFlags (real : Lanes) (rs : List LaneResult) : FpFlags :=
  rs.foldl (fun a r => if real.getLsbD r.1 then a ||| r.2.2 else a) 0

/-- R45. A flag that is clear. -/
def FlagState.clear : FlagState := ⟨[], false⟩

/-- R45. Whether a flag is set. -/
def FlagState.isSet (f : FlagState) : Bool := !f.ops.isEmpty || f.faulted

/-- R45. A flag that one more instruction sets. -/
def FlagState.set (op : Nat) (f : FlagState) : FlagState := { f with ops := f.ops ++ [op] }

/-- R45. A flag after an instruction is done with it. -/
def FlagState.done (op : Nat) (f : FlagState) : FlagState := { f with ops := f.ops.filter (· ≠ op) }

/-- R45, R317, R366. A flag whose instruction leaves a pending fault. -/
def FlagState.fail (op : Nat) (f : FlagState) : FlagState :=
  if f.ops.contains op then { (f.done op) with faulted := true } else f

/-- R60. A flag at a reconvergence. -/
def FlagState.join (f g : FlagState) : FlagState :=
  ⟨f.ops ++ g.ops.filter (fun op => !f.ops.contains op), f.faulted || g.faulted⟩

/-- A path with one flag changed. -/
def Path.mapFlag (p : Path) (n : Nat) (f : FlagState → FlagState) : Path :=
  { p with flags := p.flags.modify n f }

end Sys2Proof.Machine
end

