-- ==== Sys2Proof/Machine/Operands.lean ====
section
/-! DEFINITION. Operands: the mode of the issuing path (R57), the active lanes (R7), the operand forms of R51 to R55 as
sources and destinations, the slots of R83, and the shapes in which arithmetic instructions read and write lanes. -/

namespace Sys2Proof.Machine

/-- Why a clause in execution stops: a fault of R349 with its lanes and address, pages that wait for their first
touch (R338), or a wait. -/
inductive Stop where
  | fault (cls code : Nat) (mask : Lanes) (addr : W64)
  | fill (mask : Lanes) (touches : List Touch)
  /-- R45, R317, R366. A pending fault of the path is raised. -/
  | pending (f : PendingFault)
  /-- R217, R286, R312. The clause is not ready: it starts again when the path no longer lacks this. -/
  | notReady (why : Park)
  /-- R47, R202, R242. The clause holds at this instruction. -/
  | hold
  deriving DecidableEq, Repr

/-- R349. An illegal-instruction fault of the word or of the mode: no lane fails, so the mask is empty. -/
def illegal (code : Nat) : Stop := .fault 1 code 0 0

/-- R57. The element type of a mode. -/
def modeType (m : BitVec 16) : EType := EType.ofCode (m.extractLsb' 0 4).toNat
/-- R57. The rounding of a mode. -/
def modeRound (m : BitVec 16) : RMode := RMode.ofCode (m.extractLsb' 4 3).toNat
/-- R57. The guard predicate of a mode. -/
def modeGuard (m : BitVec 16) : Nat := (m.extractLsb' 7 4).toNat
/-- R57. The subgroup width of a mode. -/
def modeSub (m : BitVec 16) : Nat := 4 * 2 ^ (m.extractLsb' 11 3).toNat
/-- R57. FTZ. -/
def modeFtz (m : BitVec 16) : Bool := m.getLsbD 14
/-- R57. SAT. -/
def modeSat (m : BitVec 16) : Bool := m.getLsbD 15

/-- R4, R57. Whether a mode value holds no reserved value. -/
def modeValid (m : BitVec 16) : Bool :=
  decide ((m.extractLsb' 4 3).toNat < 6) && decide ((m.extractLsb' 11 3).toNat < 5)

/-- A path of a wave: the not-taken path 0 or the taken path 1 (R266). -/
def Wave.path (w : Wave) (p : Nat) : Path := if p = 0 then w.path0 else w.path1

/-- A wave with one path replaced. -/
def Wave.setPath (w : Wave) (p : Nat) (x : Path) : Wave :=
  if p = 0 then { w with path0 := x } else { w with path1 := x }

/-- The path of a clause in execution. -/
def Issue.pth (c : Issue) : Path := c.wave.path c.path

/-- A clause in execution with its path replaced. -/
def Issue.setPth (c : Issue) (x : Path) : Issue := { c with wave := c.wave.setPath c.path x }

/-- R57. The element type in force. -/
def Issue.ty (c : Issue) : EType := modeType c.pth.mode
/-- R57. The rounding in force. -/
def Issue.rm (c : Issue) : RMode := modeRound c.pth.mode
/-- R57. FTZ in force. -/
def Issue.ftz (c : Issue) : Bool := modeFtz c.pth.mode
/-- R57. SAT in force. -/
def Issue.sat (c : Issue) : Bool := modeSat c.pth.mode

/-- R7. The active lanes: those of the path's active mask whose guard bit is set. -/
def Issue.active (c : Issue) : Lanes := c.pth.mask &&& c.wave.qread (modeGuard c.pth.mode)

/-- A clause in execution with its wave changed. -/
def Issue.mapWave (c : Issue) (f : Wave → Wave) : Issue := { c with wave := f c.wave }

/-- R52. The typed constants, filling every slot of an operand of 32 bits or of a 64-bit type. -/
def typedOne (t : EType) (neg : Bool) : Nat :=
  match t with
  | .f64 => if neg then 0xBFF0000000000000 else 0x3FF0000000000000
  | .f32 => if neg then 0xBF800000 else 0x3F800000
  | .f16 => if neg then 0xBC00BC00 else 0x3C003C00
  | .bf16 => if neg then 0xBF80BF80 else 0x3F803F80
  | .t8 => if neg then 0xC0C0C0C0 else 0x40404040
  | .t6 => if neg then 0x30C30C30 else 0x10410410
  | .f4 => if neg then 0xAAAAAAAA else 0x22222222
  | .i8 | .n8 => if neg then 0xFFFFFFFF else 0x01010101
  | .i16 | .n16 => if neg then 0xFFFFFFFF else 0x00010001
  | .i32 | .n32 | .b32 => if neg then 0xFFFFFFFF else 1
  | .i64 | .n64 => if neg then 0xFFFFFFFFFFFFFFFF else 1

/-- R53. An f32 encoding widened to f64 exactly: every f32 value is an f64 value, and a NaN keeps its sign and its
fraction, aligned at the top. -/
def widenF32 (b : Nat) : Nat :=
  match fmt32.decode b with
  | .zero s => fmt64.zero s
  | .inf s => fmt64.inf s
  | .fin s m e => (fmt64.round .rne false s m e false).1
  | .nan s fr _ => fmt64.inf s + fr * 2 ^ 29
  | .nar => fmt64.nan

/-- R53. A 32-bit literal in a 64-bit operand of the mode's type, or of raw bits. -/
def widenLit (t : EType) (raw : Bool) (b : Nat) : Nat :=
  if raw then b
  else match t with
    | .i64 => wrapInt 64 (toSigned 32 b)
    | .f64 => widenF32 b
    | _ => b

/-- The element of a lane of a list of register rows. -/
def rowElem (rows : List (List W32)) (n l : Nat) : W32 := (rows.getD n []).getD l 0

/-- A 32-bit or (wide) 64-bit element of register rows. -/
def rowsRead (rows : List (List W32)) (wide : Bool) (n l : Nat) : Nat :=
  if wide then (rowElem rows (n + 1) l ++ rowElem rows n l : BitVec 64).toNat else (rowElem rows n l).toNat

/-- R51 to R54. The bits that a source supplies to a lane: 32, or 64 when wide; raw bits take no widening of the
type. DESIGN CHOICE (log 78): a typed one or minus one of a 64-bit type in a 32-bit position (an address in `f64`
mode) supplies the low 32 bits of its encoding; R52 gives the encoding only. -/
def Issue.src (c : Issue) (wide raw : Bool) (o : Operand) (l : Nat) : Nat :=
  match o with
  | .v n => rowsRead c.wave.v wide n l
  | .k n => let x := (c.wave.k.getD n 0).toNat; if wide then x else x % 2 ^ 32
  | .x n => rowsRead c.temps wide n l
  | .zero => 0
  | .one => let x := typedOne c.ty false; if wide then x else x % 2 ^ 32
  | .minusOne => let x := typedOne c.ty true; if wide then x else x % 2 ^ 32
  | .lane => l
  | .wave => c.wave.id.wave
  | .lit32 w => if wide then widenLit c.ty raw w.toNat else w.toNat
  | .lit64 w => if wide then w.toNat else w.toNat % 2 ^ 32

/-- R7. Writes results to some lanes of a register row. -/
def writeRow (row : List W32) (rs : List (Nat × W32)) : List W32 :=
  row.mapIdx (fun l x => (rs.lookup l).getD x)

/-- Writes results to some lanes of a register or of a pair. -/
def writeRows (rows : List (List W32)) (wide : Bool) (n : Nat) (rs : List (Nat × W64)) : List (List W32) :=
  let lo := rows.modify n (fun r => writeRow r (rs.map (fun p => (p.1, p.2.extractLsb' 0 32))))
  if wide then lo.modify (n + 1) (fun r => writeRow r (rs.map (fun p => (p.1, p.2.extractLsb' 32 32)))) else lo

/-- R55. The 64 bits that a scalar result leaves in a k register. -/
def scalarBits (wide signed : Bool) (x : W64) : W64 :=
  if wide then x else if signed then (x.extractLsb' 0 32).signExtend 64 else (x.extractLsb' 0 32).setWidth 64

/-- R55. Writes a k register. -/
def Wave.setK (w : Wave) (n : Nat) (x : W64) : Wave := { w with k := w.k.set n x }

/-- R51. Writes per-lane results to a v or x destination. -/
def Issue.writeVec (c : Issue) (d : Operand) (wide : Bool) (rs : List (Nat × W64)) : Issue :=
  match d with
  | .v n => c.mapWave (fun w => { w with v := writeRows w.v wide n rs })
  | .x n => { c with temps := writeRows c.temps wide n rs }
  | _ => c

/-- R83. A slot of an element. -/
def slotOf (t : EType) (x j : Nat) : Nat := x / 2 ^ (t.bits * j) % 2 ^ t.bits

/-- R83, R110. An element computed slot by slot, the bits above the slots zero, with the flags of all slots. -/
def mapSlots (t : EType) (f : Nat → Nat × FpFlags) : Nat × FpFlags :=
  (List.range t.slots).foldl
    (fun acc j => (acc.1 + (f j).1 % 2 ^ t.bits * 2 ^ (t.bits * j), acc.2 ||| (f j).2)) (0, 0)

/-- The results without their flags. -/
def bare (rs : List LaneResult) : List (Nat × W64) := rs.map (fun r => (r.1, r.2.1))

/-- A computation applied to each lane of a mask. -/
def onLanes (width : Nat) (m : Lanes) (f : Nat → Nat × FpFlags) : List LaneResult :=
  (lanesOf width m).map (fun l => let r := f l; (l, (BitVec.ofNat 64 r.1, r.2)))

/-- R7, R55, R94. Writes what a computation gives: per active lane of a v or x destination, or once to a k destination
by the scalar unit, whose computation stands for lane 0; there a 32-bit result of an i type is extended by its sign. -/
def Issue.computeAs (c : Issue) (d : Operand) (wide signed : Bool) (f : Nat → Nat × FpFlags) : Issue :=
  match d with
  | .k n =>
    let r := f 0
    c.mapWave (fun w => (w.setK n (scalarBits wide signed (BitVec.ofNat 64 r.1))).orFlags r.2)
  | _ =>
    let rs := onLanes c.wave.width c.active f
    (c.writeVec d wide (bare rs)).mapWave (fun w => w.orFlags (realFlags w.real rs))

/-- R55, R57. Writes what a computation gives as a result of the mode's type. -/
def Issue.compute (c : Issue) (d : Operand) (wide : Bool) (f : Nat → Nat × FpFlags) : Issue :=
  c.computeAs d wide c.ty.signed f

/-- R57. Goes on only if the mode's type is supported. -/
@[inline] def Issue.needType (c : Issue) (ok : EType → Bool) (x : Issue) : Except Stop Issue :=
  if ok c.ty then .ok x else .error (illegal 0x05)

/-- R45. The flag that the next long-latency instruction of the clause sets. -/
def Issue.nextFlag (c : Issue) : Nat := if c.seen = 0 then c.setA else c.setB

/-- An arithmetic instruction: the type is checked, then each lane is computed. -/
def Issue.alu (c : Issue) (ok : EType → Bool) (d : Operand) (wide : Bool) (f : Nat → Nat × FpFlags) :
    Except Stop Issue :=
  c.needType ok (c.compute d wide f)

/-- R110. A source of the mode's type in a lane. -/
def Issue.arg (c : Issue) (o : Operand) (l : Nat) : Nat := c.src c.ty.wide false o l

/-- R110. A computation of one source, slot by slot. -/
def Issue.slots1 (c : Issue) (a : Operand) (f : Nat → Nat × FpFlags) (l : Nat) : Nat × FpFlags :=
  let x := c.arg a l
  mapSlots c.ty (fun j => f (slotOf c.ty x j))

/-- R110. A computation of two sources, slot by slot. -/
def Issue.slots2 (c : Issue) (a b : Operand) (f : Nat → Nat → Nat × FpFlags) (l : Nat) : Nat × FpFlags :=
  let x := c.arg a l
  let y := c.arg b l
  mapSlots c.ty (fun j => f (slotOf c.ty x j) (slotOf c.ty y j))

/-- R110. A computation of the old destination and two sources, slot by slot. -/
def Issue.slots3 (c : Issue) (d a b : Operand) (f : Nat → Nat → Nat → Nat × FpFlags) (l : Nat) : Nat × FpFlags :=
  let z := c.arg d l
  let x := c.arg a l
  let y := c.arg b l
  mapSlots c.ty (fun j => f (slotOf c.ty z j) (slotOf c.ty x j) (slotOf c.ty y j))

/-- A result without flags. -/
def noFlag (x : Nat) : Nat × FpFlags := (x, 0)

/-- R45. Marks the issue of a long-latency instruction: it sets its flag. -/
def Issue.takeFlag (c : Issue) (op : Nat) : Issue :=
  { c.setPth (c.pth.mapFlag c.nextFlag (FlagState.set op)) with seen := c.seen + 1 }

/-- The mask of pairs and wide forms of a destination: where a long-latency result goes (R55). -/
def Issue.destOf (c : Issue) (d : Operand) (wide : Bool) : Dest :=
  match d with
  | .v n => .v n wide
  | .k n => .k n wide c.ty.signed
  | _ => .none

end Sys2Proof.Machine
end

