-- ==== Sys2Proof/Machine/ClauseCheck.lean ====
section
/-! DEFINITION. The decode of a whole clause (R44): which registers an instruction names under the mode in force (R23,
R54, R143, R146, R158, R161, R233), which instructions are long-latency, counted, boundary or synchronising, and the
first fault of a clause in word order. -/

namespace Sys2Proof.Machine

/-- A register that an instruction names. -/
inductive Reg where
  | v (n : Nat) | k (n : Nat) | x (n : Nat)
  deriving DecidableEq, Repr

/-- The opcode of an instruction, and 0 for an event. -/
def opOf (i : Instr) : Nat := match i.raw with | some (op, _) => op.toNat | none => 0

/-- R44. The long-latency opcodes. -/
def lateOp (op : Nat) : Bool :=
  decide ((0x5B ≤ op ∧ op ≤ 0x63) ∨ op = 0xB0 ∨ op = 0xB2 ∨ op = 0xB4 ∨ op = 0xB6 ∨ op = 0xB8 ∨
    (0xBA ≤ op ∧ op ≤ 0xBB) ∨ (0xBD ≤ op ∧ op ≤ 0xCD) ∨ (0xD0 ≤ op ∧ op ≤ 0xF0))

/-- R48. The boundary opcodes. -/
def boundaryOp (op : Nat) : Bool :=
  [0x02, 0x03, 0x04, 0x05, 0x07, 0x08, 0x09, 0x0A, 0x0B, 0x0D, 0x0E, 0x0F, 0x10, 0x13, 0x15, 0x16].contains op

/-- R61. The counter that an opcode raises: 0 glob, 1 scr, 2 fab, 3 eng. -/
def counterOf (op : Nat) : Option Nat :=
  if op = 0x1A then some 0
  else if op = 0x1B then some 3
  else if op = 0xB4 ∨ op = 0xB5 ∨ op = 0xB6 ∨ op = 0xB7 ∨ op = 0xCA ∨ op = 0xCB then some 1
  else if op = 0xBB ∨ op = 0xBC ∨ op = 0xF0 ∨ op = 0xCC ∨ op = 0xCD then some 2
  else if 0xB0 ≤ op ∧ op ≤ 0xC9 then some 0
  else if 0xE0 ≤ op ∧ op ≤ 0xEE then some 3
  else none

/-- R294. The synchronising opcodes. -/
def syncOp (op : Nat) : Bool :=
  decide (op = 0x0C ∨ op = 0x0D ∨ op = 0x1A ∨ op = 0x1B ∨ op = 0xBB ∨ op = 0xBC ∨ op = 0xF0 ∨
    (0xBF ≤ op ∧ op ≤ 0xEE))

/-- R138. The cross-lane opcodes. -/
def crossOp (op : Nat) : Bool := decide (0x98 ≤ op ∧ op ≤ 0xAF)

/-- R72, R282. Whether a special register is 64 bits wide. -/
def specialWide : SpecialReg → Bool
  | .retired | .timebase | .faultmask | .pathmask => true
  | _ => false

/-- R54, R110, R115, R126, R127, R138, R143, R146, R225. Which of the fields d, a and b are 64-bit operands under a type
and a subgroup width S'. -/
def wideFields (op : Nat) (t : EType) (sub : Nat) : Bool × Bool × Bool :=
  let w := t.wide
  if op = 0x19 then (true, false, false)
  else if op = 0x1B then (false, true, false)
  else if op < 0x20 then (false, false, false)
  else if op = 0x26 then (true, false, false)
  else if op = 0x3F then (true, true, false)
  else if op = 0x68 then (w, w, false)
  else if op = 0x6B then (true, w, false)
  else if 0x6C ≤ op ∧ op ≤ 0x71 then (false, w, false)
  else if op = 0x74 ∨ op = 0x75 then (false, false, false)
  else if op = 0x8D then (false, true, false)
  else if op = 0x8E ∨ op = 0x8F then (false, false, false)
  else if op < 0x98 then (w, w, w)
  else if op = 0xA4 ∨ op = 0xA5 ∨ op = 0xAD then (sub == 64, w, false)
  else if op = 0xAE ∨ op = 0xAF then (false, w, false)
  else if op < 0xB0 then (w, w, false)
  else if op = 0xB2 ∨ op = 0xB3 then (false, true, false)
  else if 0xB4 ≤ op ∧ op ≤ 0xBA then (w, false, false)
  else if op = 0xCA ∨ op = 0xCB then (w, false, false)
  else if op < 0xCE ∨ op = 0xF0 then (w, true, false)
  else (false, false, false)

/-- A register with the n − 1 that follow it. -/
def regRun (r : Reg) (n : Nat) : List Reg :=
  (List.range n).map (fun i => match r with | .v m => .v (m + i) | .k m => .k (m + i) | .x m => .x (m + i))

/-- The registers of an operand of a number of elements. -/
def operandRegs (o : Operand) (n : Nat) : List Reg :=
  match o with
  | .v m => regRun (.v m) n
  | .x m => regRun (.x m) n
  | .k m => [.k m]
  | _ => []

/-- The registers of one field: how many elements it names, and the alignment that its first must keep. -/
structure FieldRegs where
  regs : List Reg
  aligned : Bool

/-- R23, R54. A field of n elements whose first register is a multiple of al. -/
def fieldRegs (f : RawField) (n al : Nat) : FieldRegs :=
  match f with
  | .num _ => ⟨[], true⟩
  | .opnd o =>
    ⟨operandRegs o n, match o with | .v m | .x m => m % al == 0 | _ => true⟩

/-- How many elements the destination field names and how it is aligned: pairs, the groups of compare and swap (R233),
and the blocks of the matrix instructions (R158, R161, R162). -/
def destShape (op : Nat) (t : EType) (wide : Bool) (chain : Nat) : Nat × Nat :=
  if op = 0xC9 ∨ op = 0xCB ∨ op = 0xCD then (if t.wide then (4, 4) else (2, 2))
  else if op = 0xD3 ∨ op = 0xD5 then (16, 2)
  else if op = 0xD4 then (16 * chain, 2)
  else if wide then (2, 2) else (1, 1)

/-- R63. The registers of the a field: a layout word names three k registers. -/
def sourceARegs (op : Nat) (a : RawField) (wide : Bool) : FieldRegs :=
  match a with
  | .opnd (.k n) => if op = 0xD3 ∨ op = 0xD4 then ⟨regRun (.k n) 3, true⟩ else ⟨[.k n], true⟩
  | f => fieldRegs f (if wide then 2 else 1) (if wide then 2 else 1)

/-- R44. Whether the d field of a long-latency opcode is a register result. -/
def lateWrites (op : Nat) : Bool :=
  lateOp op && decide (op ≠ 0xB2 ∧ op ≠ 0xD0 ∧ op ≠ 0xD1 ∧ op ≠ 0xD2 ∧ ¬ (0xE0 ≤ op ∧ op ≤ 0xEE))

/-- R53. A 64-bit literal in a 32-bit position. -/
def literalFault (f : RawField) (wide : Bool) : Bool :=
  match f with
  | .opnd (.lit64 _) => !wide
  | _ => false

/-- R225. The opcodes whose a is an address in a space other than global and fabric: it admits any source value, of which
bits [31:0] are used. -/
def localAddress (op : Nat) : Bool := decide ((0xB4 ≤ op ∧ op ≤ 0xBA) ∨ op = 0xCA ∨ op = 0xCB ∨ op = 0xCF)

/-- What decode knows of the launch, the wave and the header. -/
structure ClauseEnv where
  width : Nat
  nregs : Nat
  chain : Nat
  setA : Nat
  setB : Nat
  temps : Bool

/-- The registers of an instruction under a mode: those of d, a and b. -/
def instrRegs (e : ClauseEnv) (m : BitVec 16) (i : Instr) : FieldRegs × FieldRegs × FieldRegs :=
  match i.raw with
  | none => (⟨[], true⟩, ⟨[], true⟩, ⟨[], true⟩)
  | some (op, d, a, b) =>
    let t := modeType m
    let w := wideFields op.toNat t (Nat.min (modeSub m) e.width)
    let wd := match i with | .sysrd _ n => specialWide n | _ => w.1
    let sh := destShape op.toNat t wd e.chain
    (fieldRegs d sh.1 sh.2, sourceARegs op.toNat a w.2.1, fieldRegs b (if w.2.2 then 2 else 1) (if w.2.2 then 2 else 1))

/-- R23, R53, R54. The fault of an instruction's registers under a mode. -/
def regFault (e : ClauseEnv) (m : BitVec 16) (i : Instr) : Option (Nat × Nat) :=
  match i.raw with
  | none => none
  | some (op, d, a, b) =>
    let w := wideFields op.toNat (modeType m) (Nat.min (modeSub m) e.width)
    let r := instrRegs e m i
    let lit := literalFault d w.1 || (literalFault a w.2.1 && !localAddress op.toNat) || literalFault b w.2.2
    let beyond := fun f : FieldRegs => f.regs.any (fun r => match r with | .v n => decide (e.nregs ≤ n) | _ => false)
    if lit && decide (op.toNat ≠ 0x8D ∧ op.toNat ≠ 0x1A) then some (1, 0x03)
    else if !(r.1.aligned && r.2.1.aligned && r.2.2.aligned) then some (1, 0x07)
    else if beyond r.1 || beyond r.2.1 || beyond r.2.2 then some (1, 0x04)
    else none

/-- R58. The mode after an instruction. -/
def modeAfter (m : BitVec 16) : Instr → BitVec 16
  | .mode s v =>
    let f := fun (i : Nat) (x : BitVec 16) => if s.getLsbD i then x else (0 : BitVec 16)
    let mask := f 0 0x000F ||| f 1 0x0070 ||| f 2 0x0780 ||| f 3 0x3800 ||| f 4 0x4000 ||| f 5 0x8000
    (m &&& ~~~ mask) ||| (v &&& mask)
  | _ => m

/-- R44. The illegal-clause fault of one instruction: the number of long-latency instructions before it, the registers
they write, and whether words follow it. -/
def clauseFault (e : ClauseEnv) (m : BitVec 16) (i : Instr) (nlate : Nat) (late : List Reg) (more : Bool) :
    Option (Nat × Nat) :=
  let op := opOf i
  let r := instrRegs e m i
  let all := r.1.regs ++ r.2.1.regs ++ r.2.2.regs
  let isX := fun r : Reg => match r with | .x _ => true | _ => false
  if lateOp op && nlate == 2 then some (3, 0x03)
  else if lateOp op && (if nlate = 0 then e.setA else e.setB) == 15 then some (3, 0x04)
  else if !e.temps && all.any isX then some (3, 0x05)
  else if lateWrites op && r.1.regs.any isX then some (3, 0x06)
  else if all.any late.contains then some (3, 0x07)
  else if boundaryOp op && more then some (3, 0x08)
  else none

/-- An instruction of a decoded clause with the mode in force at it. -/
structure Decoded where
  instr : Instr
  mode : BitVec 16

/-- R41, R44. The instructions of a clause from a word on, or the first fault in word order. -/
def decodeClause (e : ClauseEnv) : Nat → BitVec 16 → Nat → List Reg → List W32 → Except (Nat × Nat) (List Decoded)
  | 0, _, _, _, _ => .ok []
  | _ + 1, _, _, _, [] => .ok []
  | fuel + 1, m, nlate, late, ws =>
    match decodeInstr ws with
    | .error x => .error x.faultCode
    | .ok (i, rest) =>
      match (regFault e m i).or (clauseFault e m i nlate late (!rest.isEmpty)) with
      | some f => .error f
      | none =>
        let op := opOf i
        let late' := if lateWrites op then (instrRegs e m i).1.regs ++ late else late
        match decodeClause e fuel (modeAfter m i) (if lateOp op then nlate + 1 else nlate) late' rest with
        | .error x => .error x
        | .ok r => .ok (⟨i, m⟩ :: r)

end Sys2Proof.Machine
end

