-- ==== Sys2Proof/Machine/Ops.lean ====
section
/-! DEFINITION. The named operations over memory, waves and the device: byte-addressed memory in canonical form, little-
endian words, the finders and updates of waves, groups, launches and contexts, the status block and the taking of a
fault (R348, R350), and the shape in which an instruction acts on the clause in execution. -/

namespace Sys2Proof.Machine

/-- The outcome of a step. -/
abbrev Out := Host.Outcome State Fault Refusal

/-- The byte at an address: the listed one, or zero (log 1). -/
def Memory.read : Memory → Nat → Byte
  | [], _ => 0
  | (x, y) :: r, a => if x = a then y else Memory.read r a

/-- Writes one byte and keeps the canonical form. -/
def Memory.write : Memory → Nat → Byte → Memory
  | [], a, b => if b = 0 then [] else [(a, b)]
  | (x, y) :: r, a, b =>
    if a < x then (if b = 0 then (x, y) :: r else (a, b) :: (x, y) :: r)
    else if a = x then (if b = 0 then r else (a, b) :: r)
    else (x, y) :: Memory.write r a b

/-- The bytes from an address on. -/
def Memory.readN (m : Memory) (a n : Nat) : List Byte := (List.range n).map (fun i => m.read (a + i))

/-- Writes bytes from an address on. -/
def Memory.writeN : Memory → Nat → List Byte → Memory
  | m, _, [] => m
  | m, a, b :: r => Memory.writeN (m.write a b) (a + 1) r

/-- R2. The number that bytes stand for, the low byte first. -/
def leNat : List Byte → Nat
  | [] => 0
  | b :: r => b.toNat + 256 * leNat r

/-- R2. The n bytes of a number, the low byte first. -/
def leBytes (n x : Nat) : List Byte := (List.range n).map (fun i => BitVec.ofNat 8 (x / 256 ^ i))

/-- A field of a record: n bytes from a byte offset, as a number. -/
def field (bs : List Byte) (at_ n : Nat) : Nat := leNat ((bs.drop at_).take n)

/-- The bits hi down to lo of a number. -/
def bitsOf (x hi lo : Nat) : Nat := x / 2 ^ lo % 2 ^ (hi + 1 - lo)

/-- A 64-bit word of a number. -/
def w64 (x : Nat) : W64 := BitVec.ofNat 64 x

/-- R351. The clock of the timebase, the value of R282. -/
def Dev.now (d : Dev) : W64 := d.timebase

/-- R354. The waves of the device, with those that a save under way has written. -/
def Dev.allWaves (d : Dev) : List Wave := d.waves ++ d.parts.flatMap SavePart.waves

/-- R354. The groups of the device, with those that a save under way has written. -/
def Dev.allGroups (d : Dev) : List Group := d.groups ++ d.parts.flatMap SavePart.groups

/-- The wave of a name. -/
def Dev.wave? (d : Dev) (id : WaveId) : Option Wave := d.allWaves.find? (fun w => w.id == id)

/-- Replaces the wave of the same name. -/
def Dev.setWave (d : Dev) (w : Wave) : Dev := { d with waves := d.waves.map (fun x => if x.id = w.id then w else x) }

/-- The group of a launch. -/
def Dev.group? (d : Dev) (launch index : Nat) : Option Group :=
  d.allGroups.find? (fun g => g.launch == launch && g.index == index)

/-- Changes a group. -/
def Dev.mapGroup (d : Dev) (launch index : Nat) (f : Group → Group) : Dev :=
  let one := fun (g : Group) => if g.launch = launch ∧ g.index = index then f g else g
  { d with
    groups := d.groups.map one
    parts := d.parts.map (fun p => { p with groups := p.groups.map one }) }

/-- The launch of a number. -/
def Dev.launch? (d : Dev) (id : Nat) : Option Launch := d.launches.find? (fun l => l.id == id)

/-- Changes a launch. -/
def Dev.mapLaunch (d : Dev) (id : Nat) (f : Launch → Launch) : Dev :=
  { d with launches := d.launches.map (fun l => if l.id = id then f l else l) }

/-- The context of a number. -/
def Dev.ctx? (d : Dev) (i : Nat) : Option Context := d.ctxs.find? (fun c => c.index == i)

/-- Changes a context. -/
def Dev.mapCtx (d : Dev) (i : Nat) (f : Context → Context) : Dev :=
  { d with ctxs := d.ctxs.map (fun c => if c.index = i then f c else c) }

/-- The core of a number; a core that nothing has touched is empty (R149, R341). -/
def Core.empty (i : Nat) : Core :=
  { index := i, bank0 := [], bank1 := [], type0 := 9, type1 := 9, xvw0 := 0x8000, xvw1 := 0x8000, active := false,
    queue := [], ways := 0, l1 := [] }

/-- The core of a number. -/
def Dev.core (d : Dev) (i : Nat) : Core := (d.cores.find? (fun c => c.index == i)).getD (Core.empty i)

/-- Changes a core. -/
def Dev.mapCore (d : Dev) (i : Nat) (f : Core → Core) : Dev :=
  if d.cores.any (fun c => c.index == i) then
    { d with cores := d.cores.map (fun c => if c.index = i then f c else c) }
  else { d with cores := d.cores ++ [f (Core.empty i)] }

/-- R341. The descriptor of a context that is free and has never been written. -/
def Context.empty (i : Nat) : Context :=
  { index := i, root := 0, clusters := 0, step := 0, state := 0, hints := 0, nhint := 0, wdog := 0, pool := 0, pairs := 0
    errbits := 0, causes := [], coreBudget := 0, hbmBudget := 0, powerBudget := 0, hbmUse := 0, powerUse := 0, refused := 0
    poolOverflow := 0, walker := ⟨0, 0, 0, 0⟩, dropped := none, saving := none, savedGraphs := 0 }

/-- The context of a number, free if it has never been written. -/
def Dev.context (d : Dev) (i : Nat) : Context := (d.ctx? i).getD (Context.empty i)

/-- Replaces a context, or adds it. -/
def Dev.setContext (d : Dev) (c : Context) : Dev :=
  if d.ctxs.any (fun x => x.index == c.index) then d.mapCtx c.index (fun _ => c) else { d with ctxs := d.ctxs ++ [c] }

/-- The context of a wave. -/
def Dev.ctxOf (d : Dev) (id : WaveId) : Nat := ((d.launch? id.launch).map Launch.ctx).getD 0

/-- R294. Whether a wave's launch is deterministic. -/
def Dev.det (d : Dev) (id : WaveId) : Bool := ((d.launch? id.launch).map (fun l => l.record.det)).getD false

/-- The hardware cluster of a core, h = 16 · die + cluster (R10, R341). -/
def hwOf (core : Nat) : Nat := core / 4
/-- The die of a core. -/
def dieOf (core : Nat) : Nat := core / 64

/-- A fresh number. -/
def State.fresh (s : State) : Nat × State :=
  (s.dev.nextId, { s with dev := { s.dev with nextId := s.dev.nextId + 1 } })

/-- The next number of the free-value counter (log 4). -/
def State.draw (s : State) : Nat × State := (s.free, { s with free := s.free + 1 })

/-- A state with its device changed. -/
def State.mapDev (s : State) (f : Dev → Dev) : State := { s with dev := f s.dev }

/-- Changes every wave, with the working copies of the clauses in execution (log 5). -/
def State.mapWaves (s : State) (f : Wave → Wave) : State :=
  { s with
    dev := { s.dev with
      waves := s.dev.waves.map f
      parts := s.dev.parts.map (fun p => { p with waves := p.waves.map f }) }
    issue := s.issue.map (fun c => c.mapWave f)
    held := s.held.map (fun c => c.mapWave f) }

/-- Changes one wave, with its working copies (log 5). -/
def State.onWave (s : State) (id : WaveId) (f : Wave → Wave) : State :=
  s.mapWaves (fun w => if w.id = id then f w else w)

/-- The clause of a wave that is in execution or holds. -/
def State.issueOf (s : State) (id : WaveId) : Option Issue :=
  match s.issue with
  | some c => if c.wave.id = id then some c else s.held.find? (fun c => c.wave.id == id)
  | none => s.held.find? (fun c => c.wave.id == id)

/-- A wave as it stands in the clause in execution, or else on the device. -/
def State.waveNow (s : State) (id : WaveId) : Option Wave :=
  match s.issueOf id with
  | some c => some c.wave
  | none => s.dev.wave? id

/-- The bytes of a place: nothing is read of a fabric address here. -/
def Dev.peek (d : Dev) (l : Loc) (n : Nat) : List Byte :=
  match l.space with
  | .hbm => d.hbm.readN l.addr n
  | .lpddr => d.lpddr.readN l.addr n
  | .host => d.host.readN l.addr n
  | .scratch la g => ((d.group? la g).map (fun g => g.scratch.readN l.addr n)).getD (List.replicate n 0)
  | .priv w => ((d.wave? w).map (fun w => w.priv.readN l.addr n)).getD (List.replicate n 0)
  | .const la => ((d.launch? la).map (fun x => x.const.readN l.addr n)).getD (List.replicate n 0)
  | .fabric => List.replicate n 0

/-- The 128-byte line of a place (R210). -/
def Loc.line (l : Loc) : Loc := { l with addr := l.addr / 128 * 128 }

/-- R365. The bytes of a granule of a place: 8 in a scratchpad, 32 in memory. -/
def Loc.granuleSize (l : Loc) : Nat :=
  match l.space with
  | .scratch _ _ => 8
  | _ => 32

/-- R365. The granules that some bytes from a place on touch. -/
def Loc.granules (l : Loc) (n : Nat) : List Loc :=
  let g := l.granuleSize
  if n = 0 then []
  else (List.range ((l.addr + n - 1) / g - l.addr / g + 1)).map (fun i => { l with addr := (l.addr / g + i) * g })

/-- R365. The granule of storage at a place, as an uncorrectable error names it where it is stored. -/
def Loc.granule (l : Loc) : Granule :=
  match l.space with
  | .scratch la g => .scratch la g (l.addr / 8)
  | _ => .memory l

/-- R365. Whether bytes from a place on cover a granule. -/
def Loc.covers (l : Loc) (n : Nat) (g : Loc) : Bool := decide (l.addr ≤ g.addr ∧ g.addr + l.granuleSize ≤ l.addr + n)

/-- R365. Bytes that are stored cover their whole granules with new check bits. -/
def Dev.coverGranules (d : Dev) (l : Loc) (n : Nat) : Dev :=
  if d.failing.isEmpty then d
  else
    let whole := (l.granules n).filter (l.covers n)
    { d with failing := d.failing.filter (fun f => !(whole.any (fun g => f == g.granule))) }

/-- R210. Whether a copy of a line is dirty. -/
def L2Copy.dirty (c : L2Copy) : Bool := c.state == .modified || c.state == .owned

/-- R365. The code of the data-loss fault that the read of a granule meets outside the reader's own L2: in the copy of the die
that supplies the line, or where it is stored. -/
def Dev.sourceLoss (d : Dev) (g : Loc) : Option Nat :=
  match d.l2.find? (fun c => c.line == g.line && c.dirty) with
  | some c => if d.failing.contains (.l2 c.die g) then some 0x04 else none
  | none =>
    if d.failing.contains g.granule then
      (match g.space with
       | .scratch _ _ => some 0x02
       | .lpddr => some 0x06
       | _ => some 0x05)
    else none

/-- R365. The code of the data-loss fault that the read of a granule by a die meets: in the die's own dirty copy, or, where
its clean copy fails or it has none, in what it fetches. -/
def Dev.granuleLoss (d : Dev) (die : Option Nat) (g : Loc) : Option Nat :=
  match d.l2.find? (fun c => c.line == g.line && some c.die == die && c.state != .stale) with
  | some c => if !d.failing.contains (.l2 c.die g) then none else if c.dirty then some 0x04 else d.sourceLoss g
  | none => d.sourceLoss g

/-- R365. The code of the data-loss fault that a read of bytes by a die meets, if one of their granules fails. -/
def Dev.readLoss (d : Dev) (die : Option Nat) (l : Loc) (n : Nat) : Option Nat :=
  if d.failing.isEmpty then none else (l.granules n).findSome? (d.granuleLoss die)

/-- R365. The code of the data-loss fault that a store meets that covers only a part of a failing granule. -/
def Dev.storeLoss (d : Dev) (die : Option Nat) (l : Loc) (n : Nat) : Option Nat :=
  if d.failing.isEmpty then none
  else ((l.granules n).filter (fun g => !l.covers n g)).findSome? (d.granuleLoss die)

/-- R365. The granules of a line that a read by a die finds failing. -/
def Dev.badGranules (d : Dev) (die : Option Nat) (line : Loc) : List Loc :=
  if d.failing.isEmpty then [] else (line.granules 128).filter (fun g => (d.granuleLoss die g).isSome)

/-- R365. A line has come in to a die with some granules failing, as it was fetched. -/
def Dev.lineCame (d : Dev) (die : Nat) (line : Loc) (bad : List Loc) : Dev :=
  if d.failing.isEmpty then d
  else { d with failing := bad.map (.l2 die) ++ d.failing.filter (fun f => match f with
    | .l2 k a => !(k == die && a.line == line)
    | _ => true) }

/-- R365. A line has been written, by a die with a grant or by another agent, and some granules of it still fail: they fail
in the die's L2, or where the line is stored. -/
def Dev.lineWritten (d : Dev) (die : Option Nat) (line : Loc) (bad : List Loc) : Dev :=
  if d.failing.isEmpty then d
  else
    let kept := d.failing.filter (fun f => match f with
      | .l2 k a => !(some k == die && a.line == line)
      | .memory a => a.line != line
      | _ => true)
    { d with failing := bad.map (match die with | some k => .l2 k | none => Loc.granule) ++ kept }

/-- R210, R365. Some copies of lines leave the L2s: what fails of a dirty one fails where the line is stored. -/
def Dev.dropCopies (d : Dev) (gone : L2Copy → Bool) : Dev :=
  let moved : Granule → List Granule := fun f => match f with
    | .l2 k a =>
      (match d.l2.find? (fun c => gone c && c.die == k && c.line == a.line) with
       | some c => if c.dirty then [.memory a] else []
       | none => [f])
    | _ => [f]
  { d with l2 := d.l2.filter (fun c => !gone c), failing := d.failing.flatMap moved }

/-- Puts bytes at a place, with no other effect but that whole granules get new check bits (R365). A private space lies in
its wave. -/
def State.poke (s : State) (l : Loc) (bs : List Byte) : State :=
  let s := s.mapDev (fun d => d.coverGranules l bs.length)
  match l.space with
  | .hbm => s.mapDev (fun d => { d with hbm := d.hbm.writeN l.addr bs })
  | .lpddr => s.mapDev (fun d => { d with lpddr := d.lpddr.writeN l.addr bs })
  | .host => s.mapDev (fun d => { d with host := d.host.writeN l.addr bs })
  | .scratch la g => s.mapDev (fun d => d.mapGroup la g (fun g => { g with scratch := g.scratch.writeN l.addr bs }))
  | .priv w => s.onWave w (fun w => { w with priv := w.priv.writeN l.addr bs })
  | .const la => s.mapDev (fun d => d.mapLaunch la (fun x => { x with const := x.const.writeN l.addr bs }))
  | .fabric => s

/-- R210. Whether a place is global memory, with a directory line. -/
def Loc.global (l : Loc) : Bool :=
  match l.space with
  | .hbm | .lpddr | .host => true
  | _ => false

/-- R235. Clears every reservation on a line but the writing lane's own. -/
def State.clearReservations (s : State) (writer : Option (WaveId × Nat)) (line : Loc) : State :=
  s.mapWaves (fun w =>
    { w with resv := w.resv.filter (fun r => r.line ≠ line ∨ writer = some (w.id, r.lane)) })

/-- R210. Whether a die's copy of a line is valid. -/
def L2Copy.valid (c : L2Copy) : Bool := c.state != .stale

/-- R211. What the directory keeps of a line; a line that it has not tracked before starts with number 0 (log 63). -/
def Dev.dirLine (d : Dev) (line : Loc) : DirLine := (d.dir.find? (fun e => e.line == line)).getD ⟨line, 0, false⟩

/-- A device with the directory's entry of a line replaced. -/
def Dev.setDir (d : Dev) (e : DirLine) : Dev := { d with dir := e :: d.dir.filter (fun x => x.line ≠ e.line) }

/-- R210. The die that supplies a line to another die: the one that holds it in M or O; none if it is read from home. -/
def Dev.supplier (d : Dev) (die : Nat) (line : Loc) : Option Nat :=
  (d.l2.find? (fun c => c.line == line && c.die != die && (c.state == .modified || c.state == .owned))).map L2Copy.die

/-- R211. What a write of a line does at the directory: a die that already holds the line in M adds nothing; any other
write advances the number, and the copies of the other dies become stale-retained with data and number as they stood. A
die is named when its grant of M covers the write. At a wrap of the number no stale copy is left. -/
def Dev.dirWrite (d : Dev) (die : Option Nat) (line : Loc) : Dev :=
  let old := d.dirLine line
  let own := d.l2.any (fun c => c.line == line && some c.die == die && c.state == .modified)
  let seq := if own then old.seq else old.seq + 1
  let wraps := !own && seq == 0
  let kept := d.l2.filter (fun c => !(c.line == line && (wraps || some c.die == die)))
  let others := kept.map (fun c => if c.line = line then { c with state := .stale } else c)
  let mine := match die with
    | some k => [L2Copy.mk k line .modified seq (d.peek line 128)]
    | none => []
  { d.setDir ⟨line, seq, true⟩ with l2 := mine ++ others }

/-- R210, R211. What a load of a line by a die does: a valid copy serves as it is; otherwise the die fetches the line, E if
no other die holds it and S if one does, and a die that held it in M or E holds it in O or S. -/
def Dev.dirRead (d : Dev) (die : Nat) (line : Loc) : Dev :=
  let old := d.dirLine line
  let mine := fun (c : L2Copy) => c.line == line && c.die == die
  if d.l2.any (fun c => mine c && c.valid) then d
  else
    let shared := d.l2.any (fun c => c.line == line && c.valid)
    let others := (d.l2.filter (fun c => !mine c)).map (fun c =>
      if c.line = line then { c with state := match c.state with
        | .modified => .owned
        | .exclusive => .shared
        | x => x } else c)
    { (d.lineCame die line (d.badGranules (some die) line)).setDir { old with held := true } with
      l2 := ⟨die, line, if shared then .shared else .exclusive, old.seq, d.peek line 128⟩ :: others }

/-- R210, R211, R212. What a load of a line by an agent without an L2 does: the directory tracks the line, and a die that held
it in M or E holds it in O or S, so that its next write advances the number. -/
def Dev.dirShare (d : Dev) (line : Loc) : Dev :=
  { d.setDir { d.dirLine line with held := true } with
    l2 := d.l2.map (fun c => if c.line = line then { c with state := match c.state with
      | .modified => .owned
      | .exclusive => .shared
      | x => x } else c) }

/-- R10. The lines that a die's 64 MiB of L2 hold. -/
def l2Lines : Nat := 524288

/-- R210, R211. The replacement that a line coming in to a die's L2 may cause: another line of its set, a stale-retained one
before a valid one; a full L2 replaces some line (log 63). -/
def Dev.l2Replace (d : Dev) (die : Nat) (line : Loc) (k : Nat) : Dev :=
  let others := d.l2.filter (fun c => c.die == die && c.line != line)
  let set := others.filter (fun c => Config.l2Set c.line.addr == Config.l2Set line.addr)
  let pool := if set.any (fun c => !c.valid) then set.filter (fun c => !c.valid) else set
  let victim := match pool[Config.l2Victim k]? with
    | some c => some c
    | none => if others.length < l2Lines then none else (pool ++ others).head?
  match victim with
  | some c => d.dropCopies (· == c)
  | none => d

/-- R210 to R212. The directory evicts the entry of a line: every copy is invalidated, none is kept stale, and the pending
watch entries on the line are struck. -/
def State.dirEvict (s : State) (line : Loc) : State :=
  let e := s.dev.dirLine line
  let s := s.mapDev (fun d => (d.dropCopies (fun c => c.line == line)).setDir ⟨line, e.seq + 1, false⟩)
  s.mapWaves (fun w => { w with watch := w.watch.map (fun e =>
    if e.line = line ∧ e.state = .pending then { e with state := .struck } else e) })

/-- R210, R211. What may follow when a line has come in to a die: a replacement in its L2, and an eviction of another
line's entry by the directory (log 63). -/
def State.cameIn (s : State) (die : Nat) (line : Loc) : State :=
  let (k, s) := s.draw
  let s := s.mapDev (fun d => d.l2Replace die line k)
  match (s.dev.dir.filter (fun e => e.held && e.line != line))[Config.dirVictim k]? with
  | some e => s.dirEvict e.line
  | none => s

/-- R209, R333. What a write by a core does to its own L1 lines of a physical line: the line under the writer's tag
takes the bytes, every other tag is dropped. -/
def Core.l1Write (c : Core) (ctx va : Nat) (line : Loc) (data : List Byte) : Core :=
  let kept := c.l1.filter (fun e => !(e.frame == line && !(e.ctx == ctx && e.va == va && e.version.isNone)))
  { c with l1 := kept.map (fun e => if e.frame = line then { e with data := data } else e) }

/-- R11, R332, R333. A fill of an L1 whose ways are not all converted: the line takes the place of every line of its tag
or of its frame, and of some line where the L1 is full. -/
def Core.l1Fill (c : Core) (line : L1Line) (k : Nat) : Core :=
  let kept := c.l1.filter (fun e =>
    !(e.frame == line.frame || (e.ctx == line.ctx && e.va == line.va && e.version == line.version)))
  let room := 256 * (8 - c.ways)
  { c with l1 :=
      if room = 0 then []
      else line :: (if kept.length < room then kept else kept.eraseIdx (Config.l1Victim k % kept.length)) }

/-- R333. An L1 without the lines of a frame. -/
def Core.l1Drop (c : Core) (line : Loc) : Core := { c with l1 := c.l1.filter (fun e => e.frame ≠ line) }

/-- The agent that writes: a lane of a wave, with the cores whose L1s serve its wave, its context and the virtual address;
or another agent, which has no die's grant (R211). -/
inductive Writer where
  | lane (w : WaveId) (lane : Nat) (cores : List Nat) (ctx va : Nat)
  | other
  deriving DecidableEq, Repr

/-- A write within one 128-byte line of global memory, with what follows from it: reservations (R235), the directory
(R211) and the L1 of the writer (R209, R333). -/
def State.storeLine (s : State) (by_ : Writer) (l : Loc) (bs : List Byte) : State :=
  let writer := match by_ with | .lane _ _ cores _ _ => some (dieOf (cores.headD 0)) | .other => none
  let bad := (s.dev.badGranules writer l.line).filter (fun g => !l.covers bs.length g)
  let s := s.poke l bs
  match by_ with
  | .lane w lane cores ctx va =>
    let die := dieOf (cores.headD 0)
    let s := s.clearReservations (some (w, lane)) l.line
    let s := s.mapDev (fun d => (d.dirWrite (some die) l.line).lineWritten (some die) l.line bad)
    let data := s.dev.peek l.line 128
    let s := s.mapDev (fun d => cores.foldl (fun d core => d.mapCore core (fun c => c.l1Write ctx (va / 128) l.line data)) d)
    s.cameIn die l.line
  | .other =>
    let s := s.clearReservations none l.line
    s.mapDev (fun d => (d.dirWrite none l.line).lineWritten none l.line bad)

/-- A write of bytes at a place by an agent; a write of global memory goes line by line. -/
def State.storeAt (s : State) (by_ : Writer) (l : Loc) (bs : List Byte) : State :=
  if l.global then
    let n := (l.addr + bs.length + 127) / 128 - l.addr / 128
    (List.range n).foldl (fun s i =>
      let lo := Nat.max l.addr ((l.addr / 128 + i) * 128)
      let hi := Nat.min (l.addr + bs.length) ((l.addr / 128 + i + 1) * 128)
      s.storeLine by_ { l with addr := lo } ((bs.drop (lo - l.addr)).take (hi - lo))) s
  else s.poke l bs

/-- R243. The value of `%watch`. -/
def Wave.watchWord (w : Wave) : W32 :=
  let bit := fun (st : WatchState) (i : Nat) =>
    if w.watch.any (fun e => e.set == i && e.state == st) then 2 ^ i else 0
  let mask := fun st => bit st 0 + bit st 1 + bit st 2 + bit st 3
  BitVec.ofNat 32 (w.wset * 2 ^ 24 + mask .struck * 2 ^ 20 + mask .pending * 2 ^ 16 + w.watch.length)

/-- R350. The place word of a wave: die, cluster in the die, core, bay, slot. -/
def Wave.place (w : Wave) : Nat :=
  dieOf w.core * 2 ^ 13 + hwOf w.core % 16 * 2 ^ 9 + w.core % 4 * 2 ^ 7 + w.bay * 2 ^ 5 + w.slot % 32

/-- R287. The bay of a wave, or the half of a bay of a 16-lane wave. -/
def Wave.dom (w : Wave) : Nat := (w.core * 4 + w.bay) * 2 + (if w.width = 16 then w.half else 0)

/-- R266. Whether a wave holds a dual entry. -/
def Wave.dual (w : Wave) : Bool := w.div.any DivEntry.dual

/-- R350. The status block of a wave that halts, for a fault reported on one of its paths. -/
def Wave.statusBlock (w : Wave) (now : W64) (ctx path : Nat) (f : FaultInfo) (halted resumable : Bool) : StatusBlock :=
  let other := w.path (1 - path)
  { time := now
    otherpc := if other.live && w.path0.live && w.path1.live then other.pc else 0
    mode := (w.path path).mode
    place := w.place
    wave := w.id.wave
    group := w.id.group
    ctx := ctx
    watch := w.watchWord
    flags := BitVec.ofNat 8 ((if path = 1 && w.dual then 1 else 0) + (if f.uncertain then 2 else 0) +
      (if halted then 4 else 0) + (if resumable then 8 else 0))
    cls := f.cls
    code := f.code
    addr := f.addr
    mask := f.mask &&& ~~~ w.helper
    pc := f.pc }

/-- R350. Writes the status window's slot of a place. -/
def Dev.setStatus (d : Dev) (place : Nat) (b : StatusBlock) : Dev :=
  { d with status := (place, b) :: d.status.filter (fun p => p.1 ≠ place) }

/-- R348, R350. Halts one wave with a report on one of its paths. -/
def State.haltWave (s : State) (id : WaveId) (path : Nat) (f : FaultInfo) (halted resumable : Bool) : State :=
  match s.dev.wave? id with
  | none => s
  | some w =>
    let b := w.statusBlock s.dev.now (s.dev.ctxOf id) path f halted resumable
    (s.mapDev (fun d => d.setStatus w.place b)).onWave id (fun w => { w with hold := .halted b })

/-- Whether a wave is still in the machine and has not halted. -/
def Wave.running (w : Wave) : Bool :=
  match w.hold with
  | .halted _ => false
  | _ => true

/-- R34. Whether every real lane of a wave has ended. -/
def Wave.over (w : Wave) : Bool := w.real &&& ~~~w.ended == 0

/-- R349. The report of class 0: halted with the launch, at the path's next header. -/
def Wave.classZero (w : Wave) : Nat × FaultInfo :=
  let p := if w.path0.live then 0 else 1
  (p, { cls := 0, code := 0, mask := 0, addr := 0, pc := (w.path p).pc, uncertain := false })

/-- R343, R348. The report of a wave that halts with its launch: the refusal of a request that a target has dropped, if one
is pending on a path, else class 0. -/
def Wave.haltReport (w : Wave) : Nat × FaultInfo :=
  match [0, 1].findSome? (fun p => ((w.path p).pending.find? (fun f => f.cls == 5)).map (fun f => (p, f))) with
  | some (p, f) =>
    (p, { cls := f.cls, code := f.code, mask := f.mask, addr := f.addr, pc := (w.path p).pc, uncertain := false })
  | none => w.classZero

/-- R348. Halts with class 0 the waves that a predicate selects and that stand at a clause boundary: a wave whose clause
holds halts when its clause ends. -/
def State.haltOthers (s : State) (sel : Wave → Bool) (resumable : Bool) : State :=
  (s.dev.allWaves.filter (fun w => sel w && w.running && !w.over && (s.issueOf w.id).isNone)).foldl
    (fun s w => let r := w.haltReport; s.haltWave w.id r.1 r.2 true resumable) s

/-- R341, R348, R354. The state of a context whose waves halt reads 2, but while it is being saved. -/
def Context.halts (c : Context) : Context := if c.saving.isSome then c else { c with state := 2 }

/-- R348, R350, R351. Taking a fault, a trap or a breakpoint: the wave halts with both of its paths and its status block
is written; every other wave of the launch halts at its next clause boundary; the launch is halted and the context's
state reads 2. -/
def State.takeFault (s : State) (id : WaveId) (path : Nat) (f : FaultInfo) : State :=
  let resumable := decide (f.cls = 13)
  let s := s.haltWave id path f false resumable
  let s := s.haltOthers (fun w => w.id.launch == id.launch && w.id != id) resumable
  let ctx := s.dev.ctxOf id
  (s.mapDev (fun d => d.mapLaunch id.launch (fun l => { l with halted := true }))).mapDev
    (fun d => d.mapCtx ctx Context.halts)

/-- R348, R351. Whether the waves of a halted launch are resumable: its halt began with a breakpoint, and the watchdog
has not stopped its context. -/
def Dev.launchResumable (d : Dev) (launch : Nat) : Bool :=
  let ctx := (d.launch? launch).map Launch.ctx
  d.allWaves.all (fun w => match w.hold with
    | .halted b =>
      if w.id.launch = launch then b.cls == 13 || (b.cls == 0 && b.flags.getLsbD 3)
      else b.cls != 14 || ((d.launch? w.id.launch).map Launch.ctx) != ctx
    | _ => true)

/-- R348, R353. The halt that falls on a wave at its clause boundary: with its launch, or by a pre-emption. -/
def State.boundaryHalt (s : State) (id : WaveId) : State :=
  match s.dev.wave? id, s.dev.launch? id.launch with
  | some w, some l =>
    if !w.running ∨ w.over then s
    else if l.halted then
      let r := w.haltReport
      s.haltWave id r.1 r.2 true (s.dev.launchResumable id.launch)
    else if ((s.dev.ctx? l.ctx).bind Context.saving).isSome ∧ w.hold = .none then
      s.onWave id (fun w => { w with hold := .preempted })
    else s
  | _, _ => s

/-- R338. The group parks and its faulting wave waits for the fill routine, which finds the lanes in `%faultmask`; a wave
that has halted stays so. -/
def State.parkForFill (s : State) (id : WaveId) (mask : Lanes) (touches : List Touch) : State :=
  let ctx := s.dev.ctxOf id
  let s := s.onWave id (fun w => { w with hold := match w.hold with | .none => .fill | x => x, faultmask := mask })
  s.mapDev (fun d =>
    let d := d.mapGroup id.launch id.group (fun g => { g with parked := true })
    { d with fills := d.fills ++ [{ w := id, ctx := ctx, mask := mask, pages := touches, unit := none, cmd := none }] })

/-- R36, R39, R297. The counts of issue slots that a started clause leaves, whatever its end. -/
def Wave.takeCounts (w c : Wave) : Wave :=
  { w with
    path0 := { w.path0 with slots := c.path0.slots, ageing := c.path0.ageing }
    path1 := { w.path1 with slots := c.path1.slots, ageing := c.path1.ageing }
    last := c.last
    forced := c.forced
    switches := c.switches }

/-- R39. The slot of a started clause counts for its wave and its launch, once. -/
def State.countSlot (s : State) (c : Issue) : State :=
  if c.counted then s
  else (s.onWave c.wave.id (fun w => w.takeCounts c.wave)).mapDev (fun d =>
    d.mapLaunch c.wave.id.launch (fun l => { l with used := l.used + 1 }))

/-- R39. A clause that has started, in execution with its slot counted. -/
def State.startClause (s : State) (c : Issue) : State :=
  { s.countSlot c with issue := some { c with counted := true } }

/-- R39. A path that is not ready for its next clause is parked for what it lacks. -/
def State.parkPath (s : State) (c : Issue) (why : Park) : State :=
  s.onWave c.wave.id (fun w => w.setPath c.path { w.path c.path with park := why })

/-- R287, R313. A selection that started nothing leaves the bay where it stood. -/
def State.undoTurn (s : State) (c : Issue) : State :=
  match c.turn with
  | none => s
  | some before =>
    let rest := s.dev.rotation.filter (fun x => x.1 ≠ c.wave.dom)
    s.mapDev (fun d => { d with rotation := (before.map (fun k => (c.wave.dom, k))).toList ++ rest })

/-- R312. What the clause has charged to a destination so far. -/
def Issue.charged (c : Issue) (dest : Nat) : Nat :=
  c.effects.foldl (fun n e => match e with | .allowance d u => if d = dest then n + u else n | _ => n) 0

/-- R312. What the clause has paid to a destination before it ran. -/
def Issue.prepaid (c : Issue) (dest : Nat) : Nat := (c.paid.lookup dest).getD 0

/-- R312. The destinations that the clause has charged or paid. -/
def Issue.dests (c : Issue) : List Nat :=
  (c.paid.map Prod.fst ++ c.effects.filterMap (fun e => match e with | .allowance d _ => some d | _ => none)).eraseDups

/-- R311. Units that come back to the allowance of a destination. -/
def Dev.refund (d : Dev) (dest units : Nat) : Dev :=
  { d with peers := d.peers.map (fun p => if p.id = dest then { p with allowance := p.allowance + units } else p) }

/-- R312. Units that leave the allowance of a destination. -/
def Dev.spend (d : Dev) (dest units : Nat) : Dev :=
  { d with peers := d.peers.map (fun p => if p.id = dest then { p with allowance := p.allowance - units } else p) }

/-- R248. The ways that the clause has converted. -/
def Issue.waysAdded (c : Issue) : Nat :=
  c.effects.foldl (fun n e => match e with | .convert k => n + k | _ => n) 0

/-- R248. Converts ways of a wave's core for its group: the lines of the L1 go, and the group's scratchpad grows by bytes
that read as zero. -/
def Dev.convertWays (d : Dev) (w : Wave) (n : Nat) : Dev :=
  (d.mapCore w.core (fun c => { c with ways := c.ways + n, l1 := [] })).mapGroup w.id.launch w.id.group (fun g =>
    { g with
      scratch := g.scratch.filter (fun x => decide (x.1 < g.scratchSize))
      scratchSize := g.scratchSize + 32768 * n
      converted := g.converted + n })

/-- R49, R248. Undoes a conversion of ways. -/
def Dev.restoreWays (d : Dev) (w : Wave) (n : Nat) : Dev :=
  (d.mapCore w.core (fun c => { c with ways := c.ways - n })).mapGroup w.id.launch w.id.group (fun g =>
    { g with scratchSize := g.scratchSize - 32768 * n, converted := g.converted - n })

/-- The engine commands that a clause is to send. -/
def Issue.commands (c : Issue) : List Nat :=
  c.effects.filterMap (fun e => match e with | .engine x => some x.id | _ => none)

/-- R49. Undoes what a clause has taken from the device before it ends: its range-lock entries (R217), its ways (R248) and
its charges (R312). -/
def State.undoClause (s : State) (c : Issue) : State :=
  let s := s.mapDev (fun d => { d with locks := d.locks.filter (fun e => !c.commands.contains e.owner) })
  let s := if c.waysAdded = 0 then s else s.mapDev (fun d => d.restoreWays c.wave c.waysAdded)
  if c.phase = .checking then s
  else s.mapDev (fun d => c.dests.foldl (fun d x => d.refund x (Nat.max (c.prepaid x) (c.charged x))) d)

/-- R217. The free entries of a die's range-lock table, without those that the started clauses of other waves keep. -/
def State.lockRoom (s : State) (die : Nat) (self : Option WaveId) : Nat :=
  let others := (s.issue.toList ++ s.held).filter (fun c => some c.wave.id ≠ self)
  64 - (s.dev.locks.filter (fun e => e.die == die)).length -
    others.foldl (fun n c => n + (c.room.lookup die).getD 0) 0

/-- A clause that holds at an instruction. The bay goes on to other waves. -/
def State.holdClause (s : State) (c : Issue) : State := { s with held := s.held ++ [{ c with turn := none }] }

/-- R49. A clause in execution ends without any effect: its wave halts with the fault, or parks for a fill, or the clause
starts again later. A clause that holds, and one that a fence has partly sent (log 14), goes on where it stands. -/
def State.abandon (s : State) (c : Issue) (e : Stop) : State :=
  let s := { s with issue := none }
  match e with
  | .fault cls code mask addr =>
    ((s.undoClause c).countSlot c).takeFault c.wave.id c.path
      { cls := cls, code := code, mask := mask, addr := addr, pc := c.header, uncertain := false }
  | .pending f =>
    ((s.undoClause c).countSlot c).takeFault c.wave.id c.path
      { cls := f.cls, code := f.code, mask := f.mask, addr := f.addr, pc := c.header, uncertain := f.uncertain }
  | .fill mask pages =>
    if c.flushed then (s.holdClause c).parkForFill c.wave.id mask pages
    else ((s.undoClause c).countSlot c).parkForFill c.wave.id mask pages
  | .notReady why =>
    if c.flushed then s.holdClause (c.setPth { c.pth with park := why })
    else (((s.undoClause c).undoTurn c).parkPath c why).boundaryHalt c.wave.id
  | .hold => s.holdClause c

/-- R281, R294. The instruction has retired. -/
def Issue.retire (c : Issue) : Issue := c.mapWave (fun w => { w with retired := w.retired + 1 })

/-- R43, R47, R265. An instruction acts on the clause in execution: it retires and the clause goes on, or the clause is
abandoned. What the checks have done to the device stays (R260). -/
def State.onIssue (s : State) (f : State → Issue → State × Except Stop Issue) : Out :=
  match s.issue with
  | none => .fault .noIssuingPath
  | some c =>
    match f s c with
    | (s', .ok c') => .next { s' with issue := some c'.retire }
    | (s', .error e) => .next (s'.abandon (s'.issue.getD c) e)

/-- An instruction that acts on the clause alone. -/
def State.onClause (s : State) (f : Issue → Except Stop Issue) : Out := s.onIssue (fun s c => (s, f c))

/-- R45, R49. A clause that sends an access when it ends. -/
def Issue.send (c : Issue) (e : Effect) : Issue := { c with effects := c.effects ++ [e] }

/-- R45, R123, R124. A long-latency computation: its sources are read and its results fixed as it issues, its flag is
set, and the results and flags arrive at its completion. -/
def State.computeLate (s : State) (c : Issue) (ok : EType → Bool) (d : Operand) (f : Nat → Nat × FpFlags) :
    State × Except Stop Issue :=
  if ok c.ty then
    let (op, s) := s.fresh
    let rs : List LaneResult := match d with
      | .k _ => let r := f 0; [(0, (BitVec.ofNat 64 r.1, r.2))]
      | _ => onLanes c.wave.width c.active f
    let fp := match d with
      | .k _ => (f 0).2
      | _ => realFlags c.wave.real rs
    let a : Access :=
      { op := op, ctx := s.dev.ctxOf c.wave.id, w := c.wave.id, path := c.path, clause := c.header,
        kind := .compute, width := 0, mtype := 0, lanes := [], dest := c.destOf d c.ty.wide, flag := some c.nextFlag,
        counter := none, fp := fp, results := bare rs, halves := [], failed := [] }
    (s, .ok ((c.takeFlag op).send (.access a)))
  else (s, .error (illegal 0x05))

end Sys2Proof.Machine
end

