-- ==== Sys2Proof/Machine/Translate.lean ====
section
/-! DEFINITION. Translation and its checks: page tables (R328 to R330), version records and copies on first store (R331,
R246, R260), hint ranges (R337, R338), frame pools (R414), access tables (R342, R343), range locks (R217, R218). -/

namespace Sys2Proof.Machine

/-- R342. The classes of masters of a context. -/
abbrev MasterClass := Nat

/-- R336. What an access needs of a leaf. -/
inductive Need where
  | read | write | atomic | exec
  deriving DecidableEq, Repr

/-- Whether a need changes memory. -/
def Need.writes : Need → Bool
  | .write | .atomic => true
  | _ => false

/-- R342. The index of a master of a context. -/
def masterOf (ctx : Nat) (k : MasterClass) : Nat := 8 * ctx + k

/-- R342. The index of the firmware master: the fill routine and the writes of version records. -/
def firmwareMaster : Nat := 513

/-- R342. The entry of a target for a master. -/
def Dev.accessEntry (d : Dev) (target master : Nat) : Option W64 :=
  (d.access.find? (fun e => e.target == target && e.master == master)).map AccessEntry.entry

/-- R342. Whether a target whose regions are no address ranges grants a master a bit; an entry that the driver has not
written grants everything (log 13). -/
def Dev.bitGranted (d : Dev) (target master j : Nat) (write : Bool) : Bool :=
  match d.accessEntry target master with
  | none => true
  | some e => e.getLsbD (if write then 32 + j else j)

/-- R342. The ranges of a target that an entry permits. -/
def Dev.permitted (d : Dev) (target : Nat) (e : W64) (write : Bool) : List (Nat × Nat) :=
  (d.regions.filter (fun r => r.target == target && e.getLsbD (if write then 32 + r.index else r.index))).map
    (fun r => (r.base, r.limit))

/-- R342. Whether a target grants a master a read or a write of a physical address. -/
def Dev.grants (d : Dev) (target master addr : Nat) (write : Bool) : Bool :=
  match d.accessEntry target master with
  | none => true
  | some e => (d.permitted target e write).any (fun r => decide (r.1 ≤ addr ∧ addr < r.2))

/-- R14. Where an HBM physical address lies: the stack, the channel and pseudo-channel in it, and the place in the channel:
the bits that select row and bank, and the byte of the 2 KiB run. -/
structure HbmPlace where
  stack : Nat
  channel : Nat
  pseudo : Nat
  row : Nat
  byte : Nat
  deriving DecidableEq, Repr

/-- R14. The split of an HBM physical address. -/
def hbmPlace (pa : Nat) : HbmPlace :=
  { stack := bitsOf pa 14 12, channel := bitsOf pa 19 15, pseudo := bitsOf pa 11 11, row := bitsOf pa 38 20
    byte := bitsOf pa 10 0 }

/-- R14. The quadrant controller of an HBM address: stack and quadrant. -/
def quadrantOf (pa : Nat) : Nat := (hbmPlace pa).stack * 4 + (hbmPlace pa).channel / 8

/-- What some ranges leave of a range, as a list of ranges. -/
def uncovered (rs : List (Nat × Nat)) (lo hi : Nat) : List (Nat × Nat) :=
  (rs.foldl (fun left r => left.flatMap (fun x => [(x.1, Nat.min x.2 r.1), (Nat.max x.1 r.2, x.2)])) [(lo, hi)]).filter
    (fun x => decide (x.1 < x.2))

/-- R14. Whether a range of HBM has an address of a quadrant controller; 1 MiB holds every controller. -/
def meetsQuadrant (q : Nat) (x : Nat × Nat) : Bool :=
  decide (x.1 + 2 ^ 20 ≤ x.2) ||
    (List.range ((x.2 + 4095) / 4096 - x.1 / 4096)).any (fun i => quadrantOf ((x.1 / 4096 + i) * 4096) == q)

/-- R342. Whether a target grants a master every address of a range that the target serves. -/
def Dev.grantsRange (d : Dev) (target master lo n : Nat) (write : Bool) : Bool :=
  match d.accessEntry target master with
  | none => true
  | some e => !((uncovered (d.permitted target e write) lo (lo + n)).any
      (fun x => decide (32 ≤ target) || meetsQuadrant target x))

/-- R342, R407. The master of an access of a class of a context to a space: host memory is reached as class 5. -/
def masterAt (ctx : Nat) (k : MasterClass) (sp : Space) : Nat :=
  masterOf ctx (match sp with | .host => 5 | _ => k)

/-- R343. Whether the quadrant controllers and the directory grant a class of a context a whole frame. -/
def Dev.frameGranted (d : Dev) (ctx : Nat) (k : MasterClass) (frame : Loc) (n : Nat) (write : Bool) : Bool :=
  let m := masterAt ctx k frame.space
  match frame.space with
  | .hbm => (List.range 33).all (fun t => d.grantsRange t m frame.addr n write)
  | .lpddr | .host => d.grantsRange 32 m frame.addr n write
  | _ => true

/-- R343. The target that refuses a master a request of some bytes at a place as it arrives. -/
def Dev.refusedBy (d : Dev) (m : Nat) (l : Loc) (n : Nat) (write : Bool) : Option Nat :=
  match l.space with
  | .hbm => (List.range 33).find? (fun t => !d.grantsRange t m l.addr n write)
  | .lpddr | .host => if d.grantsRange 32 m l.addr n write then none else some 32
  | _ => none

/-- An eight-byte word of HBM. -/
def Dev.word64 (d : Dev) (a : Nat) : Nat := leNat (d.hbm.readN a 8)

/-- R329, R331, R343. A leaf that a walk or a TLB has found: the entry and where it lies, the size of its page as a power of
two, the version slots of the address's 64 KiB page, and the verdicts that a translation unit keeps. -/
structure Leaf where
  entry : Nat
  entryAt : Nat
  bits : Nat
  slots : List VSlot
  verdicts : List Verdict
  deriving DecidableEq, Repr

/-- R330. The result of a walk; an invalid entry carries the place and the level's page size. -/
inductive Walk where
  | leaf (l : Leaf)
  | invalid (entryAt bits : Nat)
  | malformed
  deriving DecidableEq, Repr

/-- R329. The address field of an entry. -/
def entryAddr (e : Nat) : Nat := bitsOf e 56 8 * 256

/-- R329. A bit of an entry. -/
def entryBit (e i : Nat) : Bool := e / 2 ^ i % 2 == 1

/-- R329. The target field. -/
def entryTarget (e : Nat) : Nat := bitsOf e 61 60

/-- R329, R330. Whether a leaf entry of a page of 2^bits bytes is well formed. -/
def leafOk (e bits : Nat) : Bool :=
  let a := entryAddr e
  let t := entryTarget e
  if entryBit e 59 then
    decide (bits ≤ 21) && decide (t ≤ 1) && decide (a < 2 ^ 39) && (bits == 16 || a % 2048 == 0)
  else match t with
    | 0 => a % 2 ^ bits == 0 && decide (a < 2 ^ 39)
    | 1 => a % 2 ^ bits == 0 && decide (a < 2 ^ 42)
    | 2 => a % 2 ^ bits == 0 && decide (a < 2 ^ 49)
    | _ => a % 2 ^ 48 % 2 ^ bits == 0

/-- R330. A walk over the remaining levels: the lowest index bit and the index width of each. -/
def Dev.walkFrom (d : Dev) (va : Nat) : List (Nat × Nat) → Nat → Bool → Walk
  | [], _, _ => .malformed
  | (sh, w) :: rest, table, root =>
    let at_ := table + 8 * (va / 2 ^ sh % 2 ^ w)
    let e := d.word64 at_
    if bitsOf e 58 57 ≠ 0 ∨ bitsOf e 1 0 ≠ 0 then .malformed
    else if e / 2 ^ 62 = 0 then .invalid at_ sh
    else if e / 2 ^ 62 = 1 then
      if entryTarget e ≠ 0 ∨ entryBit e 59 ∨ bitsOf e 7 0 ≠ 0 ∨ rest.isEmpty ∨
          (root && entryAddr e % 2048 != 0) then .malformed
      else d.walkFrom va rest (entryAddr e) false
    else if e / 2 ^ 62 = 2 then
      if root || !leafOk e sh then .malformed else .leaf ⟨e, at_, sh, [], []⟩
    else .malformed

/-- R328. The levels of a page table. -/
def pageLevels : List (Nat × Nat) := [(39, 9), (31, 8), (26, 5), (21, 5), (16, 5)]

/-- R328, R330. The walk of a virtual address from a root table. -/
def Dev.walkTable (d : Dev) (root va : Nat) : Walk := d.walkFrom va pageLevels root true

/-- R331. A slot's 16 bytes. -/
def VSlot.bytes (v : VSlot) : List Byte :=
  leBytes 8 ((if v.valid then 2 ^ 63 else 0) + (if v.stamped then 2 ^ 62 else 0) + v.target * 2 ^ 60 + v.frame) ++
    leBytes 8 (v.hi * 2 ^ 24 + v.lo)

/-- R331. An empty slot. -/
def VSlot.empty : VSlot := ⟨false, false, 0, 0, 0, 0⟩

/-- R331. The slots of the record at an HBM address. -/
def Dev.record (d : Dev) (at_ : Nat) : List VSlot :=
  (List.range 4).map (fun i =>
    let a := d.word64 (at_ + 16 * i)
    let b := d.word64 (at_ + 16 * i + 8)
    { valid := entryBit a 63, stamped := entryBit a 62, target := bitsOf a 61 60, frame := bitsOf a 56 16 * 65536,
      hi := bitsOf b 47 24, lo := bitsOf b 23 0 })

/-- R331. The bytes of a record: its valid slots and then the empty ones. -/
def recordBytes (vs : List VSlot) : List Byte :=
  ((vs.filter VSlot.valid ++ List.replicate 4 VSlot.empty).take 4).flatMap VSlot.bytes

/-- R331. The address of the record of an address under a leaf with V = 1. -/
def Leaf.record (l : Leaf) (va : Nat) : Nat :=
  entryAddr l.entry + (if l.bits = 21 then 64 * (va / 65536 % 32) else 0)

/-- The space of a tier. -/
def tierSpace (target : Nat) : Space := if target = 0 then .hbm else if target = 1 then .lpddr else .host

/-- R328, R330, R331. The walk of a virtual address from a root table, with the version slots of its 64 KiB page. -/
def Dev.walk (d : Dev) (root va : Nat) : Walk :=
  match d.walkTable root va with
  | .leaf l => .leaf { l with slots := if entryBit l.entry 59 then d.record (l.record va) else [] }
  | w => w

/-- R329, R331. The frame of a leaf in which an address lies, with its size: the current version, or the page's own frame.
None when the record holds no current version. -/
def Leaf.frame (l : Leaf) : Option (Loc × Nat) :=
  if entryBit l.entry 59 then
    match l.slots with
    | v :: _ => if v.valid then some (⟨tierSpace v.target, v.frame⟩, 65536) else none
    | [] => none
  else if entryTarget l.entry = 3 then some (⟨.fabric, entryAddr l.entry⟩, 2 ^ l.bits)
  else some (⟨tierSpace (entryTarget l.entry), entryAddr l.entry⟩, 2 ^ l.bits)

/-- R329, R331. Where an address under a leaf lies: the current version, the frame, or the peer's address. -/
def Leaf.loc (l : Leaf) (va : Nat) : Option Loc :=
  l.frame.map (fun f => { f.1 with addr := f.1.addr + va % f.2 })

/-- R337. A hint record. -/
structure Hint where
  base : Nat
  length : Nat
  home : Nat
  unwritten : Bool
  large : Bool
  peer : Nat
  /-- The units that pin the range's translations. -/
  keep : Nat
  backing : Nat
  deriving DecidableEq, Repr

/-- R337, R341. The hint records of a context. -/
def Dev.hints (d : Dev) (c : Context) : List Hint :=
  (List.range c.nhint).map (fun i =>
    let bs := d.hbm.readN (c.hints + 32 * i) 32
    let fl := field bs 17 1
    { base := field bs 0 8, length := field bs 8 8, home := field bs 16 1, unwritten := fl % 2 == 1,
      large := fl / 2 % 2 == 1, peer := field bs 18 2 % 512, keep := field bs 20 4, backing := field bs 24 8 })

/-- R338. The hint range of an address. -/
def Dev.hintOf (d : Dev) (c : Context) (va : Nat) : Option Hint :=
  (d.hints c).find? (fun h => decide (h.base ≤ va ∧ va < h.base + h.length))

/-- R336, R338, R339. The result of the check of one address: its place with the leaf and the address under it, or a code
with whether the fault is a first touch, and the address whose entry failed. Both addresses differ from the one checked where
a page whose peer is this device itself leads on to them. -/
inductive Xlate where
  | ok (loc : Loc) (leaf : Leaf) (va : Nat)
  | bad (code : Nat) (firstTouch : Bool) (va : Nat)
  deriving DecidableEq, Repr

/-- R329, R336. The permission code of a need on a leaf. -/
def permCode (need : Need) (e : Nat) : Option Nat :=
  let r := entryBit e 7
  let w := entryBit e 6
  match need with
  | .read => if r then none else some 0x02
  | .write => if entryBit e 2 then some 0x03 else if w then none else some 0x03
  | .atomic =>
    if !r then some 0x02 else if entryBit e 2 || !w then some 0x03 else if entryBit e 4 then none else some 0x05
  | .exec => if entryBit e 5 then none else some 0x04

/-- R331, R335. The entry of a unit's TLB that holds an address of a context. -/
def Dev.tlbFind (d : Dev) (u : TransUnit) (ctx va : Nat) : Option TlbEntry :=
  d.tlbs.find? (fun e => e.unit == u && e.ctx == ctx && decide (e.page ≤ va ∧ va < e.page + 2 ^ e.bits))

/-- R331. The slots of a 64 KiB page among those of a TLB entry. -/
def TlbEntry.slotsAt (e : TlbEntry) (va : Nat) : List VSlot :=
  (e.slots.drop (4 * ((va - e.page) / 65536))).take 4

/-- R335. The translation of an address for an agent: its unit's TLB, or else a walk. -/
def Dev.translate (d : Dev) (u : Option TransUnit) (c : Context) (va : Nat) : Walk :=
  match u.bind (fun u => d.tlbFind u c.index va) with
  | some e => .leaf ⟨e.entry, e.entryAt, e.bits, e.slotsAt va, e.verdicts⟩
  | none => d.walk c.root va

/-- R343. Whether a class of a context may read or write a frame that a leaf names: the verdict that the unit keeps, or the
tables. -/
def Dev.leafGrants (d : Dev) (l : Leaf) (ctx : Nat) (k : MasterClass) (frame : Loc) (n : Nat) (write : Bool) : Bool :=
  match l.verdicts.find? (fun v => v.frame == frame) with
  | some v => if write then v.write else v.read
  | none => d.frameGranted ctx k frame n write

/-- R337. Whether the driver has a unit keep the translations of a hint range. -/
def TransUnit.keptBy (u : TransUnit) (h : Hint) : Bool :=
  match u with
  | .cluster hw => entryBit h.keep (hw / 16)
  | .runner _ => entryBit h.keep 4
  | .pattern => entryBit h.keep 5
  | .snapshot => false

/-- R342. The class of master whose accesses a unit translates. -/
def TransUnit.masterClass (u : TransUnit) : MasterClass :=
  match u with
  | .cluster _ => 0
  | .runner _ => 1
  | .pattern => 2
  | .snapshot => 3

/-- R331, R335, R343. The TLB entry of a leaf of a page: its version slots, and the verdicts on its frames. -/
def Dev.tlbEntry (d : Dev) (u : TransUnit) (c : Context) (va : Nat) (l : Leaf) : TlbEntry :=
  let page := va / 2 ^ l.bits * 2 ^ l.bits
  let slots := if entryBit l.entry 59 then
      (List.range (2 ^ l.bits / 65536)).flatMap (fun i => d.record (l.record (page + 65536 * i)))
    else []
  let frames := if entryBit l.entry 59 then
      (slots.filter VSlot.valid).map (fun v => ((⟨tierSpace v.target, v.frame⟩ : Loc), 65536))
    else l.frame.toList
  let verdict := fun (f : Loc × Nat) =>
    Verdict.mk f.1 (d.frameGranted c.index u.masterClass f.1 f.2 false) (d.frameGranted c.index u.masterClass f.1 f.2 true)
  { unit := u, ctx := c.index, page := page, bits := l.bits, entry := l.entry, entryAt := l.entryAt, slots := slots
    verdicts := frames.map verdict, pinned := (d.hints c).any (fun h => u.keptBy h && decide (h.base ≤ va ∧ va < h.base + h.length)) }

/-- R335. The walk of a unit for an address that its TLB does not hold: a leaf takes an entry, in a full TLB the place of an
entry that is not pinned (log 65). -/
def State.tlbFill (s : State) (u : TransUnit) (ctx va : Nat) : State :=
  match s.dev.ctx? ctx with
  | none => s
  | some c =>
    if (s.dev.tlbFind u ctx va).isSome then s
    else match s.dev.walk c.root va with
      | .leaf l =>
        let (k, s) := s.draw
        let mine := s.dev.tlbs.filter (fun e => e.unit == u)
        let loose := mine.filter (fun e => !e.pinned)
        let e := s.dev.tlbEntry u c va l
        if mine.length < 1024 then s.mapDev (fun d => { d with tlbs := d.tlbs ++ [e] })
        else match loose[Config.tlbVictim k % loose.length]? with
          | some x => s.mapDev (fun d => { d with tlbs := d.tlbs.filter (· ≠ x) ++ [e] })
          | none => s
      | _ => s

/-- R334. Drops the TLB entries of a range of a context in every unit. -/
def Dev.tlbDrop (d : Dev) (ctx base n : Nat) : Dev :=
  { d with tlbs := d.tlbs.filter (fun e => !(e.ctx == ctx && decide (e.page < base + n ∧ base < e.page + 2 ^ e.bits))) }

/-- R303. The destination of a fabric address. -/
def fabricDest (a : Nat) : Nat := bitsOf a 56 48

/-- R341. The paired context of a context on a peer. -/
def Dev.pairOf (d : Dev) (c : Context) (peer : Nat) : Option Nat :=
  let e := leNat (d.hbm.readN (c.pairs + 2 * peer) 2)
  if e / 2 ^ 15 % 2 = 1 then some (e % 64) else none

/-- R303, R304, R343. The local check of an access that leaves the device: the pairing and the outbound port. -/
def Dev.outboundCode (d : Dev) (c : Context) (k : MasterClass) (peer : Nat) (write : Bool) : Option Nat :=
  if (d.pairOf c peer).isNone then some 0x09
  else if !d.bitGranted 36 (masterOf c.index k) 0 write then some 0x08 else none

/-- R226, R303, R329, R330, R336, R338, R343. The check of one 48-bit address of a context for a master class, under the
translations of a unit. A page that another device reaches needs its P bit. A page whose peer is this device itself is
reached through the global path; the fuel bounds a chain of such pages, which ends as a malformed entry (log 66). -/
def Dev.xlateFrom (d : Dev) (u : Option TransUnit) (c : Context) (k : MasterClass) (need : Need) : Nat → Nat → Xlate
  | 0, va => .bad 0x0A false va
  | fuel + 1, va =>
    match d.translate u c va with
    | .malformed => .bad 0x0A false va
    | .invalid _ _ => .bad 0x01 (need != .exec && (d.hintOf c va).isSome) va
    | .leaf l =>
      match (if k = 4 ∧ !entryBit l.entry 3 then some 0x02 else permCode need l.entry) with
      | some code =>
        .bad code (need.writes && entryBit l.entry 2 && code == 0x03 && (d.hintOf c va).isSome) va
      | none =>
        match l.frame with
        | none => .bad 0x0A false va
        | some (frame, n) =>
          let loc : Loc := { frame with addr := frame.addr + va % n }
          if frame.space = .fabric then
            if fabricDest loc.addr = d.devId then d.xlateFrom u c k need fuel (loc.addr % 2 ^ 48)
            else match d.outboundCode c k (fabricDest loc.addr) need.writes with
              | some code => .bad code false va
              | none => .ok loc l va
          else if d.leafGrants l c.index k frame n need.writes then .ok loc l va else .bad 0x08 false va

/-- R226, R336. The check of one 48-bit address of a context for a master class. -/
def Dev.xlate (d : Dev) (u : Option TransUnit) (c : Context) (k : MasterClass) (need : Need) (va : Nat) : Xlate :=
  d.xlateFrom u c k need 8 va

/-- R414. A frame-pool list: the array, its count and its capacity. -/
structure PoolList where
  array : Nat
  count : Nat
  capacity : Nat
  deriving DecidableEq, Repr

/-- R414. A list of a context's pool. -/
def Dev.poolList (d : Dev) (c : Context) (i : Nat) : PoolList :=
  let bs := d.hbm.readN (c.pool + 16 * i) 16
  ⟨field bs 0 8, field bs 8 4, field bs 12 4⟩

/-- R414. Writes the count of a pool list. -/
def State.setPoolCount (s : State) (c : Context) (i n : Nat) : State :=
  s.storeAt .other ⟨.hbm, c.pool + 16 * i + 8⟩ (leBytes 4 n)

/-- R414. Takes the last free element of a list. -/
def State.poolTake (s : State) (c : Context) (i : Nat) : Option (Nat × State) :=
  let l := s.dev.poolList c i
  if l.count = 0 then none
  else some (s.dev.word64 (l.array + 8 * (l.count - 1)), s.setPoolCount c i (l.count - 1))

/-- R414. Returns a frame to a list; a full list drops it and counts the overflow. -/
def State.poolReturn (s : State) (c : Context) (i frame : Nat) : State :=
  let l := s.dev.poolList c i
  if l.count < l.capacity then
    (s.storeAt .other ⟨.hbm, l.array + 8 * l.count⟩ (leBytes 8 frame)).setPoolCount c i (l.count + 1)
  else s.mapDev (fun d => d.mapCtx c.index (fun c => { c with poolOverflow := c.poolOverflow + 1 }))

/-- The memory of a tier. -/
def Dev.tier (d : Dev) (sp : Space) : Memory :=
  match sp with
  | .hbm => d.hbm
  | .lpddr => d.lpddr
  | .host => d.host
  | _ => []

/-- A device with the memory of a tier replaced. -/
def Dev.setTier (d : Dev) (sp : Space) (m : Memory) : Dev :=
  match sp with
  | .hbm => { d with hbm := m }
  | .lpddr => { d with lpddr := m }
  | .host => { d with host := m }
  | _ => d

/-- A range of a memory made zero. -/
def Memory.clearRange (m : Memory) (a n : Nat) : Memory := m.filter (fun p => !(decide (a ≤ p.1 ∧ p.1 < a + n)))

/-- A range of a memory copied elsewhere in it. -/
def Memory.copyRange (m : Memory) (src dst n : Nat) : Memory :=
  (m.filter (fun p => decide (src ≤ p.1 ∧ p.1 < src + n))).foldl
    (fun acc p => acc.write (dst + (p.1 - src)) p.2) (m.clearRange dst n)

/-- Whether a place lies in a range of a space. -/
def Loc.within (l : Loc) (sp : Space) (a n : Nat) : Bool := l.space == sp && decide (a ≤ l.addr ∧ l.addr < a + n)

/-- R211. A write of a whole range by an agent without a die's grant: the number of every tracked line of it advances, and
its copies go stale, or are discarded where the number wraps. -/
def Dev.dirWriteRange (d : Dev) (sp : Space) (a n : Nat) : Dev :=
  let wraps := fun (line : Loc) => (d.dirLine line).seq + 1 == 0
  { d with
    dir := d.dir.map (fun e => if e.line.within sp a n then { e with seq := e.seq + 1, held := true } else e)
    l2 := (d.l2.filter (fun c => !(c.line.within sp a n && wraps c.line))).map (fun c =>
      if c.line.within sp a n then { c with state := .stale } else c) }

/-- R333, R334. Drops the L1 lines that hold a frame's bytes under the current version, of whichever context. -/
def Dev.dropL1Frame (d : Dev) (sp : Space) (a n : Nat) : Dev :=
  { d with cores := d.cores.map (fun c =>
      { c with l1 := c.l1.filter (fun e => !(e.version.isNone && e.frame.within sp a n)) }) }

/-- R341. The step of a context. -/
def Dev.step (d : Dev) (ctx : Nat) : Nat := ((d.ctx? ctx).map Context.step).getD 0

/-- R246, R260. The slot of a step among the valid slots: a frame, or a version-fault code. A step before the oldest version
that was never published, but lies between it and a version retired since, is still a gap (log 67). -/
def versionSlot (vs : List VSlot) (gaps : List Gap) (step t : Nat) : Except Nat VSlot :=
  let valid := vs.filter VSlot.valid
  let oldest := valid.foldl (fun m v => Nat.min m v.lo) (2 ^ 24)
  let gap := gaps.any (fun g => decide (g.from_ ≤ t ∧ t < g.lo) && valid.any (fun v => v.lo == g.lo))
  if step < t then .error 0x02
  else if t < oldest then .error (if gap then 0x06 else 0x01)
  else
    match (valid.zip (true :: List.replicate 3 false)).find? (fun p =>
      decide (p.1.lo ≤ t) && (p.2 || decide (t ≤ p.1.hi))) with
    | some p => .ok p.1
    | none => .error 0x06

/-- R260. The gaps of the record of an address under a leaf. -/
def Dev.gapsOf (d : Dev) (l : Leaf) (va : Nat) : List Gap := d.gaps.filter (fun g => g.record == l.record va)

/-- R246. The version of a step at an address under a leaf: its frame, or a version-fault code. -/
def Dev.versionAt (d : Dev) (l : Leaf) (va step t : Nat) : Except Nat Loc :=
  if l.bits > 21 ∨ !entryBit l.entry 59 then .error 0x03
  else (versionSlot l.slots (d.gapsOf l va) step t).map (fun v => ⟨tierSpace v.target, v.frame⟩)

/-- R217, R218. Whether an access of a context at a version hits a range-lock entry, on 64-byte granules. -/
def Dev.lockHit (d : Dev) (ctx : Nat) (version : Option Nat) (writes : Bool) (va n : Nat) : Bool :=
  d.locks.any (fun e => e.ctx == ctx && e.version == version && (e.write || writes) &&
    decide (e.base / 64 ≤ (va + n - 1) / 64 ∧ va / 64 ≤ (e.base + e.length - 1) / 64))

/-- R415. The serial number. -/
def serialNumber : List Byte := leBytes 2 0x0B04 ++ [0xB1, 0] ++ (Config.serialUnit ++ List.replicate 12 0).take 12

end Sys2Proof.Machine
end

