-- ==== Sys2Proof/Machine/Outstanding.lean ====
section
/-! DEFINITION. Accesses in flight: the counters and flags they hold (R45, R61), how one lane's part is performed (R199,
R203, R209, R230 to R235), results and failures (R316, R317), outbound transactions (R305), and completion. -/

namespace Sys2Proof.Machine

/-- R61. Raises a counter of a group for a counted instruction. -/
def Dev.raise (d : Dev) (id : WaveId) (ctr op : Nat) : Dev :=
  d.mapGroup id.launch id.group (fun g => { g with counters := g.counters.modify ctr (· ++ [(op, false)]) })

/-- R61. Marks a counted instruction as completed. -/
def Dev.countDone (d : Dev) (id : WaveId) (op : Nat) : Dev :=
  d.mapGroup id.launch id.group (fun g =>
    { g with counters := g.counters.map (fun l => l.map (fun x => if x.1 = op then (op, true) else x)) })

/-- R45, R60. Changes the flags of both paths of a wave. -/
def State.mapFlags (s : State) (id : WaveId) (f : FlagState → FlagState) : State :=
  let g := fun (p : Path) => { p with flags := p.flags.map f }
  s.onWave id (fun w => { w with path0 := g w.path0, path1 := g w.path1 })

/-- R45, R60. Clears an instruction's mark in the flags of both paths of its wave. -/
def State.flagDone (s : State) (id : WaveId) (op : Nat) : State := s.mapFlags id (FlagState.done op)

/-- The core of a wave. -/
def Dev.coreOf (d : Dev) (w : WaveId) : Nat :=
  match d.wave? w with
  | some x => x.core
  | none => ((d.group? w.launch w.group).map Group.core).getD 0

/-- R29. The cores whose L1s serve a wave: its own core, or every core of its cluster where the launch fuses them. -/
def Dev.l1Slices (d : Dev) (w : WaveId) : List Nat :=
  let own := [d.coreOf w]
  match d.launch? w.launch, d.group? w.launch w.group with
  | some l, some g =>
    if l.record.fuse ∧ 2 ≤ l.record.ccores then
      match d.clusters.find? (fun c => c.launch == w.launch && c.index == g.cluster) with
      | some c => if c.cores.isEmpty then own else c.cores
      | none => own
    else own
  | _, _ => own

/-- R29. The core of some slices whose L1 holds a line of a virtual address. -/
def sliceOf (slices : List Nat) (va : Nat) : Nat := slices.getD (va / 128 % slices.length) 0

/-- R209, R332. The line of the L1 that serves a load of a part: one whose context, address and version match may (log 7). A
load that was checked under a translation revoked since hits none. -/
def State.l1Line (s : State) (a : Access) (l : LaneAccess) : Option L1Line :=
  let va := l.va.toNat % 2 ^ 48
  if l.old || !Config.l1Serves s.free then none
  else (s.dev.core (sliceOf (s.dev.l1Slices a.w) va)).l1.find?
    (fun e => e.ctx == a.ctx && e.va == va / 128 && e.version == l.version)

/-- R209, R211, R332, R333. A load of global memory through the L1: a line of it may serve the load; otherwise the die's L2
brings the line and the L1 is filled, and every other tag of the same physical line is dropped. A load that was checked under
a translation revoked since does not fill, and neither does a line with a granule that fails, nor a load of a wave that a save
has taken from its core. Or the code of a data loss (R365). -/
def State.loadGlobal (s : State) (a : Access) (l : LaneAccess) (n : Nat) : Except Nat (List Byte) × State :=
  let slices := s.dev.l1Slices a.w
  let core := sliceOf slices (l.va.toNat % 2 ^ 48)
  let va := l.va.toNat % 2 ^ 48 / 128
  let die := dieOf core
  let line := l.loc.line
  let hit := s.l1Line a l
  let (k, s) := s.draw
  match hit with
  | some e => (.ok ((e.data.drop (l.loc.addr % 128)).take n), s)
  | none =>
    match s.dev.readLoss (some die) l.loc n with
    | some code => (.error code, s)
    | none =>
      let new := !(s.dev.l2.any (fun c => c.line == line && c.die == die && c.valid))
      let data := s.dev.peek l.loc n
      let whole := s.dev.peek line 128
      let keeps := !l.old && (s.dev.badGranules (some die) line).isEmpty && s.dev.waves.any (fun w => w.id == a.w)
      let s := s.mapDev (fun d => d.dirRead die line)
      let s := if !keeps then s
        else s.mapDev (fun d => (slices.foldl (fun d i => d.mapCore i (fun c => c.l1Drop line)) d).mapCore core
          (fun c => c.l1Fill ⟨a.ctx, va, l.version, line, whole⟩ k))
      (.ok data, if new then s.cameIn die line else s)

/-- The agent of a lane's write. -/
def Dev.laneWriter (d : Dev) (a : Access) (l : LaneAccess) : Writer :=
  .lane a.w l.lane (d.l1Slices a.w) a.ctx (l.va.toNat % 2 ^ 48)

/-- R332. The place to which a store goes: the frame of the L1 line that it hits, or else the one that its check found. -/
def Dev.storePlace (d : Dev) (a : Access) (l : LaneAccess) : Loc :=
  let va := l.va.toNat % 2 ^ 48
  if l.old || !l.loc.global then l.loc
  else match (d.l1Slices a.w).findSome? (fun i =>
      (d.core i).l1.find? (fun e => e.ctx == a.ctx && e.va == va / 128 && e.version.isNone)) with
    | some e => { e.frame with addr := e.frame.addr + va % 128 }
    | none => l.loc

/-- R199, R203. An atomic that only reads leaves no older copy of its line in the L1s of its wave. -/
def State.freshenL1 (s : State) (a : Access) (line : Loc) : State :=
  s.mapDev (fun d => (d.l1Slices a.w).foldl (fun d i => d.mapCore i (fun c => c.l1Drop line)) d)

/-- R232. The new value of an atomic that always writes, with its flags. -/
def atomicNew (op : Nat) (t : EType) (n m v : Nat) : Nat × FpFlags :=
  let less := if t.signed then decide (toSigned n v < toSigned n m) else decide (v < m)
  match op with
  | 0xC1 | 0xCA | 0xCC => noFlag ((m + v) % 2 ^ n)
  | 0xC2 => t.ffmt.addV .rne false false (t.ffmt.decode m) (t.ffmt.decode v)
  | 0xC3 => noFlag (if less then v else m)
  | 0xC4 => noFlag (if m = v ∨ less then m else v)
  | 0xC5 => noFlag (m &&& v)
  | 0xC6 => noFlag (m ||| v)
  | 0xC7 => noFlag (m ^^^ v)
  | _ => noFlag v

/-- R285. The new value of a condition word. -/
def condNew (op m v : Nat) : Nat :=
  match op with
  | 0 => v
  | 1 => m ||| v
  | 2 => m &&& v
  | _ => (m + v) % 2 ^ 32

/-- Whether an access changes memory. -/
def AccessKind.writes : AccessKind → Bool
  | .store | .atomic _ | .stcn | .stsg | .cond _ => true
  | _ => false

/-- Whether an access is an atomic. -/
def AccessKind.isAtomic : AccessKind → Bool
  | .atomic _ => true
  | _ => false

/-- R308, R309. What the right of a page means for an access of this device to it: it is performed here, it goes to the
owner, or it waits for a right that is being handed over, or that has to be recalled first. -/
inductive RightCase where
  | here
  | away (owner : Nat)
  | waits (ask : Bool)
  deriving DecidableEq, Repr

/-- R308, R309. The right of a page of this device. -/
def Dev.right? (d : Dev) (ctx page : Nat) : Option AtomicRight := d.rights.find? (fun r => r.ctx == ctx && r.page == page)

/-- R308, R309. What the right of a page means for an access. -/
def Dev.rightCase (d : Dev) (ctx page : Nat) (atomic : Bool) : RightCase :=
  match d.right? ctx page with
  | none => .here
  | some r =>
    if r.handing then .waits false
    else match r.owner with
      | none => .here
      | some o => if atomic then .away o else .waits true

/-- Changes the right of a page. -/
def Dev.mapRight (d : Dev) (ctx page : Nat) (f : AtomicRight → AtomicRight) : Dev :=
  { d with rights := d.rights.map (fun r => if r.ctx = ctx ∧ r.page = page then f r else r) }

/-- R309. Recalls the right of a page from a remote owner: the window ends, and the right is on its way home. -/
def Dev.recallPage (d : Dev) (ctx page : Nat) : Dev :=
  match d.right? ctx page with
  | some ⟨_, _, some o, _, false, _⟩ =>
    { d.mapRight ctx page (fun r => { r with owner := none, window := [], handing := true, from_ := some o }) with
      outbox := d.outbox ++ [.recallRight o ctx page] }
  | _ => d

/-- R308. An atomic of a device on a page counts in the page's window. -/
def Dev.countAtomic (d : Dev) (ctx page dev : Nat) : Dev :=
  d.mapRight ctx page (fun r => { r with window := r.window ++ [dev] })

/-- R308, R309. What the right of its page means for a lane's part. -/
def Dev.partRight (d : Dev) (a : Access) (l : LaneAccess) : RightCase :=
  if l.loc.global then d.rightCase a.ctx (l.va.toNat % 2 ^ 48 / 65536) a.kind.isAtomic else .here

/-- A part of an access as it is performed: the state, the result for its destination, the flags, or the code of the data
loss that left it without a result (R365). -/
structure PartDone where
  state : State
  result : Option W64
  fl : FpFlags
  loss : Option Nat

/-- A part that ends without a result. -/
def State.partDone (s : State) : PartDone := ⟨s, none, 0, none⟩

/-- R365. A part that fails by a data loss: it performs nothing. -/
def State.partLost (s : State) (code : Nat) : PartDone := ⟨s, none, 0, some code⟩

/-- R334. The scratchpad side of a part of an asynchronous copy. -/
def LaneAccess.side (l : LaneAccess) (a : Access) : LaneAccess :=
  { l with loc := ⟨.scratch a.w.launch a.w.group, l.value.toNat⟩ }

/-- R235, R332, R365. A lane's store of bytes, unless it covers only a part of a failing granule. -/
def State.laneStore (s : State) (a : Access) (l : LaneAccess) (bs : List Byte) (result : Option W64) (fl : FpFlags) :
    PartDone :=
  let place := s.dev.storePlace a l
  match s.dev.storeLoss (some (dieOf (s.dev.coreOf a.w))) place bs.length with
  | some code => s.partLost code
  | none => ⟨s.storeAt (s.dev.laneWriter a l) place bs, result, fl, none⟩

/-- The bytes that a lane's load reads, or the code of a data loss. -/
def State.laneRead (s : State) (a : Access) (l : LaneAccess) : Except Nat (List Byte) × State :=
  match l.copy with
  | some x => (.ok (leBytes a.width x.toNat), s)
  | none =>
    if l.loc.global then s.loadGlobal a l a.width
    else match s.dev.readLoss none l.loc a.width with
      | some code => (.error code, s)
      | none => (.ok (s.dev.peek l.loc a.width), s)

/-- R234. Sets a real lane's reservation on a line. -/
def State.reserve (s : State) (id : WaveId) (lane : Nat) (line : Loc) (page : Nat) : State :=
  s.onWave id (fun w =>
    if w.real.getLsbD lane then { w with resv := ⟨lane, line, page⟩ :: w.resv.filter (fun x => x.lane ≠ lane) } else w)

/-- R234. Whether a lane holds a reservation on a line. -/
def State.holdsLine (s : State) (id : WaveId) (lane : Nat) (line : Loc) : Bool :=
  ((s.waveNow id).map (fun x => x.resv.any (fun r => r.lane == lane && r.line == line))).getD false

/-- R234. A lane's reservation is cleared by its own `stcn`. -/
def State.unreserve (s : State) (id : WaveId) (lane : Nat) : State :=
  s.onWave id (fun w => { w with resv := w.resv.filter (fun r => r.lane ≠ lane) })

/-- R232, R233. The value that an atomic writes to a word that holds m, with its flags; none for a compare that fails. -/
def Access.newValue (a : Access) (op m : Nat) (l : LaneAccess) : Option (Nat × FpFlags) :=
  let v := l.value.toNat % 2 ^ (8 * a.width)
  if op = 0xC9 ∨ op = 0xCB ∨ op = 0xCD then (if m = v then some (noFlag l.value2.toNat) else none)
  else some (atomicNew op (EType.ofCode a.mtype.toNat) (8 * a.width) m v)

/-- R230 to R235, R285. Performs one lane's part of an access on this device. -/
def State.performLane (s : State) (a : Access) (l : LaneAccess) : PartDone :=
  let die := some (dieOf (s.dev.coreOf a.w))
  match a.kind with
  | .compute | .matrix | .enq _ | .verdict _ _ | .fetch _ | .relay _ | .collective _ => s.partDone
  | .load =>
    (match s.laneRead a l with
     | (.ok bs, s) => ⟨s, some (w64 (leNat bs)), 0, none⟩
     | (.error code, s) => s.partLost code)
  | .ldr =>
    (match s.laneRead a l with
     | (.ok bs, s) => ⟨s.reserve a.w l.lane l.loc.line (l.va.toNat / 65536), some (w64 (leNat bs)), 0, none⟩
     | (.error code, s) => s.partLost code)
  | .store => s.laneStore a l (leBytes a.width l.value.toNat) none 0
  | .atomic op =>
    (match s.dev.readLoss die l.loc a.width with
     | some code => s.partLost code
     | none =>
       let m := leNat (s.dev.peek l.loc a.width)
       match a.newValue op m l with
       | some x => ⟨s.storeAt (s.dev.laneWriter a l) l.loc (leBytes a.width x.1), some (w64 m), x.2, none⟩
       | none => ⟨s.freshenL1 a l.loc.line, some (w64 m), 0, none⟩)
  | .stcn =>
    let done := fun (p : PartDone) => { p with state := p.state.unreserve a.w l.lane }
    if s.holdsLine a.w l.lane l.loc.line then done (s.laneStore a l (leBytes a.width l.value.toNat) (some 1) 0)
    else done ⟨s, some 0, 0, none⟩
  | .ldgs =>
    (match s.laneRead a l with
     | (.ok bs, s) => ⟨s.poke (l.side a).loc bs, none, 0, none⟩
     | (.error code, s) => s.partLost code)
  | .stsg =>
    (match s.dev.readLoss none (l.side a).loc a.width with
     | some code => s.partLost code
     | none => s.laneStore a l (s.dev.peek (l.side a).loc a.width) none 0)
  | .cond op =>
    (match s.dev.readLoss die l.loc 4 with
     | some code => s.partLost code
     | none =>
       let m := leNat (s.dev.peek l.loc 4)
       s.laneStore a l (leBytes 4 (condNew op m (l.value.toNat % 2 ^ 32))) none 0)

/-- R199. Whether two lanes' parts touch a common byte. -/
def LaneAccess.overlaps (x : LaneAccess) (n : Nat) (y : LaneAccess) (m : Nat) : Bool :=
  x.loc.space == y.loc.space && decide (x.loc.addr < y.loc.addr + m ∧ y.loc.addr < x.loc.addr + n)

/-- R234. Whether an access acts on the reservations of its lanes. -/
def Access.reserves (a : Access) : Bool := a.kind == .ldr || a.kind == .stcn

/-- Whether an access reads global memory through the L1. -/
def AccessKind.loads : AccessKind → Bool
  | .load | .ldr | .ldgs => true
  | _ => false

/-- R199, R216, R231. Whether an earlier part of a wave stands before a later one at a location: at the places of the two,
or in the scratchpad where a copy writes after what came before, is read after the stores before it, and is written over by
what comes later. A later access may read the destination of a copy, and write its source, before the copy does. -/
def partBefore (b : Access) (x : LaneAccess) (a : Access) (l : LaneAccess) : Bool :=
  x.overlaps b.width l a.width ||
    (match b.kind, a.kind with
     | .ldgs, .ldgs => (x.side b).overlaps b.width (l.side a) a.width
     | .ldgs, .store | .ldgs, .atomic _ => (x.side b).overlaps b.width l a.width
     | .load, .ldgs | .store, .ldgs | .atomic _, .ldgs | .store, .stsg | .atomic _, .stsg =>
       x.overlaps b.width (l.side a) a.width
     | _, _ => false)

/-- R199, R234. Whether an earlier part of the same wave at the same location stands before a lane's part: of an access
issued before, or of a lower lane of the same access. The lanes of one `stcn` are performed in ascending order, and the
instructions that act on one lane's reservation in issue order (log 62). -/
def blockedBy (a : Access) (l : LaneAccess) : List Access → Bool
  | [] => false
  | b :: r =>
    if b.op = a.op then a.lanes.any (fun x => decide (x.lane < l.lane) && (a.kind == .stcn || partBefore a x a l))
    else (b.w == a.w && b.lanes.any (fun x =>
      partBefore b x a l || (a.reserves && b.reserves && x.lane == l.lane))) || blockedBy a l r

/-- The access of an operation. -/
def Dev.access? (d : Dev) (op : Nat) : Option Access := d.inflight.find? (fun a => a.op == op)

/-- Changes an access in flight. -/
def Dev.mapAccess (d : Dev) (op : Nat) (f : Access → Access) : Dev :=
  { d with inflight := d.inflight.map (fun a => if a.op = op then f a else a) }

/-- R365. The registers of a destination that are written in some lanes have new check bits. -/
def Dev.coverDest (d : Dev) (w : WaveId) (dest : Dest) (lanes : List Nat) : Dev :=
  if d.failing.isEmpty then d
  else { d with failing := d.failing.filter (fun f => match f, dest with
    | .vector x n lane, .v m pair => !(x == w && (n == m || (pair && n == m + 1)) && lanes.contains lane)
    | .scalar x n _, .k m _ _ => !(x == w && n == m && !lanes.isEmpty)
    | _, _ => true) }

/-- R46. The lanes of a pair result of which a half is not written yet. -/
def Access.halfDue (a : Access) (hi : Bool) (rs : List (Nat × W64)) : List (Nat × W64) :=
  rs.filter (fun r => !a.halves.contains (r.1, hi))

/-- R45, R46, R55. Writes results to a destination: those of a pair in both halves, or in one. -/
def Wave.writeDest (w : Wave) (a : Access) (rs : List (Nat × W64)) (half : Option Bool) : Wave :=
  match a.dest with
  | .none => w
  | .v n false => { w with v := writeRows w.v false n rs }
  | .v n true =>
    let lo := if half = some true then w.v else writeRows w.v false n (a.halfDue false rs)
    let hi := (a.halfDue true rs).map (fun r => (r.1, (r.2.extractLsb' 32 32).setWidth 64))
    { w with v := if half = some false then lo else writeRows lo false (n + 1) hi }
  | .k n wide signed => rs.foldl (fun w r => w.setK n (scalarBits wide signed r.2)) w

/-- R317, R366. The pending fault that the failed lanes of an access of one class leave: it names the lowest lane's address,
or for lost data the lowest address. -/
def Access.pendingFault (a : Access) (cls : Nat) : Option PendingFault :=
  let fs := a.failed.filter (fun x => x.cls == cls)
  let rank := fun (x : FailedLane) => if cls = 11 then x.addr.toNat else x.lane
  match fs.foldl (fun (m : Option FailedLane) x => match m with
      | some y => if rank x < rank y then some x else m
      | none => some x) none with
  | none => none
  | some low =>
    some { trigger := match a.kind, a.flag with
             | .ldgs, _ | .stsg, _ => .wcntGlob a.op
             | _, some n => .flag n
             | _, none => .release
           matrix := a.kind == .matrix
           cls := cls
           code := low.code
           mask := match a.dest with | .k _ _ _ => 0 | _ => maskOf (fs.map FailedLane.lane)
           addr := low.addr
           uncertain := fs.any FailedLane.uncertain }

/-- The operation number of a queue entry. -/
def MatrixOp.op : MatrixOp → Nat
  | .wld op _ _ _ _ _ => op
  | .wfmt op _ _ _ => op
  | .wswp op _ => op
  | .mma op _ _ _ _ _ _ _ => op
  | .mmz op _ _ _ => op
  | .results op _ _ _ _ => op

/-- R366. The pending faults of a path after a matrix instruction whose flags they may wait on: those of the earlier matrix
instructions wait on its flag too. -/
def Path.laterMatrix (p : Path) (a : Access) : List PendingFault :=
  match a.kind, a.flag with
  | .matrix, some n =>
    if p.flags.any (fun f => f.ops.contains a.op) then
      (p.pending.filter (fun f => f.matrix && f.trigger != .flag n)).map (fun f => { f with trigger := .flag n })
    else []
  | _, _ => []

/-- R45, R61, R94, R317, R366. An access with nothing left to perform, to receive or to write completes: its sticky flags
are ORed in, its flag clears, or stays set in the faulted state with the fault pending, and its counter may fall. A fault of
an access without a flag is pending on the path that issued it. -/
def State.accessEnd (s : State) (op : Nat) : State :=
  match s.dev.access? op with
  | none => s
  | some a =>
    let waits : Bool := match a.kind with
      | .enq _ => true
      | .ldgs | .compute => a.flag.isSome
      | .matrix => s.dev.cores.any (fun c => c.queue.any (fun m => m.op == op))
      | _ => false
    if !a.lanes.isEmpty ∨ !a.results.isEmpty ∨ waits then s
    else
      let s := s.mapDev (fun d => { d with inflight := d.inflight.filter (fun x => x.op ≠ op) })
      let s := s.mapDev (fun d => d.countDone a.w op)
      let s := s.onWave a.w (fun w => w.orFlags a.fp)
      let more := fun (p : Path) => { p with pending := p.pending ++ p.laterMatrix a }
      let s := s.onWave a.w (fun w => { w with path0 := more w.path0, path1 := more w.path1 })
      if a.failed.isEmpty then s.flagDone a.w op
      else
        let faults := [15, 11].filterMap a.pendingFault
        let fails := fun (p : Path) => { p with flags := p.flags.map (FlagState.fail op) }
        let meets := fun (w : Wave) (i : Nat) =>
          let p := w.path i
          if a.flag.isSome then p.flags.any (fun f => f.ops.contains op)
          else i == (if (w.path a.path).live || (w.path a.path).wait == .join then a.path else 1 - a.path)
        let pend := fun (w : Wave) (i : Nat) =>
          if meets w i then { w.path i with pending := (w.path i).pending ++ faults } else w.path i
        s.onWave a.w (fun w => { w with path0 := fails (pend w 0), path1 := fails (pend w 1) })

/-- R343. A target drops a request of a context as it arrives: every wave of the context halts, the one that a fault is
pending on with it, and the target is named in the driver status window. -/
def State.dropsRequest (s : State) (ctx target : Nat) : State :=
  let s := s.mapDev (fun d => ({ d with launches := d.launches.map (fun l => if l.ctx = ctx then { l with halted := true } else l) }
    : Dev).mapCtx ctx (fun c => { c.halts with dropped := some target }))
  s.haltOthers (fun w => s.dev.ctxOf w.id == ctx) false

/-- R25, R229. Whether a lane of an access is a helper lane: a scalar load is no lane's. -/
def State.helperLane (s : State) (a : Access) (lane : Nat) : Bool :=
  match a.dest with
  | .k _ _ _ => false
  | _ => ((s.waveNow a.w).map (fun w => w.helper.getLsbD lane)).getD false

/-- R343. A lane's part is dropped: it performs nothing and returns nothing, and its context halts with code 0x08. A helper
lane raises nothing (R7, R25). -/
def State.dropPart (s : State) (a : Access) (l : LaneAccess) (target : Nat) : State :=
  if s.helperLane a l.lane then
    s.mapDev (fun d => d.mapAccess a.op (fun x => { x with
      lanes := x.lanes.filter (· ≠ l), results := x.results ++ [(l.lane, 0)] }))
  else
    let s := s.mapDev (fun d => d.mapAccess a.op (fun x => { x with
      lanes := x.lanes.filter (· ≠ l), failed := x.failed ++ [⟨l.lane, l.va, false, 5, 0x08⟩] }))
    let f : PendingFault :=
      { trigger := .release, cls := 5, code := 0x08, mask := match a.dest with | .k _ _ _ => 0 | _ => bitAt l.lane
        addr := l.va, uncertain := false, matrix := false }
    let s := s.onWave a.w (fun w => w.setPath a.path { w.path a.path with pending := (w.path a.path).pending ++ [f] })
    s.dropsRequest a.ctx target

/-- R316, R318. Sets a context's sticky error bit for a peer, with the cause: 1 path down, 2 peer down, 3 refused. -/
def Dev.setError (d : Dev) (ctx peer cause : Nat) : Dev :=
  d.mapCtx ctx (fun c => { c with
    errbits := c.errbits ||| BitVec.ofNat 512 (2 ^ peer)
    causes := (peer, cause) :: c.causes.filter (fun x => x.1 ≠ peer) })

/-- R305. Whether a part of a lane is the one at an address, as the lane names it. -/
def LaneAccess.isPart (l : LaneAccess) (lane part : Nat) : Bool := l.lane == lane && l.va.toNat == part

/-- R316, R317. One lane's part of an access, by its address, fails at its peer: a store sets the error bit; a load or an
atomic leaves its lane without a result. -/
def State.failLane (s : State) (op lane part ctx peer cause : Nat) : State :=
  match s.dev.access? op with
  | none => s.mapDev (fun d => d.setError ctx peer cause)
  | some a =>
    let s := if a.kind.writes then s.mapDev (fun d => d.setError ctx peer cause) else s
    let mine := fun (l : LaneAccess) => l.isPart lane part
    let va := w64 part
    let lost : Bool := match a.kind with | .store | .stsg => false | _ => true
    let f : FailedLane := ⟨lane, va, a.kind.isAtomic && cause != 3, 15, if a.kind.isAtomic then 0x02 else 0x01⟩
    let s := s.mapDev (fun d => d.mapAccess op (fun a => { a with
      lanes := a.lanes.filter (fun l => !mine l)
      failed := if lost then a.failed ++ [f] else a.failed }))
    s.accessEnd op

/-- R301, R306. The port whose path carries the transactions to a granule of a peer; none if no path to it is usable. -/
def Dev.pathTo (d : Dev) (peer va : Nat) : Option Nat :=
  match d.peers.find? (fun p => p.id == peer) with
  | none => none
  | some p =>
    let ports := (List.range 96).filter p.usable.getLsbD
    if p.down then none else ports[Config.pathPick peer (va / 4096) ports % ports.length]?

/-- R316. Whether a path retrains. -/
def Dev.retraining (d : Dev) (peer port : Nat) : Bool :=
  d.peers.any (fun p => p.id == peer && p.retraining.getLsbD port)

/-- R306, R316. Whether a transaction may travel, with those before it: its path does not retrain, and no earlier one to
its granule travels on another path. -/
def Dev.mayTravel (d : Dev) (before : List Txn) (t : Txn) : Bool :=
  !d.retraining t.peer t.port &&
    !(before.any (fun e => e.peer == t.peer && e.va / 4096 == t.va / 4096 && e.port != t.port))

/-- R314. The differences of the words of a unit, from each to the next, as signed words. -/
def wordDeltas (u : List Byte) : List Int :=
  let word := fun i => field u (4 * i) 4
  (List.range 63).map (fun i => toSigned 32 ((word (i + 1) + 2 ^ 32 - word i) % 2 ^ 32))

/-- R314. The word-delta codings of a unit of 256 bytes: one for each width that holds its differences. -/
def deltaCodings (u : List Byte) : List (BitVec 16 × List Byte) :=
  let ds := wordDeltas u
  (((List.range 16).map (· + 1)).filter (fun b => ds.all (fun x => decide (-(2 ^ (b - 1)) ≤ x ∧ x < 2 ^ (b - 1))))).map (fun b =>
    let packed := ds.zipIdx.foldl (fun n x => n + (x.1 % 2 ^ b).toNat * 2 ^ (b * x.2)) 0
    let body := u.take 4 ++ leBytes ((63 * b + 7) / 8) packed
    (BitVec.ofNat 16 (0x3000 + (b - 1) * 256 + body.length), body))

/-- R314. The codings of a unit of 256 bytes that the sender may choose, with their descriptors: raw, zero, word repeat, byte
mask and word delta (log 69). -/
def unitCodings (u : List Byte) : List (BitVec 16 × List Byte) :=
  let mask := leBytes 32 ((List.range 256).foldl (fun n i => if u.getD i 0 = 0 then n else n + 2 ^ i) 0)
  let masked := mask ++ u.filter (· ≠ 0)
  (0, u) ::
    ((if u.all (· == 0) then [(0x1000, [])] else []) ++
      (if u = (List.replicate 64 (u.take 4)).flatten then [(0x2004, u.take 4)] else []) ++
      (if masked.length ≤ 254 then [(BitVec.ofNat 16 (0x4000 + masked.length), masked)] else []) ++ deltaCodings u)

/-- R314. A payload cut into units of at most 256 bytes: a shorter unit is raw, and the coding of a whole one is the
sender's choice. -/
def unitsOf (choice : Nat) : Nat → List Byte → List (BitVec 16 × List Byte)
  | 0, _ => []
  | fuel + 1, bs =>
    if bs.isEmpty then []
    else
      let u := bs.take 256
      let cs := unitCodings u
      (if u.length < 256 then (0, u) else cs.getD (Config.unitMethod (choice + fuel) % cs.length) (0, u)) ::
        unitsOf choice fuel (bs.drop 256)

/-- R305, R314. The payload of a transaction. -/
def Txn.payload (t : Txn) : List Byte :=
  match t.kind with
  | .collective m => m.digest.flatMap (fun x => leBytes 8 x.toNat) ++ m.data.flatMap (fun x => leBytes 8 x.toNat)
  | _ => t.data

/-- R314. The message in which a transaction travels. -/
def Txn.message (t : Txn) : OutMsg := .request t (unitsOf t.id (t.payload.length / 256 + 1) t.payload)

/-- R346. Blocks have passed in one direction of a port (log 52). -/
def Dev.blocksPassed (d : Dev) (port : Nat) (outbound : Bool) (n : Nat) : Dev :=
  { d with keys := d.keys.map (fun k => if k.port = port ∧ k.outbound = outbound then { k with counter := k.counter + n } else k) }

/-- R314, R346. A transaction goes out at its port, in one block for each unit of its payload. -/
def Dev.sendOut (d : Dev) (t : Txn) : Dev :=
  ({ d with outbox := d.outbox ++ [t.message] } : Dev).blocksPassed t.port true (Nat.max 1 ((t.payload.length + 255) / 256))

/-- Sends the held transactions of a list that may travel, in order, with the transactions before them. -/
def Dev.sendFrom (before : List Txn) : List Txn → Dev → Dev
  | [], d => { d with txns := before }
  | t :: r, d =>
    if t.held && d.mayTravel before t then
      Dev.sendFrom (before ++ [{ t with held := false }]) r (d.sendOut { t with held := false })
    else Dev.sendFrom (before ++ [t]) r d

/-- R306, R316. Sends every held transaction that may travel. -/
def Dev.sendHeld (d : Dev) : Dev := Dev.sendFrom [] d.txns d

/-- R305. A transaction of the device joins those outstanding under a number of its own and travels when it may. -/
def State.sendTxn (s : State) (t : Txn) : State :=
  let (id, s) := s.fresh
  s.mapDev (fun d => Dev.sendHeld { d with txns := d.txns ++ [{ t with id := id, held := true }] })

/-- R305, R309. Whether a transaction carries a part of an access. -/
def Dev.carried (d : Dev) (op : Nat) (l : LaneAccess) : Bool := d.txns.any (fun t => t.op == op && l.isPart t.lane t.part)

/-- R305. The transaction of bytes to a peer through a port, for an operation of a context. -/
def Txn.to_ (op ctx peer port va : Nat) (kind : AccessKind) (width : Nat) (data : List Byte) : Txn :=
  { id := 0, op := op, lane := 0, ctx := ctx, peer := peer, port := port, kind := kind, part := peer * 2 ^ 48 + va, va := va
    width := width, data := data, away := false, tag := none, held := true }

/-- R212. Gives the verdict on a pending entry of a wave. -/
def State.judge (s : State) (id : WaveId) (entry : Nat) (confirmed : Bool) : State :=
  s.onWave id (fun w => { w with watch := w.watch.map (fun e =>
    if e.id = entry ∧ e.state = .pending then { e with state := if confirmed then .confirmed else .struck } else e) })

/-- R240, R305. The question to the home for an entry of an `lfe`. A peer that is down strikes the entry. -/
def State.askVerdict (s : State) (id : WaveId) (e : WatchEntry) : State :=
  let peer := fabricDest e.line.addr
  let va := e.line.addr % 2 ^ 48
  match s.dev.pathTo peer va with
  | none => s.judge id e.id false
  | some port => s.sendTxn (Txn.to_ e.id (s.dev.ctxOf id) peer port va (.verdict id e.id) 128 (leBytes 4 e.seq.toNat))

/-- The line of a transaction, as a fabric address. -/
def Txn.line (t : Txn) : Loc := ⟨.fabric, (t.peer * 2 ^ 48 + t.va) / 128 * 128⟩

/-- R329. The addresses of the lines of some bytes. -/
def linesOf (addr n : Nat) : List Nat :=
  if n = 0 then [] else (List.range ((addr + n - 1) / 128 - addr / 128 + 1)).map (fun i => (addr / 128 + i) * 128)

/-- R329. What has come of a line of a peer's memory for a reader. -/
def Dev.fetchedLine (d : Dev) (r : Reader) (line : Nat) : Option FetchedLine :=
  d.fetched.find? (fun x => x.reader == r && x.line == line)

/-- R329. Whether some lines of peers' memories are on their way to a reader. -/
def Dev.fetching (d : Dev) (r : Reader) : Bool := d.txns.any (fun t => t.kind == .fetch r)

/-- R305, R329. A reader's bytes at a fabric address are asked for, line by line, as loads, where they have neither come nor
been asked for; what no path leads to fails at once (R316). -/
def State.askLines (s : State) (r : Reader) (ctx addr n : Nat) : State :=
  (linesOf addr n).foldl (fun s line =>
    let asked := s.dev.txns.any (fun t => t.kind == .fetch r && t.line.addr == line)
    if asked || (s.dev.fetchedLine r line).isSome then s
    else match s.dev.pathTo (fabricDest line) (line % 2 ^ 48) with
      | none => s.mapDev (fun d => { d with fetched := d.fetched ++ [⟨r, line, [], some (15, 0x01)⟩] })
      | some port =>
        let (op, s) := s.fresh
        s.sendTxn (Txn.to_ op ctx (fabricDest line) port (line % 2 ^ 48) (.fetch r) 128 [])) s

/-- R329. The bytes at a fabric address that have come for a reader, or the class and the code of a line that has failed;
none while a line is still missing. -/
def Dev.readFetched (d : Dev) (r : Reader) (addr n : Nat) : Option (Except (Nat × Nat) (List Byte)) :=
  let got := (linesOf addr n).map (d.fetchedLine r)
  if got.any Option.isNone then none
  else match got.findSome? (fun x => x.bind FetchedLine.failure) with
    | some f => some (.error f)
    | none => some (.ok (((got.flatMap (fun x => ((x.map FetchedLine.data).getD []))).drop (addr % 128)).take n))

/-- R329. A reader is done with the lines that have come for it. -/
def Dev.dropFetched (d : Dev) (r : Reader) : Dev := { d with fetched := d.fetched.filter (fun x => x.reader != r) }

/-- A scratchpad after one lane's part of a store or an atomic to it. -/
def applyScratch (sp : Space) (a : Access) (m : Memory) (l : LaneAccess) : Memory :=
  if l.loc.space ≠ sp then m
  else match a.kind with
    | .store => m.writeN l.loc.addr (leBytes a.width l.value.toNat)
    | .atomic op =>
      (match a.newValue op (leNat (m.readN l.loc.addr a.width)) l with
       | some x => m.writeN l.loc.addr (leBytes a.width x.1)
       | none => m)
    | _ => m

/-- R157, R216, R251. The scratchpad of a wave's group with every store and atomic that the wave has issued, before an
operation, performed or not. -/
def State.scratchSeen (s : State) (w : WaveId) (before : Option Nat) : Memory :=
  let base := ((s.dev.group? w.launch w.group).map Group.scratch).getD []
  (s.dev.inflight.filter (fun a => a.w == w && (match before with | some n => decide (a.op < n) | none => true))).foldl
    (fun m a => a.lanes.foldl (applyScratch (.scratch w.launch w.group) a) m) base

/-- A part of an access leaves the access, with its result. -/
def Dev.partGone (d : Dev) (op : Nat) (l : LaneAccess) (result : Option W64) : Dev :=
  d.mapAccess op (fun a => { a with
    lanes := a.lanes.filter (· ≠ l), results := a.results ++ (result.map (fun x => (l.lane, x))).toList })

/-- R308. The page of another device whose right this device holds. -/
def Dev.owned? (d : Dev) (ctx peer page : Nat) : Option OwnedPage :=
  d.owned.find? (fun o => o.ctx == ctx && o.peer == peer && o.page == page)

/-- R235, R308. Bytes are written into a page whose right this device holds. -/
def OwnedPage.put (o : OwnedPage) (va : Nat) (bs : List Byte) : OwnedPage :=
  let lines := (List.range ((va % 65536 + bs.length + 127) / 128 - va % 65536 / 128)).map (va % 65536 / 128 + ·)
  { o with words := o.words.writeN (va % 65536) bs, written := (o.written ++ lines).eraseDups }

/-- R235. The line of an address of a page whose right this device holds, as a fabric address. -/
def OwnedPage.line (o : OwnedPage) (va : Nat) : Loc := ⟨.fabric, o.peer * 2 ^ 48 + va % 2 ^ 48 / 128 * 128⟩

/-- Replaces a page whose right this device holds. -/
def Dev.setOwned (d : Dev) (o new : OwnedPage) : Dev := { d with owned := d.owned.map (fun x => if x = o then new else x) }

/-- R235, R308. A store to a page whose right this device holds. -/
def State.ownedStore (s : State) (writer : Option (WaveId × Nat)) (o : OwnedPage) (va : Nat) (bs : List Byte) : State :=
  (s.clearReservations writer (o.line va)).mapDev (fun d => d.setOwned o (o.put va bs))

/-- R235, R308. An atomic of a device on a page whose right this device holds, performed at its fabric block: the old value. -/
def State.ownedAtomic (s : State) (writer : Option (WaveId × Nat)) (o : OwnedPage) (dev va width : Nat)
    (new : Nat → Option Nat) : Nat × State :=
  let m := leNat (o.words.readN (va % 65536) width)
  let counted : OwnedPage := { o with window := o.window ++ [dev] }
  (m, match new m with
    | some x =>
      (s.clearReservations writer (o.line va)).mapDev (fun d => d.setOwned o (counted.put va (leBytes width x)))
    | none => s.mapDev (fun d => d.setOwned o counted))

/-- R234, R305, R316. The transaction of a part that leaves the device for an address of a peer, or its end where it sends
nothing. A load asks for the whole line. -/
def State.sendPart (s : State) (a : Access) (l : LaneAccess) (peer va : Nat) (away : Bool) : State :=
  match s.dev.pathTo peer va with
  | none => s.failLane a.op l.lane l.va.toNat a.ctx peer 2
  | some port =>
    let t : Txn :=
      { Txn.to_ a.op a.ctx peer port va a.kind a.width [] with lane := l.lane, part := l.va.toNat, away := away }
    match a.kind with
    | .store | .stcn =>
      let s := s.clearReservations (some (a.w, l.lane)) l.loc.line
      s.sendTxn { t with data := leBytes a.width l.value.toNat }
    | .stsg =>
      let s := s.clearReservations (some (a.w, l.lane)) l.loc.line
      s.sendTxn { t with data := (s.scratchSeen a.w (some a.op)).readN l.value.toNat a.width }
    | .atomic _ => s.sendTxn { t with data := leBytes a.width l.value.toNat ++ leBytes a.width l.value2.toNat }
    | .cond _ => s.sendTxn { t with data := leBytes 4 l.value.toNat }
    | _ => s.sendTxn { t with va := va / 128 * 128, width := 128 }

/-- R94. The sticky flags of a real lane's part join those of its access. -/
def State.addFlags (s : State) (a : Access) (lane : Nat) (fl : FpFlags) : State :=
  let real := ((s.waveNow a.w).map (fun w => w.real.getLsbD lane)).getD false
  if real then s.mapDev (fun d => d.mapAccess a.op (fun x => { x with fp := x.fp ||| fl })) else s

/-- R308, R309. A part on a page whose right this device holds: the owner's accesses meet the words where they stand, at its
fabric block (log 36). -/
def State.ownedPart (s : State) (a : Access) (l : LaneAccess) (o : OwnedPage) : State :=
  let va := l.loc.addr % 2 ^ 48
  let word := o.words.readN (va % 65536) a.width
  let gone := fun (s : State) (r : Option W64) => s.mapDev (fun d => d.partGone a.op l r)
  let store := fun (s : State) bs => s.ownedStore (some (a.w, l.lane)) o va bs
  match a.kind with
  | .atomic op =>
    let r := s.ownedAtomic (some (a.w, l.lane)) o s.dev.devId va a.width (fun m => (a.newValue op m l).map Prod.fst)
    gone (r.2.addFlags a l.lane (((a.newValue op r.1 l).map Prod.snd).getD 0)) (some (w64 r.1))
  | .cond op => gone (store s (leBytes 4 (condNew op (leNat word) (l.value.toNat % 2 ^ 32)))) none
  | .load => gone s (some (w64 (leNat word)))
  | .ldr => gone (s.reserve a.w l.lane l.loc.line (l.va.toNat / 65536)) (some (w64 (leNat word)))
  | .store => gone (store s (leBytes a.width l.value.toNat)) none
  | .stcn =>
    let held := s.holdsLine a.w l.lane l.loc.line
    let s := if held then store s (leBytes a.width l.value.toNat) else s
    gone (s.unreserve a.w l.lane) (some (if held then 1 else 0))
  | .ldgs => gone (s.poke (l.side a).loc word) none
  | .stsg => gone (store s ((s.scratchSeen a.w (some a.op)).readN l.value.toNat a.width)) none
  | _ => gone s none

/-- R194, R234, R303, R305, R308. What a part at a fabric address does as its access goes out. A helper lane's does not
exist, and what its load leaves is a free value (log 21). A `stcn` without a reservation stores nothing. DESIGN CHOICE (log
81): the reservation of an `ldr` on a peer's page is this device's own; R305 gives the fabric no transaction by which the page's
home would clear it. -/
def State.startPart (s : State) (a : Access) (l : LaneAccess) : State :=
  let peer := fabricDest l.loc.addr
  let va := l.loc.addr % 2 ^ 48
  if s.helperLane a l.lane then
    let (k, s) := s.draw
    s.mapDev (fun d => d.partGone a.op l (some (Config.freeWord k)))
  else match a.kind, s.dev.owned? a.ctx peer (va / 65536) with
    | _, some o => s.ownedPart a l o
    | .stcn, _ =>
      let held := s.holdsLine a.w l.lane l.loc.line
      let s := s.unreserve a.w l.lane
      if held then s.sendPart a l peer va false else s.mapDev (fun d => d.partGone a.op l (some 0))
    | .ldr, _ => (s.sendPart a l peer va false).reserve a.w l.lane l.loc.line (l.va.toNat / 65536)
    | _, _ => s.sendPart a l peer va false

/-- Whether a part lies at a fabric address and takes no early copy. -/
def LaneAccess.far (l : LaneAccess) : Bool := l.loc.space == .fabric && l.copy.isNone

/-- R308. An atomic on a page whose right another device holds goes to the owner. -/
def State.sendAway (s : State) (a : Access) (l : LaneAccess) (owner : Nat) : State :=
  s.sendPart a l owner (l.va.toNat % 2 ^ 48) true

/-- R308 to R310, R343, R366. Performs a part on this device: it is sent to the owner of its page's right, or recalls the
right first; a target may drop it, but not a load that an L1 serves; a lost line or a failing granule leaves its lane without
a result. -/
def State.performHere (s : State) (a : Access) (l : LaneAccess) : State :=
  match s.dev.partRight a l with
  | .away o => s.sendAway a l o
  | .waits ask => if ask then s.mapDev (fun d => d.recallPage a.ctx (l.va.toNat % 2 ^ 48 / 65536)) else s
  | .here =>
    let reaches := l.loc.global && l.copy.isNone && !(a.kind.loads && (s.l1Line a l).isSome)
    match (if reaches then s.dev.refusedBy (masterAt a.ctx 0 l.loc.space) l.loc a.width a.kind.writes else none) with
    | some target => s.dropPart a l target
    | none =>
      let s := if a.kind.isAtomic && l.loc.global then
          s.mapDev (fun d => d.countAtomic a.ctx (l.va.toNat % 2 ^ 48 / 65536) d.devId) else s
      let p := if reaches && s.dev.lost.contains l.loc.line then s.partLost 0x07 else s.performLane a l
      match p.loss with
      | none => (p.state.mapDev (fun d => d.partGone a.op l p.result)).addFlags a l.lane p.fl
      | some code =>
        p.state.mapDev (fun d => d.mapAccess a.op (fun x => if s.helperLane a l.lane then
            { x with lanes := x.lanes.filter (· ≠ l), results := x.results ++ [(l.lane, 0)] }
          else { x with lanes := x.lanes.filter (· ≠ l), failed := x.failed ++ [⟨l.lane, l.va, false, 11, code⟩] }))

/-- Performs a part that is ready, or sends it to its peer. -/
def State.performPart (s : State) (a : Access) (l : LaneAccess) : State :=
  if l.far then s.startPart a l else s.performHere a l

/-- R306. An access as the parts behind it see it that travel the same paths: without the parts that are on their way. -/
def Dev.unsent (d : Dev) (a : Access) : Access := { a with lanes := a.lanes.filter (fun l => !d.carried a.op l) }

/-- R199, R306. Whether a part at a fabric address may leave, or be performed where this device holds the right of its page:
the paths keep the order behind the parts that are on their way; what is performed here, and what writes the scratchpad as it
comes back, waits for them. -/
def Dev.mayLeave (d : Dev) (a : Access) (l : LaneAccess) : Bool :=
  let peer := fabricDest l.loc.addr
  let va := l.loc.addr % 2 ^ 48
  if (d.owned? a.ctx peer (va / 65536)).isSome then
    !blockedBy a l d.inflight && !(d.txns.any (fun t => t.peer == peer && t.va / 4096 == va / 4096))
  else if a.kind = .ldgs then !blockedBy a l d.inflight
  else !blockedBy (d.unsent a) l (d.inflight.map d.unsent)

/-- Whether a part of an access may be performed or sent now: no transaction carries it, and no earlier part stands before it
(R199). -/
def Dev.partReady (d : Dev) (a : Access) (l : LaneAccess) : Bool :=
  !d.carried a.op l &&
    (if l.far then d.mayLeave a l else !blockedBy a l d.inflight && d.partRight a l != .waits false)

/-- Performs the parts of an access that a predicate selects, in ascending order, up to a number of parts and except those
that are not ready; their results wait to be written. -/
def State.performParts (s : State) (op : Nat) (sel : LaneAccess → Bool) (count : Nat) : State :=
  match s.dev.access? op with
  | none => s
  | some a =>
    let step := fun (acc : State × Nat) (l : LaneAccess) =>
      match acc.1.dev.access? op with
      | none => acc
      | some a => if acc.2 = 0 ∨ !sel l ∨ !acc.1.dev.partReady a l then acc else (acc.1.performPart a l, acc.2 - 1)
    (a.lanes.foldl step (s, count)).1

/-- Performs the parts of an access in the lanes that a mask selects. -/
def State.performSome (s : State) (op : Nat) (m : Nat → Bool) (count : Nat) : State :=
  s.performParts op (fun l => m l.lane) count

/-- R303, R305. What the parts of an access that leave the device do as it goes out: those that need not wait are sent. -/
def State.sendTxns (s : State) (a : Access) : State := s.performParts a.op LaneAccess.far a.lanes.length

/-- R45, R46. Writes the results of an access that are ready in some lanes: whole, or one half of a pair. -/
def State.writeResults (s : State) (op : Nat) (m : Nat → Bool) (half : Option Bool) : State :=
  match s.dev.access? op with
  | none => s
  | some a =>
    let rs := a.results.filter (fun r => m r.1)
    let pair : Bool := match a.dest with | .v _ p => p | _ => false
    let s := s.onWave a.w (fun w => w.writeDest a rs half)
    let written : Dest := match a.dest, half with
      | .v n true, some h => .v (if h then n + 1 else n) false
      | d, _ => d
    let s := s.mapDev (fun d => d.coverDest a.w written (rs.map Prod.fst))
    let marked := match pair, half with
      | true, some h => a.halves ++ ((a.halfDue h rs).map (fun r => (r.1, h)))
      | _, _ => a.halves ++ rs.flatMap (fun r => [(r.1, false), (r.1, true)])
    let whole := fun (lane : Nat) => marked.contains (lane, false) && marked.contains (lane, true)
    s.mapDev (fun d => d.mapAccess op (fun a => { a with
      results := a.results.filter (fun r => !(m r.1 && whole r.1)), halves := marked }))

end Sys2Proof.Machine
end

