-- ==== Sys2Proof/Machine/Clause.lean ====
section
/-! DEFINITION. The end of a clause (R48, R49): loop ends and unwinding (R274, R276), arrival (R267), barriers (R279,
R295), the end of waves, groups and clusters (R34, R272), the effects in their order with the waits of fences (R202,
R236), and the halts that fall on the boundary (R281, R348, R353). -/

namespace Sys2Proof.Machine

/-- R276. Unwinds a loop stack against a target: while the target lies outside the body of the top entry, the entry is
popped and its broken lanes rejoin. -/
def unwind : List LoopEntry → W64 → Lanes → List LoopEntry × Lanes
  | [], _, m => ([], m)
  | e :: r, t, m =>
    if e.start.toNat ≤ t.toNat ∧ t.toNat < e.stop.toNat then (e :: r, m) else unwind r t (m ||| e.broken)

/-- R276. A path that moves as a whole to a target. -/
def Path.moveTo (p : Path) (t : W64) : Path :=
  let u := unwind p.loops t p.mask
  { p with pc := t, loops := u.1, mask := u.2 }

/-- R274. The end of the top loop entry's body, when the path's next header is there; a path without lanes arrives at
once instead (R267). -/
def Path.loopEnd (p : Path) : Option Path :=
  match p.loops with
  | [] => none
  | e :: r =>
    if p.mask = 0 ∨ p.pc ≠ e.stop then none
    else if e.count - 1 ≠ 0 then some { p with loops := { e with count := e.count - 1 } :: r, pc := e.start }
    else some { p with loops := r, mask := p.mask ||| e.broken }

/-- R274. The broken masks that an arriving path brings to the loop entries saved at a divergence: the entries of the
two stacks correspond from the outermost on. -/
def brokeOf (saved stack : List LoopEntry) (old : List Lanes) : List Lanes :=
  let from_ := (saved.reverse.zip old.reverse).zipIdx.map (fun x =>
    match stack.reverse[x.2]? with
    | some e => if e.start = x.1.1.start ∧ e.stop = x.1.1.stop then x.1.2 ||| e.broken else x.1.2
    | none => x.1.2)
  from_.reverse

/-- R274. Merge(E). -/
def DivEntry.merged (e : DivEntry) : List LoopEntry :=
  (e.loops.zip e.broke).map (fun x => { x.1 with broken := x.1.broken ||| x.2 })

/-- A path that does not exist. -/
def Path.dead (p : Path) : Path :=
  { p with live := false, mask := 0, loops := [], join := none, wait := .none, park := .none, pending := [], ageing := 0,
           slots := 0, flags := p.flags.map (fun _ => FlagState.clear) }

/-- R267. Whether an entry is a path's own: a serial entry of the path. -/
def DivEntry.ownedBy (e : DivEntry) (p : Nat) : Bool := !e.dual && e.owner == p

/-- R267. The place of a path's innermost entry in the stack: its innermost serial entry, or the dual entry. -/
def Wave.innermost (w : Wave) (p : Nat) : Option Nat :=
  match w.div.findIdx? (fun e => e.ownedBy p) with
  | some i => some i
  | none => w.div.findIdx? (fun e => e.dual)

/-- R267. Arrival of a path at its innermost entry; the wave with the number of the path to settle next. -/
def Wave.arrive (w : Wave) (p i : Nat) (e : DivEntry) : Wave × Option Nat :=
  let x := w.path p
  let e := { e with arrived := e.arrived ||| x.mask, broke := brokeOf e.loops x.loops e.broke }
  if e.dual then
    let o := w.path (1 - p)
    if o.live then
      let x := { x with live := false, pc := e.j, wait := if x.mask = 0 then Wait.none else Wait.join }
      ({ w.setPath p x with div := w.div.set i e }, none)
    else
      let flags := (x.flags.zip o.flags).map (fun f => f.1.join f.2)
      let x := { x with
        mask := e.arrived, mode := e.mode, loops := e.merged, flags := flags, pc := e.j, slots := x.slots + o.slots
        pending := x.pending ++ o.pending.filter (fun f => !x.pending.contains f) }
      ({ w with path0 := x, path1 := o.dead, div := w.div.eraseIdx i, last := 0, switches := 0, forced := none },
        some 0)
  else
    match e.deferred with
    | some (pc, m) =>
      let x := { x with mask := m, mode := e.mode, loops := e.loops }.moveTo pc
      ({ w.setPath p x with div := w.div.set i { e with deferred := none } }, some p)
    | none =>
      let x := { x with mask := e.arrived, mode := e.mode, loops := e.merged, pc := e.j }
      ({ w.setPath p x with div := w.div.eraseIdx i }, some p)

/-- R267, R272, R274. One move of a path at a clause boundary: a loop end, an arrival, or the end of a path without
lanes and without an entry; with the number of the path to settle next, if it goes on. -/
def Wave.settleStep (w : Wave) (p : Nat) : Wave × Option Nat :=
  let x := w.path p
  if !x.live then (w, none)
  else match x.loopEnd with
    | some x' => (w.setPath p x', some p)
    | none =>
      match w.innermost p with
      | none => if x.mask = 0 then (w.setPath p { x with live := false }, none) else (w, none)
      | some i =>
        match w.div[i]? with
        | some e => if x.mask = 0 ∨ x.pc = e.j then w.arrive p i e else (w, none)
        | none => (w, none)

/-- Settles a path at a clause boundary: at most 256 moves, more than the entries of the two stacks allow. -/
def Wave.settleFor : Nat → Wave → Nat → Wave
  | 0, w, _ => w
  | n + 1, w, p =>
    match w.settleStep p with
    | (w', some q) => Wave.settleFor n w' q
    | (w', none) => w'

/-- R267, R274. Settles a path at a clause boundary. -/
def Wave.settle (w : Wave) (p : Nat) : Wave := w.settleFor 256 p

/-- R272. A wave without some lanes, which have ended: they leave every arrived mask, deferred arm and broken mask. -/
def Wave.dropLanes (w : Wave) (m : Lanes) : Wave :=
  let loops := fun (l : List LoopEntry) => l.map (fun e => { e with broken := e.broken &&& ~~~m })
  let path := fun (p : Path) => { p with mask := p.mask &&& ~~~m, loops := loops p.loops }
  { w with
    path0 := path w.path0
    path1 := path w.path1
    ended := w.ended ||| m
    div := w.div.map (fun e => { e with
      arrived := e.arrived &&& ~~~m, broke := e.broke.map (· &&& ~~~m), loops := loops e.loops
      deferred := e.deferred.map (fun d => (d.1, d.2 &&& ~~~m)) }) }

/-- R272. The lanes of a path that stand elsewhere than in its active mask: in its own entries and its loop stacks. -/
def Wave.lanesAside (w : Wave) (p : Nat) : Lanes :=
  let broken := fun (l : List LoopEntry) => l.foldl (fun m e => m ||| e.broken) (0 : Lanes)
  (w.div.filter (fun e => e.ownedBy p)).foldl
    (fun m e => m ||| e.arrived ||| ((e.deferred.map Prod.snd).getD 0) ||| broken e.merged) (broken (w.path p).loops)

/-- R241. The watch entries of a set that hold a lane of a mask. -/
def Wave.watchOf (w : Wave) (set : Nat) (m : Lanes) : List WatchEntry :=
  w.watch.filter (fun e => e.set == set && e.lanes &&& m != 0)

/-- R62. The reading of a counter of a group. -/
def Group.counter (g : Group) (ctr : Nat) : Nat := (g.counters.getD ctr []).length

/-- R277. Whether a `wcnt` is met. -/
def Dev.wcntMet (d : Dev) (id : WaveId) (ctr : Nat) (t : W32) : Bool :=
  decide (65535 ≤ t.toNat) ||
    decide ((((d.group? id.launch id.group).map (fun g => g.counter ctr)).getD 0) ≤ t.toNat)

/-- R35, R241, R277. A path whose wait is met goes on: its wait is cleared, a `wchk` consumes its entries and branches,
and the path is settled. -/
def Dev.wake (d : Dev) (w : Wave) (p : Nat) : Wave :=
  let x := w.path p
  match x.wait with
  | .wcnt ctr t => if d.wcntMet w.id ctr t then (w.setPath p { x with wait := .none }).settle p else w
  | .wchk set target =>
    let es := w.watchOf set x.mask
    if es.any (fun e => e.state == .pending) then w
    else
      let watch := (w.watch.map (fun e => if e.set = set then { e with lanes := e.lanes &&& ~~~x.mask } else e)).filter
        (fun e => e.lanes != 0)
      let x := { x with wait := Wait.none }
      let x := if es.any (fun e => e.state == .struck) then x.moveTo target else x
      ({ w with watch := watch }.setPath p x).settle p
  | _ => w

/-- R279. The waves of a barrier's instance: those of the group, or of every group of its cluster. -/
def Dev.instanceWaves (d : Dev) (cluster : Bool) (g : Group) : List Wave :=
  d.waves.filter (fun w => w.id.launch == g.launch && !w.over &&
    (if cluster then d.groups.any (fun h => h.launch == g.launch && h.cluster == g.cluster && h.index == w.id.group)
     else w.id.group == g.index))

/-- R279. Whether every live path of a wave has arrived at a barrier; a path that waits at a reconvergence address has
not. -/
def Wave.atBarrier (w : Wave) (cluster : Bool) (n : Nat) : Bool :=
  [w.path0, w.path1].all (fun p => p.wait != .join && (!p.live || p.wait == .barrier cluster n))

/-- R295. The wave stands at a barrier with every live path. -/
def Wave.isExcluded (w : Wave) : Bool :=
  (w.path0.live || w.path1.live) &&
    [w.path0, w.path1].all (fun p => !p.live || (match p.wait with | .barrier _ _ => true | _ => false))

/-- R209. The L1 lines of a core that an acquire of a scope discards: global-space lines, unless the scope asks for
nothing of this L1. -/
def Dev.discardL1 (d : Dev) (launch core : Nat) (scope : Scope) : Dev :=
  let fused := match d.launch? launch with
    | some l => l.record.fuse && decide (2 ≤ l.record.ccores)
    | none => false
  let wide := match scope with | .die | .device | .system => true | _ => false
  let mine := fun (c : Core) =>
    if fused then wide && c.index / 4 == core / 4
    else c.index == core && (wide || scope == .cluster)
  { d with cores := d.cores.map (fun c => if mine c then { c with l1 := c.l1.filter (fun e => !e.frame.global) } else c) }

/-- R297. In deterministic mode a path that arrives at a barrier gives way to the other. -/
def Wave.giveWay (w : Wave) (p : Nat) : Wave :=
  if (w.path (1 - p)).live then { w with last := 1 - p, switches := 0 } else w

/-- R297. In deterministic mode the path that is left becomes the running path. -/
def Wave.keepRunning (w : Wave) : Wave :=
  if (w.path w.last).live then w else { w with last := 1 - w.last, switches := 0 }

/-- The barrier of a group or of its cluster. -/
def Dev.barrier (d : Dev) (g : Group) (cluster : Bool) (n : Nat) : Barrier :=
  let bs := if cluster then
      ((d.clusters.find? (fun c => c.launch == g.launch && c.index == g.cluster)).map Cluster.barriers).getD []
    else ((d.group? g.launch g.index).map Group.barriers).getD []
  bs.getD n ⟨0, []⟩

/-- Changes a barrier. -/
def Dev.mapBarrier (d : Dev) (g : Group) (cluster : Bool) (n : Nat) (f : Barrier → Barrier) : Dev :=
  if cluster then
    { d with clusters := d.clusters.map (fun c =>
        if c.launch = g.launch ∧ c.index = g.cluster then { c with barriers := c.barriers.modify n f } else c) }
  else d.mapGroup g.launch g.index (fun g => { g with barriers := g.barriers.modify n f })

/-- R208, R279, R280, R295. Completes a barrier if every live path of every live wave of its instance has arrived: each
arrived path is ready again, as an acquire at the barrier's scope, and in deterministic mode the clocks of the
participants rise to that of the completing arrival; where an end completes it, to the greatest of those that have arrived
(log 30). -/
def State.barrierTry (s : State) (g : Group) (cluster : Bool) (n : Nat) (arrival : Option WaveId) : State :=
  let d := s.dev
  let ws := d.instanceWaves cluster g
  let b := d.barrier g cluster n
  if b.arrived.isEmpty ∨ ws.isEmpty ∨ !(ws.all (fun w => w.atBarrier cluster n)) then s
  else
    let clock := (ws.filter (fun w => match arrival with
      | some id => w.id == id
      | none => b.arrived.any (fun x => x.1 == w.id))).foldl (fun (m : W64) w => if m.toNat < w.retired.toNat then w.retired else m) 0
    let free := fun (p : Path) => if p.wait = .barrier cluster n then { p with wait := .none } else p
    let s := s.mapWaves (fun w =>
      if ws.any (fun x => x.id == w.id) then
        let w : Wave := { w with
          path0 := free w.path0, path1 := free w.path1, excluded := false
          retired := if d.det w.id ∧ w.retired.toNat < clock.toNat then clock else w.retired }
        let w : Wave := if w.path0.live ∧ w.path0.wait = Wait.none then w.settle 0 else w
        let w : Wave := if w.path1.live ∧ w.path1.wait = Wait.none then w.settle 1 else w
        if d.det w.id then w.keepRunning else w
      else w)
    let s := s.mapDev (fun d => d.mapBarrier g cluster n (fun b => { uses := b.uses + 1, arrived := [] }))
    s.mapDev (fun d => ws.foldl (fun d w => d.discardL1 w.id.launch w.core (if cluster then .cluster else .group)) d)

/-- R279. Ended paths and waves are not waited for: tries every barrier of a group and of its cluster. -/
def State.barriersTry (s : State) (launch group : Nat) : State :=
  match s.dev.group? launch group with
  | none => s
  | some g => (List.range 16).foldl (fun s n => (s.barrierTry g false n none).barrierTry g true n none) s

/-- R26, R161. Whether some cluster or group stands on a core. -/
def Dev.holdsCore (d : Dev) (core : Nat) : Bool :=
  d.groups.any (fun g => g.core == core) || d.clusters.any (fun c => c.cores.contains core)

/-- R34, R28. Releases a group whose waves have ended and whose counters are zero, and its cluster with its last
group. -/
def State.releaseTry (s : State) (launch group : Nat) : State :=
  match s.dev.groups.find? (fun g => g.launch == launch && g.index == group) with
  | none => s
  | some g =>
    let mine := fun (w : Wave) => w.id.launch == launch && w.id.group == group
    if g.released ∨ (s.dev.waves.any (fun w => mine w && !w.over)) ∨ !(g.counters.all List.isEmpty) then s
    else s.mapDev (fun d =>
      let d := d.mapGroup launch group (fun g => { g with released := true })
      let d := { d with waves := d.waves.filter (fun w => !mine w) }
      let d := d.mapCore g.core (fun c => { c with ways := c.ways - g.converted })
      let left := d.groups.any (fun h => h.launch == launch && h.cluster == g.cluster && !h.released)
      if left then d
      else
        let gone := fun (h : Group) => h.launch == launch && h.cluster == g.cluster
        let keep : MatrixOp → MatrixOp := fun m => match m with
          | .wld op w off at_ n none =>
            if d.groups.any (fun h => gone h && h.launch == w.launch && h.index == w.group) then
              .wld op w off at_ n (some (d.peek ⟨.scratch w.launch w.group, at_⟩ n))
            else m
          | m => m
        let d : Dev := { d with cores := d.cores.map (fun c => { c with queue := c.queue.map keep }) }
        let d := { d with
          groups := d.groups.filter (fun h => !gone h)
          clusters := d.clusters.filter (fun c => !(c.launch == launch && c.index == g.cluster)) }
        { d with cores := d.cores.map (fun c => if d.holdsCore c.index then c else { c with ways := 0 }) })

/-- R34, R235, R244, R272. What follows when a path or a wave may have ended. -/
def State.afterEnd (s : State) (id : WaveId) : State :=
  match s.dev.wave? id with
  | none => s
  | some w =>
    let s := if w.over then
        s.onWave id (fun w => { w with
          path0 := { w.path0 with live := false }, path1 := { w.path1 with live := false }, watch := [], resv := [] })
      else s.onWave id (fun w => { w with excluded := w.isExcluded })
    (s.barriersTry id.launch id.group).releaseTry id.launch id.group

/-- R188, R241, R277, R295, R297. A path whose wait is met goes on, and its wave with it: in deterministic mode the path that
is left becomes the running path, and a path that has ended leaves its wave excluded where the other waits at a barrier. A
`wcnt` on the eng counter that is met shows the group what the engines and the splat unit have written. -/
def State.wakePath (s : State) (id : WaveId) (p : Nat) : State :=
  match s.waveNow id with
  | none => s
  | some w =>
    let waits : Bool := match (w.path p).wait with | .wcnt _ _ | .wchk _ _ => true | _ => false
    let t := s.dev.wake w p
    if !waits ∨ !(w.path p).live ∨ t = w then s
    else
      let det := s.dev.det id
      let s := s.onWave id (fun _ => let t := if det then t.keepRunning else t; { t with excluded := t.isExcluded })
      match (w.path p).wait with
      | .wcnt 3 _ => s.mapDev (fun d => d.discardL1 id.launch (d.coreOf id) .device)
      | _ => s

/-- R201, R216. Whether an access lies under a fence of some lanes: only a fence after a `wcnt` reaches asynchronous
copies, and `enq` is no memory access of a lane. -/
def Access.covered (a : Access) (id : WaveId) (lanes : Lanes) (loadsOnly : Bool) : Bool :=
  a.w == id && a.lanes.any (fun l => lanes.getLsbD l.lane) &&
    (match a.kind with
     | .compute | .matrix | .ldgs | .stsg | .enq _ => false
     | .store => !loadsOnly
     | _ => true)

/-- R202. Whether the waits of a fence are met. -/
def Dev.fenceMet (d : Dev) (id : WaveId) (lanes : Lanes) (kind : FenceKind) : Bool :=
  !(d.inflight.any (fun a => a.covered id lanes (kind == .acq)))

/-- The queue of a splat unit. -/
def Dev.mapUnit (d : Dev) (i : Nat) (f : SplatUnit → SplatUnit) : Dev :=
  if d.units.any (fun u => u.index == i) then
    { d with units := d.units.map (fun u => if u.index = i then f u else u) }
  else { d with units := d.units ++ [f ⟨i, []⟩] }

/-- R49. Performs one effect of a clause; none while a fence's waits are not met. -/
def State.perform (s : State) (w : Wave) (e : Effect) : Option State :=
  match e with
  | .access a =>
    let s := s.mapDev (fun d => { d with inflight := d.inflight ++ [a] })
    let s := match a.counter with
      | some n => s.mapDev (fun d => d.raise w.id n a.op)
      | none => s
    some ((s.sendTxns a).accessEnd a.op)
  | .fence lanes kind scope =>
    if s.dev.fenceMet w.id lanes kind then
      some (match kind with
        | .rel => s
        | _ => s.mapDev (fun d => d.discardL1 w.id.launch w.core scope))
    else none
  | .matrix core m => some (s.mapDev (fun d => d.mapCore core (fun c => { c with queue := c.queue ++ [m] })))
  | .splat unit o =>
    some ((s.mapDev (fun d => d.mapUnit unit (fun u => { u with queue := u.queue ++ [o] }))).mapDev
      (fun d => d.raise w.id 3 o.op))
  | .engine c =>
    some ((s.mapDev (fun d => { d with cmds := d.cmds ++ [c] })).mapDev (fun d => d.raise w.id 3 c.id))
  | .allowance _ _ | .convert _ => some s
  | .trigger => some (s.onWave w.id (fun w => { w with triggered := true }))
  | .put l bs => some (s.poke l bs)

/-- R49. Performs effects in order, up to a fence that has to wait; the effects left. -/
def State.performAll (s : State) (w : Wave) : List Effect → State × List Effect
  | [] => (s, [])
  | e :: r =>
    match s.perform w e with
    | some s' => s'.performAll w r
    | none => (s, e :: r)

/-- R297. Whether a path may become the running path: it is live and waits neither at a barrier nor at J (log 22). -/
def Path.mayRun (p : Path) : Bool :=
  p.live && (match p.wait with | .barrier _ _ | .join => false | _ => true)

/-- R297. Whether the running path of a deterministic wave is to give way: it has started 256 clauses. -/
def Dev.givesWay (d : Dev) (w : Wave) : Bool :=
  d.det w.id && decide (256 ≤ w.switches) && (w.path (1 - w.last)).mayRun

/-- R36. Whether a path that has aged 256 slots is to issue at the next boundary. -/
def Dev.ages (d : Dev) (w : Wave) : Bool :=
  !d.det w.id && w.forced.isNone && decide (256 ≤ w.path0.ageing ∨ 256 ≤ w.path1.ageing)

/-- R48, R49. The end of a clause whose effects are performed: its wave takes the working copy, the path goes on at its
next header, and the boundary does what it does: waits, arrivals, loop ends, barriers, the end of paths and waves, traps
and halts. -/
def State.endClause (s : State) (c : Issue) : State :=
  let s := { s with issue := none }
  let id := c.wave.id
  let w := c.setPth { c.pth with pc := c.next } |>.wave
  let det := s.dev.det id
  let s := s.mapDev (fun d => { d with failing := d.failing.filter (fun g => !c.covered.contains g) })
  let s := (s.countSlot c).mapDev (fun d => d.setWave w)
  match c.trap with
  | some (cls, code) =>
    s.takeFault id c.path { cls := cls, code := code, mask := 0, addr := 0, pc := c.next, uncertain := false }
  | none =>
    let s := match (w.path c.path).wait with
      | .barrier cl n =>
        match s.dev.group? id.launch id.group with
        | none => s
        | some g =>
          let s := s.mapDev (fun d => d.mapBarrier g cl n (fun b => { b with arrived := b.arrived ++ [(id, c.path)] }))
          let s := s.onWave id (fun w =>
            let w := if det then w.giveWay c.path else w
            { w with excluded := w.isExcluded })
          s.barrierTry g cl n (some id)
      | .none => s.onWave id (fun w =>
          let w := w.settle c.path
          let w := if c.path = 0 ∧ w.path1.live ∧ w.path1.wait = Wait.none then w.settle 1 else w
          if det then w.keepRunning else w)
      | _ => s.wakePath id c.path
    let ended := match s.dev.wave? id with
      | some w => w.over || !(w.path c.path).live
      | none => false
    (if ended then s.afterEnd id else s).boundaryHalt id

/-- R49, R202. The end of the words of a clause: its effects are performed in their order, and the clause ends; or it
holds at a fence. -/
def State.finishClause (s : State) (c : Issue) : State :=
  let r := s.performAll c.wave c.effects
  let w := ((r.1.issue.map Issue.wave).getD c.wave)
  let c := { c with wave := w, effects := r.2 }
  if c.effects.isEmpty then r.1.endClause c
  else ({ r.1 with issue := none } : State).holdClause c

/-- R236, R237. The fence that stands at the next word of a clause: its kind, if the word is an `fnc` or an `fsys`. -/
def Issue.fenceAt (c : Issue) : Option FenceKind :=
  match c.words with
  | x :: _ =>
    let op := x.toNat / 2 ^ 24
    if op = 0xCF then some .sc
    else if op = 0xCE then
      some (match x.toNat / 2 ^ 19 % 4 with | 0 => .acq | 1 => .rel | 2 => .acqrel | _ => .sc)
    else none
  | [] => none

/-- R242. Whether a pending watch entry holds a lane of the clause's path. -/
def Issue.watchPending (c : Issue) : Bool :=
  c.wave.watch.any (fun e => e.state == .pending && e.lanes &&& c.pth.mask != 0)

/-- R163. The cores for whose matrix queues a clause has operations that it has not sent yet. -/
def Issue.matrixCores (c : Issue) : List Nat :=
  (c.effects.filterMap (fun e => match e with | .matrix i _ => some i | _ => none)).eraseDups

/-- R163, R166. Whether the clause of another wave holds with operations for the matrix queue of a core, or is to place some
there: what is issued on the core later comes after them. -/
def State.queueHeld (s : State) (id : WaveId) (core : Nat) : Bool :=
  s.held.any (fun c => c.wave.id != id && (c.matrixCores.contains core || c.queues.contains core))

/-- R49, R236. The effects of a clause so far are performed in their order, up to a fence that has to wait (log 14). -/
def State.flush (s : State) (c : Issue) : State × Issue :=
  let r := s.performAll c.wave c.effects
  let spent := fun (x : Nat × Nat) => (x.1, x.2 - c.charged x.1)
  let c := { (r.1.issue.getD c) with
    effects := r.2, flushed := c.flushed || !c.effects.isEmpty, paid := c.paid.map spent }
  ({ r.1 with issue := some c }, c)

/-- R49, R236. A clause comes to a fence at its own position: the effects before it are performed, and it goes on once the
waits of the fence are met; while the checks of the clause are made, nothing waits (log 14). -/
def State.fencePoint (s : State) (c : Issue) (kind : FenceKind) : State × Except Stop Issue :=
  if c.phase = .checking then (s, .ok c)
  else
    let (s, c) := s.flush c
    if !c.effects.isEmpty ∨ !s.dev.fenceMet c.wave.id c.pth.mask kind then (s, .error .hold) else (s, .ok c)

/-- R49, R213, R242. The watch entries that concern a release of a clause's path: those of its lanes. While the checks of the
whole clause are made, these are the ones that stood before the clause; its own are still to be asked for. -/
def State.releaseEntries (s : State) (c : Issue) : List WatchEntry :=
  let before := fun (e : WatchEntry) => match s.dev.wave? c.wave.id with
    | some w => w.watch.any (fun x => x.id == e.id)
    | none => true
  c.wave.watch.filter (fun e => e.lanes &&& c.pth.mask != 0 && (c.phase != .checking || before e))

/-- R213, R242, R317, R366. What a release of a path meets at its clause: a pending fault is raised, a struck entry of
its lanes is a stale release, and a pending entry holds the clause. -/
def State.release (s : State) (c : Issue) (code : Nat) : Except Stop Unit :=
  let es := s.releaseEntries c
  let struck := es.filter (fun e => e.state == .struck)
  match c.pth.pending with
  | f :: _ => .error (.pending f)
  | [] =>
    if es.any (fun e => e.state == .pending) then .error .hold
    else
      let m := struck.foldl (fun m e => m ||| (e.lanes &&& c.pth.mask)) (0 : Lanes)
      match lowestLane c.wave.width m with
      | none => .ok ()
      | some l => .error (.fault 8 code m (((struck.find? (fun e => e.lanes.getLsbD l)).map WatchEntry.va).getD 0))

end Sys2Proof.Machine
end

