-- ==== Sys2Proof/Machine/ControlOps.lean ====
section
/-! DEFINITION. The control and system instructions 0x00 to 0x19: modes (R58), branches (R269 to R271), the end of lanes
(R272), calls and loops (R273 to R276), waits, triggers and barriers (R277 to R280), traps and special registers (R281
to R283), the send allowance (R284), watch sets (R239, R241), `spcfg` (R248) and `yield` (R287). -/

namespace Sys2Proof.Machine

/-- R67. The address at an offset from the clause's own header. -/
def Issue.target (c : Issue) (i : BitVec 16) : W64 := c.header + 4 * i.signExtend 64

/-- R269, R276. The whole path goes on at a target. -/
def Issue.jump (c : Issue) (t : W64) : Issue := { c.setPth (c.pth.moveTo t) with next := t }

/-- R265. A predicate over the path's active mask. -/
def Issue.pathPred (c : Issue) (q : BitVec 4) : Lanes := c.wave.qread q.toNat &&& c.pth.mask

/-- The low 32 bits of a k register. -/
def Issue.kLow (c : Issue) (k : Nat) : Nat := (c.wave.k.getD k 0).toNat % 2 ^ 32

/-- R265. `nop`. -/
def execNop (s : State) : Out := s.onClause .ok

/-- R58. `mode`. -/
def execMode (sel : BitVec 6) (v : BitVec 16) (s : State) : Out :=
  s.onClause (fun c => .ok (c.setPth { c.pth with mode := modeAfter c.pth.mode (.mode sel v) }))

/-- R269. `bra`. -/
def execBra (i : BitVec 16) (s : State) : Out := s.onClause (fun c => .ok (c.jump (c.target i)))

/-- R269. `bany`. -/
def execBany (q : BitVec 4) (i : BitVec 16) (s : State) : Out :=
  s.onClause (fun c => .ok (if c.pathPred q ≠ 0 then c.jump (c.target i) else c))

/-- R269. `ball`. -/
def execBall (q : BitVec 4) (i : BitVec 16) (s : State) : Out :=
  s.onClause (fun c => .ok (if c.pathPred q = c.pth.mask then c.jump (c.target i) else c))

/-- R270. `join`. -/
def execJoin (i : BitVec 16) (s : State) : Out :=
  s.onClause (fun c => .ok (c.setPth { c.pth with join := some (c.target i) }))

/-- R270. The reconvergence address of a `bif`. -/
def Issue.reconvergence (c : Issue) (target : W64) : Option W64 :=
  match c.pth.join with
  | some j => some j
  | none => if c.header.toNat < target.toNat then some target else none

/-- R270. An arm of a `bif`: its lanes, its start, and whether it is the taken arm. -/
structure Arm where
  mask : Lanes
  start : W64
  taken : Bool
  deriving DecidableEq, Repr

/-- R276. The path as one arm: the taken arm unwinds its own copy of the loop stack. -/
def Path.asArm (p : Path) (a : Arm) : Path :=
  let p := { p with mask := a.mask, pc := a.start }
  if a.taken then p.moveTo a.start else p

/-- R270. A divergence: the entry that receives the dropped arms is reused or pushed, and the arms kept become the path,
two paths, or the path and its deferred arm. The flag says whether the mode is deterministic (R297). -/
def Issue.diverge (c : Issue) (det : Bool) (j : W64) (arms : List Arm) : Except Stop Issue :=
  let w := c.wave
  let x := c.pth
  let kept := arms.filter (fun a => a.start != j)
  let dropped := (arms.filter (fun a => a.start == j)).foldl (fun m a => m ||| a.mask) (0 : Lanes)
  let inner := w.innermost c.path
  let reuse := match inner.bind (fun i => w.div[i]?) with
    | some e => e.j == j && e.deferred.isNone && (!e.dual || kept.length == 1)
    | none => false
  if kept.isEmpty then .ok { c with next := j }
  else if !reuse ∧ w.div.length = 16 then .error (.fault 9 0x01 0 0)
  else
    let fresh : DivEntry :=
      { j := j, mode := x.mode, loops := x.loops, arrived := dropped, broke := x.loops.map (fun _ => 0),
        deferred := none, dual := false, owner := c.path }
    let place := fun (f : DivEntry → DivEntry) =>
      if reuse then w.div.modify (inner.getD 0) (fun e => f { e with arrived := e.arrived ||| dropped })
      else f fresh :: w.div
    match kept with
    | [a] => .ok { c.mapWave (fun w => { w with div := place id }.setPath c.path (x.asArm a)) with
                   next := (x.asArm a).pc }
    | n :: t :: _ =>
      if !reuse ∧ w.div.isEmpty then
        let p0 := { x.asArm n with ageing := 0 }
        let p1 := { x.asArm t with ageing := 0, slots := 0 }
        .ok { c.mapWave (fun w => { w with
                path0 := p0, path1 := p1, div := [{ fresh with dual := true }]
                last := if det then 0 else 1, switches := 0 }) with next := n.start }
      else
        .ok { c.mapWave (fun w => { w with div := place (fun e => { e with deferred := some (t.start, t.mask) }) }.setPath
                c.path (x.asArm n)) with next := n.start }
    | [] => .ok { c with next := j }

/-- R270. `bif`. -/
def execBif (q : BitVec 4) (i : BitVec 16) (s : State) : Out :=
  s.onIssue (fun s c => (s,
    let t := c.pathPred q
    let n := c.pth.mask &&& ~~~(c.wave.qread q.toNat)
    let target := c.target i
    match c.reconvergence target with
    | none => .error (illegal 0x08)
    | some j =>
      let c := c.setPth { c.pth with join := none }
      if t = 0 then .ok c
      else if n = 0 then .ok (c.jump target)
      else c.diverge (s.dev.det c.wave.id) j [⟨n, c.next, false⟩, ⟨t, target, true⟩]))

/-- R273. `call`. -/
def execCall (k : Nat) (i : BitVec 16) (s : State) : Out :=
  s.onClause (fun c => .ok { c.mapWave (fun w => w.setK k c.next) with next := c.target i })

/-- R273, R276. `ret`. -/
def execRet (a : Nat) (s : State) : Out :=
  s.onClause (fun c =>
    let t := c.wave.k.getD a 0
    if t.toNat / 2 ^ 48 ≠ 0 ∨ t.toNat % 4 ≠ 0 then .error (illegal 0x08) else .ok (c.jump t))

/-- R274. `loop`. -/
def execLoop (a : Nat) (n : BitVec 8) (s : State) : Out :=
  s.onClause (fun c =>
    let stop := c.next + 4 * n.setWidth 64
    let count := c.kLow a
    if count = 0 then .ok { c with next := stop }
    else if c.pth.loops.length = 4 then .error (.fault 10 0x01 0 0)
    else .ok (c.setPth { c.pth with loops := ⟨c.next, stop, BitVec.ofNat 32 count, 0⟩ :: c.pth.loops }))

/-- R275. `lbrk`. -/
def execLbrk (q : BitVec 4) (s : State) : Out :=
  s.onClause (fun c =>
    let x := c.pth
    let m := c.pathPred q
    match x.loops with
    | [] => .error (illegal 0x08)
    | e :: r =>
      let e := { e with broken := e.broken ||| m }
      if m = 0 then .ok c
      else if x.mask &&& ~~~m = 0 then
        .ok { c.setPth { x with mask := e.broken, loops := r } with next := e.stop }
      else .ok (c.setPth { x with mask := x.mask &&& ~~~m, loops := e :: r }))

/-- R277, R366. `wcnt`. -/
def execWcnt (p : BitVec 2) (a : Nat) (s : State) : Out :=
  s.onClause (fun c =>
    let raised := c.pth.pending.find? (fun f => match f.trigger with | .wcntGlob _ => p == 0 | _ => false)
    match raised with
    | some f => .error (.pending f)
    | none => .ok (c.setPth { c.pth with wait := .wcnt p.toNat (BitVec.ofNat 32 (c.kLow a)) }))

/-- R278, R213. `trig`. -/
def execTrig (s : State) : Out :=
  s.onClause (fun c =>
    match s.release c 0x02 with
    | .error e => .error e
    | .ok () => .ok ((c.send (.fence c.pth.mask .rel .device)).send .trigger))

/-- R279, R208. `bar`. -/
def execBar (cluster : Bool) (n : BitVec 4) (s : State) : Out :=
  s.onClause (fun c =>
    match s.release c 0x05 with
    | .error e => .error e
    | .ok () =>
      let c := c.send (.fence c.pth.mask .rel (if cluster then .cluster else .group))
      .ok (c.setPth { c.pth with wait := .barrier cluster n.toNat }))

/-- R272, R242. `exit`. -/
def execExit (s : State) : Out :=
  s.onClause (fun c =>
    let m := c.pth.mask
    let last := c.wave.lanesAside c.path &&& ~~~m == 0
    match if last then s.release c 0x04 else .ok () with
    | .error e => .error e
    | .ok () => .ok (c.mapWave (fun w => w.dropLanes m)))

/-- R281. `trap`. -/
def execTrap (code : BitVec 16) (s : State) : Out :=
  s.onClause (fun c => .ok { c with trap := some (12, code.toNat) })

/-- R281. `brk`. -/
def execBrk (code : BitVec 16) (s : State) : Out :=
  s.onClause (fun c => .ok { c with trap := some (13, code.toNat) })

/-- R72, R282. The value of a special register in a lane. -/
def Issue.special (c : Issue) (d : Dev) (n : SpecialReg) (l : Nat) : Nat :=
  match n with
  | .lane => l
  | .wave => c.wave.id.wave
  | .helper => (c.wave.helper.getLsbD l).toNat
  | .retired => c.wave.retired.toNat
  | .timebase => d.now.toNat
  | .step => d.step (d.ctxOf c.wave.id)
  | .fpflags => c.wave.fpflags.toNat
  | .faultmask => c.wave.faultmask.toNat
  | .xva => c.wave.xva.toNat
  | .pathmask => c.pth.mask.toNat
  | .watch => c.wave.watchWord.toNat

/-- R55, R265. Writes a raw result: per active lane, or once to a k register, zero-extended. -/
def Issue.raw (c : Issue) (d : Operand) (wide : Bool) (f : Nat → Nat) : Issue :=
  match d with
  | .k n => c.mapWave (fun w => w.setK n (w64 (if wide then f 0 else f 0 % 2 ^ 32)))
  | _ => c.writeVec d wide ((lanesOf c.wave.width c.active).map (fun l => (l, w64 (f l))))

/-- R282. `sysrd`. -/
def execSysrd (d : Operand) (n : SpecialReg) (s : State) : Out :=
  s.onIssue (fun s c => (s, .ok (c.raw d (specialWide n) (c.special s.dev n))))

/-- Whether an operand has a value for each lane. -/
def perLane : Operand → Bool
  | .v _ | .x _ | .lane => true
  | _ => false

/-- R282, R285, R286. The value that a wave-wide instruction takes from an operand: of the lowest active lane if the
operand is per lane, and once otherwise. -/
def Issue.once (c : Issue) (wide : Bool) (o : Operand) : Option Nat :=
  if perLane o then (lowestLane c.wave.width c.active).map (c.src wide true o) else some (c.src wide true o 0)

/-- R282. `syswr`. -/
def execSyswr (a : Operand) (n : SpecialReg) (s : State) : Out :=
  s.onClause (fun c =>
    match c.once false a with
    | none => .ok c
    | some x =>
      match n with
      | .fpflags => .ok (c.mapWave (fun w => { w with fpflags := BitVec.ofNat 6 x }))
      | .xva => .ok (c.mapWave (fun w => { w with xva := BitVec.ofNat 16 x }))
      | _ => .ok c)

/-- R287. The other waves of a wave's bay. -/
def Dev.bayMates (d : Dev) (w : Wave) : List WaveId :=
  (d.waves.filter (fun x => x.core == w.core && x.bay == w.bay && x.id != w.id && !x.over)).map Wave.id

/-- R287. `yield`. -/
def execYield (s : State) : Out :=
  s.onIssue (fun s c => (s, .ok (if s.dev.det c.wave.id then c
    else c.mapWave (fun w => { w with yieldTo := s.dev.bayMates w }))))

/-- R239. `wset`. -/
def execWset (n : BitVec 2) (s : State) : Out :=
  s.onClause (fun c => .ok (c.mapWave (fun w => { w with wset := n.toNat })))

/-- R241. `wchk`. -/
def execWchk (n : BitVec 2) (i : BitVec 16) (s : State) : Out :=
  s.onClause (fun c => .ok (c.setPth { c.pth with wait := .wchk n.toNat (c.target i) }))

/-- R306, R311. Whether a destination counts as declared down: it names no device, or no path to it is usable. -/
def Dev.peerDown (d : Dev) (dest : Nat) : Bool :=
  match d.peers.find? (fun p => p.id == dest) with
  | none => true
  | some p => p.down || p.usable == 0

/-- R311. The send allowance of a destination. -/
def Dev.allowance (d : Dev) (dest : Nat) : Nat :=
  if dest = d.devId ∨ d.peerDown dest then 65535
  else Nat.min 65535 (((d.peers.find? (fun p => p.id == dest)).map Peer.allowance).getD 65535)

/-- R284. `bsa`. -/
def execBsa (k : Nat) (i : BitVec 16) (s : State) : Out :=
  s.onIssue (fun s c => (s,
    let x := (c.wave.k.getD k 0).toNat
    if x / 2 ^ 32 ≠ 0 ∨ bitsOf x 15 9 ≠ 0 then .error (illegal 0x08)
    else if s.dev.det c.wave.id then .ok c
    else if s.dev.allowance (bitsOf x 8 0) < bitsOf x 31 16 then .ok (c.jump (c.target i)) else .ok c))

/-- R284. `sal`. -/
def execSal (d a : Operand) (s : State) : Out :=
  s.onIssue (fun s c => (s,
    let scalar : Bool := match d with | .k _ => true | _ => false
    let dest := c.src false true a
    let bad := if scalar then [] else
      (lanesOf c.wave.width (c.active &&& ~~~c.wave.helper)).filter (fun l => decide (511 < dest l))
    if (scalar ∧ 511 < dest 0) ∨ bad ≠ [] then .error (.fault 1 0x08 (maskOf bad) 0)
    else .ok (c.raw d false (fun l =>
      if s.dev.det c.wave.id then 65535 else s.dev.allowance (dest l % 512)))))

/-- R248. `spcfg`: the conversion is done at the instruction. -/
def execSpcfg (a : Nat) (s : State) : Out :=
  s.onIssue (fun s c =>
    let n := c.kLow a
    let cur := (s.dev.core c.wave.core).ways
    let fused : Bool := match s.dev.launch? c.wave.id.launch with
      | some l => l.record.fuse && decide (2 ≤ l.record.ccores)
      | none => false
    if fused ∨ 8 < n ∨ n < cur then (s, .error (illegal 0x08))
    else if n = cur then (s, .ok c)
    else (s.mapDev (fun d => d.convertWays c.wave (n - cur)), .ok (c.send (.convert (n - cur)))))

/-- R283. `clk`. -/
def execClk (d : Operand) (s : State) : Out :=
  s.onIssue (fun s c => (s, .ok (c.raw d true (fun _ =>
    (if s.dev.det c.wave.id then c.wave.retired else s.dev.clock).toNat))))

end Sys2Proof.Machine
end

