-- ==== Sys2Proof/Machine/IntOps.lean ====
section
/-! DEFINITION. The integer and bit instructions 0x20 to 0x45 (R111 to R119). -/

namespace Sys2Proof.Machine

/-- R112. The types called w, and b32. -/
def EType.isWord (t : EType) : Bool := t.isW || t == .b32
/-- R116. Every int type and b32. -/
def EType.isAll (t : EType) : Bool := t.isInt || t == .b32
/-- Every type. -/
def EType.any (_ : EType) : Bool := true

/-- R111, R112. An instruction whose result is WriteInt of an exact integer of two slots. -/
def Issue.intOp2 (c : Issue) (d a b : Operand) (f : Int → Int → Int) : Except Stop Issue :=
  c.alu EType.isInt d c.ty.wide
    (c.slots2 a b (fun x y => writeInt c.sat c.ty (f (c.ty.intVal x) (c.ty.intVal y))))

/-- R111, R112. An instruction whose result is WriteInt of an exact integer of one slot. -/
def Issue.intOp1 (c : Issue) (d a : Operand) (f : Int → Int) : Except Stop Issue :=
  c.alu EType.isInt d c.ty.wide (c.slots1 a (fun x => writeInt c.sat c.ty (f (c.ty.intVal x))))

/-- R116. A bitwise instruction of two sources. -/
def Issue.bitOp2 (c : Issue) (d a b : Operand) (f : Nat → Nat → Nat) : Except Stop Issue :=
  c.alu EType.isAll d c.ty.wide (c.slots2 a b (fun x y => noFlag (f x y)))

/-- R116. A bitwise instruction of one source. -/
def Issue.bitOp1 (c : Issue) (d a : Operand) (f : Nat → Nat) : Except Stop Issue :=
  c.alu EType.isAll d c.ty.wide (c.slots1 a (fun x => noFlag (f x)))

/-- R112. `add`. -/
def execAdd (d a b : Operand) (s : State) : Out := s.onClause (fun c => c.intOp2 d a b (fun x y => x + y))
/-- R112. `sub`. -/
def execSub (d a b : Operand) (s : State) : Out := s.onClause (fun c => c.intOp2 d a b (fun x y => x - y))
/-- R112. `mul`. -/
def execMul (d a b : Operand) (s : State) : Out := s.onClause (fun c => c.intOp2 d a b (fun x y => x * y))
/-- R112. `min`. -/
def execMin (d a b : Operand) (s : State) : Out := s.onClause (fun c => c.intOp2 d a b (fun x y => if y < x then y else x))
/-- R112. `max`. -/
def execMax (d a b : Operand) (s : State) : Out := s.onClause (fun c => c.intOp2 d a b (fun x y => if x < y then y else x))
/-- R112. `csub`: a − b when a ≥ b. -/
def execCsub (d a b : Operand) (s : State) : Out :=
  s.onClause (fun c => c.intOp2 d a b (fun x y => if y ≤ x then x - y else x))
/-- R112. `abs`. -/
def execAbs (d a : Operand) (s : State) : Out := s.onClause (fun c => c.intOp1 d a (fun x => if x < 0 then -x else x))
/-- R112. `neg`. -/
def execNeg (d a : Operand) (s : State) : Out := s.onClause (fun c => c.intOp1 d a (fun x => -x))

/-- R112. `mad`: d + a · b. -/
def execMad (d a b : Operand) (s : State) : Out :=
  s.onClause (fun c => c.alu EType.isInt d c.ty.wide
    (c.slots3 d a b (fun z x y => writeInt c.sat c.ty (c.ty.intVal z + c.ty.intVal x * c.ty.intVal y))))

/-- R113. A carry chain through q14: the result and the carry-out of each active lane. -/
def Issue.carryOp (c : Issue) (d a b : Operand) (f : Nat → Nat → Nat → Int) : Except Stop Issue :=
  let n := c.ty.bits
  let q := c.wave.qread 14
  let exact := fun l => f (c.arg a l) (c.arg b l) (if q.getLsbD l then 1 else 0)
  let out := maskOf ((lanesOf c.wave.width c.active).filter
    (fun l => decide (exact l < 0 ∨ ((2 ^ n : Nat) : Int) ≤ exact l)))
  c.needType EType.isW
    ((c.compute d c.ty.wide (fun l => noFlag (wrapInt n (exact l)))).mapWave (fun w => w.qwrite 14 c.active out))

/-- R113. `addc`. -/
def execAddc (d a b : Operand) (s : State) : Out :=
  s.onClause (fun c => c.carryOp d a b (fun x y k => (x : Int) + y + k))
/-- R113. `subb`. -/
def execSubb (d a b : Operand) (s : State) : Out :=
  s.onClause (fun c => c.carryOp d a b (fun x y k => (x : Int) - y - k))

/-- R114. `mulh`: the high half of the exact product. -/
def execMulh (d a b : Operand) (s : State) : Out :=
  s.onClause (fun c => c.alu EType.isW d c.ty.wide (c.slots2 a b (fun x y =>
    noFlag (wrapInt c.ty.bits (c.ty.intVal x * c.ty.intVal y / ((2 ^ c.ty.bits : Nat) : Int))))))

/-- R114. `mulw`: the whole 64-bit product, in a pair. -/
def execMulw (d a b : Operand) (s : State) : Out :=
  s.onClause (fun c => c.alu (fun t => t == .i32 || t == .n32) d true (fun l =>
    noFlag (wrapInt 64 (c.ty.intVal (c.src false false a l) * c.ty.intVal (c.src false false b l)))))

/-- R116. `and`. -/
def execAnd (d a b : Operand) (s : State) : Out := s.onClause (fun c => c.bitOp2 d a b (fun x y => x &&& y))
/-- R116. `or`. -/
def execOr (d a b : Operand) (s : State) : Out := s.onClause (fun c => c.bitOp2 d a b (fun x y => x ||| y))
/-- R116. `xor`. -/
def execXor (d a b : Operand) (s : State) : Out := s.onClause (fun c => c.bitOp2 d a b (fun x y => x ^^^ y))

/-- The complement of n bits. -/
def notBits (n x : Nat) : Nat := 2 ^ n - 1 - x % 2 ^ n

/-- R116. `andn`. -/
def execAndn (d a b : Operand) (s : State) : Out :=
  s.onClause (fun c => c.bitOp2 d a b (fun x y => x &&& notBits c.ty.bits y))
/-- R116. `not`. -/
def execNot (d a : Operand) (s : State) : Out := s.onClause (fun c => c.bitOp1 d a (fun x => notBits c.ty.bits x))

/-- R117. `shl`: the exact a · 2^s through WriteInt. Beyond twice the width a larger s gives the same bits. -/
def execShl (d a b : Operand) (s : State) : Out :=
  s.onClause (fun c => c.alu EType.isAll d c.ty.wide (c.slots2 a b (fun x y =>
    writeInt c.sat c.ty (c.ty.intVal x * ((2 ^ Nat.min y (2 * c.ty.bits) : Nat) : Int)))))
/-- R117. `shr`. -/
def execShr (d a b : Operand) (s : State) : Out :=
  s.onClause (fun c => c.bitOp2 d a b (fun x y => x / 2 ^ Nat.min y c.ty.bits))
/-- R117. `sra`. -/
def execSra (d a b : Operand) (s : State) : Out :=
  s.onClause (fun c => c.bitOp2 d a b (fun x y =>
    wrapInt c.ty.bits (toSigned c.ty.bits x / ((2 ^ Nat.min y c.ty.bits : Nat) : Int))))

/-- A rotation of n bits to the left by less than n. -/
def rotBits (n x k : Nat) : Nat := (x * 2 ^ k + x / 2 ^ (n - k)) % 2 ^ n

/-- R117. `rotl`. -/
def execRotl (d a b : Operand) (s : State) : Out :=
  s.onClause (fun c => c.bitOp2 d a b (fun x y => rotBits c.ty.bits x (y % c.ty.bits)))
/-- R117. `rotr`. -/
def execRotr (d a b : Operand) (s : State) : Out :=
  s.onClause (fun c => c.bitOp2 d a b (fun x y => rotBits c.ty.bits x ((c.ty.bits - y % c.ty.bits) % c.ty.bits)))

/-- The set bits of an n-bit number, the lowest first. -/
def setBits (n x : Nat) : List Nat := (List.range n).filter (fun i => x.testBit i)

/-- R116. `clz`. -/
def execClz (d a : Operand) (s : State) : Out :=
  s.onClause (fun c => c.bitOp1 d a (fun x => if x = 0 then c.ty.bits else c.ty.bits - 1 - Nat.log2 x))
/-- R116. `ctz`. -/
def execCtz (d a : Operand) (s : State) : Out :=
  s.onClause (fun c => c.bitOp1 d a (fun x => (setBits c.ty.bits x).head?.getD c.ty.bits))
/-- R116. `popc`. -/
def execPopc (d a : Operand) (s : State) : Out :=
  s.onClause (fun c => c.bitOp1 d a (fun x => (setBits c.ty.bits x).length))

/-- The number whose set bits are those of a list. -/
def ofBits (l : List Nat) : Nat := l.foldl (fun acc i => acc + 2 ^ i) 0

/-- R116. `brev`. -/
def execBrev (d a : Operand) (s : State) : Out :=
  s.onClause (fun c => c.bitOp1 d a (fun x => ofBits ((setBits c.ty.bits x).map (fun i => c.ty.bits - 1 - i))))

/-- R118. The effective width w' of a field at an offset. -/
def fieldWidth (n o w : Nat) : Nat := if o < n then Nat.min w (n - o) else 0

/-- R118. `bfe`. -/
def execBfe (d a b : Operand) (s : State) : Out :=
  s.onClause (fun c => c.alu EType.isWord d c.ty.wide (c.slots2 a b (fun x y =>
    let o := y % 128
    let w := fieldWidth c.ty.bits o (y / 256 % 128)
    let f := x / 2 ^ o % 2 ^ w
    noFlag (if w = 0 then 0 else if c.ty.signed then wrapInt c.ty.bits (toSigned w f) else f))))

/-- R118. `bfi`. -/
def execBfi (d a b : Operand) (s : State) : Out :=
  s.onClause (fun c => c.alu EType.isWord d c.ty.wide (c.slots3 d a b (fun z x y =>
    let o := y % 128
    let w := fieldWidth c.ty.bits o (y / 256 % 128)
    noFlag (z - z / 2 ^ o % 2 ^ w * 2 ^ o + x % 2 ^ w * 2 ^ o))))

/-- R118. `bmsk`. -/
def execBmsk (d a b : Operand) (s : State) : Out :=
  s.onClause (fun c => c.alu EType.isWord d c.ty.wide (c.slots2 a b (fun x y =>
    noFlag (if x < c.ty.bits then (2 ^ fieldWidth c.ty.bits x y - 1) * 2 ^ x else 0))))

/-- R119. `bzi`: the low halves interleaved, a in the even bits. -/
def execBzi (d a b : Operand) (s : State) : Out :=
  s.onClause (fun c => c.alu EType.isWord d c.ty.wide (c.slots2 a b (fun x y =>
    noFlag (ofBits ((setBits (c.ty.bits / 2) x).map (fun i => 2 * i) ++
      (setBits (c.ty.bits / 2) y).map (fun i => 2 * i + 1))))))

/-- R119. The number of bits that `bsp3` and `bcp3` move. -/
def thirdBits (t : EType) : Nat := if t.wide then 21 else 10

/-- R119. `bsp3`. -/
def execBsp3 (d a : Operand) (s : State) : Out :=
  s.onClause (fun c => c.alu EType.isWord d c.ty.wide (c.slots1 a (fun x =>
    noFlag (ofBits ((setBits (thirdBits c.ty) x).map (fun i => 3 * i))))))
/-- R119. `bcp3`. -/
def execBcp3 (d a : Operand) (s : State) : Out :=
  s.onClause (fun c => c.alu EType.isWord d c.ty.wide (c.slots1 a (fun x =>
    noFlag (ofBits ((List.range (thirdBits c.ty)).filter (fun i => x.testBit (3 * i)))))))

/-- R115. The byte width of a type's element. -/
def EType.bytes (t : EType) : Nat := t.bits / 8

/-- R115. `lea`: an address, scaled by the type's byte width. -/
def execLea (d a b : Operand) (s : State) : Out :=
  s.onClause (fun c => c.alu (fun t => t != .t6 && t != .f4) d true (fun l =>
    noFlag (wrapInt 64 ((c.src true true a l : Int) + toSigned 32 (c.src false false b l) * (c.ty.bytes : Int)))))

/-- R112. `mov`: bit for bit. -/
def execMov (d a : Operand) (s : State) : Out :=
  s.onClause (fun c => c.alu EType.any d c.ty.wide (fun l => noFlag (c.arg a l)))

/-- R115. The sum of a function of the slots of two elements. -/
def slotSum (t : EType) (f : Int → Int → Int) (x y : Nat) : Int :=
  (List.range t.slots).foldl (fun acc j => acc + f (t.intVal (slotOf t x j)) (t.intVal (slotOf t y j))) 0

/-- R115. The packed integer types. -/
def EType.packedInt (t : EType) : Bool := t == .i8 || t == .n8 || t == .i16 || t == .n16

/-- R115. `dp4`. -/
def execDp4 (d a b : Operand) (s : State) : Out :=
  s.onClause (fun c => c.alu EType.packedInt d false (fun l =>
    noFlag (wrapInt 32 (slotSum c.ty (fun x y => x * y) (c.arg a l) (c.arg b l)))))
/-- R115. `sad`: the sum is written as n32. -/
def execSad (d a b : Operand) (s : State) : Out :=
  s.onClause (fun c => c.needType (fun t => t.packedInt || t == .i32 || t == .n32) (c.computeAs d false false (fun l =>
    noFlag (wrapInt 32 (slotSum c.ty (fun x y => ((x - y).natAbs : Int)) (c.arg a l) (c.arg b l))))))

/-- R115. `sat`: the whole element, read as i32 or i64, clamped to the range of the type. -/
def execSat (d a : Operand) (s : State) : Out :=
  s.onClause (fun c => c.alu EType.isInt d c.ty.wide (fun l =>
    let n := if c.ty.wide then 64 else 32
    let x := toSigned n (c.arg a l)
    if x < c.ty.minInt then (wrapInt n c.ty.minInt, fSATD)
    else if c.ty.maxInt < x then (wrapInt n c.ty.maxInt, fSATD)
    else (wrapInt n x, 0)))

end Sys2Proof.Machine
end

