-- ==== Sys2Proof/Machine/Revoke.lean ====
section
/-! DEFINITION. The end of a translation (R334): the accesses that were checked under it are performed, or stay bound to
its frame, and what the TLBs and the L1s keep of it goes; the copy on first store (R260, R262); a revocation by the driver. -/

namespace Sys2Proof.Machine

/-- R334. Performs the accesses in flight, of any context or of one, that a revocation concerns, each with those of its wave,
the oldest first. -/
def State.drain (s : State) (ctx : Option Nat) (p : LaneAccess → Bool) : State :=
  let mine := fun (a : Access) => match ctx with | some k => a.ctx == k | none => true
  let ws := ((s.dev.inflight.filter (fun a => mine a && a.lanes.any p)).map Access.w).eraseDups
  (s.dev.inflight.filter (fun a => ws.contains a.w)).foldl
    (fun s a => (s.performSome a.op (fun _ => true) 256).accessEnd a.op) s

/-- R334. An access whose parts that a revocation concerns stay bound to their old frame. -/
def Access.aged (a : Access) (p : LaneAccess → Bool) : Access :=
  { a with lanes := a.lanes.map (fun l => if p l then { l with old := true } else l) }

/-- Whether a part lies in a range of virtual addresses. -/
def LaneAccess.inRange (l : LaneAccess) (base n : Nat) : Bool :=
  (l.loc.global || l.loc.space == .fabric) && decide (base ≤ l.va.toNat % 2 ^ 48 ∧ l.va.toNat % 2 ^ 48 < base + n)

/-- R334. A clause that was checked before a revocation of the parts that a predicate names: its effects, and what it has
checked of its later instructions. -/
def Issue.aged (c : Issue) (p : LaneAccess → Bool) : Issue :=
  { c with
    effects := c.effects.map (fun e => match e with | .access a => .access (a.aged p) | x => x)
    checked := c.checked.map (fun x => { x with
      parts := x.parts.map (fun l => if p l then { l with old := true } else l) }) }

/-- R334. What was checked before a revocation, in any context or in one, and is not performed yet. -/
def State.age (s : State) (ctx : Option Nat) (p : LaneAccess → Bool) : State :=
  let mine := fun (i : Nat) => match ctx with | some k => i == k | none => true
  let clause := fun (c : Issue) => if mine (s.dev.ctxOf c.wave.id) then c.aged p else c
  { s with
    dev := { s.dev with inflight := s.dev.inflight.map (fun a => if mine a.ctx then a.aged p else a) }
    issue := s.issue.map clause
    held := s.held.map clause }

/-- R334. The end of the translations of a range of a context whose bytes lie in a frame. -/
def State.revokeFrame (s : State) (ctx base n : Nat) (sp : Space) (frame : Nat) : State :=
  let p := fun (l : LaneAccess) => l.loc.within sp frame n
  ((s.drain none p).age none p).mapDev (fun d => (d.tlbDrop ctx base n).dropL1Frame sp frame n)

/-- R334. The frames of the current version to which the translations of a range of a context lead: those that a translation
unit keeps, and those of the page table. -/
def Dev.framesOf (d : Dev) (ctx base n : Nat) : List (Loc × Nat) :=
  let kept := (d.tlbs.filter (fun e => e.ctx == ctx && decide (e.page < base + n ∧ base < e.page + 2 ^ e.bits))).flatMap (fun e =>
    if entryBit e.entry 59 then
      (List.range (2 ^ e.bits / 65536)).filterMap (fun i => (Leaf.mk e.entry e.entryAt e.bits (e.slotsAt (e.page + 65536 * i)) []).frame)
    else (Leaf.mk e.entry e.entryAt e.bits [] []).frame.toList)
  let walked := match d.ctx? ctx with
    | none => []
    | some x => ((List.range ((base + n + 65535) / 65536 - base / 65536)).map (fun i => (base / 65536 + i) * 65536)).filterMap
        (fun va => match d.walk x.root va with
          | .leaf l => l.frame
          | _ => none)
  (kept ++ walked).eraseDups

/-- R333, R334. Drops the lines of every L1 that hold bytes of the frames of a range of a context under the current version,
whatever their tags, and those that are tagged with the range. -/
def Dev.dropL1Range (d : Dev) (ctx base n : Nat) : Dev :=
  let d := (d.framesOf ctx base n).foldl (fun d f => d.dropL1Frame f.1.space f.1.addr f.2) d
  { d with cores := d.cores.map (fun c => { c with l1 := c.l1.filter (fun e =>
      !(e.ctx == ctx && decide (base < (e.va + 1) * 128 ∧ e.va * 128 < base + n))) }) }

/-- R334. The end of the translations of a range of a context: what was checked under them is performed, or stays bound to its
frame, and nothing of them is kept. -/
def State.revoke (s : State) (ctx base n : Nat) : State :=
  let p := fun (l : LaneAccess) => l.inRange base n
  ((s.drain (some ctx) p).age (some ctx) p).mapDev (fun d => (d.dropL1Range ctx base n).tlbDrop ctx base n)

/-- R334. A revocation by the driver begins: new accesses to the range are held until it ends. -/
def State.startRevocation (s : State) (r : Revocation) : State :=
  (s.revoke r.ctx r.base r.length).mapDev (fun d => { d with revoking := d.revoking ++ [r] })

/-- R334. Whether a range of a context is held by a revocation. -/
def Dev.frozen (d : Dev) (ctx va n : Nat) : Bool :=
  d.revoking.any (fun r => r.ctx == ctx && decide (va < r.base + r.length ∧ r.base < va + Nat.max 1 n))

/-- R334. Whether an access that was checked before a revocation is still to be performed, in flight or in a clause. -/
def State.agedLeft (s : State) (r : Revocation) : Bool :=
  let left := fun (l : LaneAccess) => l.old && l.inRange r.base r.length
  s.dev.inflight.any (fun a => a.ctx == r.ctx && a.lanes.any left) ||
    (s.issue.toList ++ s.held).any (fun c => s.dev.ctxOf c.wave.id == r.ctx &&
      (c.effects.any (fun e => match e with | .access a => a.lanes.any left | _ => false) ||
        c.checked.any (fun x => x.left ≤ c.words.length && x.parts.any left)))

/-- R260. What the check of a store makes of its page: nothing or a copy, with the state; a version fault; a fault of the
pool; a recall of the page's right, which comes first (R309); or the drop of the record's write (R343). -/
inductive FirstStore where
  | nothing (s : State)
  | noSlot
  | noFrame
  | recallFirst (s : State)
  | dropped (s : State)
  deriving DecidableEq

/-- R260. The gap that a copy leaves before its version, if steps lie between. -/
def gapBefore (record : Nat) (cur new : VSlot) : List Gap :=
  if cur.hi + 1 < new.lo then [⟨record, cur.hi + 1, new.lo⟩] else []

/-- R310, R365. A frame that is copied takes along what of it is lost or fails; what lay in the new frame is gone (log 68). -/
def Dev.copyLosses (d : Dev) (sp : Space) (old new n : Nat) : Dev :=
  let moved := fun (l : Loc) => if l.within sp old n then [{ l with addr := new + (l.addr - old) }] else []
  { d with
    lost := d.lost.filter (fun l => !l.within sp new n) ++ d.lost.flatMap moved
    failing := d.failing.filter (fun f => match f with | .memory a | .l2 _ a => !a.within sp new n | _ => true) ++
      (d.failing.flatMap (fun f => match f with
        | .memory a | .l2 _ a => if (d.sourceLoss a).isSome then (moved a).map Granule.memory else []
        | _ => [])).eraseDups }

/-- R235, R246, R260, R309, R334. The copy on first store of the page of an address, when its current version is
stamped. -/
def State.firstStore (s : State) (c : Context) (l : Leaf) (va : Nat) : FirstStore :=
  if !entryBit l.entry 59 then .nothing s
  else
    let at_ := l.record va
    match s.dev.record at_ with
    | cur :: rest =>
      if !(cur.valid && cur.stamped) then .nothing s
      else if (rest.filter VSlot.valid).length = 3 then .noSlot
      else match s.dev.rightCase c.index (va / 65536) false with
        | .waits ask => .recallFirst (if ask then s.mapDev (fun d => d.recallPage c.index (va / 65536)) else s)
        | _ =>
          match s.poolTake c (if cur.target = 0 then 0 else 2), s.dev.refusedBy firmwareMaster ⟨.hbm, at_⟩ 64 true with
          | none, _ => .noFrame
          | some _, some target => .dropped (s.dropsRequest c.index target)
          | some (frame, s), none =>
            let sp := tierSpace cur.target
            let new : VSlot := ⟨true, false, cur.target, frame / 65536 * 65536, 0, s.dev.step c.index⟩
            let s := s.revokeFrame c.index (va / 65536 * 65536) 65536 sp cur.frame
            let s := s.mapDev (fun d => ((d.setTier sp ((d.tier sp).copyRange cur.frame new.frame 65536)).dirWriteRange sp
              new.frame 65536).copyLosses sp cur.frame new.frame 65536)
            let s := s.storeAt .other ⟨.hbm, at_⟩ (recordBytes (new :: cur :: rest))
            let s := s.mapDev (fun d => { d with gaps := d.gaps ++ gapBefore at_ cur new })
            .nothing (s.mapWaves (fun w => { w with resv := w.resv.filter (fun r =>
              !(r.line.within sp cur.frame 65536)) }))
    | [] => .nothing s

end Sys2Proof.Machine
end

