-- ==== Sys2Proof/Machine/MemOps.lean ====
section
/-! DEFINITION. The memory instructions 0xB0 to 0xCF and 0xF0 (R225 to R247), with `cond` and `enq` (R285, R286): the
addresses of the lanes, their checks in the order of R228, and the accesses that the clause sends when it ends. -/

namespace Sys2Proof.Machine

/-- R196, R245. The space that an opcode names; `ldv` names a step as well. -/
inductive MemSpace where
  | global | version | scratch | cluster | priv | const | fabric
  deriving DecidableEq, Repr

/-- R228, R338. A lane's failed check: its place in the order, the class and code, the address, and for a first touch an
address of the page that is to be filled. -/
structure LaneBad where
  order : Nat
  cls : Nat
  code : Nat
  addr : W64
  touch : Option Nat
  deriving DecidableEq, Repr

/-- R225, R226. The address of a lane. -/
def Issue.addrOf (c : Issue) (wide : Bool) (a b : Operand) (l : Nat) : Int :=
  let off := toSigned 32 (c.src false true b l)
  if wide then ((c.src true true a l : Int) + off) % (2 ^ 64 : Nat) else (c.src false true a l : Int) + off

/-- R226. The size of the issuing group's scratchpad. -/
def State.scratchSize (s : State) (c : Issue) : Nat :=
  ((s.dev.group? c.wave.id.launch c.wave.id.group).map Group.scratchSize).getD 0

/-- R28. The member group of the issuing wave's cluster with an index. -/
def Dev.member? (d : Dev) (id : WaveId) (j : Nat) : Option Group :=
  match d.group? id.launch id.group with
  | none => none
  | some g => d.groups.find? (fun h => h.launch == id.launch && h.cluster == g.cluster && h.member == j)

/-- A lane's part at a place, without values. -/
def laneAt (l : Nat) (loc : Loc) (va : Nat) : LaneAccess :=
  { lane := l, loc := loc, va := w64 va, value := 0, value2 := 0, copy := none, version := none, old := false }

/-- R335. The translation unit of a wave's cluster. -/
def Wave.unit (w : Wave) : Option TransUnit := some (.cluster (hwOf w.core))

/-- R226, R336, R339. The global check of an address, which is reported in full: the part, with the leaf that may hold
versions of its page, which a page that leads on to another address does not (R329). -/
def State.globalCheck (s : State) (c : Issue) (need : Need) (l va : Nat) (full : W64) :
    Except LaneBad (LaneAccess × Option Leaf) :=
  if 2 ^ 48 ≤ va then .error ⟨2, 5, 0x06, full, none⟩
  else match s.dev.ctx? (s.dev.ctxOf c.wave.id) with
    | none => .error ⟨2, 5, 0x01, full, none⟩
    | some x =>
      match s.dev.xlate c.wave.unit x 0 need va with
      | .bad code touch at_ => .error ⟨2, 5, code, full, if touch then some at_ else none⟩
      | .ok loc leaf at_ => .ok ({ laneAt l loc va with va := full }, if at_ = va then some leaf else none)

/-- R245, R246. The version check of an `ldv`: the named step, and the version that holds it. -/
def State.versionCheck (s : State) (c : Issue) (a : Nat) (la : LaneAccess) (leaf : Option Leaf) :
    Except LaneBad LaneAccess :=
  let ctx := s.dev.ctxOf c.wave.id
  let step := s.dev.step ctx
  let va := a % 2 ^ 48
  let t : Int := (step : Int) - ((step : Int) - ((a / 2 ^ 48 : Nat) : Int)) % 65536
  let bad := fun code => Except.error ⟨3, 6, code, w64 a, none⟩
  if t < 0 then bad 0x04
  else if t = step then .ok la
  else match leaf.map (fun leaf => (leaf, s.dev.versionAt leaf va step t.toNat)) with
    | none => bad 0x03
    | some (_, .error code) => bad code
    | some (leaf, .ok frame) =>
      if s.dev.leafGrants leaf ctx 0 frame 65536 false then
        .ok { la with loc := { frame with addr := frame.addr + va % 65536 }, version := some t.toNat }
      else .error ⟨2, 5, 0x08, w64 a, none⟩

/-- R303, R304. The local check of a fabric address; an address of the issuing device itself takes the global path. -/
def State.fabricCheck (s : State) (c : Issue) (need : Need) (l a : Nat) : Except LaneBad LaneAccess :=
  let bad := fun code => Except.error ⟨2, 5, code, w64 a, none⟩
  let dest := fabricDest a
  if a / 2 ^ 57 ≠ 0 then bad 0x09
  else if dest = s.dev.devId then (s.globalCheck c need l (a % 2 ^ 48) (w64 a)).map Prod.fst
  else match s.dev.ctx? (s.dev.ctxOf c.wave.id) with
    | none => bad 0x09
    | some x =>
      match s.dev.outboundCode x 0 dest need.writes with
      | some code => bad code
      | none => .ok { laneAt l ⟨.fabric, a⟩ a with va := w64 a }

/-- R226 to R228. The checks 2 to 4 of a lane but for copies on first store: alignment, range, translation and
permission, version. DESIGN CHOICE (log 82): the index of a member group that a short last cluster does not have is out of
range, like one beyond the members of every cluster; R28 names no outcome. -/
def State.laneCheck (s : State) (c : Issue) (sp : MemSpace) (need : Need) (width l : Nat) (a : Int) :
    Except LaneBad LaneAccess :=
  let out := Except.error ⟨2, 5, 0x06, BitVec.ofInt 64 a, none⟩
  let within := fun (size : Nat) => decide (0 ≤ a ∧ a + (width : Int) ≤ (size : Int))
  if a % (width : Int) ≠ 0 then .error ⟨1, 4, 0x01, BitVec.ofInt 64 a, none⟩
  else match sp with
    | .global => (s.globalCheck c need l a.toNat (w64 a.toNat)).map Prod.fst
    | .version =>
      match s.globalCheck c need l (a.toNat % 2 ^ 48) (w64 a.toNat) with
      | .error e => .error e
      | .ok (la, leaf) => s.versionCheck c a.toNat la leaf
    | .fabric => s.fabricCheck c need l a.toNat
    | .scratch =>
      if within (s.scratchSize c) then .ok (laneAt l ⟨.scratch c.wave.id.launch c.wave.id.group, a.toNat⟩ a.toNat)
      else out
    | .cluster =>
      if a < 0 ∨ 2 ^ 24 ≤ a.toNat then out
      else match s.dev.member? c.wave.id (a.toNat / 2 ^ 20) with
        | none => out
        | some g =>
          if a.toNat % 2 ^ 20 + width ≤ g.scratchSize then .ok (laneAt l ⟨.scratch g.launch g.index, a.toNat % 2 ^ 20⟩ a.toNat)
          else out
    | .priv =>
      if within 16384 then .ok (laneAt l ⟨.priv c.wave.id, 16384 * l + a.toNat⟩ a.toNat) else out
    | .const =>
      let size := ((s.dev.launch? c.wave.id.launch).map Launch.constSize).getD 0
      if within size then .ok (laneAt l ⟨.const c.wave.id.launch, a.toNat⟩ a.toNat) else out

/-- R209. Whether an L1 of a wave holds the line that a part reads. -/
def State.l1Holds (s : State) (w : WaveId) (ctx : Nat) (la : LaneAccess) : Bool :=
  (s.dev.l1Slices w).any (fun i => (s.dev.core i).l1.any (fun e =>
    e.ctx == ctx && e.va == la.va.toNat % 2 ^ 48 / 128 && e.version == la.version))

/-- R365. The code of the data loss that an access of a part meets: a load that no L1 serves and an atomic read it, a store
covers it in part. -/
def State.partLoss (s : State) (c : Issue) (need : Need) (width : Nat) (la : LaneAccess) : Option Nat :=
  let die := some (dieOf c.wave.core)
  match need with
  | .write => s.dev.storeLoss die la.loc width
  | .read => if la.loc.global && s.l1Holds c.wave.id (s.dev.ctxOf c.wave.id) la then none else s.dev.readLoss die la.loc width
  | _ => s.dev.readLoss die la.loc width

/-- R218, R310, R365, R366. The last checks of a lane: range locks of the context's entries, lines that are lost, and
granules that fail. DESIGN CHOICE (log 83): an access to a fabric address of the issuing device itself is not checked against
the entries; R218 names the global accesses, and R303 performs this one through the global path. -/
def State.lastCheck (s : State) (c : Issue) (sp : MemSpace) (need : Need) (width : Nat) (la : LaneAccess) :
    Option LaneBad :=
  let ctx := s.dev.ctxOf c.wave.id
  let va := la.va.toNat % 2 ^ 48
  let locked := match sp with
    | .global => s.dev.lockHit ctx none need.writes va width
    | .version => s.dev.lockHit ctx la.version false va width
    | _ => false
  if locked then some ⟨4, 7, 0x01, la.va, none⟩
  else if s.dev.lost.contains la.loc.line && !(need == .read && s.l1Holds c.wave.id ctx la) then some ⟨5, 11, 0x07, la.va, none⟩
  else (s.partLoss c need width la).map (fun code => ⟨5, 11, code, la.va, none⟩)

/-- R366. Of the failures of one class, the one whose code and address are reported: of the lowest lane, and for lost data
of the lowest address. -/
def reported (o : Nat) : List (Nat × LaneBad) → Option LaneBad
  | [] => none
  | b :: r => some (if o = 5 then r.foldl (fun m x => if x.2.addr.toNat < m.addr.toNat then x.2 else m) b.2 else b.2)

/-- R228, R338. What failing lanes come to: the first class in the order, with every lane that fails it; a fill if it is
translation and every lane's fault is a first touch. -/
def stopOf (scalar writes : Bool) (bads : List (Nat × LaneBad)) : Option Stop :=
  match bads with
  | [] => none
  | _ =>
    let o := bads.foldl (fun m b => Nat.min m b.2.order) 9
    let fs := bads.filter (fun b => b.2.order == o)
    let mask := if scalar then 0 else maskOf (fs.map Prod.fst)
    if o = 2 ∧ fs.all (fun b => b.2.touch.isSome) then
      some (.fill mask (fs.map (fun b => ⟨b.1, b.2.addr, b.2.touch.getD 0, writes⟩)))
    else (reported o fs).map (fun b => .fault b.cls b.code mask b.addr)

/-- The failures of the lanes that are not helper lanes (R25). -/
def realBads (helper : Lanes) (rs : List (Nat × Except LaneBad LaneAccess)) : List (Nat × LaneBad) :=
  rs.filterMap (fun r => match r.2 with
    | .error e => if helper.getLsbD r.1 then none else some (r.1, e)
    | .ok _ => none)

/-- R260, R309. The copies on first store of the pages of some addresses, in ascending lane order; what fails is added. A
page whose right another device holds is recalled first. -/
def State.firstStores (s : State) (c : Issue) : List LaneAccess → State × Except Stop (List (Nat × LaneBad))
  | [] => (s, .ok [])
  | la :: r =>
    let bad := fun (b : LaneBad) =>
      let t := s.firstStores c r
      (t.1, t.2.map (fun l => (la.lane, b) :: l))
    match s.dev.ctx? (s.dev.ctxOf c.wave.id) with
    | none => s.firstStores c r
    | some x =>
      match s.dev.xlate c.wave.unit x 0 .write (la.va.toNat % 2 ^ 48) with
      | .ok _ leaf va =>
        (match s.firstStore x leaf va with
        | .nothing s' => s'.firstStores c r
        | .recallFirst s' => (s', .error (.notReady (.right (va / 65536))))
        | .dropped s' => (s', .error (.fault 5 0x08 (bitAt la.lane) la.va))
        | .noSlot => bad ⟨3, 6, 0x05, la.va, none⟩
        | .noFrame => bad ⟨2, 5, 0x07, la.va, none⟩)
      | .bad _ _ _ => s.firstStores c r

/-- The virtual addresses that a translation unit translates among some addresses of a space. -/
def Dev.paged (d : Dev) (sp : MemSpace) (addrs : List Int) : List Nat :=
  (addrs.filter (fun (a : Int) => match sp with
    | .global => decide (0 ≤ a ∧ a < (2 ^ 48 : Nat))
    | .version => true
    | .fabric => fabricDest a.toNat == d.devId
    | _ => false)).map (fun (a : Int) => a.toNat % 2 ^ 48)

/-- R335. The translations of the addresses of some lanes come into the TLB of the wave's cluster. -/
def State.fillTlb (s : State) (c : Issue) (sp : MemSpace) (addrs : List Int) : State :=
  (s.dev.paged sp addrs).foldl (fun s va => s.tlbFill (.cluster (hwOf c.wave.core)) (s.dev.ctxOf c.wave.id) va) s

/-- R49. The access of the instruction that the clause has come to, checked with those of the whole clause: it is not checked
anew once a fence of the clause has sent what stands before it (log 14). -/
def Issue.recorded (c : Issue) (addrs : List (Nat × Int)) : Option CheckedAccess :=
  if c.flushed then c.checked.find? (fun x => x.left == c.words.length && x.addrs == addrs) else none

/-- R49. While the checks of the whole clause are made, an access that has passed them is kept. -/
def State.record (s : State) (addrs : List (Nat × Int)) (parts : List LaneAccess) (zero : List Nat) : State :=
  { s with issue := s.issue.map (fun c =>
      if c.phase = .checking then { c with checked := c.checked ++ [⟨c.words.length, addrs, parts, zero⟩] } else c) }

/-- R228. The checks of an access of some lanes: the parts of the lanes that pass, and the helper lanes that do not. `extra` is
a second address of a lane to check (R231); the checks for lost data may be left to the reader. -/
def State.checkNow (s : State) (losses : Bool) (c : Issue) (sp : MemSpace) (need : Need) (width : Nat) (scalar : Bool)
    (lanes : List Nat) (addr : Nat → Int) (extra : Nat → Option LaneBad) :
    State × Except Stop (List LaneAccess × List Nat) :=
  let s := s.fillTlb c sp (lanes.map addr)
  let helper : Lanes := if scalar then 0 else c.wave.helper
  let check := fun (s : State) (l : Nat) =>
    match s.laneCheck c sp need width l (addr l), extra l with
    | .error e, some x => (l, Except.error (if x.order < e.order then x else e))
    | .ok _, some x => (l, .error x)
    | r, none => (l, r)
  let rs := lanes.map (check s)
  match stopOf scalar need.writes (realBads helper rs) with
  | some e => (s, .error e)
  | none =>
    let passed := rs.filterMap (fun r => match r.2 with | .ok la => some la | .error _ => none)
    let writers := passed.filter (fun la => need.writes && la.loc.global && !helper.getLsbD la.lane)
    match s.firstStores c writers with
    | (s, .error e) => (s, .error e)
    | (s, .ok bads) =>
      match stopOf scalar true bads with
      | some e => (s, .error e)
      | none =>
        let s := if writers.isEmpty then s else s.fillTlb c sp (lanes.map addr)
        let rs := lanes.map (fun l => match check s l with
          | (l, .ok la) =>
            (match (s.lastCheck c sp need width la).filter (fun e => losses || e.order != 5) with
            | some e => (l, Except.error e)
            | none => (l, .ok la))
          | r => r)
        match stopOf scalar need.writes (realBads helper rs) with
        | some e => (s, .error e)
        | none =>
          (s, .ok (rs.filterMap (fun r => match r.2 with | .ok la => some la | .error _ => none),
            rs.filterMap (fun r => match r.2 with | .error _ => some r.1 | .ok _ => none)))

/-- R49, R228, R334. All the checks of an access of some lanes, unless its clause has passed them: it waits while a revocation
holds new accesses to one of its pages. -/
def State.checkLanes (s : State) (losses : Bool) (c : Issue) (sp : MemSpace) (need : Need) (width : Nat) (scalar : Bool)
    (lanes : List Nat) (addr : Nat → Int) (extra : Nat → Option LaneBad) :
    State × Except Stop (List LaneAccess × List Nat) :=
  let addrs := lanes.map (fun l => (l, addr l))
  let ctx := s.dev.ctxOf c.wave.id
  match c.recorded addrs with
  | some x => (s, .ok (x.parts, x.zero))
  | none =>
    if !c.flushed && (s.dev.paged sp (lanes.map addr)).any (fun va => s.dev.frozen ctx va width) then
      (s, .error (.notReady (.revocation ctx)))
    else match s.checkNow losses c sp need width scalar lanes addr extra with
      | (s, .error e) => (s, .error e)
      | (s, .ok r) => (s.record addrs r.1 r.2, .ok r)

/-- R228. All the checks of an access of some lanes of a wave. -/
def State.checkAccess (s : State) (c : Issue) (sp : MemSpace) (need : Need) (width : Nat) (scalar : Bool)
    (lanes : List Nat) (addr : Nat → Int) (extra : Nat → Option LaneBad) :
    State × Except Stop (List LaneAccess × List Nat) :=
  s.checkLanes true c sp need width scalar lanes addr extra

/-- R312. The charges of some fabric parts: for each destination, the distinct 256-byte blocks. -/
def charges (parts : List LaneAccess) : List (Nat × Nat) :=
  let far := (parts.filter (fun la => la.loc.space == .fabric)).map (fun la => la.loc.addr / 256)
  let blocks := far.eraseDups
  ((blocks.map (fun b => b / 2 ^ 40 % 512)).eraseDups).map (fun d =>
    (d, (blocks.filter (fun b => b / 2 ^ 40 % 512 == d)).length))

/-- R45, R49, R61. The access of an instruction joins what the clause sends: its flag is set if it is long-latency, and
its fabric writes are charged. -/
def Issue.issueAccess (c : Issue) (ctx op opcode : Nat) (kind : AccessKind) (width : Nat) (lanes : List LaneAccess)
    (dest : Dest) (results : List (Nat × W64)) : Issue :=
  let late := lateOp opcode
  let a : Access :=
    { op := op, ctx := ctx, w := c.wave.id, path := c.path, clause := c.header, kind := kind, width := width,
      mtype := c.pth.mode.extractLsb' 0 4, lanes := lanes, dest := dest,
      flag := if late then some c.nextFlag else none, counter := counterOf opcode, fp := 0, results := results,
      halves := [], failed := [] }
  (if late then c.takeFlag op else c).send (.access a)

/-- R312. What a charge asks of an allowance beyond what the clause has paid already. -/
def Issue.excess (c : Issue) (x : Nat × Nat) : Nat := c.charged x.1 + x.2 - Nat.max (c.prepaid x.1) (c.charged x.1)

/-- R312, R313. Charges the fabric writes of some parts, unless an allowance does not cover the clause: then its path is
parked on that destination. While the checks of the clause are made, nothing is taken. -/
def State.charge (s : State) (c : Issue) (parts : List LaneAccess) : State × Except Stop Issue :=
  let cs := charges parts
  let checking : Bool := c.phase == .checking
  match cs.find? (fun x => decide (s.dev.allowance x.1 < (if checking then c.charged x.1 + x.2 else c.excess x))) with
  | some x => (s, .error (.notReady (.allowance x.1 (c.charged x.1 + x.2))))
  | none =>
    let s := if checking then s else s.mapDev (fun d => cs.foldl (fun d x => d.spend x.1 (c.excess x)) d)
    (s, .ok { c with effects := c.effects ++ cs.map (fun x => Effect.allowance x.1 x.2) })

/-- R227. The access width of the mode's type. -/
def Issue.width (c : Issue) : Nat := if c.ty.wide then 8 else 4

/-- R226. Whether a space's address is a 64-bit operand. -/
def MemSpace.wideAddr : MemSpace → Bool
  | .global | .version | .fabric => true
  | _ => false

/-- The lanes of an access: the active ones, or for a scalar load the lowest lane of the path (R229). -/
def Issue.accessLanes (c : Issue) (scalar : Bool) : List Nat :=
  if scalar then [(lowestLane c.wave.width c.pth.mask).getD 0] else lanesOf c.wave.width c.active

/-- R229. Whether a destination makes a scalar load. -/
def scalarDest : Operand → Bool
  | .k _ => true
  | _ => false

/-- R228 to R230. A load: its checks, and the access that will write its destination. -/
def State.loadOp (s : State) (c : Issue) (opcode : Nat) (sp : MemSpace) (kind : AccessKind) (d a b : Operand) :
    State × Except Stop Issue :=
  let scalar := scalarDest d
  match s.checkAccess c sp .read c.width scalar (c.accessLanes scalar) (c.addrOf sp.wideAddr a b) (fun _ => none) with
  | (s, .error e) => (s, .error e)
  | (s, .ok (parts, zero)) =>
    let c := s.issue.getD c
    let (op, s) := s.fresh
    (s, .ok (c.issueAccess (s.dev.ctxOf c.wave.id) op opcode kind c.width parts (c.destOf d c.ty.wide)
      (zero.map (fun l => (l, 0)))))

/-- R225, R228, R230. A store: its checks, its charge, and the access that will write memory; helper lanes store
nothing (R25). -/
def State.storeOp (s : State) (c : Issue) (opcode : Nat) (sp : MemSpace) (d a b : Operand) : State × Except Stop Issue :=
  let lanes := lanesOf c.wave.width (c.active &&& ~~~c.wave.helper)
  match s.checkAccess c sp .write c.width false lanes (c.addrOf sp.wideAddr a b) (fun _ => none) with
  | (s, .error e) => (s, .error e)
  | (s, .ok (parts, _)) =>
    let c := s.issue.getD c
    let parts := parts.map (fun la => { la with value := w64 (c.src c.ty.wide false d la.lane) })
    match (if sp = .fabric then s.charge c parts else (s, .ok c)) with
    | (s, .error e) => (s, .error e)
    | (s, .ok c) =>
      let (op, s) := s.fresh
      (s, .ok (c.issueAccess (s.dev.ctxOf c.wave.id) op opcode .store c.width parts .none []))

/-- R230. `ldg`. -/
def execLdg (d a b : Operand) (s : State) : Out := s.onIssue (fun s c => s.loadOp c 0xB0 .global .load d a b)
/-- R230. `stg`. -/
def execStg (d a b : Operand) (s : State) : Out := s.onIssue (fun s c => s.storeOp c 0xB1 .global d a b)
/-- R230. `lds`. -/
def execLds (d a b : Operand) (s : State) : Out := s.onIssue (fun s c => s.loadOp c 0xB4 .scratch .load d a b)
/-- R230. `sts`. -/
def execSts (d a b : Operand) (s : State) : Out := s.onIssue (fun s c => s.storeOp c 0xB5 .scratch d a b)
/-- R28, R230. `ldcl`. -/
def execLdcl (d a b : Operand) (s : State) : Out := s.onIssue (fun s c => s.loadOp c 0xB6 .cluster .load d a b)
/-- R28, R230. `stcl`. -/
def execStcl (d a b : Operand) (s : State) : Out := s.onIssue (fun s c => s.storeOp c 0xB7 .cluster d a b)
/-- R226, R230. `ldp`. -/
def execLdp (d a b : Operand) (s : State) : Out := s.onIssue (fun s c => s.loadOp c 0xB8 .priv .load d a b)
/-- R226, R230. `stp`. -/
def execStp (d a b : Operand) (s : State) : Out := s.onIssue (fun s c => s.storeOp c 0xB9 .priv d a b)
/-- R226, R230. `ldk`. -/
def execLdk (d a b : Operand) (s : State) : Out := s.onIssue (fun s c => s.loadOp c 0xBA .const .load d a b)
/-- R230, R305. `ldf`. -/
def execLdf (d a b : Operand) (s : State) : Out := s.onIssue (fun s c => s.loadOp c 0xBB .fabric .load d a b)
/-- R230, R312. `stf`. -/
def execStf (d a b : Operand) (s : State) : Out := s.onIssue (fun s c => s.storeOp c 0xBC .fabric d a b)
/-- R245, R246. `ldv`. -/
def execLdv (d a b : Operand) (s : State) : Out := s.onIssue (fun s c => s.loadOp c 0xBD .version .load d a b)
/-- R234. `ldr`. -/
def execLdr (d a b : Operand) (s : State) : Out := s.onIssue (fun s c => s.loadOp c 0xBF .global .ldr d a b)

/-- R231, R365. The check of the scratchpad address of an asynchronous copy; one that reads the scratchpad may meet a data
loss there. -/
def State.copyCheck (s : State) (c : Issue) (d : Operand) (need : Need) (l : Nat) : Option LaneBad :=
  let p := c.src false true d l
  if p % 16 ≠ 0 then some ⟨1, 4, 0x01, w64 p, none⟩
  else if s.scratchSize c < p + 16 then some ⟨2, 5, 0x06, w64 p, none⟩
  else if need.writes then
    (s.dev.readLoss none ⟨.scratch c.wave.id.launch c.wave.id.group, p⟩ 16).map (fun code => ⟨5, 11, code, w64 p, none⟩)
  else none

/-- R231. The four words of a lane's part of an asynchronous copy to or from a scratchpad address. -/
def copyWords (la : LaneAccess) (scratch : Nat) : List LaneAccess :=
  (List.range 4).map (fun i => { la with
    loc := { la.loc with addr := la.loc.addr + 4 * i }, va := la.va + BitVec.ofNat 64 (4 * i), value := w64 (scratch + 4 * i) })

/-- R231. An asynchronous copy of 16 bytes per active real lane, word by word. -/
def State.copyOp (s : State) (c : Issue) (opcode : Nat) (need : Need) (kind : AccessKind) (d a b : Operand) :
    State × Except Stop Issue :=
  let lanes := lanesOf c.wave.width (c.active &&& ~~~c.wave.helper)
  match s.checkAccess c .global need 16 false lanes (c.addrOf true a b) (s.copyCheck c d need) with
  | (s, .error e) => (s, .error e)
  | (s, .ok (parts, _)) =>
    let c := s.issue.getD c
    let (op, s) := s.fresh
    let words := parts.flatMap (fun la => copyWords la (c.src false true d la.lane))
    (s, .ok (c.issueAccess (s.dev.ctxOf c.wave.id) op opcode kind 4 words .none []))

/-- R231. `ldgs`. -/
def execLdgs (d a b : Operand) (s : State) : Out := s.onIssue (fun s c => s.copyOp c 0xB2 .read .ldgs d a b)
/-- R231. `stsg`. -/
def execStsg (d a b : Operand) (s : State) : Out := s.onIssue (fun s c => s.copyOp c 0xB3 .write .stsg d a b)

/-- R199. Whether a wave has an access to a line that is not performed yet, in flight or in its clause: a store or an atomic,
or a load, which may still return a newer value. -/
def State.ownOpen (s : State) (c : Issue) (line : Loc) : Bool :=
  let on := fun (a : Access) => a.lanes.any (fun l => l.loc.line == line && l.copy.isNone)
  s.dev.inflight.any (fun a => a.w == c.wave.id && on a) ||
    c.effects.any (fun e => match e with | .access a => on a | _ => false)

/-- R240. The copy of a line in a wave's die from which an early load may take its data: none before the wave's own accesses
to the line are performed, and none with a failing granule (R365). -/
def State.earlyCopy (s : State) (c : Issue) (line : Loc) : Option L2Copy :=
  let fails := s.dev.failing.any (fun f => match f with
    | .l2 k a => k == dieOf c.wave.core && a.line == line
    | _ => false)
  if fails || s.ownOpen c line then none
  else s.dev.l2.find? (fun x => x.die == dieOf c.wave.core && x.line == line)

/-- R212, R240. The early parts of an early load, line by line in the order of the lowest lane: the lanes of a line with
a local copy take their data from it and an entry is recorded, while the wave and the core have room; the entries are numbered
from a number on. A line that the die holds in M or E confirms its entry at once. -/
def State.earlyLines (s : State) (fabric : Bool) (width : Nat) (helper : Lanes) :
    Nat → List Loc → Issue → List LaneAccess → Issue × List LaneAccess
  | _, [], c, parts => (c, parts)
  | id, line :: r, c, parts =>
    let onCore := (s.dev.waves.filter (fun w => w.core == c.wave.core && w.id != c.wave.id)).foldl
      (fun n w => n + (((s.waveNow w.id).map (fun x => x.watch.length)).getD 0)) c.wave.watch.length
    let mine := fun (la : LaneAccess) => la.loc.line == line && !helper.getLsbD la.lane
    match s.earlyCopy c line with
    | some copy =>
      if c.wave.watch.length < 32 ∧ onCore < 256 then
        let data := if copy.valid then s.dev.peek line 128 else copy.data
        let sure := copy.state == .modified || copy.state == .exclusive
        let lanes := parts.filter mine
        let e : WatchEntry :=
          { id := id, fabric := fabric, line := line, va := ((lanes.head?.map LaneAccess.va).getD 0), seq := copy.seq
            set := c.wave.wset, lanes := maskOf (lanes.map LaneAccess.lane), state := if sure then .confirmed else .pending }
        let parts := parts.map (fun la => if mine la then
          { la with copy := some (w64 (leNat ((data.drop (la.loc.addr % 128)).take width))) } else la)
        s.earlyLines fabric width helper (id + 1) r (c.mapWave (fun w => { w with watch := w.watch ++ [e] })) parts
      else s.earlyLines fabric width helper id r c parts
    | none => s.earlyLines fabric width helper id r c parts

/-- R199. A lane that has taken data early leaves no older copy of its line in the L1s of its wave. -/
def State.dropEarly (s : State) (w : WaveId) (parts : List LaneAccess) : State :=
  let slices := s.dev.l1Slices w
  let lines := ((parts.filter (fun la => la.copy.isSome)).map (fun la => la.loc.line)).eraseDups
  s.mapDev (fun d => lines.foldl (fun d line => slices.foldl (fun d i => d.mapCore i (fun c => c.l1Drop line)) d) d)

/-- R240, R305. An early load has recorded entries in its clause: their numbers are taken, and those that wait for a remote home
are asked for as the instruction issues. -/
def State.tookEntries (s : State) (c : Issue) (old : Nat) : State × Issue :=
  let new := c.wave.watch.drop old
  let s := { s.mapDev (fun d => { d with nextId := d.nextId + new.length }) with issue := some c }
  let s := if c.phase = .checking then s
    else (new.filter (fun e => e.fabric && e.state == .pending)).foldl (fun s e => s.askVerdict c.wave.id e) s
  (s, s.issue.getD c)

/-- R240, R244. An early load; in deterministic mode an ordinary one. -/
def State.earlyOp (s : State) (c : Issue) (opcode : Nat) (fabric : Bool) (d a b : Operand) :
    State × Except Stop Issue :=
  let sp : MemSpace := if fabric then .fabric else .global
  match s.checkAccess c sp .read c.width false (c.accessLanes false) (c.addrOf true a b) (fun _ => none) with
  | (s, .error e) => (s, .error e)
  | (s, .ok (parts, zero)) =>
    let c := s.issue.getD c
    let far := fun (la : LaneAccess) => if fabric then la.loc.space == .fabric else la.loc.global
    let lines := ((parts.filter (fun la => far la && !c.wave.helper.getLsbD la.lane)).map
      (fun la => la.loc.line)).eraseDups
    let r := if s.dev.det c.wave.id then (c, parts)
      else s.earlyLines fabric c.width c.wave.helper s.dev.nextId lines c parts
    let t := (s.dropEarly c.wave.id r.2).tookEntries r.1 c.wave.watch.length
    let (op, s) := t.1.fresh
    (s, .ok (t.2.issueAccess (s.dev.ctxOf c.wave.id) op opcode .load c.width r.2 (c.destOf d c.ty.wide)
      (zero.map (fun l => (l, 0)))))

/-- R240. `lde`. -/
def execLde (d a b : Operand) (s : State) : Out := s.onIssue (fun s c => s.earlyOp c 0xBE false d a b)
/-- R240. `lfe`. -/
def execLfe (d a b : Operand) (s : State) : Out := s.onIssue (fun s c => s.earlyOp c 0xF0 true d a b)

/-- R234, R25. `stcn`: a helper lane writes 0. -/
def execStcn (d a b : Operand) (s : State) : Out :=
  s.onIssue (fun s c =>
    let lanes := lanesOf c.wave.width (c.active &&& ~~~c.wave.helper)
    match s.checkAccess c .global .write c.width false lanes (c.addrOf true a b) (fun _ => none) with
    | (s, .error e) => (s, .error e)
    | (s, .ok (parts, _)) =>
      let c := s.issue.getD c
      let (op, s) := s.fresh
      let parts := parts.map (fun la => { la with value := w64 (c.src c.ty.wide false d la.lane) })
      let zero := (lanesOf c.wave.width (c.active &&& c.wave.helper)).map (fun l => (l, (0 : W64)))
      (s, .ok (c.issueAccess (s.dev.ctxOf c.wave.id) op 0xC0 .stcn c.width parts (c.destOf d c.ty.wide) zero)))

/-- The operand that stands a number of registers after a vector register. -/
def nextReg (d : Operand) (n : Nat) : Operand :=
  match d with
  | .v m => .v (m + n)
  | o => o

/-- R228, R232, R233. An atomic: the type, the checks of its space, the values of its lanes; helper lanes keep d. -/
def State.atomicOp (s : State) (c : Issue) (opcode : Nat) (sp : MemSpace) (ok : EType → Bool) (d a b : Operand) :
    State × Except Stop Issue :=
  if !ok c.ty then (s, .error (illegal 0x05))
  else
    let lanes := lanesOf c.wave.width (c.active &&& ~~~c.wave.helper)
    match s.checkAccess c sp .atomic c.width false lanes (c.addrOf sp.wideAddr a b) (fun _ => none) with
    | (s, .error e) => (s, .error e)
    | (s, .ok (parts, _)) =>
      let c := s.issue.getD c
      let second := nextReg d (if c.ty.wide then 2 else 1)
      let parts := parts.map (fun la => { la with
        value := w64 (c.src c.ty.wide false d la.lane), value2 := w64 (c.src c.ty.wide false second la.lane) })
      match (if sp = .fabric then s.charge c parts else (s, .ok c)) with
      | (s, .error e) => (s, .error e)
      | (s, .ok c) =>
        let (op, s) := s.fresh
        (s, .ok (c.issueAccess (s.dev.ctxOf c.wave.id) op opcode (.atomic opcode) c.width parts
          (c.destOf d c.ty.wide) []))

/-- R232. The types of `aadd` and `xadd`. -/
def EType.addAtomic (t : EType) : Bool := t.isW || t == .b32
/-- R232. The types of `afad`. -/
def EType.floatAtomic (t : EType) : Bool := t == .f32 || t == .f64
/-- R232. The types of `asad`. -/
def EType.scratchAdd (t : EType) : Bool := t == .i32 || t == .n32 || t == .b32
/-- R232. The types of `ascs`. -/
def EType.scratchCas (t : EType) : Bool :=
  [EType.i32, .n32, .f32, .f16, .bf16, .t8, .t6, .f4, .b32].contains t

/-- R232. `aadd`. -/
def execAadd (d a b : Operand) (s : State) : Out :=
  s.onIssue (fun s c => s.atomicOp c 0xC1 .global EType.addAtomic d a b)
/-- R232. `afad`. -/
def execAfad (d a b : Operand) (s : State) : Out :=
  s.onIssue (fun s c => s.atomicOp c 0xC2 .global EType.floatAtomic d a b)
/-- R232. `amin`. -/
def execAmin (d a b : Operand) (s : State) : Out :=
  s.onIssue (fun s c => s.atomicOp c 0xC3 .global EType.isW d a b)
/-- R232. `amax`. -/
def execAmax (d a b : Operand) (s : State) : Out :=
  s.onIssue (fun s c => s.atomicOp c 0xC4 .global EType.isW d a b)
/-- R232. `aand`. -/
def execAand (d a b : Operand) (s : State) : Out :=
  s.onIssue (fun s c => s.atomicOp c 0xC5 .global EType.any d a b)
/-- R232. `aor`. -/
def execAor (d a b : Operand) (s : State) : Out :=
  s.onIssue (fun s c => s.atomicOp c 0xC6 .global EType.any d a b)
/-- R232. `axor`. -/
def execAxor (d a b : Operand) (s : State) : Out :=
  s.onIssue (fun s c => s.atomicOp c 0xC7 .global EType.any d a b)
/-- R232. `axch`. -/
def execAxch (d a b : Operand) (s : State) : Out :=
  s.onIssue (fun s c => s.atomicOp c 0xC8 .global EType.any d a b)
/-- R233. `acas`. -/
def execAcas (d a b : Operand) (s : State) : Out :=
  s.onIssue (fun s c => s.atomicOp c 0xC9 .global EType.any d a b)
/-- R232. `asad`. -/
def execAsad (d a b : Operand) (s : State) : Out :=
  s.onIssue (fun s c => s.atomicOp c 0xCA .scratch EType.scratchAdd d a b)
/-- R233. `ascs`. -/
def execAscs (d a b : Operand) (s : State) : Out :=
  s.onIssue (fun s c => s.atomicOp c 0xCB .scratch EType.scratchCas d a b)
/-- R232. `xadd`. -/
def execXadd (d a b : Operand) (s : State) : Out :=
  s.onIssue (fun s c => s.atomicOp c 0xCC .fabric EType.addAtomic d a b)
/-- R233. `xcas`. -/
def execXcas (d a b : Operand) (s : State) : Out :=
  s.onIssue (fun s c => s.atomicOp c 0xCD .fabric EType.any d a b)

/-- R201, R202, R236, R242. `fnc`: it holds its clause at its own position until its waits are met, and an acquire discards
the L1 lines that its scope asks for (R209). -/
def execFnc (k : FenceKind) (sc : Scope) (s : State) : Out :=
  s.onIssue (fun s c =>
    match (if k = .acq then .ok () else s.release c 0x01) with
    | .error e => (s, .error e)
    | .ok () =>
      match s.fencePoint c k with
      | (s, .error e) => (s, .error e)
      | (s, .ok c) =>
        let stays : Bool := k == .rel || c.phase == .checking
        (if stays then s else s.mapDev (fun d => d.discardL1 c.wave.id.launch c.wave.core sc), .ok c))

/-- R237. The number of bits that are set in a peer-failure bitmap. -/
def popcount512 (b : BitVec 512) : Nat := ((List.range 512).filter b.getLsbD).length

/-- R237. The peer-failure bitmap of a context; the device's own bit reads 0. -/
def Dev.peerBitmap (d : Dev) (ctx : Nat) : BitVec 512 :=
  (((d.ctx? ctx).map Context.errbits).getD 0) &&& ~~~(BitVec.ofNat 512 (2 ^ d.devId))

/-- R237. The check of the bitmap's address: whether the store is performed, or the fault. A failed check of an address that
a helper lane supplies raises nothing, and nothing is stored (R7, R25). -/
def State.bitmapCheck (s : State) (c : Issue) (a : Int) (lane : Option Nat) : Except Stop Bool :=
  let helper := (lane.map c.wave.helper.getLsbD).getD false
  let mask := match lane with | some l => bitAt l | none => 0
  let bad := fun (cls code : Nat) => if helper then .ok false else .error (.fault cls code mask (BitVec.ofInt 64 a))
  if a % 64 ≠ 0 then bad 4 0x01
  else if 0 ≤ a ∧ a + 64 ≤ (s.scratchSize c : Int) then .ok true
  else bad 5 0x06

/-- R237, R242. `fsys`: it waits for the accesses of the path's lanes, those that its own clause has issued before it
included, and for the path's watch entries; then it writes the bitmap and its count. An address that the lowest active
lane supplies is used where that lane is a helper lane as well (log 64). -/
def execFsys (d a b : Operand) (s : State) : Out :=
  s.onIssue (fun s c =>
    let lane := lowestLane c.wave.width c.active
    let vec := perLane a || perLane b
    let skip := vec && lane.isNone
    let addr := c.addrOf false a b (lane.getD 0)
    match (if skip then .ok false else s.bitmapCheck c addr (if vec then lane else none)) with
    | .error e => (s, .error e)
    | .ok stores =>
      match s.release c 0x03 with
      | .error e => (s, .error e)
      | .ok () =>
        match s.fencePoint c .sc with
        | (s, .error e) => (s, .error e)
        | (s, .ok c) =>
          let bits := s.dev.peerBitmap (s.dev.ctxOf c.wave.id)
          let put := Effect.put ⟨.scratch c.wave.id.launch c.wave.id.group, addr.toNat⟩ (leBytes 64 bits.toNat)
          let c := if stores then c.send put else c
          let write := scalarDest d || !skip
          (s, .ok (if write then c.raw d false (fun _ => popcount512 bits) else c)))

/-- R285. `cond`. -/
def execCond (a b : Operand) (s : State) : Out :=
  s.onIssue (fun s c =>
    let x := c.src true true a 0
    let lane := (lowestLane c.wave.width c.pth.mask).getD 0
    let base := match s.dev.launch? c.wave.id.launch with
      | some l => ((s.dev.graphs.find? (fun g => g.id == l.graph)).map Graph.condAt).getD 0
      | none => 0
    if x / 2 ^ 10 ≠ 0 then (s, .error (illegal 0x08))
    else
      match c.once false b with
      | none =>
        let (op, s) := s.fresh
        (s, .ok (c.issueAccess (s.dev.ctxOf c.wave.id) op 0x1A (.cond 0) 4 [] .none []))
      | some v =>
        match s.checkAccess c .global .write 4 true [lane] (fun _ => ((base + 4 * (x % 256) : Nat) : Int))
            (fun _ => none) with
        | (s, .error e) => (s, .error e)
        | (s, .ok (parts, _)) =>
          let c := s.issue.getD c
          let (op, s) := s.fresh
          let parts := parts.map (fun la => { la with value := w64 v })
          (s, .ok (c.issueAccess (s.dev.ctxOf c.wave.id) op 0x1A (.cond (x / 256)) 4 parts .none [])))

/-- R286. The graphs of a context that count against the limit of 64: accepted and not complete. -/
def Dev.openGraphs (d : Dev) (ctx : Nat) : Nat :=
  (d.graphs.filter (fun g => g.ctx == ctx && !g.ended)).length + (d.context ctx).savedGraphs

/-- R286, R242. `enq`. Its clause is not ready while 64 graphs are open; where they become so many after its checks, the walker
holds the graph. A misaligned address that a helper lane supplies raises nothing, and nothing is submitted (R7, R25;
log 64). -/
def execEnq (a b : Operand) (s : State) : Out :=
  s.onIssue (fun s c =>
    let ctx := s.dev.ctxOf c.wave.id
    let lane := lowestLane c.wave.width c.active
    let helper := perLane a && (lane.map c.wave.helper.getLsbD).getD false
    match s.release c 0x06 with
    | .error e => (s, .error e)
    | .ok () =>
      if c.phase = .checking ∧ 64 ≤ s.dev.openGraphs ctx then (s, .error (.notReady .graphs))
      else
        let c := c.send (.fence c.pth.mask .rel .device)
        let (op, s) := s.fresh
        let none_ := c.issueAccess ctx op 0x1B (.cond 0) 0 [] .none []
        match c.once true a, c.once false b with
        | some x, some v =>
          if x % 64 ≠ 0 then
            (s, if helper then .ok none_
              else .error (.fault 4 0x02 (if perLane a then bitAt (lane.getD 0) else 0) (w64 x)))
          else
            let part := laneAt (lane.getD 0) ⟨.priv c.wave.id, 0⟩ x
            (s, .ok (c.issueAccess ctx op 0x1B (.enq (BitVec.ofNat 32 v)) 0 [part] .none []))
        | _, _ => (s, .ok none_))

/-- R157, R216, R251. The issuing group's scratchpad as an instruction that reads it at issue finds it: every store and
atomic that the wave has issued before is seen, performed or not. -/
def State.scratchNow (s : State) (c : Issue) : Memory :=
  let sp : Space := .scratch c.wave.id.launch c.wave.id.group
  c.effects.foldl (fun m e => match e with
    | .access a => a.lanes.foldl (applyScratch sp a) m
    | .put l bs => if l.space = sp then m.writeN l.addr bs else m
    | _ => m) (s.scratchSeen c.wave.id none)

/-- R157, R365. The device as such an instruction finds it: the stores that the wave has issued before cover their granules,
performed or not. -/
def State.scratchCover (s : State) (c : Issue) : Dev :=
  let own := s.dev.inflight.filter (fun a => a.w == c.wave.id) ++
    c.effects.filterMap (fun e => match e with | .access a => some a | _ => none)
  (own.filter (fun a => a.kind == .store)).foldl
    (fun d a => a.lanes.foldl (fun (d : Dev) l => if l.loc.global then d else d.coverGranules l.loc a.width) d) s.dev

/-- R157, R171. Whether every scratchpad store and atomic that a wave issued before an operation is performed. -/
def Dev.scratchSettled (d : Dev) (id : WaveId) (op : Nat) : Bool :=
  !(d.inflight.any (fun a => a.w == id && decide (a.op < op) &&
    (match a.kind with | .store | .atomic _ => true | _ => false) &&
    a.lanes.any (fun l => match l.loc.space with | .scratch _ _ => true | _ => false)))

end Sys2Proof.Machine
end

