-- ==== Sys2Proof/Machine/UnitAccess.lean ====
section
/-! DEFINITION. The accesses of the units beside the waves: the batches of a splat unit (R189, R190) and the accesses of
the engines (R254), pages that lie on a peer (R329; log 15), the order behind the stores of the issuing wave (R188, R216),
and how an operation of a unit is parked or stopped (R190, R191, R254). -/

namespace Sys2Proof.Machine

/-- The wave's stores and atomics before an operation, in any space, that are not performed yet (R188, R216). -/
def Access.storesBefore (a : Access) (id : WaveId) (op : Nat) : Bool :=
  a.w == id && decide (a.op < op) &&
    (match a.kind with | .store | .atomic _ | .stcn | .stsg | .cond _ => true | _ => false) && !a.lanes.isEmpty

/-- R188, R216. Whether every store and atomic that a wave issued before an operation is performed. -/
def Dev.settledFor (d : Dev) (id : WaveId) (op : Nat) : Bool := !(d.inflight.any (fun a => a.storesBefore id op))

/-- A unit's read of a place on this device. -/
def State.readLoc (s : State) (l : Loc) (n : Nat) : List Byte := s.dev.peek l n

/-- R305, R316. A store to a peer by an agent that no flag waits on; to a peer that is down it fails at once. -/
def State.sendStore (s : State) (ctx op : Nat) (addr : Nat) (bs : List Byte) : State :=
  match s.dev.pathTo (fabricDest addr) (addr % 2 ^ 48) with
  | none => s.mapDev (fun d => d.setError ctx (fabricDest addr) 2)
  | some port =>
    (s.clearReservations none (Loc.line ⟨.fabric, addr⟩)).sendTxn
      (Txn.to_ op ctx (fabricDest addr) port (addr % 2 ^ 48) .store bs.length bs)

/-- A unit's write of a place. -/
def State.writeLoc (s : State) (ctx op : Nat) (l : Loc) (bs : List Byte) : State :=
  if l.space = .fabric then s.sendStore ctx op l.addr bs else s.storeAt .other l bs

/-- R329, R335, R342. An agent beside the waves: its context, its class of master, the translation unit that it uses, none
for one whose accesses are walked each time (log 65), and the reader to which the bytes of a peer's memory come. -/
structure Agent where
  ctx : Nat
  master : MasterClass
  unit : Option TransUnit
  reader : Reader
  deriving DecidableEq, Repr

/-- R254, R343, R365. The last checks of an agent's access to a place: it may be dropped as it arrives, or meet lost data. -/
def State.arrive (s : State) (g : Agent) (need : Need) (va n : Nat) (loc : Loc) : State × Except Stop Loc :=
  let bad := fun (s : State) cls code => (s, Except.error (Stop.fault cls code 0 (w64 va)))
  let lost := (List.range (n / 128 + 2)).any (fun i =>
    decide (loc.addr / 128 + i ≤ (loc.addr + n - 1) / 128) &&
      s.dev.lost.contains { loc with addr := (loc.addr / 128 + i) * 128 })
  match s.dev.refusedBy (masterAt g.ctx g.master loc.space) loc n need.writes with
  | some target => bad (s.dropsRequest g.ctx target) 5 0x08
  | none =>
    if lost then bad s 11 0x07
    else match (if need = .write then s.dev.storeLoss none loc n else s.dev.readLoss none loc n) with
      | some code => bad s 11 code
      | none => (s, .ok loc)

/-- R254, R260, R309, R334, R336. The check of one access of an agent; the lanes of a fault are none, and those of a fill lane
0. A published version is read at its own frame. The right of a page that another device holds is recalled first, and a page
whose translation is being revoked is waited for. -/
def State.agentCheck (s : State) (g : Agent) (need : Need) (version : Option Nat) (va n : Nat) : State × Except Stop Loc :=
  let bad := fun (s : State) cls code => (s, Except.error (Stop.fault cls code 0 (w64 va)))
  let page := va / 65536
  if 2 ^ 48 < va + n then bad s 5 0x06
  else match s.dev.ctx? g.ctx with
    | none => bad s 5 0x01
    | some x =>
      if s.dev.frozen g.ctx va n then (s, .error (.notReady (.revocation g.ctx)))
      else
      let s := match g.unit with | some u => s.tlbFill u g.ctx va | none => s
      match s.dev.xlate g.unit x g.master need va with
      | .bad code touch at_ =>
        if touch then (s, .error (.fill (bitAt 0) [⟨0, w64 va, at_, need.writes⟩])) else bad s 5 code
      | .ok loc leaf at_ =>
        match version, (if loc.global then s.dev.rightCase g.ctx page (need == .atomic) else .here) with
        | some t, _ =>
          (match (if at_ = va then s.dev.versionAt leaf at_ (s.dev.step g.ctx) t else .error 0x03) with
           | .error code => bad s 6 code
           | .ok frame =>
             if s.dev.leafGrants leaf g.ctx g.master frame 65536 false then
               s.arrive g need va n { frame with addr := frame.addr + at_ % 65536 }
             else bad s 5 0x08)
        | none, .waits ask =>
          (if ask then s.mapDev (fun d => d.recallPage g.ctx page) else s, .error (.notReady (.right page)))
        | none, _ =>
          if need.writes then
            match s.firstStore x leaf at_ with
            | .noSlot => bad s 6 0x05
            | .noFrame => bad s 5 0x07
            | .recallFirst s => (s, .error (.notReady (.right page)))
            | .dropped s => bad s 5 0x08
            | .nothing s =>
              (match s.dev.xlate g.unit x g.master need va with
               | .bad code _ _ => bad s 5 code
               | .ok loc _ _ => s.arrive g need va n loc)
          else s.arrive g need va n loc

/-- R329. An agent's read of bytes at a place that its check has found: those of a peer's page come as fabric loads, for which
it waits. -/
def State.agentBytes (s : State) (g : Agent) (va : Nat) (l : Loc) (n : Nat) : State × Except Stop (List Byte) :=
  if l.space = .fabric then
    match s.dev.readFetched g.reader l.addr n with
    | none => (s.askLines g.reader g.ctx l.addr n, .error (.notReady (.fetch g.reader)))
    | some (.error e) => (s, .error (.fault e.1 e.2 0 (w64 va)))
    | some (.ok bs) => (s, .ok bs)
  else (s, .ok (s.readLoc l n))

/-- An agent's read of a range, page by page. -/
def State.agentRead (g : Agent) (version : Option Nat) : Nat → State → Nat → Nat → State × Except Stop (List Byte)
  | 0, s, _, _ => (s, .ok [])
  | fuel + 1, s, va, n =>
    if n = 0 then (s, .ok [])
    else
      let m := Nat.min n (65536 - va % 65536)
      match s.agentCheck g .read version va m with
      | (s, .error e) => (s, .error e)
      | (s, .ok loc) =>
        match s.agentBytes g va loc m with
        | (s, .error e) => (s, .error e)
        | (s, .ok head) =>
          match State.agentRead g version fuel s (va + m) (n - m) with
          | (s, .error e) => (s, .error e)
          | (s, .ok bs) => (s, .ok (head ++ bs))

/-- An agent's write of a range, page by page. -/
def State.agentWrite (g : Agent) (op : Nat) : Nat → State → Nat → List Byte → State × Except Stop Unit
  | 0, s, _, _ => (s, .ok ())
  | fuel + 1, s, va, bs =>
    if bs.isEmpty then (s, .ok ())
    else
      let m := Nat.min bs.length (65536 - va % 65536)
      match s.agentCheck g .write none va m with
      | (s, .error e) => (s, .error e)
      | (s, .ok loc) => State.agentWrite g op fuel (s.writeLoc g.ctx op loc (bs.take m)) (va + m) (bs.drop m)

/-- R309, R329. The rights that a run of an operation has begun to recall, and the lines of peers' memories that it has asked
for, taken back into the state in which it could not go on. -/
def State.takeRecalls (s t : State) : State :=
  let s := (t.dev.rights.filter (fun r => r.handing)).foldl (fun s r => s.mapDev (fun d => d.recallPage r.ctx r.page)) s
  let s := s.mapDev (fun d => { d with fetched := d.fetched ++ t.dev.fetched.filter (fun x => !d.fetched.contains x) })
  t.dev.txns.foldl (fun s x => match x.kind with
    | .fetch r => s.askLines r x.ctx (x.peer * 2 ^ 48 + x.va) 128
    | _ => s) s

/-- Runs a part of an operation for each element of a list, in order, until one stops; a value goes along. -/
def runAll {α β : Type} (f : State → β → α → State × Except Stop β) : State → β → List α → State × Except Stop β
  | s, b, [] => (s, .ok b)
  | s, b, x :: r =>
    match f s b x with
    | (s, .error e) => (s, .error e)
    | (s, .ok b) => runAll f s b r

/-- The wave in which a unit's fault is handled: the issuing wave, or the lowest-numbered live wave of its group
(R190, R192, R254). -/
def Dev.faultWave (d : Dev) (id : WaveId) : Option WaveId :=
  let live := fun (w : Wave) => w.real &&& ~~~w.ended != 0
  match d.wave? id with
  | some w => if live w then some id else
    ((d.allWaves.filter (fun x => x.id.launch == id.launch && x.id.group == id.group && live x)).foldl
      (fun (m : Option WaveId) x => match m with
        | some y => if x.id.wave < y.wave then some x.id else m
        | none => some x.id) none)
  | none => none

/-- R191, R254. Halts the wave that issued an operation, at a clause boundary, with the clause that holds the
instruction. DESIGN CHOICE (log 74): the status block reports path 0; the rules keep no path with a unit's
operation. -/
def State.unitHalt (s : State) (id : WaveId) (clause : W64) (cls code : Nat) (mask : Lanes) (addr : W64) : State :=
  s.takeFault ((s.dev.faultWave id).getD id) 0
    { cls := cls, code := code, mask := mask, addr := addr, pc := clause, uncertain := false }

/-- R190, R254. Parks the group of the wave in which the fill of a unit's or an engine's first touch runs. -/
def State.parkUnit (s : State) (id : WaveId) (mask : Lanes) (touches : List Touch) (unit cmd : Option Nat) : State :=
  let s := s.parkForFill id mask touches
  s.mapDev (fun d => { d with fills := d.fills.dropLast ++ (d.fills.getLast?.map (fun f =>
    { f with unit := unit, cmd := cmd })).toList })

/-- Whether the wave in which a unit's fault would be handled stands at a clause boundary and is not parked already. -/
def State.unitCanStop (s : State) (id : WaveId) : Bool :=
  match s.dev.faultWave id with
  | none => true
  | some x => (s.issueOf x).isNone && (match s.dev.wave? x with
      | some w => (match w.hold with | .fill => false | _ => true)
      | none => true)

end Sys2Proof.Machine
end

