-- ==== Sys2Proof/Machine/EngineOps.lean ====
section
/-! DEFINITION. The mould of the engine commands: the seven instructions 0xE8 to 0xEE (R250, R251), the checks of each
command record (R255, R258, R261, R263, R320, R323, R368, R369), the range locks (R217, R219), the queues (R253), and how
an operation completes, parks or stops (R251, R252, R254). -/

namespace Sys2Proof.Machine

/-- The bytes of a record, from one of its byte numbers to another. -/
def cmdField (cmd : List Byte) (lo hi : Nat) : Nat := field cmd lo (hi + 1 - lo)

/-- R252. A range that a command reads or writes at a version. -/
structure LockRange where
  write : Bool
  version : Option Nat
  base : Nat
  length : Nat
  deriving DecidableEq, Repr

/-- R251. What the validation of a command finds: the code with which it completes at once, or its ranges. -/
inductive Validated where
  | reject (code : Nat)
  | ok (ranges : List LockRange)
  deriving DecidableEq, Repr

/-- R252. The classes that an opcode admits, and the class whose queue a command with another class byte enters. -/
def classOf (opcode cls : Nat) : Bool × Nat :=
  let only := fun (n : Nat) => (decide (cls = n), n)
  match opcode with
  | 0xE8 | 0xE9 => if cls ≤ 4 then (true, cls) else (false, 0)
  | 0xEC | 0xED => only 2
  | 0xEA | 0xEB => only 3
  | _ => only 4

/-- R84. The bytes of n dense elements of a type. -/
def EType.denseBytes (t : EType) (n : Nat) : Nat := (n * t.bits + 7) / 8

/-- R255. The width in bytes to which an address of elements of a type is aligned. -/
def EType.align (t : EType) : Nat := Nat.max 1 (t.bits / 8)

/-- R255. The fields of a `cpy` command. -/
structure CpyCmd where
  src : Nat
  dst : Nat
  n0 : Nat
  n1 : Nat
  ss1 : Nat
  ds1 : Nat
  sc : Nat
  stype : EType
  dtype : EType
  rmCode : Nat
  sat : Bool
  crc : Bool
  side : Bool
  ver : Bool
  reserved : Bool
  xv : Nat
  sstep : Nat
  seed : Nat
  deriving DecidableEq, Repr

/-- R255. The command of a record. -/
def CpyCmd.of (b : List Byte) : CpyCmd :=
  let ctl := cmdField b 40 41
  { src := cmdField b 0 7, dst := cmdField b 8 15, n0 := cmdField b 16 19, n1 := cmdField b 20 23
    ss1 := cmdField b 24 27, ds1 := cmdField b 28 31, sc := cmdField b 32 39
    stype := EType.ofCode (bitsOf ctl 15 12), dtype := EType.ofCode (bitsOf ctl 11 8), rmCode := bitsOf ctl 7 5
    sat := entryBit ctl 4, crc := entryBit ctl 3, side := entryBit ctl 2, ver := entryBit ctl 1
    reserved := entryBit ctl 0, xv := cmdField b 42 43, sstep := cmdField b 44 46, seed := cmdField b 48 55 }

/-- R255. The bytes of a row of the source. -/
def CpyCmd.srcRow (c : CpyCmd) : Nat := c.stype.denseBytes c.n0
/-- R255. The bytes of a row of the destination. -/
def CpyCmd.dstRow (c : CpyCmd) : Nat := c.dtype.denseBytes c.n0
/-- R255. The source extent. -/
def CpyCmd.srcLen (c : CpyCmd) : Nat := (c.n1 - 1) * c.ss1 + c.srcRow
/-- R255. The destination extent. -/
def CpyCmd.dstLen (c : CpyCmd) : Nat := (c.n1 - 1) * c.ds1 + c.dstRow
/-- R255. Whether exactly one type is scaled. -/
def CpyCmd.scaled (c : CpyCmd) : Bool := c.stype.scaled != c.dtype.scaled
/-- R256. The length of the scale array. -/
def CpyCmd.scLen (c : CpyCmd) : Nat := 4 * (c.n1 * c.n0 / 32)

/-- R255. The cases in which a `cpy` command is invalid. -/
def CpyCmd.invalid (c : CpyCmd) : Bool :=
  let dense := fun (t : EType) => (t == .t6 || t == .f4) && c.n0 % 4 != 0
  c.reserved || decide (5 < c.rmCode) || decide (c.n0 = 0 ∨ 2 ^ 24 < c.n0 ∨ c.n1 = 0 ∨ 2 ^ 24 < c.n1) || c.sc % 4 != 0 ||
    (c.stype != c.dtype && (c.stype == .b32 || c.dtype == .b32)) || (c.stype == c.dtype && c.sc != 0) ||
    (c.stype.scaled && c.dtype.scaled && c.stype != c.dtype) || (c.scaled && (c.n0 % 32 != 0 || c.sc == 0)) ||
    dense c.stype || dense c.dtype || c.src % c.stype.align != 0 || c.ss1 % c.stype.align != 0 ||
    c.dst % c.dtype.align != 0 || c.ds1 % c.dtype.align != 0 || decide (c.ds1 < c.dstRow) ||
    decide (c.src < c.dst + c.dstLen ∧ c.dst < c.src + c.srcLen)

/-- R246, R256. Whether the page of an address holds a version for a step of a context. -/
def Dev.holdsVersion (d : Dev) (ctx t va : Nat) : Bool :=
  if t = d.step ctx then true
  else if 2 ^ 48 ≤ va then false
  else match d.ctx? ctx with
    | none => false
    | some x => match d.walk x.root va with
      | .leaf l => (match d.versionAt l va (d.step ctx) t with | .ok _ => true | .error _ => false)
      | _ => false

/-- The first addresses of the 64 KiB pages that a range touches. -/
def pagesOf (base n : Nat) : List Nat :=
  (List.range ((base + n + 65535) / 65536 - base / 65536)).map (fun i => (base / 65536 + i) * 65536)

/-- R246, R256. Whether every page of a range holds a version for a step. -/
def Dev.rangeHolds (d : Dev) (ctx t base n : Nat) : Bool := (pagesOf base n).all (d.holdsVersion ctx t)

/-- R217. The version of a read entry that names a step: the current one when it is %step. -/
def Dev.lockVersion (d : Dev) (ctx t : Nat) : Option Nat := if t = d.step ctx then none else some t

/-- R255, R256. The validation of a `cpy`. -/
def Dev.validCpy (d : Dev) (ctx : Nat) (b : List Byte) : Validated :=
  let c := CpyCmd.of b
  if c.invalid then .reject 1
  else if c.ver && !d.rangeHolds ctx c.sstep c.src c.srcLen then .reject 4
  else .ok ([⟨false, if c.ver then d.lockVersion ctx c.sstep else none, c.src, c.srcLen⟩, ⟨true, none, c.dst, c.dstLen⟩] ++
    (if c.scaled then [⟨c.dtype.scaled, none, c.sc, c.scLen⟩] else []))

/-- R68. One operation of a Pattern list. -/
inductive PatternOp where
  | phalt
  | pld (c w n : Nat)
  | pst (c w n : Nat)
  | pinc (c s : Nat)
  | ploop (l n : Nat)
  | pend (l : Nat)
  | pperm (p m : Nat)
  | pcvt (f g rm : Nat) (sat : Bool)
  | pscl (c : Nat)
  | pskip (n : Nat)
  deriving DecidableEq, Repr

/-- R68. The operation of a 16-bit word; none for a reserved op value or a reserved field that is not zero. -/
def PatternOp.decode (h : Nat) : Option PatternOp :=
  let hi := bitsOf h 11 10
  let w := bitsOf h 9 8
  let n := h % 256
  let clear := fun (x : Nat) (o : PatternOp) => if x = 0 then some o else none
  match h / 4096 with
  | 0 => clear (h % 4096) .phalt
  | 1 => some (.pld hi w (n + 1))
  | 2 => some (.pst hi w (n + 1))
  | 3 => clear n (.pinc hi w)
  | 4 => some (.ploop hi (h % 1024 + 1))
  | 5 => clear (h % 1024) (.pend hi)
  | 6 => some (.pperm (bitsOf h 11 8) n)
  | 7 => if 5 < bitsOf h 3 1 then none else some (.pcvt (bitsOf h 11 8) (bitsOf h 7 4) (bitsOf h 3 1) (entryBit h 0))
  | 8 => clear (h % 1024) (.pscl hi)
  | 9 => some (.pskip (h % 4096))
  | _ => none

/-- R68. The operations of a list up to its first `phalt`; none if there is no `phalt` or a word is reserved. -/
def patternList : List Nat → Option (List PatternOp)
  | [] => none
  | h :: r =>
    match PatternOp.decode h with
    | none => none
    | some .phalt => some []
    | some o => (patternList r).map (o :: ·)

/-- R258. Whether an operation is list-invalid by itself. -/
def PatternOp.bad : PatternOp → Bool
  | .pperm p m => decide (4 < p) || ((p == 3 || p == 4) && decide (m = 0 ∨ 8 < m))
  | .pcvt f g _ _ => f == g || f == 15 || g == 15 || ((EType.ofCode f).scaled && (EType.ofCode g).scaled)
  | _ => false

/-- R258. Whether the operations are valid with some loop levels open, the innermost first. -/
def patternValid : List Nat → List PatternOp → Bool
  | levels, [] => levels.isEmpty
  | levels, o :: r =>
    !o.bad && (match o with
      | .ploop l _ => !levels.contains l && patternValid (l :: levels) r
      | .pend l => levels.head? == some l && patternValid levels.tail r
      | _ => patternValid levels r)

/-- R258. The fields of an `lxf` command. -/
structure LxfCmd where
  cursors : List Nat
  strides : List Int
  list : Nat
  xv : Nat
  space : Nat
  deriving DecidableEq, Repr

/-- R258. The command of a record. -/
def LxfCmd.of (b : List Byte) : LxfCmd :=
  { cursors := (List.range 4).map (fun i => cmdField b (6 * i) (6 * i + 5))
    strides := (List.range 4).map (fun i => toSigned 32 (cmdField b (24 + 4 * i) (27 + 4 * i)))
    list := cmdField b 40 43, xv := cmdField b 44 45, space := cmdField b 46 46 }

/-- R258. Whether a cursor is in the scratchpad. -/
def LxfCmd.scratch (c : LxfCmd) (i : Nat) : Bool := entryBit c.space i

/-- The state of the Pattern engine as it runs a list: the place of the next operation, the cursors, the open loops with
the counts left, the staging entries, the scale cursor, the entries stored and the flags. -/
structure PatternState where
  at_ : Nat
  cursors : List Int
  loops : List (Nat × Nat × Nat)
  staging : List Nat
  scale : Option Nat
  stored : Nat
  fl : FpFlags
  deriving DecidableEq, Repr

/-- The Pattern engine at the start of a list. -/
def PatternState.start (c : LxfCmd) : PatternState :=
  { at_ := 0, cursors := c.cursors.map Int.ofNat, loops := [], staging := [], scale := none, stored := 0
    fl := 0 }

/-- R259. The address at a cursor. -/
def PatternState.cursor (p : PatternState) (i : Nat) : Int := p.cursors.getD i 0

/-- R259. The place of the engine after an operation, with the effect of those that only steer: strides, loops and the
scale cursor. -/
def PatternState.steer (p : PatternState) (c : LxfCmd) (o : PatternOp) : PatternState :=
  let q : PatternState := { p with at_ := p.at_ + 1 }
  match o with
  | .pinc i s => { q with cursors := q.cursors.set i (q.cursors.getD i 0 + c.strides.getD s 0) }
  | .ploop l n => { q with loops := (l, n, p.at_ + 1) :: q.loops }
  | .pend _ =>
    match p.loops with
    | (l, n, start) :: r => if 1 < n then { p with loops := (l, n - 1, start) :: r, at_ := start } else { q with loops := r }
    | [] => q
  | .pscl i => { q with scale := some i }
  | _ => q

/-- R84. Element i of a dense string of elements of w bits. -/
def denseElem (w : Nat) (bs : List Byte) (i : Nat) : Nat :=
  leNat ((bs.drop (i * w / 8)).take 9) / 2 ^ (i * w % 8) % 2 ^ w

/-- R84. The first n elements of a dense string. -/
def unpackDense (w n : Nat) (bs : List Byte) : List Nat := (List.range n).map (denseElem w bs)

/-- R84. Elements as one dense string, the last byte padded with zeros. -/
def packDense (w : Nat) (xs : List Nat) : List Byte :=
  leBytes ((xs.length * w + 7) / 8) (xs.foldr (fun x acc => x % 2 ^ w + 2 ^ w * acc) 0)

/-- R259. The entries after a permutation; none for a list-fault. -/
def permute (p m : Nat) (xs : List Nat) : Option (List Nat) :=
  let n := xs.length
  match p with
  | 0 =>
    let r := n / (m + 1)
    if n % (m + 1) ≠ 0 then none else some ((List.range n).map (fun i => xs.getD (i % r * (m + 1) + i / r) 0))
  | 1 =>
    if n % (m + 1) ≠ 0 then none
    else some ((List.range n).map (fun i => xs.getD (i / (m + 1) * (m + 1) + (m - i % (m + 1))) 0))
  | 2 => if n < m then none else some (xs.drop m ++ xs.take m)
  | 3 => if n * m % 8 ≠ 0 then none else some ((packDense m xs).map BitVec.toNat)
  | _ =>
    if 8 * n % m ≠ 0 ∨ 1024 < 8 * n / m then none
    else some (unpackDense m (8 * n / m) (xs.map (BitVec.ofNat 8)))

/-- A bound on the operations that a valid list performs. -/
def patternFuel (ops : List PatternOp) : Nat :=
  ops.foldl (fun n o => match o with | .ploop _ k => n * k | _ => n) 1 * (ops.length + 1)

/-- R259. The scale cursor of a conversion advances by 4 for each block of 32 entries and is emptied. -/
def PatternState.scaled (p : PatternState) (i n : Nat) : PatternState :=
  { p with scale := none, cursors := p.cursors.set i (p.cursor i + (4 * (n / 32) : Nat)) }

/-- R259. What an operation does to the cursors and to the number of entries, whatever the data; none for a list-fault. -/
def PatternState.shadow (p : PatternState) (c : LxfCmd) (o : PatternOp) : Option PatternState :=
  let q := p.steer c o
  let n := p.staging.length
  match o with
  | .pld _ _ k | .pskip k => if 1024 < n + k then none else some { q with staging := p.staging ++ List.replicate k 0 }
  | .pst _ _ k => if n < k then none else some { q with staging := p.staging.drop k }
  | .pperm k m => (permute k m p.staging).map (fun xs => { q with staging := xs })
  | .pcvt f g _ _ =>
    if (EType.ofCode f).scaled || (EType.ofCode g).scaled then
      (match p.scale with
       | some i => if n % 32 = 0 then some (q.scaled i n) else none
       | none => none)
    else some q
  | _ => some q

/-- A range widened to cover another. -/
def hull (r : Option (Int × Int)) (lo n : Int) : Option (Int × Int) :=
  match r with
  | none => some (lo, lo + n)
  | some (a, b) => some (if lo < a then lo else a, if b < lo + n then lo + n else b)

/-- R259. The smallest global ranges that cover every `pld` and every `pst` of a list, up to its end or a list-fault, found
without reading data. -/
def patternRanges (c : LxfCmd) (ops : List PatternOp) :
    Nat → PatternState → Option (Int × Int) → Option (Int × Int) → Option (Int × Int) × Option (Int × Int)
  | 0, _, r, w => (r, w)
  | fuel + 1, p, r, w =>
    match ops[p.at_]? with
    | none => (r, w)
    | some o =>
      match p.shadow c o with
      | none => (r, w)
      | some next =>
        match o with
        | .pld i k n => patternRanges c ops fuel next (if c.scratch i then r else hull r (p.cursor i) (n * 2 ^ k : Nat)) w
        | .pst i k n => patternRanges c ops fuel next r (if c.scratch i then w else hull w (p.cursor i) (n * 2 ^ k : Nat))
        | _ => patternRanges c ops fuel next r w

/-- The lock range of a hull. -/
def hullRange (write : Bool) : Option (Int × Int) → List LockRange
  | none => []
  | some (a, b) => [⟨write, none, a.toNat, (b - a).toNat⟩]

/-- R258. The validation of an `lxf` with the words of its list. DEDUCED (log 44): a list address that is not a multiple of 4
makes the command invalid, code 1, and not its list. -/
def validLxf (b : List Byte) (list : List Nat) : Validated :=
  let c := LxfCmd.of b
  if c.list % 4 ≠ 0 ∨ 15 < c.space then .reject 1
  else match patternList list with
    | none => .reject 2
    | some ops =>
      if !patternValid [] ops then .reject 2
      else
        let r := patternRanges c ops (patternFuel ops) (PatternState.start c) none none
        .ok (hullRange false r.1 ++ hullRange true r.2)

/-- R261, R263. The validation of a `pub` or a `vret`: no ranges. -/
def validSnapshot (vret : Bool) (b : List Byte) : Validated :=
  let base := cmdField b 0 7
  let length := cmdField b 8 15
  let tail := if vret then cmdField b 19 46 else cmdField b 17 46 + cmdField b 16 16 / 2
  if base % 65536 ≠ 0 ∨ length % 65536 ≠ 0 ∨ length = 0 ∨ 2 ^ 40 < length ∨ tail ≠ 0 then .reject 1 else .ok []

/-- R320. The fields of an `hxc` command. -/
structure HxcCmd where
  src : Nat
  dst : Nat
  rows : Nat
  rowbytes : Nat
  spitch : Nat
  dpitch : Nat
  flag : Nat
  step : Nat
  tagged : Bool
  deriving DecidableEq, Repr

/-- R320. The command of a record. -/
def HxcCmd.of (b : List Byte) : HxcCmd :=
  { src := cmdField b 0 7, dst := cmdField b 8 15, rows := cmdField b 16 19, rowbytes := cmdField b 20 23
    spitch := cmdField b 24 27, dpitch := cmdField b 28 31, flag := cmdField b 32 39, step := cmdField b 40 42
    tagged := entryBit (cmdField b 43 43) 0 }

/-- R320. The validation of an `hxc`. -/
def Dev.validHxc (d : Dev) (ctx : Nat) (b : List Byte) : Validated :=
  let c := HxcCmd.of b
  let dest := fabricDest c.dst
  let extent := fun (pitch : Nat) => (c.rows - 1) * pitch + c.rowbytes
  let paired := dest == d.devId || ((d.ctx? ctx).bind (fun x => d.pairOf x dest)).isSome
  if c.src % 4 ≠ 0 ∨ c.dst % 4 ≠ 0 ∨ c.dst / 2 ^ 57 ≠ 0 ∨ c.rows = 0 ∨ 65535 < c.rows ∨ c.rowbytes % 4 ≠ 0 ∨
      c.rowbytes = 0 ∨ 2 ^ 20 < c.rowbytes ∨ c.spitch % 4 ≠ 0 ∨ c.spitch < c.rowbytes ∨ c.dpitch % 4 ≠ 0 ∨
      c.dpitch < c.rowbytes ∨ c.flag % 8 ≠ 0 ∨ c.flag / 2 ^ 57 ≠ 0 ∨ 1 < cmdField b 43 43 ∨ cmdField b 44 46 ≠ 0 ∨
      (c.flag ≠ 0 ∧ fabricDest c.flag ≠ dest) ∨ !paired then .reject 1
  else .ok (⟨false, none, c.src, extent c.spitch⟩ ::
    (if dest = d.devId then [⟨true, none, c.dst % 2 ^ 48, extent c.dpitch⟩] else []))

/-- R323. The fields of an `ared` command. -/
structure AredCmd where
  buf : Nat
  ranks : Nat
  n : Nat
  parts : Nat
  rank : Nat
  id : Nat
  limit : Nat
  type : EType
  op : Nat
  rmCode : Nat
  sat : Bool
  deriving DecidableEq, Repr

/-- R323. The command of a record. -/
def AredCmd.of (b : List Byte) : AredCmd :=
  let ctl := cmdField b 32 33
  { buf := cmdField b 0 7, ranks := cmdField b 8 15, n := cmdField b 16 19, parts := cmdField b 20 21
    rank := cmdField b 22 23, id := cmdField b 24 27, limit := cmdField b 28 31, type := EType.ofCode (bitsOf ctl 15 12)
    op := bitsOf ctl 11 10, rmCode := bitsOf ctl 9 7, sat := entryBit ctl 6 }

/-- R323. The types of an `ared`. -/
def EType.reducible (t : EType) : Bool := t.isFloat || t.isW

/-- R323. The validation of the fields of an `ared`; its rank table is read when it runs. -/
def validAred (b : List Byte) : Validated :=
  let c := AredCmd.of b
  let w := c.type.bits / 8
  if !c.type.reducible ∨ c.op = 3 ∨ 5 < c.rmCode ∨ cmdField b 32 33 % 64 ≠ 0 ∨ c.limit = 0 ∨ c.parts = 0 ∨ 512 < c.parts ∨
      c.parts ≤ c.rank ∨ c.n = 0 ∨ 2 ^ 28 < c.n ∨ c.ranks % 64 ≠ 0 ∨ c.buf % w ≠ 0 ∨ cmdField b 34 46 ≠ 0 ∨
      2 ^ 32 < c.n * w then .reject 1
  else .ok [⟨true, none, c.buf, c.n * w⟩]

/-- R369. A tensor descriptor: the extents n, the shard's first indices and counts, the strides of dimensions 1 to 3. -/
structure TensorDesc where
  id : Nat
  type : Nat
  rank : Nat
  n : List Nat
  lo : List Nat
  c : List Nat
  strides : List Nat
  clean : Bool
  deriving DecidableEq, Repr

/-- R369. The descriptor of 128 bytes. -/
def TensorDesc.of (b : List Byte) : TensorDesc :=
  let four := fun (at_ : Nat) => (List.range 4).map (fun i => cmdField b (at_ + 4 * i) (at_ + 4 * i + 3))
  { id := cmdField b 0 3, type := cmdField b 4 4, rank := cmdField b 5 5, n := four 8, lo := four 24, c := four 40
    strides := (four 56).take 3, clean := cmdField b 6 7 == 0 && cmdField b 68 127 == 0 }

/-- R369. The element type. -/
def TensorDesc.etype (t : TensorDesc) : EType := EType.ofCode t.type

/-- R369. Whether a descriptor is valid. -/
def TensorDesc.valid (t : TensorDesc) : Bool :=
  t.clean && decide (t.type < 16 ∧ 1 ≤ t.rank ∧ t.rank ≤ 4) &&
    (List.range 4).all (fun i =>
      let n := t.n.getD i 0
      let lo := t.lo.getD i 0
      let c := t.c.getD i 0
      if i < t.rank then decide (1 ≤ n ∧ 1 ≤ c ∧ lo + c ≤ n) else decide (n = 1 ∧ c = 1 ∧ lo = 0)) &&
    (!(t.etype == .t6 || t.etype == .f4) || (t.lo.getD 0 0 % 4 == 0 && t.c.getD 0 0 % 4 == 0))

/-- R369. The length of the range that a shard's box occupies in memory. -/
def TensorDesc.extent (t : TensorDesc) : Nat :=
  (t.c.getD 1 1 - 1) * t.strides.getD 0 0 + (t.c.getD 2 1 - 1) * t.strides.getD 1 0 +
    (t.c.getD 3 1 - 1) * t.strides.getD 2 0 + t.etype.denseBytes (t.c.getD 0 1)

/-- R369. The number of elements of a shard's box. -/
def TensorDesc.count (t : TensorDesc) : Nat := t.c.foldl (· * ·) 1

/-- R370. The payload bytes of a shard. -/
def TensorDesc.payload (t : TensorDesc) : Nat := t.etype.denseBytes t.count

/-- R370. A payload with its padding. -/
def paddedTo64 (n : Nat) : Nat := (n + 63) / 64 * 64

/-- R368. The fields of a `ckp` command; the descriptor's bytes follow those of the record. -/
structure CkpCmd where
  area : Nat
  base : Nat
  desc : Nat
  step : Nat
  length : Nat
  shards : Nat
  op : Nat
  tensor : TensorDesc
  deriving DecidableEq, Repr

/-- R368. The command of a record and its descriptor. -/
def CkpCmd.of (b : List Byte) : CkpCmd :=
  { area := cmdField b 0 7, base := cmdField b 8 15, desc := cmdField b 16 19, step := cmdField b 20 22
    length := cmdField b 24 31, shards := cmdField b 32 35, op := cmdField b 46 46, tensor := TensorDesc.of (b.drop 64) }

/-- R368, R371 to R373. The validation of a `ckp` in a scratchpad of some size. -/
def Dev.validCkp (d : Dev) (ctx size : Nat) (b : List Byte) : Validated :=
  let c := CkpCmd.of b
  let t := c.tensor
  let old := decide (c.step < d.step ctx)
  let descOk := c.desc % 64 == 0 && decide (c.desc + 128 ≤ size) && t.valid
  if cmdField b 36 45 ≠ 0 ∨ cmdField b 23 23 ≠ 0 then .reject 1
  else match c.op with
    | 0 =>
      if !old ∨ !descOk ∨ c.area % 64 ≠ 0 ∨ c.length ≠ 0 ∨ c.shards ≠ 0 then .reject 1
      else if !d.rangeHolds ctx c.step c.base t.extent then .reject 4
      else .ok [⟨false, some c.step, c.base, t.extent⟩, ⟨true, none, c.area, 128 + paddedTo64 t.payload⟩]
    | 1 =>
      if !descOk ∨ c.area % 8 ≠ 0 ∨ c.length ≠ 0 ∨ c.step ≠ 0 ∨ c.shards = 0 ∨ 4096 < c.shards then .reject 1
      else .ok [⟨true, none, c.base, t.extent⟩]
    | 2 =>
      if !old ∨ c.desc ≠ 0 ∨ c.area ≠ 0 ∨ c.base % 65536 ≠ 0 ∨ c.length % 65536 ≠ 0 ∨ c.length = 0 ∨ 2 ^ 40 < c.length ∨
          c.shards ≠ 0 then .reject 1
      else if !d.rangeHolds ctx c.step c.base c.length then .reject 4
      else .ok [⟨true, none, c.base, c.length⟩, ⟨false, some c.step, c.base, c.length⟩]
    | _ => .reject 1

/-- R253. The engine that serves an opcode for a wave on a core. -/
def engineOf (opcode core : Nat) : Engine :=
  match opcode with
  | 0xE9 => .pattern
  | 0xEC | 0xED => .snapshot
  | _ => .runner (dieOf core * 4 + hwOf core % 16 % 4)

/-- R342, R343. Whether an engine admits commands of a class from a context. -/
def Dev.engineGrants (d : Dev) (e : Engine) (ctx cls : Nat) : Bool :=
  match e with
  | .runner _ => d.bitGranted 33 (masterOf ctx 1) cls false
  | .pattern => d.bitGranted 34 (masterOf ctx 2) cls false
  | .snapshot => d.bitGranted 35 (masterOf ctx 3) cls false

/-- R342. The master class of an engine. -/
def Engine.master : Engine → MasterClass
  | .runner _ => 1
  | .pattern => 2
  | .snapshot => 3

/-- R335. The translation unit of an engine. -/
def Engine.unit : Engine → TransUnit
  | .runner n => .runner n
  | .pattern => .pattern
  | .snapshot => .snapshot

/-- R254. The agent that performs a command. -/
def EngineCmd.agent (c : EngineCmd) : Agent := ⟨c.ctx, c.engine.master, some c.engine.unit, .unit c.id⟩

/-- The validation of a command: its class byte, the access table, and its own fields. -/
def Dev.validEngine (d : Dev) (ctx opcode core size : Nat) (cmd : List Byte) (list : List Nat) : Validated :=
  let cls := cmdField cmd 47 47
  if !(classOf opcode cls).1 || !d.engineGrants (engineOf opcode core) ctx cls then .reject 1
  else match opcode with
    | 0xE8 => d.validCpy ctx cmd
    | 0xE9 => validLxf cmd list
    | 0xEA => d.validHxc ctx cmd
    | 0xEB => validAred cmd
    | 0xEC => validSnapshot false cmd
    | 0xED => validSnapshot true cmd
    | _ => d.validCkp ctx size cmd

/-- R250, R251, R217, R365. An engine instruction: the checks of its record, the copy of the record and of what it names in the
scratchpad, the validation, the registration of its ranges, its flag, and the command that is queued when the clause
ends. -/
def State.engineIssue (s : State) (c : Issue) (opcode : Nat) (a : Operand) : State × Except Stop Issue :=
  let addr := c.src false true a 0
  if addr % 64 ≠ 0 then (s, .error (.fault 4 0x02 0 (w64 addr)))
  else if s.scratchSize c < addr + 64 then (s, .error (.fault 5 0x06 0 (w64 addr)))
  else
    let ctx := s.dev.ctxOf c.wave.id
    let die := dieOf c.wave.core
    let m := s.scratchNow c
    let bs := m.readN addr 64
    let cmd := if opcode = 0xEE then bs ++ m.readN (cmdField bs 16 19) 128 else bs
    let at_ := cmdField bs 40 43
    let list := if opcode = 0xE9 then
        (List.range (Nat.min 512 ((s.scratchSize c - at_) / 2))).map (fun i => leNat (m.readN (at_ + 2 * i) 2))
      else []
    let sp : Space := .scratch c.wave.id.launch c.wave.id.group
    let loss := [(addr, 64), (cmdField bs 16 19, if opcode = 0xEE then 128 else 0), (at_, 2 * list.length)].findSome?
      (fun (r : Nat × Nat) => ((s.scratchCover c).readLoss none ⟨sp, r.1⟩ r.2).map (fun code => (r.1, code)))
    let v := s.dev.validEngine ctx opcode c.wave.core (s.scratchSize c) cmd list
    let ranges : List LockRange := match v with | .ok rs => rs | .reject _ => []
    let mine := (s.dev.locks.filter (fun e => e.die == die && c.commands.contains e.owner)).length
    if let some (x, code) := loss then (s, .error (.fault 11 code 0 (w64 x)))
    else if s.lockRoom die (some c.wave.id) < ranges.length then (s, .error (.notReady (.locks die (mine + ranges.length))))
    else
      let (id, s) := s.fresh
      let x : EngineCmd :=
        { id := id, ctx := ctx, engine := engineOf opcode c.wave.core, opcode := opcode
          cls := (classOf opcode (cmdField bs 47 47)).2, w := some c.wave.id, clause := c.header
          record := ⟨sp, addr⟩, command := cmd
          list := list.map (BitVec.ofNat 16), reject := match v with | .reject code => some code | .ok _ => none
          accepted := false, parked := false, node := none, phase := 0, acked := 0, failure := none
          regStep := s.dev.step ctx, regTime := s.dev.timebase, log := [], replay := [] }
      let locks := ranges.map (fun r => (⟨die, ctx, r.write, r.version, r.base, r.length, id⟩ : RangeLock))
      let c := { c with room := c.room.map (fun (r : Nat × Nat) => if r.1 = die then (r.1, r.2 - ranges.length) else r) }
      (s.mapDev (fun d => { d with locks := d.locks ++ locks }), .ok ((c.takeFlag id).send (.engine x)))

/-- R255. `cpy`. -/
def execCpy (a : Operand) (s : State) : Out := s.onIssue (fun s c => s.engineIssue c 0xE8 a)
/-- R258. `lxf`. -/
def execLxf (a : Operand) (s : State) : Out := s.onIssue (fun s c => s.engineIssue c 0xE9 a)
/-- R320. `hxc`. -/
def execHxc (a : Operand) (s : State) : Out := s.onIssue (fun s c => s.engineIssue c 0xEA a)
/-- R323. `ared`. -/
def execAred (a : Operand) (s : State) : Out := s.onIssue (fun s c => s.engineIssue c 0xEB a)
/-- R261. `pub`. -/
def execPub (a : Operand) (s : State) : Out := s.onIssue (fun s c => s.engineIssue c 0xEC a)
/-- R263. `vret`. -/
def execVret (a : Operand) (s : State) : Out := s.onIssue (fun s c => s.engineIssue c 0xED a)
/-- R368. `ckp`. -/
def execCkp (a : Operand) (s : State) : Out := s.onIssue (fun s c => s.engineIssue c 0xEE a)

/-- The command of a number. -/
def Dev.cmd? (d : Dev) (id : Nat) : Option EngineCmd := d.cmds.find? (fun c => c.id == id)

/-- Changes a command. -/
def Dev.mapCmd (d : Dev) (id : Nat) (f : EngineCmd → EngineCmd) : Dev :=
  { d with cmds := d.cmds.map (fun c => if c.id = id then f c else c) }

/-- R253. The commands of one engine and one class, in the order of issue. -/
def Dev.cmdQueue (d : Dev) (c : EngineCmd) : List EngineCmd :=
  d.cmds.filter (fun x => x.engine == c.engine && x.cls == c.cls)

/-- R253. The command of a number is accepted. -/
def Dev.acceptCmd (d : Dev) (id : Nat) : Dev :=
  { d with cmds := d.cmds.modify (d.cmds.findIdx (fun c => c.id == id)) (fun c => { c with accepted := true }) }

/-- R251, R253. The event in which a class queue accepts a command: the first that waits, while one of its 16 entries is
free; the completion flag clears. -/
def execEngineQueueAccept (cmd : Nat) (s : State) : Out :=
  .next (match s.dev.cmd? cmd with
    | none => s
    | some c =>
      let q := s.dev.cmdQueue c
      if c.accepted ∨ 16 ≤ (q.filter EngineCmd.accepted).length ∨
          (q.find? (fun x => !x.accepted)).map EngineCmd.id ≠ some cmd then s
      else
        let s := s.mapDev (fun d => d.acceptCmd cmd)
        match c.w with
        | some w => s.flagDone w cmd
        | none => s)

/-- R219. Whether two entries conflict. -/
def RangeLock.conflicts (e f : RangeLock) : Bool :=
  e.ctx == f.ctx && e.version == f.version && (e.write || f.write) &&
    decide (e.base / 64 ≤ (f.base + f.length - 1) / 64 ∧ f.base / 64 ≤ (e.base + e.length - 1) / 64)

/-- R219. Whether an entry of another command that was registered earlier conflicts with one of a command. -/
def lockedOut (owner : Nat) : List RangeLock → List RangeLock → Bool
  | _, [] => false
  | before, e :: r => (e.owner == owner && before.any e.conflicts) || lockedOut owner
      (if e.owner = owner then before else e :: before) r

/-- R219, R253. Whether a command may run: accepted, the first of its queue, not parked, its ranges free, and behind the
stores of its wave (R216). -/
def Dev.cmdReady (d : Dev) (c : EngineCmd) : Bool :=
  c.accepted && !c.parked && (d.cmdQueue c).head?.map EngineCmd.id == some c.id && !lockedOut c.id [] d.locks &&
    (match c.w with | some w => d.settledFor w c.id | none => true)

/-- R252. How an operation ends: the code, the count, the result and the flags. -/
structure EngineEnd where
  code : Nat
  count : Nat
  result : Nat
  flags : FpFlags
  deriving DecidableEq, Repr

/-- R251. An end with a code and a count alone. -/
def EngineEnd.plain (code count : Nat) : EngineEnd := ⟨code, count, 0, 0⟩

/-- R252. The status word. -/
def EngineEnd.status (e : EngineEnd) : Nat :=
  let bit := fun (f : FpFlags) (i : Nat) => if e.flags &&& f != 0 then 2 ^ i else 0
  e.code * 2 ^ 28 + bit fNV 27 + bit fOF 26 + bit fUF 25 + bit fNX 24 + bit fSATD 23

/-- R252. Bytes 48 to 63 of the record. -/
def EngineEnd.bytes (e : EngineEnd) : List Byte :=
  leBytes 8 e.result ++ leBytes 4 (Nat.min e.count (2 ^ 32 - 1)) ++ leBytes 4 e.status

/-- R220, R251. Takes a command out of its engine, with its entries. -/
def State.dropCmd (s : State) (id : Nat) : State :=
  s.mapDev (fun d => { d with
    cmds := d.cmds.filter (fun c => c.id ≠ id), locks := d.locks.filter (fun e => e.owner ≠ id) })

/-- R291. The status of a node. -/
def Dev.setNode (d : Dev) (graph node : Nat) (f : Node → Node) : Dev :=
  { d with graphs := d.graphs.map (fun g =>
      if g.id = graph then { g with nodes := g.nodes.map (fun n => if n.index = node then f n else n) } else g) }

/-- R290. The virtual address of the record of a copy node. -/
def Dev.nodeAddr (d : Dev) (graph node : Nat) : Nat :=
  ((d.graphs.find? (fun g => g.id == graph)).map Graph.nodesAt).getD 0 + 128 * node

/-- R251. The completion of an operation: its entries are released, its completion area is written, in the scratchpad or
in its node, and its count may fall. A node that cannot be written halts. -/
def State.engineFinish (s : State) (c : EngineCmd) (e : EngineEnd) : State :=
  let s := s.dropCmd c.id
  match c.w, c.node with
  | some w, _ =>
    (s.storeAt .other { c.record with addr := c.record.addr + 48 } e.bytes).mapDev (fun d => d.countDone w c.id)
  | none, some (g, n) =>
    (match s.agentWrite c.agent c.id 2 (s.dev.nodeAddr g n + 48) e.bytes with
    | (s', .ok ()) => s'
    | (_, .error _) => s.mapDev (fun d => d.setNode g n (fun x => { x with status := .stopping })))
  | none, none => s

/-- R254. How an operation stops on a fault: nothing more is written, its entries are released, its count stays raised,
and its wave halts; a copy node ends as halted. -/
def State.engineStop (s : State) (c : EngineCmd) (cls code : Nat) (addr : W64) : State :=
  let s := s.dropCmd c.id
  match c.w, c.node with
  | some w, _ => s.unitHalt w c.clause cls code 0 addr
  | none, some (g, n) => s.mapDev (fun d => d.setNode g n (fun x => { x with status := .stopping }))
  | none, none => s

/-- An operation of an engine as it runs: it ends, it stops, or it goes on later. -/
abbrev EngineRun := State × Except Stop (Option EngineEnd)

/-- R251, R329. Whether stores of a command to peers are not performed yet. -/
def Dev.storing (d : Dev) (id : Nat) : Bool := d.txns.any (fun t => t.op == id && t.kind == .store)

/-- R251 to R254. Performs a command of some opcode that may run: one that is not valid completes at once; one whose first
touch needs a fill, or whose page's right has to come home (R309), parks at that access, and what it has done stands; a fault
waits until its wave stands at a boundary, and the completion until the operation's stores are performed. -/
def State.runEngine (s : State) (cmd : Nat) (opcode : Nat → Bool) (run : State → EngineCmd → EngineRun) : Out :=
  .next (match s.dev.cmd? cmd with
    | none => s
    | some c =>
      if !opcode c.opcode ∨ !s.dev.cmdReady c then s
      else match c.reject with
        | some code => s.engineFinish c (EngineEnd.plain code 0)
        | none =>
          let rests := fun (t : State) (parked : Bool) =>
            t.mapDev (fun d => d.mapCmd cmd (fun c => { c with replay := [], parked := parked }))
          let stops : Bool := match c.w with | some w => s.unitCanStop w | none => true
          match run (s.mapDev (fun d => d.mapCmd cmd (fun c => { c with replay := c.log }))) c with
          | (t, .ok (some e)) => if t.dev.storing cmd then rests t false else t.engineFinish c e
          | (t, .ok none) => rests t false
          | (t, .error (.notReady _)) => rests t true
          | (t, .error (.fill m pages)) =>
            if !stops then s
            else (match c.w.bind s.dev.faultWave with
              | some w => (rests t true).parkUnit w m pages none (some cmd)
              | none => t.engineStop c 5 0x01 ((pages.head?.map Touch.addr).getD 0))
          | (t, .error (.fault cls code _ addr)) => if stops then t.engineStop c cls code addr else s
          | (_, .error _) => s)

/-- R254. One access of a command, which nothing performs twice: what it gave is kept, and an operation that resumes passes it
with what it gave. The lines of a peer's memory that came for it are done with. -/
def State.logged (s : State) (c : EngineCmd) (access : State → State × Except Stop (List Byte)) :
    State × Except Stop (List Byte) :=
  match ((s.dev.cmd? c.id).map EngineCmd.replay).getD [] with
  | bs :: r => (s.mapDev (fun d => d.mapCmd c.id (fun c => { c with replay := r })), .ok bs)
  | [] =>
    match access s with
    | (s, .ok bs) =>
      (s.mapDev (fun d => (d.mapCmd c.id (fun c => { c with log := c.log ++ [bs] })).dropFetched (.unit c.id)), .ok bs)
    | (s, .error e) => (s, .error e)

/-- R254. A condition that a command looks at once. -/
def State.loggedTest (s : State) (c : EngineCmd) (test : State → Bool) : State × Bool :=
  match s.logged c (fun s => (s, .ok (if test s then [1] else []))) with
  | (s, .ok bs) => (s, !bs.isEmpty)
  | (s, .error _) => (s, false)

/-- R254. The stage of a command that talks to other devices, with nothing left to pass again. -/
def EngineCmd.enters (c : EngineCmd) (phase : Nat) : EngineCmd := { c with phase := phase, log := [], replay := [] }

/-- The parts of a range that lie in one 64 KiB page each: their addresses and lengths. -/
def pageParts : Nat → Nat → Nat → List (Nat × Nat)
  | 0, _, _ => []
  | fuel + 1, va, n =>
    if n = 0 then []
    else
      let m := Nat.min n (65536 - va % 65536)
      (va, m) :: pageParts fuel (va + m) (n - m)

/-- R254. A read of global memory by a command, at a version, page by page. -/
def State.cmdRead (s : State) (c : EngineCmd) (version : Option Nat) (va n : Nat) : State × Except Stop (List Byte) :=
  runAll (fun s (acc : List Byte) (p : Nat × Nat) =>
    match s.logged c (fun s => s.agentRead c.agent version 1 p.1 p.2) with
    | (s, .error e) => (s, .error e)
    | (s, .ok bs) => (s, .ok (acc ++ bs))) s [] (pageParts (n / 65536 + 2) va n)

/-- R254. An access of a command that gives nothing. -/
def State.loggedDone (s : State) (c : EngineCmd) (access : State → State × Except Stop Unit) : State × Except Stop Unit :=
  match s.logged c (fun s => match access s with
    | (s, .error e) => (s, .error e)
    | (s, .ok ()) => (s, .ok [])) with
  | (s, .error e) => (s, .error e)
  | (s, .ok _) => (s, .ok ())

/-- R254. A write of global memory by a command, page by page. -/
def State.cmdWrite (s : State) (c : EngineCmd) (va : Nat) (bs : List Byte) : State × Except Stop Unit :=
  runAll (fun s (_ : Unit) (p : Nat × Nat) =>
    s.loggedDone c (fun s => s.agentWrite c.agent c.id 1 p.1 ((bs.drop (p.1 - va)).take p.2)))
    s () (pageParts (bs.length / 65536 + 2) va bs.length)

end Sys2Proof.Machine
end

