-- ==== Sys2Proof/Machine/CopyOps.lean ====
section
/-! DEFINITION. The copy and convert of the Runners (R256, R257) and the Pattern engine (R259): dense elements (R84), the
conversion of an element with its block scale, and the two events. -/

namespace Sys2Proof.Machine

/-- R103. A decoded element under a scale word: a zero scale gives zero and a NaN scale the default f32 NaN. -/
def scaledVal (v : FVal) (word : Nat) : FVal :=
  match scaleVal (word % 2 ^ 20) with
  | none => fmt32.decode fmt32.nan
  | some (.fin n m e) => (exactMul v (.fin n m e)).getD v
  | some _ => .zero false

/-- R256. The largest magnitude of a block: a NaN if any is one, else infinite if any is, else the exact maximum. -/
def blockMax (vs : List FVal) : FVal :=
  if vs.any FVal.isNaN then .nar
  else vs.foldl (fun m v => match m, v with
    | .inf _, _ | _, .inf _ => .inf false
    | .fin _ a e, .fin _ b f =>
      if (QVal.ofDyadic a e).cmp (QVal.ofDyadic b f) = .lt then .fin false b f else .fin false a e
    | .zero _, .fin _ b f => .fin false b f
    | m, _ => m) (.zero false)

/-- R256, R259. A block of elements converted: the scale word written, if the target is scaled, the elements and the
flags. -/
def convertBlock (src dst : EType) (rm : RMode) (sat : Bool) (xv : Nat) (word : Nat) (xs : List Nat) :
    Option Nat × List Nat × FpFlags :=
  let vs := xs.map (fun x =>
    let v := src.decodeV false xv x
    if src.scaled then scaledVal v word else v)
  if dst.scaled then
    let sc := blockScale dst (blockMax vs)
    let rs := vs.map (fun v => quantise dst rm v sc.1)
    (some sc.1, rs.map Prod.fst, rs.foldl (fun f r => f ||| r.2) sc.2)
  else
    let rs := (vs.zip xs).map (fun p => convertV rm false sat src dst p.1 p.2)
    (none, rs.map Prod.fst, rs.foldl (fun f r => f ||| r.2) 0)

/-- What a `cpy` carries along: the checksum so far and the flags. -/
structure CopyAcc where
  crc : BitVec 64
  fl : FpFlags
  deriving DecidableEq, Repr

/-- R256. One block of a row of a `cpy`: n elements from element i on. -/
def State.copyBlock (c : EngineCmd) (x : CpyCmd) (version : Option Nat) (n : Nat) (s : State) (acc : CopyAcc)
    (at_ : Nat × Nat) : State × Except Stop CopyAcc :=
  let (i1, i) := at_
  let sa := x.src + i1 * x.ss1 + i * x.stype.bits / 8
  let da := x.dst + i1 * x.ds1 + i * x.dtype.bits / 8
  let wa := x.sc + 4 * (i1 * x.n0 / 32 + i / 32)
  match s.cmdRead c version sa (x.stype.denseBytes n) with
  | (s, .error e) => (s, .error e)
  | (s, .ok bs) =>
    match (if x.scaled && x.stype.scaled then s.cmdRead c none wa 4 else (s, .ok [])) with
    | (s, .error e) => (s, .error e)
    | (s, .ok word) =>
      let r : Option Nat × List Byte × FpFlags :=
        if x.stype = x.dtype then (none, bs, 0)
        else
          let r := convertBlock x.stype x.dtype (RMode.ofCode x.rmCode) x.sat x.xv (leNat word) (unpackDense x.stype.bits n bs)
          (r.1, packDense x.dtype.bits r.2.1, r.2.2)
      match (match r.1 with | some w => s.cmdWrite c wa (leBytes 4 w) | none => (s, .ok ())) with
      | (s, .error e) => (s, .error e)
      | (s, .ok ()) =>
        match s.cmdWrite c da r.2.1 with
        | (s, .error e) => (s, .error e)
        | (s, .ok ()) =>
          (s, .ok { crc := if x.crc then crc64 acc.crc (if x.side then r.2.1 else bs) else acc.crc, fl := acc.fl ||| r.2.2 })

/-- R256, R257. A copy and convert in logical order. -/
def State.runCpy (s : State) (c : EngineCmd) : EngineRun :=
  let x := CpyCmd.of c.command
  let step := if x.sstep = c.regStep then none else some x.sstep
  let version := if x.ver then step else none
  let per := if x.scaled then x.n0 / 32 else 1
  let n := if x.scaled then 32 else x.n0
  let blocks := (List.range (x.n1 * per)).map (fun j => (j / per, j % per * 32))
  match runAll (State.copyBlock c x version n) s { crc := BitVec.ofNat 64 x.seed, fl := 0 } blocks with
  | (s, .error e) => (s, .error e)
  | (s, .ok acc) => (s, .ok (some ⟨0, x.n0 * x.n1, if x.crc then acc.crc.toNat else 0, acc.fl⟩))

/-- R256. The event in which a Runner performs a `cpy`. -/
def execCpyExecution (cmd : Nat) (s : State) : Out := s.runEngine cmd (· == 0xE8) State.runCpy

/-- The scratchpad of a command's group. -/
def State.cmdScratch (s : State) (c : EngineCmd) : Nat :=
  match c.record.space with
  | .scratch l g => ((s.dev.group? l g).map Group.scratchSize).getD 0
  | _ => 0

/-- R226, R259. The first entry of a run of entries of some bytes that lies outside the group's scratchpad. -/
def State.firstOutside (s : State) (c : EngineCmd) (a : Int) (width count : Nat) : Option Nat :=
  (List.range count).find? (fun (j : Nat) => decide (a + ((width * j : Nat) : Int) < 0 ∨
    (s.cmdScratch c : Int) < a + ((width * (j + 1) : Nat) : Int)))

/-- R227, R259. The check of a run of entries at a global cursor. -/
def globalCursor (a : Int) (width : Nat) : Option Stop :=
  if a % (width : Int) ≠ 0 then some (.fault 4 0x03 0 (BitVec.ofInt 64 a))
  else if a < 0 then some (.fault 5 0x06 0 (BitVec.ofInt 64 a))
  else none

/-- R259, R365. A read of entries of some bytes at a cursor. -/
def State.cursorRead (s : State) (c : EngineCmd) (scratch : Bool) (a : Int) (width count : Nat) :
    State × Except Stop (List Byte) :=
  let bad := fun cls code (a : Int) => (s, Except.error (Stop.fault cls code 0 (BitVec.ofInt 64 a)))
  let n := width * count
  if scratch then
    match s.firstOutside c a width count with
    | some j => bad 5 0x06 (a + ((width * j : Nat) : Int))
    | none =>
      let l : Loc := { c.record with addr := a.toNat }
      s.logged c (fun s => match s.dev.readLoss none l n with
        | some code => (s, .error (.fault 11 code 0 (BitVec.ofInt 64 a)))
        | none => (s, .ok (s.dev.peek l n)))
  else match globalCursor a width with
    | some e => (s, .error e)
    | none => s.cmdRead c none a.toNat n

/-- R259, R365. A write of entries of some bytes at a cursor: the entries before the first that faults are written. -/
def State.cursorWrite (s : State) (c : EngineCmd) (scratch : Bool) (a : Int) (width : Nat) (bs : List Byte) :
    State × Except Stop Unit :=
  if scratch then
    let l : Loc := { c.record with addr := a.toNat }
    match s.firstOutside c a width (bs.length / width) with
    | some j =>
      (if j = 0 then s else s.poke l (bs.take (width * j)),
        .error (.fault 5 0x06 0 (BitVec.ofInt 64 (a + ((width * j : Nat) : Int)))))
    | none =>
      s.loggedDone c (fun s => match s.dev.storeLoss none l bs.length with
        | some code => (s, .error (.fault 11 code 0 (BitVec.ofInt 64 a)))
        | none => (s.poke l bs, .ok ()))
  else match globalCursor a width with
    | some e => (s, .error e)
    | none => s.cmdWrite c a.toNat bs

/-- R259. The conversion of the staging entries, block by block when a type is scaled. -/
def State.patternConvert (s : State) (c : EngineCmd) (x : LxfCmd) (p : PatternState) (f g : EType) (rm : RMode)
    (sat : Bool) : State × Except Stop (Option PatternState) :=
  let n := p.staging.length
  if f.scaled || g.scaled then
    match p.scale with
    | none => (s, .ok none)
    | some i =>
      if n % 32 ≠ 0 then (s, .ok none)
      else
        let scratch := x.scratch i
        let r := runAll (fun s (acc : List Nat × FpFlags) b =>
          let at_ := p.cursor i + (4 * b : Nat)
          match (if f.scaled then s.cursorRead c scratch at_ 4 1 else (s, .ok [])) with
          | (s, .error e) => (s, .error e)
          | (s, .ok word) =>
            let r := convertBlock f g rm sat x.xv (leNat word) ((p.staging.drop (32 * b)).take 32)
            match (match r.1 with | some w => s.cursorWrite c scratch at_ 4 (leBytes 4 w) | none => (s, .ok ())) with
            | (s, .error e) => (s, .error e)
            | (s, .ok ()) => (s, .ok (acc.1 ++ r.2.1, acc.2 ||| r.2.2))) s (([] : List Nat), (0 : FpFlags)) (List.range (n / 32))
        match r with
        | (s, .error e) => (s, .error e)
        | (s, .ok acc) =>
          (s, .ok (some { p.scaled i n with staging := acc.1, fl := p.fl ||| acc.2 }))
  else
    let r := convertBlock f g rm sat x.xv 0 p.staging
    (s, .ok (some { p with staging := r.2.1, fl := p.fl ||| r.2.2 }))

/-- R259. One operation of a list; none for a list-fault. -/
def State.patternStep (s : State) (c : EngineCmd) (x : LxfCmd) (p : PatternState) (o : PatternOp) :
    State × Except Stop (Option PatternState) :=
  let q := p.steer x o
  match o with
  | .pld i w n =>
    if 1024 < p.staging.length + n then (s, .ok none)
    else match s.cursorRead c (x.scratch i) (p.cursor i) (2 ^ w) n with
      | (s, .error e) => (s, .error e)
      | (s, .ok bs) => (s, .ok (some { q with staging := p.staging ++ unpackDense (8 * 2 ^ w) n bs }))
  | .pst i w n =>
    if p.staging.length < n then (s, .ok none)
    else match s.cursorWrite c (x.scratch i) (p.cursor i) (2 ^ w) (packDense (8 * 2 ^ w) (p.staging.take n)) with
      | (s, .error e) => (s, .error e)
      | (s, .ok ()) => (s, .ok (some { q with staging := p.staging.drop n, stored := p.stored + n }))
  | .pperm k m => (s, .ok ((permute k m p.staging).map (fun xs => { q with staging := xs })))
  | .pcvt f g rm sat => s.patternConvert c x q (EType.ofCode f) (EType.ofCode g) (RMode.ofCode rm) sat
  | .pskip n =>
    (s, .ok (if 1024 < p.staging.length + n then none else some { q with staging := p.staging ++ List.replicate n 0 }))
  | _ => (s, .ok (some q))

/-- R259. The operations of a list until its end or a list-fault, with the entries stored and the flags. -/
def State.patternRun (c : EngineCmd) (x : LxfCmd) (ops : List PatternOp) :
    Nat → State → PatternState → State × Except Stop (Nat × PatternState)
  | 0, s, p => (s, .ok (0, p))
  | fuel + 1, s, p =>
    match ops[p.at_]? with
    | none => (s, .ok (0, p))
    | some o =>
      match s.patternStep c x p o with
      | (s, .error e) => (s, .error e)
      | (s, .ok none) => (s, .ok (3, p))
      | (s, .ok (some q)) => State.patternRun c x ops fuel s q

/-- R259. A run of the Pattern engine over a command's list. -/
def State.runLxf (s : State) (c : EngineCmd) : EngineRun :=
  let x := LxfCmd.of c.command
  let ops := (patternList (c.list.map BitVec.toNat)).getD []
  match State.patternRun c x ops (patternFuel ops) s (PatternState.start x) with
  | (s, .error e) => (s, .error e)
  | (s, .ok (code, p)) => (s, .ok (some ⟨code, p.stored, 0, p.fl⟩))

/-- R259. The event in which the Pattern engine runs a list. -/
def execLxfExecution (cmd : Nat) (s : State) : Out := s.runEngine cmd (· == 0xE9) State.runLxf

end Sys2Proof.Machine
end

