-- ==== Sys2Proof/Machine/CheckpointOps.lean ====
section
/-! DEFINITION. The checkpoint command: the drain of a shard into an image (R370, R371), the load of a box from shards
(R372) and the revert of a range to a published step (R373). -/

namespace Sys2Proof.Machine

/-- R369. The rows of a box: the indices of dimensions 3, 2 and 1, each from 0. -/
def boxRows (c : List Nat) : List (Nat × Nat × Nat) :=
  (List.range (c.getD 3 1)).flatMap (fun j3 => (List.range (c.getD 2 1)).flatMap (fun j2 =>
    (List.range (c.getD 1 1)).map (fun j1 => (j1, j2, j3))))

/-- R369. The address of a row of a shard in memory. -/
def TensorDesc.rowAt (t : TensorDesc) (base : Nat) (j : Nat × Nat × Nat) : Nat :=
  base + j.1 * t.strides.getD 0 0 + j.2.1 * t.strides.getD 1 0 + j.2.2 * t.strides.getD 2 0

/-- R254. The misaligned access of an engine, if an address does not fit an element type. -/
def misplaced (t : EType) (va : Nat) : Option Stop :=
  if va % t.align ≠ 0 then some (.fault 4 0x03 0 (w64 va)) else none

/-- R370. The header of a shard image. -/
def shardHeader (t : TensorDesc) (step : Nat) (crc : Nat) (now : W64) : List Byte :=
  let four := fun (l : List Nat) => (List.range 4).flatMap (fun i => leBytes 4 (l.getD i 0))
  leBytes 4 0x44524853 ++ leBytes 2 0x0204 ++ leBytes 1 t.type ++ leBytes 1 t.rank ++ leBytes 4 t.id ++ leBytes 4 0 ++
    four t.n ++ four t.lo ++ four t.c ++ leBytes 4 step ++ leBytes 4 0 ++ leBytes 8 t.payload ++ leBytes 8 crc ++
    serialNumber ++ leBytes 8 now.toNat ++ leBytes 16 0

/-- R371. A drain. -/
def State.runDrain (s : State) (c : EngineCmd) : EngineRun :=
  let x := CkpCmd.of c.command
  let t := x.tensor
  let n := t.etype.denseBytes (t.c.getD 0 1)
  let r := runAll (fun s (acc : List Byte) j =>
    let va := t.rowAt x.base j
    match misplaced t.etype va with
    | some e => (s, .error e)
    | none =>
      match s.cmdRead c (some x.step) va n with
      | (s, .error e) => (s, .error e)
      | (s, .ok bs) => (s, .ok (acc ++ bs))) s [] (boxRows t.c)
  match r with
  | (s, .error e) => (s, .error e)
  | (s, .ok payload) =>
    let crc := (crc64 0 payload).toNat
    let image := shardHeader t x.step crc s.dev.timebase ++ payload ++ List.replicate (paddedTo64 t.payload - payload.length) 0
    match s.cmdWrite c x.area image with
    | (s, .error e) => (s, .error e)
    | (s, .ok ()) => (s, .ok (some ⟨0, t.count, crc, 0⟩))

/-- R370. What a shard header says of its box, with whether it suits a descriptor, its payload size and checksum. -/
structure Shard where
  at_ : Nat
  ok : Bool
  lo : List Nat
  c : List Nat
  crc : Nat
  deriving DecidableEq, Repr

/-- R370, R372. The shard of a header. -/
def Shard.of (t : TensorDesc) (at_ : Nat) (b : List Byte) : Shard :=
  let four := fun (o : Nat) => (List.range 4).map (fun i => cmdField b (o + 4 * i) (o + 4 * i + 3))
  { at_ := at_
    ok := cmdField b 0 3 == 0x44524853 && cmdField b 4 5 == 0x0204 && cmdField b 8 11 == t.id && cmdField b 6 6 == t.type &&
      cmdField b 7 7 == t.rank && four 16 == t.n && cmdField b 12 15 == 0
    lo := four 32, c := four 48, crc := cmdField b 80 87 }

/-- R370. The payload bytes of a shard. -/
def Shard.payload (h : Shard) (t : EType) : Nat := t.denseBytes (h.c.foldl (· * ·) 1)

/-- R372. Reads the headers of a list of shards; the index of the first that does not suit. -/
def State.readShards (s : State) (c : EngineCmd) (x : CkpCmd) : State × Except Stop (List Shard × Option Nat) :=
  runAll (fun s (acc : List Shard × Option Nat) i =>
    if acc.2.isSome then (s, .ok acc)
    else match s.cmdRead c none (x.area + 8 * i) 8 with
      | (s, .error e) => (s, .error e)
      | (s, .ok p) =>
        match s.cmdRead c none (leNat p) 128 with
        | (s, .error e) => (s, .error e)
        | (s, .ok h) =>
          let sh := Shard.of x.tensor (leNat p) h
          (s, .ok (acc.1 ++ [sh], if sh.ok then none else some i))) s (([] : List Shard), none) (List.range x.shards)

/-- R372. Checks the payloads of the shards; the index of the first whose checksum differs. -/
def State.checkShards (s : State) (c : EngineCmd) (t : EType) (shards : List Shard) : State × Except Stop (Option Nat) :=
  runAll (fun s (acc : Option Nat) (p : Shard × Nat) =>
    if acc.isSome then (s, .ok acc)
    else match s.cmdRead c none (p.1.at_ + 128) (p.1.payload t) with
      | (s, .error e) => (s, .error e)
      | (s, .ok bs) => (s, .ok (if (crc64 0 bs).toNat = p.1.crc then none else some p.2))) s none shards.zipIdx

/-- R372. The intersection of two ranges of indices: its start and its length. -/
def meet (a n b m : Nat) : Nat × Nat := (Nat.max a b, Nat.min (a + n) (b + m) - Nat.max a b)

/-- R372. One row of the intersection of a shard's box and the descriptor's: the descriptor's row, and where its bytes come from
and go. -/
structure ShardRow where
  row : Nat
  src : Nat
  dst : Nat
  bytes : Nat
  deriving DecidableEq, Repr

/-- R372. The rows of the intersection of a shard's box and the descriptor's. -/
def CkpCmd.shardRows (x : CkpCmd) (h : Shard) : List ShardRow :=
  let t := x.tensor
  let w := t.etype.bits
  let at_ := fun i => meet (h.lo.getD i 0) (h.c.getD i 1) (t.lo.getD i 0) (t.c.getD i 1)
  let run := at_ 0
  if run.2 = 0 then []
  else (boxRows [0, (at_ 1).2, (at_ 2).2, (at_ 3).2]).map (fun j =>
    let i1 := (at_ 1).1 + j.1
    let i2 := (at_ 2).1 + j.2.1
    let i3 := (at_ 3).1 + j.2.2
    let src := (((i3 - h.lo.getD 3 0) * h.c.getD 2 1 + (i2 - h.lo.getD 2 0)) * h.c.getD 1 1 + (i1 - h.lo.getD 1 0)) *
      h.c.getD 0 1 + (run.1 - h.lo.getD 0 0)
    let row := t.rowAt x.base (i1 - t.lo.getD 1 0, i2 - t.lo.getD 2 0, i3 - t.lo.getD 3 0)
    { row := row, src := h.at_ + 128 + src * w / 8, dst := row + (run.1 - t.lo.getD 0 0) * w / 8
      bytes := t.etype.denseBytes run.2 })

/-- R310, R365. Whether a page's current version lies where lines are lost or granules fail. -/
def Dev.damaged (d : Dev) (ctx va : Nat) : Bool :=
  match d.ctx? ctx with
  | none => false
  | some x =>
    match d.walk x.root va with
    | .leaf l =>
      (match l.loc (va / 65536 * 65536) with
       | some loc =>
         d.lost.any (fun e => e.within loc.space loc.addr 65536) || d.failing.any (fun f => match f with
           | .memory a | .l2 _ a => a.within loc.space loc.addr 65536
           | _ => false)
       | none => false)
    | _ => false

/-- R310, R365. A restore replaces a page, or those of its granules that it writes whole: the lines of a page that it replaces
are no longer lost, and those granules get new check bits. -/
def Dev.renew (d : Dev) (whole : Bool) (written : Nat → Bool) (loc : Loc) : Dev :=
  { d with
    lost := if whole then d.lost.filter (fun e => !(e.within loc.space loc.addr 65536)) else d.lost
    failing := d.failing.filter (fun f => match f with
      | .memory a | .l2 _ a => !(a.within loc.space loc.addr 65536 && written (a.addr - loc.addr))
      | _ => true) }

/-- R260, R310, R367. Before a restore writes a damaged page, a stamped version of it is copied, and keeps its damage; the
current version is renewed. -/
def State.renewPage (s : State) (c : EngineCmd) (whole : Bool) (written : Nat → Bool) (page : Nat) :
    State × Except Stop Unit :=
  s.loggedDone c (fun s =>
    if !s.dev.damaged c.ctx page then (s, .ok ())
    else match s.agentCheck c.agent .write none page 0 with
      | (s, .error e) => (s, .error e)
      | (s, .ok loc) => (s.mapDev (fun d => d.renew whole written loc), .ok ()))

/-- R372. The copy of the rows of the shards, in list order. -/
def State.copyRows (s : State) (c : EngineCmd) (x : CkpCmd) (rows : List ShardRow) : State × Except Stop Unit :=
  let written := fun (va : Nat) => rows.any (fun r => decide (r.dst ≤ va ∧ va < r.dst + r.bytes))
  let whole := fun (p : Nat) => decide (x.base ≤ p ∧ p + 65536 ≤ x.base + x.tensor.extent)
  runAll (fun s (_ : Unit) (r : ShardRow) =>
    match misplaced x.tensor.etype r.row with
    | some e => (s, .error e)
    | none =>
      match s.cmdRead c none r.src r.bytes with
      | (s, .error e) => (s, .error e)
      | (s, .ok bs) =>
        match runAll (fun s (_ : Unit) (p : Nat) =>
            s.renewPage c (whole p) (fun o => (List.range 32).all (fun i => written (p + o + i))) p)
            s () (pagesOf r.dst r.bytes) with
        | (s, .error e) => (s, .error e)
        | (s, .ok ()) => s.cmdWrite c r.dst bs)
    s () rows

/-- R372. The elements of the descriptor's box that some shard covers. -/
def coveredCount (t : TensorDesc) (shards : List Shard) : Nat :=
  let inside := fun (h : Shard) (i k : Nat) => decide (h.lo.getD i 0 ≤ k ∧ k < h.lo.getD i 0 + h.c.getD i 1)
  ((boxRows t.c).flatMap (fun j => (List.range (t.c.getD 0 1)).filter (fun j0 =>
    shards.any (fun h => inside h 0 (t.lo.getD 0 0 + j0) && inside h 1 (t.lo.getD 1 0 + j.1) &&
      inside h 2 (t.lo.getD 2 0 + j.2.1) && inside h 3 (t.lo.getD 3 0 + j.2.2))))).length

/-- R372. A load. -/
def State.runLoad (s : State) (c : EngineCmd) : EngineRun :=
  let x := CkpCmd.of c.command
  let t := x.tensor
  match s.readShards c x with
  | (s, .error e) => (s, .error e)
  | (s, .ok (_, some i)) => (s, .ok (some (EngineEnd.plain 2 i)))
  | (s, .ok (shards, none)) =>
    match s.checkShards c t.etype shards with
    | (s, .error e) => (s, .error e)
    | (s, .ok (some i)) => (s, .ok (some (EngineEnd.plain 3 i)))
    | (s, .ok none) =>
      match s.copyRows c x (shards.flatMap x.shardRows) with
      | (s, .error e) => (s, .error e)
      | (s, .ok ()) => (s, .ok (some (EngineEnd.plain 0 (coveredCount t shards))))

/-- R373. A revert, page by page. -/
def State.runRevert (s : State) (c : EngineCmd) : EngineRun :=
  let x := CkpCmd.of c.command
  let pages := pagesOf x.base x.length
  match runAll (fun s (_ : Unit) va =>
    match s.cmdRead c (some x.step) va 65536 with
    | (s, .error e) => (s, .error e)
    | (s, .ok bs) =>
      match s.renewPage c true (fun _ => true) va with
      | (s, .error e) => (s, .error e)
      | (s, .ok ()) => s.cmdWrite c va bs) s () pages with
  | (s, .error e) => (s, .error e)
  | (s, .ok ()) => (s, .ok (some (EngineEnd.plain 0 pages.length)))

/-- R371. The event of a drain; a `ckp` whose op is no op of R368 completes here with its code. -/
def execCkpDrain (cmd : Nat) (s : State) : Out :=
  s.runEngine cmd (· == 0xEE) (fun s c =>
    if (CkpCmd.of c.command).op = 0 then s.runDrain c else (s, .ok none))

/-- R372. The event of a load. -/
def execCkpLoad (cmd : Nat) (s : State) : Out :=
  s.runEngine cmd (· == 0xEE) (fun s c =>
    if (CkpCmd.of c.command).op = 1 then s.runLoad c else (s, .ok none))

/-- R373. The event of a revert. -/
def execCkpRevert (cmd : Nat) (s : State) : Out :=
  s.runEngine cmd (· == 0xEE) (fun s c =>
    if (CkpCmd.of c.command).op = 2 then s.runRevert c else (s, .ok none))

end Sys2Proof.Machine
end

