-- ==== Sys2Proof/Machine/Upsets.lean ====
section
/-! DEFINITION. Soft errors (R365, R366): where an upset strikes and what it leaves, the error counts (R408), and the
registers that an instruction reads or covers. -/

namespace Sys2Proof.Machine

/-- R365, R408. The structures of the error counts, in the order of R365 (log 70): registers, scratchpad, weight banks, the
stores with parity, the L2 with the directory, HBM, and the LPDDR tier. -/
def Granule.structure (g : Granule) : Nat :=
  match g with
  | .vector _ _ _ | .scalar _ _ _ | .pred _ _ _ | .temp _ _ _ => 0
  | .scratch _ _ _ => 1
  | .bank _ _ _ => 2
  | .l2 _ _ => 4
  | .memory l => if l.space = .lpddr then 6 else 5

/-- R408. Counts an error of a structure. -/
def Dev.countError (d : Dev) (n : Nat) (uncorrectable : Bool) : Dev :=
  let old := (d.errorCounts.find? (fun e => e.structure_ == n)).getD ⟨n, 0, 0⟩
  let new : ErrorCount := if uncorrectable then { old with uncorrectable := old.uncorrectable + 1 }
    else { old with corrected := old.corrected + 1 }
  { d with errorCounts := new :: d.errorCounts.filter (fun e => e.structure_ ≠ n) }

/-- R365. An uncorrectable error of a granule: a clean line of an L2 is discarded; bytes that a die holds in M or O, or that
are the only copy, fail from now on. -/
def Dev.fail (d : Dev) (g : Granule) : Dev :=
  match g with
  | .l2 die a =>
    (match d.l2.find? (fun c => c.die == die && c.line == a.line) with
     | some c => if c.dirty then { d with failing := g :: d.failing.filter (· ≠ g) }
       else { d with l2 := d.l2.filter (· ≠ c) }
     | none => d)
  | .memory a =>
    if d.l2.any (fun c => c.line == a.line && c.dirty) then d else { d with failing := g :: d.failing.filter (· ≠ g) }
  | _ => { d with failing := g :: d.failing.filter (· ≠ g) }

/-- R365. The granule at the place that a soft error names, if there is one (log 70). -/
def Dev.upsetGranule (d : Dev) (kind i n m : Nat) : Option Granule :=
  match kind with
  | 0 => d.waves[i]?.map (fun w => .vector w.id (n % Nat.max 1 w.nregs) (m % Nat.max 1 w.width))
  | 1 => d.waves[i]?.map (fun w => .scalar w.id (n % 48) (m % 2))
  | 2 => d.waves[i]?.map (fun w => .pred w.id (n % 15) (m % 2))
  | 3 => d.waves[i]?.map (fun w => .temp w.id (n % 8) (m % Nat.max 1 w.width))
  | 4 => d.groups[i]?.bind (fun g => if 8 * n < g.scratchSize then some (.scratch g.launch g.index n) else none)
  | 5 => if i < 256 ∧ m < 16384 then some (.bank i (n % 2) m) else none
  | 6 => d.l2[i]?.map (fun c => .l2 c.die { c.line with addr := c.line.addr + 32 * (n % 4) })
  | 7 => if n < 2 ^ 34 then some (.memory ⟨.hbm, 32 * n⟩) else none
  | 8 => if n < 2 ^ 37 then some (.memory ⟨.lpddr, 32 * n⟩) else none
  | _ => none

/-- R365. An error in a store with parity: the entry of an L1 or of a TLB is discarded, and fetched again. -/
def Dev.parityError (d : Dev) (tlb : Bool) (i n : Nat) : Dev :=
  let d := d.countError 3 false
  if tlb then { d with tlbs := d.tlbs.eraseIdx i } else { d with cores := d.cores.modify i (fun c => { c with l1 := c.l1.eraseIdx n }) }

/-- R365. An uncorrectable error of the directory's entry of a line: a line that a die holds in M or O fails there; any other
leaves the directory and the L2s, and is fetched again (log 70). -/
def State.directoryError (s : State) (line : Loc) : State :=
  match s.dev.l2.find? (fun c => c.line == line && c.dirty) with
  | some c => s.mapDev (fun d => (line.granules 128).foldl (fun d g => d.fail (.l2 c.die g)) d)
  | none => s.dirEvict line

/-- R365. The soft error that strikes with a step, if one does. -/
def State.upset (s : State) (x : List Nat) : State :=
  match x with
  | [9, _, i, n, m] => s.mapDev (fun d => d.parityError (m == 0) i n)
  | [10, uncorrectable, i, _, _] =>
    (match (s.dev.dir.filter DirLine.held)[i]? with
     | none => s
     | some e =>
       if uncorrectable = 0 then s.mapDev (fun d => d.countError 4 false)
       else (s.mapDev (fun d => d.countError 4 true)).directoryError e.line)
  | [kind, uncorrectable, i, n, m] =>
    (match s.dev.upsetGranule kind i n m with
     | none => s
     | some g => s.mapDev (fun d =>
       if uncorrectable = 0 then d.countError g.structure false else (d.countError g.structure true).fail g))
  | _ => s

/-- R366. Whether an instruction reads the register that its d field names. -/
def readsDest (op : Nat) : Bool :=
  op == 0x27 || op == 0x3B || (0x53 ≤ op && op ≤ 0x55) || (0xB1 ≤ op && op ≤ 0xB3) || op == 0xB5 || op == 0xB7 || op == 0xB9 ||
    op == 0xBC || (0xC0 ≤ op && op ≤ 0xCD) || op == 0xD0

/-- R366. Whether an instruction has written, as it retires, the register that its d field names. -/
def writesDest (op : Nat) : Bool :=
  !(lateOp op) && !((0xB1 ≤ op && op ≤ 0xB3) || op == 0xB5 || op == 0xB7 || op == 0xB9 || op == 0xBC)

/-- The predicates that an instruction names as sources. -/
def predsRead (i : Instr) : List Nat :=
  match i with
  | .bif q _ | .bany q _ | .ball q _ | .lbrk q => [q.toNat]
  | .addc _ _ _ | .subb _ _ _ => [14]
  | .qand _ a b | .qor _ a b | .qxor _ a b => [a.toNat, b.toNat]
  | .qnot _ a | .qmov _ a | .qpop _ a | .kq _ a => [a.toNat]
  | _ => []

/-- The predicate that an instruction writes. -/
def predWritten (i : Instr) : Option Nat :=
  match i with
  | .ceq q _ _ | .cne q _ _ | .clt q _ _ | .cle q _ _ | .cgt q _ _ | .cge q _ _ | .cun q _ _
  | .qand q _ _ | .qor q _ _ | .qxor q _ _ | .qnot q _ | .qmov q _ | .qmsk q _ => some q.toNat
  | .addc _ _ _ | .subb _ _ _ => some 14
  | _ => none

/-- The lanes whose elements an instruction of the clause reads: every lane of a cross-lane instruction's operands, the path's
lanes for `sel`, the lowest active lane where a wave-wide instruction takes a per-lane value, and else the active lanes. -/
def Issue.readLanes (c : Issue) (op : Nat) : Lanes :=
  if crossOp op then c.wave.real ||| c.wave.helper
  else if op = 0x87 then c.pth.mask
  else if op = 0x12 ∨ op = 0x1A ∨ op = 0x1B ∨ op = 0xCF then ((lowestLane c.wave.width c.active).map bitAt).getD 0
  else c.active

/-- R365. Whether the active lanes of the clause cover a half of a predicate. -/
def Issue.coversHalf (c : Issue) (half : Nat) : Bool :=
  let m := (c.wave.real ||| c.wave.helper) >>> (32 * half)
  m.setWidth 32 &&& ~~~((c.active >>> (32 * half)).setWidth 32 : W32) == 0

/-- The registers of an instruction of the clause: those of d, a and b. -/
def Issue.regsOf (c : Issue) (i : Instr) : FieldRegs × FieldRegs × FieldRegs :=
  instrRegs ⟨c.wave.width, c.wave.nregs, 1, c.setA, c.setB, true⟩ c.pth.mode i

/-- R25, R365, R366. The data-loss fault of the registers that an instruction reads, or covers in part: its lanes, and no
address. -/
def Issue.regLoss (c : Issue) (d : Dev) (i : Instr) : Option Stop :=
  let failing := d.failing.filter (fun g => !c.covered.contains g)
  if failing.isEmpty then none
  else
    let op := opOf i
    let r := c.regsOf i
    let regs := (if readsDest op then r.1.regs else []) ++ r.2.1.regs ++ r.2.2.regs
    let preds := predsRead i ++ (if 0x17 ≤ op ∨ op = 0x11 ∨ op = 0x12 then [modeGuard c.pth.mode] else [])
    let lanes := c.readLanes op
    let hit : Granule → Option Lanes := fun g => match g with
      | .vector w n l => if w = c.wave.id ∧ regs.contains (.v n) ∧ lanes.getLsbD l then some (bitAt l) else none
      | .temp w n l => if w = c.wave.id ∧ regs.contains (.x n) ∧ lanes.getLsbD l then some (bitAt l) else none
      | .scalar w n _ => if w = c.wave.id ∧ regs.contains (.k n) then some 0 else none
      | .pred w n h =>
        if w = c.wave.id ∧ (preds.contains n ∨ (predWritten i = some n ∧ !c.coversHalf h)) then some 0 else none
      | _ => none
    let hits := failing.filterMap hit
    let m := hits.foldl (· ||| ·) (0 : Lanes) &&& ~~~c.wave.helper
    if m ≠ 0 ∨ hits.contains 0 then some (.fault 11 0x01 m 0) else none

/-- R365. The granules that an instruction of the clause writes whole: they have new check bits once the clause ends. -/
def Issue.coverRegs (c : Issue) (i : Instr) (failing : List Granule) : List Granule :=
  let op := opOf i
  let regs := if writesDest op then (c.regsOf i).1.regs else []
  failing.filter (fun g => match g with
    | .vector w n l => w == c.wave.id && regs.contains (.v n) && c.active.getLsbD l
    | .temp w n l => w == c.wave.id && regs.contains (.x n) && c.active.getLsbD l
    | .scalar w n _ => w == c.wave.id && regs.contains (.k n)
    | .pred w n h => w == c.wave.id && predWritten i == some n && c.coversHalf h
    | _ => false)

/-- The registers of a wave that start new: none of their granules fails. -/
def Dev.freshRegs (d : Dev) (id : WaveId) : Dev :=
  { d with failing := d.failing.filter (fun g => match g with
    | .vector w _ _ | .scalar w _ _ | .pred w _ _ | .temp w _ _ => w != id
    | _ => true) }

/-- R51. The temporaries of a wave start new with each clause. -/
def Dev.freshTemps (d : Dev) (id : WaveId) : Dev :=
  { d with failing := d.failing.filter (fun g => match g with | .temp w _ _ => w != id | _ => true) }

end Sys2Proof.Machine
end

