-- ==== Sys2Proof/Machine/StartClause.lean ====
section
/-! DEFINITION. The start of a clause: the fetch of its words (R42, R43, R336), its readiness (R35, R45, R46, R61, R140,
R294, R313), its decode (R44), the choice of the path (R36, R268, R297), and the selection of a bay (R287). -/

namespace Sys2Proof.Machine

/-- What the fetch of a word of code comes to: the word, a fault, the drop of the request by a target (R343), or a wait for
what is on its way. -/
inductive Fetched where
  | word (x : W32)
  | fault (cls code : Nat)
  | dropped (target : Nat)
  | waits
  deriving DecidableEq, Repr

/-- R310, R329, R334, R336, R343, R365. A word of code at a virtual address for a wave, under the translations of its cluster.
Code on a peer's page comes as fabric loads (log 15). -/
def Dev.fetchWord (d : Dev) (w : Wave) (ctx : Nat) (va : Nat) : Fetched :=
  if 2 ^ 48 ≤ va then .fault 5 0x06
  else match d.ctx? ctx with
    | none => .fault 5 0x01
    | some x =>
      if d.frozen ctx va 4 then .waits
      else match d.xlate w.unit x 0 .exec va with
      | .bad code _ _ => .fault 5 code
      | .ok loc _ _ =>
        if loc.space = .fabric then
          (match d.readFetched (.fetch w.id) loc.addr 4 with
           | none => .waits
           | some (.error e) => .fault e.1 e.2
           | some (.ok bs) => .word (BitVec.ofNat 32 (leNat bs)))
        else match d.refusedBy (masterAt ctx 0 loc.space) loc 4 false with
          | some target => .dropped target
          | none =>
            if d.lost.contains loc.line then .fault 11 0x07
            else match d.readLoss none loc 4 with
              | some code => .fault 11 code
              | none => .word (BitVec.ofNat 32 (leNat (d.peek loc 4)))

/-- The words of code from an address on, or the address of the first that does not come, with what it comes to. -/
def Dev.fetchWords (d : Dev) (w : Wave) (ctx : Nat) : Nat → Nat → Except (Nat × Fetched) (List W32)
  | _, 0 => .ok []
  | va, n + 1 =>
    match d.fetchWord w ctx va with
    | .word x =>
      (match d.fetchWords w ctx (va + 4) n with
       | .error e => .error e
       | .ok ws => .ok (x :: ws))
    | e => .error (va, e)

/-- R329, R335. A word of code is on its way: its translation comes into the TLB of the wave's cluster, and what lies on a
peer's page is asked for. -/
def State.fetchAsk (s : State) (w : Wave) (ctx va : Nat) : State :=
  if 2 ^ 48 ≤ va then s
  else
    let s := s.tlbFill (.cluster (hwOf w.core)) ctx va
    match (s.dev.ctx? ctx).map (fun x => s.dev.xlate w.unit x 0 .exec va) with
    | some (.ok loc _ _) => if loc.space = .fabric then s.askLines (.fetch w.id) ctx loc.addr 4 else s
    | _ => s

/-- R329, R335. The words of a path's next clause are on their way. -/
def State.fetchFill (s : State) (w : Wave) (p : Nat) : State :=
  let pc := (w.path p).pc.toNat
  let ctx := s.dev.ctxOf w.id
  let s := s.fetchAsk w ctx pc
  match s.dev.fetchWord w ctx pc with
  | .word x =>
    (match decodeHeader x with
     | some (h, _) => (List.range h.len).foldl (fun s i => s.fetchAsk w ctx (pc + 4 + 4 * i)) s
     | none => s)
  | _ => s

/-- R45, R46. The flags that a header names: those of its wait mask, setA and setB. -/
def headerNames (h : Header) (n : Nat) : Bool := h.wait.getLsbD n || h.setA == n || h.setB == n

/-- R45, R46. Whether a flag that a header names is still set by an instruction in flight. -/
def Path.flagsBusy (x : Path) (h : Header) : Bool :=
  (List.range 12).any (fun n => headerNames h n && !((x.flags.getD n FlagState.clear).ops.isEmpty))

/-- R45. The pending fault that a clause of a path raises as it starts. -/
def Path.raisedBy (x : Path) (h : Header) : Option PendingFault :=
  x.pending.find? (fun f => match f.trigger with | .flag n => headerNames h n | _ => false)

/-- R274. Whether a clause of some words at a path's next header reaches past the end of its top loop entry's body. -/
def Path.crossesLoop (x : Path) (len : Nat) : Bool :=
  match x.loops with
  | e :: _ => decide (x.pc.toNat < e.stop.toNat ∧ e.stop.toNat < x.pc.toNat + 4 * (len + 1))
  | [] => false

/-- R140. The vector registers that the instructions in flight under some operation numbers write. -/
def Dev.lateRegs (d : Dev) (ops : List Nat) : List Reg :=
  (d.inflight.filter (fun a => ops.contains a.op)).flatMap (fun a => match a.dest with
    | .v n pair => regRun (.v n) (if pair then 2 else 1)
    | _ => []) ++
  d.cores.flatMap (fun c => c.queue.flatMap (fun m => match m with
    | .mma op _ _ r _ _ _ _ => if ops.contains op then regRun (.v r) 16 else []
    | .mmz op _ _ r => if ops.contains op then regRun (.v r) 16 else []
    | .results op _ _ r _ => if ops.contains op then regRun (.v r) 16 else []
    | _ => []))

/-- R140. Whether a clause with cross-lane instructions has to wait for a result of the other path, which may wait at the
reconvergence address: `topk` reads its b of other lanes too. -/
def Dev.crossHeld (d : Dev) (e : ClauseEnv) (w : Wave) (p : Nat) (is : List Decoded) : Bool :=
  let o := w.path (1 - p)
  w.dual &&
    (let late := d.lateRegs (o.flags.flatMap FlagState.ops)
     is.any (fun i => crossOp (opOf i.instr) && (let r := instrRegs e i.mode i.instr
       r.2.1.regs.any late.contains || (opOf i.instr == 0xAE && r.2.2.regs.any late.contains))))

/-- R61. Whether the counted instructions of a clause would raise a counter of the group above 65,535. -/
def Dev.counterFull (d : Dev) (id : WaveId) (is : List Decoded) : Bool :=
  match d.group? id.launch id.group with
  | none => false
  | some g => (List.range 4).any (fun n =>
      let k := (is.filter (fun i => counterOf (opOf i.instr) == some n)).length
      decide (0 < k ∧ 65535 < g.counter n + k))

/-- R294. A wave's id in its launch: the pair of its group and its index in the group, in order. -/
def waveBefore (a b : WaveId) : Bool := decide (a.group < b.group ∨ (a.group = b.group ∧ a.wave < b.wave))

/-- R294. The clock of a wave as the Isobar has made it known. -/
def Dev.knownClock (d : Dev) (id : WaveId) : Nat := ((d.isobar.lookup id).getD 0).toNat

/-- R294. Whether an access is a synchronising operation. -/
def Access.sync (a : Access) : Bool :=
  match a.kind with
  | .atomic _ | .ldr | .stcn | .cond _ | .enq _ => true
  | .load | .store => a.counter == some 2
  | _ => false

/-- R294. Whether a wave has a synchronising operation that is not yet performed or accepted. -/
def State.syncPending (s : State) (id : WaveId) : Bool :=
  s.dev.inflight.any (fun a => a.w == id && a.sync && !a.lanes.isEmpty) ||
    s.dev.inflight.any (fun a => a.w == id && (match a.kind with | .enq _ => true | _ => false)) ||
    s.dev.units.any (fun u => u.queue.any (fun o => o.w == id && !o.accepted)) ||
    s.dev.cmds.any (fun c => c.w == some id && !c.accepted) || (s.issueOf id).isSome

/-- R294. Whether a wave may start a clause with a synchronising operation: no other wave of its launch has one pending, and
its clock and id are the least among the live waves of the launch that are not excluded. -/
def State.isobarPasses (s : State) (w : Wave) : Bool :=
  s.dev.waves.all (fun x => x.id.launch != w.id.launch || x.id == w.id ||
    (!s.syncPending x.id &&
      (x.over || x.excluded || decide (w.retired.toNat < s.dev.knownClock x.id) ||
        (w.retired.toNat == s.dev.knownClock x.id && waveBefore w.id x.id))))

/-- How the start of a clause ends. -/
inductive Start where
  | notReady
  | stops (e : Stop)
  /-- R343. A target has dropped a request of its fetch. -/
  | drops (target : Nat) (e : Stop)
  | runs (c : Issue)

/-- R161. The length of a wave's chain of cores. -/
def Dev.chainLength (d : Dev) (w : Wave) : Nat :=
  match d.launch? w.id.launch, d.group? w.id.launch w.id.group with
  | some l, some g => l.record.ccores - g.ccore
  | _, _ => 1

/-- The clause of a path at its start, with nothing done yet. -/
def Wave.issueAt (w : Wave) (p : Nat) (h : Header) (words : List W32) : Issue :=
  let pc := (w.path p).pc
  { wave := w, path := p, header := pc, words := words, setA := h.setA, setB := h.setB, seen := 0
    temps := List.replicate 8 (List.replicate w.width 0), effects := []
    next := pc + 4 * (BitVec.ofNat 64 h.len + 1), trap := none, flushed := false, phase := .running, paid := []
    room := [], queues := [], checked := [], rival := false, counted := false, covered := [], turn := none }

/-- R49. The instructions that wait, or take something from the device, before their clause ends: `spcfg`, `enq`, `stf`,
`xadd`, `xcas`, `fnc`, `fsys`, `lfe`, whose question goes out as it issues, and the engine instructions. -/
def aheadOp (op : Nat) : Bool :=
  op == 0x18 || op == 0x1B || op == 0xBC || (0xCC ≤ op && op ≤ 0xCF) || (0xE8 ≤ op && op ≤ 0xEE) || op == 0xF0

/-- R336, R343. The end of a clause's start where a word of it does not come. -/
def Fetched.start (e : Fetched) (mask : Lanes) (va : Nat) : Start :=
  match e with
  | .fault cls code => .stops (.fault cls code mask (w64 va))
  | .dropped target => .drops target (.fault 5 0x08 mask (w64 va))
  | _ => .notReady

/-- R42 to R46, R61, R140, R294. The start of the clause at a path's next header. -/
def State.startOf (s : State) (w : Wave) (p : Nat) : Start :=
  let d := s.dev
  let x := w.path p
  let ctx := d.ctxOf w.id
  match d.fetchWord w ctx x.pc.toNat with
  | .fault cls code => (Fetched.fault cls code).start x.mask x.pc.toNat
  | .dropped target => (Fetched.dropped target).start x.mask x.pc.toNat
  | .waits => .notReady
  | .word hw =>
    match decodeHeader hw with
    | none => .stops (illegal 0x06)
    | some (h, ok) =>
      if x.flagsBusy h then .notReady
      else if !ok then .stops (.fault 3 0x01 0 0)
      else
        match d.fetchWords w ctx (x.pc.toNat + 4) h.len with
        | .error e => e.2.start x.mask e.1
        | .ok words =>
          let e : ClauseEnv := ⟨w.width, w.nregs, d.chainLength w, h.setA, h.setB, h.temps⟩
          if x.crossesLoop h.len then .stops (.fault 3 0x09 0 0)
          else match decodeClause e (h.len + 1) x.mode 0 [] words with
            | .error f => .stops (.fault f.1 f.2 0 0)
            | .ok is =>
              if d.crossHeld e w p is || d.counterFull w.id is ||
                  (d.det w.id && is.any (fun i => syncOp (opOf i.instr)) && !s.isobarPasses w) then .notReady
              else match x.raisedBy h with
                | some f => .stops (.pending f)
                | none => .runs { w.issueAt p h words with
                    phase := if is.any (fun i => aheadOp (opOf i.instr)) then .unchecked else .running }

/-- R39, R348, R353. Whether a launch runs: it is not halted, no launch of its context has used its budget, and its
context is not free, saved or being saved. -/
def Dev.launchRuns (d : Dev) (l : Launch) : Bool :=
  !l.halted && !(d.launches.any (fun x => x.ctx == l.ctx && !x.halted && decide (x.budget ≤ x.used))) &&
    (match d.ctx? l.ctx with
     | some c => (c.state == 1 || c.state == 2) && c.saving.isNone
     | none => false)

/-- R35, R36, R297, R338. Whether a wave may start a clause at all: it is not held or parked, no clause of it holds, no
switch of its paths is due, and its launch runs. -/
def State.mayStart (s : State) (w : Wave) : Bool :=
  (match w.hold with | .none => true | _ => false) && !w.over && (s.issueOf w.id).isNone && !s.dev.givesWay w &&
    !s.dev.ages w && !(((s.dev.group? w.id.launch w.id.group).map Group.parked).getD false) &&
    (match s.dev.launch? w.id.launch with
     | some l => s.dev.launchRuns l
     | none => false)

/-- R36, R39, R268, R297. The counts of a wave as a path of it starts a clause: its slot, the ageing counters, and the
path that issued last. -/
def Wave.countStart (w : Wave) (p : Nat) (otherReady det : Bool) : Wave :=
  let x := w.path p
  let o := w.path (1 - p)
  let w := w.setPath p { x with slots := x.slots + 1, ageing := 0 }
  let w := if o.live ∧ otherReady then w.setPath (1 - p) { o with ageing := o.ageing + 1 } else w
  let w : Wave := { w with last := p, forced := none }
  if det then { w with switches := w.switches + 1 } else w

/-- Whether a path is live and waits for nothing. -/
def Path.open (x : Path) : Bool := x.live && x.wait == .none

/-- R36, R268, R297. The paths of a wave in the order in which they may take the slot. In deterministic mode only the
running path may. -/
def Wave.pathOrder (w : Wave) (det : Bool) : List Nat :=
  if det then [w.last]
  else match w.forced with
    | some p => [p, 1 - p]
    | none => [1 - w.last, w.last]

/-- R217, R286, R309, R313, R329, R334. Whether a path no longer lacks what it was parked for. -/
def State.parkMet (s : State) (id : WaveId) (x : Path) : Bool :=
  match x.park with
  | .none => true
  | .allowance dest units => decide (units ≤ s.dev.allowance dest)
  | .locks die entries => decide (entries ≤ s.lockRoom die (some id))
  | .graphs => decide (s.dev.openGraphs (s.dev.ctxOf id) < 64)
  | .queue core => !s.queueHeld id core
  | .right page => s.dev.rightCase (s.dev.ctxOf id) page false != .waits false
  | .fetch r => !s.dev.fetching r
  | .revocation ctx => !s.dev.revoking.any (fun r => r.ctx == ctx)

/-- A path that is no longer parked. -/
def Path.unparked (x : Path) : Path := { x with park := .none }

/-- Whether a path whose start has been looked at is ready. -/
def Start.ready : Start → Bool
  | .notReady => false
  | _ => true

/-- R36. Whether a path's clause is ready only if the checks of the whole clause find it so. -/
def Start.unsure : Start → Bool
  | .runs c => c.phase == .unchecked
  | _ => false

/-- Starts a clause of a wave, or stops it as it starts; none if no path is ready. -/
def State.startWave (s : State) (w : Wave) : Option State :=
  let det := s.dev.det w.id
  let may := fun p => (w.path p).open && s.parkMet w.id (w.path p)
  let s := [0, 1].foldl (fun s p => if may p then s.fetchFill w p else s) s
  let found := fun p => if may p then s.startOf w p else .notReady
  match (w.pathOrder det).find? (fun p => (found p).ready) with
  | none => none
  | some p =>
    let other := found (1 - p)
    let w' := w.countStart p (other.ready && !other.unsure) det
    let w' := w'.setPath p (w'.path p).unparked
    let s := s.mapDev (fun d => d.dropFetched (.fetch w.id))
    let stopped := w'.issueAt p ⟨1, 0, 15, 15, false⟩ []
    match found p with
    | .notReady => none
    | .stops e => some (s.abandon stopped e)
    | .drops target e => some ((s.abandon stopped e).dropsRequest (s.dev.ctxOf w.id) target)
    | .runs c =>
      let c := { c with wave := w', rival := other.unsure }
      let s := s.mapDev (fun d => d.freshTemps w.id)
      some (if c.phase = .running ∧ !c.rival then s.startClause c else { s with issue := some c })

/-- R287. The waves of a bay in the order of its selection: in slot order after the wave selected last. -/
def Dev.bayOrder (d : Dev) (dom : Nat) : List Wave :=
  let ws := (d.waves.filter (fun w => w.dom == dom && !w.over)).mergeSort (fun a b => decide (a.slot ≤ b.slot))
  match d.rotation.lookup dom with
  | none => ws
  | some k => ws.filter (fun w => decide (k < w.slot)) ++ ws.filter (fun w => decide (w.slot ≤ k))

/-- R287. A wave that has been considered is no longer waited for by a wave that yielded. -/
def State.considered (s : State) (id : WaveId) : State :=
  s.mapWaves (fun w => { w with yieldTo := w.yieldTo.filter (· ≠ id) })

/-- R287. Considers the waves of a bay in order; the first ready one starts its clause. A wave that yielded is passed over
while a wave it waits for is still to be considered. -/
def State.select (dom : Nat) : List WaveId → State → State
  | [], s => s
  | id :: r, s =>
    match s.dev.wave? id with
    | none => State.select dom r s
    | some w =>
      if !s.mayStart w then State.select dom r (s.considered id)
      else
        let s := [0, 1].foldl (fun s p => s.wakePath id p) s
        if w.yieldTo.any (fun y => s.dev.waves.any (fun x => x.id == y && !x.over)) then State.select dom r s
        else
          let s := s.considered id
          let w := (s.dev.wave? id).getD w
          match s.startWave w with
          | some s => { s.mapDev (fun d => { d with
                rotation := (dom, w.slot) :: d.rotation.filter (fun x => x.1 ≠ dom) }) with
              issue := s.issue.map (fun c => { c with turn := some (s.dev.rotation.lookup dom) }) }
          | none => State.select dom r s

/-- R287. The event in which a bay selects; while a clause is in execution, none starts (R47; log 3). -/
def execClauseIssue (dom : Nat) (s : State) : Out :=
  .next (if s.issue.isSome then s else State.select dom ((s.dev.bayOrder dom).map Wave.id) s)

/-- R36. The event in which the path whose ageing counter has reached 256 is to issue at the next boundary. -/
def execAgeingSwitch (w : WaveId) (s : State) : Out :=
  .next (s.onWave w (fun x =>
    if s.dev.det w then x
    else if 256 ≤ x.path0.ageing then { x with forced := some 0 }
    else if 256 ≤ x.path1.ageing then { x with forced := some 1 } else x))

/-- R297. The event in which, in deterministic mode, the running path gives way after 256 clauses. -/
def execDetPathSwitch (w : WaveId) (s : State) : Out :=
  .next (s.onWave w (fun x =>
    if s.dev.givesWay x then { x with last := 1 - x.last, switches := 0 }
    else x))

/-- R294. The event in which the Isobar makes a wave's clock known. -/
def execIsobarMinimumUpdate (w : WaveId) (s : State) : Out :=
  .next (if s.syncPending w then s
    else match s.dev.wave? w with
      | none => s
      | some x => s.mapDev (fun d => { d with isobar := (w, x.retired) :: d.isobar.filter (fun e => e.1 ≠ w) }))

/-- Whether a clause that holds can go on: a fence whose waits are met, verdicts that have come, a wave that is no longer
parked, and a path that no longer lacks what it was parked for. -/
def State.canResume (s : State) (c : Issue) : Bool :=
  (match c.wave.hold with | .none => true | _ => false) && s.parkMet c.wave.id c.pth &&
  (match c.effects, (if c.phase = .unchecked then none else c.fenceAt) with
   | .fence lanes kind _ :: _, _ => s.dev.fenceMet c.wave.id lanes kind
   | _, some .acq => s.dev.fenceMet c.wave.id c.pth.mask .acq
   | _, some k => !c.watchPending && s.dev.fenceMet c.wave.id c.pth.mask k
   | _, none => !c.watchPending)

/-- A path at the start of a wave (R33). -/
def Path.start (mask : Lanes) (mode : BitVec 16) (pc : W64) : Path :=
  { live := true, pc := pc, mask := mask, mode := mode, flags := List.replicate 12 FlagState.clear, loops := [],
    ageing := 0, join := none, wait := .none, park := .none, pending := [], slots := 0 }

/-- R33. A wave as it starts, with its first scalar and vector registers. -/
def Wave.start (id : WaveId) (core bay half slot width nregs : Nat) (real helper : Lanes) (mode : BitVec 16) (pc : W64)
    (k : List W64) (v : List (List W32)) : Wave :=
  let p := Path.start (real ||| helper) mode pc
  { id := id, core := core, bay := bay, half := half, slot := slot, width := width, nregs := nregs, real := real
    helper := helper, ended := 0
    v := (v ++ List.replicate nregs (List.replicate width 0)).take nregs
    k := (k ++ List.replicate 48 0).take 48
    q := List.replicate 15 0, fpflags := 0, xva := 0x8000, retired := 0, path0 := p, path1 := p.dead, div := []
    wset := 0, watch := [], resv := [], triggered := false, excluded := false, faultmask := 0, switches := 0, last := 0
    forced := none, yieldTo := [], hold := .none, priv := [] }

/-- A wave of 16 lanes and 192 registers in f32 mode under q15, for an instruction placed where no wave exists (log 17). -/
def Wave.lone : Wave := Wave.start ⟨0, 0, 0⟩ 0 0 0 0 16 192 0xFFFF 0 0x0F89 0 [] []

/-- A clause of some words of the first wave's path 0 (log 17). -/
def State.fetchClause (s : State) (words : List W32) : Issue :=
  (s.dev.waves.headD Wave.lone).issueAt 0 ⟨words.length, 0, 0, 1, true⟩ words

end Sys2Proof.Machine
end

