-- ==== Sys2Proof/Machine/Completion.lean ====
section
/-! DEFINITION. The events that complete what has issued: results and flags (R45), accesses performed (R37), counters
(R61), verdicts on early loads (R212), the watchdog (R39, R352), and the fill of a first touch (R339, R340). -/

namespace Sys2Proof.Machine

/-- The lanes in which results arrive. -/
def lanesIn : Arrival → Lanes
  | .whole lanes | .half _ lanes => lanes

/-- The half of the pairs that arrives: the high one or the low one; none where they arrive whole. -/
def halfIn : Arrival → Option Bool
  | .whole _ => none
  | .half high _ => some high

/-- R45, R46. The results of a long-latency instruction arrive in some lanes: whole, or one half of a pair; an asynchronous
copy is accepted. The flag clears with the last result. -/
def execLongLatencyCompletion (op : Nat) (r : Arrival) (s : State) : Out :=
  .next (match s.dev.access? op with
    | none => s
    | some a =>
      let lanes := lanesIn r
      let half := halfIn r
      match a.kind with
      | .load | .ldr => ((s.performSome op lanes.getLsbD 64).writeResults op lanes.getLsbD half).accessEnd op
      | .atomic _ | .stcn => (s.writeResults op lanes.getLsbD half).accessEnd op
      | .compute =>
        let s := s.writeResults op lanes.getLsbD half
        let left : Nat := ((s.dev.access? op).map (fun a => a.results.length)).getD 0
        if left = 0 then (s.mapDev (fun d => d.mapAccess op (fun a => { a with flag := none }))).accessEnd op else s
      | .ldgs =>
        ((s.flagDone a.w op).mapDev (fun d => d.mapAccess op (fun a => { a with flag := none }))).accessEnd op
      | _ => s)

/-- R37. Some lanes of an issued store or atomic are performed, the lowest first. -/
def execAccessPerformed (op count : Nat) (s : State) : Out :=
  .next (match s.dev.access? op with
    | none => s
    | some a =>
      match a.kind with
      | .store | .atomic _ | .stcn | .ldgs | .stsg | .cond _ =>
        (s.performSome op (fun _ => true) count).accessEnd op
      | _ => s)

/-- R61. The oldest counted instruction of a counter has completed, and the counter falls by one; a group that has ended
may be released (R34). -/
def execCounterDecrement (launch group ctr : Nat) (s : State) : Out :=
  .next (match s.dev.group? launch group with
    | none => s
    | some g =>
      match g.counters.getD ctr [] with
      | (_, true) :: _ =>
        (s.mapDev (fun d => d.mapGroup launch group (fun g =>
          { g with counters := g.counters.modify ctr (·.drop 1) }))).releaseTry launch group
      | _ => s)

/-- R211, R212. A copy of a line in a die is invalidated, and retained as stale. -/
def Dev.staleCopy (d : Dev) (die : Nat) (line : Loc) : Dev :=
  { d with l2 := d.l2.map (fun c => if c.die = die ∧ c.line = line then { c with state := .stale } else c) }

/-- R212. The verdict on a watch entry of a local line: the home compares the numbers, and strikes where the directory no
longer holds the line's number. It may strike an entry whose number stands, where an invalidation of the copy arrives. The
verdict on a fabric line is a reply of its home. -/
def execWatchVerdict (w : WaveId) (entry : Nat) (strike : Bool) (s : State) : Out :=
  .next (match (s.waveNow w).bind (fun x => x.watch[entry]?) with
    | none => s
    | some e =>
      if e.state ≠ .pending ∨ e.fabric then s
      else
        let x := s.dev.dirLine e.line
        let same := x.held && x.seq == e.seq
        let s := if strike && same then s.mapDev (fun d => d.staleCopy (dieOf (d.coreOf w)) e.line) else s
        s.judge w e.id (!strike && same))

/-- R39. The slots of a wave. -/
def Wave.slotsUsed (w : Wave) : Nat := w.path0.slots + w.path1.slots

/-- R39. Of two waves, the one that a watchdog fault names: more slots, then the lower group, then the lower wave. -/
def moreSlots (a b : Wave) : Wave :=
  if a.slotsUsed < b.slotsUsed ∨ (a.slotsUsed = b.slotsUsed ∧ waveBefore b.id a.id) then b else a

/-- R39. The live wave of a launch that a watchdog fault names. -/
def Dev.watchdogWave (d : Dev) (launch : Nat) : Option Wave :=
  match d.waves.filter (fun w => w.id.launch == launch && w.running && !w.over) with
  | [] => none
  | w :: r => some (r.foldl moreSlots w)

/-- R39. The path of a wave that a watchdog fault names. -/
def Wave.watchdogPath (w : Wave) : Nat :=
  if !w.path0.live ∨ (w.path1.live ∧ w.path0.slots < w.path1.slots) then 1 else 0

/-- R39, R348, R352. The event in which a launch has used its budget: every wave of the context halts, the named one with
the watchdog fault, and the walker stops with the context's state at 2. It waits until the named wave stands at a
boundary; where no wave is live any more, none is named. -/
def execWatchdogExpiry (launch : Nat) (s : State) : Out :=
  .next (match s.dev.launch? launch with
    | none => s
    | some l =>
      if l.used < l.budget ∨ l.halted then s
      else
        let stops := fun (s : State) (named : Option WaveId) =>
          (s.haltOthers (fun x => s.dev.ctxOf x.id == l.ctx && some x.id != named) false).mapDev (fun d =>
            ({ d with launches := d.launches.map (fun x => if x.ctx = l.ctx then { x with halted := true } else x) }
              : Dev).mapCtx l.ctx Context.halts)
        match s.dev.watchdogWave launch with
        | none => stops s none
        | some w =>
          if (s.issueOf w.id).isSome then s
          else
            let p := w.watchdogPath
            stops (s.haltWave w.id p
              { cls := 14, code := 0, mask := 0, addr := 0, pc := (w.path p).pc, uncertain := false } false false) (some w.id))

/-- R329. A leaf entry: target, V, address, whose bits [7:0] the entry has no place for, and the permission bits. -/
def leafEntry (target : Nat) (versions : Bool) (addr perms : Nat) : Nat :=
  2 * 2 ^ 62 + target * 2 ^ 60 + (if versions then 2 ^ 59 else 0) + addr / 256 * 256 + perms

/-- The permission bits R, W and A; and R and Z. -/
def permsRWA : Nat := 0xD0
/-- R339. The permission bits of a page on the shared zero frame. -/
def permsZero : Nat := 0x84

/-- R329, R339. The shared zero frame: the last 2 MiB of the HBM addresses (log 24). -/
def zeroFrame : Nat := 2 ^ 39 - 2 ^ 21

/-- R342, R343. A write of the fill routine, as the firmware master; or the drop of it, with the halt of the context. -/
def State.firmwareWrite (s : State) (ctx : Nat) (l : Loc) (bs : List Byte) : State × Option Nat :=
  match s.dev.refusedBy firmwareMaster l bs.length true with
  | some target => (s.dropsRequest ctx target, some 0x08)
  | none => (s.storeAt .other l bs, none)

/-- R339. Writes a leaf. -/
def State.writeLeaf (s : State) (ctx at_ entry : Nat) : State × Option Nat := s.firmwareWrite ctx ⟨.hbm, at_⟩ (leBytes 8 entry)

/-- R235. The reservations of a context's waves on a page that a fill moves go with the bytes of its lines. -/
def State.moveReservations (s : State) (ctx page pages : Nat) (old new : Loc) : State :=
  let mine := s.dev.launches.filter (fun l => l.ctx == ctx) |>.map Launch.id
  s.mapWaves (fun w => if !mine.contains w.id.launch then w else { w with resv := w.resv.map (fun r =>
    if page ≤ r.page ∧ r.page < page + pages ∧ r.line.within old.space old.addr (65536 * pages) then
      { r with line := ⟨new.space, new.addr + (r.line.addr - old.addr)⟩ }
    else r) })

/-- R339, R342, R414. A page of some size in a frame of its own: the frame zeroed, its version records, and its leaf; or
the code with which the fill fails: the pool has no frame or no record, or a write is dropped. -/
def State.fillPage (s : State) (x : Context) (home bits at_ : Nat) : State × Option Nat :=
  let frames := (if home = 1 then 2 else 0) + (if bits = 21 then 1 else 0)
  let records := if bits = 21 then 5 else 4
  let n := 2 ^ bits / 65536
  if (s.dev.poolList x records).count = 0 then (s, some 0x07)
  else match s.poolTake x frames with
    | none => (s, some 0x07)
    | some (frame, s) =>
      match s.poolTake x records with
      | none => (s, some 0x07)
      | some (record, s) =>
        let sp := tierSpace home
        let record := record / 256 * 256
        match s.dev.refusedBy firmwareMaster ⟨sp, frame⟩ (65536 * n) true with
        | some target => (s.dropsRequest x.index target, some 0x08)
        | none =>
          let s := s.mapDev (fun d => (d.setTier sp ((d.tier sp).clearRange frame (65536 * n))).dirWriteRange sp frame
            (65536 * n))
          let s := s.mapDev (fun d => { d with
            lost := d.lost.filter (fun l => !l.within sp frame (65536 * n))
            failing := d.failing.filter (fun f => match f with | .memory a | .l2 _ a => !a.within sp frame (65536 * n) | _ => true)
            gaps := d.gaps.filter (fun g => !(decide (record ≤ g.record ∧ g.record < record + 64 * n))) })
          let slot := fun (i : Nat) => recordBytes [⟨true, false, home, frame + 65536 * i, 0, s.dev.step x.index⟩]
          match s.firmwareWrite x.index ⟨.hbm, record⟩ ((List.range n).flatMap slot) with
          | (s, some code) => (s, some code)
          | (s, none) =>
            s.writeLeaf x.index at_ (leafEntry home true record permsRWA)

/-- R235, R334, R339, R340. The fill of one page: the code of its failure, if it fails. A page that is mapped by now is
left alone; an entry that is missing above the level of the page cannot be filled, and neither can a page on the zero
frame that may be executed, that a peer may reach, or that is larger than 2 MiB (log 25). A page that leaves the zero
frame leaves it in the TLBs and the L1s too, after the accesses checked under it. -/
def State.fillOne (s : State) (ctx va : Nat) (write : Bool) : State × Option Nat :=
  match s.dev.ctx? ctx with
  | none => (s, some 0x01)
  | some x =>
    match s.dev.hintOf x va with
    | none => (s, some 0x01)
    | some h =>
      let map := fun (s : State) (at_ bits : Nat) =>
        let off := va / 2 ^ bits * 2 ^ bits - h.base
        if h.home = 2 then s.writeLeaf ctx at_ (leafEntry 2 false (h.backing + off) permsRWA)
        else if h.home = 3 then s.writeLeaf ctx at_ (leafEntry 3 false (h.peer * 2 ^ 48 + (h.backing + off) % 2 ^ 48) permsRWA)
        else if h.unwritten ∧ !write then s.writeLeaf ctx at_ (leafEntry 0 false zeroFrame permsZero)
        else s.fillPage x h.home bits at_
      match s.dev.walkTable x.root va with
      | .invalid at_ sh => if sh = (if h.large then 21 else 16) then map s at_ sh else (s, some 0x01)
      | .leaf l =>
        if !(entryBit l.entry 2 && write) then (s, none)
        else if entryBit l.entry 5 ∨ entryBit l.entry 3 ∨ 21 < l.bits then (s, some 0x03)
        else
          let page := va / 2 ^ l.bits * 2 ^ l.bits
          (match map (s.revoke ctx page (2 ^ l.bits)) l.entryAt l.bits with
          | (s, some code) => (s, some code)
          | (s, none) =>
            match s.dev.walk x.root page with
            | .leaf l' => (((l'.frame.map Prod.fst).elim s
                (fun new => s.moveReservations ctx (page / 65536) (2 ^ l.bits / 65536) ⟨.hbm, zeroFrame⟩ new)), none)
            | _ => (s, none))
      | .malformed => (s, some 0x0A)

/-- R339. The fills of what a fault has touched, in order, until one fails: that touch, and the code. -/
def State.fillAll (ctx : Nat) : List Touch → State → State × Option (Touch × Nat)
  | [], s => (s, none)
  | t :: r, s =>
    match s.fillOne ctx t.page t.write with
    | (s, none) => State.fillAll ctx r s
    | (s, some code) => (s, some (t, code))

/-- R336, R339. Whether a touch still meets no page after a fill has failed. -/
def Dev.unfilled (d : Dev) (ctx : Nat) (t : Touch) : Bool :=
  match d.ctx? ctx with
  | none => true
  | some x => match d.walkTable x.root t.page with
    | .leaf l => entryBit l.entry 2 && t.write
    | _ => true

/-- R336, R339. The lanes of a fill that still fail. -/
def Dev.unfilledLanes (d : Dev) (f : Fill) : Lanes :=
  f.mask &&& maskOf ((f.pages.filter (d.unfilled f.ctx)).map Touch.lane)

/-- R338, R339, R353. The end of a fill: its group runs on, unless another fill of it is still to come, and the parked unit
or engine may replay; while a save of the context is under way, a parked splat operation replays after the restore. -/
def State.unpark (s : State) (f : Fill) : State :=
  let more := s.dev.fills.any (fun x => x.w.launch == f.w.launch && x.w.group == f.w.group)
  let mine := s.dev.fills.any (fun x => x.w == f.w)
  let saving := ((s.dev.ctx? f.ctx).bind Context.saving).isSome
  let s := if mine then s else s.onWave f.w (fun w => match w.hold with
    | .fill => { w with hold := .none, faultmask := 0 }
    | _ => w)
  let s := if more then s else s.mapDev (fun d => d.mapGroup f.w.launch f.w.group (fun g => { g with parked := false }))
  let s := match f.unit with
    | some u => s.mapDev (fun d => d.mapUnit u (fun x => { x with queue := x.queue.map (fun o =>
        if o.w.launch = f.w.launch ∧ o.w.group = f.w.group then { o with parked := o.parked && saving } else o) }))
    | none => s
  let s := match f.cmd with
    | some c => s.mapDev (fun d => { d with cmds := d.cmds.map (fun x => if x.id = c then { x with parked := false } else x) })
    | none => s
  if (s.issueOf f.w).isSome then s else s.boundaryHalt f.w

/-- R190, R254, R336, R339. A fill that fails at a touch: the wave halts with the code, for the lanes that still fail; a unit or
an engine stops its operation. -/
def State.fillFails (s : State) (f : Fill) (t : Touch) (code : Nat) : State :=
  let mask := s.dev.unfilledLanes f
  let addr := t.addr
  let s := s.unpark f
  let op : Option (WaveId × W64) := match f.unit, f.cmd with
    | some u, _ => ((s.dev.units.find? (fun x => x.index == u)).bind (fun x => x.queue.head?)).map (fun o => (o.w, o.clause))
    | none, some c => (s.dev.cmds.find? (fun x => x.id == c)).bind (fun x => x.w.map (fun w => (w, x.clause)))
    | none, none => none
  let s := match f.unit with
    | some u => s.mapDev (fun d => d.mapUnit u (fun x => { x with queue := x.queue.drop 1 }))
    | none => s
  let s := match f.cmd with
    | some c => s.mapDev (fun d => { d with
        cmds := d.cmds.filter (fun x => x.id ≠ c), locks := d.locks.filter (fun e => e.owner ≠ c) })
    | none => s
  match op with
  | some (w, clause) => s.unitHalt w clause 5 code (if f.unit.isSome then mask else 0) addr
  | none =>
    match s.dev.wave? f.w with
    | some w => s.takeFault f.w w.last
        { cls := 5, code := code, mask := mask, addr := addr, pc := (w.path w.last).pc, uncertain := false }
    | none => s

/-- R339. The event in which the nth parked fault is filled and its group resumes. -/
def execFirstTouchFill (n : Nat) (s : State) : Out :=
  .next (match s.dev.fills[n]? with
    | none => s
    | some f =>
      if s.issue.isSome then s
      else
        let r := State.fillAll f.ctx f.pages s
        let s := r.1.mapDev (fun d => { d with fills := d.fills.eraseIdx n })
        match r.2 with
        | none => s.unpark f
        | some (t, code) => s.fillFails f t code)

end Sys2Proof.Machine
end

