-- ==== Sys2Proof/Machine/Placement.lean ====
section
/-! DEFINITION. Launch records and their checks (R31, R32), the fit of groups on cores and hardware clusters (R22, R24,
R26, R30, R298), and the placement of clusters with the start of their waves (R25, R27, R33). -/

namespace Sys2Proof.Machine

/-- R31. The record of 64 bytes. -/
def LaunchRecord.of (b : List Byte) : LaunchRecord :=
  let x := leNat b
  { entry := w64 (bitsOf x 511 448), args := w64 (bitsOf x 447 384), extx := bitsOf x 383 352, exty := bitsOf x 351 336
    extz := bitsOf x 335 320, gsx := bitsOf x 319 309, gsy := bitsOf x 308 298, gsz := bitsOf x 297 287
    wavew := 16 * 2 ^ bitsOf x 286 285, vregs := bitsOf x 284 277, scratch := 1024 * bitsOf x 276 267
    cgroups := bitsOf x 266 262, ccores := bitsOf x 261 259, fuse := entryBit x 258, det := entryBit x 257
    mode := BitVec.ofNat 16 (bitsOf x 255 240), l1conv := bitsOf x 239 236, diemask := BitVec.ofNat 4 (bitsOf x 235 232)
    wdog := bitsOf x 223 192, cls := bitsOf x 191 189 }

/-- R31. The reserved bits of a record. -/
def recordReserved (b : List Byte) : Nat :=
  let x := leNat b
  bitsOf x 256 256 + bitsOf x 231 224 + bitsOf x 188 0

/-- R24. The lanes of a group. -/
def LaunchRecord.lanes (r : LaunchRecord) : Nat := r.gsx * r.gsy * r.gsz
/-- R24. The waves of a group. -/
def LaunchRecord.waves (r : LaunchRecord) : Nat := (r.lanes + r.wavew - 1) / r.wavew
/-- R25. The groups of the grid in x. -/
def LaunchRecord.ngx (r : LaunchRecord) : Nat := (r.extx + r.gsx - 1) / r.gsx
/-- R25. The groups of the grid in y. -/
def LaunchRecord.ngy (r : LaunchRecord) : Nat := (r.exty + r.gsy - 1) / r.gsy
/-- R25. The groups of the grid in z. -/
def LaunchRecord.ngz (r : LaunchRecord) : Nat := (r.extz + r.gsz - 1) / r.gsz
/-- R26. The groups of the grid. -/
def LaunchRecord.groups (r : LaunchRecord) : Nat := r.ngx * r.ngy * r.ngz
/-- R26. The clusters of the grid. -/
def LaunchRecord.clusters (r : LaunchRecord) : Nat := (r.groups + r.cgroups - 1) / r.cgroups

/-- R24. The bay of wave w of a group, and the half of it for 16-lane waves. -/
def LaunchRecord.bayOf (r : LaunchRecord) (w : Nat) : Nat × Nat := (w % 4, if r.wavew = 16 then w / 4 % 2 else 0)

/-- R22. The slots of a bay, or of half a bay, and the bytes of registers. -/
def LaunchRecord.slotLimit (r : LaunchRecord) : Nat × Nat := if r.wavew = 16 then (16, 131072) else (32, 262144)

/-- R22, R24. The waves of one group in a bay, or half of a bay. -/
def LaunchRecord.wavesIn (r : LaunchRecord) (bay : Nat × Nat) : Nat :=
  ((List.range r.waves).filter (fun w => r.bayOf w == bay)).length

/-- The bays of a core, each with its halves. -/
def bayHalves : List (Nat × Nat) := [(0, 0), (1, 0), (2, 0), (3, 0), (0, 1), (1, 1), (2, 1), (3, 1)]

/-- R22, R32. Whether groups with some number of waves in a bay fit beside waves that stand there. -/
def LaunchRecord.bayFits (r : LaunchRecord) (n : Nat) : Bool :=
  decide (n ≤ r.slotLimit.1 ∧ n * (r.vregs * r.wavew * 4) ≤ r.slotLimit.2)

/-- R32. Whether a record is rejected. -/
def LaunchRecord.invalid (r : LaunchRecord) (reserved : Nat) : Bool :=
  let m := r.mode.toNat
  let per := (r.cgroups + r.ccores - 1) / r.ccores
  r.entry.toNat % 4 != 0 || reserved != 0 || decide (r.extx = 0 ∨ r.exty = 0 ∨ r.extz = 0 ∨ r.gsx = 0 ∨ r.gsy = 0 ∨ r.gsz = 0) ||
    decide (1024 < r.gsx ∨ 1024 < r.gsy ∨ 1024 < r.gsz ∨ 1024 < r.lanes ∨ 64 < r.wavew) ||
    decide (r.vregs < 8 ∨ 192 < r.vregs ∨ r.vregs % 8 ≠ 0 ∨ 8 < r.l1conv ∨ 1024 * (512 + 32 * r.l1conv) < r.scratch) ||
    decide (r.cgroups = 0 ∨ 16 < r.cgroups ∨ r.ccores = 0 ∨ 4 < r.ccores ∨ r.cgroups < r.ccores ∨ 1 < r.cls) ||
    decide (6 ≤ bitsOf m 6 4 ∨ 5 ≤ bitsOf m 13 11) ||
    !(bayHalves.all (fun b => r.bayFits (per * r.wavesIn b))) || decide (1024 * (512 + 32 * r.l1conv) < per * r.scratch)

/-- R226. The constant section that the driver has loaded with the code of an entry. -/
def Dev.constFor (d : Dev) (ctx entry : Nat) : Memory × Nat :=
  match d.consts.find? (fun c => c.ctx == ctx && decide (c.codeBase ≤ entry ∧ entry < c.codeLimit)) with
  | some c => (c.bytes, c.size)
  | none => ([], 0)

/-- R39, R196, R292. A launch of a record, with nothing placed. DESIGN CHOICE (log 16): it takes the constant section as it
stands now; a word of it that changes while the launch runs reads as its old value, one of the two that R196 allows. -/
def State.newLaunch (s : State) (ctx graph node : Nat) (r : LaunchRecord) : Nat × State :=
  let (id, s) := s.fresh
  let units := if r.wdog = 0 then ((s.dev.ctx? ctx).map Context.wdog).getD 0 else r.wdog
  let const := s.dev.constFor ctx r.entry.toNat
  let l : Launch :=
    { id := id, ctx := ctx, graph := graph, node := node, record := r, budget := units * 65536, used := 0, nextCluster := 0
      const := const.1, constSize := const.2, halted := false, restored := false }
  (id, s.mapDev (fun d => { d with launches := d.launches ++ [l] }))

/-- R26. The groups of a cluster. -/
def LaunchRecord.members (r : LaunchRecord) (cluster : Nat) : List Nat :=
  (List.range r.cgroups).filterMap (fun j => if cluster * r.cgroups + j < r.groups then some (cluster * r.cgroups + j) else none)

/-- R30, R167. Whether a core may hold more groups of a launch: groups, slots, registers and scratchpad, beside what it holds.
A core that is free takes groups once its matrix queue is empty. -/
def Dev.coreFits (d : Dev) (l : Launch) (core n : Nat) : Bool :=
  let r := l.record
  let here := d.groups.filter (fun g => g.core == core)
  let ways := if d.holdsCore core then (d.core core).ways else r.l1conv
  let used := here.foldl (fun k g => k + g.scratchSize) 0
  here.all (fun g => g.launch == l.id) && d.clusters.all (fun c => !c.cores.contains core || c.launch == l.id) &&
    (d.holdsCore core || (d.core core).queue.isEmpty) && decide ((here.filter (fun g => !g.released)).length + n ≤ 16) &&
    bayHalves.all (fun b =>
      let now := (d.waves.filter (fun w => w.core == core && w.bay == b.1 && (if r.wavew = 16 then w.half else 0) == b.2)).length
      r.bayFits (now + n * r.wavesIn b)) &&
    decide (used + n * r.scratch ≤ 1024 * (512 + 32 * ways))

/-- R26. The number of groups of a cluster of m groups that go to one of its cores. -/
def onCore (m ccores k : Nat) : Nat := ((List.range m).filter (fun j => j % ccores == k)).length

/-- The ways to take some elements of a list, in their order. -/
def chooseFrom {α : Type} : Nat → List α → List (List α)
  | 0, _ => [[]]
  | _ + 1, [] => []
  | k + 1, x :: r => (chooseFrom k r).map (x :: ·) ++ chooseFrom (k + 1) r

/-- R29. Whether the fused L1 that a cluster of a launch would have on some cores holds no core of another one of the launch,
unless it is the same. -/
def Dev.fuseFits (d : Dev) (l : Launch) (cores : List Nat) : Bool :=
  !l.record.fuse || d.clusters.all (fun c =>
    c.launch != l.id || c.cores == cores || cores.all (fun k => !c.cores.contains k))

/-- R26, R29, R30. The choices of cores of a hardware cluster, in ascending order, for the cores of a cluster of m groups. -/
def Dev.coreChoices (d : Dev) (l : Launch) (m hw : Nat) : List (List Nat) :=
  (chooseFrom l.record.ccores ((List.range 4).map (4 * hw + ·))).filter (fun cs =>
    d.fuseFits l cs && cs.zipIdx.all (fun c => d.coreFits l c.1 (onCore m l.record.ccores c.2)))

/-- R298. The cores that hold groups of a context. -/
def Dev.coresOf (d : Dev) (ctx : Nat) : List Nat :=
  ((d.groups.filter (fun g => ((d.launch? g.launch).map Launch.ctx) == some ctx)).map Group.core).eraseDups

/-- R30, R167, R192, R341. Whether a hardware cluster may take a cluster of a launch: it lies in the partition and on an
admitted die, and holds nothing of another context, matrix operations of ended waves included. -/
def Dev.clusterOpen (d : Dev) (c : Context) (l : Launch) (hw : Nat) : Bool :=
  decide (hw < 64) && c.clusters.getLsbD hw && (l.record.diemask == 0 || l.record.diemask.getLsbD (hw / 16)) &&
    d.groups.all (fun g => g.core / 4 != hw || ((d.launch? g.launch).map Launch.ctx) == some c.index) &&
    d.units.all (fun u => u.index != hw || u.queue.all (fun o => d.ctxOf o.w == c.index)) &&
    d.cores.all (fun x => hwOf x.index != hw || x.queue.isEmpty || d.inflight.all (fun a =>
      !(x.queue.any (fun m => m.op == a.op)) || a.ctx == c.index))

/-- R298. Whether the core budget of a context has room for some cores. -/
def Dev.coreRoom (d : Dev) (c : Context) (cores : List Nat) : Bool :=
  decide ((d.coresOf c.index ++ cores).eraseDups.length ≤ c.coreBudget)

/-- R298. Whether the demands of a context that are measured lie within its budgets. -/
def Context.barometer (c : Context) : Bool := decide (c.hbmUse ≤ c.hbmBudget ∧ c.powerUse ≤ c.powerBudget)

/-- R24, R25. The kind of lane i of a group: whether it is real. -/
def LaunchRecord.isReal (r : LaunchRecord) (group i : Nat) : Bool :=
  let gx := group % r.ngx
  let gy := group / r.ngx % r.ngy
  let gz := group / (r.ngx * r.ngy)
  decide (i < r.lanes ∧ gx * r.gsx + i % r.gsx < r.extx ∧ gy * r.gsy + i / r.gsx % r.gsy < r.exty ∧
    gz * r.gsz + i / (r.gsx * r.gsy) < r.extz)

/-- R25. The real lanes of wave w of a group, and its helper lanes. -/
def LaunchRecord.laneMasks (r : LaunchRecord) (group w : Nat) : Lanes × Lanes :=
  let real := (List.range r.wavew).filter (fun l => r.isReal group (w * r.wavew + l))
  let helper := (List.range r.wavew).filter (fun l => !real.contains l && real.any (fun m => m / 4 == l / 4))
  (maskOf real, maskOf helper)

/-- R33. k0 to k3 of the waves of a group. -/
def LaunchRecord.startK (r : LaunchRecord) (group member ccore hw : Nat) : List W64 :=
  let gx := group % r.ngx
  let gy := group / r.ngx % r.ngy
  let gz := group / (r.ngx * r.ngy)
  [r.args, w64 (gz * 2 ^ 48 + gy * 2 ^ 32 + gx), w64 (r.ngz * 2 ^ 48 + r.ngy * 2 ^ 32 + r.ngx),
    w64 ((r.cgroups - 1) * 2 ^ 12 + member * 2 ^ 8 + ccore * 2 ^ 6 + hw % 16 * 2 ^ 2 + hw / 16)]

/-- R33. v0 to v2 of wave w of a group, in real and helper lanes. -/
def LaunchRecord.startV (r : LaunchRecord) (w : Nat) (present : Lanes) : List (List W32) :=
  let row := fun (f : Nat → Nat) => (List.range r.wavew).map (fun l =>
    if present.getLsbD l then BitVec.ofNat 32 (f (w * r.wavew + l)) else 0)
  [row (fun i => i % r.gsx), row (fun i => i / r.gsx % r.gsy), row (fun i => i / (r.gsx * r.gsy))]

/-- R22. The free slot that a new wave takes in a bay, or half of a bay: half h holds the slots from 16h on. The manual does
not say which; the model takes the lowest (DESIGN CHOICE, log 72). -/
def freeSlot (ws : List Wave) (core : Nat) (bay : Nat × Nat) (narrow : Bool) : Nat :=
  let taken := (ws.filter (fun w => w.core == core && w.bay == bay.1 && (!narrow || w.half == bay.2))).map Wave.slot
  let base := if narrow then 16 * bay.2 else 0
  (((List.range 32).map (base + ·)).find? (fun k => !taken.contains k)).getD base

/-- R24, R33. The waves of a group join those of the device; a wave in which every lane is absent is not created. -/
def addWaves (l : Launch) (core member ccore group : Nat) (ws : List Wave) : List Wave :=
  let r := l.record
  (List.range r.waves).foldl (fun ws w =>
    let m := r.laneMasks group w
    if m.1 = 0 then ws
    else
      let bay := r.bayOf w
      ws ++ [Wave.start ⟨l.id, group, w⟩ core bay.1 bay.2 (freeSlot ws core bay (r.wavew == 16)) r.wavew r.vregs m.1 m.2 r.mode
        r.entry (r.startK group member ccore (hwOf core)) (r.startV w (m.1 ||| m.2))]) ws

/-- R149, R341. A core as it is given to a launch: its matrix array as after reset, its L1 empty, its split set. -/
def Core.given (c : Core) (ways : Nat) : Core :=
  { Core.empty c.index with ways := ways }

/-- R26, R27, R341. Places a cluster on chosen cores, with its groups and their waves; the hardware cluster keeps no
translation of another context. -/
def Dev.placeCluster (d : Dev) (l : Launch) (cluster hw : Nat) (cores : List Nat) : Dev :=
  let r := l.record
  let d := cores.foldl (fun d c =>
    if d.holdsCore c then d.discardL1 l.id c .device
    else { d.mapCore c (fun x => x.given r.l1conv) with
      failing := d.failing.filter (fun g => match g with | .bank i _ _ => i != c | _ => true) }) d
  let d := { d with
    tlbs := d.tlbs.filter (fun e => e.unit ≠ .cluster hw ∨ e.ctx = l.ctx)
    clusters := d.clusters ++ [{ launch := l.id, index := cluster, hw := hw, cores := cores
                                 barriers := List.replicate 16 ⟨0, []⟩ }] }
  ((r.members cluster).zipIdx).foldl (fun d p =>
    let k := p.2 % r.ccores
    let core := cores.getD k 0
    let g : Group :=
      { launch := l.id, index := p.1, cluster := cluster, member := p.2, ccore := k, core := core, scratch := []
        scratchSize := r.scratch, counters := List.replicate 4 [], barriers := List.replicate 16 ⟨0, []⟩
        splat := ⟨16, 16, 0x38D1B717, 0x3C23D70A, 0x3E99999A⟩, converted := 0, released := false, parked := false }
    { d with groups := d.groups ++ [g], waves := addWaves l core p.2 k p.1 d.waves }) d

/-- R27, R30, R298. The places of the next cluster of a launch on a hardware cluster that the launcher and the core budget
allow now. -/
def Dev.placesOn (d : Dev) (c : Context) (l : Launch) (hw : Nat) : List (List Nat) :=
  if d.clusterOpen c l hw then
    (d.coreChoices l (l.record.members l.nextCluster).length hw).filter (d.coreRoom c)
  else []

/-- R27, R30, R298. The place of the next cluster of a launch on a hardware cluster, if it may be placed there now. -/
def Dev.placeOn (d : Dev) (c : Context) (l : Launch) (hw : Nat) : Option (List Nat) :=
  if c.barometer then (d.placesOn c l hw).head? else none

/-- R27, R38. Places the next cluster of a launch on cores. The manual allows any order; the clusters of a launch are placed
in the order of their indices (DESIGN CHOICE, log 72). -/
def Dev.placeNext (d : Dev) (l : Launch) (hw : Nat) (cores : List Nat) : Dev :=
  (d.placeCluster l l.nextCluster hw cores).mapLaunch l.id (fun x => { x with nextCluster := x.nextCluster + 1 })

/-- R38, R298. Whether a launch still has clusters to place and no older one of its context waits before it. -/
def Dev.mayPlace (d : Dev) (l : Launch) : Bool :=
  let waits := fun (x : Launch) => decide (x.nextCluster < x.record.clusters) && !x.halted
  waits l && ((d.launches.find? (fun x => x.ctx == l.ctx && waits x)).map Launch.id) == some l.id &&
    (match d.ctx? l.ctx with | some c => (c.state == 1 || c.state == 2) && c.saving.isNone | none => false)

/-- R27, R30, R38, R298. The event in which the next cluster of a launch is placed whole on a hardware cluster, and all
its waves start. -/
def execGroupPlacement (launch hw : Nat) (s : State) : Out :=
  .next (match s.dev.launch? launch with
    | none => s
    | some l =>
      match s.dev.ctx? l.ctx with
      | none => s
      | some c =>
        if !s.dev.mayPlace l then s
        else match s.dev.placeOn c l hw with
          | none => s
          | some cores => s.mapDev (fun d => d.placeNext l hw cores))

/-- R296. The groups of a launch for which the cores of a hardware cluster have room. -/
def Dev.groupRoom (d : Dev) (c : Context) (l : Launch) (hw : Nat) : Nat :=
  if d.clusterOpen c l hw then
    ((List.range 4).map (fun k => ((List.range 16).filter (fun n => d.coreFits l (4 * hw + k) (n + 1))).length)).foldl (· + ·) 0
  else 0

/-- R296. Places every cluster that a launch has left at the same moment, if there is a way to place them all within the core
budget; the first one that a search over all places finds. -/
def Dev.placeAll (c : Context) : Nat → Dev → Nat → Option Dev
  | 0, d, launch =>
    match d.launch? launch with
    | some l => if l.nextCluster < l.record.clusters then none else some d
    | none => none
  | fuel + 1, d, launch =>
    match d.launch? launch with
    | none => none
    | some l =>
      if l.record.clusters ≤ l.nextCluster then some d
      else if ((List.range 64).map (d.groupRoom c l)).foldl (· + ·) 0 + l.nextCluster * l.record.cgroups < l.record.groups then none
      else (List.range 64).findSome? (fun hw => (d.placesOn c l hw).findSome? (fun cores =>
        Dev.placeAll c fuel (d.placeNext l hw cores) launch))

/-- R296. The device as if the context's partition were empty. -/
def Dev.emptied (d : Dev) (launch : Nat) : Dev :=
  { d with groups := [], waves := [], clusters := [], units := [], cores := []
           launches := d.launches.filter (fun l => l.id == launch) }

end Sys2Proof.Machine
end

