-- ==== Sys2Proof/Machine/Walker.lean ====
section
/-! DEFINITION. The graph walker: its accesses (R417), the checks of a graph (R289, R290), its acceptance through the
doorbell and through `enq` (R286, R409), and the start, the completion and the ends of nodes and graphs (R291, R292,
R296). -/

namespace Sys2Proof.Machine

/-- R417. The code of R336 with which a need on a range of a context fails, at the first page that fails. -/
def Dev.rangeCode (d : Dev) (ctx : Nat) (need : Need) (va n : Nat) : Option Nat :=
  if 2 ^ 48 < va + n then some 0x06
  else match d.ctx? ctx with
    | none => some 0x01
    | some x => (pagesOf va n).findSome? (fun p => match d.xlate none x 0 need p with
      | .bad code _ _ => some code
      | .ok _ _ _ => none)

/-- R417. The first failure of a read and a write of a range. -/
def Dev.rangeRW (d : Dev) (ctx va n : Nat) : Option Nat :=
  (d.rangeCode ctx .read va n).or (d.rangeCode ctx .write va n)

/-- R309, R329, R334, R417. What the walker finds where a page's right is not at home, where bytes are to come from a peer, or
where a translation is being revoked: it waits for it. -/
def State.walkerMeets (s : State) (ctx : Nat) (e : Stop) : State :=
  match e with
  | .notReady p => s.mapDev (fun d => { d with walkerWaits := d.walkerWaits ++ [(ctx, p)] })
  | _ => s

/-- R417. The walker of a context, which reads and writes as its waves do (log 65). -/
def walkerOf (ctx : Nat) : Agent := ⟨ctx, 0, none, .walker ctx⟩

/-- R417. A read by the walker; bytes that it cannot read are zero. -/
def State.walkRead (s : State) (ctx va n : Nat) : State × List Byte :=
  match s.agentRead (walkerOf ctx) none (n / 65536 + 2) va n with
  | (s, .ok bs) => (s, bs)
  | (s, .error e) => (s.walkerMeets ctx e, List.replicate n 0)

/-- R417. A write by the walker, or the code with which it is not performed. -/
def State.walkWrite (s : State) (ctx va : Nat) (bs : List Byte) : State × Option Nat :=
  match s.dev.rangeCode ctx .write va bs.length with
  | some code => (s, some code)
  | none =>
    match s.agentWrite (walkerOf ctx) 0 (bs.length / 65536 + 2) va bs with
    | (s', .ok ()) => (s', none)
    | (_, .error (.fault _ code _ _)) => (s, some code)
    | (s', .error e) => (s'.walkerMeets ctx e, none)

/-- R309, R329. An event of a context's walker: while it meets something that it has to wait for, nothing of it is done but the
recall of a right or the request for a peer's bytes; an event from outside is kept for later. -/
def State.walking (s : State) (ctx : Nat) (kept : Option HeldRequest) (f : State → State) : State :=
  let t := f (s.mapDev (fun d => { d with walkerWaits := [] }))
  if t.dev.walkerWaits.isEmpty then t.mapDev (fun d => d.dropFetched (.walker ctx))
  else (s.takeRecalls t).mapDev (fun d => { d with
    walkerWaits := t.dev.walkerWaits, heldRequests := d.heldRequests ++ kept.toList })

/-- R309, R329, R334. Whether what the walker waited for has come. -/
def Dev.walkerFree (d : Dev) : Bool :=
  d.walkerWaits.all (fun x => match x.2 with
    | .right page => d.rightCase x.1 page false == .here
    | .fetch r => !d.fetching r
    | .revocation ctx => !(d.revoking.any (fun r => r.ctx == ctx))
    | _ => true)

/-- The graph of a number. -/
def Dev.graph? (d : Dev) (id : Nat) : Option Graph := d.graphs.find? (fun g => g.id == id)

/-- Changes a graph. -/
def Dev.mapGraph (d : Dev) (id : Nat) (f : Graph → Graph) : Dev :=
  { d with graphs := d.graphs.map (fun g => if g.id = id then f g else g) }

/-- A node of a graph. -/
def Graph.node? (g : Graph) (i : Nat) : Option Node := g.nodes.find? (fun n => n.index == i)

/-- R290. A field of a node's header by its bytes in the node. -/
def Node.field (n : Node) (lo hi : Nat) : Nat := cmdField n.header (lo - 64) (hi - 64)
/-- R290. The kind. -/
def Node.kind (n : Node) : Nat := n.field 80 83
/-- R290. The number of predecessors. -/
def Node.npred (n : Node) : Nat := n.field 84 85
/-- R290. The early bits. -/
def Node.early (n : Node) : Nat := n.field 86 87
/-- R290. The eight successor slots: a node, or none. -/
def Node.succ (n : Node) : List (Option Nat) :=
  (List.range 8).map (fun i => let x := n.field (88 + 2 * i) (89 + 2 * i); if x = 0xFFFF then none else some x)
/-- R290. aux. -/
def Node.aux (n : Node) : Nat := n.field 104 111
/-- R290. The condition slot. -/
def Node.slot (n : Node) : Nat := n.aux % 256
/-- R290. The first body node of a while. -/
def Node.first (n : Node) : Nat := bitsOf n.aux 23 8
/-- R290. The last body node of a while. -/
def Node.last (n : Node) : Nat := bitsOf n.aux 39 24
/-- R290. The limit of a while. -/
def Node.limit (n : Node) : Nat := bitsOf n.aux 63 40
/-- R290. Whether a node index lies in the body of a while. -/
def Node.inBody (n : Node) (i : Nat) : Bool := n.kind == 3 && decide (n.first ≤ i ∧ i ≤ n.last)

/-- R291. The status code of a node. -/
def NodeStatus.code : NodeStatus → Nat
  | .idle => 0 | .waiting => 1 | .ready => 2 | .running | .stopping => 3 | .done => 4 | .skipped => 5 | .recordInvalid => 6
  | .halted => 7 | .whileLimit => 8 | .detRefused => 9 | .doneLate => 10

/-- R291. Whether a status is an end that delivers. -/
def NodeStatus.finished : NodeStatus → Bool
  | .done | .skipped | .doneLate => true
  | _ => false

/-- R291. Whether a status stops the graph. -/
def NodeStatus.stops : NodeStatus → Bool
  | .recordInvalid | .halted | .whileLimit | .detRefused => true
  | _ => false

/-- R290. Whether the fields of a node and its body break the table. -/
def Node.bad (n : Node) (count : Nat) (body : List Byte) : Bool :=
  let k := n.kind
  let zero := fun (lo hi : Nat) => cmdField body lo hi == 0
  n.field 64 79 != 0 || n.field 124 127 != 0 || decide (5 < k) || decide (255 < n.early) || (k != 0 && n.early != 0) ||
    n.succ.any (fun x => match x with | some j => decide (count ≤ j) | none => false) ||
    (match k with
     | 2 => n.aux / 256 != 0 || !zero 0 63
     | 3 => decide (n.limit = 0 ∨ n.last < n.first ∨ count ≤ n.last) || !zero 0 63
     | 4 => n.aux != 0 || cmdField body 0 7 % 8 != 0 || bitsOf (cmdField body 16 17) 14 11 != 0 || !zero 18 63
     | _ => n.aux != 0)

/-- R290. Whether the links of the nodes break the rules: the counts of predecessors and the bodies of the whiles. -/
def linksBad (ns : List Node) : Bool :=
  let links := ns.flatMap (fun n => (n.succ.filterMap id).map (fun j => (n.index, j)))
  ns.any (fun n => n.npred != (links.filter (fun l => l.2 == n.index)).length) ||
    ns.any (fun w => w.kind == 3 && links.any (fun l => w.inBody l.1 != w.inBody l.2))

/-- R290. The nodes of an array, with whether the graph is refused. -/
def State.readNodes (s : State) (ctx at_ count : Nat) : State × List Node × Bool :=
  let r := (List.range count).foldl (fun (acc : State × List Node × Bool) i =>
    let t := acc.1.walkRead ctx (at_ + 128 * i) 128
    let n : Node :=
      { index := i, status := .idle, waiting := 0, wanted := false, passes := 0, order := 0, readyAt := 0, counted := []
        header := t.2.drop 64 }
    (t.1, acc.2.1 ++ [{ n with waiting := n.npred }], acc.2.2 || n.bad count (t.2.take 64))) (s, [], false)
  (r.1, r.2.1, r.2.2 || linksBad r.2.1)

/-- R417. A walker write of a graph that meets a fault: it is recorded, and the graph stops. -/
def State.walkerFails (s : State) (g : Graph) (addr code node : Nat) : State :=
  let s := s.mapDev (fun d => d.mapCtx g.ctx (fun c =>
    { c with walker := { addr := w64 addr, code := code, node := node, count := c.walker.count + 1 } }))
  s.mapDev (fun d => d.mapGraph g.id (fun x => { x with stopped := x.stopped.or (some node) }))

/-- A write of the walker for a node of a graph. -/
def State.graphWrite (s : State) (g : Graph) (addr : Nat) (bs : List Byte) (node : Nat) : State :=
  match s.walkWrite g.ctx addr bs with
  | (s, none) => s
  | (s, some code) => s.walkerFails g addr code node

/-- R289, R291, R417. Writes the status word of a graph; where an accepted graph's descriptor can no longer be written, it is
recorded, and the graph stops. -/
def State.graphStatus (s : State) (g : Graph) (code node : Nat) : State :=
  match s.walkWrite g.ctx (g.desc.toNat + 60) (leBytes 4 (code * 2 ^ 28 + node)) with
  | (s, none) => s
  | (s, some why) => if (s.dev.graph? g.id).isSome then s.walkerFails g (g.desc.toNat + 60) why 0xFFFF else s

/-- R291. Gives a node a status, in the walker and in its record. -/
def State.nodeStatus (s : State) (g : Nat) (i : Nat) (st : NodeStatus) : State :=
  match s.dev.graph? g with
  | none => s
  | some x =>
    let s := s.mapDev (fun d => d.setNode g i (fun n => { n with status := st }))
    s.graphWrite x (x.nodesAt + 128 * i + 120) (leBytes 4 st.code) i

/-- R291, R292. A node becomes ready at a walker step of some number. -/
def State.nodeReady (s : State) (step g i : Nat) : State :=
  (s.mapDev (fun d => d.setNode g i (fun n => { n with order := step, readyAt := d.now }))).nodeStatus g i .ready

/-- R291. Delivers to a list of successors, done or skipped, at a walker step; a node that is skipped delivers skipped in
turn. The fuel is more than the deliveries of a graph. -/
def State.deliver (step g : Nat) : Nat → State → List (Nat × Bool) → State
  | 0, s, _ => s
  | _ + 1, s, [] => s
  | fuel + 1, s, (j, done) :: r =>
    match (s.dev.graph? g).bind (fun x => x.node? j) with
    | none => State.deliver step g fuel s r
    | some n =>
      if n.status ≠ .waiting then State.deliver step g fuel s r
      else
        let wanted := n.wanted || done
        let s := s.mapDev (fun d => d.setNode g j (fun n => { n with waiting := n.waiting - 1, wanted := wanted }))
        if 1 < n.waiting then State.deliver step g fuel s r
        else if wanted then State.deliver step g fuel (s.nodeReady step g j) r
        else State.deliver step g fuel (s.nodeStatus g j .skipped) (r ++ (n.succ.filterMap id).map (fun k => (k, false)))

/-- R291. Delivers from a node: its slots, but those counted already. -/
def State.deliverFrom (s : State) (g : Graph) (n : Node) (done : Nat → Bool) : State :=
  let slots := (n.succ.zipIdx).filterMap (fun p =>
    if n.counted.contains p.2 then none else p.1.map (fun j => (j, done p.2)))
  let (step, s) := s.fresh
  State.deliver step g.id (8 * g.nodes.length + 9) s slots

/-- R291. The end of a graph: stopped, once no node of it runs, or complete, once every node is done or skipped; a body
node that no pass has started counts as finished (log 32). -/
def State.graphEnd (s : State) (id : Nat) : State :=
  match s.dev.graph? id with
  | none => s
  | some g =>
    if g.ended then s
    else match g.stopped with
      | some i =>
        if g.nodes.any (fun n => n.status == .stopping || (n.status == .running && n.kind != 3)) then s
        else (s.graphStatus g 2 i).mapDev (fun d => d.mapGraph id (fun g => { g with ended := true }))
      | none =>
        if g.nodes.all (fun n => n.status.finished || n.status == .idle) then
          let s := s.graphWrite g g.doneAt (leBytes 8 s.dev.now.toNat) 0xFFFF
          match (s.dev.graph? id).bind Graph.stopped with
          | some i => (s.graphStatus g 2 i).mapDev (fun d => d.mapGraph id (fun g => { g with ended := true }))
          | none =>
            let s := s.graphStatus g 1 0
            if ((s.dev.graph? id).bind Graph.stopped).isSome then
              s.mapDev (fun d => d.mapGraph id (fun g => { g with ended := true }))
            else s.mapDev (fun d => { d with graphs := d.graphs.filter (fun x => x.id ≠ id) })
        else s

/-- R291. The end of a node: its time and its status are written, and it delivers, or the graph stops. -/
def State.endNode (s : State) (g : Graph) (n : Node) (st : NodeStatus) (done : Nat → Bool) : State :=
  let s := s.graphWrite g (g.nodesAt + 128 * n.index + 112) (leBytes 8 s.dev.now.toNat) n.index
  let s := s.nodeStatus g.id n.index st
  let s := if st.stops then
      s.mapDev (fun d => d.mapGraph g.id (fun x => { x with stopped := x.stopped.or (some n.index) }))
    else s.deliverFrom g n done
  s.graphEnd g.id

/-- R289, R290, R417. The acceptance of a graph whose descriptor is mapped: it is refused with code 3, or its nodes stand
waiting and those without predecessors are ready. `word` is the value for condition word 0 (R286). -/
def State.acceptGraph (s : State) (ctx desc : Nat) (word : Option W32) : State :=
  let (s, b) := s.walkRead ctx desc 64
  let nodesAt := cmdField b 0 7
  let count := cmdField b 8 11
  let condAt := cmdField b 24 31
  let doneAt := cmdField b 32 39
  let (id, s) := s.fresh
  let g : Graph :=
    { id := id, ctx := ctx, desc := w64 desc, nodesAt := nodesAt, condAt := condAt, doneAt := doneAt, nodes := []
      stopped := none, ended := false }
  let bad := decide (count = 0 ∨ 65535 < count ∨ nodesAt % 128 ≠ 0 ∨ condAt % 1024 ≠ 0 ∨ doneAt % 8 ≠ 0) ||
    cmdField b 12 23 != 0 || cmdField b 40 59 != 0 || (s.dev.rangeRW ctx nodesAt (128 * count)).isSome ||
    (s.dev.rangeRW ctx condAt 1024).isSome || (s.dev.rangeCode ctx .write doneAt 8).isSome
  if bad then s.graphStatus g 3 0
  else
    let r := s.readNodes ctx nodesAt count
    if r.2.2 then r.1.graphStatus g 3 0
    else
      let ns := r.2.1
      let s := r.1.mapDev (fun d => { d with graphs := d.graphs ++ [{ g with nodes := ns }] })
      let s := s.graphStatus g 0 0
      let s := match word with
        | some v => s.graphWrite g condAt (leBytes 4 v.toNat) 0xFFFF
        | none => s
      let (step, s) := s.fresh
      let s := ns.foldl (fun s n =>
        if ns.any (fun w => w.inBody n.index) then s.nodeStatus id n.index .idle
        else if n.npred = 0 then s.nodeReady step id n.index
        else s.nodeStatus id n.index .waiting) s
      s.graphEnd id

/-- R409. Whether a doorbell of a context waits: those behind it are accepted after it. -/
def Dev.doorbellWaits (d : Dev) (ctx : Nat) : Bool :=
  d.heldRequests.any (fun h => match h with
    | .doorbell c _ => c == ctx
    | _ => false)

/-- R409, R410. A host write to a doorbell: dropped before bring-up is complete, refused with the count of the context, or
accepted, behind those of the context that wait. -/
def State.ring (s : State) (ctx : Nat) (addr : W64) : State :=
    if s.dev.platform.state ≠ 6 then s
    else if s.dev.doorbellWaits ctx then
      s.mapDev (fun d => { d with heldRequests := d.heldRequests ++ [.doorbell ctx addr] })
    else
      let refuse := s.mapDev (fun d => d.setContext { (d.context ctx) with refused := (d.context ctx).refused + 1 })
      let free : Bool := match s.dev.ctx? ctx with | some c => c.state == 0 | none => true
      if addr.toNat % 64 ≠ 0 ∨ free ∨ 64 ≤ s.dev.openGraphs ctx ∨ (s.dev.rangeRW ctx addr.toNat 64).isSome then refuse
      else s.walking ctx (some (.doorbell ctx addr)) (fun s => s.acceptGraph ctx addr.toNat none)

/-- R409. The event of a host write to a doorbell. -/
def execDoorbell (ctx : Nat) (addr : BitVec 64) (s : State) : Out := .next (s.ring ctx addr)

/-- R286. The oldest graph that an `enq` of a context has delivered. -/
def Dev.enqOf (d : Dev) (ctx : Nat) : Option (Access × W32 × LaneAccess) :=
  (d.inflight.filter (fun a => a.ctx == ctx)).findSome? (fun a => match a.kind, a.lanes with
    | .enq v, l :: _ => some (a, v, l)
    | _, _ => none)

/-- R286, R417. The event in which the walker accepts the oldest graph that an `enq` of a context has delivered, while
fewer than 64 are open; an unmapped descriptor halts the issuing wave, but one that a helper lane named is dropped (R7,
R25). -/
def execGraphAcceptance (ctx : Nat) (s : State) : Out :=
  .next (match s.dev.enqOf ctx with
    | none => s
    | some (a, v, l) =>
      let drop := fun (s : State) => s.mapDev (fun d => { d with inflight := d.inflight.filter (fun x => x.op ≠ a.op) })
      match s.dev.rangeRW ctx l.va.toNat 64 with
      | some code =>
        if s.helperLane a l.lane then (drop s).mapDev (fun d => d.countDone a.w a.op)
        else if s.unitCanStop a.w then (drop s).unitHalt a.w a.clause 5 code 0 l.va else s
      | none =>
        if 64 ≤ s.dev.openGraphs ctx then s
        else s.walking ctx none (fun s =>
          ((drop s).acceptGraph ctx l.va.toNat (some v)).mapDev (fun d => d.countDone a.w a.op)))

/-- R291. The order in which ready nodes start: the walker step at which they became ready, the order of the graphs, and
their indices. -/
def readyBefore (a b : Graph × Node) : Bool :=
  decide (a.2.order < b.2.order ∨ (a.2.order = b.2.order ∧ (a.1.id < b.1.id ∨ (a.1.id = b.1.id ∧ a.2.index < b.2.index))))

/-- R291. Whether a node of a graph may start now: the graph is not stopped, its context runs, no deterministic launch of
the context is running, and no node of the context became ready before it. -/
def Dev.nodeMayStart (d : Dev) (g : Graph) (n : Node) : Bool :=
  let open_ := d.graphs.filter (fun x => x.ctx == g.ctx && x.stopped.isNone)
  n.status == .ready && g.stopped.isNone &&
    (match d.ctx? g.ctx with | some c => c.state == 1 && c.saving.isNone | none => false) &&
    !(d.launches.any (fun l => l.ctx == g.ctx && l.record.det)) &&
    open_.all (fun x => x.nodes.all (fun m => m.status != .ready || !readyBefore (x, m) (g, n)))

/-- R292, R296. What the start of a deterministic launch comes to: a refusal where no empty partition could hold it, or all
its clusters placed; none while it has to wait for launches of its context, for cores of others, or for its budgets. -/
def State.detStart (s : State) (g : Graph) (n : Node) (r : LaunchRecord) : Option State :=
  let (id, t) := s.newLaunch g.ctx g.id n.index r
  match s.dev.ctx? g.ctx with
  | none => none
  | some c =>
    if (Dev.placeAll c (r.clusters + 1) (t.dev.emptied id) id).isNone then some (s.endNode g n .detRefused (fun _ => false))
    else if s.dev.launches.any (fun l => l.ctx == g.ctx) || !c.barometer then none
    else (Dev.placeAll c (r.clusters + 1) t.dev id).map (fun d => ({ t with dev := d }).nodeStatus g.id n.index .running)

/-- R292, R296. The start of a kernel node. -/
def State.startKernel (s : State) (g : Graph) (n : Node) : State :=
  let (s, b) := s.walkRead g.ctx (g.nodesAt + 128 * n.index) 64
  let r := LaunchRecord.of b
  if r.invalid (recordReserved b) then s.endNode g n .recordInvalid (fun _ => false)
  else
    if r.det then (s.detStart g n r).getD s
    else (s.newLaunch g.ctx g.id n.index r).2.nodeStatus g.id n.index .running

/-- R253, R292. The start of a copy node: its command joins Runner 0, with its ranges in the table of die 0; it waits
while the table lacks room. -/
def State.startCopy (s : State) (g : Graph) (n : Node) : State :=
  let (s', b) := s.walkRead g.ctx (g.nodesAt + 128 * n.index) 64
  let cls := cmdField b 47 47
  let v := if cls ≤ 4 ∧ s'.dev.engineGrants (.runner 0) g.ctx cls then s'.dev.validCpy g.ctx b else .reject 1
  let ranges := match v with | .ok rs => rs | .reject _ => []
  if 64 < (s'.dev.locks.filter (fun e => e.die == 0)).length + ranges.length then s
  else
    let (id, s) := s'.fresh
    let x : EngineCmd :=
      { id := id, ctx := g.ctx, engine := .runner 0, opcode := 0xE8, cls := if cls ≤ 4 then cls else 0, w := none
        clause := 0, record := ⟨.hbm, g.nodesAt + 128 * n.index⟩, command := b, list := []
        reject := match v with | .reject code => some code | .ok _ => none
        accepted := false, parked := false, node := some (g.id, n.index), phase := 0, acked := 0, failure := none
        regStep := s.dev.step g.ctx, regTime := s.dev.timebase, log := [], replay := [] }
    let locks := ranges.map (fun r => (⟨0, g.ctx, r.write, r.version, r.base, r.length, id⟩ : RangeLock))
    (s.mapDev (fun d => { d with cmds := d.cmds ++ [x], locks := d.locks ++ locks })).nodeStatus g.id n.index .running

/-- R292. A condition word of a graph. -/
def State.condWord (s : State) (g : Graph) (slot : Nat) : State × Nat :=
  let r := s.walkRead g.ctx (g.condAt + 4 * slot) 4
  (r.1, leNat r.2)

/-- R292. Starts a pass of a while: its body nodes wait for their predecessors again, and those without any are ready. -/
def State.armBody (s : State) (g : Graph) (w : Node) : State :=
  let (step, s) := s.fresh
  (g.nodes.filter (fun n => w.inBody n.index)).foldl (fun s n =>
    let inner := g.nodes.any (fun x => x.index != w.index && x.inBody n.index && w.inBody x.index)
    let s := s.mapDev (fun d => d.setNode g.id n.index (fun n =>
      { n with waiting := n.npred, wanted := false, counted := [], passes := 0 }))
    if inner then s.nodeStatus g.id n.index .idle
    else if n.npred = 0 then s.nodeReady step g.id n.index
    else s.nodeStatus g.id n.index .waiting) s

/-- R292. The start of a while, and the end of each of its passes: the word is read; zero ends the node, and a pass beyond
the limit stops it. -/
def State.whilePass (s : State) (g : Graph) (n : Node) : State :=
  let (s, x) := s.condWord g n.slot
  if x = 0 then s.endNode g n .done (fun _ => true)
  else if n.limit ≤ n.passes then s.endNode g n .whileLimit (fun _ => false)
  else
    let s := s.nodeStatus g.id n.index .running
    let s := s.mapDev (fun d => d.setNode g.id n.index (fun m => { m with passes := m.passes + 1 }))
    s.armBody g n

/-- R215, R292. An event node: its value is stored, and its vector raised. -/
def State.startEvent (s : State) (g : Graph) (n : Node) : State :=
  let (s, b) := s.walkRead g.ctx (g.nodesAt + 128 * n.index) 64
  match s.walkWrite g.ctx (cmdField b 0 7) ((b.drop 8).take 8) with
  | (s, some code) => (s.walkerFails g (cmdField b 0 7) code n.index).graphEnd g.id
  | (s, none) =>
    let v := cmdField b 16 17
    let s := if entryBit v 15 then s.mapDev (fun d => { d with outbox := d.outbox ++ [.msix (v % 2 ^ 11)] }) else s
    s.endNode g n .done (fun _ => true)

/-- R292. A timed node: late if its time had passed when it became ready, or it waits. -/
def State.startTimed (s : State) (g : Graph) (n : Node) : State :=
  let (s, b) := s.walkRead g.ctx (g.nodesAt + 128 * n.index) 8
  if leNat b < n.readyAt.toNat then s.endNode g n .doneLate (fun _ => true) else s.nodeStatus g.id n.index .running

/-- R292. The event in which the walker starts a ready node, by its kind. -/
def execNodeStart (graph node : Nat) (s : State) : Out :=
  .next (match s.dev.graph? graph with
    | none => s
    | some g =>
      match g.node? node with
      | none => s
      | some n =>
        if !s.dev.nodeMayStart g n ∨ s.dev.platform.state ≠ 6 then s
        else s.walking g.ctx none (fun s => (match n.kind with
          | 0 => s.startKernel g n
          | 1 => s.startCopy g n
          | 2 =>
            let (s, x) := s.condWord g n.slot
            s.endNode g n .done (fun i => (i < 4) == (x != 0))
          | 3 => s.whilePass g n
          | 4 => s.startEvent g n
          | _ => s.startTimed g n).graphEnd graph))

/-- R34, R39. Whether a launch is complete: every cluster placed and released, with its budget not used up. What a save has
written is not released (R354). -/
def Dev.launchDone (d : Dev) (l : Launch) : Bool :=
  decide (l.used < l.budget) && decide (l.record.clusters ≤ l.nextCluster) && !(d.groups.any (fun g => g.launch == l.id)) &&
    !(d.parts.any (fun p => p.ctx == l.ctx))

/-- R214, R292. Whether every wave of every group of a launch has triggered or been released. -/
def Dev.launchTriggered (d : Dev) (l : Launch) : Bool :=
  decide (l.record.clusters ≤ l.nextCluster) && !(d.parts.any (fun p => p.ctx == l.ctx)) &&
    d.groups.all (fun g => g.launch != l.id || g.released || d.waves.all (fun w =>
      !(w.id.launch == l.id && w.id.group == g.index) || w.triggered))

/-- R214, R292. The early slots of a kernel node count it as done. -/
def State.earlyDeliver (s : State) (g : Graph) (n : Node) : State :=
  let slots := (n.succ.zipIdx).filterMap (fun p =>
    if entryBit n.early p.2 && !n.counted.contains p.2 then p.1.map (fun j => (p.2, j)) else none)
  let s := s.mapDev (fun d => d.setNode g.id n.index (fun m => { m with counted := m.counted ++ slots.map Prod.fst }))
  let (step, s) := s.fresh
  State.deliver step g.id (8 * g.nodes.length + 9) s (slots.map (fun x => (x.2, true)))

/-- R291, R292, R348. The completion of a kernel node: halted with its launch, done with its last group, or counted early
at its triggers. -/
def State.kernelCompletes (s : State) (g : Graph) (n : Node) : State :=
  match s.dev.launches.find? (fun l => l.graph == g.id && l.node == n.index) with
  | none => s
  | some l =>
    if l.halted then s.endNode g n .halted (fun _ => false)
    else if s.dev.launchDone l then
      (s.mapDev (fun d => { d with launches := d.launches.filter (fun x => x.id ≠ l.id) })).endNode g n .done (fun _ => true)
    else if s.dev.launchTriggered l then s.earlyDeliver g n
    else s

/-- R291, R292. The event in which a node that runs completes, if it does. -/
def execNodeCompletion (graph node : Nat) (s : State) : Out :=
  .next (match s.dev.graph? graph with
    | none => s
    | some g =>
      match g.node? node with
      | none => s
      | some n => s.walking g.ctx none (fun s => (match n.kind, n.status with
        | 0, .running => s.kernelCompletes g n
        | 1, .running =>
          if s.dev.cmds.any (fun c => c.node == some (graph, node)) then s else s.endNode g n .done (fun _ => true)
        | 1, .stopping => s.endNode g n .halted (fun _ => false)
        | 3, .running =>
          if g.stopped.isNone && g.nodes.all (fun m => !n.inBody m.index || m.status.finished ||
              (m.status == NodeStatus.idle && g.nodes.any (fun x => x.index != node && x.inBody m.index && n.inBody x.index)))
            && (match s.dev.ctx? g.ctx with | some c => c.state == 1 && c.saving.isNone | none => false) then s.whilePass g n
          else s
        | _, _ => s).graphEnd graph))

/-- R292. The event in which the timebase has reached the time of a timed node. -/
def execTimedNodeExpiry (graph node : Nat) (s : State) : Out :=
  .next (match s.dev.graph? graph with
    | none => s
    | some g =>
      match g.node? node with
      | none => s
      | some n =>
        if n.kind = 5 ∧ n.status = .running then s.walking g.ctx none (fun s =>
          let (s, b) := s.walkRead g.ctx (g.nodesAt + 128 * node) 8
          if leNat b ≤ s.dev.now.toNat then s.endNode g n .done (fun _ => true) else s)
        else s)

end Sys2Proof.Machine
end

