-- ==== Sys2Proof/Machine/Image.lean ====
section
/-! DEFINITION. The save image (R355 to R363): the bytes of its sections, and what a restore reads back from them. -/

namespace Sys2Proof.Machine

/-- Reserved bytes. -/
def zeros (n : Nat) : List Byte := List.replicate n 0
/-- Eight bytes of a word. -/
def le64 (x : W64) : List Byte := leBytes 8 x.toNat

/-- R31. The 64 bytes of a launch record. -/
def LaunchRecord.bytes (r : LaunchRecord) : List Byte :=
  leBytes 64 (r.entry.toNat * 2 ^ 448 + r.args.toNat * 2 ^ 384 + r.extx * 2 ^ 352 + r.exty * 2 ^ 336 + r.extz * 2 ^ 320 +
    r.gsx * 2 ^ 309 + r.gsy * 2 ^ 298 + r.gsz * 2 ^ 287 + r.wavew / 32 * 2 ^ 285 + r.vregs * 2 ^ 277 +
    r.scratch / 1024 * 2 ^ 267 + r.cgroups * 2 ^ 262 + r.ccores * 2 ^ 259 + r.fuse.toNat * 2 ^ 258 + r.det.toNat * 2 ^ 257 +
    r.mode.toNat * 2 ^ 240 + r.l1conv * 2 ^ 236 + r.diemask.toNat * 2 ^ 232 + r.wdog * 2 ^ 192 + r.cls * 2 ^ 189)

/-- R350. The bytes of a status block. -/
def StatusBlock.bytes (b : StatusBlock) : List Byte :=
  le64 b.pc ++ le64 b.mask ++ le64 b.addr ++ leBytes 2 b.code ++ leBytes 1 b.cls ++ leBytes 1 b.flags.toNat ++
    leBytes 4 b.watch.toNat ++ leBytes 4 b.ctx ++ leBytes 4 b.group ++ leBytes 2 b.wave ++ leBytes 2 b.place ++
    leBytes 4 b.mode.toNat ++ le64 b.otherpc ++ le64 b.time

/-- R350. The status block of 64 bytes. -/
def StatusBlock.of (b : List Byte) : StatusBlock :=
  let f := fun (at_ n : Nat) => field b at_ n
  { time := w64 (f 56 8), otherpc := w64 (f 48 8), mode := BitVec.ofNat 16 (f 44 4), place := f 42 2, wave := f 40 2
    group := f 36 4, ctx := f 32 4, watch := BitVec.ofNat 32 (f 28 4), flags := BitVec.ofNat 8 (f 27 1), cls := f 26 1
    code := f 24 2, addr := w64 (f 16 8), mask := w64 (f 8 8), pc := w64 (f 0 8) }

/-- R361. A loop entry. -/
def LoopEntry.bytes (e : LoopEntry) : List Byte :=
  le64 e.start ++ le64 e.stop ++ leBytes 4 e.count.toNat ++ zeros 4 ++ le64 e.broken

/-- R361. The four loop entries, the outermost first. -/
def loopBytes (l : List LoopEntry) : List Byte := (l.reverse.flatMap LoopEntry.bytes ++ zeros 128).take 128

/-- R361. A loop stack of some depth, the innermost first. -/
def loopsOf (depth : Nat) (b : List Byte) : List LoopEntry :=
  ((List.range (Nat.min depth 4)).map (fun i =>
    (⟨w64 (field b (32 * i) 8), w64 (field b (32 * i + 8) 8), BitVec.ofNat 32 (field b (32 * i + 16) 4),
      w64 (field b (32 * i + 24) 8)⟩ : LoopEntry))).reverse

/-- R361. The wait of a path: kind, arg, value and target. -/
def Wait.fields (x : Wait) : Nat × Nat × Nat × Nat :=
  match x with
  | .none | .join => (0, 0, 0, 0)
  | .barrier cl n => (1, cl.toNat * 16 + n, 0, 0)
  | .wcnt ctr t => (2, ctr, t.toNat, 0)
  | .wchk set target => (3, set, 0, target.toNat)

/-- R361. The wait of a kind, arg, value and target. -/
def Wait.ofFields (kind arg value target : Nat) : Wait :=
  match kind with
  | 1 => .barrier (entryBit arg 4) (arg % 16)
  | 2 => .wcnt (arg % 4) (BitVec.ofNat 32 value)
  | 3 => .wchk (arg % 4) (w64 target)
  | _ => .none

/-- R361. A trigger's code. -/
def Trigger.code (t : Trigger) : Nat :=
  match t with
  | .flag n => n
  | .wcntGlob _ => 0xFE
  | .release => 0xFF

/-- R361. The trigger of a code. -/
def Trigger.ofCode (n : Nat) : Trigger := if n = 0xFE then .wcntGlob 0 else if n < 12 then .flag n else .release

/-- R361. A path record; of several pending faults it holds the first (log 33). -/
def Path.bytes (p : Path) : List Byte :=
  let w := p.wait.fields
  let fault := match p.pending with
    | f :: _ => le64 f.addr ++ le64 f.mask ++ leBytes 1 f.trigger.code ++ leBytes 1 f.cls ++ leBytes 2 f.code ++
        leBytes 1 f.uncertain.toNat
    | [] => zeros 21
  le64 p.pc ++ le64 p.mask ++ leBytes 2 p.mode.toNat ++ zeros 2 ++ leBytes 1 p.live.toNat ++ leBytes 1 p.loops.length ++
    leBytes 2 (Nat.min p.ageing 255) ++ le64 (p.join.getD 0) ++ loopBytes p.loops ++ leBytes 8 p.slots ++ leBytes 1 w.1 ++
    leBytes 1 w.2.1 ++ zeros 2 ++ leBytes 4 w.2.2.1 ++ leBytes 8 w.2.2.2 ++ fault ++ zeros 51

/-- R60, R361. The flags of a restored path: clear, but for those that trigger a pending fault. -/
def restoredFlags (fs : List PendingFault) : List FlagState :=
  (List.range 12).map (fun n => ⟨[], fs.any (fun f => f.trigger == .flag n)⟩)

/-- R361. The path of a record; `dual` says whether the wave holds a dual entry, and `kept` are the pending faults as the
model keeps them beside the image, the first of which is the record's. -/
def Path.ofBytes (b : List Byte) (dual : Bool) (kept : List PendingFault) : Path :=
  let f := fun (at_ n : Nat) => field b at_ n
  let mask := w64 (f 8 8)
  let live := decide (f 20 1 = 1)
  let first : List PendingFault := if f 201 1 = 0 then [] else
    [{ trigger := Trigger.ofCode (f 200 1), cls := f 201 1, code := f 202 2, mask := w64 (f 192 8), addr := w64 (f 184 8)
       uncertain := decide (f 204 1 = 1), matrix := (kept.head?.map PendingFault.matrix).getD false }]
  let pending := first ++ kept.drop 1
  { live := live, pc := w64 (f 0 8), mask := mask, mode := BitVec.ofNat 16 (f 16 2), flags := restoredFlags pending
    loops := loopsOf (f 21 1) (b.drop 32), ageing := f 22 2, join := if f 24 8 = 0 then none else some (w64 (f 24 8))
    wait := if !live && dual && mask != 0 then .join else Wait.ofFields (f 168 1) (f 169 1) (f 172 4) (f 176 8)
    park := .none, pending := pending, slots := f 160 8 }

/-- R362. A divergence entry. -/
def DivEntry.bytes (e : DivEntry) : List Byte :=
  let d := e.deferred.getD (0, 0)
  le64 e.j ++ le64 e.arrived ++ le64 d.1 ++ le64 d.2 ++ leBytes 2 e.mode.toNat ++ leBytes 1 (!e.dual).toNat ++
    leBytes 1 e.owner ++ leBytes 1 e.loops.length ++ zeros 3 ++ loopBytes e.loops ++ zeros 24

/-- R362. The divergence entry of 192 bytes, with the broken masks that the image does not hold. -/
def DivEntry.ofBytes (b : List Byte) (broke : List Lanes) : DivEntry :=
  let f := fun (at_ n : Nat) => field b at_ n
  let loops := loopsOf (f 36 1) (b.drop 40)
  { j := w64 (f 0 8), mode := BitVec.ofNat 16 (f 32 2), loops := loops, arrived := w64 (f 8 8)
    broke := (broke ++ List.replicate loops.length 0).take loops.length
    deferred := if f 16 8 = 0 then none else some (w64 (f 16 8), w64 (f 24 8)), dual := decide (f 34 1 = 0), owner := f 35 1 }

/-- R244, R362. A watch entry: one that is pending is saved as struck. -/
def WatchEntry.bytes (e : WatchEntry) : List Byte :=
  leBytes 8 (if e.fabric then e.line.addr else e.va.toNat / 128 * 128) ++ leBytes 4 e.seq.toNat ++ leBytes 1 e.set ++
    leBytes 1 (if e.state == .confirmed then 1 else 2) ++ leBytes 1 e.fabric.toNat ++ zeros 1 ++ le64 e.lanes ++ zeros 8

/-- R362. The watch entry of 32 bytes. -/
def WatchEntry.ofBytes (b : List Byte) : WatchEntry :=
  let f := fun (at_ n : Nat) => field b at_ n
  { id := 0, fabric := decide (f 14 1 = 1), line := ⟨if f 14 1 = 1 then .fabric else .hbm, f 0 8⟩, va := w64 (f 0 8)
    seq := BitVec.ofNat 32 (f 8 4), set := f 12 1, lanes := w64 (f 16 8), state := if f 13 1 = 1 then .confirmed else .struck }

/-- R360. The length of a wave section of W lanes and N registers. -/
def waveSize (w n : Nat) : Nat := 5376 + 4 * n * w

/-- R226, R360. A wave section; `rotation` is the position of its bay, and the private backing is the address that the driver
has assigned to the wave's slot (log 73). -/
def Wave.bytes (w : Wave) (ctx rotation : Nat) : List Byte :=
  let block : Option StatusBlock := match w.hold with | .halted b => some b | _ => none
  leBytes 2 w.id.wave ++ leBytes 1 (w.width / 32) ++ leBytes 1 (w.nregs / 8) ++
    leBytes 1 (w.triggered.toNat + 2 * w.excluded.toNat + 4 * block.isSome.toNat) ++ leBytes 1 w.wset ++
    leBytes 1 w.div.length ++ leBytes 1 w.watch.length ++ le64 w.retired ++ leBytes 4 w.fpflags.toNat ++
    leBytes 4 w.xva.toNat ++ leBytes 1 rotation ++ zeros 1 ++ leBytes 2 (Nat.min w.switches 255) ++ zeros 4 ++
    le64 (Config.privateBacking ctx w.place) ++
    ((w.k.flatMap le64) ++ zeros 384).take 384 ++
    (w.q.flatMap le64 ++ leBytes 8 (2 ^ w.width - 1)) ++ w.path0.bytes ++ w.path1.bytes ++
    ((block.map StatusBlock.bytes).getD (zeros 64)) ++ zeros 152 ++
    (w.div.reverse.flatMap DivEntry.bytes ++ zeros 3072).take 3072 ++
    (w.watch.flatMap WatchEntry.bytes ++ zeros 1024).take 1024 ++ w.v.flatMap (fun r => r.flatMap (fun x => leBytes 4 x.toNat))

/-- R360. The wave of a section: its place, its lanes and its name are given; the rest is read. -/
def Wave.ofBytes (b : List Byte) (id : WaveId) (core bay half slot : Nat) (real helper : Lanes) (x : SavedWave) : Wave :=
  let f := fun (at_ n : Nat) => field b at_ n
  let width := 16 * 2 ^ f 2 1
  let n := 8 * f 3 1
  let div := ((List.range (Nat.min (f 6 1) 16)).map (fun i =>
    DivEntry.ofBytes (b.drop (1280 + 192 * i)) (x.broke.reverse.getD i []))).reverse
  let dual := div.any DivEntry.dual
  { id := id, core := core, bay := bay, half := half, slot := slot, width := width, nregs := n, real := real
    helper := helper, ended := x.ended
    v := (List.range n).map (fun r => (List.range width).map (fun l => BitVec.ofNat 32 (f (5376 + 4 * width * r + 4 * l) 4)))
    k := (List.range 48).map (fun i => w64 (f (40 + 8 * i) 8))
    q := (List.range 15).map (fun i => w64 (f (424 + 8 * i) 8))
    fpflags := BitVec.ofNat 6 (f 16 4), xva := BitVec.ofNat 16 (f 20 4), retired := w64 (f 8 8)
    path0 := Path.ofBytes (b.drop 552) dual x.pending0, path1 := Path.ofBytes (b.drop 808) dual x.pending1, div := div
    wset := f 5 1, watch := (List.range (Nat.min (f 7 1) 32)).map (fun i => WatchEntry.ofBytes (b.drop (4352 + 32 * i))), resv := []
    triggered := entryBit (f 4 1) 0, excluded := entryBit (f 4 1) 1, faultmask := 0, switches := f 26 2, last := x.last
    forced := none, yieldTo := [], hold := if entryBit (f 4 1) 2 then .halted (StatusBlock.of (b.drop 1064)) else .none
    priv := x.priv }

/-- R357. A barrier's word. -/
def Barrier.bytes (b : Barrier) : List Byte := leBytes 4 (b.uses % 65536 * 65536 + b.arrived.length % 65536)

/-- R359. A saved splat entry of a place in its unit's queue. -/
def SplatOp.bytes (o : SplatOp) (seq : Nat) (fresh : Bool) : List Byte :=
  o.command.take 64 ++ leBytes 1 o.opcode ++ leBytes 1 (o.parked.toNat + 2 * fresh.toNat) ++ zeros 6 ++ leBytes 8 seq ++
    leBytes 4 o.record ++ leBytes 2 o.w.wave ++ zeros 2 ++ le64 o.clause ++ zeros 32

/-- R359. The operations of a group in the queues of the units, each with its place there. -/
def Dev.splatOf (d : Dev) (launch group : Nat) : List (SplatOp × Nat) :=
  d.units.flatMap (fun u => (u.queue.zipIdx).filter (fun p => p.1.w.launch == launch && p.1.w.group == group))

/-- R167, R356. A core section. -/
def Core.bytes (c : Core) : List Byte :=
  leBytes 1 c.active.toNat ++ leBytes 1 c.type0.toNat ++ leBytes 1 c.type1.toNat ++ zeros 1 ++ leBytes 2 c.xvw0.toNat ++
    leBytes 2 c.xvw1.toNat ++ zeros 56 ++ c.bank0.readN 0 131072 ++ c.bank1.readN 0 131072

/-- The listed bytes of a memory image. -/
def Memory.ofBytes (b : List Byte) : Memory := Memory.writeN [] 0 b

/-- R356. The core of a section. -/
def Core.ofBytes (b : List Byte) (index ways : Nat) : Core :=
  { Core.empty index with
    active := decide (field b 0 1 = 1), type0 := BitVec.ofNat 4 (field b 1 1), type1 := BitVec.ofNat 4 (field b 2 1)
    xvw0 := BitVec.ofNat 16 (field b 4 2), xvw1 := BitVec.ofNat 16 (field b 6 2), ways := ways
    bank0 := Memory.ofBytes ((b.drop 64).take 131072), bank1 := Memory.ofBytes ((b.drop 131136).take 131072) }

/-- R300, R360. The rotation position of a wave's bay: the slot selected last. -/
def Dev.rotationOf (d : Dev) (w : Wave) : Nat := (d.rotation.lookup w.dom).getD 31

/-- R358. A group section; `fresh` names the operations that the save itself accepts, and `core` is the number of the
group's core section. -/
def Dev.groupBytes (d : Dev) (fresh : List Nat) (core : Nat) (g : Group) : List Byte :=
  let ws := (d.waves.filter (fun w => w.id.launch == g.launch && w.id.group == g.index)).mergeSort
    (fun a b => decide (a.id.wave ≤ b.id.wave))
  let ops := d.splatOf g.launch g.index
  let p := g.splat
  leBytes 4 g.index ++ leBytes 1 g.member ++ leBytes 1 g.ccore ++ leBytes 2 core ++
    ((g.counters.map (fun l => leBytes 2 l.length)).flatten ++ zeros 8).take 8 ++ leBytes 4 g.scratchSize ++
    leBytes 1 g.converted ++ leBytes 1 ws.length ++ leBytes 1 (g.released.toNat + 2 * (ops.any (fun o => o.1.parked)).toNat) ++
    zeros 1 ++ leBytes 4 p.width ++ leBytes 4 p.height ++ leBytes 4 p.cutoff.toNat ++ leBytes 4 p.near.toNat ++
    leBytes 4 p.dilation.toNat ++ zeros 20 ++ (g.barriers.flatMap Barrier.bytes ++ zeros 64).take 64 ++
    leBytes 2 ops.length ++ zeros 62 ++ zeros 64 ++ g.scratch.readN 0 g.scratchSize ++
    ops.flatMap (fun o => o.1.bytes o.2 (fresh.contains o.1.op)) ++ ws.flatMap (fun w => w.bytes (d.ctxOf w.id) (d.rotationOf w))

/-- R357. A cluster section; `cores` are the cores in the order of their sections in the image. -/
def Dev.clusterBytes (d : Dev) (fresh cores : List Nat) (r : LaunchRecord) (c : Cluster) : List Byte :=
  let gs := (d.groups.filter (fun g => g.launch == c.launch && g.cluster == c.index)).mergeSort
    (fun a b => decide (a.member ≤ b.member))
  let body := gs.flatMap (fun g => d.groupBytes fresh (cores.findIdx (· == g.core)) g)
  leBytes 1 r.cgroups ++ leBytes 1 r.ccores ++ leBytes 1 r.fuse.toNat ++ leBytes 1 gs.length ++
    leBytes 4 (128 + body.length) ++ zeros 56 ++ (c.barriers.flatMap Barrier.bytes ++ zeros 64).take 64 ++ body

/-- The launches of a context. -/
def Dev.launchesOf (d : Dev) (ctx : Nat) : List Launch := d.launches.filter (fun l => l.ctx == ctx)

/-- R161, R356. The cores that hold a launch, in ascending order: those of its clusters. -/
def Dev.coresOfLaunch (d : Dev) (launch : Nat) : List Nat :=
  ((d.clusters.filter (fun c => c.launch == launch)).flatMap Cluster.cores).eraseDups.mergeSort (fun a b => decide (a ≤ b))

/-- R356. The clusters of a launch, in the order of their first group. -/
def Dev.clustersOfLaunch (d : Dev) (launch : Nat) : List Cluster :=
  (d.clusters.filter (fun c => c.launch == launch)).mergeSort (fun a b => decide (a.index ≤ b.index))

/-- The graphs of a context that a save keeps: those not yet complete, and those stopped with a launch left. -/
def Dev.graphsOf (d : Dev) (ctx : Nat) : List Graph :=
  d.graphs.filter (fun g => g.ctx == ctx && (!g.ended || d.launches.any (fun l => l.graph == g.id)))

/-- R363. The graph section, with its length a multiple of 64. -/
def graphBytes (gs : List Graph) : List Byte :=
  let node := fun (n : Node) => leBytes 8 (n.waiting % 65536 + n.passes % 2 ^ 24 * 65536 + n.status.code * 2 ^ 40)
  let body := gs.flatMap (fun g => le64 g.desc ++ leBytes 4 g.nodes.length ++ zeros 4) ++
    gs.flatMap (fun g => g.nodes.flatMap node)
  let n := (16 + body.length + 63) / 64 * 64
  leBytes 4 gs.length ++ zeros 4 ++ leBytes 8 n ++ body ++ zeros (n - 16 - body.length)

/-- R356. A launch table entry whose core sections and cluster sections lie at two offsets. -/
def Dev.launchBytes (d : Dev) (gs : List Graph) (l : Launch) (cores clusters : Nat) : List Byte :=
  l.record.bytes ++ leBytes 8 l.budget ++ leBytes 8 l.used ++ leBytes 2 (gs.findIdx (fun g => g.id == l.graph)) ++
    leBytes 2 l.node ++ leBytes 4 (d.clustersOfLaunch l.id).length ++ leBytes 4 (d.coresOfLaunch l.id).length ++ zeros 4 ++
    leBytes 8 cores ++ leBytes 8 clusters ++ zeros 16

/-- R355. The sections of the launches: the table entries and what follows the table. -/
def Dev.launchSections (d : Dev) (fresh : List Nat) (gs : List Graph) (cores : List Nat) :
    List Launch → Nat → List Byte × List Byte
  | [], _ => ([], [])
  | l :: r, at_ =>
    let cs := (d.coresOfLaunch l.id).flatMap (fun c => (d.core c).bytes)
    let cl := (d.clustersOfLaunch l.id).flatMap (d.clusterBytes fresh cores l.record)
    let rest := d.launchSections fresh gs cores r (at_ + cs.length + cl.length)
    (d.launchBytes gs l at_ (at_ + cs.length) ++ rest.1, cs ++ cl ++ rest.2)

/-- R355. The header of an image of some size, with its digest. -/
def Dev.imageHeader (d : Dev) (x : Context) (launches graphs size : Nat) (digest : List Byte) : List Byte :=
  leBytes 4 0x56535842 ++ leBytes 2 0x0204 ++ leBytes 2 x.index ++ leBytes 8 size ++ leBytes 8 d.timebase.toNat ++
    leBytes 4 (x.step % 2 ^ 24) ++ leBytes 4 launches ++ leBytes 8 graphs ++ zeros 8 ++ leBytes 64 x.errbits.toNat ++
    serialNumber ++ digest ++ leBytes 8 (if (d.launchesOf x.index).any Launch.halted then 1 else 0) ++ zeros 56

/-- R355. The image of a context: its digest covers the whole image with the digest field zero. -/
def Dev.imageBytes (d : Dev) (fresh : List Nat) (x : Context) : List Byte :=
  let ls := d.launchesOf x.index
  let gs := d.graphsOf x.index
  let start := 256 + 128 * ls.length
  let cores := ls.flatMap (fun l => d.coresOfLaunch l.id)
  let secs := d.launchSections fresh gs cores ls start
  let body := secs.1 ++ secs.2 ++ graphBytes gs
  let graphs := start + secs.2.length
  let size := 256 + body.length
  let digest := (Config.shake256 (d.imageHeader x ls.length graphs size (zeros 64) ++ body) ++ zeros 64).take 64
  d.imageHeader x ls.length graphs size digest ++ body

/-- R354. The device with the parts of a context that its save has written, each where it lay. -/
def Dev.savedView (d : Dev) (ctx : Nat) : Dev :=
  let ps := d.parts.filter (fun p => p.ctx == ctx)
  { d with
    clusters := ps.flatMap SavePart.clusters
    groups := ps.flatMap SavePart.groups
    waves := ps.flatMap SavePart.waves
    cores := ps.flatMap SavePart.cores
    units := ps.map (fun p => ⟨p.hw, p.ops⟩)
    failing := d.failing.filter (fun g => match g with | .bank _ _ _ => false | _ => true) ++ ps.flatMap SavePart.failing
    rotation := ps.flatMap SavePart.rotation }

/-- R365. A granule of a wave, of a group's scratchpad or of a weight bank with its launch and its core renamed; none for any
other, or where a name has no new one. -/
def Granule.renamed (launch core : Nat → Option Nat) (g : Granule) : Option Granule :=
  let wave := fun (w : WaveId) => (launch w.launch).map (fun l => ({ w with launch := l } : WaveId))
  match g with
  | .vector w n lane => (wave w).map (fun w => .vector w n lane)
  | .scalar w n half => (wave w).map (fun w => .scalar w n half)
  | .pred w n half => (wave w).map (fun w => .pred w n half)
  | .temp w n lane => (wave w).map (fun w => .temp w n lane)
  | .scratch l g i => (launch l).map (fun l => .scratch l g i)
  | .bank c b i => (core c).map (fun c => .bank c b i)
  | .l2 _ _ | .memory _ => none

/-- What the model keeps beside the image of a context (log 33). -/
def Dev.savedImage (d : Dev) (x : Context) (image : Nat) : SavedImage :=
  let ls := d.launchesOf x.index
  let all := ls.flatMap (fun l => d.coresOfLaunch l.id)
  { image := image
    failing := d.failing.filterMap (Granule.renamed (fun l => ls.findIdx? (fun x => x.id == l)) (fun c => all.findIdx? (· == c)))
    next := ls.map Launch.nextCluster
    cores := ls.zipIdx.flatMap (fun p => (d.clustersOfLaunch p.1.id).map (fun c =>
      { launch := p.2, cluster := c.index, sections := c.cores.map (fun i => all.findIdx (· == i)) }))
    groups := ls.zipIdx.flatMap (fun p => (d.groups.filter (fun g => g.launch == p.1.id)).map (fun g =>
      { launch := p.2, group := g.index, counters := g.counters
        ops := (d.splatOf g.launch g.index).map (fun o => o.1.op) }))
    waves := ls.zipIdx.flatMap (fun p => (d.waves.filter (fun w => w.id.launch == p.1.id)).map (fun w =>
      { launch := p.2, group := w.id.group, wave := w.id.wave, priv := w.priv, ended := w.ended, last := w.last
        broke := w.div.map DivEntry.broke, pending0 := w.path0.pending, pending1 := w.path1.pending }))
    graphs := (d.graphsOf x.index).map (fun g => ⟨g.stopped, g.ended, g.nodes.map (fun n => ⟨n.wanted, n.counted, n.readyAt⟩)⟩) }

end Sys2Proof.Machine
end

