-- ==== Sys2Proof/Machine/Transcend.lean ====
section
/-! DEFINITION. The transcendental functions of R124: each exact real value is found to more than 400 bits in fixed
point and rounded once; exact cases are told apart by rule (log 8). -/

namespace Sys2Proof.Machine

/-- The number of fraction bits of the fixed-point values. -/
def fxBits : Nat := 512

/-- ⌊π · 2^512⌋. -/
def fxPi : Nat :=
  0x3243f6a8885a308d313198a2e03707344a4093822299f31d0082efa98ec4e6c89452821e638d01377be5466cf34e90c6cc0ac29b7c97c50dd3f84d5b5b5470917

/-- ⌊ln 2 · 2^512⌋. -/
def fxLn2 : Nat :=
  0xb17217f7d1cf79abc9e3b39803f2f6af40f343267298b62d8a0d175b8baafa2be7b876206debac98559552fb4afa1b10ed2eae35c138214427573b291169b825

/-- The terms yⁿ/n! from the n-th on, added to a sum. -/
def expTerms (y : Nat) : Nat → Nat → Nat → Nat → Nat
  | 0, _, _, acc => acc
  | fuel + 1, n, term, acc => expTerms y fuel (n + 1) (term * y / 2 ^ fxBits / n) (acc + term)

/-- e^y for a fixed-point y below 1. -/
def fxExp (y : Nat) : Nat := expTerms y 130 1 (2 ^ fxBits) 0

/-- The terms of the sine's series from the one of degree n on; the sums of the added and of the subtracted ones. -/
def sinTerms (y2 : Nat) : Nat → Nat → Nat → Nat → Nat → Nat
  | 0, _, _, a, b => a - b
  | fuel + 1, n, term, a, b =>
    let t := term * y2 / 2 ^ fxBits / ((n + 1) * (n + 2))
    sinTerms y2 fuel (n + 4) (t * y2 / 2 ^ fxBits / ((n + 3) * (n + 4))) (a + term) (b + t)

/-- sin(πr) for a fixed-point r of at most 1/2. -/
def fxSinPi (r : Nat) : Nat :=
  let y := r * fxPi / 2 ^ fxBits
  let y2 := y * y / 2 ^ fxBits
  sinTerms y2 34 1 y 0 0

/-- The terms z^n / n of odd n from n on, added to a sum. -/
def atanhTerms (z2 : Nat) : Nat → Nat → Nat → Nat → Nat
  | 0, _, _, acc => acc
  | fuel + 1, n, term, acc => atanhTerms z2 fuel (n + 2) (term * z2 / 2 ^ fxBits) (acc + term / n)

/-- log₂ y for a fixed-point y from 1 to 2. -/
def fxLog2 (y : Nat) : Nat :=
  let one := 2 ^ fxBits
  let z := (y - one) * one / (y + one)
  2 * atanhTerms (z * z / one) 175 1 z 0 * one / fxLn2

/-- m · 2^e in fixed point, rounded down. -/
def fxOf (m : Nat) (e : Int) : Nat :=
  let s : Int := e + fxBits
  if 0 ≤ s then m * 2 ^ s.toNat else m / 2 ^ (-s).toNat

/-- Rounds a fixed-point value that is not exact, times 2^k. -/
def FFmt.roundFx (f : FFmt) (rm : RMode) (ftz neg : Bool) (x : Nat) (k : Int) : Nat × FpFlags :=
  f.round rm ftz neg (x / 2 ^ 20) (k - fxBits + 20) true

/-- Rounds a value a little below m · 2^e. -/
def FFmt.roundBelow (f : FFmt) (rm : RMode) (ftz neg : Bool) (m : Nat) (e : Int) : Nat × FpFlags :=
  f.round rm ftz neg (m * 2 ^ 100 - 1) (e - 100) true

/-- Rounds a value a little above m · 2^e. -/
def FFmt.roundAbove (f : FFmt) (rm : RMode) (ftz neg : Bool) (m : Nat) (e : Int) : Nat × FpFlags :=
  f.round rm ftz neg (m * 2 ^ 100) (e - 100) true

/-- The exponent of the leading bit of m · 2^e. -/
def topOf (m : Nat) (e : Int) : Int := e + (Nat.log2 m : Int)

/-- R124. 1/a. -/
def FFmt.rcpV (f : FFmt) (rm : RMode) (ftz : Bool) (a : FVal) : Nat × FpFlags :=
  f.divV rm ftz (.fin false 1 0) a

/-- R124. 1/√a. -/
def FFmt.rsqV (f : FFmt) (rm : RMode) (ftz : Bool) (a : FVal) : Nat × FpFlags :=
  match a with
  | .zero s => (f.inf s, fDZ)
  | .inf false => (f.zero false, 0)
  | .fin false m e =>
    let odd := e % 2 ≠ 0
    let m' := if odd then 2 * m else m
    let h : Int := (if odd then e - 1 else e) / 2
    let k := Nat.log2 m' / 2 + f.fb + 10
    let r := isqrt (2 ^ (2 * k) / m')
    f.round rm ftz false r (-h - k) (r * r * m' != 2 ^ (2 * k))
  | .inf true | .fin true _ _ => (f.nan, fNV)
  | v => nanResult f [v]

/-- R124. 2^a. -/
def FFmt.ex2V (f : FFmt) (rm : RMode) (ftz : Bool) (a : FVal) : Nat × FpFlags :=
  match a with
  | .zero _ => f.round rm ftz false 1 0 false
  | .inf s => (if s then f.zero false else f.inf false, 0)
  | .fin neg m e =>
    let top := topOf m e
    if 12 ≤ top then
      (if neg then f.round rm ftz false (2 ^ 100) (-5000) true else f.round rm ftz false 1 5000 false)
    else if top < -230 then
      (if neg then f.roundBelow rm ftz false 1 0 else f.roundAbove rm ftz false 1 0)
    else
      let x : Int := if neg then -(fxOf m e : Int) else fxOf m e
      let k := x / (2 ^ fxBits : Nat)
      let r := (x % (2 ^ fxBits : Nat)).toNat
      if r = 0 then f.round rm ftz false 1 k false
      else f.roundFx rm ftz false (fxExp (r * fxLn2 / 2 ^ fxBits)) k
  | v => nanResult f [v]

/-- R124. log₂ a. -/
def FFmt.lg2V (f : FFmt) (rm : RMode) (ftz : Bool) (a : FVal) : Nat × FpFlags :=
  match a with
  | .zero _ => (f.inf true, fDZ)
  | .inf false => (f.inf false, 0)
  | .fin false m e =>
    let k := topOf m e
    if m = 2 ^ Nat.log2 m then
      (if k = 0 then (f.zero false, 0) else f.round rm ftz (k < 0) k.natAbs 0 false)
    else
      let v : Int := k * (2 ^ fxBits : Nat) + fxLog2 (fxOf m (-(Nat.log2 m : Int)))
      f.roundFx rm ftz (v < 0) v.natAbs 0
  | .inf true | .fin true _ _ => (f.nan, fNV)
  | v => nanResult f [v]

/-- x mod 2 of x = m · 2^e in fixed point, for e of at least -512. -/
def fxMod2 (m : Nat) (e : Int) : Nat := fxOf m e % 2 ^ (fxBits + 1)

/-- R124. sin(πa). -/
def FFmt.snpV (f : FFmt) (rm : RMode) (ftz : Bool) (a : FVal) : Nat × FpFlags :=
  match a with
  | .zero s => (f.zero s, 0)
  | .inf _ => (f.nan, fNV)
  | .fin neg m e =>
    if topOf m e < -230 then f.round rm ftz neg (m * fxPi / 2 ^ 40) (e - fxBits + 40) true
    else
      let one := 2 ^ fxBits
      let r := fxMod2 m e
      let neg' := neg != decide (one ≤ r)
      let r := r % one
      let r := if one < 2 * r then one - r else r
      if r = 0 then (f.zero neg, 0)
      else if 2 * r = one then f.round rm ftz neg' 1 0 false
      else f.roundFx rm ftz neg' (fxSinPi r) 0
  | v => nanResult f [v]

/-- R124. cos(πa). -/
def FFmt.cspV (f : FFmt) (rm : RMode) (ftz : Bool) (a : FVal) : Nat × FpFlags :=
  match a with
  | .zero _ => f.round rm ftz false 1 0 false
  | .inf _ => (f.nan, fNV)
  | .fin _ m e =>
    if topOf m e < -230 then f.roundBelow rm ftz false 1 0
    else
      let one := 2 ^ fxBits
      let r := fxMod2 m e
      let r := if one < r then 2 * one - r else r
      let neg := decide (one < 2 * r)
      let r := if neg then one - r else r
      if r = 0 then f.round rm ftz neg 1 0 false
      else if 2 * r = one then (f.zero false, 0)
      else f.roundFx rm ftz neg (fxSinPi (one / 2 - r)) 0
  | v => nanResult f [v]

/-- R124. tanh a. -/
def FFmt.tnhV (f : FFmt) (rm : RMode) (ftz : Bool) (a : FVal) : Nat × FpFlags :=
  match a with
  | .zero s => (f.zero s, 0)
  | .inf s => f.round rm ftz s 1 0 false
  | .fin neg m e =>
    let top := topOf m e
    if 6 ≤ top then f.roundBelow rm ftz neg 1 0
    else if top < -110 then f.roundBelow rm ftz neg m e
    else
      let one := 2 ^ fxBits
      let x := 2 * fxOf m e
      let k := x / fxLn2
      let p := fxExp (x % fxLn2) * 2 ^ k
      f.roundFx rm ftz neg ((p - one) * one / (p + one)) 0
  | v => nanResult f [v]

end Sys2Proof.Machine
end

