-- ==== Sys2Proof/Machine/FloatOps.lean ====
section
/-! DEFINITION. The floating-point instructions 0x50 to 0x6A (R120 to R126), the conversions and the block scales 0x6B to
0x75 (R127 to R130). -/

namespace Sys2Proof.Machine

/-- R87. A slot of the mode's floating type as a value. -/
def Issue.fval (c : Issue) (x : Nat) : FVal := c.ty.ffmt.decodeFtz c.ftz x

/-- R120. A floating instruction of two sources. -/
def Issue.floatOp2 (c : Issue) (d a b : Operand) (f : Nat → Nat → Nat × FpFlags) : Except Stop Issue :=
  c.alu EType.isFloat d c.ty.wide (c.slots2 a b f)

/-- R120. A floating instruction of one source. -/
def Issue.floatOp1 (c : Issue) (d a : Operand) (f : Nat → Nat × FpFlags) : Except Stop Issue :=
  c.alu EType.isFloat d c.ty.wide (c.slots1 a f)

/-- R120. `fadd`. -/
def execFadd (d a b : Operand) (s : State) : Out :=
  s.onClause (fun c => c.floatOp2 d a b (fun x y => c.ty.ffmt.addV c.rm c.ftz false (c.fval x) (c.fval y)))
/-- R120. `fsub`. -/
def execFsub (d a b : Operand) (s : State) : Out :=
  s.onClause (fun c => c.floatOp2 d a b (fun x y => c.ty.ffmt.addV c.rm c.ftz true (c.fval x) (c.fval y)))
/-- R120. `fmul`. -/
def execFmul (d a b : Operand) (s : State) : Out :=
  s.onClause (fun c => c.floatOp2 d a b (fun x y => c.ty.ffmt.mulV c.rm c.ftz (c.fval x) (c.fval y)))

/-- R120. The fused forms: ±(a · b) ± d with one rounding. -/
def Issue.fusedOp (c : Issue) (d a b : Operand) (negP negD : Bool) : Except Stop Issue :=
  c.alu EType.isFloat d c.ty.wide
    (c.slots3 d a b (fun z x y => c.ty.ffmt.fmaV c.rm c.ftz negP negD (c.fval x) (c.fval y) (c.fval z)))

/-- R120. `fma`. -/
def execFma (d a b : Operand) (s : State) : Out := s.onClause (fun c => c.fusedOp d a b false false)
/-- R120. `fms`. -/
def execFms (d a b : Operand) (s : State) : Out := s.onClause (fun c => c.fusedOp d a b false true)
/-- R120. `fnma`. -/
def execFnma (d a b : Operand) (s : State) : Out := s.onClause (fun c => c.fusedOp d a b true false)

/-- R121. `fmin`. -/
def execFmin (d a b : Operand) (s : State) : Out :=
  s.onClause (fun c => c.floatOp2 d a b (fun x y => c.ty.ffmt.minmax true c.ftz x y))
/-- R121. `fmax`. -/
def execFmax (d a b : Operand) (s : State) : Out :=
  s.onClause (fun c => c.floatOp2 d a b (fun x y => c.ty.ffmt.minmax false c.ftz x y))

/-- R122. `fabs`: clears the sign bit. -/
def execFabs (d a : Operand) (s : State) : Out :=
  s.onClause (fun c => c.floatOp1 d a (fun x => noFlag (x % 2 ^ (c.ty.bits - 1))))
/-- R122. `fneg`: inverts the sign bit. -/
def execFneg (d a : Operand) (s : State) : Out :=
  s.onClause (fun c => c.floatOp1 d a (fun x => noFlag (x ^^^ 2 ^ (c.ty.bits - 1))))
/-- R122. `fcps`: a with the sign bit of b. -/
def execFcps (d a b : Operand) (s : State) : Out :=
  s.onClause (fun c => c.floatOp2 d a b (fun x y =>
    noFlag (x % 2 ^ (c.ty.bits - 1) + y / 2 ^ (c.ty.bits - 1) * 2 ^ (c.ty.bits - 1))))

/-- R123, R124. A long-latency function of one source. -/
def State.lateOp1 (s : State) (d a : Operand) (f : Issue → FVal → Nat × FpFlags) : Out :=
  s.onIssue (fun s c => s.computeLate c EType.isFloat d (c.slots1 a (fun x => f c (c.fval x))))

/-- R123. `fdiv`. -/
def execFdiv (d a b : Operand) (s : State) : Out :=
  s.onIssue (fun s c => s.computeLate c EType.isFloat d
    (c.slots2 a b (fun x y => c.ty.ffmt.divV c.rm c.ftz (c.fval x) (c.fval y))))
/-- R123. `fsqrt`. -/
def execFsqrt (d a : Operand) (s : State) : Out := s.lateOp1 d a (fun c => c.ty.ffmt.sqrtV c.rm c.ftz)
/-- R124. `frcp`. -/
def execFrcp (d a : Operand) (s : State) : Out := s.lateOp1 d a (fun c => c.ty.ffmt.rcpV c.rm c.ftz)
/-- R124. `frsq`. -/
def execFrsq (d a : Operand) (s : State) : Out := s.lateOp1 d a (fun c => c.ty.ffmt.rsqV c.rm c.ftz)
/-- R124. `fex2`. -/
def execFex2 (d a : Operand) (s : State) : Out := s.lateOp1 d a (fun c => c.ty.ffmt.ex2V c.rm c.ftz)
/-- R124. `flg2`. -/
def execFlg2 (d a : Operand) (s : State) : Out := s.lateOp1 d a (fun c => c.ty.ffmt.lg2V c.rm c.ftz)
/-- R124. `fsnp`. -/
def execFsnp (d a : Operand) (s : State) : Out := s.lateOp1 d a (fun c => c.ty.ffmt.snpV c.rm c.ftz)
/-- R124. `fcsp`. -/
def execFcsp (d a : Operand) (s : State) : Out := s.lateOp1 d a (fun c => c.ty.ffmt.cspV c.rm c.ftz)
/-- R124. `ftnh`. -/
def execFtnh (d a : Operand) (s : State) : Out := s.lateOp1 d a (fun c => c.ty.ffmt.tnhV c.rm c.ftz)

/-- R125. A value rounded to an integral value of its format; a zero result keeps the sign. -/
def FFmt.integral (f : FFmt) (rm : RMode) (nx : Bool) (v : FVal) : Nat × FpFlags :=
  match v with
  | .zero s => (f.zero s, 0)
  | .inf s => (f.inf s, 0)
  | .fin s m e =>
    if 0 ≤ e then ((f.round rm false s m e false).1, 0)
    else
      let (r, exact) := roundToInt rm s m e
      let fl := flagIf (nx && !exact) fNX
      if r = 0 then (f.zero s, fl) else ((f.round .rne false s r 0 false).1, fl)
  | v => nanResult f [v]

/-- R125. `fflr`. -/
def execFflr (d a : Operand) (s : State) : Out :=
  s.onClause (fun c => c.floatOp1 d a (fun x => c.ty.ffmt.integral .rdn false (c.fval x)))
/-- R125. `fcel`. -/
def execFcel (d a : Operand) (s : State) : Out :=
  s.onClause (fun c => c.floatOp1 d a (fun x => c.ty.ffmt.integral .rup false (c.fval x)))
/-- R125. `ftrc`. -/
def execFtrc (d a : Operand) (s : State) : Out :=
  s.onClause (fun c => c.floatOp1 d a (fun x => c.ty.ffmt.integral .rtz false (c.fval x)))
/-- R125. `frnd`. -/
def execFrnd (d a : Operand) (s : State) : Out :=
  s.onClause (fun c => c.floatOp1 d a (fun x => c.ty.ffmt.integral c.rm true (c.fval x)))

/-- R126. a · 2^k. Far beyond the format's range a larger k gives the same result. -/
def FFmt.scaleB (f : FFmt) (rm : RMode) (ftz : Bool) (v : FVal) (k : Int) : Nat × FpFlags :=
  match v with
  | .zero s => (f.zero s, 0)
  | .inf s => (f.inf s, 0)
  | .fin s m e => f.round rm ftz s m (e + max (-8192) (min 8192 k)) false
  | v => nanResult f [v]

/-- R126. `fldx`: the exponent is slot j of b, or b[31:0] for f64. -/
def execFldx (d a b : Operand) (s : State) : Out :=
  s.onClause (fun c => c.alu EType.isFloat d c.ty.wide (fun l =>
    let x := c.arg a l
    let y := c.src false false b l
    mapSlots c.ty (fun j =>
      let k := if c.ty.wide then toSigned 32 y else toSigned c.ty.bits (slotOf c.ty y j)
      c.ty.ffmt.scaleB c.rm c.ftz (c.fval (slotOf c.ty x j)) k)))

/-- R126. ⌊log₂ |a|⌋ as a value of the format. -/
def FFmt.exponent (f : FFmt) (v : FVal) : Nat × FpFlags :=
  match v with
  | .zero _ => (f.inf true, fDZ)
  | .inf _ => (f.inf false, 0)
  | .fin _ m e =>
    let k := topOf m e
    if k = 0 then (f.zero false, 0) else ((f.round .rne false (k < 0) k.natAbs 0 false).1, 0)
  | v => nanResult f [v]

/-- R126. `fgtx`. -/
def execFgtx (d a : Operand) (s : State) : Out :=
  s.onClause (fun c => c.floatOp1 d a (fun x => c.ty.ffmt.exponent (c.fval x)))

/-- R126. The class bit of a value. -/
def FFmt.classBit (f : FFmt) (b : Nat) : Nat :=
  let v := f.decode b
  match v with
  | .inf true => 0
  | .fin true _ _ => if f.subnormal b then 2 else 1
  | .zero true => 3
  | .zero false => 4
  | .fin false _ _ => if f.subnormal b then 5 else 6
  | .inf false => 7
  | v => if v.isSNaN then 8 else 9

/-- R126. `fcls`. -/
def execFcls (d a : Operand) (s : State) : Out :=
  s.onClause (fun c => c.floatOp1 d a (fun x => noFlag (2 ^ c.ty.ffmt.classBit x)))

/-- R128. The source element of a conversion: slot 0, or the pair. -/
def Issue.slot0 (c : Issue) (a : Operand) (l : Nat) : Nat := slotOf c.ty (c.arg a l) 0

/-- R55, R127, R128. A conversion of slot 0 to a type; in a k register the result is extended as its own type asks
(log 59). -/
def Issue.convertOp (c : Issue) (d a : Operand) (dst : EType) : Except Stop Issue :=
  c.needType (fun t => t != .b32) (c.computeAs d dst.wide dst.signed (fun l =>
    let x := c.slot0 a l
    convertV c.rm c.ftz c.sat c.ty dst (c.ty.decodeV c.ftz c.wave.xva.toNat x) x))

/-- R127. `cvd`. -/
def execCvd (d a : Operand) (s : State) : Out := s.onClause (fun c => c.convertOp d a .f64)
/-- R127. `cvs`. -/
def execCvs (d a : Operand) (s : State) : Out := s.onClause (fun c => c.convertOp d a .f32)
/-- R127. `cvh`. -/
def execCvh (d a : Operand) (s : State) : Out := s.onClause (fun c => c.convertOp d a .f16)
/-- R127. `cvb`. -/
def execCvb (d a : Operand) (s : State) : Out := s.onClause (fun c => c.convertOp d a .bf16)
/-- R127. `cv8`. -/
def execCv8 (d a : Operand) (s : State) : Out := s.onClause (fun c => c.convertOp d a .t8)
/-- R127. `cv6`. -/
def execCv6 (d a : Operand) (s : State) : Out := s.onClause (fun c => c.convertOp d a .t6)
/-- R127. `cv4`. -/
def execCv4 (d a : Operand) (s : State) : Out := s.onClause (fun c => c.convertOp d a .f4)
/-- R127. `cvi`. -/
def execCvi (d a : Operand) (s : State) : Out :=
  s.onClause (fun c => c.convertOp d a (if c.ty.wide then .i64 else .i32))
/-- R127. `cvn`. -/
def execCvn (d a : Operand) (s : State) : Out :=
  s.onClause (fun c => c.convertOp d a (if c.ty.wide then .n64 else .n32))

/-- R129. `bsc`. -/
def execBsc (d a : Operand) (s : State) : Out :=
  s.onClause (fun c => c.alu EType.scaled d false (fun l => blockScale c.ty (fmt32.decode (c.src false false a l))))
/-- R130. `bsq`. -/
def execBsq (d a b : Operand) (s : State) : Out :=
  s.onClause (fun c => c.alu EType.scaled d false (fun l =>
    quantise c.ty c.rm (fmt32.decode (c.src false false a l)) (c.src false false b l)))

end Sys2Proof.Machine
end

