-- ==== Sys2Proof/Machine/SplatOps.lean ====
section
/-! DEFINITION. The splat unit: the six instructions 0xE0 to 0xE5 (R170, R171), the acceptance of operations, the f32
arithmetic of the pipeline (R173), and the events of the unit: parameters (R174), projection (R178), bins (R180), sort
(R181), blend (R184) and gradients (R186, R187), with their faults (R190, R191). -/

namespace Sys2Proof.Machine

/-- R170, R171. A splat instruction: the checks of its record, its flag, and the operation that enters the queue of the
hardware cluster's unit when the clause ends. -/
def State.splatIssue (s : State) (c : Issue) (opcode : Nat) (a : Operand) : State × Except Stop Issue :=
  let addr := c.src false true a 0
  if addr % 64 ≠ 0 then (s, .error (.fault 4 0x02 0 (w64 addr)))
  else if s.scratchSize c < addr + 64 then (s, .error (.fault 5 0x06 0 (w64 addr)))
  else
    let (op, s) := s.fresh
    let o : SplatOp :=
      { op := op, opcode := opcode, w := c.wave.id, clause := c.header, record := addr, command := []
        accepted := false, parked := false }
    (s, .ok ((c.takeFlag op).send (.splat (hwOf c.wave.core) o)))

/-- R170. `spm`. -/
def execSpm (a : Operand) (s : State) : Out := s.onIssue (fun s c => s.splatIssue c 0xE0 a)
/-- R170. `spj`. -/
def execSpj (a : Operand) (s : State) : Out := s.onIssue (fun s c => s.splatIssue c 0xE1 a)
/-- R170. `sbn`. -/
def execSbn (a : Operand) (s : State) : Out := s.onIssue (fun s c => s.splatIssue c 0xE2 a)
/-- R170. `sst`. -/
def execSst (a : Operand) (s : State) : Out := s.onIssue (fun s c => s.splatIssue c 0xE3 a)
/-- R170. `sbl`. -/
def execSbl (a : Operand) (s : State) : Out := s.onIssue (fun s c => s.splatIssue c 0xE4 a)
/-- R170. `sbk`. -/
def execSbk (a : Operand) (s : State) : Out := s.onIssue (fun s c => s.splatIssue c 0xE5 a)

/-- The operations of a unit. -/
def Dev.unitQueue (d : Dev) (i : Nat) : List SplatOp := ((d.units.find? (fun u => u.index == i)).map SplatUnit.queue).getD []

/-- The scratchpad place of an operation's group. -/
def SplatOp.at (o : SplatOp) (a : Nat) : Loc := ⟨.scratch o.w.launch o.w.group, a⟩

/-- R191, R365. A read of a unit in the scratchpad of an operation's group, which may meet a data loss. -/
def State.unitRead (s : State) (o : SplatOp) (a n : Nat) : Except Stop (List Byte) :=
  match s.dev.readLoss none (o.at a) n with
  | some code => .error (.fault 11 code 0 (w64 a))
  | none => .ok (s.dev.peek (o.at a) n)

/-- R191, R365. A write of a unit in the scratchpad of an operation's group. -/
def State.unitPoke (s : State) (o : SplatOp) (a : Nat) (bs : List Byte) : State × Except Stop Unit :=
  match s.dev.storeLoss none (o.at a) bs.length with
  | some code => (s, .error (.fault 11 code 0 (w64 a)))
  | none => (s.poke (o.at a) bs, .ok ())

/-- Takes an operation out of a unit's queue. -/
def State.dropSplat (s : State) (unit op : Nat) : State :=
  s.mapDev (fun d => d.mapUnit unit (fun u => { u with queue := u.queue.filter (fun o => o.op ≠ op) }))

/-- R168, R171, R191. The queue accepts the first waiting operation when one of its 32 entries is free: the record is copied
and the completion flag clears; a record whose data is lost halts the wave, once it stands at a boundary. -/
def execSplatQueueAccept (unit : Nat) (s : State) : Out :=
  .next (
    let q := s.dev.unitQueue unit
    match q.find? (fun o => !o.accepted) with
    | none => s
    | some o =>
      if 32 ≤ (q.filter SplatOp.accepted).length ∨ !s.dev.scratchSettled o.w o.op then s
      else match s.unitRead o o.record 64 with
        | .ok bs =>
          (s.mapDev (fun d => d.mapUnit unit (fun u => { u with queue := u.queue.map (fun x =>
            if x.op = o.op then { x with command := bs, accepted := true } else x) }))).flagDone o.w o.op
        | .error (.fault cls code m addr) =>
          if s.unitCanStop o.w then (s.dropSplat unit o.op).unitHalt o.w o.clause cls code m addr else s
        | .error _ => s)

/-- An f32 value of the pipeline with the flags of every operation behind it. -/
abbrev SVal := Nat × FpFlags

/-- R172, R173. The result of an operation: a NaN sets NV. -/
def svOp (r : Nat × FpFlags) (flags : FpFlags) : SVal :=
  (r.1, r.2 ||| flags ||| flagIf (fmt32.decode r.1).isNaN fNV)

/-- A value without flags. -/
def svOf (x : Nat) : SVal := (x, 0)
/-- R173. x + y. -/
def svAdd (x y : SVal) : SVal := svOp (fmt32.addV .rne false false (fmt32.decode x.1) (fmt32.decode y.1)) (x.2 ||| y.2)
/-- R173. x − y. -/
def svSub (x y : SVal) : SVal := svOp (fmt32.addV .rne false true (fmt32.decode x.1) (fmt32.decode y.1)) (x.2 ||| y.2)
/-- R173. x · y. -/
def svMul (x y : SVal) : SVal := svOp (fmt32.mulV .rne false (fmt32.decode x.1) (fmt32.decode y.1)) (x.2 ||| y.2)
/-- R173. x / y. -/
def svDiv (x y : SVal) : SVal := svOp (fmt32.divV .rne false (fmt32.decode x.1) (fmt32.decode y.1)) (x.2 ||| y.2)
/-- R173. fma(x, y, z). -/
def svFma (x y z : SVal) : SVal :=
  svOp (fmt32.fmaV .rne false false false (fmt32.decode x.1) (fmt32.decode y.1) (fmt32.decode z.1)) (x.2 ||| y.2 ||| z.2)
/-- R173. The square root. -/
def svSqrt (x : SVal) : SVal := svOp (fmt32.sqrtV .rne false (fmt32.decode x.1)) x.2
/-- R173. Negation. -/
def svNeg (x : SVal) : SVal := (x.1 ^^^ 0x80000000, x.2)
/-- R121, R173. max. -/
def svMax (x y : SVal) : SVal := svOp (fmt32.minmax false false x.1 y.1) (x.2 ||| y.2)
/-- R173. Ceil: an integral value, without rounding. -/
def svCeil (x : SVal) : SVal := svOp (fmt32.integral .rup false (fmt32.decode x.1)) x.2

/-- R124, R173. The correctly rounded exponential. -/
def FFmt.expV (f : FFmt) (a : FVal) : Nat × FpFlags :=
  match a with
  | .zero _ => f.round .rne false false 1 0 false
  | .inf s => (if s then f.zero false else f.inf false, 0)
  | .fin neg m e =>
    let top := topOf m e
    if 11 ≤ top then
      (if neg then f.round .rne false false (2 ^ 100) (-5000) true else f.round .rne false false 1 5000 false)
    else if top < -230 then (if neg then f.roundBelow .rne false false 1 0 else f.roundAbove .rne false false 1 0)
    else
      let x : Int := if neg then -(fxOf m e : Int) else fxOf m e
      f.roundFx .rne false false (fxExp (x % (fxLn2 : Int)).toNat) (x / (fxLn2 : Int))
  | v => nanResult f [v]

/-- R173. Exp. -/
def svExp (x : SVal) : SVal := svOp (fmt32.expV (fmt32.decode x.1)) x.2

/-- R131, R173. The order of two values; a NaN sets NV. -/
def svCmp (x y : SVal) : Option Ordering := cmpV (fmt32.decode x.1) (fmt32.decode y.1)
/-- R131. x ≥ y. -/
def svGe (x y : SVal) : Bool := svCmp x y == some .gt || svCmp x y == some .eq
/-- R131. x > y. -/
def svGt (x y : SVal) : Bool := svCmp x y == some .gt
/-- R131. The flags of a comparison. -/
def cmpFlags (x y : SVal) : FpFlags := x.2 ||| y.2 ||| flagIf (svCmp x y).isNone fNV

/-- R173. Whether a value is a NaN or infinite. -/
def svWild (x : SVal) : Bool := x.1 / 2 ^ 23 % 256 == 255
/-- Whether a value is a NaN. -/
def svNaN (x : SVal) : Bool := (fmt32.decode x.1).isNaN

/-- R173. Floor as an integer; an infinity lies beyond every bound. -/
def svFloor (x : SVal) : Int :=
  match fmt32.decode x.1 with
  | .fin s m e => let r : Int := (roundToInt .rdn s m e).1; if s then -r else r
  | .inf s => if s then -(2 ^ 200 : Nat) else (2 ^ 200 : Nat)
  | _ => 0

/-- The words of a record. -/
def wordsAt (bs : List Byte) (i : Nat) : Nat := field bs (4 * i) 4

/-- Whether the bytes from lo up to hi of a command are zero. -/
def zeroBytes (bs : List Byte) (lo hi : Nat) : Bool := ((bs.drop lo).take (hi - lo)).all (· == 0)

/-- R172. The status word. -/
def splatStatus (code : Nat) (fl : FpFlags) (count : Nat) : Nat :=
  let bit := fun (f : FpFlags) (i : Nat) => if fl &&& f ≠ 0 then 2 ^ i else 0
  code * 2 ^ 28 + bit fNV 27 + bit fOF 26 + bit fUF 25 + Nat.min count (2 ^ 24 - 1)

/-- What an operation comes to: a status, with the state its writes leave. -/
abbrev SplatRun := State × Except Stop Nat

/-- R189, R190. A clause of the issuing wave, as far as the checks of a unit's accesses look at one: they are not
suppressed in helper lanes. -/
def Wave.unitClause (w : Wave) : Issue :=
  { w with helper := 0 }.issueAt 0 ⟨1, 0, 15, 15, false⟩ []

/-- R191, R310, R365. The code of the data loss that an access of a unit's die meets. -/
def State.unitLoss (s : State) (w : WaveId) (need : Need) (l : Loc) (n : Nat) : Option Nat :=
  let die := some (dieOf (s.dev.coreOf w))
  if s.dev.lost.contains l.line then some 0x07
  else if need = .write then s.dev.storeLoss die l n else s.dev.readLoss die l n

/-- R309, R343. What the page of a checked part of a unit's access still asks: its right comes home first, unless the access
is an atomic, which goes to the owner; and a target may drop the access. -/
def State.unitArrive (s : State) (ctx : Nat) (need : Need) (n : Nat) (p : LaneAccess) : State × Except Stop Unit :=
  if !p.loc.global then (s, .ok ())
  else
    let page := p.va.toNat % 2 ^ 48 / 65536
    match s.dev.rightCase ctx page (need == .atomic), s.dev.refusedBy (masterAt ctx 0 p.loc.space) p.loc n need.writes with
    | .waits ask, _ =>
      (if ask then s.mapDev (fun d => d.recallPage ctx page) else s, .error (.notReady (.right page)))
    | _, some target => (s.dropsRequest ctx target, .error (.fault 5 0x08 (bitAt p.lane) p.va))
    | _, none => (s, .ok ())

/-- R189, R190. The checks of a batch of records of one kind, record L for lane L: the parts of the records. Lost data is
left to the access itself (R191). -/
def State.splatCheck (s : State) (o : SplatOp) (need : Need) (n : Nat) (vas : List Nat) :
    State × Except Stop (List LaneAccess) :=
  match s.dev.wave? o.w with
  | none => (s, .ok [])
  | some w =>
    match s.checkLanes false w.unitClause .global need n false (List.range vas.length)
        (fun l => ((vas.getD l 0 : Nat) : Int)) (fun _ => none) with
    | (s, .error (.fault 7 _ m a)) => (s, .error (.fault 7 0x02 m a))
    | (s, .error e) => (s, .error e)
    | (s, .ok (parts, _)) =>
      (runAll (fun s (_ : Unit) p => s.unitArrive (s.dev.ctxOf o.w) need n p) s () parts).map id (fun r => r.map (fun _ => parts))

/-- R191. The data loss that the records of a batch meet: every failing record, and the lowest address. -/
def State.batchLoss (s : State) (o : SplatOp) (need : Need) (n : Nat) (parts : List LaneAccess) : Option Stop :=
  let bads := parts.filterMap (fun p => (s.unitLoss o.w need p.loc n).map (fun code => (p.lane, LaneBad.mk 5 11 code p.va none)))
  stopOf false need.writes bads

/-- R329. The bytes of the records of a batch, in order: those on a peer's pages come as fabric loads, for which the operation
waits; a line that fails stops it. -/
def State.splatBytes (s : State) (o : SplatOp) (n : Nat) (ps : List LaneAccess) : State × Except Stop (List (List Byte)) :=
  let reader : Reader := .unit o.op
  let far := ps.filter (fun p => p.loc.space == .fabric)
  let s := far.foldl (fun s p => s.askLines reader (s.dev.ctxOf o.w) p.loc.addr n) s
  let bytes := ps.map (fun p =>
    if p.loc.space = .fabric then s.dev.readFetched reader p.loc.addr n else some (.ok (s.readLoc p.loc n)))
  if bytes.any Option.isNone then (s, .error (.notReady (.fetch reader)))
  else
    let bads := (ps.zip bytes).filterMap (fun x => match x.2 with
      | some (.error e) => some (x.1.lane, LaneBad.mk 5 e.1 e.2 x.1.va none)
      | _ => none)
    match stopOf false false bads with
    | some e => (s, .error e)
    | none => (s, .ok (bytes.map (fun b => match b with
        | some (.ok bs) => bs
        | _ => [])))

/-- R190. Reads a batch of records of one kind. -/
def State.splatFetch (s : State) (o : SplatOp) (n : Nat) (vas : List Nat) : State × Except Stop (List (List Byte)) :=
  match s.splatCheck o .read n vas with
  | (s, .error e) => (s, .error e)
  | (s, .ok ps) =>
    match s.batchLoss o .read n ps with
    | some e => (s, .error e)
    | none => s.splatBytes o n ps

/-- R190. Writes a batch of records. -/
def State.splatWrite (s : State) (o : SplatOp) (n : Nat) (recs : List (Nat × List Byte)) : State × Except Stop Unit :=
  match s.splatCheck o .write n (recs.map Prod.fst) with
  | (s, .error e) => (s, .error e)
  | (s, .ok ps) =>
    match s.batchLoss o .write n ps with
    | some e => (s, .error e)
    | none =>
      ((ps.zip (recs.map Prod.snd)).foldl (fun s x => s.writeLoc (s.dev.ctxOf o.w) o.op x.1.loc x.2) s, .ok ())

/-- The parts of at most 16 of a list (R190). -/
def batches {α : Type} : Nat → List α → List (List α)
  | 0, _ => []
  | n + 1, l => if l.isEmpty then [] else l.take 16 :: batches n (l.drop 16)

/-- All the batches of a list. -/
def batchesOf {α : Type} (l : List α) : List (List α) := batches (l.length / 16 + 1) l

/-- R174. `spm`: a status, and the parameters if the command is valid. -/
def splatParamsOf (cmd : List Byte) : Option SplatParams :=
  let w := field cmd 0 4
  let h := field cmd 4 4
  let cut := svOf (field cmd 8 4)
  let near := svOf (field cmd 12 4)
  let dil := svOf (field cmd 16 4)
  let size := fun (x : Nat) => decide (16 ≤ x ∧ x ≤ 4096 ∧ x % 16 = 0)
  if size w && size h && svGe cut (svOf 0) && svGe (svOf 0x3F800000) cut && svGt near (svOf 0) && !svWild near &&
      svGe dil (svOf 0) && !svWild dil && zeroBytes cmd 20 60 then
    some ⟨w, h, BitVec.ofNat 32 cut.1, BitVec.ofNat 32 near.1, BitVec.ofNat 32 dil.1⟩
  else none

/-- R178. A camera record: the view matrix and the four camera values. -/
structure Camera where
  word : List Nat

/-- An element of the view matrix. -/
def Camera.v (c : Camera) (i j : Nat) : SVal := svOf (c.word.getD (4 * i + j) 0)

/-- R178. The rotation of a normalised quaternion, by rows. -/
def rotation (w x y z : SVal) : List (List SVal) :=
  let two := svOf 0x40000000
  let one := svOf 0x3F800000
  let m2 := svOf 0xC0000000
  let nw := svNeg w
  [[svFma m2 (svFma z z (svMul y y)) one, svMul two (svFma nw z (svMul x y)), svMul two (svFma w y (svMul x z))],
   [svMul two (svFma w z (svMul x y)), svFma m2 (svFma z z (svMul x x)) one, svMul two (svFma nw x (svMul y z))],
   [svMul two (svFma nw y (svMul x z)), svMul two (svFma w x (svMul y z)), svFma m2 (svFma y y (svMul x x)) one]]

/-- R177, R178. The words of a projected record, none for an invisible splat, with the flags of the computation. -/
def projectSplat (p : SplatParams) (cam : Camera) (g : Nat → Nat) : Option (List Nat) × FpFlags :=
  let f := fun (i : Nat) => svOf (g i)
  let cv := fun (i : Nat) => svOf (cam.word.getD i 0)
  let row := fun (i : Nat) => svFma (cam.v i 2) (f 2) (svFma (cam.v i 1) (f 1) (svFma (cam.v i 0) (f 0) (cam.v i 3)))
  let px := row 0
  let py := row 1
  let pz := row 2
  let near := svOf p.near.toNat
  let fl0 := px.2 ||| py.2 ||| cmpFlags pz near
  if !svGe pz near then (none, fl0)
  else
    let iz := svDiv (svOf 0x3F800000) pz
    let xn := svMul px iz
    let yn := svMul py iz
    let u := svFma (cv 12) xn (cv 14)
    let v := svFma (cv 13) yn (cv 15)
    let qw := f 6
    let qx := f 7
    let qy := f 8
    let qz := f 9
    let h := svDiv (svOf 0x3F800000) (svSqrt (svFma qz qz (svFma qy qy (svFma qx qx (svMul qw qw)))))
    let ro := rotation (svMul qw h) (svMul qx h) (svMul qy h) (svMul qz h)
    let r := fun (i j : Nat) => (ro.getD i []).getD j (svOf 0)
    let um := fun (i j : Nat) =>
      svMul (svFma (cam.v i 2) (r 2 j) (svFma (cam.v i 1) (r 1 j) (svMul (cam.v i 0) (r 0 j)))) (f (3 + j))
    let j00 := svMul (cv 12) iz
    let j02 := svNeg (svMul (svMul (cv 12) xn) iz)
    let j11 := svMul (cv 13) iz
    let j12 := svNeg (svMul (svMul (cv 13) yn) iz)
    let m0 := fun (j : Nat) => svFma j02 (um 2 j) (svMul j00 (um 0 j))
    let m1 := fun (j : Nat) => svFma j12 (um 2 j) (svMul j11 (um 1 j))
    let dil := svOf p.dilation.toNat
    let a := svAdd (svFma (m0 2) (m0 2) (svFma (m0 1) (m0 1) (svMul (m0 0) (m0 0)))) dil
    let b := svFma (m0 2) (m1 2) (svFma (m0 1) (m1 1) (svMul (m0 0) (m1 0)))
    let c := svAdd (svFma (m1 2) (m1 2) (svFma (m1 1) (m1 1) (svMul (m1 0) (m1 0)))) dil
    let det := svFma a c (svNeg (svMul b b))
    let fl1 := fl0 ||| u.2 ||| v.2 ||| cmpFlags det (svOf 0)
    if !svGt det (svOf 0) ∨ det.1 = 0x7F800000 then (none, fl1)
    else
      let e := svDiv (svOf 0x3F800000) det
      let ca := svMul c e
      let cb := svNeg (svMul b e)
      let cc := svMul a e
      let m := svMul (svAdd a c) (svOf 0x3F000000)
      let rad := svCeil (svMul (svOf 0x40400000)
        (svSqrt (svAdd m (svSqrt (svMax (svOf 0x3DCCCCCD) (svFma m m (svNeg det)))))))
      let all := [u, v, ca, cb, cc, rad]
      let fl2 := all.foldl (fun x y => x ||| y.2) fl1
      if all.any svWild then (none, fl2 ||| flagIf (all.any svNaN) fNV)
      else
        let k := svOf 0x3D800000
        let lo := fun (x : SVal) => svMul (svSub x rad) k
        let hi := fun (x : SVal) => svMul (svAdd x rad) k
        let tx0 := max 0 (svFloor (lo u))
        let tx1 := min ((p.width / 16 : Nat) - 1 : Int) (svFloor (hi u))
        let ty0 := max 0 (svFloor (lo v))
        let ty1 := min ((p.height / 16 : Nat) - 1 : Int) (svFloor (hi v))
        let fl3 := fl2 ||| (lo u).2 ||| (hi u).2 ||| (lo v).2 ||| (hi v).2
        if tx1 < tx0 ∨ ty1 < ty0 then (none, fl3)
        else
          let box := tx0.toNat + ty0.toNat * 2 ^ 8 + tx1.toNat * 2 ^ 16 + ty1.toNat * 2 ^ 24
          (some [u.1, v.1, ca.1, cb.1, cc.1, pz.1, g 10, g 11, g 12, g 13, box, 1], fl3)

/-- The bytes of a 64-byte record of words. -/
def recordOf (ws : List Nat) : List Byte := ((ws ++ List.replicate 16 0).take 16).flatMap (leBytes 4)

/-- R176. Whether a run of records is in range. -/
def runOk (first n : Nat) : Bool := decide (1 ≤ n ∧ n ≤ 2 ^ 24 ∧ first + n ≤ 2 ^ 32)

/-- R176, R178. Runs an `spj`. The records of a batch are read before those of the batch are written (log 74). -/
def State.runProject (s : State) (o : SplatOp) (g : Group) : SplatRun :=
  let cmd := o.command
  let gsrc := field cmd 0 8
  let dst := field cmd 8 8
  let first := field cmd 16 4
  let n := field cmd 20 4
  let camera := field cmd 24 4
  if gsrc % 64 ≠ 0 ∨ dst % 64 ≠ 0 ∨ !runOk first n ∨ camera % 64 ≠ 0 ∨ g.scratchSize < camera + 64 ∨
      !zeroBytes cmd 28 60 then (s, .ok (splatStatus 1 0 0))
  else match s.unitRead o camera 64 with
  | .error e => (s, .error e)
  | .ok view =>
    let cam : Camera := ⟨(List.range 16).map (wordsAt view)⟩
    let r := runAll (fun s (acc : FpFlags × Nat) (ids : List Nat) =>
      match s.splatFetch o 64 (ids.map (fun i => gsrc + 64 * i)) with
      | (s, .error e) => (s, .error e)
      | (s, .ok recs) =>
        let res := recs.map (fun r => projectSplat g.splat cam (wordsAt r))
        let out := (ids.zip res).map (fun x => (dst + 64 * x.1, recordOf (x.2.1.getD [])))
        match s.splatWrite o 64 out with
        | (s, .error e) => (s, .error e)
        | (s, .ok ()) => (s, .ok (res.foldl (fun f x => f ||| x.2) acc.1, acc.2 + (res.filter (fun x => x.1.isSome)).length)))
      s ((0 : FpFlags), 0) (batchesOf ((List.range n).map (first + ·)))
    match r with
    | (s, .error e) => (s, .error e)
    | (s, .ok (fl, vis)) => (s, .ok (splatStatus 0 fl vis))

/-- R179. The bin fields of a command. -/
structure Bins where
  bins : Nat
  x0 : Nat
  y0 : Nat
  wx : Nat
  wy : Nat
  cap : Nat

/-- R179. The bin fields of a command, if they are in range. -/
def binsOf (cmd : List Byte) (g : Group) : Option Bins :=
  let b : Bins := ⟨field cmd 16 4, field cmd 20 2, field cmd 22 2, field cmd 24 2, field cmd 26 2, field cmd 28 4⟩
  let wt := b.wx * b.wy
  if b.bins % 16 = 0 ∧ b.x0 ≤ 255 ∧ b.y0 ≤ 255 ∧ 1 ≤ b.wx ∧ b.wx ≤ 256 ∧ 1 ≤ b.wy ∧ b.wy ≤ 256 ∧
      b.x0 + b.wx ≤ g.splat.width / 16 ∧ b.y0 + b.wy ≤ g.splat.height / 16 ∧ 1 ≤ b.cap ∧ b.cap ≤ 4096 ∧
      b.bins + 16 * ((wt + 3) / 4) + 8 * (wt * b.cap) ≤ g.scratchSize then some b else none

/-- R179. The number of tiles of the window. -/
def Bins.tiles (b : Bins) : Nat := b.wx * b.wy
/-- R179. The address of a tile's count word. -/
def Bins.countAt (b : Bins) (t : Nat) : Nat := b.bins + 4 * t
/-- R179. The address of a slot of a tile. -/
def Bins.slotAt (b : Bins) (t k : Nat) : Nat := b.bins + 16 * ((b.tiles + 3) / 4) + 8 * (t * b.cap + k)

/-- The count word of a tile. -/
def State.tileCount (s : State) (o : SplatOp) (b : Bins) (t : Nat) : Except Stop Nat :=
  (s.unitRead o (b.countAt t) 4).map leNat

/-- The entries of a tile: depth key and id. -/
def State.tileEntries (s : State) (o : SplatOp) (b : Bins) (t n : Nat) : Except Stop (List (Nat × Nat)) :=
  (s.unitRead o (b.slotAt t 0) (8 * n)).map (fun bs => (List.range n).map (fun k => (field bs (8 * k) 4, field bs (8 * k + 4) 4)))

/-- R180. The tiles of the window that the box of a projected record meets, in their order. -/
def Bins.tilesOf (b : Bins) (box : Nat) : List Nat :=
  let tx0 := Nat.max (bitsOf box 7 0) b.x0
  let ty0 := Nat.max (bitsOf box 15 8) b.y0
  let tx1 := Nat.min (bitsOf box 23 16) (b.x0 + b.wx - 1)
  let ty1 := Nat.min (bitsOf box 31 24) (b.y0 + b.wy - 1)
  (List.range (ty1 + 1 - ty0)).flatMap (fun y => (List.range (tx1 + 1 - tx0)).map (fun x =>
    (ty0 + y - b.y0) * b.wx + (tx0 + x - b.x0)))

/-- R180. Puts a splat into the bin of a tile; with the number of entries written. -/
def State.binTile (s : State) (o : SplatOp) (b : Bins) (i : Nat) (r : List Byte) (n t : Nat) : State × Except Stop Nat :=
  match s.tileCount o b t with
  | .error e => (s, .error e)
  | .ok k =>
    match (if k < b.cap then s.unitPoke o (b.slotAt t k) (leBytes 4 (wordsAt r 5) ++ leBytes 4 i) else (s, .ok ())) with
    | (s, .error e) => (s, .error e)
    | (s, .ok ()) =>
      let p := s.unitPoke o (b.countAt t) (leBytes 4 (k + 1))
      (p.1, p.2.map (fun _ => if k < b.cap then n + 1 else n))

/-- R180. Puts a visible splat into the bins of its tiles; with the number of entries written. -/
def State.binSplat (s : State) (o : SplatOp) (b : Bins) (n : Nat) (x : Nat × List Byte) : State × Except Stop Nat :=
  if wordsAt x.2 11 = 0 then (s, .ok n)
  else runAll (fun s n t => s.binTile o b x.1 x.2 n t) s n (b.tilesOf (wordsAt x.2 10))

/-- Whether a tile of the window overflows, after those before it. -/
def State.overflowed (s : State) (o : SplatOp) (b : Bins) (full : Bool) (t : Nat) : State × Except Stop Bool :=
  (s, (s.tileCount o b t).map (fun n => full || decide (b.cap < n)))

/-- R180. Runs an `sbn`. -/
def State.runBin (s : State) (o : SplatOp) (g : Group) : SplatRun :=
  let cmd := o.command
  let proj := field cmd 0 8
  let first := field cmd 8 4
  let n := field cmd 12 4
  match binsOf cmd g with
  | none => (s, .ok (splatStatus 1 0 0))
  | some b =>
    if proj % 64 ≠ 0 ∨ !runOk first n ∨ !zeroBytes cmd 32 60 then (s, .ok (splatStatus 1 0 0))
    else match s.unitPoke o (b.countAt 0) (List.replicate (4 * b.tiles) 0) with
    | (s, .error e) => (s, .error e)
    | (s, .ok ()) =>
      let r := runAll (fun s (acc : Nat) (ids : List Nat) =>
        match s.splatFetch o 64 (ids.map (fun i => proj + 64 * i)) with
        | (s, .error e) => (s, .error e)
        | (s, .ok recs) => runAll (fun s n x => s.binSplat o b n x) s acc (ids.zip recs))
        s 0 (batchesOf ((List.range n).map (first + ·)))
      match r with
      | (s, .error e) => (s, .error e)
      | (s, .ok k) =>
        let full := runAll (fun s f t => s.overflowed o b f t) s false (List.range b.tiles)
        (full.1, full.2.map (fun f => splatStatus (if f then 2 else 0) 0 k))

/-- R181. Sorts the entries of a tile, if it does not overflow; with the number of entries sorted so far. -/
def State.sortTile (s : State) (o : SplatOp) (b : Bins) (acc : Nat × Bool) (t : Nat) : State × Except Stop (Nat × Bool) :=
  match s.tileCount o b t with
  | .error e => (s, .error e)
  | .ok n =>
    if b.cap < n then (s, .ok (acc.1, true))
    else match s.tileEntries o b t n with
      | .error e => (s, .error e)
      | .ok l =>
        let es := l.mergeSort (fun p q => decide (p.1 < q.1 ∨ (p.1 = q.1 ∧ p.2 ≤ q.2)))
        let p := s.unitPoke o (b.slotAt t 0) (es.flatMap (fun e => leBytes 4 e.1 ++ leBytes 4 e.2))
        (p.1, p.2.map (fun _ => (acc.1 + n, acc.2)))

/-- R181. Runs an `sst`. -/
def State.runSort (s : State) (o : SplatOp) (g : Group) : SplatRun :=
  match binsOf o.command g with
  | none => (s, .ok (splatStatus 1 0 0))
  | some b =>
    if !zeroBytes o.command 0 16 ∨ !zeroBytes o.command 32 60 then (s, .ok (splatStatus 1 0 0))
    else
      let r := runAll (fun s acc t => s.sortTile o b acc t) s (0, false) (List.range b.tiles)
      (r.1, r.2.map (fun x => splatStatus (if x.2 then 2 else 0) 0 x.1))

/-- R183. What Alpha gives for a splat that covers the point. -/
structure Cover where
  alpha : SVal
  g : SVal
  clamped : Bool
  dx : SVal
  dy : SVal

/-- An integer as an f32 value. -/
def svInt (n : Nat) : SVal := svOf (if n = 0 then 0 else (fmt32.round .rne false false n 0 false).1)

/-- R183. Alpha of a projected record at a pixel, none if it skips, with the flags. -/
def alphaOf (p : List Byte) (x y : Nat) : Option Cover × FpFlags :=
  let f := fun (i : Nat) => svOf (wordsAt p i)
  let dx := svSub (svInt x) (f 0)
  let dy := svSub (svInt y) (f 1)
  let q := svFma (svMul (svOf 0x40000000) (f 3)) (svMul dx dy)
    (svFma (f 4) (svMul dy dy) (svMul (f 2) (svMul dx dx)))
  if wordsAt p 11 = 0 then (none, dx.2 ||| dy.2 ||| q.2)
  else if !svGe q (svOf 0) then (none, cmpFlags q (svOf 0))
  else
    let g := svExp (svMul (svOf 0xBF000000) q)
    let a := svMul (f 6) g
    let top := svOf 0x3F7D70A4
    let clamped := svGt a top
    let fl := cmpFlags a top
    let a := if clamped then (top.1, fl) else (a.1, fl)
    if !svGe a (svOf 0x3B808081) then (none, cmpFlags a (svOf 0x3B808081))
    else (some ⟨a, g, clamped, dx, dy⟩, fl)

/-- The projected records already fetched by a pass, by id. -/
abbrev RecordCache := List (Nat × List Byte)

/-- R190. The records of a batch of a pixel's positions, fetched. -/
def State.fetchIds (s : State) (o : SplatOp) (proj : Nat) (ids : List Nat) : State × Except Stop RecordCache :=
  match s.splatFetch o 64 (ids.map (fun i => proj + 64 * i)) with
  | (s, .error e) => (s, .error e)
  | (s, .ok recs) => (s, .ok (ids.zip recs))

/-- R184. A pixel under way. -/
structure Pixel where
  t : SVal
  r : SVal
  g : SVal
  b : SVal
  n : Nat
  stop : Nat
  done : Bool
  fl : FpFlags

/-- R184. One position of a pixel's list. -/
def Pixel.blendOne (x : Pixel) (cut : SVal) (px py pos : Nat) (p : List Byte) : Pixel :=
  if x.done then x
  else match alphaOf p px py with
    | (none, fl) => { x with fl := x.fl ||| fl }
    | (some c, fl) =>
      let w := svMul c.alpha x.t
      let f := fun (i : Nat) => svOf (wordsAt p i)
      let t := svMul x.t (svSub (svOf 0x3F800000) c.alpha)
      let r := svFma w (f 7) x.r
      let g := svFma w (f 8) x.g
      let b := svFma w (f 9) x.b
      let under := svGt cut t
      { t := t, r := r, g := g, b := b, n := x.n + 1, stop := if under then pos + 1 else x.stop, done := under
        fl := x.fl ||| fl ||| r.2 ||| g.2 ||| b.2 ||| cmpFlags t cut }

/-- R182. The bytes of a pixel's record. -/
def Pixel.bytes (x : Pixel) : List Byte :=
  leBytes 4 x.r.1 ++ leBytes 4 x.g.1 ++ leBytes 4 x.b.1 ++ leBytes 4 x.t.1 ++ leBytes 4 x.n ++ leBytes 4 x.stop ++
    leBytes 8 0

/-- R184. A pixel at its start. -/
def Pixel.start (m : Nat) : Pixel := ⟨svOf 0x3F800000, svOf 0, svOf 0, svOf 0, 0, m, false, 0⟩

/-- R184. Blends one pixel over the entries of its tile: the batches of its positions until it stops. A batch of projected
records begins anew at each pixel, and its positions past the pixel's stop are fetched with it (log 74). -/
def State.blendPixel (s : State) (o : SplatOp) (proj : Nat) (cut : SVal) (px py : Nat) (es : List (Nat × Nat)) :
    State × Except Stop Pixel :=
  runAll (fun s (x : Pixel) (part : List ((Nat × Nat) × Nat)) =>
    if x.done then (s, .ok x)
    else match s.fetchIds o proj (part.map (fun e => e.1.2)) with
      | (s, .error e) => (s, .error e)
      | (s, .ok recs) =>
        (s, .ok ((part.zip recs).foldl (fun x e => x.blendOne cut px py e.1.2 e.2.2) x)))
    s (Pixel.start es.length) (batchesOf es.zipIdx)

/-- R182. The address of a pixel's record, for a pitch and a record size. -/
def pixelAt (b : Bins) (base pitch size x y : Nat) : Nat := base + (y - 16 * b.y0) * pitch + (x - 16 * b.x0) * size

/-- The pixels of a tile in order. -/
def tilePixels (b : Bins) (t : Nat) : List (Nat × Nat) :=
  (List.range 256).map (fun p => (16 * (b.x0 + t % b.wx) + p % 16, 16 * (b.y0 + t / b.wx) + p / 16))

/-- R184, R186. The list of a tile, with whether it overflows: then nothing of it is read. -/
def State.tileList (s : State) (o : SplatOp) (b : Bins) (t : Nat) : Except Stop (Bool × List (Nat × Nat)) :=
  match s.tileCount o b t with
  | .error e => .error e
  | .ok m => if b.cap < m then .ok (true, []) else (s.tileEntries o b t m).map (fun es => (false, es))

/-- R182, R184. Runs an `sbl`. DESIGN CHOICE (log 74): the records of 16 pixels of a tile are written together, after all 16
are blended, so that a projected record that `out` overlaps is read as it was before them. -/
def State.runBlend (s : State) (o : SplatOp) (g : Group) : SplatRun :=
  let cmd := o.command
  let proj := field cmd 0 8
  let out := field cmd 8 8
  let pitch := field cmd 32 4
  match binsOf cmd g with
  | none => (s, .ok (splatStatus 1 0 0))
  | some b =>
    if proj % 64 ≠ 0 ∨ out % 32 ≠ 0 ∨ pitch % 32 ≠ 0 ∨ pitch < 512 * b.wx ∨ !zeroBytes cmd 36 60 then
      (s, .ok (splatStatus 1 0 0))
    else
      let r := runAll (fun s (acc : FpFlags × Bool × Nat) t =>
        match s.tileList o b t with
        | .error e => (s, .error e)
        | .ok (full, es) => runAll (fun s (acc : FpFlags × Bool × Nat) (part : List (Nat × Nat)) =>
          match runAll (fun s (xs : List (Nat × Pixel)) (p : Nat × Nat) =>
              match s.blendPixel o proj (svOf g.splat.cutoff.toNat) p.1 p.2 es with
              | (s, .error e) => (s, .error e)
              | (s, .ok x) => (s, .ok (xs ++ [(pixelAt b out pitch 32 p.1 p.2, x)]))) s [] part with
          | (s, .error e) => (s, .error e)
          | (s, .ok xs) =>
            match s.splatWrite o 32 (xs.map (fun x => (x.1, x.2.bytes))) with
            | (s, .error e) => (s, .error e)
            | (s, .ok ()) =>
              (s, .ok (xs.foldl (fun f x => f ||| x.2.fl) acc.1, acc.2.1 || full, acc.2.2 + part.length)))
          s acc (batchesOf (tilePixels b t))) s ((0 : FpFlags), false, 0) (List.range b.tiles)
      match r with
      | (s, .error e) => (s, .error e)
      | (s, .ok (fl, full, n)) => (s, .ok (splatStatus (if full then 2 else 0) fl n))

/-- R186. The gradients gathered: for each id its nine words. -/
abbrev Gradients := List (Nat × List SVal)

/-- R186. Adds a contribution. -/
def addGradient (gs : Gradients) (i : Nat) (c : List SVal) : Gradients :=
  let old := (gs.lookup i).getD (List.replicate 9 (svOf 0))
  (i, (old.zip c).map (fun x => svAdd x.1 x.2)) :: gs.filter (fun x => x.1 ≠ i)

/-- R186. A pixel of the gather phase under way. -/
structure Back where
  t : SVal
  ar : SVal
  ag : SVal
  ab : SVal
  gs : Gradients
  fl : FpFlags

/-- R186. One position of a pixel, from the last blended one down. -/
def Back.one (x : Back) (tn : SVal) (gin : Nat → SVal) (px py id : Nat) (p : List Byte) : Back :=
  match alphaOf p px py with
  | (none, fl) => { x with fl := x.fl ||| fl }
  | (some c, fl) =>
    let f := fun (i : Nat) => svOf (wordsAt p i)
    let a := c.alpha
    let om := svSub (svOf 0x3F800000) a
    let t := svDiv x.t om
    let w := svMul a t
    let er := svSub (f 7) x.ar
    let eg := svSub (f 8) x.ag
    let eb := svSub (f 9) x.ab
    let da := svFma eb (gin 2) (svFma eg (gin 1) (svFma er (gin 0) (svOf 0)))
    let da := svFma (svNeg (svDiv tn om)) (gin 3) (svMul t da)
    let dO := if c.clamped then svOf 0 else svMul c.g da
    let dp := if c.clamped then svOf 0 else svMul a da
    let mh := svOf 0xBF000000
    let con :=
      [svMul (svFma (f 3) c.dy (svMul (f 2) c.dx)) dp, svMul (svFma (f 4) c.dy (svMul (f 3) c.dx)) dp,
       svMul (svMul mh (svMul c.dx c.dx)) dp, svMul (svNeg (svMul c.dx c.dy)) dp,
       svMul (svMul mh (svMul c.dy c.dy)) dp, dO, svMul w (gin 0), svMul w (gin 1), svMul w (gin 2)]
    let ar := svFma a er x.ar
    let ag := svFma a eg x.ag
    let ab := svFma a eb x.ab
    { t := t, ar := ar, ag := ag, ab := ab, gs := addGradient x.gs id con
      fl := con.foldl (fun q y => q ||| y.2) (x.fl ||| fl ||| da.2 ||| ar.2 ||| ag.2 ||| ab.2) }

/-- R186. The gather phase of one pixel; every gradient record that it meets first is checked for the addition (R190, R393),
with those of its batch (log 74). -/
def State.gatherPixel (s : State) (o : SplatOp) (proj grad : Nat) (px py : Nat) (es : List (Nat × Nat))
    (outRec gin : List Byte) (gs : Gradients) (fl : FpFlags) : State × Except Stop Back :=
  let tn := svOf (wordsAt outRec 3)
  let start : Back := ⟨tn, svOf 0, svOf 0, svOf 0, gs, fl⟩
  let visits := (es.take (Nat.min (wordsAt outRec 5) es.length)).reverse
  runAll (fun s (x : Back) (part : List (Nat × Nat)) =>
    match s.fetchIds o proj (part.map Prod.snd) with
    | (s, .error e) => (s, .error e)
    | (s, .ok recs) =>
      let x' := recs.foldl (fun x r => x.one tn (fun i => svOf (wordsAt gin i)) px py r.1 r.2) x
      let fresh := (recs.map Prod.fst).filter (fun i => (x'.gs.lookup i).isSome && (x.gs.lookup i).isNone)
      match s.splatCheck o .atomic 64 (fresh.map (fun i => grad + 64 * i)) with
      | (s, .error e) => (s, .error e)
      | (s, .ok _) => (s, .ok x')) s start (batchesOf visits)

/-- The word positions of a gradient record. -/
def gradientWords : List Nat := [0, 1, 2, 3, 4, 6, 7, 8, 9]

/-- R187, R308, R316. An addition of a unit's operation that another device is asked to perform: the home of a page, or the
owner of the right of a page of this device. -/
def State.sendAddition (s : State) (op ctx peer va : Nat) (away : Bool) (x : Nat) : State :=
  match s.dev.pathTo peer va with
  | none => s.mapDev (fun d => d.setError ctx peer 2)
  | some port => s.sendTxn { Txn.to_ op ctx peer port va (.atomic 0xC2) 4 (leBytes 4 x ++ leBytes 4 0) with away := away }

/-- R187. An addition that another device performs: its flags do not come back before the operation ends, so what they add to
the status is free (log 15). -/
def State.addAway (s : State) (o : SplatOp) (peer va : Nat) (away : Bool) (x : SVal) : State × FpFlags :=
  let (k, s) := s.draw
  (s.sendAddition o.op (s.dev.ctxOf o.w) peer va away x.1, (Config.freeWord k).setWidth 6 &&& (fNV ||| fOF ||| fUF))

/-- R187, R308. One atomic addition to a word of a gradient record: here, or on the device that holds the page or its right;
or the code of a data loss. -/
def State.addTo (s : State) (o : SplatOp) (p : LaneAccess) (x : SVal) : State × Except Nat FpFlags :=
  let ctx := s.dev.ctxOf o.w
  let va := p.va.toNat % 2 ^ 48
  let sum := fun (m : Nat) => svAdd (svOf m) x
  if p.loc.space = .fabric then
    let peer := fabricDest p.loc.addr
    match s.dev.owned? ctx peer (p.loc.addr % 2 ^ 48 / 65536) with
    | some w =>
      let r := s.ownedAtomic none w s.dev.devId (p.loc.addr % 2 ^ 48) 4 (fun m => some (sum m).1)
      (r.2, .ok (sum r.1).2)
    | none => let r := s.addAway o peer (p.loc.addr % 2 ^ 48) false x; (r.1, .ok r.2)
  else match s.dev.rightCase ctx (va / 65536) true with
    | .away owner => let r := s.addAway o owner va true x; (r.1, .ok r.2)
    | _ =>
      match s.unitLoss o.w .atomic p.loc 4 with
      | some code => (s, .error code)
      | none =>
        let m := leNat (s.dev.peek p.loc 4)
        ((s.mapDev (fun d => d.countAtomic ctx (va / 65536) d.devId)).writeLoc ctx o.op p.loc (leBytes 4 (sum m).1),
          .ok (sum m).2)

/-- R187, R191. The additions of one id, word by word; a data loss stops them in commit order. -/
def State.commitGradient (s : State) (o : SplatOp) (grad : Nat) (i : Nat) (ws : List SVal) (fl : FpFlags) :
    State × Except Stop FpFlags :=
  runAll (fun s (fl : FpFlags) (x : Nat × SVal) =>
    match s.splatCheck o .atomic 4 [grad + 64 * i + 4 * x.1] with
    | (s, .error e) => (s, .error e)
    | (s, .ok []) => (s, .ok fl)
    | (s, .ok (p :: _)) =>
      match s.addTo o p x.2 with
      | (s, .error code) => (s, .error (.fault 11 code (bitAt p.lane) p.va))
      | (s, .ok f) => (s, .ok (fl ||| f))) s fl (gradientWords.zip ws)

/-- R185 to R187. Runs an `sbk`. -/
def State.runGradient (s : State) (o : SplatOp) (g : Group) : SplatRun :=
  let cmd := o.command
  let proj := field cmd 0 8
  let out := field cmd 8 8
  let pitch := field cmd 32 4
  let gpitch := field cmd 36 4
  let ginAt := field cmd 40 8
  let grad := field cmd 48 8
  match binsOf cmd g with
  | none => (s, .ok (splatStatus 1 0 0))
  | some b =>
    if proj % 64 ≠ 0 ∨ out % 32 ≠ 0 ∨ pitch % 32 ≠ 0 ∨ pitch < 512 * b.wx ∨ gpitch % 16 ≠ 0 ∨ gpitch < 256 * b.wx ∨
        ginAt % 16 ≠ 0 ∨ grad % 64 ≠ 0 ∨ 16384 < b.tiles * b.cap ∨ !zeroBytes cmd 56 60 then
      (s, .ok (splatStatus 1 0 0))
    else
      let r := runAll (fun s (acc : Gradients × FpFlags × Bool) t =>
        match s.tileList o b t with
        | .error e => (s, .error e)
        | .ok (true, _) => (s, .ok (acc.1, acc.2.1, true))
        | .ok (false, es) =>
          runAll (fun s (acc : Gradients × FpFlags × Bool) (part : List (Nat × Nat)) =>
            match s.splatFetch o 32 (part.map (fun p => pixelAt b out pitch 32 p.1 p.2)) with
            | (s, .error e) => (s, .error e)
            | (s, .ok outs) =>
              match s.splatFetch o 16 (part.map (fun p => pixelAt b ginAt gpitch 16 p.1 p.2)) with
              | (s, .error e) => (s, .error e)
              | (s, .ok gins) =>
                runAll (fun s (acc : Gradients × FpFlags × Bool) (x : (Nat × Nat) × List Byte × List Byte) =>
                  match s.gatherPixel o proj grad x.1.1 x.1.2 es x.2.1 x.2.2 acc.1 acc.2.1 with
                  | (s, .error e) => (s, .error e)
                  | (s, .ok y) => (s, .ok (y.gs, y.fl, acc.2.2))) s acc (part.zip (outs.zip gins)))
            s acc (batchesOf (tilePixels b t))) s (([] : Gradients), (0 : FpFlags), false) (List.range b.tiles)
      match r with
      | (s, .error e) => (s, .error e)
      | (s, .ok (gs, fl, full)) =>
        let sorted := gs.mergeSort (fun x y => decide (x.1 ≤ y.1))
        match runAll (fun s (fl : FpFlags) (x : Nat × List SVal) => s.commitGradient o grad x.1 x.2 fl) s
            (gs.foldl (fun f x => x.2.foldl (fun f y => f ||| y.2) f) fl) sorted with
        | (s, .error e) => (s, .error e)
        | (s, .ok fl) => (s, .ok (splatStatus (if full then 2 else 0) fl gs.length))

/-- R168. The operation that a unit performs next: the head of its queue, accepted, not parked, and behind the stores of
its wave (R188). -/
def State.splatHead (s : State) (unit : Nat) (opcode : Nat) : Option (SplatOp × Group) :=
  match s.dev.unitQueue unit with
  | o :: _ =>
    if o.accepted ∧ !o.parked ∧ o.opcode = opcode ∧ s.dev.settledFor o.w o.op then
      (s.dev.group? o.w.launch o.w.group).map (fun g => (o, g))
    else none
  | [] => none

/-- R187, R308. An addition of a unit's operation to a word of a page of this device, whose right has been on its way: here,
with the owner of the right, or once it has arrived. -/
def State.lateAddition (s : State) (op ctx va : Nat) (x : W32) : State :=
  match s.dev.rightCase ctx (va / 65536) true with
  | .waits _ => s.mapDev (fun d => { d with heldRequests := d.heldRequests ++ [.addition op ctx va x] })
  | .away o => s.sendAddition op ctx o va true x.toNat
  | .here =>
    match (s.dev.ctx? ctx).bind (fun c => match s.dev.walk c.root va with
      | .leaf l => l.loc va
      | _ => none) with
    | none => s
    | some loc =>
      (s.mapDev (fun d => d.countAtomic ctx (va / 65536) d.devId)).writeLoc ctx op loc
        (leBytes 4 (svAdd (svOf (leNat (s.dev.peek loc 4))) (svOf x.toNat)).1)

/-- Parks an operation of a unit. -/
def State.parkSplat (s : State) (unit op : Nat) : State :=
  s.mapDev (fun d => d.mapUnit unit (fun u => { u with queue := u.queue.map (fun x =>
    if x.op = op then { x with parked := true } else x) }))

/-- R171, R190, R191, R309. Performs the head of a unit's queue: its writes, its status word and its counter; or it parks for
a fill, with what it has written so far, to begin again; or for the right of a page or a peer's bytes, nothing performed; or
it stops with the halt of its wave. A fault waits until its wave stands at a boundary. -/
def State.runSplat (s : State) (unit opcode : Nat) (run : State → SplatOp → Group → SplatRun) : Out :=
  .next (match s.splatHead unit opcode with
    | none => s
    | some (o, g) =>
      let done := match run s o g with
        | (t, .ok status) => let p := t.unitPoke o (o.record + 60) (leBytes 4 status); (p.1, p.2)
        | (t, .error e) => (t, Except.error e)
      match done with
      | (t, .ok ()) => (t.dropSplat unit o.op).mapDev (fun d => (d.countDone o.w o.op).dropFetched (.unit o.op))
      | (t, .error (.notReady _)) => (s.takeRecalls t).parkSplat unit o.op
      | (t, .error e) =>
        if !s.unitCanStop o.w then s
        else match e with
          | .fill m pages =>
            (match s.dev.faultWave o.w with
            | some w => (t.parkSplat unit o.op).parkUnit w m pages (some unit) none
            | none => (t.dropSplat unit o.op).unitHalt o.w o.clause 5 0x01 m ((pages.head?.map Touch.addr).getD 0))
          | .fault cls code m addr => (t.dropSplat unit o.op).unitHalt o.w o.clause cls code m addr
          | _ => s)

/-- R174. The event that replaces the group's parameters. -/
def execSplatParameterSet (unit : Nat) (s : State) : Out :=
  s.runSplat unit 0xE0 (fun s o _ =>
    match splatParamsOf o.command with
    | none => (s, .ok (splatStatus 1 0 0))
    | some p =>
      (s.mapDev (fun d => d.mapGroup o.w.launch o.w.group (fun g => { g with splat := p })), .ok (splatStatus 0 0 0)))

/-- R178. The event of a projection. -/
def execProjection (unit : Nat) (s : State) : Out := s.runSplat unit 0xE1 State.runProject
/-- R180. The event of a binning. -/
def execBinning (unit : Nat) (s : State) : Out := s.runSplat unit 0xE2 State.runBin
/-- R181. The event of a sort of the tiles. -/
def execTileSort (unit : Nat) (s : State) : Out := s.runSplat unit 0xE3 State.runSort
/-- R184. The event of a blend. -/
def execBlend (unit : Nat) (s : State) : Out := s.runSplat unit 0xE4 State.runBlend
/-- R186, R187. The event of a gradient pass. -/
def execGradientGather (unit : Nat) (s : State) : Out := s.runSplat unit 0xE5 State.runGradient

end Sys2Proof.Machine
end

