-- ==== Sys2Proof/Machine/Context.lean ====
section
/-! DEFINITION. The context commands (R416): pre-emption and the save (R353, R354, R192), the restore of an image (R364),
the resume of a halted context (R351) and the freeing of a context. -/

namespace Sys2Proof.Machine

/-- R416. The outcome of the command. -/
def State.outcome (s : State) (outcome reason : Nat) : State :=
  s.mapDev (fun d => { d with command := { d.command with outcome := outcome, reason := reason } })

/-- R353, R354. The request of a pre-emption: no clause of the context starts, each wave at a boundary halts, and the
descriptor reads 1 until the save is done. -/
def State.preempt (s : State) (x : Context) (image : W64) : State :=
  let s := s.mapDev (fun d => d.mapCtx x.index (fun c => { c with saving := some image, state := 1 }))
  let stops := s.dev.waves.filter (fun w => s.dev.ctxOf w.id == x.index && w.hold == .none && (s.issueOf w.id).isNone)
  (stops.foldl (fun s w => s.onWave w.id (fun w => { w with hold := .preempted })) s).outcome 1 0

/-- The launches of a context, by their numbers. -/
def Dev.launchIds (d : Dev) (ctx : Nat) : List Nat := (d.launchesOf ctx).map Launch.id

/-- R341. The hardware clusters that hold clusters of a context. -/
def Dev.clustersOf (d : Dev) (ctx : Nat) : List Nat :=
  ((d.clusters.filter (fun c => (d.launchIds ctx).contains c.launch)).map Cluster.hw).eraseDups

/-- R341. The groups of a context on a hardware cluster. -/
def Dev.groupsOn (d : Dev) (ctx hw : Nat) : List Group :=
  d.groups.filter (fun g => (d.launchIds ctx).contains g.launch && hwOf g.core == hw)

/-- R60, R167, R192, R354. Whether the part of a context that is being saved on a hardware cluster has come to rest: no
clause of its waves in execution, no fill but of a unit, no switch of paths due, no register result outstanding and no matrix
work, its matrix queues empty, and in its splat unit the first operation, if there is one, parked. Stores, copies without a
flag and the engines' operations are waited for only before the image is completed. -/
def State.restsOn (s : State) (ctx hw : Nat) : Bool :=
  let gs := s.dev.groupsOn ctx hw
  let mine := fun (w : WaveId) => gs.any (fun g => g.launch == w.launch && g.index == w.group)
  !((s.issue.toList ++ s.held).any (fun c => mine c.wave.id)) &&
    !(s.dev.inflight.any (fun a => mine a.w && (a.flag.isSome || a.kind == .matrix))) &&
    !(s.dev.waves.any (fun w => mine w.id && s.dev.givesWay w)) &&
    !(s.dev.fills.any (fun f => mine f.w && f.unit.isNone)) &&
    s.dev.cores.all (fun c => hwOf c.index != hw || c.queue.isEmpty) &&
    s.dev.units.all (fun u => u.index != hw || (match u.queue with | [] => true | o :: _ => o.parked))

/-- R305, R354. Whether a transaction is one of a context's own, and not a request of another device that is passed on. -/
def Txn.ownOf (t : Txn) (ctx : Nat) : Bool :=
  t.ctx == ctx && (match t.kind with | .relay _ => false | _ => true)

/-- R354. Whether every part of a context that is being saved is written, and nothing of it is outstanding: no counted
instruction but the splat operations that are saved, and no counter about to fall. -/
def State.saveReady (s : State) (ctx : Nat) : Bool :=
  let mine := fun (w : WaveId) => s.dev.ctxOf w == ctx
  (s.dev.clustersOf ctx).isEmpty && !((s.issue.toList ++ s.held).any (fun c => mine c.wave.id)) &&
    !(s.dev.inflight.any (fun a => a.ctx == ctx)) && !(s.dev.txns.any (fun t => t.ownOf ctx)) &&
    !(s.dev.cmds.any (fun c => c.ctx == ctx)) &&
    (s.dev.parts.filter (fun p => p.ctx == ctx)).all (fun p => p.groups.all (fun g =>
      g.counters.all (fun l => match l with | (_, true) :: _ => false | _ => true))) &&
    !(s.dev.graphs.any (fun g => g.ctx == ctx && g.nodes.any (fun n => n.status == .stopping)))

/-- R192. The save accepts the splat operations of a unit that still wait for room: their records are copied and their flags
clear. The numbers of the operations accepted so. -/
def State.acceptWaiting (s : State) (hw : Nat) : State × List Nat :=
  let ops := ((s.dev.units.filter (fun u => u.index == hw)).flatMap SplatUnit.queue).filter (fun o => !o.accepted)
  (ops.foldl (fun s o =>
    let bs := s.dev.peek ⟨.scratch o.w.launch o.w.group, o.record⟩ 64
    (s.mapDev (fun d => d.mapUnit hw (fun u => { u with queue := u.queue.map (fun x =>
      if x.op = o.op then { x with command := bs, accepted := true } else x) }))).flagDone o.w o.op) s,
    ops.map SplatOp.op)

/-- R341, R354. Writes the part of a context on a hardware cluster, and clears and releases the hardware cluster. -/
def State.writePart (s : State) (ctx hw : Nat) : State :=
  let (s, fresh) := s.acceptWaiting hw
  let d := s.dev
  let gs := d.groupsOn ctx hw
  let mine := fun (w : WaveId) => gs.any (fun g => g.launch == w.launch && g.index == w.group)
  let here := fun (c : Cluster) => c.hw == hw && (d.launchIds ctx).contains c.launch
  let cs := d.clusters.filter here
  let part : SavePart :=
    { ctx := ctx, hw := hw, clusters := cs, groups := gs, waves := d.waves.filter (fun w => mine w.id)
      cores := (cs.flatMap Cluster.cores).eraseDups.map d.core
      ops := (d.units.filter (fun u => u.index == hw)).flatMap SplatUnit.queue, fresh := fresh
      rotation := d.rotation.filter (fun x => x.1 / 32 == hw)
      failing := d.failing.filter (fun g => match g with | .bank c _ _ => hwOf c == hw | _ => false) }
  { s with dev := { d with
      parts := d.parts ++ [part]
      clusters := d.clusters.filter (fun c => !here c)
      groups := d.groups.filter (fun g => !gs.contains g)
      waves := d.waves.filter (fun w => !mine w.id)
      cores := d.cores.filter (fun c => hwOf c.index != hw)
      units := d.units.filter (fun u => u.index != hw)
      fills := d.fills.filter (fun f => !mine f.w)
      failing := d.failing.filter (fun g => match g with | .bank c _ _ => hwOf c != hw | _ => true)
      isobar := d.isobar.filter (fun e => !mine e.1)
      tlbs := d.tlbs.filter (fun e => e.unit ≠ .cluster hw) } }

/-- R341. Clears what the device holds of a context beside its descriptor. -/
def State.clearCtx (s : State) (ctx : Nat) : State :=
  let ls := s.dev.launchIds ctx
  let mine := fun (w : WaveId) => ls.contains w.launch
  let cores := (s.dev.clusters.filter (fun c => ls.contains c.launch)).flatMap Cluster.cores
  { s with
    issue := match s.issue with | some c => if mine c.wave.id then none else some c | none => none
    held := s.held.filter (fun c => !mine c.wave.id)
    dev := { s.dev with
      launches := s.dev.launches.filter (fun l => l.ctx != ctx)
      groups := s.dev.groups.filter (fun g => !ls.contains g.launch)
      clusters := s.dev.clusters.filter (fun c => !ls.contains c.launch)
      waves := s.dev.waves.filter (fun w => !mine w.id)
      parts := s.dev.parts.filter (fun p => p.ctx != ctx)
      cores := s.dev.cores.filter (fun c => !cores.contains c.index)
      units := s.dev.units.map (fun u => { u with queue := u.queue.filter (fun o => !mine o.w) })
      cmds := s.dev.cmds.filter (fun c => c.ctx != ctx)
      locks := s.dev.locks.filter (fun e => e.ctx != ctx)
      graphs := s.dev.graphs.filter (fun g => g.ctx != ctx)
      inflight := s.dev.inflight.filter (fun a => a.ctx != ctx)
      txns := s.dev.txns.filter (fun t => !(t.ownOf ctx))
      fetched := s.dev.fetched.filter (fun x => match x.reader with
        | .fetch w => !mine w
        | .walker c => c != ctx
        | .unit op => !(s.dev.cmds.any (fun c => c.id == op && c.ctx == ctx)) &&
            !(s.dev.units.any (fun u => u.queue.any (fun o => o.op == op && mine o.w))))
      failing := s.dev.failing.filter (fun g => (g.renamed (fun l => if ls.contains l then some l else none)
        (fun c => if cores.contains c then some c else none)).isNone)
      fills := s.dev.fills.filter (fun f => f.ctx != ctx)
      isobar := s.dev.isobar.filter (fun e => !mine e.1)
      tlbs := s.dev.tlbs.filter (fun e => e.ctx != ctx)
      walkerWaits := s.dev.walkerWaits.filter (fun x => x.1 != ctx)
      status := s.dev.status.filter (fun e => e.2.ctx != ctx) } }

/-- R354, R409. The end of a save: the image is written, with the header last, and the descriptor reads 3. Its graphs still
count among the accepted ones. -/
def State.writeImage (s : State) (x : Context) (image : W64) : State :=
  let view := s.dev.savedView x.index
  let fresh := (s.dev.parts.filter (fun p => p.ctx == x.index)).flatMap SavePart.fresh
  let side := view.savedImage x image.toNat
  let open_ := s.dev.openGraphs x.index
  let s := (s.clearCtx x.index).storeAt .other ⟨.hbm, image.toNat⟩ (view.imageBytes fresh x)
  (s.mapDev (fun d => { (d.mapCtx x.index (fun c => { c with state := 3, saving := none, savedGraphs := open_ })) with
    saves := side :: d.saves.filter (fun e => e.image ≠ image.toNat) })).outcome 2 0

/-- R192, R223, R354. The event in which a part of the context that is being saved has come to rest, and is written and
released; or in which all of it is, and the image is completed. -/
def execContextSave (ctx : Nat) (s : State) : Out :=
  .next (match s.dev.ctx? ctx with
    | none => s
    | some x =>
      match x.saving with
      | none => s
      | some image =>
        match (s.dev.clustersOf ctx).find? (s.restsOn ctx) with
        | some hw => s.writePart ctx hw
        | none => if s.saveReady ctx then s.writeImage x image else s)

/-- Cuts bytes into a number of sections, each as long as a function of the bytes from its start on says. -/
def sections (len : List Byte → Nat) : Nat → List Byte → List (List Byte)
  | 0, _ => []
  | n + 1, b => b.take (len b) :: sections len n (b.drop (len b))

/-- R358. The length of a group section. -/
def groupSize (r : LaunchRecord) (b : List Byte) : Nat :=
  256 + field b 16 4 + 128 * field b 128 2 + field b 21 1 * waveSize r.wavew r.vregs

/-- R357, R358. The group sections of a cluster section. -/
def groupSections (r : LaunchRecord) (b : List Byte) : List (List Byte) := sections (groupSize r) (field b 3 1) (b.drop 128)

/-- R359. The saved splat entries of a group section. -/
def splatSections (b : List Byte) : List (List Byte) :=
  sections (fun _ => 128) (field b 128 2) (b.drop (256 + field b 16 4))

/-- R360. The wave sections of a group section. -/
def waveSections (r : LaunchRecord) (b : List Byte) : List (List Byte) :=
  sections (fun _ => waveSize r.wavew r.vregs) (field b 21 1) (b.drop (256 + field b 16 4 + 128 * field b 128 2))

/-- R356. A launch of an image: its table entry, its record, its cluster sections, and for each of these the sections of its
cores in the order of the core numbers. -/
structure SavedLaunch where
  index : Nat
  entry : List Byte
  record : LaunchRecord
  clusters : List (List Byte)
  cores : List (List Nat)
  deriving DecidableEq, Repr

/-- R26, R167, R357. The index of a cluster section of a launch record. -/
def clusterIndex (r : LaunchRecord) (c : List Byte) : Nat := field ((groupSections r c).headD []) 0 4 / r.cgroups

/-- R167, R357, R358. The core sections of a cluster section: those that its groups name, and those of its cores without a
group, which the model keeps beside the image (log 33). -/
def clusterCores (side : SavedImage) (launch : Nat) (r : LaunchRecord) (c : List Byte) : List Nat :=
  let kept := ((side.cores.find? (fun x => x.launch == launch && x.cluster == clusterIndex r c)).map SavedCores.sections).getD []
  (List.range r.ccores).filterMap (fun k =>
    (((groupSections r c).find? (fun g => field g 5 1 == k)).map (fun g => field g 6 2)).or kept[k]?)

/-- R355, R356. The launches of an image. -/
def savedLaunches (side : SavedImage) (b : List Byte) : List SavedLaunch :=
  (List.range (field b 28 4)).map (fun i =>
    let e := (b.drop (256 + 128 * i)).take 128
    let r := LaunchRecord.of (e.take 64)
    let cs := sections (fun c => field c 4 4) (field e 84 4) (b.drop (field e 104 8))
    { index := i, entry := e, record := r, clusters := cs, cores := cs.map (clusterCores side i r) })

/-- Joins the lists of numbers that have a number in common. -/
def joinSets (sets : List (List Nat)) : List (List Nat) :=
  sets.foldl (fun acc x =>
    let hit := acc.filter (fun y => y.any x.contains)
    let rest := acc.filter (fun y => !(y.any x.contains))
    ((hit.flatten ++ x).eraseDups.mergeSort (fun a b => decide (a ≤ b))) :: rest) []

/-- R364. The core sections that belong together, with their launch: those of clusters with a core in common. -/
def SavedLaunch.parts (l : SavedLaunch) : List (SavedLaunch × List Nat) :=
  (joinSets l.cores).map (fun p => (l, p))

/-- R364. A place for each part of an image: a hardware cluster that may take it, and a free core there for each of its
core sections, in their order; none if the partition cannot hold them all. -/
def findPlaces (ok : SavedLaunch → Nat → Bool) : List (SavedLaunch × List Nat) → List Nat → Option (List (Nat × Nat))
  | [], _ => some []
  | (l, secs) :: r, used =>
    (List.range 64).findSome? (fun hw =>
      let free := ((List.range 4).map (4 * hw + ·)).filter (fun c => !used.contains c)
      if ok l hw ∧ secs.length ≤ free.length then
        (findPlaces ok r (used ++ free.take secs.length)).map (secs.zip free ++ ·)
      else none)

/-- R364. A launch of an image as it is placed again. -/
def SavedLaunch.launch (l : SavedLaunch) (d : Dev) (id ctx graph next wdog : Nat) (halted : Bool) : Launch :=
  let const := d.constFor ctx l.record.entry.toNat
  { id := id, ctx := ctx, graph := graph, node := field l.entry 82 2, record := l.record
    budget := if wdog = 0 then field l.entry 64 8 else wdog * 65536, used := field l.entry 72 8, nextCluster := next
    const := const.1, constSize := const.2, halted := halted, restored := halted }

/-- R62, R192, R358. The counters of a group section; `ops` are the numbers of its saved splat operations, each of which
lowers eng as it completes. What else is counted on eng never completes (R254), or has completed behind one of them (log 33). -/
def countersOf (kept : Option SavedGroup) (ops : List Nat) (b : List Byte) : List (List (Nat × Bool)) :=
  let busy := fun (n : Nat) => (List.replicate n ((0 : Nat), false))
  match kept with
  | some k => k.counters.map (fun l => l.map (fun x => match (k.ops.zip ops).lookup x.1 with
      | some o => (o, false)
      | none => (0, x.2)))
  | none => [busy (field b 8 2), busy (field b 10 2), busy (field b 12 2),
      ops.map (fun o => (o, false)) ++ busy (field b 14 2 - ops.length)]

/-- R358, R364. A group of a section on its core. -/
def groupOf (launch cgroups core : Nat) (kept : Option SavedGroup) (ops : List Nat) (b : List Byte) : Group :=
  let f := fun (at_ n : Nat) => field b at_ n
  { launch := launch, index := f 0 4, cluster := f 0 4 / cgroups, member := f 4 1, ccore := f 5 1, core := core
    scratch := Memory.ofBytes ((b.drop 256).take (f 16 4)), scratchSize := f 16 4
    counters := countersOf kept ops b
    barriers := (List.range 16).map (fun i => ⟨f (64 + 4 * i + 2) 2, []⟩)
    splat := ⟨f 24 4, f 28 4, BitVec.ofNat 32 (f 32 4), BitVec.ofNat 32 (f 36 4), BitVec.ofNat 32 (f 40 4)⟩
    converted := f 20 1, released := entryBit (f 22 1) 0, parked := false }

/-- R359. The splat operation of an entry. -/
def savedSplat (launch group op : Nat) (b : List Byte) : SplatOp :=
  { op := op, opcode := field b 64 1, w := ⟨launch, group, field b 84 2⟩, clause := w64 (field b 88 8), record := field b 80 4
    command := b.take 64, accepted := true, parked := false }

/-- R360, R364. Adds the waves of a group section to the waves of the device, in free slots of its core. -/
def Dev.restoreWaves (d : Dev) (side : SavedImage) (l : SavedLaunch) (g : Group) (b : List Byte) : Dev :=
  let r := l.record
  (waveSections r b).foldl (fun d s =>
    let i := field s 0 2
    let bay := r.bayOf i
    let m := r.laneMasks g.index i
    let kept := (side.waves.find? (fun x => x.launch == l.index && x.group == g.index && x.wave == i)).getD
      ⟨l.index, g.index, i, [], 0, 0, [], [], []⟩
    let w := Wave.ofBytes s ⟨g.launch, g.index, i⟩ g.core bay.1 bay.2 (freeSlot d.waves g.core bay (r.wavew == 16)) m.1 m.2 kept
    let d := match w.hold with
      | .halted b => d.setStatus w.place b
      | _ => d
    { d with
      waves := d.waves ++ [w]
      isobar := d.isobar ++ [(w.id, w.retired)]
      rotation := (w.dom, field s 24 1) :: d.rotation.filter (fun x => x.1 ≠ w.dom) }) d

/-- R364. Places one group section with its waves and its splat operations. -/
def Dev.restoreGroup (d : Dev) (side : SavedImage) (l : SavedLaunch) (launch : Nat) (places : List (Nat × Nat))
    (b : List Byte) : Dev × List (Nat × Nat × SplatOp) :=
  let core := (places.lookup (field b 6 2)).getD 0
  let es := splatSections b
  let ops := (List.range es.length).map (d.nextId + ·)
  let kept := side.groups.find? (fun x => x.launch == l.index && x.group == field b 0 4)
  let g := groupOf launch l.record.cgroups core kept ops b
  let d := { d with nextId := d.nextId + es.length, groups := d.groups ++ [g] }
  (d.restoreWaves side l g b,
    (es.zip ops).map (fun p => (field p.1 72 8, hwOf core, savedSplat launch g.index p.2 p.1)))

/-- R279, R280. The arrivals of the barriers of a launch, from the waits of its waves. -/
def Dev.restoreArrivals (d : Dev) (launch : Nat) : Dev :=
  (d.waves.filter (fun w => w.id.launch == launch)).foldl (fun d w =>
    [(0, w.path0), (1, w.path1)].foldl (fun d p =>
      match p.2.wait, d.group? w.id.launch w.id.group with
      | .barrier cl n, some g => d.mapBarrier g cl n (fun b => { b with arrived := b.arrived ++ [(w.id, p.1)] })
      | _, _ => d) d) d

/-- R364. Places one launch of an image with its cores, its clusters and their groups. -/
def Dev.restoreLaunch (image : List Byte) (side : SavedImage) (ctx wdog : Nat) (graphs : List Nat) (places : List (Nat × Nat))
    (acc : Dev × List (Nat × Nat × SplatOp)) (l : SavedLaunch) : Dev × List (Nat × Nat × SplatOp) :=
  let d := acc.1
  let id := d.nextId
  let gs := l.clusters.flatMap (groupSections l.record)
  let first := l.cores.flatten.foldl Nat.min (2 ^ 16)
  let halted := gs.any (fun g => (waveSections l.record g).any (fun w => entryBit (field w 4 1) 2))
  let x := l.launch d id ctx (graphs.getD (field l.entry 80 2) 0) (side.next.getD l.index 0) wdog halted
  let d : Dev := { d with
    nextId := id + 1, launches := d.launches ++ [x]
    clusters := d.clusters ++ (l.clusters.zip l.cores).map (fun c =>
      let cores := c.2.filterMap (fun i => places.lookup i)
      { launch := id, index := clusterIndex l.record c.1, hw := hwOf (cores.headD 0), cores := cores
        barriers := (List.range 16).map (fun i => ⟨field c.1 (64 + 4 * i + 2) 2, []⟩) }) }
  let d := (List.range (field l.entry 88 4)).foldl (fun d i =>
    let b := image.drop (field l.entry 96 8 + 262208 * i)
    let more := (gs.filter (fun g => field g 6 2 == first + i && !entryBit (field g 22 1) 0)).foldl
      (fun n g => n + field g 20 1) 0
    match places.lookup (first + i) with
    | some core => { d.mapCore core (fun _ => Core.ofBytes b core (l.record.l1conv + more)) with
        failing := d.failing.filter (fun g => match g with | .bank i _ _ => i != core | _ => true)
        tlbs := d.tlbs.filter (fun e => e.unit ≠ .cluster (hwOf core) ∨ e.ctx = ctx) }
    | none => d) d
  let r := gs.foldl (fun (a : Dev × List (Nat × Nat × SplatOp)) g =>
    let r := a.1.restoreGroup side l id places g
    (r.1, a.2 ++ r.2)) (d, acc.2)
  (r.1.restoreArrivals id, r.2)

/-- R291. The status of a code. -/
def NodeStatus.ofCode (n : Nat) : NodeStatus :=
  match n with
  | 1 => .waiting | 2 => .ready | 3 => .running | 4 => .done | 5 => .skipped | 6 => .recordInvalid | 7 => .halted
  | 8 => .whileLimit | 9 => .detRefused | 10 => .doneLate | _ => .idle

/-- R363. The graphs of an image: descriptor, node words. -/
def savedGraphs (b : List Byte) : List (Nat × List Nat) :=
  let g := b.drop (field b 32 8)
  let n := field g 0 4
  ((List.range n).foldl (fun (acc : List (Nat × List Nat) × Nat) i =>
    let k := field g (16 + 16 * i + 8) 4
    (acc.1 ++ [(field g (16 + 16 * i) 8, (List.range k).map (fun j => field g (acc.2 + 8 * j) 8))], acc.2 + 8 * k))
    ([], 16 + 16 * n)).1

/-- R363, R364. Accepts a saved graph again: its records are read and its nodes stand as they stood, their places in the
order counted on from a number. -/
def State.restoreGraph (ctx : Nat) (kept : SavedGraph) (acc : State × List Nat × Nat)
    (x : Nat × List Nat) : State × List Nat × Nat :=
  let r := acc.1.walkRead ctx x.1 64
  let nodesAt := cmdField r.2 0 7
  let (id, s) := r.1.fresh
  let t := x.2.zipIdx.foldl (fun (a : State × List Node) p =>
    let b := a.1.walkRead ctx (nodesAt + 128 * p.2) 128
    let k := kept.nodes.getD p.2 ⟨false, [], a.1.dev.now⟩
    (b.1, a.2 ++ [{ index := p.2, status := NodeStatus.ofCode (bitsOf p.1 47 40), waiting := p.1 % 65536, wanted := k.wanted
                    passes := bitsOf p.1 39 16, order := acc.2.2 + p.2, readyAt := k.readyAt, counted := k.counted
                    header := b.2.drop 64 }])) (s, [])
  let g : Graph :=
    { id := id, ctx := ctx, desc := w64 x.1, nodesAt := nodesAt, condAt := cmdField r.2 24 31, doneAt := cmdField r.2 32 39
      nodes := t.2, stopped := kept.stopped, ended := kept.ended }
  (t.1.mapDev (fun d => { d with graphs := d.graphs ++ [g] }), acc.2.1 ++ [id], acc.2.2 + x.2.length)

/-- R291, R364. Nodes that became ready while the context was saved come after the restored ones: their places in the
order move up by the number of saved nodes. -/
def Dev.reorder (d : Dev) (ctx k : Nat) : Dev :=
  { d with
    nextId := d.nextId + k
    graphs := d.graphs.map (fun g => if g.ctx = ctx then
      { g with nodes := g.nodes.map (fun n => { n with order := n.order + k }) } else g) }

/-- R364. The header checks of an image of this device. -/
def imageOk (b : List Byte) : Bool :=
  field b 0 4 == 0x56535842 && field b 4 2 == 0x0204 && (b.drop 112).take 16 == serialNumber &&
    (b.drop 128).take 64 == (Config.shake256 (b.take 128 ++ zeros 64 ++ b.drop 192) ++ zeros 64).take 64

/-- What the model keeps beside the image at an address (log 33). -/
def Dev.sideOf (d : Dev) (image : Nat) : SavedImage :=
  (d.saves.find? (fun e => e.image == image)).getD ⟨image, [], [], [], [], [], []⟩

/-- R34, R364, R365. The restore of an image whose parts have places. What failed fails again, and a group that has ended with
nothing outstanding any more is released. -/
def State.load (s : State) (x : Context) (image wdog : Nat) (b : List Byte) (places : List (Nat × Nat)) : State :=
  let side := s.dev.sideOf image
  let ls := savedLaunches side b
  let s := s.mapDev (fun d => d.setContext x)
  let s := s.storeAt .other ⟨.hbm, image⟩ (zeros 4)
  let gs := savedGraphs b
  let s := s.mapDev (fun d => d.reorder x.index (gs.foldl (fun n g => n + g.2.length) 0))
  let s := s.mapDev (fun d => { (d.mapCtx x.index (fun c => { c with
      step := field b 24 4 % 2 ^ 24, errbits := BitVec.ofNat 512 (field b 48 64), clusters := x.clusters, savedGraphs := 0 })) with
    saves := d.saves.filter (fun e => e.image ≠ image) })
  let r := gs.zipIdx.foldl (fun acc p =>
    State.restoreGraph x.index (side.graphs.getD p.2 ⟨none, false, []⟩) acc p.1) (s, [], 0)
  let s := r.1
  let t := ls.foldl (Dev.restoreLaunch b side x.index wdog r.2.1 places) (s.dev, [])
  let ops := t.2.mergeSort (fun a b => decide (a.1 ≤ b.1))
  let d := ops.foldl (fun d o => d.mapUnit o.2.1 (fun u => { u with queue := u.queue ++ [o.2.2] })) t.1
  let halted := (d.launchesOf x.index).any Launch.halted
  let failing := side.failing.filterMap (Granule.renamed (fun i => ((d.launchesOf x.index)[i]?).map Launch.id)
    (fun i => places.lookup i))
  let s : State := { s with dev := { d.mapCtx x.index (fun c => { c with state := if halted then 2 else 1 }) with
    failing := d.failing ++ failing } }
  (s.dev.groups.filter (fun g => s.dev.launchesOf x.index |>.any (fun l => l.id == g.launch))).foldl
    (fun s g => s.releaseTry g.launch g.index) s

/-- R364, R416. The restore of an image into a context that is saved or free, or the reason of its refusal. -/
def State.restore (s : State) (x : Context) (image clusters : W64) (wdog : W32) : State × Option Nat :=
  if x.state ≠ 3 ∧ x.state ≠ 0 then (s, some 2)
  else
    let at_ := image.toNat
    let b := s.dev.hbm.readN at_ (Nat.max 256 (leNat (s.dev.hbm.readN (at_ + 8) 8)))
    if !imageOk b then (s, some 3)
    else
      let x : Context := if clusters = 0 then x else { x with clusters := clusters }
      let ls := savedLaunches (s.dev.sideOf at_) b
      let ok := fun (l : SavedLaunch) (hw : Nat) => s.dev.clusterOpen x (l.launch s.dev 0 x.index 0 0 0 false) hw
      match findPlaces ok (ls.flatMap SavedLaunch.parts) [] with
      | none => (s, some 4)
      | some places => (s.load x at_ wdog.toNat b places, none)

/-- R351. Whether a halted wave restarts at a resume of its launch. -/
def Launch.restarts (l : Launch) (w : Wave) : Bool :=
  match w.hold with
  | .halted b => b.cls == 0 || b.cls == 13 || (l.restored && b.cls == 14)
  | _ => false

/-- R351. A wave that restarts: it is no longer halted, and its paths are settled at their next headers. -/
def Wave.restart (w : Wave) (det : Bool) : Wave :=
  let w : Wave := { w with hold := .none }
  let w : Wave := if w.path0.live ∧ w.path0.wait = Wait.none then w.settle 0 else w
  let w : Wave := if w.path1.live ∧ w.path1.wait = Wait.none then w.settle 1 else w
  if det then w.keepRunning else w

/-- R291, R351. A node that a resume restarts: its status is running again, and the walker goes on unless another node
has stopped the graph. -/
def State.resumeNode (s : State) (graph node : Nat) : State :=
  match (s.dev.graph? graph).bind (fun g => (g.node? node).map (fun n => (g, n))) with
  | none => s
  | some (g, n) =>
    if n.status ≠ .halted then s
    else
      let s := s.nodeStatus graph node .running
      let other := (g.nodes.find? (fun m => m.index != node && m.status.stops)).map Node.index
      let stopped := if g.stopped = some node then other else g.stopped
      let s := s.mapDev (fun d => d.mapGraph graph (fun g => { g with stopped := stopped, ended := g.ended && stopped.isSome }))
      if g.ended ∧ stopped.isNone then s.graphStatus g 0 0 else s

/-- R351, R416. The resume of a context whose halted launches are resumable or restored, or the reason of its refusal. -/
def State.resume (s : State) (x : Context) : State × Option Nat :=
  let ls := (s.dev.launchesOf x.index).filter Launch.halted
  if x.state ≠ 2 ∨ x.saving.isSome then (s, some 2)
  else if ls.any (fun l => !l.restored && !s.dev.launchResumable l.id) then (s, some 5)
  else
    let back := s.dev.waves.filter (fun w => ls.any (fun l => l.id == w.id.launch && l.restarts w))
    let s := back.foldl (fun s w => s.onWave w.id (fun w => w.restart (s.dev.det w.id))) s
    let s := s.mapDev (fun d => { (d.mapCtx x.index (fun c => { c with state := 1 })) with
      launches := d.launches.map (fun l => if l.ctx = x.index then { l with halted := false, restored := false } else l) })
    let s := back.foldl (fun s w => s.afterEnd w.id) s
    (ls.foldl (fun s l => s.resumeNode l.graph l.node) s, none)

/-- R416. The freeing of a context: the accesses that are outstanding are performed, its state is cleared, and its
descriptor reads 0. -/
def State.freeCtx (s : State) (x : Context) : State × Option Nat :=
  if x.state = 0 then (s, some 2)
  else
    let s := (s.dev.inflight.filter (fun a => a.ctx == x.index)).foldl (fun s a => s.performSome a.op (fun _ => true) 64) s
    let s := s.clearCtx x.index
    (s.mapDev (fun d => { d with
      ctxs := d.ctxs.filter (fun c => c.index ≠ x.index)
      returns := d.returns.filter (fun r => r.ctx ≠ x.index)
      rights := d.rights.filter (fun r => r.ctx ≠ x.index)
      owned := d.owned.filter (fun o => o.ctx ≠ x.index)
      owed := d.owed.filter (fun o => o.1 ≠ x.index)
      collect := d.collect.filter (fun m => m.ctx ≠ x.index) }), none)

/-- R410, R416. A write of the op word starts a command with the fields as they stand: it is dropped before bring-up is
complete and while a command runs; a command that breaks the table, or that its context does not accept, is refused. -/
def State.startCommand (s : State) (op ctx : Nat) (image clusters : W64) (wdog : W32) : State :=
  if s.dev.platform.state ≠ 6 ∨ s.dev.command.outcome = 1 then s
  else
    let s := s.mapDev (fun d => { d with command :=
      { ctx := ctx, op := op, image := image, clusters := clusters, wdog := wdog, outcome := 0, reason := 0 } })
    let reserved := decide (63 < ctx ∨ op = 0 ∨ 4 < op) ||
      (if op ≤ 2 then decide (image.toNat % 4096 ≠ 0 ∨ 2 ^ 39 ≤ image.toNat) else image != 0)
    let done := fun (r : State × Option Nat) => match r with
      | (_, some reason) => s.outcome 3 reason
      | (t, none) => t.outcome 2 0
    let x := s.dev.context ctx
    if reserved then s.outcome 3 1
    else match op with
      | 1 => if (x.state = 1 ∨ x.state = 2) ∧ x.saving.isNone then s.preempt x image else s.outcome 3 2
      | 2 => done (s.restore x image clusters wdog)
      | 3 => done (s.resume x)
      | _ => done (s.freeCtx x)

/-- R353, R416. The event of a pre-emption command. -/
def execPreempt (c : ContextCommand) (s : State) : Out := .next (s.startCommand 1 c.ctx c.image c.clusters c.wdog)
/-- R364, R416. The event of a restore command. -/
def execRestore (c : ContextCommand) (s : State) : Out := .next (s.startCommand 2 c.ctx c.image c.clusters c.wdog)
/-- R351, R416. The event of a resume command. -/
def execResume (c : ContextCommand) (s : State) : Out := .next (s.startCommand 3 c.ctx c.image c.clusters c.wdog)
/-- R416. The event of a free command. -/
def execFree (c : ContextCommand) (s : State) : Out := .next (s.startCommand 4 c.ctx c.image c.clusters c.wdog)

end Sys2Proof.Machine
end

