-- ==== Sys2Proof/Machine/PredOps.lean ====
section
/-! DEFINITION. The compares and the predicate instructions 0x80 to 0x8F (R131 to R134). -/

namespace Sys2Proof.Machine

/-- R131. The value of slot 0 of a source in a lane. -/
def Issue.cmpVal (c : Issue) (a : Operand) (l : Nat) : FVal :=
  c.ty.decodeV c.ftz c.wave.xva.toNat (c.slot0 a l)

/-- R131. Whether a value is a signalling NaN of an IEEE format: NaR and an f4 E count as quiet. -/
def Issue.cmpSignals (c : Issue) (v : FVal) : Bool := c.ty.isFloat && v.isSNaN

/-- R131. A compare: one bit per active lane, and NV for a signalling NaN, or for any NaN. -/
def Issue.compareOp (c : Issue) (q : BitVec 4) (a b : Operand) (anyNaN : Bool) (f : Option Ordering → Bool) : Issue :=
  let ls := lanesOf c.wave.width c.active
  let bits := maskOf (ls.filter (fun l => f (cmpV (c.cmpVal a l) (c.cmpVal b l))))
  let nv := ls.any (fun l =>
    let x := c.cmpVal a l
    let y := c.cmpVal b l
    c.wave.real.getLsbD l && (c.cmpSignals x || c.cmpSignals y || (anyNaN && (x.isNaN || y.isNaN))))
  c.mapWave (fun w => (w.qwrite q.toNat c.active bits).orFlags (flagIf nv fNV))

/-- R131. `ceq`. -/
def execCeq (q : BitVec 4) (a b : Operand) (s : State) : Out :=
  s.onClause (fun c => .ok (c.compareOp q a b false (fun o => o == some .eq)))
/-- R131. `cne`. -/
def execCne (q : BitVec 4) (a b : Operand) (s : State) : Out :=
  s.onClause (fun c => .ok (c.compareOp q a b false (fun o => o != some .eq)))
/-- R131. `clt`. -/
def execClt (q : BitVec 4) (a b : Operand) (s : State) : Out :=
  s.onClause (fun c => .ok (c.compareOp q a b true (fun o => o == some .lt)))
/-- R131. `cle`. -/
def execCle (q : BitVec 4) (a b : Operand) (s : State) : Out :=
  s.onClause (fun c => .ok (c.compareOp q a b true (fun o => o == some .lt || o == some .eq)))
/-- R131. `cgt`. -/
def execCgt (q : BitVec 4) (a b : Operand) (s : State) : Out :=
  s.onClause (fun c => .ok (c.compareOp q a b true (fun o => o == some .gt)))
/-- R131. `cge`. -/
def execCge (q : BitVec 4) (a b : Operand) (s : State) : Out :=
  s.onClause (fun c => .ok (c.compareOp q a b true (fun o => o == some .gt || o == some .eq)))
/-- R131. `cun`. -/
def execCun (q : BitVec 4) (a b : Operand) (s : State) : Out :=
  s.onClause (fun c => .ok (c.compareOp q a b false (fun o => o == none)))

/-- R132. `sel`: in every lane of the path's active mask, by the guard predicate. -/
def execSel (d a b : Operand) (s : State) : Out :=
  s.onClause (fun c =>
    let g := c.wave.qread (modeGuard c.pth.mode)
    let rs := onLanes c.wave.width c.pth.mask (fun l => noFlag (if g.getLsbD l then c.arg a l else c.arg b l))
    .ok (c.writeVec d c.ty.wide (bare rs)))

/-- R133. A predicate instruction. -/
def Issue.predOp (c : Issue) (q : BitVec 4) (x : Lanes) : Issue :=
  c.mapWave (fun w => w.qwrite q.toNat c.active x)

/-- R133. `qand`. -/
def execQand (q a b : BitVec 4) (s : State) : Out :=
  s.onClause (fun c => .ok (c.predOp q (c.wave.qread a.toNat &&& c.wave.qread b.toNat)))
/-- R133. `qor`. -/
def execQor (q a b : BitVec 4) (s : State) : Out :=
  s.onClause (fun c => .ok (c.predOp q (c.wave.qread a.toNat ||| c.wave.qread b.toNat)))
/-- R133. `qxor`. -/
def execQxor (q a b : BitVec 4) (s : State) : Out :=
  s.onClause (fun c => .ok (c.predOp q (c.wave.qread a.toNat ^^^ c.wave.qread b.toNat)))
/-- R133. `qnot`. -/
def execQnot (q a : BitVec 4) (s : State) : Out :=
  s.onClause (fun c => .ok (c.predOp q (~~~ c.wave.qread a.toNat)))
/-- R133. `qmov`. -/
def execQmov (q a : BitVec 4) (s : State) : Out :=
  s.onClause (fun c => .ok (c.predOp q (c.wave.qread a.toNat)))

/-- R134. `qmsk`. -/
def execQmsk (q : BitVec 4) (a : Operand) (s : State) : Out :=
  s.onClause (fun c => .ok (c.predOp q (w64 (c.src true true a 0))))

/-- R134. `qpop`: the count as n32, in every active lane or in a k register. -/
def execQpop (d : Operand) (a : BitVec 4) (s : State) : Out :=
  s.onClause (fun c =>
    let n := (lanesOf c.wave.width (c.active &&& c.wave.qread a.toNat)).length
    match d with
    | .k k => .ok (c.mapWave (fun w => w.setK k (w64 n)))
    | _ => .ok (c.writeVec d false ((lanesOf c.wave.width c.active).map (fun l => (l, w64 n)))))

/-- R134. `kq`: bits 0 to W − 1 of a predicate. -/
def execKq (d : Nat) (a : BitVec 4) (s : State) : Out :=
  s.onClause (fun c => .ok (c.mapWave (fun w => w.setK d (w.qread a.toNat &&& waveMask w.width))))

end Sys2Proof.Machine
end

