-- ==== Sys2Proof/Machine/CrossLane.lean ====
section
/-! DEFINITION. The cross-lane instructions 0x98 to 0xAF (R138 to R147). -/

namespace Sys2Proof.Machine

/-- R139. S' = min(S, W). -/
def Issue.sub (c : Issue) : Nat := Nat.min (modeSub c.pth.mode) c.wave.width
/-- R139. The base of a lane's subgroup. -/
def Issue.base (c : Issue) (l : Nat) : Nat := l / c.sub * c.sub
/-- R139. A lane's position in its subgroup. -/
def Issue.pos (c : Issue) (l : Nat) : Nat := l % c.sub

/-- The lanes of a mask in a lane's subgroup, in rising order. -/
def Issue.group (c : Issue) (m : Lanes) (l : Nat) : List Nat :=
  (lanesOf c.wave.width m).filter (fun x => x / c.sub == l / c.sub)

/-- R139. The participating lanes of a lane's subgroup. -/
def Issue.peers (c : Issue) (l : Nat) : List Nat := c.group c.active l

/-- R141. A movement of whole elements: each participating lane reads a lane, or zero where there is none. -/
def Issue.shuffle (c : Issue) (d a : Operand) (from_ : Nat → Option Nat) : Issue :=
  c.compute d c.ty.wide (fun l => noFlag (match from_ l with | some x => c.arg a x | none => 0))

/-- R138. An index or distance operand. -/
def Issue.index (c : Issue) (b : Operand) (l : Nat) : Nat := c.src false false b l

/-- R141. `shf`. -/
def execShf (d a b : Operand) (s : State) : Out :=
  s.onClause (fun c => .ok (c.shuffle d a (fun l => some (c.base l + c.index b l % c.sub))))
/-- R141. `shx`. -/
def execShx (d a b : Operand) (s : State) : Out :=
  s.onClause (fun c => .ok (c.shuffle d a (fun l => some (c.base l + (c.pos l ^^^ c.index b l) % c.sub))))
/-- R141. `shup`. -/
def execShup (d a b : Operand) (s : State) : Out :=
  s.onClause (fun c => .ok (c.shuffle d a (fun l => some (c.base l + (c.pos l + (c.sub - c.index b l % c.sub)) % c.sub))))
/-- R141. `shdn`. -/
def execShdn (d a b : Operand) (s : State) : Out :=
  s.onClause (fun c => .ok (c.shuffle d a (fun l => some (c.base l + (c.pos l + c.index b l) % c.sub))))
/-- R141. `qswx`. -/
def execQswx (d a : Operand) (s : State) : Out := s.onClause (fun c => .ok (c.shuffle d a (fun l => some (l ^^^ 1))))
/-- R141. `qswy`. -/
def execQswy (d a : Operand) (s : State) : Out := s.onClause (fun c => .ok (c.shuffle d a (fun l => some (l ^^^ 2))))
/-- R141. `qswd`. -/
def execQswd (d a : Operand) (s : State) : Out := s.onClause (fun c => .ok (c.shuffle d a (fun l => some (l ^^^ 3))))
/-- R141. `qbc`. -/
def execQbc (d a b : Operand) (s : State) : Out :=
  s.onClause (fun c => .ok (c.shuffle d a (fun l => some (l / 4 * 4 + c.index b l % 4))))
/-- R141. `sldu`. -/
def execSldu (d a b : Operand) (s : State) : Out :=
  s.onClause (fun c => .ok (c.shuffle d a (fun l =>
    if c.index b l ≤ c.pos l then some (l - c.index b l) else none)))
/-- R141. `sldd`. -/
def execSldd (d a b : Operand) (s : State) : Out :=
  s.onClause (fun c => .ok (c.shuffle d a (fun l =>
    if c.pos l + c.index b l < c.sub then some (l + c.index b l) else none)))
/-- R141. `bcl`. -/
def execBcl (d a b : Operand) (s : State) : Out :=
  s.onClause (fun c => .ok (c.shuffle d a (fun l => some (c.base l + c.index b l % c.sub))))

/-- R142. The pairs (destination lane, source lane) of `cmpr` and, reversed, of `expd`: the j-th lane of the path and the
j-th participating lane of each subgroup. -/
def Issue.packPairs (c : Issue) : List (Nat × Nat) :=
  (List.range (c.wave.width / c.sub)).flatMap (fun i =>
    (c.group c.pth.mask (i * c.sub)).zip (c.peers (i * c.sub)))

/-- R142. `cmpr`. -/
def execCmpr (d a : Operand) (s : State) : Out :=
  s.onClause (fun c =>
    .ok (c.writeVec d c.ty.wide (c.packPairs.map (fun p => (p.1, w64 (c.arg a p.2))))))
/-- R142. `expd`. -/
def execExpd (d a : Operand) (s : State) : Out :=
  s.onClause (fun c =>
    .ok (c.writeVec d c.ty.wide (c.packPairs.map (fun p => (p.2, w64 (c.arg a p.1))))))

/-- R143. The mask over subgroup positions of the participating lanes that a predicate selects. -/
def Issue.posMask (c : Issue) (l : Nat) (p : Nat → Bool) : Nat :=
  ((c.peers l).filter p).foldl (fun acc x => acc + 2 ^ c.pos x) 0

/-- R143, R146. A mask result: a pair when S' = 64, else n32. -/
def Issue.maskOp (c : Issue) (d : Operand) (f : Nat → Nat × FpFlags) : Issue :=
  c.compute d (c.sub == 64) f

/-- R143. `mtch`: identical bits. -/
def execMtch (d a : Operand) (s : State) : Out :=
  s.onClause (fun c => .ok (c.maskOp d (fun l => noFlag (c.posMask l (fun x => c.arg a x == c.arg a l)))))

/-- R143. Equality of keys as values: all NaNs are equal. -/
def keyEqual (x y : FVal) : Bool := (x.isNaN && y.isNaN) || cmpV x y == some .eq

/-- R143. `mtcn`: equal as values; a key that signals, of a helper lane too, sets NV. -/
def execMtcn (d a : Operand) (s : State) : Out :=
  s.onClause (fun c => .ok (c.maskOp d (fun l =>
    let v := c.cmpVal a l
    (c.posMask l (fun x => keyEqual (c.cmpVal a x) v), flagIf ((c.peers l).any (fun x => c.cmpSignals (c.cmpVal a x))) fNV))))

/-- R144. The types of `radd`, `rmin`, `rmax` and `pfx`. -/
def EType.reduces (t : EType) : Bool := t.isInt || t.isFloat

/-- R107, R144. A reduction of the slots of the participating lanes of a lane's subgroup: integers as a whole, floating
values by the tree. -/
def Issue.reduceOp (c : Issue) (d a : Operand) (ints : List Int → Nat × FpFlags)
    (combine : Nat → Nat → Nat × FpFlags) : Except Stop Issue :=
  c.alu EType.reduces d c.ty.wide (fun l =>
    let ps := c.peers l
    mapSlots c.ty (fun j =>
      let xs := ps.map (fun x => slotOf c.ty (c.arg a x) j)
      if c.ty.isInt then ints (xs.map c.ty.intVal)
      else treeFold (fun u v => let r := combine u.1 v.1; (r.1, u.2 ||| v.2 ||| r.2)) (0, 0) xs.length
        (xs.map (fun x => (c.ty.ffmt.flushBits c.ftz x, 0)))))

/-- The least or greatest of integers. -/
def pickInt (least : Bool) : List Int → Int
  | [] => 0
  | x :: r => r.foldl (fun a y => if least then min a y else max a y) x

/-- R144. `radd`. -/
def execRadd (d a : Operand) (s : State) : Out :=
  s.onClause (fun c => c.reduceOp d a (fun xs => writeInt c.sat c.ty (xs.foldl (· + ·) 0))
    (fun u v => c.ty.ffmt.addV c.rm c.ftz false (c.fval u) (c.fval v)))
/-- R144. `rmin`. -/
def execRmin (d a : Operand) (s : State) : Out :=
  s.onClause (fun c => c.reduceOp d a (fun xs => noFlag (wrapInt c.ty.bits (pickInt true xs)))
    (fun u v => c.ty.ffmt.minmax true c.ftz u v))
/-- R144. `rmax`. -/
def execRmax (d a : Operand) (s : State) : Out :=
  s.onClause (fun c => c.reduceOp d a (fun xs => noFlag (wrapInt c.ty.bits (pickInt false xs)))
    (fun u v => c.ty.ffmt.minmax false c.ftz u v))

/-- R144. `rbor`. -/
def execRbor (d a : Operand) (s : State) : Out :=
  s.onClause (fun c => .ok (c.compute d c.ty.wide (fun l =>
    noFlag ((c.peers l).foldl (fun acc x => acc ||| c.arg a x) 0))))
/-- R144. `rband`. -/
def execRband (d a : Operand) (s : State) : Out :=
  s.onClause (fun c => .ok (c.compute d c.ty.wide (fun l =>
    noFlag ((c.peers l).foldl (fun acc x => acc &&& c.arg a x) (2 ^ 64 - 1)))))

/-- R145. The inclusive prefix of floating values, rounded left to right: the last value and the flags of the last
step. DESIGN CHOICE (log 79): the step that makes the value of lane A[j] counts as that lane's own operation, so its
flags are set where that lane is a real one; R145 names no lane. -/
def prefixStep (round : Nat → Nat × FpFlags) (add : Nat → Nat → Nat × FpFlags) : List Nat → Nat × FpFlags
  | [] => (0, 0)
  | x :: r => r.foldl (fun acc y => add acc.1 y) (round x)

/-- R145. `pfx`. -/
def execPfx (d a : Operand) (s : State) : Out :=
  s.onClause (fun c => c.alu EType.reduces d c.ty.wide (fun l =>
    let ps := (c.peers l).filter (fun x => x ≤ l)
    mapSlots c.ty (fun j =>
      let xs := ps.map (fun x => slotOf c.ty (c.arg a x) j)
      if c.ty.isInt then writeInt c.sat c.ty ((xs.map c.ty.intVal).foldl (· + ·) 0)
      else prefixStep (fun x => convertV c.rm c.ftz c.sat c.ty c.ty (c.fval x) x)
        (fun u v => c.ty.ffmt.addV c.rm c.ftz false (c.fval u) (c.fval v)) xs)))

/-- R146. `vote`: the participating lanes whose a is not zero. -/
def execVote (d a : Operand) (s : State) : Out :=
  s.onClause (fun c => .ok (c.maskOp d (fun l => noFlag (c.posMask l (fun x => c.arg a x != 0)))))
/-- R146. `ffs`: the position of the lowest of them. -/
def execFfs (d a : Operand) (s : State) : Out :=
  s.onClause (fun c => .ok (c.compute d false (fun l =>
    noFlag ((((c.peers l).find? (fun x => c.arg a x != 0)).map c.pos).getD 0xFFFFFFFF))))

/-- R147. `topk`: ranks under the total order, the lower lane first among equal keys. -/
def execTopk (d a b : Operand) (s : State) : Out :=
  s.onClause (fun c =>
    let t := c.ty
    let xva := c.wave.xva.toNat
    .ok (c.compute d false (fun l =>
      let x := c.slot0 a l
      let i := c.index b l
      noFlag ((c.peers l).filter (fun m =>
        m != l && (lessTotal t xva x i (c.slot0 a m) (c.index b m) ||
          (rankKey t xva x == rankKey t xva (c.slot0 a m) && i == c.index b m && decide (m < l))))).length)))

end Sys2Proof.Machine
end

