-- ==== Sys2Proof/Machine/FabricEngines.lean ====
section
/-! DEFINITION. The commands that talk to other devices: the halo exchange (R320 to R322) and the all-reduce (R323 to
R325), stage by stage. -/

namespace Sys2Proof.Machine

/-- R314, R320. A row of bytes cut at the 256-byte blocks of its destination: each piece with its address. -/
def pieces : Nat → Nat → List Byte → List (Nat × List Byte)
  | 0, _, _ => []
  | fuel + 1, a, bs =>
    let n := 256 - a % 256
    if bs.isEmpty then [] else (a, bs.take n) :: pieces fuel (a + n) (bs.drop n)

/-- R321. The rows of the source, in increasing order, as pieces for the destination. -/
def State.hxcRows (s : State) (c : EngineCmd) (x : HxcCmd) : State × Except Stop (List (Nat × List Byte)) :=
  runAll (fun s (acc : List (Nat × List Byte)) i =>
    match s.cmdRead c none (x.src + i * x.spitch) x.rowbytes with
    | (s, .error e) => (s, .error e)
    | (s, .ok bs) => (s, .ok (acc ++ pieces (x.rowbytes / 256 + 2) (x.dst % 2 ^ 48 + i * x.dpitch) bs)))
    s [] (List.range x.rows)

/-- R322. Notes how a command fails; the first failure stays. -/
def Dev.cmdFail (d : Dev) (id code : Nat) : Dev :=
  d.mapCmd id (fun c => { c with failure := c.failure.or (some code) })

/-- R305, R316. A store of a command to a peer. -/
def State.cmdSend (c : EngineCmd) (peer : Nat) (tag : Option Nat) (s : State) (p : Nat × List Byte) : State :=
  match s.dev.pathTo peer p.1 with
  | none => s.mapDev (fun d => (d.setError c.ctx peer 2).cmdFail c.id 5)
  | some port =>
    (s.clearReservations none (Loc.line ⟨.fabric, peer * 2 ^ 48 + p.1⟩)).sendTxn
      { Txn.to_ c.id c.ctx peer port p.1 .store p.2.length p.2 with tag := tag }

/-- R308, R321. The add of 1 to an arrival word that another device performs, as its home or as the owner of a right of this
device's page; its answer ends the command. -/
def State.sendArrive (s : State) (c : EngineCmd) (peer va : Nat) (away : Bool) : State :=
  let s := s.mapDev (fun d => d.mapCmd c.id (fun c => c.enters 2))
  match s.dev.pathTo peer va with
  | none => s.mapDev (fun d => (d.setError c.ctx peer 2).cmdFail c.id 5)
  | some port =>
    s.sendTxn { Txn.to_ c.id c.ctx peer port va (.atomic 0xCC) 8 (leBytes 8 1 ++ leBytes 8 0) with away := away }

/-- R308, R321. The add of 1 to an arrival word of this device's global memory: here, which ends the command, or on the device
that holds the page or its right. -/
def State.localArrive (s : State) (c : EngineCmd) (va n : Nat) : EngineRun :=
  match s.agentCheck c.agent .atomic none va 8 with
  | (s, .error e) => (s, .error e)
  | (s, .ok loc) =>
    let s := s.mapDev (fun d => d.mapCmd c.id (fun c => { c with acked := n }))
    let add := fun (bs : List Byte) => leNat bs + 1
    let done : Option EngineEnd := some (EngineEnd.plain 0 n)
    if loc.space = .fabric then
      let peer := fabricDest loc.addr
      let at_ := loc.addr % 2 ^ 48
      match s.dev.owned? c.ctx peer (at_ / 65536) with
      | some o => ((s.ownedAtomic none o s.dev.devId at_ 8 (fun m => some (m + 1))).2, .ok done)
      | none => (s.sendArrive c peer at_ false, .ok none)
    else match s.dev.rightCase c.ctx (va / 65536) true with
      | .away o => (s.sendArrive c o va true, .ok none)
      | _ =>
        let s := s.mapDev (fun d => d.countAtomic c.ctx (va / 65536) d.devId)
        (s.writeLoc c.ctx c.id loc (leBytes 8 (add (s.readLoc loc 8))), .ok done)

/-- R320, R321. A halo exchange to this device itself. -/
def State.hxcLocal (s : State) (c : EngineCmd) (x : HxcCmd) (ps : List (Nat × List Byte)) : EngineRun :=
  let (s, stale) := s.loggedTest c (fun s => x.tagged && s.dev.step c.ctx != x.step)
  if stale then (s, .ok (some (EngineEnd.plain 4 0)))
  else match runAll (fun s (_ : Unit) (p : Nat × List Byte) => s.cmdWrite c p.1 p.2) s () ps with
    | (s, .error e) => (s, .error e)
    | (s, .ok ()) =>
      if s.dev.storing c.id then (s, .ok none)
      else if x.flag = 0 then (s, .ok (some (EngineEnd.plain 0 (x.rows * x.rowbytes))))
      else s.localArrive c (x.flag % 2 ^ 48) (x.rows * x.rowbytes)

/-- R303, R304, R343. The fault of a command whose transactions to a peer this device does not let out. -/
def Dev.outboundStop (d : Dev) (c : EngineCmd) (peer addr : Nat) : Option Stop :=
  match d.ctx? c.ctx with
  | none => some (.fault 5 0x01 0 (w64 addr))
  | some x => (d.outboundCode x c.engine.master peer true).map (fun code => .fault 5 code 0 (w64 addr))

/-- R320 to R322. The stages of a halo exchange: the writes leave; once all are answered, the arrival word is added to;
once that is answered, the command completes. A refusal or a failure ends it. An add that found the right of its page gone is
made again. -/
def State.runHxc (s : State) (c : EngineCmd) : EngineRun :=
  let x := HxcCmd.of c.command
  let peer := fabricDest x.dst
  let waiting := s.dev.txns.any (fun t => t.op == c.id)
  match c.phase with
  | 0 =>
    (match s.hxcRows c x with
    | (s, .error e) => (s, .error e)
    | (s, .ok ps) =>
      if peer = s.dev.devId then s.hxcLocal c x ps
      else match s.dev.outboundStop c peer x.dst with
      | some e => (s, .error e)
      | none =>
        let s := s.mapDev (fun d => d.mapCmd c.id (fun c => c.enters 1))
        (ps.foldl (State.cmdSend c peer (if x.tagged then some x.step else none)) s, .ok none))
  | 1 =>
    if waiting then (s, .ok none)
    else match c.failure with
      | some code => (s, .ok (some (EngineEnd.plain code c.acked)))
      | none =>
        if x.flag = 0 then (s, .ok (some (EngineEnd.plain 0 c.acked)))
        else (s.sendArrive c peer (x.flag % 2 ^ 48) false, .ok none)
  | 3 => s.localArrive c (x.flag % 2 ^ 48) c.acked
  | _ =>
    if waiting then (s, .ok none) else (s, .ok (some (EngineEnd.plain (c.failure.getD 0) c.acked)))

/-- R321. The event of a halo exchange: its next stage. -/
def execHxcExecution (cmd : Nat) (s : State) : Out := s.runEngine cmd (· == 0xEA) State.runHxc

/-- R324. The digest of a command with its rank table. -/
def AredCmd.digest (x : AredCmd) (table : List Nat) : List W64 :=
  ([x.type.bits, if x.type.isFloat then 1 else if x.type.signed then 2 else 3, if x.type == .bf16 then 1 else 0, x.op,
    x.rmCode, if x.sat then 1 else 0, x.parts, x.n] ++ table).map w64

/-- R324. Element i of the result over the elements of all participants in rank order, with the flags. -/
def AredCmd.combine (x : AredCmd) (es : List Nat) : Nat × FpFlags :=
  let t := x.type
  if t.isFloat then
    let f := t.ffmt
    let rm := RMode.ofCode x.rmCode
    let op := fun (a b : Nat × FpFlags) =>
      let r := match x.op with
        | 0 => f.addV rm false false (f.decode a.1) (f.decode b.1)
        | 1 => f.minmax true false a.1 b.1
        | _ => f.minmax false false a.1 b.1
      (r.1, r.2 ||| a.2 ||| b.2)
    treeFold op (0, 0) es.length (es.map (fun e => (e, 0)))
  else
    let is := es.map t.intVal
    match x.op with
    | 0 => writeInt x.sat t (is.foldl (· + ·) 0)
    | 1 => (wrapInt t.bits (is.tail.foldl (fun m i => if i < m then i else m) (is.headD 0)), 0)
    | _ => (wrapInt t.bits (is.tail.foldl (fun m i => if m < i then i else m) (is.headD 0)), 0)

/-- R323. Whether the rank table names this device at its own rank, no device twice, and nothing reserved. -/
def AredCmd.tableOk (x : AredCmd) (dev : Nat) (table : List Nat) : Bool :=
  table.getD x.rank 512 == dev && table.all (fun e => decide (e < 512)) && table.eraseDups.length == table.length

/-- R324. Whether a message of a device belongs to the commands of a context with an id. -/
def messageOf (ctx id src : Nat) (m : CollectiveMessage) : Bool := m.ctx == ctx && m.id.toNat == id && m.src == src

/-- R324. The first contribution among the messages, with the notes that stand behind it and before the next one: those of the
sender's same command. -/
def firstOf (fits : CollectiveMessage → Bool) (ms : List CollectiveMessage) : Option CollectiveMessage × List CollectiveMessage :=
  match (ms.filter fits).dropWhile CollectiveMessage.failed with
  | [] => (none, [])
  | m :: r => (some m, r.takeWhile CollectiveMessage.failed)

/-- Messages without some, each taken out once. -/
def withoutEach (ms gone : List CollectiveMessage) : List CollectiveMessage := gone.foldl List.erase ms

/-- R324. The contribution of a device to a command, with its notes. -/
def Dev.contribution (d : Dev) (c : EngineCmd) (x : AredCmd) (src : Nat) : Option CollectiveMessage × List CollectiveMessage :=
  firstOf (messageOf c.ctx x.id src) d.collect

/-- R316. Whether a peer is down. -/
def Dev.isDown (d : Dev) (peer : Nat) : Bool :=
  match d.peers.find? (fun p => p.id == peer) with
  | some p => p.down || p.usable == 0
  | none => true

/-- R325. The notes of this device about a command: of its own contributions that have failed. -/
def Dev.ownNotes (d : Dev) (c : EngineCmd) (x : AredCmd) : List CollectiveMessage :=
  d.collect.filter (fun m => m.failed && messageOf c.ctx x.id d.devId m)

/-- R324. The end of a command: the messages that belong to it are used up; the contributions that have not come yet are
still owed by devices that are not down, and belong to no later command. -/
def Dev.consume (d : Dev) (c : EngineCmd) (x : AredCmd) (others : List Nat) : Dev :=
  let used := others.flatMap (fun p => let r := d.contribution c x p; r.1.toList ++ r.2)
  let late := others.filter (fun p => (d.contribution c x p).1.isNone && !d.isDown p)
  { d with
    collect := withoutEach d.collect (used ++ d.ownNotes c x)
    owed := d.owed ++ late.map (fun p => (c.ctx, x.id, p)) }

/-- R305, R324. A message of a command to a participant. -/
def State.sendCollective (c : EngineCmd) (m : CollectiveMessage) (s : State) (peer : Nat) : State :=
  match s.dev.pathTo peer 0 with
  | none => s
  | some port => s.sendTxn (Txn.to_ c.id c.ctx peer port 0 (.collective m) 0 [])

/-- R324, R325. The end of an all-reduce that some devices failed or missed, or, with none named, whose digests differ: the
error bits are set, and the other participants hear of it from the device that finds it. -/
def State.aredFail (s : State) (c : EngineCmd) (x : AredCmd) (others bad tell : List Nat) : State :=
  let note : CollectiveMessage :=
    { src := s.dev.devId, ctx := c.ctx, id := BitVec.ofNat 32 x.id, rank := x.rank, digest := [], data := bad.map w64
      failed := true }
  let s := s.mapDev (fun d => bad.foldl (fun d p => d.setError c.ctx p 2) (d.consume c x others))
  tell.foldl (State.sendCollective c note) s

/-- R325. The participants to tell: all but this device and the devices that failed. -/
def tellOf (dev : Nat) (table bad : List Nat) : List Nat := table.filter (fun p => p != dev && !bad.contains p)

/-- R325. The results, written in chunks of 4 KiB in increasing order of address. -/
def State.writeChunks (s : State) (c : EngineCmd) : Nat → Nat → List Byte → State × Except Stop Unit
  | 0, _, _ => (s, .ok ())
  | fuel + 1, va, bs =>
    if bs.isEmpty then (s, .ok ())
    else match s.cmdWrite c va (bs.take 4096) with
      | (s, .error e) => (s, .error e)
      | (s, .ok ()) => s.writeChunks c fuel (va + 4096) (bs.drop 4096)

/-- R324. The result of an all-reduce whose contributions have all arrived, by the ranks of the senders; the command's own
elements follow its record. -/
def State.aredReduce (s : State) (c : EngineCmd) (x : AredCmd) (table : List Nat) : EngineRun :=
  let w := x.type.bits / 8
  let own := unpackDense x.type.bits x.n (c.command.drop 64)
  let of := fun (r i : Nat) =>
    if r = x.rank then own.getD i 0
    else (((s.dev.contribution c x (table.getD r 0)).1.bind (fun m => m.data[i]?)).map BitVec.toNat).getD 0 % 2 ^ x.type.bits
  let rs := (List.range x.n).map (fun i => x.combine ((List.range x.parts).map (fun r => of r i)))
  let bytes := rs.flatMap (fun r => leBytes w r.1)
  match s.writeChunks c (bytes.length / 4096 + 1) x.buf bytes with
  | (s, .error e) => (s, .error e)
  | (s, .ok ()) =>
    if s.dev.storing c.id then (s, .ok none)
    else (s.mapDev (fun d => d.consume c x (table.filter (· ≠ d.devId))),
      .ok (some ⟨0, x.n, 0, rs.foldl (fun f r => f ||| r.2) 0⟩))

/-- R323, R324. The first stage of an all-reduce: the rank table is checked, the buffer is read, and the contribution goes to
every participant. A participant that the context is not paired with never matches (log 76). -/
def State.aredStart (s : State) (c : EngineCmd) (x : AredCmd) : EngineRun :=
  match s.cmdRead c none x.ranks (2 * x.parts) with
  | (s, .error e) => (s, .error e)
  | (s, .ok tb) =>
    let table := unpackDense 16 x.parts tb
    if !x.tableOk s.dev.devId table then (s, .ok (some (EngineEnd.plain 1 0)))
    else match s.cmdRead c none x.buf (x.n * (x.type.bits / 8)) with
      | (s, .error e) => (s, .error e)
      | (s, .ok bs) =>
        let paired := fun (p : Nat) => ((s.dev.ctx? c.ctx).bind (fun y => s.dev.pairOf y p)).isSome
        let peers := table.filter (fun p => p != s.dev.devId && paired p)
        if x.parts = 1 then (s, .ok (some (EngineEnd.plain 0 x.n)))
        else match peers.findSome? (fun p => s.dev.outboundStop c p x.ranks) with
        | some e => (s, .error e)
        | none =>
          let m : CollectiveMessage :=
            { src := s.dev.devId, ctx := c.ctx, id := BitVec.ofNat 32 x.id, rank := x.rank, digest := x.digest table
              data := (unpackDense x.type.bits x.n bs).map w64, failed := false }
          let s := s.mapDev (fun d => d.mapCmd c.id (fun c => { c.enters 1 with
            command := c.command.take 64 ++ bs, list := table.map (BitVec.ofNat 16) }))
          (peers.foldl (State.sendCollective c m) s, .ok none)

/-- R323 to R325. The stages of an all-reduce: it is sent; then, once every other participant's contribution is there, the
result is written, or the command ends with the failure. Once it has begun to write the result it goes on with that, and the
participants hear of a contribution of this device that has failed. -/
def State.runAred (s : State) (c : EngineCmd) : EngineRun :=
  let x := AredCmd.of c.command
  if c.phase = 0 then s.aredStart c x
  else
    let d := s.dev
    let table := c.list.map BitVec.toNat
    let others := table.filter (· ≠ d.devId)
    let got := others.map (d.contribution c x)
    let notes := got.flatMap Prod.snd ++ d.ownNotes c x
    let differs := (got.filterMap Prod.fst).any (fun m => m.digest != x.digest table)
    let down := others.filter (fun p => (d.contribution c x p).1.isNone && d.isDown p)
    let earlier := (d.cmds.takeWhile (fun y => y.id != c.id)).any (fun y =>
      y.opcode == 0xEB && y.ctx == c.ctx && (AredCmd.of y.command).id == x.id)
    if earlier then (s, .ok none)
    else if !c.log.isEmpty then s.aredReduce c x table
    else if differs then (s.aredFail c x others [] others, .ok (some (EngineEnd.plain 1 0)))
    else if notes.any (fun m => m.data.isEmpty) then (s.aredFail c x others [] [], .ok (some (EngineEnd.plain 1 0)))
    else if !down.isEmpty then (s.aredFail c x others down (tellOf d.devId table down), .ok (some (EngineEnd.plain 5 0)))
    else if !notes.isEmpty then
      let bad := notes.flatMap (fun m => m.data.map BitVec.toNat)
      (s.aredFail c x others bad (if (d.ownNotes c x).isEmpty then [] else tellOf d.devId table bad),
        .ok (some (EngineEnd.plain 5 0)))
    else if got.all (fun r => r.1.isSome) then s.aredReduce c x table
    else (s, .ok none)

/-- R324. The event of an all-reduce: its next stage. -/
def execAredExecution (cmd : Nat) (s : State) : Out := s.runEngine cmd (· == 0xEB) State.runAred

/-- R325. The devices whose command has not arrived within the limit. -/
def State.aredMissing (s : State) (c : EngineCmd) : List Nat :=
  let x := AredCmd.of c.command
  if c.phase = 1 ∧ c.log.isEmpty ∧ x.limit * 1000 ≤ (s.dev.timebase - c.regTime).toNat then
    (c.list.map BitVec.toNat).filter (fun p => p != s.dev.devId && (s.dev.contribution c x p).1.isNone)
  else []

/-- R325. The event in which the limit of an all-reduce has passed without some participant. -/
def execAredLimitExpiry (cmd : Nat) (s : State) : Out :=
  s.runEngine cmd (· == 0xEB) (fun s c =>
    let missing := s.aredMissing c
    let table := c.list.map BitVec.toNat
    if missing.isEmpty then (s, .ok none)
    else (s.aredFail c (AredCmd.of c.command) (table.filter (· ≠ s.dev.devId)) missing (tellOf s.dev.devId table missing),
      .ok (some (EngineEnd.plain 5 0))))

end Sys2Proof.Machine
end

