-- ==== Sys2Proof/Machine/FabricEvents.lean ====
section
/-! DEFINITION. The fabric as the device meets it: inbound transactions (R303 to R305), replies and failures (R316, R317,
R322), atomic rights (R308 to R310), allowances (R311), compressed units (R314, R315), links and keys (R316, R346), and
the timebase (R326). -/

namespace Sys2Proof.Machine

/-- R303. The context of this device that is paired with a peer's context. -/
def Dev.pairedCtx (d : Dev) (src srcCtx : Nat) : Option Context :=
  d.ctxs.find? (fun c => c.state != 0 && d.pairOf c src == some srcCtx)

/-- What an inbound access comes to at this device: it may be performed at a place of a context; it is refused; its data is
lost; or it waits for the right of its page or for a revocation. -/
inductive Inbound where
  | ok (x : Context) (loc : Loc)
  | refused
  | lost
  | waits
  deriving DecidableEq

/-- R342. Whether the fabric ports admit a write from a peer to a context. -/
def Dev.inboundWrites (d : Dev) (ctx : Nat) : Bool := d.bitGranted 36 (masterOf ctx 4) 1 true

/-- R303, R304, R343. The check of an inbound access at the destination, with the copy on first store of a write. -/
def State.inbound (s : State) (r : FabricRequest) (need : Need) : State × Inbound :=
  match s.dev.pairedCtx r.src r.srcCtx with
  | none => (s, .refused)
  | some x =>
    if !s.dev.bitGranted 36 (masterOf x.index 4) 1 need.writes then (s, .refused)
    else match s.agentCheck ⟨x.index, 4, none, .unit 0⟩ need none r.va.toNat r.bytes with
      | (s, .ok loc) => (s, .ok x loc)
      | (s, .error (.notReady _)) => (s, .waits)
      | (s, .error (.fault 11 _ _ _)) => (s, .lost)
      | (s, .error (.fault _ 0x08 _ _)) => (s, .refused)
      | (_, .error _) => (s, .refused)

/-- R305, R308. The device to which the reply of a request goes: the home that has passed it on to its owner, or the one that
has sent it. -/
def askerOf (r : FabricRequest) : Nat := r.home.getD r.src

/-- R305, R314, R346. Sends the reply to a request, its data cut into units, in one block for each. -/
def State.answer (s : State) (r : FabricRequest) (x : FabricReply) : State :=
  let data := match x with | .data (.inline bs) _ => bs | _ => []
  let (k, s) := s.fresh
  let units := unitsOf k (data.length / 256 + 1) data
  s.mapDev (fun d =>
    let d : Dev := { d with outbox := d.outbox ++ [.fabric (askerOf r) r.tag x units] }
    match d.pathTo (askerOf r) r.va.toNat with
    | some port => d.blocksPassed port true (Nat.max 1 units.length)
    | none => d)

/-- R309. A request that arrives while the right of its page is on its way is held. -/
def State.holdRequest (s : State) (i : HeldRequest) : State :=
  s.mapDev (fun d => { d with heldRequests := d.heldRequests ++ [i] })

/-- R210. The number of a line at the directory. -/
def Dev.lineSeq (d : Dev) (l : Loc) : W32 := (d.dirLine l.line).seq

/-- R305, R308. The request of another device that an entry of the held ones is; none for a doorbell. -/
def HeldRequest.request : HeldRequest → Option FabricRequest
  | .load r | .store r _ | .tagged r _ _ | .atomic r _ | .verdict r _ => some r
  | .doorbell _ _ | .addition _ _ _ _ => none

/-- R232, R233, R305. The bytes that a request brings with it. -/
def HeldRequest.data : HeldRequest → List Byte
  | .store _ bs | .tagged _ bs _ => bs
  | .atomic r (.add v) => leBytes r.bytes v.toNat ++ leBytes r.bytes 0
  | .atomic r (.cas cmp new) => leBytes r.bytes cmp.toNat ++ leBytes r.bytes new.toNat
  | .verdict _ seq => leBytes 4 seq.toNat
  | _ => []

/-- R311. A request whose units have gone back to its source. -/
def HeldRequest.granted : HeldRequest → HeldRequest
  | .load r => .load { r with engine := true }
  | .store r bs => .store { r with engine := true } bs
  | .tagged r bs tag => .tagged { r with engine := true } bs tag
  | .atomic r a => .atomic { r with engine := true } a
  | .verdict r seq => .verdict { r with engine := true } seq
  | .doorbell ctx desc => .doorbell ctx desc
  | .addition op ctx va x => .addition op ctx va x

/-- R311, R312. As the buffers of a store or an atomic drain that was charged, its units go back to its source; the engines'
traffic is not charged (log 77). -/
def State.drained (s : State) (h : HeldRequest) : State :=
  let back := fun (r : FabricRequest) (n : Nat) =>
    if r.engine ∨ r.home.isSome then s
    else
      let va := r.va.toNat
      s.mapDev (fun d => { d with outbox := d.outbox ++ [.grant r.src ((va + Nat.max n 1 - 1) / 256 - va / 256 + 1)] })
  match h with
  | .store r bs | .tagged r bs _ => back r bs.length
  | .atomic r _ => back r r.bytes
  | _ => s

/-- R305, R308, R316. Passes a request on, as a transaction of this device: to the owner of the page's right, or to the peer on
which the page lies. Its reply answers the request; where no path leads, it fails. -/
def State.relay (s : State) (h : HeldRequest) (ctx peer va : Nat) (away : Bool) : State :=
  match h.request with
  | none => s
  | some r =>
    match s.dev.pathTo peer va with
    | none => s.answer r .failed
    | some port =>
      let (op, s) := s.fresh
      s.sendTxn { Txn.to_ op ctx peer port va (.relay h.granted) r.bytes h.data with away := away }

/-- R305, R308, R329. A request at the place that its check has found: performed on this device; on a page of a peer, at this
device if it holds the page's right, or passed on. -/
def State.atPlace (s : State) (h : HeldRequest) (x : Context) (loc : Loc) (here : State → State)
    (owned : State → OwnedPage → State) : State :=
  if loc.space = .fabric then
    match s.dev.owned? x.index (fabricDest loc.addr) (loc.addr % 2 ^ 48 / 65536) with
    | some o => owned s o
    | none => s.relay h x.index (fabricDest loc.addr) (loc.addr % 2 ^ 48) false
  else here s

/-- R212, R305, R310. An inbound load: no die may write the line any more without a new number. -/
def State.inboundLoad (s : State) (r : FabricRequest) : State :=
  match s.inbound r .read with
    | (s, .refused) => s.answer r .refused
    | (s, .lost) => s.answer r .dataLoss
    | (s, .waits) => s.holdRequest (.load r)
    | (s, .ok x loc) =>
      s.atPlace (.load r) x loc
        (fun s => (s.mapDev (fun d => d.dirShare loc.line)).answer r
          (.data (.inline (s.readLoc loc r.bytes)) (s.dev.lineSeq loc)))
        (fun s o => s.answer r (.data (.inline (o.words.readN (loc.addr % 65536) r.bytes)) 0))

/-- R314. The bytes of a payload; the units of a port are used up with it. -/
def State.payload (s : State) (p : Payload) : List Byte × State :=
  match p with
  | .inline data => (data, s)
  | .received port =>
    ((s.dev.portUnits.filter (fun x => x.1 == port)).flatMap Prod.snd,
      s.mapDev (fun d => { d with portUnits := d.portUnits.filter (fun x => x.1 != port) }))

/-- R305, R310, R365. An inbound store that is granted is performed at the home and acknowledged. -/
def State.inboundStore (s : State) (r : FabricRequest) (data : List Byte) (held : HeldRequest) : State :=
  match s.inbound { r with bytes := data.length } .write with
  | (s, .refused) => s.answer r .refused
  | (s, .lost) => s.answer r .dataLoss
  | (s, .waits) => s.holdRequest held
  | (s, .ok x loc) =>
    s.atPlace (.store r data) x loc (fun s => (s.writeLoc x.index 0 loc data).answer r .ack)
      (fun s o => (s.ownedStore none o (loc.addr % 2 ^ 48) data).answer r .ack)

/-- R305, R322. An inbound version-tagged store: it is performed only if the step of the paired context equals the tag. -/
def State.inboundTagged (s : State) (r : FabricRequest) (data : List Byte) (tag : BitVec 24) : State :=
  match s.dev.pairedCtx r.src r.srcCtx with
  | none => s.answer r .refused
  | some x => if x.step = tag.toNat then s.inboundStore r data (.tagged r data tag) else s.answer r .stepRefused

/-- R308. The page's window of a first fabric atomic opens. -/
def Dev.openWindow (d : Dev) (ctx page : Nat) : Dev :=
  if (d.right? ctx page).isSome then d
  else { d with rights := d.rights ++
    [{ ctx := ctx, page := page, owner := none, window := [], handing := false, from_ := none }] }

/-- R232, R233. The value that a fabric atomic of a width leaves of an old one; none for a compare that fails. -/
def fabricNew (a : FabricAtomic) (bytes old : Nat) : Option Nat :=
  match a with
  | .add v => some (old + v.toNat)
  | .cas cmp new => if old = cmp.toNat % 2 ^ (8 * bytes) then some new.toNat else none

/-- R232, R308. An inbound atomic on a page whose right this device holds: its old value is the reply. -/
def State.atOwned (s : State) (r : FabricRequest) (a : FabricAtomic) (o : OwnedPage) (va : Nat) : State :=
  let t := s.ownedAtomic none o r.src va r.bytes (fabricNew a r.bytes)
  t.2.answer r (.data (.inline (leBytes r.bytes t.1)) 0)

/-- R308, R309, R342. An atomic that comes to this device as the owner of a page of its sender, the page's home: it is
performed here; if the right has left, the home hears so. -/
def State.ownerAtomic (s : State) (r : FabricRequest) (a : FabricAtomic) (home : Nat) : State :=
  match s.dev.pairedCtx home r.srcCtx with
  | none => s.answer r .refused
  | some x =>
    if !s.dev.inboundWrites x.index then s.answer r .refused
    else match s.dev.owned? x.index home (r.va.toNat / 65536) with
      | none => s.answer r .notOwner
      | some o => s.atOwned r a o r.va.toNat

/-- R232, R233, R305, R308. Performs an inbound atomic at the home, counted in the page's window for its sender. -/
def State.homeAtomic (s : State) (r : FabricRequest) (a : FabricAtomic) : State :=
  match s.inbound r .atomic with
  | (s, .refused) => s.answer r .refused
  | (s, .lost) => s.answer r .dataLoss
  | (s, .waits) => s.holdRequest (.atomic r a)
  | (s, .ok x loc) =>
    s.atPlace (.atomic r a) x loc
      (fun s =>
        let page := r.va.toNat / 65536
        let s := s.mapDev (fun d => (d.openWindow x.index page).countAtomic x.index page r.src)
        let old := s.readLoc loc r.bytes
        let s := match fabricNew a r.bytes (leNat old) with
          | some v => s.writeLoc x.index 0 loc (leBytes r.bytes v)
          | none => s
        s.answer r (.data (.inline old) (s.dev.lineSeq loc)))
      (fun s o => s.atOwned r a o (loc.addr % 2 ^ 48))

/-- R305, R308, R309, R342. An inbound atomic: it is performed here as the page's owner or as its home; it goes on to
the owner; or it is held while the right of its page is being handed over. -/
def State.inboundAtomic (s : State) (r : FabricRequest) (a : FabricAtomic) : State :=
  match r.home, s.dev.pairedCtx r.src r.srcCtx with
  | some home, _ => s.ownerAtomic r a home
  | none, none => s.answer r .refused
  | none, some x =>
    match s.dev.rightCase x.index (r.va.toNat / 65536) true with
    | .waits _ => s.holdRequest (.atomic r a)
    | .away o =>
      if s.dev.inboundWrites x.index then s.relay (.atomic r a) x.index o r.va.toNat true else s.answer r .refused
    | .here => s.homeAtomic r a

/-- R212, R305. An inbound question for a verdict: confirmed if the number of the line stands. -/
def State.inboundVerdict (s : State) (r : FabricRequest) (seq : W32) : State :=
  match s.inbound r .read with
  | (s, .refused) => s.answer r .refused
  | (s, .lost) => s.answer r .dataLoss
  | (s, .waits) => s.holdRequest (.verdict r seq)
  | (s, .ok x loc) =>
    s.atPlace (.verdict r seq) x loc (fun s => s.answer r (.verdict (s.dev.lineSeq loc == seq)))
      (fun s _ => s.answer r (.verdict false))

/-- R305, R309. Performs an inbound request, one that has just come or one that was held; it may have to wait. -/
def State.serve (s : State) (h : HeldRequest) : State :=
  match h with
  | .load r => s.inboundLoad r
  | .store r data => s.inboundStore r data h
  | .tagged r data tag => s.inboundTagged r data tag
  | .atomic r a => s.inboundAtomic r a
  | .verdict r seq => s.inboundVerdict r seq
  | .doorbell ctx desc => s.ring ctx desc
  | .addition op ctx va x => s.lateAddition op ctx va x

/-- R311. Performs an inbound request; unless it has to wait, its buffers drain. -/
def State.receive (s : State) (h : HeldRequest) : State :=
  let t := s.serve h
  if s.dev.heldRequests.length < t.dev.heldRequests.length then t else t.drained h

/-- R305. The event of an inbound load. -/
def execFabricLoadRequest (r : FabricRequest) (s : State) : Out := .next (s.receive (.load r))

/-- R305, R311. The event of an inbound store. -/
def execFabricStoreRequest (r : FabricRequest) (data : Payload) (s : State) : Out :=
  .next (let p := s.payload data; p.2.receive (.store r p.1))

/-- R305, R322. The event of an inbound version-tagged store. -/
def execVersionTaggedStore (r : FabricRequest) (data : Payload) (tag : BitVec 24) (s : State) : Out :=
  .next (let p := s.payload data; p.2.receive (.tagged r p.1 tag))

/-- R305. The event of an inbound atomic. -/
def execFabricAtomicRequest (r : FabricRequest) (a : FabricAtomic) (s : State) : Out := .next (s.receive (.atomic r a))

/-- R305. The event of an inbound question for a verdict. -/
def execWatchVerdictRequest (r : FabricRequest) (seq : BitVec 32) (s : State) : Out := .next (s.receive (.verdict r seq))

/-- R308. The device that issued at least 56 of a window's atomics. -/
def windowWinner (w : List Nat) : Option Nat :=
  (w.take 64).find? (fun dev => decide (56 ≤ ((w.take 64).filter (· == dev)).length))

/-- R308. Where the bytes of a page of a context lie, in its current version. -/
def Dev.pagePlace (d : Dev) (ctx page : Nat) : Option Loc :=
  match d.ctx? ctx with
  | none => none
  | some x =>
    match d.walk x.root (page * 65536) with
    | .leaf l => (l.loc (page * 65536)).filter Loc.global
    | _ => none

/-- R308. The cells of a page's bytes, by their place in it. -/
def Dev.pageCells (d : Dev) (l : Loc) : List Host.Cell :=
  ((d.tier l.space).filter (fun c => decide (l.addr ≤ c.1 ∧ c.1 < l.addr + 65536))).map (fun c => (c.1 - l.addr, c.2))

/-- R308. The canonical form of the bytes of a page. -/
def pageMemory (words : List Host.Cell) : Memory :=
  words.foldl (fun m c => m.write (c.1 % 65536) c.2) []

/-- R235, R309. A line of a page that was written while its right was away comes home: it gets a new number, and no L1 and no
reservation keeps what it was. -/
def State.putLine (l : Loc) (words : Memory) (s : State) (i : Nat) : State :=
  let at_ := l.addr + 128 * i
  let s := s.mapDev (fun d =>
    ((d.setTier l.space ((d.tier l.space).writeN at_ (words.readN (128 * i) 128))).dirWriteRange l.space at_ 128).dropL1Frame
      l.space at_ 128)
  s.mapWaves (fun w => { w with resv := w.resv.filter (fun r => !(r.line.within l.space at_ 128)) })

/-- R309. The bytes of a page that come home with its right, where lines of it were written meanwhile. -/
def State.putPage (s : State) (l : Loc) (words : List Host.Cell) (written : List Nat) : State :=
  (written.filter (· < 512)).foldl (State.putLine l (pageMemory words)) s

/-- R308. The end of a window at the home: the right goes, with the page's bytes, to a remote device that issued at least 56 of
its 64 atomics. -/
def Dev.homeWindow (d : Dev) (ctx page : Nat) : Dev :=
  match d.right? ctx page, d.pagePlace ctx page with
  | some r, some l =>
    if r.handing ∨ r.owner.isSome ∨ r.window.length < 64 then d
    else match (windowWinner r.window).filter (· ≠ d.devId) with
      | none => d.mapRight ctx page (fun r => { r with window := r.window.drop 64 })
      | some o =>
        { d.mapRight ctx page (fun r => { r with window := [], owner := some o, handing := true }) with
          outbox := d.outbox ++ [.right o ctx page (d.pageCells l) []] }
  | _, _ => d

/-- R308, R309. The right of another device's page goes back to its home, with the page's bytes and the lines that were
written. -/
def Dev.returnRight (d : Dev) (o : OwnedPage) : Dev :=
  { d with owned := d.owned.filter (· ≠ o), outbox := d.outbox ++ [.right o.peer o.ctx o.page o.words o.written] }

/-- R308. The end of a window at the owner: the right returns if the owner issued fewer than 56 of its 64 atomics. -/
def Dev.ownerWindow (d : Dev) (o : OwnedPage) : Dev :=
  if o.window.length < 64 then d
  else if windowWinner o.window = some d.devId then
    { d with owned := d.owned.map (fun x => if x = o then { o with window := o.window.drop 64 } else x) }
  else d.returnRight o

/-- R308. The event in which a window of 64 atomics ends: of a page of this device, or of a page of another device whose right
this device holds. -/
def execAtomicWindowEnd (ctx : Nat) (p : RightPage) (s : State) : Out :=
  .next (s.mapDev (fun d => match p with
    | .own page => d.homeWindow ctx page
    | .of home page => match d.owned? ctx home page with
      | some o => d.ownerWindow o
      | none => d))

/-- R309, R329, R334. What waited for a right, for a peer's bytes or for a revocation goes on: requests that were held are
performed, the oldest first, and operations of the units that are parked without a fill run again. -/
def State.rightMoved (s : State) : State :=
  let unit := fun (i : Nat) => s.dev.fills.any (fun f => f.unit == some i)
  let cmd := fun (i : Nat) => s.dev.fills.any (fun f => f.cmd == some i)
  let t := s.mapDev (fun d => { d with
    heldRequests := []
    units := d.units.map (fun u => if unit u.index then u
      else { u with queue := u.queue.map (fun o => { o with parked := false }) })
    cmds := d.cmds.map (fun c => if cmd c.id then c else { c with parked := false }) })
  s.dev.heldRequests.foldl State.receive t

/-- R308, R309. The event in which the right of a page arrives: at a remote owner; back at this device, its home, with the
page's bytes; at this device, from its home; or in which its home takes it back. -/
def execAtomicRightHandover (ctx page : Nat) (m : RightMove) (s : State) : Out :=
  .next (match m with
    | .away =>
      (s.mapDev (fun d => d.mapRight ctx page (fun r => if r.owner.isSome then { r with handing := false } else r))).rightMoved
    | .home words written =>
      (match s.dev.right? ctx page with
       | some r =>
         if r.owner.isSome ∨ r.handing then
           let s := match s.dev.pagePlace ctx page with
             | some l => s.putPage l words written
             | none => s
           (s.mapDev (fun d => d.mapRight ctx page (fun r =>
             { r with owner := none, window := [], handing := false, from_ := none }))).rightMoved
         else s
       | none => s)
    | .here peer words =>
      if (s.dev.owned? ctx peer page).isSome then s
      else s.mapDev (fun d => { d with owned := d.owned ++ [⟨ctx, peer, page, pageMemory words, [], []⟩] })
    | .taken peer =>
      s.mapDev (fun d => match d.owned? ctx peer page with
        | some o => d.returnRight o
        | none => d))

/-- R324, R325. An inbound all-reduce message of a context waits for the command that matches it. A contribution that an ended
command still owed is dropped, and so is a note that stands behind no contribution that is left. -/
def Dev.collective (d : Dev) (x : Context) (m : CollectiveMessage) : Dev :=
  let m := { m with ctx := x.index }
  let key := (x.index, m.id.toNat, m.src)
  let behind := d.collect.any (fun y => !y.failed && messageOf x.index m.id.toNat m.src y)
  if m.failed then (if behind then { d with collect := d.collect ++ [m] } else d)
  else if d.owed.contains key then { d with owed := d.owed.erase key }
  else { d with collect := d.collect ++ [m] }

/-- R303, R324, R342. The event of an inbound all-reduce message: one of a paired context that the fabric ports admit is taken;
its sender hears which. -/
def execCollectiveMessage (m : CollectiveMessage) (s : State) : Out :=
  .next (
    let taken := (s.dev.pairedCtx m.src m.ctx).filter (fun x => s.dev.inboundWrites x.index)
    s.mapDev (fun d =>
      let d := match taken with | some x => d.collective x m | none => d
      { d with outbox := d.outbox ++ [.collective m.src m.ctx m.id taken.isSome] }))

/-- R305, R365. A line that a fabric load has brought goes into the die's L2 as stale-retained, with its number. -/
def State.retain (s : State) (die : Nat) (line : Loc) (seq : W32) (data : List Byte) : State :=
  let other := fun (c : L2Copy) => !(c.die == die && c.line == line)
  (s.mapDev (fun d => { d.lineCame die line [] with l2 := ⟨die, line, .stale, seq, data⟩ :: d.l2.filter other })).cameIn die line

/-- The part of an access that a transaction carries. -/
def Txn.carries (t : Txn) (l : LaneAccess) : Bool := l.isPart t.lane t.part

/-- R94, R232, R235. What the old value of a lane's atomic that another device has performed shows: its sticky flags, and,
where it has written, that no other lane keeps its reservation on the line. -/
def State.atomicReplied (s : State) (a : Access) (l : LaneAccess) (op old : Nat) : State :=
  match a.newValue op old l with
  | none => s
  | some x => (s.clearReservations (some (a.w, l.lane)) l.loc.line).addFlags a l.lane x.2

/-- R45, R305. The result of a transaction reaches its lane: a load's data, cut out of the line that has come (log 51), an
atomic's old value, or an acknowledgement. -/
def State.replyLane (s : State) (t : Txn) (bytes : List Byte) (seq : W32) : State :=
  match s.dev.access? t.op with
  | none => s
  | some a =>
    let whole := decide (bytes.length = 128)
    let data := if whole then (bytes.drop (t.part % 128)).take a.width else bytes.take a.width
    let s := match a.kind, whole with
      | .load, true => s.retain (dieOf (s.dev.coreOf a.w)) t.line seq bytes
      | _, _ => s
    let s := match a.kind, a.lanes.find? t.carries with
      | .ldgs, some l => s.poke (l.side a).loc data
      | .atomic op, some l => s.atomicReplied a l op (leNat data)
      | _, _ => s
    let result : Option W64 := match a.kind with
      | .store | .stsg | .ldgs | .cond _ => none
      | .stcn => some 1
      | _ => some (w64 (leNat data))
    let s := s.mapDev (fun d => d.mapAccess t.op (fun a => { a with
      lanes := a.lanes.filter (fun l => !t.carries l)
      results := a.results ++ (result.map (fun x => (t.lane, x))).toList }))
    s.accessEnd t.op

/-- R329. A line of a peer's memory has come for a reader, or has failed; with its last line, the reader goes on. -/
def State.lineCame (s : State) (r : Reader) (t : Txn) (data : List Byte) (failure : Option (Nat × Nat)) : State :=
  let s := s.mapDev (fun d => { d with fetched := d.fetched ++ [⟨r, t.line.addr, data, failure⟩] })
  if s.dev.fetching r then s else s.rightMoved

/-- R308, R309, R316. What comes back for a request that was passed on is its answer; where the right of its page has left the
device that was asked, it is performed anew. -/
def State.relayed (s : State) (h : HeldRequest) (x : FabricReply) : State :=
  match h.request, x with
  | some _, .notOwner => s.serve h
  | some r, x => s.answer r x
  | none, _ => s

/-- R316, R317, R322, R325, R240. A transaction fails: its command ends with code 5, an all-reduce notes the participant, its
lane is left without a result, its entry is struck, its line does not come, or the request that it passed on fails; the error
bit of the peer is set where the rule says so. -/
def State.failTxn (s : State) (t : Txn) (cause : Nat) : State :=
  let s := s.mapDev (fun d => { d with txns := d.txns.filter (fun x => x.id ≠ t.id) })
  let isCmd := (s.dev.cmd? t.op).isSome
  match t.kind with
  | .verdict w entry => s.judge w entry false
  | .fetch r => s.lineCame r t [] (some (15, 0x01))
  | .relay h => s.relayed h .failed
  | .collective m =>
    if isCmd ∧ !m.failed then
      s.mapDev (fun d => { d.setError t.ctx t.peer cause with
        collect := d.collect ++ [{ m with digest := [], data := [w64 t.peer], failed := true }] })
    else s.mapDev (fun d => d.setError t.ctx t.peer cause)
  | _ =>
    if isCmd then s.mapDev (fun d => (d.setError t.ctx t.peer cause).cmdFail t.op 5)
    else s.failLane t.op t.lane t.part t.ctx t.peer cause

/-- R310, R365, R366. The data of a lane's part is lost at the destination. -/
def State.loseLane (s : State) (t : Txn) : State :=
  match s.dev.access? t.op with
  | none => s
  | some a =>
    let va := ((a.lanes.find? t.carries).map LaneAccess.va).getD 0
    (s.mapDev (fun d => d.mapAccess t.op (fun a => { a with
      lanes := a.lanes.filter (fun l => !t.carries l), failed := a.failed ++ [⟨t.lane, va, false, 11, 0x07⟩] }))).accessEnd t.op

/-- R305, R322. The reply to a transaction of a command. An add that did not find the right of its page is made again. -/
def State.commandReplied (s : State) (t : Txn) (x : FabricReply) : State :=
  match x with
  | .stepRefused => s.mapDev (fun d => d.cmdFail t.op 4)
  | .refused | .dataLoss => s.failTxn t 3
  | .failed => s.failTxn t 1
  | .notOwner => s.mapDev (fun d => d.mapCmd t.op (fun c => c.enters 3))
  | .data _ _ => s
  | _ => s.mapDev (fun d => d.mapCmd t.op (fun c => { c with acked := c.acked + t.data.length }))

/-- R305, R309, R316. The reply to a transaction, which has ended, for what has sent it. A lane's atomic that did not find the
right of its page stands where it stood, and a unit's addition is made anew. -/
def State.replied (s : State) (t : Txn) (x : FabricReply) (data : List Byte) : State :=
  match t.kind with
  | .verdict w entry => s.judge w entry (x == .verdict true)
  | .relay h => s.relayed h (match x with | .data _ seq => .data (.inline data) seq | x => x)
  | .fetch r =>
    (match x with
    | .data _ _ => s.lineCame r t data none
    | .dataLoss => s.lineCame r t [] (some (11, 0x07))
    | _ => s.lineCame r t [] (some (15, 0x01)))
  | _ =>
    if (s.dev.cmd? t.op).isSome then s.commandReplied t x
    else match x with
      | .stepRefused | .refused => s.failTxn t 3
      | .failed => s.failTxn t 1
      | .notOwner =>
        if (s.dev.access? t.op).isSome then s else s.lateAddition t.op t.ctx t.va (BitVec.ofNat 32 (leNat (t.data.take 4)))
      | .dataLoss => s.loseLane t
      | .data _ seq => s.replyLane t data seq
      | _ => s.replyLane t [] 0

/-- R305, R314, R316, R322. The event of a reply: the transaction ends, and those that waited for it travel. -/
def execFabricReply (txn : Nat) (r : FabricReply) (s : State) : Out :=
  .next (match s.dev.txns.find? (fun t => t.id == txn && !t.held) with
    | none => s
    | some t =>
      let gone := s.mapDev (fun d => { d with txns := d.txns.filter (fun x => x.id ≠ txn) })
      let p := match r with | .data bytes _ => gone.payload bytes | _ => ([], gone)
      (p.2.replied t r p.1).mapDev Dev.sendHeld)

/-- R311. The event of a grant: the allowance rises, up to its 16 bits. -/
def execAllowanceGrant (dest units : Nat) (s : State) : Out :=
  .next (s.mapDev (fun d => { d with peers := d.peers.map (fun p =>
    if p.id = dest then { p with allowance := Nat.min 65535 (p.allowance + units) } else p) }))

/-- R316. A path begins to retrain: its transactions are held in order, to be sent again. -/
def Dev.holdPath (d : Dev) (peer port : Nat) : Dev :=
  { d with
    peers := d.peers.map (fun p => if p.id = peer ∧ p.usable.getLsbD port then
      { p with retraining := p.retraining ||| BitVec.ofNat 96 (2 ^ port) } else p)
    txns := d.txns.map (fun t => if t.peer = peer ∧ t.port = port then { t with held := true } else t) }

/-- R315, R346. The link of a port retrains: every path through it is held. -/
def Dev.retrainPort (d : Dev) (port : Nat) : Dev := (d.peers.map Peer.id).foldl (fun d p => d.holdPath p port) d

/-- R316. The event in which a path begins to retrain. -/
def execLinkRetrainStart (peer port : Nat) (s : State) : Out := .next (s.mapDev (fun d => d.holdPath peer port))

/-- R311. A grant for a source or from a destination: at least 2,048 units; none named is the default of 4,096. -/
def grantOf (units : Nat) : Nat := if units = 0 then 4096 else Nat.min 65535 (Nat.max 2048 units)

/-- R301, R311, R316. The event in which a path is trained: it is usable, and the transactions held on it travel in
order. A peer that had no usable path has the allowance that it grants, and is granted what the driver has set for it. -/
def execLinkRetrainComplete (peer : Nat) (link : LinkUp) (s : State) : Out :=
  .next (
    if 96 ≤ link.port ∨ 512 ≤ peer ∨ s.dev.platform.state < 4 then s
    else s.mapDev (fun d =>
      let bit := BitVec.ofNat 96 (2 ^ link.port)
      let old := d.peers.find? (fun p => p.id == peer)
      let fresh := match old with | some p => p.down || p.usable == 0 | none => true
      let d : Dev := if old.isSome then d
        else { d with peers := d.peers ++ [{ id := peer, usable := 0, retraining := 0, down := false, allowance := 0 }] }
      let d : Dev := if fresh then
          { d with outbox := d.outbox ++ [.grant peer (grantOf ((d.sourceGrants.lookup peer).getD 0))] }
        else d
      Dev.sendHeld { d with peers := d.peers.map (fun p => if p.id = peer then
        { p with
          usable := p.usable ||| bit, retraining := p.retraining &&& ~~~bit, down := false
          allowance := if fresh then grantOf link.grant else p.allowance } else p) }))

/-- R310. The lines of a page of a context are lost. -/
def Dev.losePage (d : Dev) (ctx page : Nat) : Dev :=
  match d.pagePlace ctx page with
  | some loc => { d with lost := (d.lost ++ (List.range 512).map (fun i => { loc with addr := loc.addr + 128 * i })).eraseDups }
  | none => d

/-- R310. Whether the right of a page rests with a device, or is on its way to or from it. -/
def AtomicRight.restsWith (r : AtomicRight) (peer : Nat) : Bool :=
  r.owner == some peer || (r.handing && r.from_ == some peer)

/-- R310, R316, R317, R326. A peer is declared down: every transaction to it fails, entries that rest on it are struck,
the pages whose right it held are lost, and without any usable path the timebase is unsynchronised. -/
def State.peerDown (s : State) (peer : Nat) : State :=
  let s := s.mapDev (fun d => { d with peers := d.peers.map (fun p =>
    if p.id = peer then { p with down := true, usable := 0, retraining := 0 } else p) })
  let s := (s.dev.txns.filter (fun t => t.peer == peer)).foldl (fun s t => s.failTxn t 2) s
  let s := s.mapWaves (fun w => { w with watch := w.watch.map (fun e =>
    if e.fabric ∧ e.line.space = .fabric ∧ fabricDest e.line.addr = peer ∧ e.state = .pending then { e with state := .struck } else e) })
  let gone := s.dev.rights.filter (fun r => r.restsWith peer)
  let s := s.mapDev (fun d => { (gone.foldl (fun d r => d.losePage r.ctx r.page) d) with
    rights := d.rights.filter (fun r => !r.restsWith peer), owned := d.owned.filter (fun o => o.peer != peer) })
  let alone := s.dev.peers.all (fun p => p.down || p.usable == 0)
  let s := s.mapDev (fun d => { d with platform := { d.platform with unsync := d.platform.unsync || alone } })
  s.rightMoved.mapDev Dev.sendHeld

/-- R316. The event in which the retraining of a path has passed its 2 ms: the path is declared down and what is held on
it fails; a peer without a usable path is down. -/
def execRetrainTimeout (peer port : Nat) (s : State) : Out :=
  .next (
    if !s.dev.retraining peer port then s
    else
      let bit := BitVec.ofNat 96 (2 ^ port)
      let s := s.mapDev (fun d => { d with peers := d.peers.map (fun p => if p.id = peer then
        { p with usable := p.usable &&& ~~~bit, retraining := p.retraining &&& ~~~bit } else p) })
      let s := (s.dev.txns.filter (fun t => t.peer == peer && t.port == port)).foldl (fun s t => s.failTxn t 1) s
      if s.dev.peers.any (fun p => p.id == peer && p.usable == 0) then s.peerDown peer else s.mapDev Dev.sendHeld)

/-- R316. The event in which the switch planes report a peer lost. -/
def execPeerLostReport (peer : Nat) (s : State) : Out := .next (s.peerDown peer)

/-- R314. A bit of a bit string under R84. -/
def bitString (b : List Byte) (i : Nat) : Bool := ((b.getD (i / 8) 0).getLsbD (i % 8))

/-- R314. A field of a bit string. -/
def bitsFrom (b : List Byte) (at_ n : Nat) : Nat := (List.range n).foldl (fun x i => x + (bitString b (at_ + i)).toNat * 2 ^ i) 0

/-- R314. The words of a word-delta unit, from a word on. -/
def deltaWords (b : List Byte) (width : Nat) : Nat → Nat → Nat → List Nat
  | 0, _, _ => []
  | n + 1, i, w =>
    let next := (w + (toSigned width (bitsFrom b (width * i) width) % 2 ^ 32).toNat) % 2 ^ 32
    next :: deltaWords b width n (i + 1) next

/-- R314. Some bytes of a byte-mask unit. -/
def maskedBytes (mask : List Byte) : List Nat → List Byte → List Byte
  | [], _ => []
  | j :: r, body =>
    if bitString mask j then body.headD 0 :: maskedBytes mask r (body.drop 1) else 0 :: maskedBytes mask r body

/-- R314, R315. The unit that a descriptor and a body rebuild; none for a link protocol error. -/
def rebuildUnit (descriptor : Nat) (body : List Byte) : Option (List Byte) :=
  let method := descriptor / 4096
  let param := bitsOf descriptor 11 8
  let length := descriptor % 256
  let plain := decide (param = 0)
  match method with
  | 0 => if plain ∧ length = 0 ∧ body.length ≤ 256 then some body else none
  | 1 => if plain ∧ length = 0 ∧ body.isEmpty then some (List.replicate 256 0) else none
  | 2 => if plain ∧ length = 4 ∧ body.length = 4 then some ((List.replicate 64 body).flatten) else none
  | 3 =>
    let n := 4 + (63 * (param + 1) + 7) / 8
    if length = n ∧ body.length = n ∧ length ≤ 254 then
      let w := leNat (body.take 4)
      some ((w :: deltaWords (body.drop 4) (param + 1) 63 0 w).flatMap (leBytes 4))
    else none
  | 4 =>
    let ones := ((List.range 256).filter (bitString body)).length
    if plain ∧ length = 32 + ones ∧ body.length = length ∧ length ≤ 254 then
      some (maskedBytes (body.take 32) (List.range 256) (body.drop 32))
    else none
  | _ => none

/-- R346. Gives one direction of a port a key, with its block counter at zero. -/
def Dev.setKey (d : Dev) (port : Nat) (outbound : Bool) (key : BitVec 256) : Dev :=
  { d with keys := ⟨port, outbound, key, 0⟩ :: d.keys.filter (fun k => !(k.port == port && k.outbound == outbound)) }

/-- R346. A block that fails its tag is discarded; after three in a row the link retrains. -/
def Dev.tagFailed (d : Dev) (port : Nat) : Dev :=
  let n := (d.tagFails.lookup port).getD 0 + 1
  let rest := d.tagFails.filter (fun x => x.1 ≠ port)
  if 3 ≤ n then ({ d with tagFails := rest } : Dev).retrainPort port else { d with tagFails := (port, n) :: rest }

/-- R314, R315, R346. The event in which a port receives a unit: a block whose tag fails is discarded; the unit is rebuilt and
waits for its transaction, or is discarded with the link retrained. -/
def execFabricUnitReceive (port : Nat) (descriptor : BitVec 16) (body : Option (List (BitVec 8))) (s : State) : Out :=
  .next (s.mapDev (fun d => match body with
    | none => d.tagFailed port
    | some bs =>
      let d : Dev := { d.blocksPassed port false 1 with tagFails := d.tagFails.filter (fun x => x.1 ≠ port) }
      match rebuildUnit descriptor.toNat bs with
      | some unit => { d with portUnits := d.portUnits ++ [(port, unit)] }
      | none => d.retrainPort port))

/-- R346. The event in which the key of a port's direction is replaced. -/
def execLinkKeyRollover (port : Nat) (outbound : Bool) (key : BitVec 256) (s : State) : Out :=
  .next (if s.dev.keys.any (fun k => k.port == port && k.outbound == outbound) then
    s.mapDev (fun d => d.setKey port outbound key) else s)

/-- R346, R413. The event in which the management controller provisions the key of a port. -/
def execLinkKey (port : Nat) (outbound : Bool) (key : BitVec 256) (s : State) : Out :=
  .next (if port < 96 then s.mapDev (fun d => d.setKey port outbound key) else s)

/-- R326. A correction of the timebase by a measured offset: one step at bring-up; afterwards a slew of at most 100 parts
per million, 1 ns in the 10 µs of a measurement. It never decreases: a lag is made up by the ticks to come (log 10). -/
def State.correctTime (s : State) (offset : Int) : State :=
  let set := decide (s.dev.platform.state = 5)
  s.mapDev (fun d => { d with
    timebase := if set then BitVec.ofInt 64 (d.timebase.toNat + offset) else if 0 < offset then d.timebase + 1 else d.timebase
    platform := { d.platform with unsync := false } })

/-- R326. Whether some path is usable. -/
def Dev.anyPath (d : Dev) : Bool := d.peers.any (fun p => !p.down && p.usable != 0)

/-- R326. The event of a measurement of the offset to the time source. -/
def execTimebaseSync (offset : Int) (s : State) : Out :=
  .next (if s.dev.anyPath then s.correctTime offset
    else s.mapDev (fun d => { d with platform := { d.platform with unsync := true } }))

/-- R326. The time source: the live device with the lowest number. -/
def Dev.timeSource (d : Dev) : Nat :=
  (d.peers.filter (fun p => !p.down && p.usable != 0)).foldl (fun m p => Nat.min m p.id) d.devId

/-- R326. The event of an inbound message of the timebase service: offsets of the time source are taken; any other device
is told this device's time. -/
def execTimeMessage (src : Nat) (offset : Int) (s : State) : Out :=
  .next (if src = s.dev.timeSource ∧ src ≠ s.dev.devId then s.correctTime offset
    else s.mapDev (fun d => { d with outbox := d.outbox ++ [.time src d.timebase] }))

end Sys2Proof.Machine
end

