-- ==== Sys2Proof/Machine/MatrixOps.lean ====
section
/-! DEFINITION. The matrix array: tensor layout words (R63, R64), weight tiles (R151, R152), the instructions 0xD0 to
0xD5 (R153 to R162), the sum order of R105 and R106, and the events of a core's matrix queue (R163). -/

namespace Sys2Proof.Machine

/-- R63. The layout word in three k registers. -/
def Issue.layout (c : Issue) (n : Nat) : Nat := c.kLow n + c.kLow (n + 1) * 2 ^ 32 + c.kLow (n + 2) * 2 ^ 64

/-- R64. The scratchpad address of an element; none for a reserved permutation. -/
def layoutAddr (lw i0 i1 i2 : Nat) : Option Nat :=
  let a := bitsOf lw 19 0 + i0 * bitsOf lw 43 20 + i1 * bitsOf lw 67 44 + i2 * bitsOf lw 91 68
  let perm := bitsOf lw 95 92
  if perm = 0 then some a
  else if perm ≤ 6 then some (a - bitsOf a 10 7 * 128 + (bitsOf a 10 7 ^^^ bitsOf a (13 + perm) (10 + perm)) * 128)
  else none

/-- R150. The length K of an operation by its B type. -/
def tileK (t : EType) : Nat :=
  match t with
  | .f64 => 8
  | .f32 => 32
  | .f16 | .bf16 => 128
  | .t8 => 256
  | _ => 512

/-- R150. The number of columns. -/
def tileN (t : EType) : Nat := if t = .f64 then 8 else 16

/-- R150. The segments of a row of A and their size in bytes. -/
def segments (t : EType) : Nat × Nat :=
  match t with
  | .f64 => (1, 64)
  | .f32 => (1, 128)
  | .f16 | .bf16 => (4, 64)
  | .t8 => (8, 32)
  | _ => (16, 16)

/-- R150. The pairs of types. -/
def pairOk (a b : EType) : Bool :=
  match a with
  | .f64 => b == .f64
  | .f32 => b == .f32
  | .f16 | .bf16 => b == .f16 || b == .bf16
  | .t8 => b == .t8
  | .f4 => b == .t6 || b == .f4
  | _ => false

/-- R151. The size of the data part of a tile. -/
def tileData (t : EType) : Nat := tileN t * tileK t * t.bits / 8

/-- R151. The uncompressed size of a tile. -/
def tileSize (t : EType) : Nat := tileData t + (if t.scaled then tileN t * tileK t / 8 else 0)

/-- The stored chunks of a tile put in their places: the presence bits in order, and the next stored byte. -/
def expandChunks (bank : Memory) : List Bool → Nat → List Byte
  | [], _ => []
  | true :: r, a => bank.readN a 64 ++ expandChunks bank r (a + 64)
  | false :: r, a => List.replicate 64 0 ++ expandChunks bank r a

/-- R152. The uncompressed image of the tile at a byte offset of a bank; none if the tile is invalid. -/
def tileImage (bank : Memory) (t : EType) (code off : Nat) : Option (List Byte) :=
  let h := leNat (bank.readN off 4)
  let n := tileSize t / 64
  let words := (n + 31) / 32
  let map := leNat (bank.readN (off + 4) (4 * words))
  let stored := ((List.range n).filter (fun i => map.testBit i)).length
  if bitsOf h 31 28 ≠ code ∨ bitsOf h 27 8 ≠ 0 ∨ bitsOf h 7 0 ≠ n ∨ map / 2 ^ n ≠ 0 ∨
      131072 < off + 4 + 4 * words + 64 * stored then none
  else some (expandChunks bank ((List.range n).map (fun i => map.testBit i)) (off + 4 + 4 * words))

/-- R104. Element k of a densely packed run of elements, decoded exactly. -/
def elemAt (t : EType) (e : Nat) (bits k : Nat) : FVal := t.decodeV false e (bits / 2 ^ (t.bits * k) % 2 ^ t.bits)

/-- R103. An element under a block scale: a zero scale makes it +0, a NaN block makes it NaN. -/
def underScale (scale : Option FVal) (v : FVal) : FVal :=
  match scale with
  | none => .nar
  | some (.zero _) => .zero false
  | some _ => v

/-- R106. The exact sum of the products of a run: none for a NaN. -/
def runSum (ps : List (FVal × FVal)) : Option FVal :=
  let prods := ps.map (fun p => if p.1.isNaN || p.2.isNaN then none else exactMul p.1 p.2)
  if prods.any Option.isNone then none
  else
    let vs := prods.filterMap id
    let pos := vs.any (fun v => v == .inf false)
    let neg := vs.any (fun v => v == .inf true)
    if pos && neg then none
    else if pos || neg then some (.inf neg)
    else
      let sum := vs.foldl (fun (x : Bool × Nat × Int) v => match v with
        | .fin s m e => if x.2.1 = 0 then (s, m, e) else addDyadic x.1 x.2.1 x.2.2 s m e
        | _ => x) (false, 0, 0)
      if sum.2.1 = 0 then some (.zero (vs.all (fun v => v == .zero true))) else some (.fin sum.1 sum.2.1 sum.2.2)

/-- The exact product of a value with a finite scale. -/
def FVal.scaleBy (v : FVal) (scale : FVal) : FVal :=
  match v, scale with
  | .fin s m e, .fin _ m' e' => .fin s (m * m') (e + e')
  | v, _ => v

/-- R106. One run added to an element: the sum rounded to f32, and the sum with the element rounded again. -/
def runStep (ps : List (FVal × FVal)) (scales : List FVal) (c : Nat × FpFlags) : Nat × FpFlags :=
  let r := match runSum ps with
    | none => (fmt32.nan, fNV)
    | some v => match scales.foldl FVal.scaleBy v with
      | .fin s m e => fmt32.round .rne false s m e false
      | .zero s => (fmt32.zero s, 0)
      | .inf s => (fmt32.inf s, 0)
      | _ => (fmt32.nan, fNV)
  let x := fmt32.addV .rne false false (fmt32.decode c.1) (fmt32.decode r.1)
  (x.1, c.2 ||| r.2 ||| x.2)

/-- The operands of one column of a tile for one row of A: the packed elements and the scale words. -/
structure Chain where
  at_ : EType
  bt : EType
  xva : Nat
  xvw : Nat
  row : Nat
  rowScales : List Nat
  col : Nat
  colScales : List Nat

/-- The products' operands from k = lo on. -/
def Chain.pairs (x : Chain) (lo n : Nat) : List (FVal × FVal) :=
  (List.range n).map (fun i => (elemAt x.at_ x.xva x.row (lo + i), elemAt x.bt x.xvw x.col (lo + i)))

/-- R105, R106. The chain of roundings over K, from an element of D. -/
def Chain.run (x : Chain) (c : Nat) : Nat × FpFlags :=
  let k := tileK x.bt
  match x.at_ with
  | .f64 | .f32 =>
    let f := x.at_.ffmt
    (x.pairs 0 k).foldl (fun acc p =>
      let r := f.fmaV .rne false false false p.1 p.2 (f.decode acc.1)
      (r.1, acc.2 ||| r.2)) (c, 0)
  | _ =>
    (List.range (k / 32)).foldl (fun acc j =>
      if x.at_.scaled then
        let sa := scaleVal (x.rowScales.getD j 0 % 2 ^ 20)
        let sb := scaleVal (x.colScales.getD j 0 % 2 ^ 20)
        runStep ((x.pairs (32 * j) 32).map (fun p => (underScale sa p.1, underScale sb p.2)))
          [sa.getD (.zero false), sb.getD (.zero false)] acc
      else runStep (x.pairs (32 * j) 32) [] acc) (c, 0)

/-- R149. The active and the load bank. -/
def Core.activeBank (c : Core) : Memory × BitVec 4 × BitVec 16 :=
  if c.active then (c.bank1, c.type1, c.xvw1) else (c.bank0, c.type0, c.xvw0)

/-- R149. A core with its load bank changed. -/
def Core.mapLoad (c : Core) (f : Memory × BitVec 4 × BitVec 16 → Memory × BitVec 4 × BitVec 16) : Core :=
  if c.active then let r := f (c.bank0, c.type0, c.xvw0); { c with bank0 := r.1, type0 := r.2.1, xvw0 := r.2.2 }
  else let r := f (c.bank1, c.type1, c.xvw1); { c with bank1 := r.1, type1 := r.2.1, xvw1 := r.2.2 }

/-- R158. The B type of the active bank after the operations of a queue. -/
def typeAfter (types : BitVec 4 × BitVec 4) : List MatrixOp → BitVec 4
  | [] => types.1
  | .wfmt _ _ t _ :: r => typeAfter (types.1, t) r
  | .wswp _ _ :: r => typeAfter (types.2, types.1) r
  | _ :: r => typeAfter types r

/-- R158, R163. The B type that an operation placed on a core now will find: after the core's queue and the clause's
own operations. -/
def State.btypeAt (s : State) (c : Issue) (core : Nat) : EType :=
  let x := s.dev.core core
  let own := c.effects.filterMap (fun e => match e with | .matrix i m => if i = core then some m else none | _ => none)
  let types := if x.active then (x.type1, x.type0) else (x.type0, x.type1)
  EType.ofCode (typeAfter types (x.queue ++ own)).toNat

/-- R26. The core of a cluster's core number. -/
def Dev.clusterCore (d : Dev) (id : WaveId) (j : Nat) : Option Nat :=
  (d.group? id.launch id.group).bind (fun g =>
    (d.clusters.find? (fun c => c.launch == id.launch && c.index == g.cluster)).bind (fun c => c.cores[j]?))

/-- R45. The record of a matrix instruction in flight, which holds its flag and its sticky flags; one that places no
operation completes without one. -/
def Issue.matrixFlag (c : Issue) (ctx op : Nat) (none_ : Bool) : Issue :=
  let a : Access :=
    { op := op, ctx := ctx, w := c.wave.id, path := c.path, clause := c.header
      kind := if none_ then .compute else .matrix, width := 0, mtype := 0, lanes := [], dest := .none
      flag := some c.nextFlag, counter := none, fp := 0, results := [], halves := [], failed := [] }
  (c.takeFlag op).send (.access a)

/-- R163. A matrix instruction that places operations in the queues of some cores: they stand there in the order of issue. A
clause that holds with operations for one of the cores comes first. -/
def State.placeMatrix (s : State) (c : Issue) (cores : List Nat) (ops : Nat → List (Nat × MatrixOp)) :
    State × Except Stop Issue :=
  let checking : Bool := c.phase == .checking
  let (s, c) := if c.flushed && !checking then s.flush c else (s, c)
  match cores.find? (s.queueHeld c.wave.id) with
  | some i => (s, .error (.notReady (.queue i)))
  | none =>
    let (op, s) := s.fresh
    let ms := ops op
    let c := ms.foldl (fun c m => c.send (.matrix m.1 m.2)) c
    (s, .ok (c.matrixFlag (s.dev.ctxOf c.wave.id) op ms.isEmpty))

/-- R154. `wld`. A misaligned operand is reported with the scratchpad address, whichever of the three it is (log 75). -/
def execWld (d a b : Operand) (s : State) : Out :=
  s.onIssue (fun s c =>
    let off := c.src false true d 0
    let addr := c.src false true a 0
    let n := c.src false true b 0
    if n < 16 ∨ 131072 < n ∨ 131072 < off + n then (s, .error (illegal 0x08))
    else if off % 16 ≠ 0 ∨ addr % 16 ≠ 0 ∨ n % 16 ≠ 0 then (s, .error (.fault 4 0x01 0 (w64 addr)))
    else if s.scratchSize c < addr + n then (s, .error (.fault 5 0x06 0 (w64 addr)))
    else s.placeMatrix c [c.wave.core] (fun op => [(c.wave.core, .wld op c.wave.id off addr n none)]))

/-- R153. `wfmt`. -/
def execWfmt (a : Operand) (s : State) : Out :=
  s.onIssue (fun s c =>
    let x := c.src false true a 0
    if bitsOf x 15 4 ≠ 0 ∨ bitsOf x 3 0 < 8 ∨ bitsOf x 3 0 = 15 then (s, .error (illegal 0x01))
    else s.placeMatrix c [c.wave.core] (fun op =>
      [(c.wave.core, .wfmt op c.wave.id (BitVec.ofNat 4 x) (BitVec.ofNat 16 (x / 2 ^ 16)))]))

/-- R155. `wswp`. -/
def execWswp (s : State) : Out :=
  s.onIssue (fun s c => s.placeMatrix c [c.wave.core] (fun op => [(c.wave.core, .wswp op c.wave.id)]))

/-- R156. The segments and scale words of a lane's row: addresses with their sizes. -/
def rowPlaces (t : EType) (lw l : Nat) : Option (List (Nat × Nat) × List (Nat × Nat)) :=
  let n := segments t
  let data := (List.range n.1).map (fun j => layoutAddr lw j l 0)
  let scale := if t.scaled then (List.range n.1).map (fun j => layoutAddr lw j l 1) else []
  if (data ++ scale).any Option.isNone then none
  else some ((data.filterMap id).map (fun p => (p, n.2)), (scale.filterMap id).map (fun p => (p, 4)))

/-- R156. The checks of a lane's row: of several places that fail, the first misaligned one is reported, segments before scale
words, and else the first that is out of range (log 75). -/
def rowCheck (size : Nat) (ps : List (Nat × Nat)) : Option LaneBad :=
  match ps.find? (fun p => p.1 % p.2 != 0) with
  | some p => some ⟨1, 4, 0x01, w64 p.1, none⟩
  | none =>
    match ps.find? (fun p => decide (size < p.1 + p.2)) with
    | some p => some ⟨2, 5, 0x06, w64 p.1, none⟩
    | none => none

/-- R156. Reads a lane's row; a helper lane that fails a check reads zeros under the scale 1. `loses` says of a place whether
its data is lost (R366): the lowest such place is kept. -/
def readRow (m : Memory) (size : Nat) (loses : Nat × Nat → Bool) (t : EType) (lw l : Nat) : ARow :=
  match rowPlaces t lw l with
  | some (ds, ss) =>
    if (rowCheck size (ds ++ ss)).isNone then
      { lane := l, data := ds.flatMap (fun p => m.readN p.1 p.2)
        scales := ss.map (fun p => BitVec.ofNat 32 (leNat (m.readN p.1 4)))
        lost := (((ds ++ ss).filter loses).map Prod.fst).min? }
    else { lane := l, data := [], scales := ss.map (fun _ => 0x7F000), lost := none }
  | none => { lane := l, data := [], scales := [], lost := none }

/-- R158, R161. A matrix multiplication over some chain cores: the type pairs, the tile offset and the rows are checked,
and each octet with an active lane becomes one operation on each core. A is read once, as the instruction issues: a store that
the path issues later is never seen (log 75). DESIGN CHOICE: a reserved permutation is a fault whatever lanes are active (log
40), and of several faults the tile offset's is reported first, then the permutation's, then the rows' (log 75). -/
def State.multiply (s : State) (c : Issue) (part : Bool) (chain : List Nat) (d kn : Nat) (b : Operand) :
    State × Except Stop Issue :=
  let t := c.ty
  let lw := c.layout kn
  let tile := c.src false true b 0
  let size := s.scratchSize c
  let lanes := lanesOf c.wave.width c.active
  if !(chain.all (fun i => pairOk t (s.btypeAt c i))) then (s, .error (illegal 0x05))
  else if 8191 < tile then (s, .error (illegal 0x08))
  else if 6 < bitsOf lw 95 92 then (s, .error (illegal 0x01))
  else
    let check := fun (l : Nat) => (rowPlaces t lw l).bind (fun p => rowCheck size (p.1 ++ p.2))
    let bads := (lanes.filter (fun l => !c.wave.helper.getLsbD l)).filterMap (fun l => (check l).map (fun e => (l, e)))
    match stopOf false false bads with
    | some e => (s, .error e)
    | none =>
      let m := s.scratchNow c
      let seen := s.scratchCover c
      let loses := fun (p : Nat × Nat) => (seen.readLoss none ⟨.scratch c.wave.id.launch c.wave.id.group, p.1⟩ p.2).isSome
      let octets := ((List.range (c.wave.width / 8)).map (fun o => lanes.filter (fun l => l / 8 == o))).filter
        (fun ls => !ls.isEmpty)
      s.placeMatrix c chain (fun op => chain.zipIdx.flatMap (fun x => octets.map (fun ls =>
        (x.1, .mma op part c.wave.id (d + 16 * x.2) (c.pth.mode.extractLsb' 0 4) (16 * tile) c.wave.xva
          (ls.map (readRow m size loses t lw))))))

/-- The number of a register operand. -/
def regNum (o : Operand) : Nat :=
  match o with
  | .v n | .k n | .x n => n
  | _ => 0

/-- R158, R159. `mma`. -/
def execMma (d a b : Operand) (s : State) : Out :=
  s.onIssue (fun s c => s.multiply c false [c.wave.core] (regNum d) (regNum a) b)

/-- R161. The cores of a wave's chain, from its own cluster core to the last. -/
def Dev.chainCores (d : Dev) (w : Wave) : List Nat :=
  match d.launch? w.id.launch, d.group? w.id.launch w.id.group with
  | some l, some g =>
    w.core :: (List.range (l.record.ccores - g.ccore - 1)).filterMap (fun j => d.clusterCore w.id (g.ccore + 1 + j))
  | _, _ => [w.core]

/-- R161. `mmac`. -/
def execMmac (d a b : Operand) (s : State) : Out :=
  s.onIssue (fun s c => s.multiply c true (s.dev.chainCores c.wave) (regNum d) (regNum a) b)

/-- R162. `mmz`. -/
def execMmz (d : Operand) (s : State) : Out :=
  s.onIssue (fun s c => s.placeMatrix c [c.wave.core] (fun op =>
    if c.active = 0 then [] else [(c.wave.core, .mmz op c.wave.id c.active (regNum d))]))

/-- Takes the head of a core's queue; when no queue holds another operation of its instruction, the instruction is
complete: its flags are ORed in and its completion flag clears. -/
def State.matrixDone (s : State) (core : Nat) (m : MatrixOp) : State :=
  (s.mapDev (fun d => d.mapCore core (fun c => { c with queue := c.queue.drop 1 }))).accessEnd m.op

/-- R160, R162. The first of the sixteen D registers of an operation, or of results that are still to be written, with its
wave. -/
def MatrixOp.writesD : MatrixOp → Option (WaveId × Nat)
  | .mma _ _ w d _ _ _ _ => some (w, d)
  | .mmz _ w _ d => some (w, d)
  | .results _ _ w d _ => some (w, d)
  | _ => none

/-- R160, R162, R163. Whether no operation on the same D registers of a wave that was issued earlier stands in any queue, and
none whose results are not written yet. -/
def Dev.dFree (d : Dev) (m : MatrixOp) : Bool :=
  match m.writesD with
  | none => true
  | some (w, n) => d.cores.all (fun c => c.queue.all (fun x => match x.writesD with
      | some (w', n') => !(w' == w && decide (x.op < m.op ∧ n' < n + 16 ∧ n < n' + 16))
      | none => true))

/-- R159. The D elements of a lane's row after an operation: register rows with their values, and the flags. -/
def mmaRow (core : Core) (t : EType) (tile : Nat) (xva : BitVec 16) (r : ARow) (d : Nat → Nat) :
    List Nat × FpFlags :=
  let bank := core.activeBank
  let bt := EType.ofCode bank.2.1.toNat
  match tileImage bank.1 bt bank.2.1.toNat tile with
  | none => ((List.range (tileN bt)).map (fun _ => if t = .f64 then fmt64.nan else fmt32.nan), fNV)
  | some img =>
    let row := leNat r.data
    let scales := r.scales.map BitVec.toNat
    let colBytes := tileK bt * bt.bits / 8
    let cells := (List.range (tileN bt)).map (fun n =>
      let cs := if bt.scaled then (List.range (tileK bt / 32)).map (fun j =>
          field img (tileData bt + 4 * (n * (tileK bt / 32) + j)) 4) else []
      Chain.run ⟨t, bt, xva.toNat, bank.2.2.toNat, row, scales, field img (n * colBytes) colBytes, cs⟩ (d n))
    (cells.map Prod.fst, cells.foldl (fun f x => f ||| x.2) 0)

/-- R159. The D registers of an operation: pairs in f64. -/
def dReg (t : EType) (d n : Nat) : Nat := if t = .f64 then d + 2 * n else d + n

/-- R151, R152, R366. The first byte of the bank that an operation reads for its tile and whose data is lost. -/
def Dev.tileLoss (d : Dev) (core : Core) (off : Nat) : Option Nat :=
  let bank := core.activeBank
  let n := tileSize (EType.ofCode bank.2.1.toNat) / 64
  let words := (n + 31) / 32
  let stored := ((List.range n).filter (fun i => (leNat (bank.1.readN (off + 4) (4 * words))).testBit i)).length
  let k := if core.active then 1 else 0
  ((List.range ((4 + 4 * words + 64 * stored + 7) / 8 + 1)).map (off / 8 + ·)).find? (fun i =>
    decide (8 * i < off + 4 + 4 * words + 64 * stored) && d.failing.contains (.bank core.index k i)) |>.map (8 * ·)

/-- R366. The fault that waits for a lane of an operation: lost data of its row of A, of the tile, or of its D registers. -/
def Dev.rowLoss (d : Dev) (core : Core) (id : WaveId) (r : ARow) (tile n : Nat) : Option FailedLane :=
  if d.failing.isEmpty ∧ r.lost.isNone then none
  else match r.lost, d.tileLoss core tile with
    | some a, _ => some ⟨r.lane, w64 a, false, 11, 0x02⟩
    | none, some a => some ⟨r.lane, w64 a, false, 11, 0x03⟩
    | none, none =>
      if (List.range 16).any (fun i => d.failing.contains (.vector id (n + i) r.lane)) then some ⟨r.lane, 0, false, 11, 0x01⟩
      else none

/-- R46, R159. The results of an octet's operation: in f64 each element gives its two halves. D is read as the operation
executes (log 75). -/
def Wave.mmaResults (w : Wave) (core : Core) (t : EType) (d tile : Nat) (xva : BitVec 16) (rows : List ARow) : List DElem :=
  let wide := t == .f64
  rows.flatMap (fun r =>
    (mmaRow core t tile xva r (fun n => rowsRead w.v wide (dReg t d n) r.lane)).1.zipIdx.flatMap (fun x =>
      if wide then
        [⟨2 * x.2, r.lane, BitVec.ofNat 32 x.1⟩, ⟨2 * x.2 + 1, r.lane, BitVec.ofNat 32 (x.1 / 2 ^ 32)⟩]
      else [⟨x.2, r.lane, BitVec.ofNat 32 x.1⟩]))

/-- R94, R159. The flags of the real lanes of an octet's operation. -/
def Wave.mmaFlags (w : Wave) (core : Core) (t : EType) (d tile : Nat) (xva : BitVec 16) (rows : List ARow) : FpFlags :=
  rows.foldl (fun f r =>
    if w.real.getLsbD r.lane then
      f ||| (mmaRow core t tile xva r (fun n => rowsRead w.v (t == .f64) (dReg t d n) r.lane)).2
    else f) 0

/-- R46. Whether an event writes an element of D. -/
def DElem.isIn (e : DElem) (p : DPart) : Bool := p.regs.getLsbD e.reg && p.lanes.getLsbD e.lane

/-- R46. An element of D is written. -/
def Wave.putD (w : Wave) (d : Nat) (e : DElem) : Wave :=
  { w with v := writeRows w.v false (d + e.reg) [(e.lane, e.value.setWidth 64)] }

/-- R46, R160, R365. The elements that a part selects are written into the D registers, which have new check bits there; what is
left stays at the head of the queue, in place of the operation that has executed, and with its last element the operation is
done. -/
def State.writeD (s : State) (core op : Nat) (of_ : ResultsOf) (id : WaveId) (d : Nat) (els : List DElem) (p : DPart) : State :=
  let now := els.filter (·.isIn p)
  let left := els.filter (fun e => !e.isIn p)
  let s := s.onWave id (fun w => now.foldl (fun w e => w.putD d e) w)
  let s := s.mapDev (fun x => now.foldl (fun x e => x.coverDest id (.v (d + e.reg) false) [e.lane]) x)
  let m : MatrixOp := .results op of_ id d left
  if left.isEmpty then s.matrixDone core m
  else s.mapDev (fun x => x.mapCore core (fun c => { c with queue := m :: c.queue.drop 1 }))

/-- What an operation or a part of a chained one leaves to be written. -/
def partKind (part : Bool) : ResultsOf := if part then .part else .mma

/-- R159, R366. Performs the octet's operation at the head of a core's queue, once no earlier one on its D registers is left, and
writes the results that a part selects; or writes more of the results that stand there. A lane whose operands have lost data
keeps D, and its fault waits; a helper lane's fault is suppressed (R25). DESIGN CHOICE (log 75): what stands behind the head of
the queue waits for it, whichever D registers it names; R163 asks for the order only where they are the same. -/
def State.runMma (s : State) (wantPart : Bool) (p : DPart) : State :=
  let core := p.core
  let c := s.dev.core core
  match c.queue with
  | .results op of_ id d els :: _ => if of_ = partKind wantPart then s.writeD core op of_ id d els p else s
  | .mma op part id d atype tile xva rows :: _ =>
    if part ≠ wantPart ∨ !s.dev.dFree (.mma op part id d atype tile xva rows) then s
    else
      let t := EType.ofCode atype.toNat
      let w := s.waveNow id
      let bads := rows.filterMap (fun r => s.dev.rowLoss c id r tile d)
      let good := rows.filter (fun r => (s.dev.rowLoss c id r tile d).isNone)
      let real := bads.filter (fun b => (w.map (fun w => w.real.getLsbD b.lane)).getD false)
      let fp := (w.map (fun w => w.mmaFlags c t d tile xva good)).getD 0
      let els := (w.map (fun w => w.mmaResults c t d tile xva good)).getD []
      let s := s.mapDev (fun d => d.mapAccess op (fun a => { a with fp := a.fp ||| fp, failed := a.failed ++ real }))
      s.writeD core op (partKind part) id d els p
  | _ => s

/-- R159. The event of a queued octet operation. -/
def execMatrixOperation (core : DPart) (s : State) : Out := .next (s.runMma false core)

/-- R161. The event of one part of a chained operation. -/
def execMmacPart (core : DPart) (s : State) : Out := .next (s.runMma true core)

/-- R162. The zeros that `mmz` writes. -/
def zeroResults (width : Nat) (lanes : Lanes) : List DElem :=
  (List.range 16).flatMap (fun i => (lanesOf width lanes).map (fun l => ⟨i, l, 0⟩))

/-- R162. The event of a queued zero write. -/
def execMmzWrite (core : DPart) (s : State) : Out :=
  .next (match (s.dev.core core.core).queue with
    | .results op of_ id d els :: _ => if of_ = .zero then s.writeD core.core op of_ id d els core else s
    | .mmz op id lanes d :: _ =>
      if !s.dev.dFree (.mmz op id lanes d) then s
      else s.writeD core.core op .zero id d (zeroResults (((s.waveNow id).map Wave.width).getD 0) lanes) core
    | _ => s)

/-- R365. The granules of a core's load bank that a weight load writes have new check bits. -/
def Dev.coverBank (d : Dev) (core off n : Nat) : Dev :=
  let k := if (d.core core).active then 0 else 1
  { d with failing := d.failing.filter (fun g => match g with
    | .bank i b j => !(i == core && b == k && decide (off ≤ 8 * j ∧ 8 * j < off + n))
    | _ => true) }

/-- R34, R154, R157, R366. The event of a weight load: once the wave's earlier scratchpad writes are performed, the bytes are
read into the load bank; if their data is lost, nothing is, and the fault waits (log 68). -/
def execWeightLoadAccept (core : Nat) (s : State) : Out :=
  .next (match (s.dev.core core).queue with
    | .wld op id off addr n kept :: _ =>
      let m : MatrixOp := .wld op id off addr n kept
      let place : Loc := ⟨.scratch id.launch id.group, addr⟩
      let load := fun (bs : List Byte) =>
        (s.mapDev (fun d => (d.coverBank core off n).mapCore core (fun c =>
          c.mapLoad (fun b => (b.1.writeN off bs, b.2))))).matrixDone core m
      match kept with
      | some bs => load bs
      | none =>
        if !s.dev.scratchSettled id op then s
        else match s.dev.readLoss none place n with
          | none => load (s.dev.peek place n)
          | some code =>
            (s.mapDev (fun d => d.mapAccess op (fun a => { a with
              failed := a.failed ++ [⟨64, w64 addr, false, 11, code⟩] }))).matrixDone core m
    | _ => s)

/-- R153. The event of a format latch. -/
def execFormatLatch (core : Nat) (s : State) : Out :=
  .next (match (s.dev.core core).queue with
    | .wfmt op id t x :: _ =>
      (s.mapDev (fun d => d.mapCore core (fun c => c.mapLoad (fun b => (b.1, t, x))))).matrixDone core (.wfmt op id t x)
    | _ => s)

/-- R155. The event of a bank swap. -/
def execBankSwap (core : Nat) (s : State) : Out :=
  .next (match (s.dev.core core).queue with
    | .wswp op id :: _ =>
      (s.mapDev (fun d => d.mapCore core (fun c => { c with active := !c.active }))).matrixDone core (.wswp op id)
    | _ => s)

end Sys2Proof.Machine
end

