-- ==== Sys2Proof/Machine/Platform.lean ====
section
/-! DEFINITION. Resets and bring-up (R344, R345, R347, R410), power and heat (R411, R412), and the requests of the
management controller (R413). -/

namespace Sys2Proof.Machine

/-- SHAKE256 with its 64 bytes of output (log 9). -/
def digest64 (b : List Byte) : List Byte := (Config.shake256 b ++ List.replicate 64 0).take 64

/-- R345. The bytes that the configuration measurement covers: the access tables, the region registers and the context
descriptors (log 9). -/
def Dev.configBytes (d : Dev) : List Byte :=
  d.access.flatMap (fun e => leBytes 4 e.target ++ leBytes 4 e.master ++ leBytes 8 e.entry.toNat) ++
    d.regions.flatMap (fun r => leBytes 4 r.target ++ leBytes 4 r.index ++ leBytes 8 r.base ++ leBytes 8 r.limit) ++
    (List.range 64).flatMap (fun i =>
      let c := d.context i
      leBytes 8 c.root ++ leBytes 8 0 ++ leBytes 8 c.clusters.toNat ++ leBytes 4 c.step ++ leBytes 4 c.state ++
        leBytes 8 c.hints ++ leBytes 4 c.nhint ++ leBytes 4 c.wdog ++ leBytes 8 c.pool ++ leBytes 8 c.pairs)

/-- R345. The configuration measurement: a view of the tables, registers and descriptors, so that it follows each change of
them. -/
def Dev.configMeasurement (d : Dev) : List Byte := digest64 d.configBytes

/-- A device that has lost everything but its platform, its number and the memories that a reset leaves. -/
def Dev.restarted (d : Dev) : Dev :=
  { Dev.reset with
    platform := d.platform, devId := d.devId, hbm := d.hbm, host := d.host
    failing := d.failing.filter (fun f => match f with | .memory a => a.space == .hbm | _ => false) }

/-- A state with a device after a reset: no clause is in execution. -/
def State.restart (s : State) (f : Dev → Dev) : State := { s with dev := f s.dev, issue := none, held := [] }

/-- R344, R413. What the boot ROM verifies at a reset: a staged image takes the place of the image before it, and a bad one
leaves the device in state 1 with its code. -/
def Platform.verified (p : Platform) (signatureGood : Bool) : Platform :=
  if p.staged.isEmpty then { p with code := if signatureGood then 0 else 1 }
  else if signatureGood && Config.firmwareGood p.staged then { p with code := 0, image := p.staged, staged := [] }
  else { p with code := 1 }

/-- R344, R410. The event of the deassertion of fundamental reset: everything is as after reset, and the boot ROM verifies
the staged image, if there is one (R413), or the firmware as it stands. -/
def execFundamentalReset (signatureGood : Bool) (s : State) : Out :=
  .next (s.restart (fun d =>
    let p : Platform := { Platform.reset with staged := d.platform.staged, image := d.platform.image }
    { Dev.reset with platform := p.verified signatureGood, host := d.host }))

/-- R347, R410, R413. The event of a function-level reset: state 1 again, with a staged image verified; every context free, and
the contents of the LPDDR tier lost. With nothing staged, an image that has failed its check still fails it. -/
def execFunctionLevelReset (s : State) : Out :=
  .next (s.restart (fun d =>
    { d.restarted with
      platform := { d.platform with
        state := 1, powerHeld := false, thermalHeld := false, digests := [], measurement := [] }.verified (d.platform.code != 1)
      keys := d.keys, timebase := d.timebase, clock := d.clock }))

/-- R345. The measurement of the firmware after one more image is loaded. -/
def Platform.loaded (p : Platform) : Platform :=
  let digests := p.digests ++ digest64 p.image
  { p with digests := digests, measurement := digest64 digests }

/-- R301, R410. The event in which a stage of bring-up ends: the next state, or the failure code of the stage, with which the
device stays; or the driver assigns the device's number on the fabric. -/
def execBringupStageComplete (r : StageResult) (s : State) : Out :=
  .next (s.mapDev (fun d =>
    let p := d.platform
    let code := fun (state : Nat) => if p.state = state then { d with platform := { p with code := state } } else d
    if p.code ≠ 0 ∨ 6 ≤ p.state ∨ p.state = 0 then d
    else match r with
      | .done => { d with platform := { (if p.state = 1 then p.loaded else p) with state := p.state + 1 } }
      | .assigned id => if id < 512 then { d with devId := id } else d
      | .signatureBad => code 1
      | .memoryFailed => code 3
      | .noPortUp => code 4))

/-- R411. The event in which the module power of a window is measured: at the cap the arithmetic clock goes down by a
step of 25 MHz and the module is held. -/
def execPowerHold (watts : Nat) (s : State) : Out :=
  .next (s.mapDev (fun d =>
    let p := { d.platform with watts := watts }
    { d with platform := if p.cap ≤ watts then { p with powerHeld := true, clockSteps := p.clockSteps + 1 }
      else { p with powerHeld := false } }))

/-- R412. A trip at a temperature: every clock stops, the trip is reported, the host link drops and every context is lost; no
state of bring-up stands. -/
def State.trip (s : State) (celsius : Nat) : State :=
  s.restart (fun d => { d.restarted with
    platform := { d.platform with state := 0, tripped := true, linkUp := false }
    timebase := d.timebase, clock := d.clock
    outbox := d.outbox ++ [.thermalTrip celsius] })

/-- R412. The event in which the junctions of the dies are measured: at 100 °C in one of them the clock goes down and the
module is held; at 115 °C it trips. -/
def execThermalHold (junctions : List Nat) (s : State) : Out :=
  .next (
    let s := s.mapDev (fun d => { d with platform := { d.platform with celsius := junctions } })
    match junctions.find? (fun x => decide (115 ≤ x)) with
    | some celsius => s.trip celsius
    | none =>
      s.mapDev (fun d =>
        let p := d.platform
        if junctions.all (· < 100) then { d with platform := { p with thermalHeld := false } }
        else { d with platform := { p with thermalHeld := true, clockSteps := p.clockSteps + 1 } }))

/-- R412. The event of a trip, at 115 °C. -/
def execThermalTrip (celsius : Nat) (s : State) : Out := .next (if celsius < 115 then s else s.trip celsius)

/-- R3, R411. The arithmetic clock in MHz: 1.6 GHz less its steps of 25 MHz. -/
def Platform.megahertz (p : Platform) : Nat := 1600 - 25 * p.clockSteps

/-- R413. The event of a telemetry request: the power of the main and of the auxiliary rail, the die temperatures, the
clock, and the corrected and uncorrectable error counts of each structure. -/
def execTelemetry (s : State) : Out :=
  .next (
    let (k, s) := s.draw
    s.mapDev (fun d => { d with outbox := d.outbox ++
      [.telemetry ([d.platform.watts, Config.auxPower k] ++ d.platform.celsius ++ [d.platform.megahertz] ++
        d.errorCounts.flatMap (fun e => [e.structure_, e.corrected, e.uncorrectable]))] }))

/-- R411, R413. The event of a request that sets the power cap; a cap outside 800 W to 2,400 W is not taken. -/
def execPowerCap (watts : Nat) (s : State) : Out :=
  .next (if 800 ≤ watts ∧ watts ≤ 2400 then s.mapDev (fun d => { d with platform := { d.platform with cap := watts } }) else s)

/-- R345. The report of a nonce. -/
def Dev.report (d : Dev) (nonce : List Byte) : List Byte :=
  let head := (nonce ++ List.replicate 32 0).take 32 ++ (d.platform.measurement ++ List.replicate 64 0).take 64 ++
    d.configMeasurement ++ leBytes 8 d.timebase.toNat ++ serialNumber
  head ++ (Config.falconSign (digest64 head) ++ List.replicate 1280 0).take 1280

/-- R345, R413. The event of a request for the report of a nonce. -/
def execAttest (nonce : List (BitVec 8)) (s : State) : Out :=
  .next (s.mapDev (fun d => { d with outbox := d.outbox ++ [.report (d.report nonce)] }))

/-- R413. The event of a request that stores a firmware image, to be verified at the next reset. -/
def execStageFirmware (image : List (BitVec 8)) (s : State) : Out :=
  .next (s.mapDev (fun d => { d with platform := { d.platform with staged := image } }))

end Sys2Proof.Machine
end

