-- ==== Sys2Proof/Machine/SnapshotOps.lean ====
section
/-! DEFINITION. The snapshot engine: the stamp of a `pub` (R261, R262), the retirement of a `vret` (R263, R219) and the
return of retired frames to the pool (R414, R247). -/

namespace Sys2Proof.Machine

/-- Whether an access in flight, or one that a clause will send, has a part in a range of a space; only those that write,
when asked. -/
def Access.meets (a : Access) (writes : Bool) (sp : Space) (base n : Nat) : Bool :=
  (!writes || a.kind.writes) && a.lanes.any (fun l => l.loc.within sp base n)

/-- Whether any access that is not performed yet has a part in a range of a space. -/
def State.pendingIn (s : State) (writes : Bool) (sp : Space) (base n : Nat) : Bool :=
  let of := fun (c : Issue) => c.effects.any (fun e => match e with | .access a => a.meets writes sp base n | _ => false)
  s.dev.inflight.any (fun a => a.meets writes sp base n) || (s.issue.any of) || s.held.any of

/-- R331. The leaf with versions of a page, and its record; none beyond the 48 bits of the addresses. -/
def Dev.versionsOf (d : Dev) (ctx va : Nat) : Option (Leaf × List VSlot) :=
  match (if va < 2 ^ 48 then d.ctx? ctx else none) with
  | none => none
  | some x =>
    match d.walk x.root va with
    | .leaf l => if l.bits ≤ 21 ∧ entryBit l.entry 59 then some (l, l.slots) else none
    | _ => none

/-- R261. Whether a `pub` refuses a page. -/
def Dev.pubRefuses (d : Dev) (ctx va : Nat) : Bool :=
  match d.versionsOf ctx va with
  | none => true
  | some (l, vs) =>
    (permCode .write l.entry).isSome ||
      (match vs with
       | cur :: _ => !cur.valid || (decide ((vs.filter VSlot.valid).length = 4) && !cur.stamped)
       | [] => true)

/-- R309. The pages of a range whose atomic right is not at this device, their home. -/
def Dev.rightsAway (d : Dev) (ctx base n : Nat) : List Nat :=
  (d.rights.filter (fun r => r.ctx == ctx && (r.handing || r.owner.isSome) &&
    decide (base / 65536 ≤ r.page ∧ r.page ≤ (base + n - 1) / 65536))).map AtomicRight.page

/-- R343. The target that refuses the snapshot engine a write of a page's version record. -/
def Dev.recordRefused (d : Dev) (ctx va : Nat) : Option Nat :=
  (d.versionsOf ctx va).bind (fun x => d.refusedBy firmwareMaster ⟨.hbm, x.1.record va⟩ 64 true)

/-- R309, R343. What a `pub` or a `vret` meets before its one moment: a right of one of its pages that has to come home, or a
record that it may not write. -/
def State.snapshotCheck (s : State) (c : EngineCmd) (base length : Nat) : State × Except Stop Unit :=
  let pages := pagesOf base length
  match s.dev.rightsAway c.ctx base length with
  | page :: r =>
    ((page :: r).foldl (fun s p => s.mapDev (fun d => d.recallPage c.ctx p)) s, .error (.notReady (.right page)))
  | [] =>
    match pages.find? (fun va => (s.dev.recordRefused c.ctx va).isSome) with
    | some va =>
      (s.dropsRequest c.ctx ((s.dev.recordRefused c.ctx va).getD 0), .error (.fault 5 0x08 0 (w64 va)))
    | none => (s, .ok ())

/-- R261. The stamp of the current version of one page. -/
def State.stampPage (ctx step : Nat) (s : State) (va : Nat) : State :=
  match s.dev.versionsOf ctx va with
  | some (l, cur :: rest) =>
    s.storeAt .other ⟨.hbm, l.record va⟩ (recordBytes ({ cur with stamped := true, hi := step } :: rest))
  | _ => s

/-- R210, R261, R365. Writes home every dirty line of a range of a space: its copies are clean from now on, and a granule that
fails in a dirty one fails in memory too. -/
def Dev.writeHome (d : Dev) (sp : Space) (a n : Nat) : Dev :=
  { d with
    l2 := d.l2.map (fun c => if !c.line.within sp a n then c else match c.state with
      | .modified => { c with state := .exclusive }
      | .owned => { c with state := .shared }
      | _ => c)
    failing := (d.failing ++ d.failing.filterMap (fun g => match g with
      | Granule.l2 k x =>
        if x.within sp a n && d.l2.any (fun c => c.die == k && c.line == x.line && c.dirty) then some (Granule.memory x) else none
      | _ => none)).eraseDups }

/-- R261. The dirty lines of one page's current version go home. -/
def State.pageHome (ctx : Nat) (s : State) (va : Nat) : State :=
  match s.dev.versionsOf ctx va with
  | some (_, cur :: _) => s.mapDev (fun d => d.writeHome (tierSpace cur.target) cur.frame 65536)
  | _ => s

/-- R262. Whether a write into the current frame of some page of a range is on its way. -/
def State.writesPending (s : State) (ctx : Nat) (pages : List Nat) : Bool :=
  pages.any (fun va => match s.dev.versionsOf ctx va with
    | some (_, cur :: _) => s.pendingIn true (tierSpace cur.target) cur.frame 65536
    | _ => false)

/-- R261. A `pub`, at its one moment; it waits for the writes that are on their way to the pages (R262). -/
def State.runPub (s : State) (c : EngineCmd) : EngineRun :=
  let base := cmdField c.command 0 7
  let length := cmdField c.command 8 15
  let advance := entryBit (cmdField c.command 16 16) 0
  let step := s.dev.step c.ctx
  let pages := pagesOf base length
  if advance ∧ step = 2 ^ 24 - 1 then (s, .ok (some (EngineEnd.plain 4 (2 ^ 32 - 1))))
  else match pages.findIdx? (s.dev.pubRefuses c.ctx) with
    | some i => (s, .ok (some (EngineEnd.plain 4 i)))
    | none =>
      match s.snapshotCheck c base length with
      | (s, .error e) => (s, .error e)
      | (s, .ok _) =>
        if s.writesPending c.ctx pages then (s, .ok none)
        else
          let s := pages.foldl (State.stampPage c.ctx step) s
          let s := s.mapDev (fun d => d.tlbDrop c.ctx base length)
          let s := if advance then s.mapDev (fun d => d.mapCtx c.ctx (fun x => { x with step := step + 1 })) else s
          (pages.foldl (State.pageHome c.ctx) s, .ok (some ⟨0, pages.length, step, 0⟩))

/-- R261. The event of a `pub`. -/
def execPubStamp (cmd : Nat) (s : State) : Out := s.runEngine cmd (· == 0xEC) State.runPub

/-- R263. Whether a `vret` with a bound retires a slot that is not the current one. -/
def VSlot.retires (r : Nat) (v : VSlot) : Bool := v.valid && decide (v.hi ≤ r)

/-- R219. Whether an entry of a context names a step of a version's interval and reaches its page. -/
def RangeLock.names (e : RangeLock) (ctx va : Nat) (v : VSlot) : Bool :=
  e.ctx == ctx && (match e.version with | some t => decide (v.lo ≤ t ∧ t ≤ v.hi) | none => false) &&
    decide (e.base < va + 65536 ∧ va < e.base + e.length)

/-- R332, R334. Drops the L1 lines that hold a frame's bytes under a published step, whichever context's they are. -/
def Dev.dropL1Version (d : Dev) (sp : Space) (a : Nat) : Dev :=
  { d with cores := d.cores.map (fun c =>
      { c with l1 := c.l1.filter (fun e => !(e.version.isSome && e.frame.within sp a 65536)) }) }

/-- R263, R334. The retirement of the old versions of one page, each a revocation of its translation; the versions retired so
far. -/
def State.retirePage (ctx r : Nat) (acc : State × Nat) (va : Nat) : State × Nat :=
  match acc.1.dev.versionsOf ctx va with
  | some (l, cur :: rest) =>
    let gone := rest.filter (VSlot.retires r)
    if gone.isEmpty then acc
    else
      let at_ := l.record va
      let s := gone.foldl (fun s v => s.revokeFrame ctx va 65536 (tierSpace v.target) v.frame) acc.1
      let s := s.storeAt .other ⟨.hbm, at_⟩ (recordBytes (cur :: rest.filter (fun v => !v.retires r)))
      let s := s.mapDev (fun d => gone.foldl (fun d v => d.dropL1Version (tierSpace v.target) v.frame) d)
      (s.mapDev (fun d => { d with
        gaps := d.gaps.filter (fun g => !(g.record == at_ && gone.any (fun v => v.lo == g.lo)))
        returns := d.returns ++ gone.map (fun v => (⟨ctx, v.target == 1, v.frame⟩ : FrameReturn)) }), acc.2 + gone.length)
  | _ => acc

/-- R219, R263. Whether an entry names a version that a `vret` would retire. -/
def Dev.vretWaits (d : Dev) (ctx r : Nat) (pages : List Nat) : Bool :=
  pages.any (fun va => match d.versionsOf ctx va with
    | some (_, _ :: rest) => rest.any (fun v => v.retires r && d.locks.any (fun e => e.names ctx va v))
    | _ => false)

/-- R263. A `vret`; it waits for the entries that name a version which it would retire. -/
def State.runVret (s : State) (c : EngineCmd) : EngineRun :=
  let base := cmdField c.command 0 7
  let length := cmdField c.command 8 15
  let r := cmdField c.command 16 18
  let pages := pagesOf base length
  if s.dev.vretWaits c.ctx r pages then (s, .ok none)
  else
    match s.snapshotCheck c base length with
    | (s, .error e) => (s, .error e)
    | (s, .ok _) =>
      let t := pages.foldl (State.retirePage c.ctx r) (s, 0)
      (t.1, .ok (some ⟨0, t.2, 0, 0⟩))

/-- R263. The event of a `vret`. -/
def execVretRetire (cmd : Nat) (s : State) : Out := s.runEngine cmd (· == 0xED) State.runVret

/-- R247. Whether no access that was checked before the retirement of a frame still has to be performed in it. -/
def State.returnReady (s : State) (f : FrameReturn) : Bool :=
  !s.pendingIn false (if f.lpddr then .lpddr else .hbm) f.frame 65536

/-- R247, R414. The event in which the nth retired frame goes back to the list of its tier, once no access that was
checked before its retirement still has to be performed in it. -/
def execFrameReturn (n : Nat) (s : State) : Out :=
  .next (match s.dev.returns[n]? with
    | none => s
    | some f =>
      if !s.returnReady f then s
      else
        let s := s.mapDev (fun d => { d with returns := d.returns.eraseIdx n })
        match s.dev.ctx? f.ctx with
        | some x => s.poolReturn x (if f.lpddr then 2 else 0) f.frame
        | none => s)

end Sys2Proof.Machine
end

