-- ==== Sys2Proof/Machine/Window.lean ====
section
/-! DEFINITION. The driver status window (R408): its registers as bytes, their reads and writes, the clears of sticky counts
and bits (R318, R414, R417), revocations (R334), the driver's writes of access tables, region registers and grants (R311,
R342), and host accesses through the base address registers (R407). -/

namespace Sys2Proof.Machine

/-- R342. The index of the driver among the masters. -/
def driverMaster : Nat := 512

/-- Bytes with other bytes laid over them from an offset on. -/
def overlay (b : List Byte) (at_ : Nat) (x : List Byte) : List Byte := b.take at_ ++ x ++ b.drop (at_ + x.length)

/-- R341. The 64 bytes of a descriptor. -/
def Context.bytes (c : Context) : List Byte :=
  leBytes 8 c.root ++ zeros 8 ++ leBytes 8 c.clusters.toNat ++ leBytes 4 c.step ++ leBytes 4 c.state ++ leBytes 8 c.hints ++
    leBytes 4 c.nhint ++ leBytes 4 c.wdog ++ leBytes 8 c.pool ++ leBytes 8 c.pairs

/-- R341. A context with a descriptor of 64 bytes written by the driver. The lifecycle word is the driver's only while
the context is free (log 34). -/
def Context.written (c : Context) (b : List Byte) : Context :=
  { c with
    root := field b 0 8, clusters := w64 (field b 16 8), step := field b 24 4 % 2 ^ 24
    state := if c.state = 0 then field b 28 4 % 4 else c.state
    hints := field b 32 8, nhint := field b 40 4, wdog := field b 44 4, pool := field b 48 8, pairs := field b 56 8 }

/-- R298. The eight bytes of the budgets. -/
def Context.budgets (c : Context) : List Byte := leBytes 8 (c.coreBudget + c.hbmBudget * 2 ^ 16 + c.powerBudget * 2 ^ 32)

/-- R342, R408, R410. Whether a driver write to an offset of BAR0 is taken: bring-up is complete, and the access table of
the window permits it. -/
def Dev.windowOpen (d : Dev) (offset : Nat) : Bool :=
  d.platform.state == 6 && d.bitGranted 37 driverMaster (offset / 2 ^ 23) true

/-- R408. The fields of a write that fall into the array of an entry size: for each entry, the offset in it and the
bytes. -/
def entryWrites (size : Nat) : Nat → Nat → List Byte → List (Nat × Nat × List Byte)
  | 0, _, _ => []
  | fuel + 1, at_, b =>
    if b.isEmpty then []
    else
      let n := size - at_ % size
      (at_ / size, at_ % size, b.take n) :: entryWrites size fuel (at_ + n) (b.drop n)

/-- R408. A write into an array of entries of the contexts. -/
def State.eachContext (s : State) (size at_ : Nat) (b : List Byte) (f : Context → Nat → List Byte → Context) : State :=
  (entryWrites size (b.length + 1) at_ b).foldl (fun s e =>
    s.mapDev (fun d => d.setContext (f (d.context e.1) e.2.1 e.2.2))) s

/-- R334, R408. The bytes of the revocation register, its four fields of eight bytes: the start field reads 0 when every
revocation is done. -/
def Dev.revocationBytes (d : Dev) : List Byte :=
  overlay ((d.revocation ++ zeros 32).take 32) 24 (leBytes 8 (if d.revoking.isEmpty then 0 else 1))

/-- R408. A write to the revocation register: the start field begins a revocation. -/
def State.writeRevocation (s : State) (at_ : Nat) (b : List Byte) : State :=
  let r := overlay (s.dev.revocation ++ zeros 32 |>.take 32) at_ b
  let s := s.mapDev (fun d => { d with revocation := overlay r 24 (zeros 8) })
  if 24 < at_ + b.length ∧ field r 24 8 ≠ 0 then s.startRevocation ⟨field r 16 8, field r 0 8, field r 8 8⟩ else s

/-- R4, R416. The bytes of the command register as it reads, its reserved bits zero; or as it is written, with what a command
would be refused for. -/
def CommandReg.bytes (c : CommandReg) (written : Bool) : List Byte :=
  leBytes 4 (if written then c.ctx else c.ctx % 64) ++ leBytes 4 c.op ++ le64 c.image ++ le64 c.clusters ++ leBytes 4 c.wdog.toNat ++
    leBytes 4 (c.outcome * 2 ^ 28 + c.reason)

/-- R416. A write to the command register: the fields are written, and writing the op word starts the command; while one runs
the op word alone is ignored. The outcome is the device's. -/
def State.writeCommand (s : State) (at_ : Nat) (b : List Byte) : State :=
  let r := overlay (s.dev.command.bytes true) at_ b
  let runs := s.dev.command.outcome == 1
  let c : CommandReg := { s.dev.command with
    ctx := field r 0 4, op := if runs then s.dev.command.op else field r 4 4, image := w64 (field r 8 8)
    clusters := w64 (field r 16 8), wdog := BitVec.ofNat 32 (field r 24 4) }
  let s := s.mapDev (fun d => { d with command := c })
  if at_ < 8 ∧ 4 < at_ + b.length then s.startCommand c.op c.ctx c.image c.clusters c.wdog else s

/-- R318. Clears error bits of a context, with their causes. -/
def Context.clearErrors (c : Context) (mask : BitVec 512) : Context :=
  let bits := c.errbits &&& ~~~mask
  { c with errbits := bits, causes := c.causes.filter (fun x => bits.getLsbD x.1) }

/-- R417. The walker-fault entry, cleared by a write of 0 to its count. -/
def Context.clearWalker (c : Context) : Context := { c with walker := ⟨0, 0, 0, 0⟩ }

/-- R342, R408, R410. A driver write to BAR0: dropped before bring-up is complete, where the access table does not permit
it, and at an offset that names no writable field. -/
def State.writeRegister (s : State) (offset : Nat) (b : List Byte) : State :=
  let within := fun (base size : Nat) => decide (base ≤ offset ∧ offset + b.length ≤ base + size)
  if !s.dev.windowOpen offset then s
  else if within 0x800000 4096 then
    s.eachContext 64 (offset - 0x800000) b (fun c at_ x => c.written (overlay c.bytes at_ x))
  else if within 0x810000 4096 then
    s.eachContext 64 (offset - 0x810000) b (fun c at_ x => c.clearErrors (BitVec.ofNat 512 (leNat x * 2 ^ (8 * at_))))
  else if within 0x830000 512 then
    s.eachContext 8 (offset - 0x830000) b (fun c at_ x =>
      let w := leNat (overlay c.budgets at_ x)
      { c with coreBudget := bitsOf w 8 0, hbmBudget := bitsOf w 24 16, powerBudget := bitsOf w 40 32 })
  else if within 0x840000 32 then s.writeRevocation (offset - 0x840000) b
  else if within 0x840020 32 then s.writeCommand (offset - 0x840020) b
  else if within 0x840100 256 then
    s.eachContext 4 (offset - 0x840100) b (fun c at_ x => if at_ = 0 ∧ leNat x = 0 then { c with poolOverflow := 0 } else c)
  else if within 0x840200 1024 then
    s.eachContext 16 (offset - 0x840200) b (fun c at_ x =>
      if at_ ≤ 12 ∧ 12 < at_ + x.length ∧ leNat (x.drop (12 - at_)) = 0 then c.clearWalker else c)
  else s

/-- R1, R301, R408. The identity register: the part, the stepping, the firmware release 2.4 and the fabric device id. DESIGN
CHOICE (log 84): the release is 2.4 whatever image is staged; R1 admits any later 2.x. -/
def Dev.identity (d : Dev) : Nat := 0x0B04 + 0xB1 * 2 ^ 16 + 0x0204 * 2 ^ 24 + d.devId * 2 ^ 40

/-- R408, R410. The state word: the failure code and the state of bring-up. -/
def Platform.stateWord (p : Platform) : Nat := p.code * 2 ^ 24 + p.state

/-- R326, R408, R411, R412. The flags word. -/
def Platform.flagsWord (p : Platform) : Nat :=
  (if p.unsync then 1 else 0) + (if p.powerHeld then 2 else 0) + (if p.thermalHeld then 4 else 0)

/-- R318, R408. The cause bytes of a context, one for each peer. -/
def Context.causeBytes (c : Context) : List Byte :=
  (List.range 512).map (fun p => BitVec.ofNat 8 ((c.causes.lookup p).getD 0))

/-- R417. The 16 bytes of a walker-fault entry. -/
def WalkerFault.bytes (f : WalkerFault) : List Byte :=
  le64 f.addr ++ leBytes 2 f.code ++ leBytes 2 f.node ++ leBytes 4 f.count

/-- R365, R408. The 64 bytes of the error counts of a structure (log 70). -/
def Dev.errorBytes (d : Dev) (n : Nat) : List Byte :=
  match d.errorCounts.find? (fun e => e.structure_ == n) with
  | some e => leBytes 8 e.corrected ++ leBytes 8 e.uncorrectable ++ zeros 48
  | none => zeros 64

/-- R343. The place of the targets that have dropped requests. DESIGN CHOICE (log 85): R343 has them named in the status window,
and R408 gives no offset for it. -/
def droppedAt : Nat := 0x840600

/-- R343. The word that names the target that dropped a request of a context; all ones, like an offset that is not defined
(R407), for none. -/
def Context.droppedBytes (c : Context) : List Byte := leBytes 4 (c.dropped.getD (2 ^ 32 - 1))

/-- R408. The arrays of the window: the base, the size of an entry, the number of entries, and the bytes of one. -/
def Dev.windowArrays (d : Dev) : List (Nat × Nat × Nat × (Nat → List Byte)) :=
  [(0x800000, 64, 64, fun i => (d.context i).bytes), (0x810000, 64, 64, fun i => leBytes 64 (d.context i).errbits.toNat),
   (0x820000, 512, 64, fun i => (d.context i).causeBytes), (0x830000, 8, 64, fun i => (d.context i).budgets),
   (0x840000, 32, 1, fun _ => d.revocationBytes), (0x840020, 32, 1, fun _ => d.command.bytes false),
   (0x840040, 1, 64, fun i => leBytes 1 (d.context i).refused),
   (0x840100, 4, 64, fun i => leBytes 4 (d.context i).poolOverflow.toNat),
   (0x840200, 16, 64, fun i => (d.context i).walker.bytes), (droppedAt, 4, 64, fun i => (d.context i).droppedBytes),
   (0x1000000, 64, 64, d.errorBytes),
   (0x2000000, 64, 32768, fun i => ((d.status.lookup i).map StatusBlock.bytes).getD (zeros 64))]

/-- R408, R415. The head of the window, which reads in every state of bring-up but for the flags word and the timebase. -/
def Dev.windowHead (d : Dev) : List Byte :=
  leBytes 8 d.identity ++ serialNumber ++ leBytes 4 d.platform.stateWord ++ leBytes 4 d.platform.flagsWord ++ le64 d.timebase

/-- R342, R407, R408, R410. A byte of the driver status window as the driver reads it: all ones at an offset that is not
defined, where the access table does not permit the read, and, before bring-up is complete, beyond the identity, the serial
number and the state word. -/
def Dev.windowByte (d : Dev) (offset : Nat) : Byte :=
  if !d.bitGranted 37 driverMaster (offset / 2 ^ 23) false ∨ (d.platform.state ≠ 6 ∧ 0x1C ≤ offset) then 255
  else if offset < 0x28 then d.windowHead.getD offset 255
  else match d.windowArrays.find? (fun a => decide (a.1 ≤ offset ∧ offset < a.1 + a.2.1 * a.2.2.1)) with
    | some (base, size, _, entry) => (entry ((offset - base) / size)).getD ((offset - base) % size) 255
    | none => 255

/-- R342. Whether an access table has an entry for a target and a master. -/
def entryLegal (target master : Nat) : Bool := decide (target < 38 ∧ master < 514)

/-- R4, R342. What an access-table entry takes of a write: nothing for a reserved class, and no write bit for an engine. -/
def entryTaken (target master : Nat) (e : W64) : W64 :=
  if master < 512 ∧ 5 < master % 8 then 0 else if 33 ≤ target ∧ target ≤ 35 then e &&& 0xFFFFFFFF else e

/-- R342. Writes an entry of an access table. -/
def Dev.writeAccess (d : Dev) (target master : Nat) (e : W64) : Dev :=
  { d with access := ⟨target, master, e⟩ :: d.access.filter (fun x => !(x.target == target && x.master == master)) }

/-- R342. Writes a region register. -/
def Dev.writeRegion (d : Dev) (target index base limit : Nat) : Dev :=
  { d with regions := ⟨target, index, base, limit⟩ :: d.regions.filter (fun x => !(x.target == target && x.index == index)) }

/-- R226, R381. Loads the constant section of the kernels of a context whose code lies in a range, in place of the one that it
had. -/
def Dev.loadConstants (d : Dev) (ctx codeBase codeLimit : Nat) (data : List Byte) : Dev :=
  { d with consts := ⟨ctx, codeBase, codeLimit, Memory.writeN [] 0 data, data.length⟩ ::
      d.consts.filter (fun c => !(c.ctx == ctx && c.codeBase == codeBase && c.codeLimit == codeLimit)) }

/-- R253, R311, R342, R381, R408. The event of a driver write: to a register of the window, to an access table, to a region
register, of the grant of a source, of the bandwidth shares, or of a constant section. What is not legal is not taken. -/
def execRegisterWrite (at_ : DriverField) (data : List (BitVec 8)) (s : State) : Out :=
  .next (match at_ with
    | .window offset => s.writeRegister offset data
    | .access target master =>
      let entry := w64 (leNat data)
      if s.dev.platform.state = 6 ∧ data.length = 8 ∧ entryLegal target master then
        s.mapDev (fun d => d.writeAccess target master (entryTaken target master entry))
      else s
    | .region target index =>
      if s.dev.platform.state = 6 ∧ data.length = 16 ∧ target < 38 ∧ index < 32 then
        s.mapDev (fun d => d.writeRegion target index (field data 0 8) (field data 8 8))
      else s
    | .grant source =>
      let units := leNat data
      if source < 512 ∧ 2048 ≤ units ∧ units < 65536 then
        s.mapDev (fun d => { d with sourceGrants := (source, units) :: d.sourceGrants.filter (fun x => x.1 ≠ source) })
      else s
    | .shares =>
      let shares := data.map BitVec.toNat
      if s.dev.platform.state = 6 ∧ shares.length = 5 ∧ shares.foldl (· + ·) 0 ≤ 64 then
        s.mapDev (fun d => { d with shares := shares })
      else s
    | .constants ctx codeBase codeLimit =>
      if s.dev.platform.state = 6 ∧ ctx < 64 then
        s.mapDev (fun d => d.loadConstants ctx codeBase codeLimit data)
      else s)

/-- R334. The event of a driver write that revokes a translation. -/
def execRevocation (ctx : Nat) (base length : BitVec 64) (s : State) : Out :=
  .next (if !s.dev.windowOpen 0x840000 then s else s.startRevocation ⟨ctx, base.toNat, length.toNat⟩)

/-- R318. The event of a driver write that clears error bits. -/
def execErrorBitClear (ctx : Nat) (mask : BitVec 512) (s : State) : Out :=
  .next (if !s.dev.windowOpen 0x810000 then s else s.mapDev (fun d => d.mapCtx ctx (fun c => c.clearErrors mask)))

/-- R408, R414. The event of a driver write that clears a pool-overflow count. -/
def execPoolOverflowClear (ctx : Nat) (s : State) : Out :=
  .next (if !s.dev.windowOpen 0x840100 then s
    else s.mapDev (fun d => d.mapCtx ctx (fun c => { c with poolOverflow := 0 })))

/-- R408, R417. The event of a driver write that clears a walker-fault entry. -/
def execWalkerFaultClear (ctx : Nat) (s : State) : Out :=
  .next (if !s.dev.windowOpen 0x840200 then s else s.mapDev (fun d => d.mapCtx ctx Context.clearWalker))

/-- R343, R407, R410. Whether the driver reaches an HBM address. -/
def Dev.driverGranted (d : Dev) (pa : Nat) (write : Bool) : Bool :=
  decide (d.platform.state = 6 ∧ pa < 2 ^ 39) && (d.refusedBy driverMaster ⟨.hbm, pa⟩ 1 write).isNone

/-- R407. The bytes that a host read of some places returns. -/
def State.hostRead (s : State) (n : Nat) (byte : Nat → Byte) : State :=
  s.mapDev (fun d => { d with outbox := d.outbox ++ [.hostData ((List.range n).map byte)] })

/-- R407. The event of a host access. A read of HBM answers with all ones where nothing is granted, and a write of HBM is
performed, or dropped. A read of the status window answers with its fields. The doorbell pages define no offset that reads. -/
def execBar4Access (pa : Nat) (acc : HostAccess) (s : State) : Out :=
  .next (match acc with
    | .read n => s.hostRead n (fun i => if s.dev.driverGranted (pa + i) false then s.dev.hbm.read (pa + i) else 255)
    | .write data =>
      if (List.range data.length).any (fun i => !s.dev.driverGranted (pa + i) true) then s
      else s.storeAt .other ⟨.hbm, pa⟩ data
    | .readWindow n => s.hostRead n (fun i => s.dev.windowByte (pa + i))
    | .readDoorbell n => s.hostRead n (fun _ => 255))

end Sys2Proof.Machine
end

