-- ==== Sys2Proof/Machine/Dispatch.lean ====
section
/-! DEFINITION. The dispatch: one direct call of a meaning for each row of the opcode table. -/

namespace Sys2Proof.Machine

/-- The meaning of an instruction or an event. -/
def exec (i : Instr) (s : State) : Host.Outcome State Fault Refusal :=
  match i with
  | .nop => Sys2Proof.Machine.execNop s
  | .mode z v => Sys2Proof.Machine.execMode z v s
  | .bra imm => Sys2Proof.Machine.execBra imm s
  | .bif q imm => Sys2Proof.Machine.execBif q imm s
  | .bany q imm => Sys2Proof.Machine.execBany q imm s
  | .ball q imm => Sys2Proof.Machine.execBall q imm s
  | .join imm => Sys2Proof.Machine.execJoin imm s
  | .call k imm => Sys2Proof.Machine.execCall k imm s
  | .ret a => Sys2Proof.Machine.execRet a s
  | .loop a n => Sys2Proof.Machine.execLoop a n s
  | .lbrk q => Sys2Proof.Machine.execLbrk q s
  | .wcnt p a => Sys2Proof.Machine.execWcnt p a s
  | .trig => Sys2Proof.Machine.execTrig s
  | .bar z n => Sys2Proof.Machine.execBar z n s
  | .exit => Sys2Proof.Machine.execExit s
  | .trap c => Sys2Proof.Machine.execTrap c s
  | .brk c => Sys2Proof.Machine.execBrk c s
  | .sysrd d n => Sys2Proof.Machine.execSysrd d n s
  | .syswr a n => Sys2Proof.Machine.execSyswr a n s
  | .yield => Sys2Proof.Machine.execYield s
  | .wset z => Sys2Proof.Machine.execWset z s
  | .wchk z imm => Sys2Proof.Machine.execWchk z imm s
  | .bsa k imm => Sys2Proof.Machine.execBsa k imm s
  | .sal d a => Sys2Proof.Machine.execSal d a s
  | .spcfg a => Sys2Proof.Machine.execSpcfg a s
  | .clk d => Sys2Proof.Machine.execClk d s
  | .cond a b => Sys2Proof.Machine.execCond a b s
  | .enq a b => Sys2Proof.Machine.execEnq a b s
  | .add d a b => Sys2Proof.Machine.execAdd d a b s
  | .sub d a b => Sys2Proof.Machine.execSub d a b s
  | .addc d a b => Sys2Proof.Machine.execAddc d a b s
  | .subb d a b => Sys2Proof.Machine.execSubb d a b s
  | .mul d a b => Sys2Proof.Machine.execMul d a b s
  | .mulh d a b => Sys2Proof.Machine.execMulh d a b s
  | .mulw d a b => Sys2Proof.Machine.execMulw d a b s
  | .mad d a b => Sys2Proof.Machine.execMad d a b s
  | .min d a b => Sys2Proof.Machine.execMin d a b s
  | .max d a b => Sys2Proof.Machine.execMax d a b s
  | .abs d a => Sys2Proof.Machine.execAbs d a s
  | .neg d a => Sys2Proof.Machine.execNeg d a s
  | .and d a b => Sys2Proof.Machine.execAnd d a b s
  | .or d a b => Sys2Proof.Machine.execOr d a b s
  | .xor d a b => Sys2Proof.Machine.execXor d a b s
  | .andn d a b => Sys2Proof.Machine.execAndn d a b s
  | .not d a => Sys2Proof.Machine.execNot d a s
  | .shl d a b => Sys2Proof.Machine.execShl d a b s
  | .shr d a b => Sys2Proof.Machine.execShr d a b s
  | .sra d a b => Sys2Proof.Machine.execSra d a b s
  | .rotl d a b => Sys2Proof.Machine.execRotl d a b s
  | .rotr d a b => Sys2Proof.Machine.execRotr d a b s
  | .clz d a => Sys2Proof.Machine.execClz d a s
  | .ctz d a => Sys2Proof.Machine.execCtz d a s
  | .popc d a => Sys2Proof.Machine.execPopc d a s
  | .brev d a => Sys2Proof.Machine.execBrev d a s
  | .bfe d a b => Sys2Proof.Machine.execBfe d a b s
  | .bfi d a b => Sys2Proof.Machine.execBfi d a b s
  | .bzi d a b => Sys2Proof.Machine.execBzi d a b s
  | .bsp3 d a => Sys2Proof.Machine.execBsp3 d a s
  | .bcp3 d a => Sys2Proof.Machine.execBcp3 d a s
  | .lea d a b => Sys2Proof.Machine.execLea d a b s
  | .mov d a => Sys2Proof.Machine.execMov d a s
  | .dp4 d a b => Sys2Proof.Machine.execDp4 d a b s
  | .sad d a b => Sys2Proof.Machine.execSad d a b s
  | .bmsk d a b => Sys2Proof.Machine.execBmsk d a b s
  | .sat d a => Sys2Proof.Machine.execSat d a s
  | .csub d a b => Sys2Proof.Machine.execCsub d a b s
  | .fadd d a b => Sys2Proof.Machine.execFadd d a b s
  | .fsub d a b => Sys2Proof.Machine.execFsub d a b s
  | .fmul d a b => Sys2Proof.Machine.execFmul d a b s
  | .fma d a b => Sys2Proof.Machine.execFma d a b s
  | .fms d a b => Sys2Proof.Machine.execFms d a b s
  | .fnma d a b => Sys2Proof.Machine.execFnma d a b s
  | .fmin d a b => Sys2Proof.Machine.execFmin d a b s
  | .fmax d a b => Sys2Proof.Machine.execFmax d a b s
  | .fabs d a => Sys2Proof.Machine.execFabs d a s
  | .fneg d a => Sys2Proof.Machine.execFneg d a s
  | .fcps d a b => Sys2Proof.Machine.execFcps d a b s
  | .fdiv d a b => Sys2Proof.Machine.execFdiv d a b s
  | .fsqrt d a => Sys2Proof.Machine.execFsqrt d a s
  | .frcp d a => Sys2Proof.Machine.execFrcp d a s
  | .frsq d a => Sys2Proof.Machine.execFrsq d a s
  | .fex2 d a => Sys2Proof.Machine.execFex2 d a s
  | .flg2 d a => Sys2Proof.Machine.execFlg2 d a s
  | .fsnp d a => Sys2Proof.Machine.execFsnp d a s
  | .fcsp d a => Sys2Proof.Machine.execFcsp d a s
  | .ftnh d a => Sys2Proof.Machine.execFtnh d a s
  | .fflr d a => Sys2Proof.Machine.execFflr d a s
  | .fcel d a => Sys2Proof.Machine.execFcel d a s
  | .ftrc d a => Sys2Proof.Machine.execFtrc d a s
  | .frnd d a => Sys2Proof.Machine.execFrnd d a s
  | .fldx d a b => Sys2Proof.Machine.execFldx d a b s
  | .fgtx d a => Sys2Proof.Machine.execFgtx d a s
  | .fcls d a => Sys2Proof.Machine.execFcls d a s
  | .cvd d a => Sys2Proof.Machine.execCvd d a s
  | .cvs d a => Sys2Proof.Machine.execCvs d a s
  | .cvh d a => Sys2Proof.Machine.execCvh d a s
  | .cvb d a => Sys2Proof.Machine.execCvb d a s
  | .cv8 d a => Sys2Proof.Machine.execCv8 d a s
  | .cv6 d a => Sys2Proof.Machine.execCv6 d a s
  | .cv4 d a => Sys2Proof.Machine.execCv4 d a s
  | .cvi d a => Sys2Proof.Machine.execCvi d a s
  | .cvn d a => Sys2Proof.Machine.execCvn d a s
  | .bsc d a => Sys2Proof.Machine.execBsc d a s
  | .bsq d a b => Sys2Proof.Machine.execBsq d a b s
  | .ceq q a b => Sys2Proof.Machine.execCeq q a b s
  | .cne q a b => Sys2Proof.Machine.execCne q a b s
  | .clt q a b => Sys2Proof.Machine.execClt q a b s
  | .cle q a b => Sys2Proof.Machine.execCle q a b s
  | .cgt q a b => Sys2Proof.Machine.execCgt q a b s
  | .cge q a b => Sys2Proof.Machine.execCge q a b s
  | .cun q a b => Sys2Proof.Machine.execCun q a b s
  | .sel d a b => Sys2Proof.Machine.execSel d a b s
  | .qand q a b => Sys2Proof.Machine.execQand q a b s
  | .qor q a b => Sys2Proof.Machine.execQor q a b s
  | .qxor q a b => Sys2Proof.Machine.execQxor q a b s
  | .qnot q a => Sys2Proof.Machine.execQnot q a s
  | .qmov q a => Sys2Proof.Machine.execQmov q a s
  | .qmsk q a => Sys2Proof.Machine.execQmsk q a s
  | .qpop d a => Sys2Proof.Machine.execQpop d a s
  | .kq d a => Sys2Proof.Machine.execKq d a s
  | .shf d a b => Sys2Proof.Machine.execShf d a b s
  | .shx d a b => Sys2Proof.Machine.execShx d a b s
  | .shup d a b => Sys2Proof.Machine.execShup d a b s
  | .shdn d a b => Sys2Proof.Machine.execShdn d a b s
  | .qswx d a => Sys2Proof.Machine.execQswx d a s
  | .qswy d a => Sys2Proof.Machine.execQswy d a s
  | .qswd d a => Sys2Proof.Machine.execQswd d a s
  | .qbc d a b => Sys2Proof.Machine.execQbc d a b s
  | .cmpr d a => Sys2Proof.Machine.execCmpr d a s
  | .expd d a => Sys2Proof.Machine.execExpd d a s
  | .sldu d a b => Sys2Proof.Machine.execSldu d a b s
  | .sldd d a b => Sys2Proof.Machine.execSldd d a b s
  | .mtch d a => Sys2Proof.Machine.execMtch d a s
  | .mtcn d a => Sys2Proof.Machine.execMtcn d a s
  | .radd d a => Sys2Proof.Machine.execRadd d a s
  | .rmin d a => Sys2Proof.Machine.execRmin d a s
  | .rmax d a => Sys2Proof.Machine.execRmax d a s
  | .rbor d a => Sys2Proof.Machine.execRbor d a s
  | .rband d a => Sys2Proof.Machine.execRband d a s
  | .pfx d a => Sys2Proof.Machine.execPfx d a s
  | .bcl d a b => Sys2Proof.Machine.execBcl d a b s
  | .vote d a => Sys2Proof.Machine.execVote d a s
  | .topk d a b => Sys2Proof.Machine.execTopk d a b s
  | .ffs d a => Sys2Proof.Machine.execFfs d a s
  | .ldg d a b => Sys2Proof.Machine.execLdg d a b s
  | .stg d a b => Sys2Proof.Machine.execStg d a b s
  | .ldgs d a b => Sys2Proof.Machine.execLdgs d a b s
  | .stsg d a b => Sys2Proof.Machine.execStsg d a b s
  | .lds d a b => Sys2Proof.Machine.execLds d a b s
  | .sts d a b => Sys2Proof.Machine.execSts d a b s
  | .ldcl d a b => Sys2Proof.Machine.execLdcl d a b s
  | .stcl d a b => Sys2Proof.Machine.execStcl d a b s
  | .ldp d a b => Sys2Proof.Machine.execLdp d a b s
  | .stp d a b => Sys2Proof.Machine.execStp d a b s
  | .ldk d a b => Sys2Proof.Machine.execLdk d a b s
  | .ldf d a b => Sys2Proof.Machine.execLdf d a b s
  | .stf d a b => Sys2Proof.Machine.execStf d a b s
  | .ldv d a b => Sys2Proof.Machine.execLdv d a b s
  | .lde d a b => Sys2Proof.Machine.execLde d a b s
  | .ldr d a b => Sys2Proof.Machine.execLdr d a b s
  | .stcn d a b => Sys2Proof.Machine.execStcn d a b s
  | .aadd d a b => Sys2Proof.Machine.execAadd d a b s
  | .afad d a b => Sys2Proof.Machine.execAfad d a b s
  | .amin d a b => Sys2Proof.Machine.execAmin d a b s
  | .amax d a b => Sys2Proof.Machine.execAmax d a b s
  | .aand d a b => Sys2Proof.Machine.execAand d a b s
  | .aor d a b => Sys2Proof.Machine.execAor d a b s
  | .axor d a b => Sys2Proof.Machine.execAxor d a b s
  | .axch d a b => Sys2Proof.Machine.execAxch d a b s
  | .acas d a b => Sys2Proof.Machine.execAcas d a b s
  | .asad d a b => Sys2Proof.Machine.execAsad d a b s
  | .ascs d a b => Sys2Proof.Machine.execAscs d a b s
  | .xadd d a b => Sys2Proof.Machine.execXadd d a b s
  | .xcas d a b => Sys2Proof.Machine.execXcas d a b s
  | .fnc k z => Sys2Proof.Machine.execFnc k z s
  | .fsys d a b => Sys2Proof.Machine.execFsys d a b s
  | .wld d a b => Sys2Proof.Machine.execWld d a b s
  | .wfmt a => Sys2Proof.Machine.execWfmt a s
  | .wswp => Sys2Proof.Machine.execWswp s
  | .mma d a b => Sys2Proof.Machine.execMma d a b s
  | .mmac d a b => Sys2Proof.Machine.execMmac d a b s
  | .mmz d => Sys2Proof.Machine.execMmz d s
  | .spm a => Sys2Proof.Machine.execSpm a s
  | .spj a => Sys2Proof.Machine.execSpj a s
  | .sbn a => Sys2Proof.Machine.execSbn a s
  | .sst a => Sys2Proof.Machine.execSst a s
  | .sbl a => Sys2Proof.Machine.execSbl a s
  | .sbk a => Sys2Proof.Machine.execSbk a s
  | .cpy a => Sys2Proof.Machine.execCpy a s
  | .lxf a => Sys2Proof.Machine.execLxf a s
  | .hxc a => Sys2Proof.Machine.execHxc a s
  | .ared a => Sys2Proof.Machine.execAred a s
  | .pub a => Sys2Proof.Machine.execPub a s
  | .vret a => Sys2Proof.Machine.execVret a s
  | .ckp a => Sys2Proof.Machine.execCkp a s
  | .lfe d a b => Sys2Proof.Machine.execLfe d a b s
  | .clauseIssue dom => Sys2Proof.Machine.execClauseIssue dom s
  | .ageingSwitch w => Sys2Proof.Machine.execAgeingSwitch w s
  | .detPathSwitch w => Sys2Proof.Machine.execDetPathSwitch w s
  | .longLatencyCompletion op a => Sys2Proof.Machine.execLongLatencyCompletion op a s
  | .accessPerformed op count => Sys2Proof.Machine.execAccessPerformed op count s
  | .counterDecrement launch group ctr => Sys2Proof.Machine.execCounterDecrement launch group ctr s
  | .groupPlacement launch hw => Sys2Proof.Machine.execGroupPlacement launch hw s
  | .isobarMinimumUpdate w => Sys2Proof.Machine.execIsobarMinimumUpdate w s
  | .watchdogExpiry launch => Sys2Proof.Machine.execWatchdogExpiry launch s
  | .watchVerdict w entry strike => Sys2Proof.Machine.execWatchVerdict w entry strike s
  | .firstTouchFill n => Sys2Proof.Machine.execFirstTouchFill n s
  | .frameReturn n => Sys2Proof.Machine.execFrameReturn n s
  | .engineQueueAccept cmd => Sys2Proof.Machine.execEngineQueueAccept cmd s
  | .cpyExecution cmd => Sys2Proof.Machine.execCpyExecution cmd s
  | .lxfExecution cmd => Sys2Proof.Machine.execLxfExecution cmd s
  | .pubStamp cmd => Sys2Proof.Machine.execPubStamp cmd s
  | .vretRetire cmd => Sys2Proof.Machine.execVretRetire cmd s
  | .hxcExecution cmd => Sys2Proof.Machine.execHxcExecution cmd s
  | .aredExecution cmd => Sys2Proof.Machine.execAredExecution cmd s
  | .aredLimitExpiry cmd => Sys2Proof.Machine.execAredLimitExpiry cmd s
  | .ckpDrain cmd => Sys2Proof.Machine.execCkpDrain cmd s
  | .ckpLoad cmd => Sys2Proof.Machine.execCkpLoad cmd s
  | .ckpRevert cmd => Sys2Proof.Machine.execCkpRevert cmd s
  | .splatQueueAccept unit => Sys2Proof.Machine.execSplatQueueAccept unit s
  | .splatParameterSet unit => Sys2Proof.Machine.execSplatParameterSet unit s
  | .projection unit => Sys2Proof.Machine.execProjection unit s
  | .binning unit => Sys2Proof.Machine.execBinning unit s
  | .tileSort unit => Sys2Proof.Machine.execTileSort unit s
  | .blend unit => Sys2Proof.Machine.execBlend unit s
  | .gradientGather unit => Sys2Proof.Machine.execGradientGather unit s
  | .weightLoadAccept core => Sys2Proof.Machine.execWeightLoadAccept core s
  | .formatLatch core => Sys2Proof.Machine.execFormatLatch core s
  | .bankSwap core => Sys2Proof.Machine.execBankSwap core s
  | .matrixOperation core => Sys2Proof.Machine.execMatrixOperation core s
  | .mmacPart core => Sys2Proof.Machine.execMmacPart core s
  | .mmzWrite core => Sys2Proof.Machine.execMmzWrite core s
  | .bringupStageComplete r => Sys2Proof.Machine.execBringupStageComplete r s
  | .atomicRightHandover ctx page m => Sys2Proof.Machine.execAtomicRightHandover ctx page m s
  | .atomicWindowEnd ctx p => Sys2Proof.Machine.execAtomicWindowEnd ctx p s
  | .doorbell ctx addr => Sys2Proof.Machine.execDoorbell ctx addr s
  | .graphAcceptance ctx => Sys2Proof.Machine.execGraphAcceptance ctx s
  | .nodeStart graph node => Sys2Proof.Machine.execNodeStart graph node s
  | .nodeCompletion graph node => Sys2Proof.Machine.execNodeCompletion graph node s
  | .timedNodeExpiry graph node => Sys2Proof.Machine.execTimedNodeExpiry graph node s
  | .preempt c => Sys2Proof.Machine.execPreempt c s
  | .contextSave ctx => Sys2Proof.Machine.execContextSave ctx s
  | .restore c => Sys2Proof.Machine.execRestore c s
  | .resume c => Sys2Proof.Machine.execResume c s
  | .free c => Sys2Proof.Machine.execFree c s
  | .revocation ctx base length => Sys2Proof.Machine.execRevocation ctx base length s
  | .errorBitClear ctx mask => Sys2Proof.Machine.execErrorBitClear ctx mask s
  | .poolOverflowClear ctx => Sys2Proof.Machine.execPoolOverflowClear ctx s
  | .walkerFaultClear ctx => Sys2Proof.Machine.execWalkerFaultClear ctx s
  | .registerWrite at_ data => Sys2Proof.Machine.execRegisterWrite at_ data s
  | .bar4Access pa acc => Sys2Proof.Machine.execBar4Access pa acc s
  | .fabricLoadRequest r => Sys2Proof.Machine.execFabricLoadRequest r s
  | .fabricStoreRequest r data => Sys2Proof.Machine.execFabricStoreRequest r data s
  | .fabricAtomicRequest r a => Sys2Proof.Machine.execFabricAtomicRequest r a s
  | .versionTaggedStore r data tag => Sys2Proof.Machine.execVersionTaggedStore r data tag s
  | .watchVerdictRequest r seq => Sys2Proof.Machine.execWatchVerdictRequest r seq s
  | .collectiveMessage m => Sys2Proof.Machine.execCollectiveMessage m s
  | .fabricReply txn r => Sys2Proof.Machine.execFabricReply txn r s
  | .allowanceGrant dest units => Sys2Proof.Machine.execAllowanceGrant dest units s
  | .fabricUnitReceive port descriptor body => Sys2Proof.Machine.execFabricUnitReceive port descriptor body s
  | .linkKeyRollover port outbound key => Sys2Proof.Machine.execLinkKeyRollover port outbound key s
  | .linkRetrainStart peer port => Sys2Proof.Machine.execLinkRetrainStart peer port s
  | .linkRetrainComplete peer link => Sys2Proof.Machine.execLinkRetrainComplete peer link s
  | .retrainTimeout peer port => Sys2Proof.Machine.execRetrainTimeout peer port s
  | .peerLostReport peer => Sys2Proof.Machine.execPeerLostReport peer s
  | .timebaseSync offset => Sys2Proof.Machine.execTimebaseSync offset s
  | .timeMessage src offset => Sys2Proof.Machine.execTimeMessage src offset s
  | .fundamentalReset signatureGood => Sys2Proof.Machine.execFundamentalReset signatureGood s
  | .functionLevelReset => Sys2Proof.Machine.execFunctionLevelReset s
  | .powerHold watts => Sys2Proof.Machine.execPowerHold watts s
  | .thermalHold junctions => Sys2Proof.Machine.execThermalHold junctions s
  | .thermalTrip celsius => Sys2Proof.Machine.execThermalTrip celsius s
  | .telemetry => Sys2Proof.Machine.execTelemetry s
  | .powerCap watts => Sys2Proof.Machine.execPowerCap watts s
  | .attest nonce => Sys2Proof.Machine.execAttest nonce s
  | .linkKey port outbound key => Sys2Proof.Machine.execLinkKey port outbound key s
  | .stageFirmware image => Sys2Proof.Machine.execStageFirmware image s

end Sys2Proof.Machine
end

