-- ==== Sys2Proof/Machine/Schedule.lean ====
section
/-! DEFINITION. The default scheduler (log 3): which event comes next when the tape names none. Each part names an event
that is enabled, if it has one; what comes from outside the device comes from the tape alone. -/

namespace Sys2Proof.Machine

/-- Every lane. -/
def allLanes : BitVec 64 := BitVec.allOnes 64

/-- Whether some lane of an access may be performed on this device now. -/
def Dev.performable (d : Dev) (a : Access) : Bool := a.lanes.any (d.partReady a)

/-- The event that an access in flight is ready for. -/
def Dev.accessEvent (d : Dev) (a : Access) : Option Instr :=
  let late := some (.longLatencyCompletion a.op (.whole allLanes))
  let done := some (.accessPerformed a.op 64)
  match a.kind with
  | .load | .ldr => if !a.results.isEmpty || d.performable a then late else none
  | .atomic _ | .stcn => if !a.results.isEmpty then late else if d.performable a then done else none
  | .compute => late
  | .ldgs => if d.performable a then done else if a.flag.isSome then late else none
  | .store | .stsg | .cond _ => if d.performable a then done else none
  | _ => none

/-- Bring-up goes on while no stage has failed. -/
def bringupNext (s : State) : Option Instr :=
  let p := s.dev.platform
  if 1 ≤ p.state ∧ p.state < 6 ∧ p.code = 0 then some (.bringupStageComplete .done) else none

/-- The oldest access that is ready, or a counter that may fall. -/
def accessNext (s : State) : Option Instr :=
  (s.dev.inflight.findSome? s.dev.accessEvent).or
    (s.dev.allGroups.findSome? (fun g => ((List.range 4).find? (fun n => match g.counters.getD n [] with
      | (_, true) :: _ => true
      | _ => false)).map (fun n => .counterDecrement g.launch g.index n)))

/-- A verdict on an entry of this device's own lines. -/
def verdictNext (s : State) : Option Instr :=
  s.dev.waves.findSome? (fun w => (((s.waveNow w.id).map Wave.watch).getD []).findIdx?
    (fun e => e.state == .pending && !e.fabric) |>.map (fun i => .watchVerdict w.id i false))

/-- A fill, or a frame that may go back to its list. -/
def fillNext (s : State) : Option Instr :=
  if !s.dev.fills.isEmpty then some (.firstTouchFill 0)
  else (s.dev.returns.findIdx? s.returnReady).map .frameReturn

/-- R46. All the elements of D. -/
def wholeD (core : Nat) : DPart := ⟨core, BitVec.allOnes 16, allLanes⟩

/-- The event of the head of a matrix queue. -/
def State.matrixEvent (s : State) (core : Nat) (m : MatrixOp) : Option Instr :=
  match m with
  | .wld op id _ _ _ kept =>
    if kept.isSome || s.dev.scratchSettled id op then some (.weightLoadAccept core) else none
  | .wfmt _ _ _ _ => some (.formatLatch core)
  | .wswp _ _ => some (.bankSwap core)
  | .mma _ part _ _ _ _ _ _ =>
    if s.dev.dFree m then some (if part then .mmacPart (wholeD core) else .matrixOperation (wholeD core)) else none
  | .mmz _ _ _ _ => if s.dev.dFree m then some (.mmzWrite (wholeD core)) else none
  | .results _ .mma _ _ _ => some (.matrixOperation (wholeD core))
  | .results _ .part _ _ _ => some (.mmacPart (wholeD core))
  | .results _ .zero _ _ _ => some (.mmzWrite (wholeD core))

/-- The head of some matrix queue. -/
def matrixNext (s : State) : Option Instr :=
  s.dev.cores.findSome? (fun c => match c.queue with
    | m :: _ => s.matrixEvent c.index m
    | [] => none)

/-- An event of a unit, if it may end in a fault now, or if it goes on without one: a fault waits until the wave that it halts
stands at a boundary. -/
def State.ifActs (s : State) (w : Option WaveId) (i : Instr) : Option Instr :=
  let stops : Bool := match w with | some w => s.unitCanStop w | none => true
  let moves : Bool := match exec i s with
    | .next t => t.dev.units != s.dev.units || t.dev.cmds != s.dev.cmds
    | _ => false
  if stops || moves then some i else none

/-- The event of the head of a splat unit's queue. -/
def State.splatEvent (s : State) (u : Nat) (o : SplatOp) : Option Instr :=
  if (s.splatHead u o.opcode).isNone then none
  else (match o.opcode with
    | 0xE0 => some (Instr.splatParameterSet u)
    | 0xE1 => some (.projection u)
    | 0xE2 => some (.binning u)
    | 0xE3 => some (.tileSort u)
    | 0xE4 => some (.blend u)
    | 0xE5 => some (.gradientGather u)
    | _ => none).bind (s.ifActs (some o.w))

/-- A splat queue that accepts, or that runs its head. -/
def splatNext (s : State) : Option Instr :=
  s.dev.units.findSome? (fun u =>
    match u.queue.find? (fun o => !o.accepted) with
    | some o =>
      if (u.queue.filter SplatOp.accepted).length < 32 ∧ s.dev.scratchSettled o.w o.op then some (.splatQueueAccept u.index)
      else u.queue.head?.bind (s.splatEvent u.index)
    | none => u.queue.head?.bind (s.splatEvent u.index))

/-- Whether a command that may run has something to do now: it waits for no other device, write or entry. -/
def State.cmdActs (s : State) (c : EngineCmd) : Option Instr :=
  if c.reject.isSome then
    (match c.opcode with
    | 0xE8 => some (.cpyExecution c.id)
    | 0xE9 => some (.lxfExecution c.id)
    | 0xEA => some (.hxcExecution c.id)
    | 0xEB => some (.aredExecution c.id)
    | 0xEC => some (.pubStamp c.id)
    | 0xED => some (.vretRetire c.id)
    | _ => some (.ckpDrain c.id))
  else if s.dev.storing c.id then none
  else match c.opcode with
    | 0xE8 => some (.cpyExecution c.id)
    | 0xE9 => some (.lxfExecution c.id)
    | 0xEA => if s.dev.txns.any (fun t => t.op == c.id) then none else some (.hxcExecution c.id)
    | 0xEB =>
      let x := AredCmd.of c.command
      let others := (c.list.map BitVec.toNat).filter (· ≠ s.dev.devId)
      let got := others.map (s.dev.contribution c x)
      let earlier := (s.dev.cmds.takeWhile (fun y => y.id != c.id)).any (fun y =>
        y.opcode == 0xEB && y.ctx == c.ctx && (AredCmd.of y.command).id == x.id)
      let differs := (got.filterMap Prod.fst).any (fun m => m.digest != x.digest (c.list.map BitVec.toNat))
      let noted := got.any (fun r => !r.2.isEmpty) || !(s.dev.ownNotes c x).isEmpty
      let down := others.any (fun p => (s.dev.contribution c x p).1.isNone && s.dev.isDown p)
      if c.phase = 0 ∨ (!earlier && (!c.log.isEmpty || differs || noted || down || got.all (fun r => r.1.isSome))) then some (.aredExecution c.id)
      else if (s.aredMissing c).isEmpty then none else some (.aredLimitExpiry c.id)
    | 0xEC =>
      if s.writesPending c.ctx (pagesOf (cmdField c.command 0 7) (cmdField c.command 8 15)) then none else some (.pubStamp c.id)
    | 0xED =>
      if s.dev.vretWaits c.ctx (cmdField c.command 16 18) (pagesOf (cmdField c.command 0 7) (cmdField c.command 8 15)) then none
      else some (.vretRetire c.id)
    | _ =>
      match (CkpCmd.of c.command).op with
      | 0 => some (.ckpDrain c.id)
      | 1 => some (.ckpLoad c.id)
      | _ => some (.ckpRevert c.id)

/-- A command that its queue accepts, or that may run. -/
def engineNext (s : State) : Option Instr :=
  s.dev.cmds.findSome? (fun c =>
    let q := s.dev.cmdQueue c
    if !c.accepted then
      if (q.filter EngineCmd.accepted).length < 16 ∧ (q.find? (fun x => !x.accepted)).map EngineCmd.id = some c.id then
        some (.engineQueueAccept c.id)
      else none
    else if s.dev.cmdReady c then (s.cmdActs c).bind (s.ifActs c.w)
    else none)

/-- R292, R296. Whether a ready node would start now: a copy node has room in the lock table, and a deterministic launch
is refused or finds room for all its clusters. -/
def State.nodeStarts (s : State) (g : Graph) (n : Node) : Bool :=
  s.dev.nodeMayStart g n && s.dev.platform.state == 6 &&
    (match n.kind with
     | 0 =>
       let t := (s.mapDev (fun d => { d with walkerWaits := [] })).walkRead g.ctx (g.nodesAt + 128 * n.index) 64
       let r := LaunchRecord.of t.2
       !t.1.dev.walkerWaits.isEmpty || r.invalid (recordReserved t.2) || !r.det || (t.1.detStart g n r).isSome
     | 1 => decide ((s.dev.locks.filter (fun e => e.die == 0)).length + 3 ≤ 64)
     | _ => true)

/-- Whether a node that runs completes now, or delivers early. -/
def State.nodeEnds (s : State) (g : Graph) (n : Node) : Bool :=
  match n.kind, n.status with
  | 0, .running =>
    (match s.dev.launches.find? (fun l => l.graph == g.id && l.node == n.index) with
    | none => false
    | some l => l.halted || s.dev.launchDone l || (s.dev.launchTriggered l &&
        (List.range 8).any (fun i => entryBit n.early i && !n.counted.contains i && (n.succ.getD i none).isSome)))
  | 1, .running => !(s.dev.cmds.any (fun c => c.node == some (g.id, n.index)))
  | 1, .stopping => true
  | 3, .running =>
    g.stopped.isNone && (match s.dev.ctx? g.ctx with | some c => c.state == 1 && c.saving.isNone | none => false) &&
      g.nodes.all (fun m => !n.inBody m.index || m.status.finished ||
        (m.status == .idle && g.nodes.any (fun x => x.index != n.index && x.inBody m.index && n.inBody x.index)))
  | _, _ => false

/-- The walker: a node that completes, a time that has come, a node that starts, or a graph that is accepted. A walker that
waits for a right does nothing. -/
def walkerNext (s : State) : Option Instr :=
  (s.dev.graphs.findSome? (fun g => if !s.dev.walkerFree then none else g.nodes.findSome? (fun n =>
    if s.nodeEnds g n then some (.nodeCompletion g.id n.index)
    else if n.kind = 5 ∧ n.status = .running ∧
        leNat (s.walkRead g.ctx (g.nodesAt + 128 * n.index) 8).2 ≤ s.dev.now.toNat then some (.timedNodeExpiry g.id n.index)
    else if s.nodeStarts g n then some (.nodeStart g.id n.index)
    else none))).or
  (s.dev.ctxs.findSome? (fun c => match s.dev.enqOf c.index with
    | some (a, _, l) =>
      if (s.dev.rangeRW c.index l.va.toNat 64).isSome then (if s.unitCanStop a.w then some (.graphAcceptance c.index) else none)
      else if s.dev.openGraphs c.index < 64 ∧ s.dev.walkerFree then some (.graphAcceptance c.index) else none
    | none => none))

/-- A cluster that may be placed, a launch whose budget is used up, or a context whose save is due. -/
def launchNext (s : State) : Option Instr :=
  ((s.dev.launches.find? (fun l => decide (l.budget ≤ l.used) && !l.halted && (match s.dev.watchdogWave l.id with
      | some w => (s.issueOf w.id).isNone
      | none => true))).map (fun l => .watchdogExpiry l.id)).or
  ((s.dev.launches.findSome? (fun l => match s.dev.ctx? l.ctx with
    | some c => if s.dev.mayPlace l then
        ((List.range 64).find? (fun hw => (s.dev.placeOn c l hw).isSome)).map (.groupPlacement l.id ·) else none
    | none => none)).or
  ((s.dev.ctxs.find? (fun c => c.saving.isSome &&
      ((s.dev.clustersOf c.index).any (s.restsOn c.index) || s.saveReady c.index))).map (fun c => .contextSave c.index)))

/-- A path that is to give way, or a clock that may become known. -/
def waveNext (s : State) : Option Instr :=
  s.dev.waves.findSome? (fun w =>
    if s.dev.det w.id then
      if s.dev.knownClock w.id ≠ w.retired.toNat ∧ !s.syncPending w.id then some (.isobarMinimumUpdate w.id)
      else if s.dev.givesWay w then some (.detPathSwitch w.id)
      else none
    else if s.dev.ages w then some (.ageingSwitch w.id)
    else none)

/-- R308, R309. The atomic rights: one that arrives at its new owner, or a window that ends here or at this device's own
pages. A right comes home, or to this device, only from outside. -/
def rightNext (s : State) : Option Instr :=
  (s.dev.rights.findSome? (fun r =>
    if r.handing && r.owner.isSome then some (.atomicRightHandover r.ctx r.page .away)
    else if 64 ≤ r.window.length ∧ r.owner.isNone ∧ !r.handing ∧ (s.dev.pagePlace r.ctx r.page).isSome then
      some (.atomicWindowEnd r.ctx (.own r.page))
    else none)).or
  ((s.dev.owned.find? (fun o => decide (64 ≤ o.window.length))).map (fun o => .atomicWindowEnd o.ctx (.of o.peer o.page)))

/-- R287. Whether a bay that selects now takes a wave: what it has selected last then stands before an entry of no bay. -/
def State.bayTakes (s : State) (dom : Nat) : Bool :=
  let noBay := (2 ^ 32, 0)
  match execClauseIssue dom (s.mapDev (fun d => { d with rotation := noBay :: d.rotation })) with
  | .next t => t.dev.rotation.head? != some noBay
  | _ => false

/-- R287, R288. A bay that selects: of those that take a wave, the one whose last turn lies back furthest. -/
def bayNext (s : State) : Instr :=
  let doms := ((s.dev.waves.filter (fun w => s.mayStart w)).map Wave.dom).eraseDups
  let served := (s.dev.rotation.map Prod.fst).reverse
  let inTurn := doms.filter (fun d => !served.contains d) ++ served.filter doms.contains
  .clauseIssue ((inTurn.find? s.bayTakes).getD (doms.getD (s.free % doms.length) 0))

/-- The first event that one of some parts names. -/
def firstNamed (s : State) : List (State → Option Instr) → Option Instr
  | [] => none
  | f :: r =>
    match f s with
    | some i => some i
    | none => firstNamed s r

/-- The event that comes next by default. -/
def nextEvent (s : State) : Instr :=
  (firstNamed s [bringupNext, accessNext, verdictNext, fillNext, rightNext, matrixNext, splatNext, engineNext, walkerNext,
    launchNext, waveNext]).getD (bayNext s)

/-- R298, R411. A context with its HBM traffic and its share of module power as they are measured now (log 71). -/
def Context.measured (k : Nat) (c : Context) : Context :=
  { c with hbmUse := Config.hbmDemand k c.index, powerUse := Config.powerDemand k c.index }

/-- R334. The revocations whose older accesses are all performed end, and what waited for them goes on. -/
def State.endRevocations (s : State) : State :=
  if s.dev.revoking.all s.agedLeft then s
  else (s.mapDev (fun d => { d with revoking := d.revoking.filter s.agedLeft })).rightMoved

/-- R3, R283, R298, R334, R365. Time passes with a step, contexts are measured, a soft error may strike while no clause is in
execution (log 70), and revocations come to their end; a tripped device has no clock (R412). -/
def State.advance (s : State) : State :=
  let (k, s) := s.draw
  if s.dev.platform.tripped then s
  else
    let s := s.mapDev (fun d => { d with
      timebase := d.timebase + BitVec.ofNat 64 (Config.tick k), clock := d.clock + BitVec.ofNat 64 (Config.clocks k)
      ctxs := d.ctxs.map (Context.measured k) })
    let s := if s.issue.isNone ∧ s.held.isEmpty then s.upset (Config.upset k) else s
    s.endRevocations

/-- What an event of the tape comes over: the PCI Express link, the management controller, the reset pin, or the device. -/
inductive Source where
  | host
  | management
  | reset
  | device
  deriving DecidableEq, Repr

/-- R407, R413. The source of an event. -/
def sourceOf (i : Instr) : Source :=
  match i with
  | .functionLevelReset | .registerWrite _ _ | .revocation _ _ _ | .errorBitClear _ _ | .poolOverflowClear _
  | .walkerFaultClear _ | .bar4Access _ _ | .doorbell _ _ | .preempt _ | .restore _ | .resume _ | .free _ => .host
  | .telemetry | .powerCap _ | .attest _ | .linkKey _ _ _ | .stageFirmware _ => .management
  | .fundamentalReset _ => .reset
  | _ => .device

/-- R412. Whether an event of the tape reaches the device: one of the host needs the link, and a device that has tripped has
no clock for what is not the management controller's or a reset (log 80). -/
def State.reaches (s : State) (i : Instr) : Bool :=
  match sourceOf i with
  | .host => s.dev.platform.linkUp
  | .device => !s.dev.platform.tripped
  | .management | .reset => true

/-- The clause that holds and can go on becomes the clause in execution. -/
def State.resumeHeld (s : State) : Option State :=
  match s.held.findIdx? s.canResume with
  | none => none
  | some i => some { s with
      issue := s.held[i]?.map (fun c => c.setPth c.pth.unparked), held := s.held.eraseIdx i }

end Sys2Proof.Machine
end

