-- ==== Sys2Proof/Machine/Ahead.lean ====
section
/-! DEFINITION. The instructions of the clause in execution (R43, R47): the next one and what it meets before it acts (R44,
R365), the checks of a whole clause before anything of it is performed (R49), and what a step does. -/

namespace Sys2Proof.Machine

/-- R44, R365. The next instruction of the clause, decoded from its words, with the words that are left; or the stop that it
meets before it acts: a word that is no instruction, or a register whose data is lost. -/
def State.nextInstr (s : State) (c : Issue) : Except Stop (Instr × List W32) :=
  match decodeInstr c.words with
  | .error e => .error (.fault e.faultCode.1 e.faultCode.2 0 0)
  | .ok (i, rest) =>
    match c.regLoss s.dev i with
    | some e => .error e
    | none => .ok (i, rest)

/-- R49, R365. The clause after one of its instructions: the words that are left, and the failing granules of registers that
the instruction has written. -/
def State.dropWords (s : State) (c : Issue) (i : Instr) (rest : List W32) : State :=
  { s with issue := s.issue.map (fun x => { x with words := rest, covered := x.covered ++ c.coverRegs i s.dev.failing }) }

/-- R49. Runs the instructions of the clause in execution for its checks, to its end or to the first that stops it. -/
def State.runAhead : Nat → State → State
  | 0, s => s
  | fuel + 1, s =>
    match s.issue with
    | none => s
    | some c =>
      if c.words.isEmpty then s
      else match s.nextInstr c with
        | .error e => s.abandon c e
        | .ok (i, rest) =>
          match exec i s with
          | .next t => State.runAhead fuel (t.dropWords c i rest)
          | _ => s

/-- R217. The range-lock entries that a clause has registered, by die. -/
def Dev.entriesOf (d : Dev) (c : Issue) : List (Nat × Nat) :=
  (List.range 4).map (fun die =>
    (die, (d.locks.filter (fun e => e.die == die && c.commands.contains e.owner)).length))

/-- R242. Whether the checks of a wave's clause hold it, at a release whose entries are still to be decided. -/
def State.holdsInChecks (s : State) (id : WaveId) : Bool := s.held.any (fun c => c.wave.id == id && c.phase == .checking)

/-- R163, R166. The core whose matrix queue the clause uses while the started clause of another wave uses it too. -/
def State.queueTaken (s : State) (c : Issue) : Option Nat := c.matrixCores.find? (s.queueHeld c.wave.id)

/-- R39, R49, R163, R217, R242, R312. The checks of a whole clause that waits, or takes something, between its instructions (log
14). It is abandoned with what stops it, or holds, with nothing performed, at a release; or it starts: it has paid its charges,
keeps its lock entries free and its matrix queues, and its accesses are not checked again. What the checks have done to the
device stays (R260). -/
def State.checkAhead (s : State) (c : Issue) : State :=
  let t := State.runAhead 64 { s with issue := some { c with phase := .checking } }
  match t.issue with
  | none => if t.holdsInChecks c.wave.id then ({ s with issue := none } : State).holdClause c else t
  | some x =>
    let done := t.undoClause x
    match s.queueTaken x with
    | some core => t.abandon x (.notReady (.queue core))
    | none =>
      let paid := x.dests.map (fun dest => (dest, x.charged dest))
      let resv := ((done.dev.wave? c.wave.id).map Wave.resv).getD c.wave.resv
      (done.mapDev (fun d => paid.foldl (fun d p => d.spend p.1 p.2) d)).startClause
        { c with
          wave := { c.wave with resv := resv }, phase := .running, paid := paid, room := t.dev.entriesOf x
          queues := x.matrixCores, checked := x.checked }

/-- R36. Whether a path of a wave is ready as its other path starts a clause, where the checks of its own whole clause decide
it: they park a path that is not. -/
def State.rivalReady (s : State) (w : Wave) (p : Nat) : Bool :=
  match s.startOf w p with
  | .runs c =>
    let t := State.runAhead 64 { s with issue := some { c with phase := .checking } }
    match t.issue, t.dev.wave? w.id with
    | some x, _ => (s.queueTaken x).isNone
    | none, some w => (w.path p).park == .none
    | none, none => true
  | x => x.ready

/-- R36. The ageing of the other path is settled: it rises where that path was ready. -/
def State.settleRival (s : State) (c : Issue) : State :=
  let p := 1 - c.path
  let o := c.wave.path p
  let w := if s.rivalReady c.wave p then c.wave.setPath p { o with ageing := o.ageing + 1 } else c.wave
  let c : Issue := { c with wave := w, rival := false }
  if c.phase = .running then s.startClause c else { s with issue := some c }

/-- R43, R47, R49. One step of the clause in execution: the checks of the whole clause, where it needs them first; its next
instruction; or its end. -/
def stepClause (s : State) (c : Issue) : Host.Outcome State Fault Refusal :=
  if c.rival then .next (s.settleRival c)
  else if c.phase = .unchecked then .next (s.checkAhead c)
  else if c.words.isEmpty then .next (s.finishClause c)
  else match s.nextInstr c with
    | .error e => .next (s.abandon c e)
    | .ok (i, rest) =>
      match exec i s with
      | .next s' => .next (s'.dropWords c i rest)
      | .fault r => .fault r
      | .refused r => .refused r

/-- What a step does once its time has passed: the head of the tape, or the clause in execution, or a clause that can go on,
or the event that the default scheduler names. An instruction on the tape is no event and is dropped, as it acts only as part
of a clause; an event that does not reach the device is dropped too. -/
def State.proceed (s : State) : Host.Outcome State Fault Refusal :=
  match s.tape with
  | i :: rest =>
    let s := { s with tape := rest }
    if i.hasWord || !s.reaches i then .next s else exec i s
  | [] =>
    match s.issue with
    | some c => stepClause s c
    | none =>
      match s.resumeHeld with
      | some s => .next s
      | none => exec (nextEvent s) s

end Sys2Proof.Machine
end

