-- ==== Sys2Proof/Machine/Step.lean ====
section
/-! DEFINITION. One step, and where a test places an instruction. -/

namespace Sys2Proof.Machine

/-- One step: time passes, and the device goes on. -/
def step (s : State) : Host.Outcome State Fault Refusal := s.advance.proceed

/-- A state with an instruction where `step` takes its next one: the words of a clause of the first wave, or of a wave
of 16 lanes where there is none (log 17). -/
def State.withFetchWord (s : State) (nbits w : Nat) : State :=
  { s with tape := [], issue := some (s.fetchClause (wordsOfBytes (tableBytes nbits w))) }

end Sys2Proof.Machine
end

