-- ==== Sys2Proof/Safety.lean ====
section
/-! DEFINITION. What counts as a safe run: the machine takes a step, and every memory that it holds
is in its canonical form; and the terms in which claims about one instruction are made: the registers that a destination
names, what a write of results leaves, slot by slot values, and the forms of statements about families of
instructions. -/

namespace Sys2Proof.Machine

/-- The memories of the device: the three tiers, the constant sections and those of launches, the scratchpads, the
private spaces of waves and of saved waves, the banks of the matrix arrays, what has been written of contexts that are being
saved, and the pages of other devices whose right is here. -/
def Dev.memories (d : Dev) : List Memory :=
  [d.hbm, d.lpddr, d.host] ++ d.consts.map ConstSection.bytes ++
    d.saves.flatMap (fun x => x.waves.map SavedWave.priv) ++ d.launches.map Launch.const ++
    d.groups.map Group.scratch ++ d.waves.map Wave.priv ++ d.cores.map Core.bank0 ++ d.cores.map Core.bank1 ++
    d.parts.flatMap (fun p => p.groups.map Group.scratch ++ p.waves.map Wave.priv ++ p.cores.map Core.bank0 ++
      p.cores.map Core.bank1) ++ d.owned.map OwnedPage.words

/-- The clauses in execution: the one that issues, and those that hold. -/
def State.clauses (s : State) : List Issue := s.issue.toList ++ s.held

/-- Every memory of the state, with those of the working copies of waves. -/
def State.memories (s : State) : List Memory := s.dev.memories ++ s.clauses.map (fun c => c.wave.priv)

/-- Every memory is in the canonical form: addresses strictly rising, and no cell equal to what an unlisted address
reads as. -/
def State.canonical (s : State) : Prop := ∀ m ∈ s.memories, m.wf = true

/-- R266, R274. A wave within its stacks: at most 16 divergence entries, and at most four loop entries on a path and in an
entry. -/
def Wave.bounded (w : Wave) : Prop :=
  w.div.length ≤ 16 ∧ w.path0.loops.length ≤ 4 ∧ w.path1.loops.length ≤ 4 ∧ ∀ e ∈ w.div, e.loops.length ≤ 4

/-- R217, R253, R266, R274. A state within the bounds of the machine's tables: the stacks of every wave, the 64 entries of each
die's range-lock table, and the 16 places of each engine's class queues, for which a command that its clause has not sent yet
takes none. -/
def State.bounded (s : State) : Prop :=
  (∀ w ∈ s.dev.waves ++ s.dev.parts.flatMap SavePart.waves ++ s.clauses.map Issue.wave, w.bounded) ∧
  (∀ die, (s.dev.locks.filter (fun e => e.die == die)).length ≤ 64) ∧
  (∀ c ∈ s.dev.cmds, ((s.dev.cmdQueue c).filter EngineCmd.accepted).length ≤ 16) ∧
  ∀ c ∈ s.clauses, ∀ e ∈ c.effects, ∀ x, e = .engine x → x.accepted = false

/-- A state from which the machine takes a step: no fault and no refusal. -/
def State.goesOn (s : State) : Prop := ∃ t, step s = .next t

/-- A destination that the wave has: its register, and the next for a pair, in rows of the wave's width (R51). -/
def Issue.hasDst (c : Issue) (wide : Bool) (d : Operand) : Prop :=
  match d with
  | .v n => n + wide.toNat < c.wave.v.length ∧ ∀ r ∈ c.wave.v, r.length = c.wave.width
  | .x n => n + wide.toNat < c.temps.length ∧ ∀ r ∈ c.temps, r.length = c.wave.width
  | .k n => n < c.wave.k.length
  | _ => False

/-- Register rows that differ from others only in register n, and n + 1 for a pair, where the lanes of a mask hold new
values. -/
def wroteRows (width : Nat) (old new : List (List W32)) (wide : Bool) (n : Nat) (lanes : Lanes) (f : Nat → Nat) : Prop :=
  new.length = old.length ∧
  (∀ m, m ≠ n → (wide = true → m ≠ n + 1) → new.getD m [] = old.getD m []) ∧
  ∀ l, l < width → rowsRead new wide n l =
    if lanes.getLsbD l then f l % 2 ^ (if wide then 64 else 32) else rowsRead old wide n l

/-- R7, R55. A clause after one more instruction has retired that wrote values to a destination: in the lanes of a mask
of a v or x register, or once to a k register, where a 32-bit value is extended by its sign or by zeros. Everything else
of the clause, but for the sticky flags, is as before. -/
def Issue.put (c c' : Issue) (d : Operand) (wide signed : Bool) (lanes : Lanes) (f : Nat → Nat) (fl : FpFlags) : Prop :=
  c' = { c with
    wave := { c.wave with
      v := c'.wave.v, k := c'.wave.k, fpflags := c.wave.fpflags ||| fl, retired := c.wave.retired + 1 }
    temps := c'.temps } ∧
  match d with
  | .v n => c'.wave.k = c.wave.k ∧ c'.temps = c.temps ∧ wroteRows c.wave.width c.wave.v c'.wave.v wide n lanes f
  | .x n => c'.wave.k = c.wave.k ∧ c'.wave.v = c.wave.v ∧ wroteRows c.wave.width c.temps c'.temps wide n lanes f
  | .k n => c'.wave.v = c.wave.v ∧ c'.temps = c.temps ∧
      c'.wave.k = c.wave.k.set n (scalarBits wide signed (BitVec.ofNat 64 (f 0)))
  | _ => False

/-- R94. The sticky flags that an instruction sets: those of the one computation of a k destination, or those of the
active lanes that are real. -/
def Issue.flagsAre (c : Issue) (d : Operand) (f : Nat → Nat × FpFlags) (fl : FpFlags) : Prop :=
  ∀ b, fl.getLsbD b = true ↔
    match d with
    | .k _ => (f 0).2.getLsbD b = true
    | _ => ∃ l, l < c.wave.width ∧ c.active.getLsbD l = true ∧ c.wave.real.getLsbD l = true ∧ (f l).2.getLsbD b = true

/-- R7, R55, R94. An arithmetic instruction has retired: the results of a computation stand in its destination and its
flags are sticky. -/
def Issue.wroteAs (c c' : Issue) (d : Operand) (wide signed : Bool) (f : Nat → Nat × FpFlags) : Prop :=
  ∃ fl, c.flagsAre d f fl ∧ c.put c' d wide signed c.active (fun l => (f l).1) fl

/-- R55, R57. The same for results of the mode's type. -/
def Issue.wrote (c c' : Issue) (d : Operand) (wide : Bool) (f : Nat → Nat × FpFlags) : Prop :=
  c.wroteAs c' d wide c.ty.signed f

/-- R83, R110. An element whose slots are the values of a function, the bits above the slots zero, with the flags of
all slots. -/
def slotwise (t : EType) (x : Nat × FpFlags) (g : Nat → Nat × FpFlags) : Prop :=
  x.1 < 2 ^ (t.bits * t.slots) ∧ (∀ j, j < t.slots → slotOf t x.1 j = (g j).1 % 2 ^ t.bits) ∧
  ∀ b, x.2.getLsbD b = true ↔ ∃ j, j < t.slots ∧ (g j).2.getLsbD b = true

end Sys2Proof.Machine

namespace Sys2Proof.Spec

open Sys2Proof.Machine

/-- The number of n bits whose bit i is a predicate of i. -/
def bitsWhere (n : Nat) (p : Nat → Bool) : Nat := ((List.range n).map (fun i => if p i then 2 ^ i else 0)).sum

/-- R110. An instruction whose type the mode does not select ends its clause with an illegal-instruction fault, code
0x05. -/
def refusesType (ok : EType → Bool) (i : Instr) : Prop :=
  ∀ s c, s.issue = some c → ok c.ty = false → exec i s = .next (s.abandon c (.fault 1 0x05 0 0))

/-- An instruction that computes a value for each lane, of the types that `ok` names: the clause goes on with the values
in its destination, a v, x or k register, and nothing else changes. -/
def lanewise (ok : EType → Bool) (wide : Issue → Bool) (mk : Operand → Instr) (f : Issue → Nat → Nat × FpFlags) : Prop :=
  ∀ d, refusesType ok (mk d) ∧ ∀ s c, s.issue = some c → ok c.ty = true → c.hasDst (wide c) d →
    ∃ c', exec (mk d) s = .next { s with issue := some c' } ∧ c.wrote c' d (wide c) (f c)

/-- An instruction that computes a value of another type for each lane. -/
def lanewiseAs (ok : EType → Bool) (dst : Issue → EType) (mk : Operand → Instr) (f : Issue → Nat → Nat × FpFlags) : Prop :=
  ∀ d, refusesType ok (mk d) ∧ ∀ s c, s.issue = some c → ok c.ty = true → c.hasDst (dst c).wide d →
    ∃ c', exec (mk d) s = .next { s with issue := some c' } ∧ c.wroteAs c' d (dst c).wide (dst c).signed (f c)

/-- An instruction of one source that computes each slot of the mode's type. -/
def slotwise1 (ok : EType → Bool) (mk : Operand → Operand → Instr) (g : Issue → Nat → Nat × FpFlags) : Prop :=
  ∀ d a, refusesType ok (mk d a) ∧ ∀ s c, s.issue = some c → ok c.ty = true → c.hasDst c.ty.wide d →
    ∃ c' f, exec (mk d a) s = .next { s with issue := some c' } ∧ c.wrote c' d c.ty.wide f ∧
      ∀ l, slotwise c.ty (f l) (fun j => g c (slotOf c.ty (c.arg a l) j))

/-- An instruction of two sources that computes each slot of the mode's type. -/
def slotwise2 (ok : EType → Bool) (mk : Operand → Operand → Operand → Instr) (g : Issue → Nat → Nat → Nat × FpFlags) :
    Prop :=
  ∀ d a b, refusesType ok (mk d a b) ∧ ∀ s c, s.issue = some c → ok c.ty = true → c.hasDst c.ty.wide d →
    ∃ c' f, exec (mk d a b) s = .next { s with issue := some c' } ∧ c.wrote c' d c.ty.wide f ∧
      ∀ l, slotwise c.ty (f l) (fun j => g c (slotOf c.ty (c.arg a l) j) (slotOf c.ty (c.arg b l) j))

/-- An instruction of two sources and the old destination, in this order after it, that computes each slot. -/
def slotwise3 (ok : EType → Bool) (mk : Operand → Operand → Operand → Instr)
    (g : Issue → Nat → Nat → Nat → Nat × FpFlags) : Prop :=
  ∀ d a b, refusesType ok (mk d a b) ∧ ∀ s c, s.issue = some c → ok c.ty = true → c.hasDst c.ty.wide d →
    ∃ c' f, exec (mk d a b) s = .next { s with issue := some c' } ∧ c.wrote c' d c.ty.wide f ∧
      ∀ l, slotwise c.ty (f l) (fun j =>
        g c (slotOf c.ty (c.arg d l) j) (slotOf c.ty (c.arg a l) j) (slotOf c.ty (c.arg b l) j))

/-- R112. The integer types. -/
def ints : List EType := [.i8, .n8, .i16, .n16, .i32, .n32, .i64, .n64]
/-- R112. The types called w. -/
def words : List EType := [.i32, .n32, .i64, .n64]
/-- R116. The integer types and b32. -/
def allInts : List EType := .b32 :: ints
/-- R120. The floating types. -/
def floats : List EType := [.f64, .f32, .f16, .bf16]

/-- Whether a list names a type. -/
def among (l : List EType) (t : EType) : Bool := l.contains t

/-- The width of a result of the mode's type. -/
def modeWide (c : Issue) : Bool := c.ty.wide

/-- R112. The integer values of two slots. -/
def onInts (f : Int → Int → Int) (c : Issue) (x y : Nat) : Nat × FpFlags :=
  writeInt c.sat c.ty (f (c.ty.intVal x) (c.ty.intVal y))

/-- A slot read as a value of the mode's floating type (R87). -/
def flt (c : Issue) (x : Nat) : FVal := c.ty.ffmt.decodeFtz c.ftz x

/-- R139. The subgroup width. -/
def subWidth (c : Issue) : Nat := min (4 * 2 ^ (c.pth.mode.extractLsb' 11 3).toNat) c.wave.width
/-- R139. The base of a lane's subgroup. -/
def subBase (c : Issue) (l : Nat) : Nat := subWidth c * (l / subWidth c)
/-- R139. The lanes of a mask in a lane's subgroup, in rising order. -/
def inSubgroup (c : Issue) (m : Lanes) (l : Nat) : List Nat :=
  (List.range c.wave.width).filter (fun x => m.getLsbD x && subBase c x == subBase c l)
/-- R139. The participating lanes of a lane's subgroup. -/
def participants (c : Issue) (l : Nat) : List Nat := inSubgroup c c.active l

/-- The mask of the lanes that satisfy a predicate. -/
def lanesWhere (p : Nat → Bool) : Lanes := BitVec.ofNat 64 (bitsWhere 64 p)

/-- R141. A movement of whole elements: every participating lane receives the element of another, or zero. -/
def moves (mk : Operand → Instr) (a : Operand) (source : Issue → Nat → Option Nat) : Prop :=
  lanewise (fun _ => true) modeWide mk (fun c l =>
    (match source c l with | some x => c.arg a x | none => 0, 0))

/-- R56. A clause after one more instruction has retired that wrote the bits of the active lanes of a predicate; q15 is
not written. Everything else, but for the sticky flags, is as before. -/
def wrotePredicate (c c' : Issue) (q : Nat) (x : Nat → Bool) (fl : FpFlags) : Prop :=
  c' = { c with wave := { c.wave with
    q := c'.wave.q, fpflags := c.wave.fpflags ||| fl, retired := c.wave.retired + 1 } } ∧
  (∀ n, n ≠ q ∨ n = 15 → c'.wave.qread n = c.wave.qread n) ∧
  (q ≠ 15 → ∀ l, l < 64 → (c'.wave.qread q).getLsbD l =
    if c.active.getLsbD l then x l else (c.wave.qread q).getLsbD l)

/-- A wave with sixteen predicates to name: q0 to q14, and q15, which reads as all ones. -/
def hasPreds (c : Issue) : Prop := c.wave.q.length = 15 ∧ c.wave.width ≤ 64 ∧
  ∀ l, c.wave.width ≤ l → c.active.getLsbD l = false

/-- An instruction with which the clause goes on as `c'`, retired, and nothing outside the clause changes. -/
def goesOnAs (i : Instr) (s : State) (c' : Issue) : Prop := exec i s = .next { s with issue := some c'.retire }

/-- R67. The header at an offset in words from the clause's own header. -/
def labelAt (c : Issue) (i : BitVec 16) : W64 := BitVec.ofInt 64 (c.header.toNat + 4 * i.toInt)

/-- R269. The whole path goes on at a target, with its loop stack unwound. -/
def branchTo (c : Issue) (t : W64) : Issue := { c.setPth (c.pth.moveTo t) with next := t }

/-- The lanes of the path in which a predicate is set (R265). -/
def takenLanes (c : Issue) (q : BitVec 4) : Lanes := c.pth.mask &&& c.wave.qread q.toNat

/-- A path with nothing that would hold or stop a release of it: no pending fault and no watch entry of its lanes. -/
def releasable (c : Issue) : Prop := c.pth.pending = [] ∧ ∀ e ∈ c.wave.watch, e.lanes &&& c.pth.mask = 0

/-- The access record of an instruction of a clause: its number, path and clause, what it does in which lanes, the flag of a
long-latency one and the group counter. -/
def accessOf (s : State) (c : Issue) (kind : AccessKind) (width : Nat) (lanes : List LaneAccess) (dest : Dest)
    (flag : Bool) (counter : Option Nat) (results : List (Nat × W64)) : Access :=
  { op := s.dev.nextId, ctx := s.dev.ctxOf c.wave.id, w := c.wave.id, path := c.path, clause := c.header, kind := kind,
    width := width, mtype := c.pth.mode.extractLsb' 0 4, lanes := lanes, dest := dest,
    flag := if flag then some (if c.seen = 0 then c.setA else c.setB) else none, counter := counter, fp := 0,
    results := results, halves := [], failed := [] }

/-- R45, R49, R61. An instruction completes: a new access joins what the clause sends when it ends, a long-latency one sets
its flag, and nothing is performed yet. -/
def sends (i : Instr) (s t : State) (c : Issue) (flag : Bool) (a : Access) : Prop :=
  exec i s = .next { t with
    dev := { t.dev with nextId := t.dev.nextId + 1 }
    issue := some ((if flag then c.takeFlag t.dev.nextId else c).send (.access a)).retire }

/-- The access width of the mode's type in bytes (R227). -/
def accessWidth (c : Issue) : Nat := if c.ty.wide then 8 else 4

/-- The lanes whose own accesses an instruction makes: the active real lanes (R25). -/
def realLanes (c : Issue) : List Nat := (List.range c.wave.width).filter (c.active &&& ~~~c.wave.helper).getLsbD

/-- A load: an opcode, its space and kind. -/
structure LoadForm where
  form : Operand → Operand → Operand → Instr
  space : MemSpace
  kind : AccessKind
  counter : Option Nat

/-- R61, R230, R234, R245. The loads, with the group counter that each raises. -/
def loadForms : List LoadForm :=
  [⟨.ldg, .global, .load, some 0⟩, ⟨.lds, .scratch, .load, some 1⟩, ⟨.ldcl, .cluster, .load, some 1⟩,
   ⟨.ldp, .priv, .load, some 0⟩, ⟨.ldk, .const, .load, some 0⟩, ⟨.ldf, .fabric, .load, some 2⟩,
   ⟨.ldv, .version, .load, some 0⟩, ⟨.ldr, .global, .ldr, some 0⟩]

/-- R61, R230. The stores to the spaces of this device, with the group counter that each raises. -/
def storeForms : List LoadForm :=
  [⟨.stg, .global, .store, some 0⟩, ⟨.sts, .scratch, .store, some 1⟩, ⟨.stcl, .cluster, .store, some 1⟩,
   ⟨.stp, .priv, .store, some 0⟩]

/-- An atomic: its space, opcode, counter and the types that it takes (R232, R233). -/
structure AtomicForm where
  form : Operand → Operand → Operand → Instr
  space : MemSpace
  opcode : Nat
  counter : Option Nat
  types : List EType

/-- R232, R233. Every type. -/
def everyType : List EType :=
  [.i8, .n8, .i16, .n16, .i32, .n32, .i64, .n64, .f64, .f32, .f16, .bf16, .t8, .t6, .f4, .b32]

/-- R232, R233. The atomics on global memory and on the scratchpad. -/
def atomicForms : List AtomicForm :=
  [⟨.aadd, .global, 0xC1, some 0, .b32 :: words⟩, ⟨.afad, .global, 0xC2, some 0, [.f32, .f64]⟩,
   ⟨.amin, .global, 0xC3, some 0, words⟩, ⟨.amax, .global, 0xC4, some 0, words⟩,
   ⟨.aand, .global, 0xC5, some 0, everyType⟩, ⟨.aor, .global, 0xC6, some 0, everyType⟩,
   ⟨.axor, .global, 0xC7, some 0, everyType⟩, ⟨.axch, .global, 0xC8, some 0, everyType⟩,
   ⟨.acas, .global, 0xC9, some 0, everyType⟩, ⟨.asad, .scratch, 0xCA, some 1, [.i32, .n32, .b32]⟩,
   ⟨.ascs, .scratch, 0xCB, some 1, [.i32, .n32, .f32, .f16, .bf16, .t8, .t6, .f4, .b32]⟩]

/-- The parts of lanes with the value operand d, and the second value of a compare-and-swap, which stands in the next
register or pair (R233). -/
def withValues (c : Issue) (d : Operand) (parts : List LaneAccess) : List LaneAccess :=
  parts.map (fun la => { la with
    value := BitVec.ofNat 64 (c.src c.ty.wide false d la.lane)
    value2 := BitVec.ofNat 64 (c.src c.ty.wide false
      (match d with | .v n => .v (n + if c.ty.wide then 2 else 1) | o => o) la.lane) })

/-- R45, R163. A matrix instruction completes: its operations join what the clause places in the cores' queues, and it sets
its flag, held by its record in flight. Where the clause of another wave holds that uses the queue of one of the cores, that one
comes first, and the path waits. A clause that a fence has partly sent performs what it has issued since before it places
anything (log 14). -/
def placesMatrixOn (cores : List Nat) (i : Instr) (s : State) (c : Issue) (ops : Nat → List (Nat × MatrixOp)) : Prop :=
  let r := if c.flushed = true ∧ c.phase ≠ .checking then s.flush c else (s, c)
  let op := r.1.dev.nextId
  ((∀ k ∈ cores, r.1.queueHeld r.2.wave.id k = false) →
    exec i s = .next { r.1 with
      dev := { r.1.dev with nextId := op + 1 }
      issue := some { r.2.takeFlag op with
        wave := (r.2.takeFlag op).retire.wave
        effects := r.2.effects ++ (ops op).map (fun m => .matrix m.1 m.2) ++ [.access
          { accessOf r.1 r.2 (if (ops op).isEmpty then .compute else .matrix) 0 [] .none true none [] with mtype := 0 }] } }) ∧
  ∀ k, cores.find? (r.1.queueHeld r.2.wave.id) = some k →
    exec i s = .next (r.1.abandon r.2 (.notReady (.queue k)))

/-- The same for an instruction that uses the queue of the wave's core alone. -/
def placesMatrix (i : Instr) (s : State) (c : Issue) (ops : Nat → List (Nat × MatrixOp)) : Prop :=
  placesMatrixOn [c.wave.core] i s c ops

/-- No general register, scalar register, predicate or private space of any wave changes. -/
def keepsRegisters (s t : State) : Prop :=
  ∀ id, (t.waveNow id).map (fun w => (w.v, w.k, w.q, w.priv)) = (s.waveNow id).map (fun w => (w.v, w.k, w.q, w.priv))

/-- No byte of the scratchpads changes. -/
def keepsScratch (s t : State) : Prop := t.dev.groups.map Group.scratch = s.dev.groups.map Group.scratch

/-- No byte of the memory tiers or of the scratchpads changes. -/
def keepsMemory (s t : State) : Prop :=
  t.dev.hbm = s.dev.hbm ∧ t.dev.lpddr = s.dev.lpddr ∧ t.dev.host = s.dev.host ∧ keepsScratch s t

/-- No byte of memory changes but in HBM, and no register. -/
def keepsButHbm (s t : State) : Prop :=
  keepsRegisters s t ∧ t.dev.lpddr = s.dev.lpddr ∧ t.dev.host = s.dev.host ∧ keepsScratch s t

/-- R118. The effective width of a field. -/
def effWidth (n o w : Nat) : Nat := if o < n then min w (n - o) else 0

/-- R46, R160. Register rows after some elements of D have been written, counted from register d on: an element holds its value
where no other element stands at its place, and nothing else changes. -/
def wroteElements (width : Nat) (old new : List (List W32)) (d : Nat) (els : List DElem) : Prop :=
  new.length = old.length ∧ ∀ n l, n < old.length → l < width →
    (∀ e ∈ els, d + e.reg = n → e.lane = l → (∀ x ∈ els, x.reg = e.reg → x.lane = e.lane → x = e) →
      rowsRead new false n l = e.value.toNat) ∧
    ((∀ e ∈ els, d + e.reg = n → e.lane ≠ l) → rowsRead new false n l = rowsRead old false n l)

/-- A power of two. -/
def pow2 (e : Int) : Rat :=
  match e with
  | .ofNat n => ((2 ^ n : Nat) : Rat)
  | .negSucc n => 1 / ((2 ^ (n + 1) : Nat) : Rat)

/-- R85. A finite value: a zero, or m · 2^e with m not zero. -/
def finite : FVal → Prop
  | .zero _ => True
  | .fin _ m _ => 0 < m
  | _ => False

/-- R85. The exact number that a finite value stands for. -/
def exactly : FVal → Rat
  | .fin neg m e => (if neg then -1 else 1) * (m : Rat) * pow2 e
  | _ => 0

/-- R88, R89. The magnitude of the positive bits k of a format; the bits of the infinity stand for the number that follows the
largest finite one. -/
def magnitude (f : FFmt) (k : Nat) : Rat := if k = f.inf false then pow2 (f.bias + 1) else exactly (f.decode k)

/-- R88. The bits k that rounding takes for a magnitude y of a sign: those of y, where it has some, and otherwise one of its two
neighbours. -/
def picks (f : FFmt) (rm : RMode) (neg : Bool) (y : Rat) (k : Nat) : Prop :=
  ∃ lo, lo < f.inf false ∧ magnitude f lo ≤ y ∧ y < magnitude f (lo + 1) ∧
    let mid := (magnitude f lo + magnitude f (lo + 1)) / 2
    k = if magnitude f lo = y then lo else match rm with
      | .rne => if y < mid ∨ (y = mid ∧ lo % 2 = 0) then lo else lo + 1
      | .rtz => lo
      | .rup => if neg then lo else lo + 1
      | .rdn => if neg then lo + 1 else lo
      | .rna => if y < mid then lo else lo + 1
      | .rod => if lo % 2 = 1 then lo else lo + 1

/-- R87 to R90. The bits and the flags are those of a magnitude y of a sign, rounded once to a format. -/
def rounds (f : FFmt) (rm : RMode) (ftz neg : Bool) (y : Rat) (r : Nat × FpFlags) : Prop :=
  let overflows := r = (match rm with
    | .rne | .rna => f.inf neg
    | .rtz | .rod => f.maxFinite neg
    | .rup => if neg then f.maxFinite neg else f.inf neg
    | .rdn => if neg then f.inf neg else f.maxFinite neg, fOF ||| fNX)
  (magnitude f (f.inf false) ≤ y → overflows) ∧
  (y < magnitude f (f.inf false) → ∃ k, picks f rm neg y k ∧
    if k = f.inf false then overflows
    else if ftz = true ∧ f ≠ fmt64 ∧ k < 2 ^ f.fb then r = (f.zero neg, fUF ||| fNX)
    else r.1 = f.zero neg + k ∧ ∀ b, r.2.getLsbD b = true ↔ magnitude f k ≠ y ∧
      (b = 4 ∨ (b = 3 ∧ y < pow2 f.emin ∧ ∃ j, picks f rm neg (2 * y) j ∧ j < 2 * 2 ^ f.fb)))

/-- R88. The bits and the flags are those of an exact number, rounded once; an exact zero takes the sign given. -/
def roundsNumber (f : FFmt) (rm : RMode) (ftz : Bool) (x : Rat) (zeroNeg : Bool) (r : Nat × FpFlags) : Prop :=
  (x = 0 → r = (f.zero zeroNeg, 0)) ∧
  (x < 0 → rounds f rm ftz true (-x) r) ∧ (0 < x → rounds f rm ftz false x r)

/-- The sign of a value. -/
def signOf : FVal → Bool
  | .zero s | .fin s _ _ | .inf s => s
  | _ => false

/-- R88. The sign of an exact zero sum of two values of some signs. -/
def sumSign (rm : RMode) (s t : Bool) : Bool := if s = t then s else decide (rm = .rdn)

end Sys2Proof.Spec
end

