-- ==== Sys2Proof/Certificates/Slice0/Obligations.lean ====
section
/-! DEFINITION. The statements for the provers, in the order of OBLIGATIONS.json. -/

open Sys2Proof Sys2Proof.Machine Sys2Proof.Spec

/-- R112, R114. `add`, `sub`, `mul`, `min`, `max`, `csub`, `abs`, `neg` and `mad` complete for every integer type, destination
and source form: slot by slot, the exact integer goes through WriteInt; `mulh` writes the high half of the exact product of two
words. Nothing but the destination, the sticky flags and the count of retired instructions changes; another type is an
illegal instruction. -/
def Obligations.IntegerArithmetic : Prop :=
  slotwise2 (among ints) .add (onInts (fun a b => a + b)) ∧
  slotwise2 (among ints) .sub (onInts (fun a b => a - b)) ∧
  slotwise2 (among ints) .mul (onInts (fun a b => a * b)) ∧
  slotwise2 (among ints) .min (onInts (fun a b => min a b)) ∧
  slotwise2 (among ints) .max (onInts (fun a b => max a b)) ∧
  slotwise2 (among ints) .csub (onInts (fun a b => if a ≥ b then a - b else a)) ∧
  slotwise1 (among ints) .abs (fun c x => writeInt c.sat c.ty (max (c.ty.intVal x) (-c.ty.intVal x))) ∧
  slotwise1 (among ints) .neg (fun c x => writeInt c.sat c.ty (-c.ty.intVal x)) ∧
  slotwise3 (among ints) .mad (fun c z x y => writeInt c.sat c.ty (c.ty.intVal z + c.ty.intVal x * c.ty.intVal y)) ∧
  slotwise2 (among words) .mulh (fun c x y =>
    (wrapInt c.ty.bits ((c.ty.intVal x * c.ty.intVal y).fdiv (2 ^ c.ty.bits)), 0))

/-- R111, R8. WriteInt: with SAT the value clamped to the type's range, and SATD when it was clamped; without SAT the
value modulo 2^n, read back as the type, and no flag. The bits written lie below 2^n. -/
def Obligations.WriteInt : Prop :=
  ∀ t, among ints t = true → ∀ x : Int,
    (writeInt false t x).1 < 2 ^ t.bits ∧ (writeInt true t x).1 < 2 ^ t.bits ∧
    (writeInt false t x).2 = 0 ∧
    t.intVal (writeInt false t x).1 = (if t.signed then x.bmod (2 ^ t.bits) else x % 2 ^ t.bits) ∧
    t.intVal (writeInt true t x).1 = max t.minInt (min t.maxInt x) ∧
    (writeInt true t x).2 = (if x < t.minInt ∨ t.maxInt < x then fSATD else 0)

/-- R113. `addc` and `subb` with a v or x destination: the result of each active lane is the sum or difference with the
lane's bit of q14, and q14 receives the carry or borrow in the active lanes only. A k destination is an operand fault of the
decode, code 0x03. -/
def Obligations.CarryChain : Prop :=
  ∀ (sub : Bool) (d a b : Operand), let i : Instr := if sub then .subb d a b else .addc d a b
    refusesType (among words) i ∧ (∀ n, d = .k n → i.classFault = some .operandClass) ∧
    ∀ s c, s.issue = some c → among words c.ty = true → c.hasDst c.ty.wide d → (∀ n, d ≠ .k n) →
      14 < c.wave.q.length → c.wave.width ≤ 64 →
      let exact : Nat → Int := fun l =>
        let cin : Int := if (c.wave.qread 14).getLsbD l then 1 else 0
        if sub then (c.arg a l : Int) - c.arg b l - cin else (c.arg a l : Int) + c.arg b l + cin
      ∃ c' w, exec i s = .next { s with issue := some c' } ∧
        c' = w.mapWave (fun x => { x with q := c'.wave.q }) ∧
        c.put w d c.ty.wide c.ty.signed c.active (fun l => wrapInt c.ty.bits (exact l)) 0 ∧
        (∀ n, n ≠ 14 → c'.wave.qread n = c.wave.qread n) ∧
        ∀ l, l < c.wave.width → (c'.wave.qread 14).getLsbD l =
          if c.active.getLsbD l then decide (exact l < 0 ∨ 2 ^ c.ty.bits ≤ exact l) else (c.wave.qread 14).getLsbD l

/-- R116. The bitwise instructions and the bit counts, bit by bit. -/
def Obligations.Bitwise : Prop :=
  slotwise2 (among allInts) .and (fun c x y => (bitsWhere c.ty.bits (fun i => x.testBit i && y.testBit i), 0)) ∧
  slotwise2 (among allInts) .or (fun c x y => (bitsWhere c.ty.bits (fun i => x.testBit i || y.testBit i), 0)) ∧
  slotwise2 (among allInts) .xor (fun c x y => (bitsWhere c.ty.bits (fun i => x.testBit i != y.testBit i), 0)) ∧
  slotwise2 (among allInts) .andn (fun c x y => (bitsWhere c.ty.bits (fun i => x.testBit i && !y.testBit i), 0)) ∧
  slotwise1 (among allInts) .not (fun c x => (bitsWhere c.ty.bits (fun i => !x.testBit i), 0)) ∧
  slotwise1 (among allInts) .brev (fun c x => (bitsWhere c.ty.bits (fun i => x.testBit (c.ty.bits - 1 - i)), 0)) ∧
  slotwise1 (among allInts) .clz (fun c x =>
    (((List.range c.ty.bits).reverse.takeWhile (fun i => !x.testBit i)).length, 0)) ∧
  slotwise1 (among allInts) .ctz (fun c x => (((List.range c.ty.bits).takeWhile (fun i => !x.testBit i)).length, 0)) ∧
  slotwise1 (among allInts) .popc (fun c x => (((List.range c.ty.bits).countP x.testBit), 0))

/-- R117. The shifts and rotations: `shl` forms the exact a · 2^s and writes it through WriteInt, `shr` and `sra` floor the
quotient whatever the type's signedness, and the rotations move bit i to bit i + s, or back, modulo n. That `shl` on b32 with
SAT clamps as n32 is the model's reading (log 19). -/
def Obligations.Shifts : Prop :=
  slotwise2 (among allInts) .shl (fun c x y => writeInt c.sat c.ty (c.ty.intVal x * 2 ^ y)) ∧
  slotwise2 (among allInts) .shr (fun _ x y => (x / 2 ^ y, 0)) ∧
  slotwise2 (among allInts) .sra (fun c x y => (wrapInt c.ty.bits ((toSigned c.ty.bits x).fdiv (2 ^ y)), 0)) ∧
  slotwise2 (among allInts) .rotl (fun c x y =>
    (bitsWhere c.ty.bits (fun i => x.testBit ((i + (c.ty.bits - y % c.ty.bits)) % c.ty.bits)), 0)) ∧
  slotwise2 (among allInts) .rotr (fun c x y => (bitsWhere c.ty.bits (fun i => x.testBit ((i + y) % c.ty.bits)), 0))

/-- R118, R119. The bit fields and the interleaves: `bfe`, `bfi`, `bmsk`, `bzi`, `bsp3` and `bcp3`. The offset and the width of
`bfe` and `bfi` are read from the low word of b, which in a 64-bit type is the low word of b's pair. That b is read as a pair
there is the model's reading (log 12). -/
def Obligations.BitFields : Prop :=
  slotwise2 (among (.b32 :: words)) .bfe (fun c x y =>
    let o := y % 128
    let w := effWidth c.ty.bits o (y / 256 % 128)
    (bitsWhere c.ty.bits (fun i =>
      if i < w then x.testBit (o + i) else decide (0 < w) && c.ty.signed && x.testBit (o + w - 1)), 0)) ∧
  slotwise3 (among (.b32 :: words)) .bfi (fun c z x y =>
    let o := y % 128
    let w := effWidth c.ty.bits o (y / 256 % 128)
    (bitsWhere c.ty.bits (fun i => if o ≤ i ∧ i < o + w then x.testBit (i - o) else z.testBit i), 0)) ∧
  slotwise2 (among (.b32 :: words)) .bmsk (fun c x y =>
    (bitsWhere c.ty.bits (fun i => decide (x ≤ i ∧ i < x + effWidth c.ty.bits x y)), 0)) ∧
  slotwise2 (among (.b32 :: words)) .bzi (fun c x y =>
    (bitsWhere c.ty.bits (fun i => if i % 2 = 0 then x.testBit (i / 2) else y.testBit (i / 2)), 0)) ∧
  slotwise1 (among (.b32 :: words)) .bsp3 (fun c x =>
    (bitsWhere c.ty.bits (fun i => decide (i % 3 = 0 ∧ i / 3 < (if c.ty.wide then 21 else 10)) && x.testBit (i / 3)), 0)) ∧
  slotwise1 (among (.b32 :: words)) .bcp3 (fun c x =>
    (bitsWhere c.ty.bits (fun i => decide (i < (if c.ty.wide then 21 else 10)) && x.testBit (3 * i)), 0))

/-- R112, R114, R115. `mov`, `lea`, `dp4`, `sad`, `sat`, and `mulw`, which writes the whole product of two 32-bit values
to a pair. -/
def Obligations.WholeElement : Prop :=
  (∀ a, lanewise (fun _ => true) modeWide (fun d => .mov d a) (fun c l => (c.arg a l, 0))) ∧
  (∀ a b, lanewise (fun t => !among [.t6, .f4] t) (fun _ => true) (fun d => .lea d a b) (fun c l =>
    (wrapInt 64 ((c.src true true a l : Int) + (BitVec.ofNat 32 (c.src false false b l)).toInt * ((c.ty.bits / 8 : Nat) : Int)),
      0))) ∧
  (∀ a b, lanewise (among [.i8, .n8, .i16, .n16]) (fun _ => false) (fun d => .dp4 d a b) (fun c l =>
    (wrapInt 32 (((List.range c.ty.slots).map (fun j =>
      c.ty.intVal (slotOf c.ty (c.arg a l) j) * c.ty.intVal (slotOf c.ty (c.arg b l) j))).sum), 0))) ∧
  (∀ a b, lanewiseAs (among [.i8, .n8, .i16, .n16, .i32, .n32]) (fun _ => .n32) (fun d => .sad d a b) (fun c l =>
    (wrapInt 32 (((List.range c.ty.slots).map (fun j =>
      ((c.ty.intVal (slotOf c.ty (c.arg a l) j) - c.ty.intVal (slotOf c.ty (c.arg b l) j)).natAbs : Int))).sum), 0))) ∧
  (∀ a, lanewise (among ints) modeWide (fun d => .sat d a) (fun c l =>
    let n := if c.ty.wide then 64 else 32
    let x := (BitVec.ofNat n (c.arg a l)).toInt
    (wrapInt n (max c.ty.minInt (min c.ty.maxInt x)), if x < c.ty.minInt ∨ c.ty.maxInt < x then fSATD else 0))) ∧
  (∀ a b, lanewise (among [.i32, .n32]) (fun _ => true) (fun d => .mulw d a b) (fun c l =>
    (wrapInt 64 (c.ty.intVal (c.src false false a l) * c.ty.intVal (c.src false false b l)), 0)))

/-- R120 to R122. The floating arithmetic completes for f64, f32, f16 and bf16, slot by slot, with one rounding in the
mode's rounding; another type is an illegal instruction. `fabs`, `fneg` and `fcps` act on the sign bit alone: every other
bit is kept, NaN payloads included, and no flag is set. What a rounded sum or product is, `Rounding` states. -/
def Obligations.FloatArithmetic : Prop :=
  slotwise2 (among floats) .fadd (fun c x y => c.ty.ffmt.addV c.rm c.ftz false (flt c x) (flt c y)) ∧
  slotwise2 (among floats) .fsub (fun c x y => c.ty.ffmt.addV c.rm c.ftz true (flt c x) (flt c y)) ∧
  slotwise2 (among floats) .fmul (fun c x y => c.ty.ffmt.mulV c.rm c.ftz (flt c x) (flt c y)) ∧
  slotwise3 (among floats) .fma (fun c z x y => c.ty.ffmt.fmaV c.rm c.ftz false false (flt c x) (flt c y) (flt c z)) ∧
  slotwise3 (among floats) .fms (fun c z x y => c.ty.ffmt.fmaV c.rm c.ftz false true (flt c x) (flt c y) (flt c z)) ∧
  slotwise3 (among floats) .fnma (fun c z x y => c.ty.ffmt.fmaV c.rm c.ftz true false (flt c x) (flt c y) (flt c z)) ∧
  slotwise2 (among floats) .fmin (fun c x y => c.ty.ffmt.minmax true c.ftz x y) ∧
  slotwise2 (among floats) .fmax (fun c x y => c.ty.ffmt.minmax false c.ftz x y) ∧
  slotwise1 (among floats) .fabs (fun c x => (bitsWhere c.ty.bits (fun i => decide (i + 1 < c.ty.bits) && x.testBit i), 0)) ∧
  slotwise1 (among floats) .fneg (fun c x =>
    (bitsWhere c.ty.bits (fun i => x.testBit i != decide (i + 1 = c.ty.bits)), 0)) ∧
  slotwise2 (among floats) .fcps (fun c x y =>
    (bitsWhere c.ty.bits (fun i => if i + 1 = c.ty.bits then y.testBit i else x.testBit i), 0))

/-- R85, R87, R88. A finite value of a format rounds to itself in every rounding mode, exactly and without a flag; but under FTZ
a subnormal one of f32, f16 or bf16 becomes a zero of its sign, with the underflow and the inexact flag. -/
def Obligations.RoundingExact : Prop :=
  ∀ f ∈ [fmt64, fmt32, fmt16, fmtB16], ∀ (rm : RMode) (ftz : Bool) (b : Nat) (neg : Bool) (m : Nat) (e : Int),
    b < 2 ^ f.width → f.decode b = .fin neg m e → f.round rm ftz neg m e false =
      if ftz = true ∧ f ≠ fmt64 ∧ f.subnormal b = true then (f.zero neg, fUF ||| fNX) else (b, 0)

/-- R87 to R90, R120. A non-zero magnitude m · 2^e is rounded once, in every mode, to the neighbour that the mode names, with
overflow and underflow as R89 and R90 say, and flushed under FTZ. The sum and the difference, the product and the fused
multiply-add of finite values are the exact number, rounded once; an exact zero sum of values of opposite signs is −0 in RDN
and +0 otherwise. -/
def Obligations.Rounding : Prop :=
  ∀ f ∈ [fmt64, fmt32, fmt16, fmtB16], ∀ (rm : RMode) (ftz : Bool),
    (∀ (neg : Bool) (m : Nat) (e : Int), 0 < m → rounds f rm ftz neg (m * pow2 e) (f.round rm ftz neg m e false)) ∧
    ∀ a b, finite a → finite b →
      let plus := fun (x y : Rat) (neg : Bool) => if neg then x - y else x + y
      (∀ neg : Bool, roundsNumber f rm ftz (plus (exactly a) (exactly b) neg) (sumSign rm (signOf a) (signOf b != neg))
        (f.addV rm ftz neg a b)) ∧
      roundsNumber f rm ftz (exactly a * exactly b) (signOf a != signOf b) (f.mulV rm ftz a b) ∧
      ∀ d, finite d → ∀ negP negD : Bool, let p := if negP then -(exactly a * exactly b) else exactly a * exactly b
        roundsNumber f rm ftz (plus p (exactly d) negD) (sumSign rm ((signOf a != signOf b) != negP) (signOf d != negD))
          (f.fmaV rm ftz negP negD a b d)

/-- R125, R126. The instructions that round to an integral value, scale by a power of two, take the exponent and classify,
slot by slot. -/
def Obligations.FloatExponents : Prop :=
  slotwise1 (among floats) .fflr (fun c x => c.ty.ffmt.integral .rdn false (flt c x)) ∧
  slotwise1 (among floats) .fcel (fun c x => c.ty.ffmt.integral .rup false (flt c x)) ∧
  slotwise1 (among floats) .ftrc (fun c x => c.ty.ffmt.integral .rtz false (flt c x)) ∧
  slotwise1 (among floats) .frnd (fun c x => c.ty.ffmt.integral c.rm true (flt c x)) ∧
  slotwise1 (among floats) .fgtx (fun c x => c.ty.ffmt.exponent (flt c x)) ∧
  slotwise1 (among floats) .fcls (fun c x => (2 ^ c.ty.ffmt.classBit x, 0)) ∧
  ∀ d a b, refusesType (among floats) (.fldx d a b) ∧ ∀ s c, s.issue = some c → among floats c.ty = true →
    c.hasDst c.ty.wide d → ∃ c' f, exec (.fldx d a b) s = .next { s with issue := some c' } ∧
      c.wrote c' d c.ty.wide f ∧ ∀ l, slotwise c.ty (f l) (fun j =>
        let y := c.src false false b l
        let k : Int := if c.ty = .f64 then (BitVec.ofNat 32 y).toInt
          else (BitVec.ofNat c.ty.bits (slotOf c.ty y j)).toInt
        c.ty.ffmt.scaleB c.rm c.ftz (flt c (slotOf c.ty (c.arg a l) j)) k)

/-- R127 to R130. The conversions read slot 0 of the mode's type and write one result per lane; `bsc` and `bsq` form and
apply a block scale. b32 is no source of a conversion. That a result in a k register is extended as its own type asks is the
model's reading (log 59). -/
def Obligations.Conversions : Prop :=
  let cv (i : Operand → Operand → Instr) (dst : Bool → EType) : Prop :=
    ∀ a, lanewiseAs (fun t => t != .b32) (fun c => dst c.ty.wide) (fun d => i d a) (fun c l =>
      let x := slotOf c.ty (c.arg a l) 0
      convertV c.rm c.ftz c.sat c.ty (dst c.ty.wide) (c.ty.decodeV c.ftz c.wave.xva.toNat x) x)
  cv .cvd (fun _ => .f64) ∧ cv .cvs (fun _ => .f32) ∧ cv .cvh (fun _ => .f16) ∧ cv .cvb (fun _ => .bf16) ∧
  cv .cv8 (fun _ => .t8) ∧ cv .cv6 (fun _ => .t6) ∧ cv .cv4 (fun _ => .f4) ∧
  cv .cvi (fun w => if w then .i64 else .i32) ∧ cv .cvn (fun w => if w then .n64 else .n32) ∧
  (∀ a, lanewise (among [.t8, .t6, .f4]) (fun _ => false) (fun d => .bsc d a) (fun c l =>
    blockScale c.ty (fmt32.decode (c.src false false a l)))) ∧
  (∀ a b, lanewise (among [.t8, .t6, .f4]) (fun _ => false) (fun d => .bsq d a b) (fun c l =>
    quantise c.ty c.rm (fmt32.decode (c.src false false a l)) (c.src false false b l)))

/-- R123, R124, R45. The long-latency functions: the sources are read and the results fixed at issue, the next completion
flag of the header is set, and the registers and sticky flags are not yet written: an access in flight holds them. -/
def Obligations.LateFunctions : Prop :=
  let late (i : Operand → Instr) (g : Issue → Nat → Nat → Nat × FpFlags) : Prop :=
    ∀ d, (refusesType (among floats) (i d)) ∧ ∀ s c, s.issue = some c → among floats c.ty = true →
      ∃ f : Nat → Nat × FpFlags, ∃ a : Access, ∃ fl,
        exec (i d) s = .next { s with
          dev := { s.dev with nextId := s.dev.nextId + 1 }
          issue := some ((c.takeFlag s.dev.nextId).send (.access a)).retire } ∧
        (∀ l, slotwise c.ty (f l) (g c l)) ∧ c.flagsAre d f fl ∧
        a = { op := s.dev.nextId, ctx := s.dev.ctxOf c.wave.id, w := c.wave.id, path := c.path, clause := c.header,
              kind := .compute, width := 0, mtype := 0, lanes := [], dest := c.destOf d c.ty.wide,
              flag := some (if c.seen = 0 then c.setA else c.setB), counter := none, fp := fl,
              results := match d with
                | .k _ => [(0, BitVec.ofNat 64 (f 0).1)]
                | _ => (lanesOf c.wave.width c.active).map (fun l => (l, BitVec.ofNat 64 (f l).1))
              halves := [], failed := [] }
  let one (i : Operand → Operand → Instr) (g : Issue → FVal → Nat × FpFlags) : Prop :=
    ∀ a, late (fun d => i d a) (fun c l j => g c (flt c (slotOf c.ty (c.arg a l) j)))
  (∀ a b, late (fun d => .fdiv d a b) (fun c l j =>
    c.ty.ffmt.divV c.rm c.ftz (flt c (slotOf c.ty (c.arg a l) j)) (flt c (slotOf c.ty (c.arg b l) j)))) ∧
  one .fsqrt (fun c => c.ty.ffmt.sqrtV c.rm c.ftz) ∧ one .frcp (fun c => c.ty.ffmt.rcpV c.rm c.ftz) ∧
  one .frsq (fun c => c.ty.ffmt.rsqV c.rm c.ftz) ∧ one .fex2 (fun c => c.ty.ffmt.ex2V c.rm c.ftz) ∧
  one .flg2 (fun c => c.ty.ffmt.lg2V c.rm c.ftz) ∧ one .fsnp (fun c => c.ty.ffmt.snpV c.rm c.ftz) ∧
  one .fcsp (fun c => c.ty.ffmt.cspV c.rm c.ftz) ∧ one .ftnh (fun c => c.ty.ffmt.tnhV c.rm c.ftz)

/-- R131. The compares write one bit per active lane into the named predicate and set NV for a signalling NaN, or, in the
four ordered compares, for any NaN, of a real lane. Integers, and b32 as n32, compare in their type's order. -/
def Obligations.Compares : Prop :=
  let cmp (i : BitVec 4 → Operand → Operand → Instr) (anyNaN : Bool) (r : Option Ordering → Bool) : Prop :=
    ∀ q a b s c, s.issue = some c → hasPreds c →
      let v := fun o l => c.ty.decodeV c.ftz c.wave.xva.toNat (slotOf c.ty (c.arg o l) 0)
      let bad := fun x : FVal => (c.ty.isFloat && x.isSNaN) || (anyNaN && x.isNaN)
      ∃ c', exec (i q a b) s = .next { s with issue := some c' } ∧
        wrotePredicate c c' q.toNat (fun l => r (cmpV (v a l) (v b l)))
          (if (List.range c.wave.width).any (fun l => c.active.getLsbD l && c.wave.real.getLsbD l &&
            (bad (v a l) || bad (v b l))) then fNV else 0)
  cmp .ceq false (fun o => o == some .eq) ∧ cmp .cne false (fun o => o != some .eq) ∧
  cmp .clt true (fun o => o == some .lt) ∧ cmp .cle true (fun o => o == some .lt || o == some .eq) ∧
  cmp .cgt true (fun o => o == some .gt) ∧ cmp .cge true (fun o => o == some .gt || o == some .eq) ∧
  cmp .cun false (fun o => o == none) ∧
  ∀ t, among allInts t = true → ∀ (ftz : Bool) (xva x y : Nat),
    cmpV (t.decodeV ftz xva x) (t.decodeV ftz xva y) = some (compare (t.intVal x) (t.intVal y))

/-- R132 to R134. The predicate instructions write the bits of the active lanes only; `sel` chooses by the guard in every
lane of the path, `qpop` counts the set bits of the active lanes, and `kq` copies the predicate's bits of the wave's
width. A k destination of `sel` is an operand fault of the decode, code 0x03. -/
def Obligations.Predicates : Prop :=
  (DecodeError.operandClass.faultCode = (1, 3) ∧ ∀ n a b, (Instr.sel (.k n) a b).classFault = some .operandClass) ∧
  (∀ s c, s.issue = some c → hasPreds c → ∀ q a b : BitVec 4,
    let bit := fun (n : BitVec 4) l => (c.wave.qread n.toNat).getLsbD l
    let wrote := fun (i : Instr) (x : Nat → Bool) =>
      ∃ c', exec i s = .next { s with issue := some c' } ∧ wrotePredicate c c' q.toNat x 0
    wrote (.qand q a b) (fun l => bit a l && bit b l) ∧ wrote (.qor q a b) (fun l => bit a l || bit b l) ∧
    wrote (.qxor q a b) (fun l => bit a l != bit b l) ∧ wrote (.qnot q a) (fun l => !bit a l) ∧
    wrote (.qmov q a) (fun l => bit a l) ∧ ∀ o, wrote (.qmsk q o) (fun l => (c.src true true o 0).testBit l)) ∧
  ∀ s c, s.issue = some c → ∀ (d a b : Operand) (q : BitVec 4) (k : Nat),
    (c.hasDst c.ty.wide d → (∀ n, d ≠ .k n) → ∃ c', exec (.sel d a b) s = .next { s with issue := some c' } ∧
      c.put c' d c.ty.wide false c.pth.mask
        (fun l => if (c.wave.qread (modeGuard c.pth.mode)).getLsbD l then c.arg a l else c.arg b l) 0) ∧
    (c.hasDst false d → ∃ c', exec (.qpop d q) s = .next { s with issue := some c' } ∧
      c.put c' d false false c.active (fun _ => ((List.range c.wave.width).filter (fun l =>
        c.active.getLsbD l && (c.wave.qread q.toNat).getLsbD l)).length) 0) ∧
    (k < c.wave.k.length → ∃ c', exec (.kq k q) s = .next { s with issue := some c' } ∧
      c' = { c with wave := { c.wave with
        retired := c.wave.retired + 1
        k := c.wave.k.set k (c.wave.qread q.toNat &&& BitVec.ofNat 64 (2 ^ c.wave.width - 1)) } })

/-- R139, R141. The shuffles, slides and quad exchanges: each participating lane receives the element of the source lane
that the table names, or zero where a slide leaves the subgroup. -/
def Obligations.Shuffles : Prop :=
  ∀ a b,
    let g := subBase
    let p := fun (c : Issue) (l : Nat) => l - subBase c l
    let n := fun (c : Issue) (l : Nat) => c.src false false b l
    moves (fun d => .shf d a b) a (fun c l => some (g c l + n c l % subWidth c)) ∧
    moves (fun d => .shx d a b) a (fun c l => some (g c l + (p c l ^^^ n c l) % subWidth c)) ∧
    moves (fun d => .shup d a b) a (fun c l => some (g c l + (((p c l : Int) - n c l) % subWidth c).toNat)) ∧
    moves (fun d => .shdn d a b) a (fun c l => some (g c l + (p c l + n c l) % subWidth c)) ∧
    moves (fun d => .qswx d a) a (fun _ l => some (l ^^^ 1)) ∧ moves (fun d => .qswy d a) a (fun _ l => some (l ^^^ 2)) ∧
    moves (fun d => .qswd d a) a (fun _ l => some (l ^^^ 3)) ∧
    moves (fun d => .qbc d a b) a (fun c l => some (4 * (l / 4) + n c l % 4)) ∧
    moves (fun d => .sldu d a b) a (fun c l => if n c l ≤ p c l then some (g c l + p c l - n c l) else none) ∧
    moves (fun d => .sldd d a b) a (fun c l =>
      if p c l + n c l < subWidth c then some (g c l + p c l + n c l) else none) ∧
    moves (fun d => .bcl d a b) a (fun c l => some (g c l + n c l % subWidth c))

/-- R142. `cmpr` writes the j-th lane of the path in each subgroup from its j-th participating lane, and `expd` the other
way; no other lane is written. -/
def Obligations.Packing : Prop :=
  ∀ (expand : Bool) (d a : Operand) s c, s.issue = some c → 0 < c.wave.width → c.wave.width ≤ 64 →
    c.wave.width % subWidth c = 0 → c.hasDst c.ty.wide d → (∀ n, d ≠ .k n) →
    let goal := fun l => if expand then participants c l else inSubgroup c c.pth.mask l
    let from_ := fun l => if expand then inSubgroup c c.pth.mask l else participants c l
    let j := fun l => (goal l).idxOf l
    ∃ c', exec (if expand then .expd d a else .cmpr d a) s = .next { s with issue := some c' } ∧
      c.put c' d c.ty.wide false
        (lanesWhere (fun l => decide (l < c.wave.width ∧ l ∈ goal l ∧ j l < (from_ l).length)))
        (fun l => c.arg a ((from_ l).getD (j l) 0)) 0

/-- R143, R146, R147. `mtch`, `mtcn`, `vote`, `ffs` and `topk` give each participating lane a mask, a position or a rank of
the participating lanes of its subgroup. -/
def Obligations.MatchAndRank : Prop :=
  ∀ a b,
    let w64 := fun (c : Issue) => decide (subWidth c = 64)
    let mask := fun (c : Issue) l (p : Nat → Bool) =>
      bitsWhere 64 (fun i => (participants c l).any (fun x => x == subBase c l + i && p x))
    let v := fun (c : Issue) l => c.ty.decodeV c.ftz c.wave.xva.toNat (slotOf c.ty (c.arg a l) 0)
    lanewise (fun _ => true) w64 (fun d => .mtch d a) (fun c l => (mask c l (fun x => c.arg a x == c.arg a l), 0)) ∧
    lanewise (fun _ => true) w64 (fun d => .mtcn d a) (fun c l =>
      (mask c l (fun x => ((v c x).isNaN && (v c l).isNaN) || cmpV (v c x) (v c l) == some .eq),
        if (participants c l).any (fun x => c.ty.isFloat && (v c x).isSNaN) then fNV else 0)) ∧
    lanewise (fun _ => true) w64 (fun d => .vote d a) (fun c l => (mask c l (fun x => c.arg a x != 0), 0)) ∧
    lanewise (fun _ => true) (fun _ => false) (fun d => .ffs d a) (fun c l =>
      (match (participants c l).find? (fun x => c.arg a x != 0) with
       | some x => x - subBase c l
       | none => 0xFFFFFFFF, 0)) ∧
    lanewise (fun _ => true) (fun _ => false) (fun d => .topk d a b) (fun c l =>
      let x := fun l => slotOf c.ty (c.arg a l) 0
      let i := fun l => c.src false false b l
      let e := c.wave.xva.toNat
      (((participants c l).countP (fun m => m != l && (lessTotal c.ty e (x l) (i l) (x m) (i m) ||
        (rankKey c.ty e (x l) == rankKey c.ty e (x m) && i l == i m && decide (m < l))))), 0))

/-- R144, R145. The reductions and the prefix over the participating lanes of a subgroup: integers exactly and once through
WriteInt, floating values by the tree, prefixes from the lowest lane up. The flags of `pfx`, for which R145 gives no rule, are
the model's choice (log 79). -/
def Obligations.Reductions : Prop :=
  let reduce (i : Operand → Operand → Instr) (ints_ : Issue → List Int → Nat × FpFlags)
      (combine : Issue → Nat → Nat → Nat × FpFlags) : Prop :=
    ∀ d a, refusesType (among (floats ++ ints)) (i d a) ∧ ∀ s c, s.issue = some c →
      among (floats ++ ints) c.ty = true → c.hasDst c.ty.wide d →
      ∃ c' f, exec (i d a) s = .next { s with issue := some c' } ∧ c.wrote c' d c.ty.wide f ∧
        ∀ l, slotwise c.ty (f l) (fun j =>
          let xs := (participants c l).map (fun x => slotOf c.ty (c.arg a x) j)
          if among ints c.ty then ints_ c (xs.map c.ty.intVal)
          else treeFold (fun u v => ((combine c u.1 v.1).1, u.2 ||| v.2 ||| (combine c u.1 v.1).2)) (0, 0) xs.length
            (xs.map (fun x => (c.ty.ffmt.flushBits c.ftz x, 0))))
  reduce .radd (fun c xs => writeInt c.sat c.ty xs.sum)
    (fun c u v => c.ty.ffmt.addV c.rm c.ftz false (flt c u) (flt c v)) ∧
  reduce .rmin (fun c xs => (wrapInt c.ty.bits (match xs with | [] => 0 | x :: r => r.foldl min x), 0))
    (fun c u v => c.ty.ffmt.minmax true c.ftz u v) ∧
  reduce .rmax (fun c xs => (wrapInt c.ty.bits (match xs with | [] => 0 | x :: r => r.foldl max x), 0))
    (fun c u v => c.ty.ffmt.minmax false c.ftz u v) ∧
  (∀ a, lanewise (fun _ => true) modeWide (fun d => .rbor d a) (fun c l =>
    (bitsWhere 64 (fun i => (participants c l).any (fun x => (c.arg a x).testBit i)), 0))) ∧
  (∀ a, lanewise (fun _ => true) modeWide (fun d => .rband d a) (fun c l =>
    (bitsWhere 64 (fun i => (participants c l).all (fun x => (c.arg a x).testBit i)), 0))) ∧
  ∀ d a, refusesType (among (floats ++ ints)) (.pfx d a) ∧ ∀ s c, s.issue = some c →
    among (floats ++ ints) c.ty = true → c.hasDst c.ty.wide d →
    ∃ c' f, exec (.pfx d a) s = .next { s with issue := some c' } ∧ c.wrote c' d c.ty.wide f ∧
      ∀ l, slotwise c.ty (f l) (fun j =>
        let xs := ((participants c l).filter (fun x => decide (x ≤ l))).map (fun x => slotOf c.ty (c.arg a x) j)
        if among ints c.ty then writeInt c.sat c.ty (xs.map c.ty.intVal).sum
        else match xs with
          | [] => (0, 0)
          | x :: r => r.foldl (fun acc y => c.ty.ffmt.addV c.rm c.ftz false (flt c acc.1) (flt c y))
              (convertV c.rm c.ftz c.sat c.ty c.ty (flt c x) x))

/-- R58, R265, R281, R287, R239, R241, R277. The instructions that only retire or leave a mark: `nop`; `mode`, which
replaces the selected fields of the path's mode register and keeps the others; `trap` and `brk`, which let the rest of
their clause take effect; `yield`, which outside deterministic mode notes the other waves of the bay; `wset`; and the
waits of `wchk` and of a `wcnt` that no pending fault of the path stops. -/
def Obligations.Marks : Prop :=
  (∀ (sel : BitVec 6) (v : BitVec 16) s c, s.issue = some c → ∃ m : BitVec 16,
    goesOnAs (.mode sel v) s (c.setPth { c.pth with mode := m }) ∧
    ∀ i, i < 16 → m.getLsbD i =
      if sel.getLsbD (if i < 4 then 0 else if i < 7 then 1 else if i < 11 then 2 else if i < 14 then 3 else i - 10)
      then v.getLsbD i else c.pth.mode.getLsbD i) ∧
  ∀ s c, s.issue = some c →
    goesOnAs .nop s c ∧
    (∀ n, goesOnAs (.trap n) s { c with trap := some (12, n.toNat) }) ∧
    (∀ n, goesOnAs (.brk n) s { c with trap := some (13, n.toNat) }) ∧
    (∀ n : BitVec 2, goesOnAs (.wset n) s { c with wave := { c.wave with wset := n.toNat } }) ∧
    (∀ (n : BitVec 2) i, goesOnAs (.wchk n i) s (c.setPth { c.pth with wait := .wchk n.toNat (labelAt c i) })) ∧
    (c.pth.pending = [] → ∀ (p : BitVec 2) a, goesOnAs (.wcnt p a) s (c.setPth { c.pth with
      wait := .wcnt p.toNat ((c.wave.k.getD a 0).extractLsb' 0 32) })) ∧
    (s.dev.det c.wave.id = true → goesOnAs .yield s c) ∧
    (s.dev.det c.wave.id = false → goesOnAs .yield s { c with wave := { c.wave with
      yieldTo := (s.dev.waves.filter (fun x => x.core == c.wave.core && x.bay == c.wave.bay && x.id != c.wave.id &&
        !x.over)).map Wave.id } })

/-- R269, R273, R276, R284. A path that moves as a whole to a target drops the loop entries in whose bodies the target
does not lie, from the top, up to the first in whose body it lies; the broken lanes of the dropped entries rejoin. So do
the branches that move the whole path: `bra` always, `bany` when the predicate is set in some lane of the path, `ball`
when it is set in all of them, `ret` to an aligned address below 2^48, `bsa` when the allowance is below the threshold and
the mode is not deterministic; and `call`, which writes its link register and does not unwind. A branch that is not taken
only retires; a `ret` to another value and a `bsa` with bits outside its fields are illegal instructions. -/
def Obligations.Branches : Prop :=
  (∀ (p : Path) (t : W64), let p' := p.moveTo t
    let inside := fun e : LoopEntry => e.start.toNat ≤ t.toNat ∧ t.toNat < e.stop.toNat
    p' = { p with pc := t, loops := p'.loops, mask := p'.mask } ∧
    ∃ dropped, p.loops = dropped ++ p'.loops ∧ (∀ e ∈ dropped, ¬ inside e) ∧ (∀ e ∈ p'.loops.head?, inside e) ∧
      p'.mask = dropped.foldl (fun m e => m ||| e.broken) p.mask) ∧
  ∀ s c, s.issue = some c →
    (∀ i, goesOnAs (.bra i) s (branchTo c (labelAt c i))) ∧
    (∀ q i, goesOnAs (.bany q i) s (if takenLanes c q = 0 then c else branchTo c (labelAt c i))) ∧
    (∀ q i, goesOnAs (.ball q i) s (if takenLanes c q = c.pth.mask then branchTo c (labelAt c i) else c)) ∧
    (∀ k i, goesOnAs (.call k i) s
      { c with wave := { c.wave with k := c.wave.k.set k c.next }, next := labelAt c i }) ∧
    (∀ k, let t := c.wave.k.getD k 0
      if t.toNat < 2 ^ 48 ∧ t.toNat % 4 = 0 then goesOnAs (.ret k) s (branchTo c t)
      else exec (.ret k) s = .next (s.abandon c (.fault 1 0x08 0 0))) ∧
    ∀ k i, let x := c.wave.k.getD k 0
      if x &&& 0xFFFFFFFF0000FE00 = 0 then
        goesOnAs (.bsa k i) s (if s.dev.det c.wave.id = false ∧
            s.dev.allowance (x.extractLsb' 0 9).toNat < (x.extractLsb' 16 16).toNat then branchTo c (labelAt c i) else c)
      else exec (.bsa k i) s = .next (s.abandon c (.fault 1 0x08 0 0))

/-- R266, R270. `join` sets the pending join. `bif` consumes it: with no lane taken the path falls through, with every lane taken
it moves to the target; with no join and a target that is not ahead it is an illegal instruction. Where both are taken, an arm
that starts at the reconvergence address arrives there at once; with both there the path goes on at it. The first divergence of
a wave with no arm there makes two paths, the not-taken lanes on path 0, under a dual entry that saves the mode and the loop
stack; path 0 runs on in deterministic mode. Any other divergence joins the path's innermost entry, where that has the same
address and no deferred arm, and else pushes a serial entry, of which a seventeenth is the divergence-stack overflow fault; the
arm that is left runs on, of two the not-taken one, and the taken one is deferred. -/
def Obligations.Divergence : Prop :=
  ∀ s c, s.issue = some c →
    (∀ i, goesOnAs (.join i) s (c.setPth { c.pth with join := some (labelAt c i) })) ∧
    ∀ q i, let t := takenLanes c q
      let n := c.pth.mask &&& ~~~ c.wave.qread q.toNat
      let c0 := c.setPth { c.pth with join := none }
      let target := labelAt c i
      (c.pth.join = none → target.toNat ≤ c.header.toNat →
        exec (.bif q i) s = .next (s.abandon c (.fault 1 0x08 0 0))) ∧
      ∀ j, (c.pth.join = some j ∨ (c.pth.join = none ∧ c.header.toNat < target.toNat ∧ j = target)) →
        (t = 0 → goesOnAs (.bif q i) s c0) ∧
        (t ≠ 0 → n = 0 → goesOnAs (.bif q i) s (branchTo c0 target)) ∧
        (t ≠ 0 → n ≠ 0 →
          let both := decide (c.next ≠ j ∧ target ≠ j)
          let inner := match c.wave.div.findIdx? (fun e => !e.dual && e.owner == c.path) with
            | some k => some k
            | none => c.wave.div.findIdx? DivEntry.dual
          let reuse := inner.filter (fun k => match c.wave.div[k]? with
            | some e => e.j == j && e.deferred.isNone && !(e.dual && both)
            | none => false)
          let entry : DivEntry :=
            { j := j, mode := c.pth.mode, loops := c.pth.loops, arrived := 0, broke := c.pth.loops.map (fun _ => 0)
              deferred := none, dual := false, owner := c.path }
          let notTaken := { c0.pth with mask := n, pc := c.next }
          let taken := { c0.pth with mask := t }.moveTo target
          if c.next = j ∧ target = j then goesOnAs (.bif q i) s { c0 with next := j }
          else if reuse = none ∧ c.wave.div.length = 16 then exec (.bif q i) s = .next (s.abandon c (.fault 9 0x01 0 0))
          else if both = true ∧ c.wave.div = [] then goesOnAs (.bif q i) s { c0 with
            wave := { c.wave with
              path0 := { notTaken with ageing := 0 }, path1 := { taken with ageing := 0, slots := 0 }
              div := [{ entry with dual := true }], last := if s.dev.det c.wave.id then 0 else 1, switches := 0 }
            next := c.next }
          else
            let dropped : Lanes := if c.next = j then n else if target = j then t else 0
            let joins := fun (e : DivEntry) => { e with
              arrived := e.arrived ||| dropped, deferred := if both then some (target, t) else e.deferred }
            let p := if c.next = j then taken else notTaken
            goesOnAs (.bif q i) s { c0 with
              wave := { c.wave with div := match reuse with
                | some k => c.wave.div.modify k joins
                | none => joins entry :: c.wave.div }.setPath c.path p
              next := p.pc })

/-- R274, R275. `loop` with a count of zero goes on at the end of its body, otherwise it pushes an entry, and a fifth is the
loop-stack overflow fault; `lbrk` moves the lanes in which its predicate is set to the broken mask, and leaves the loop
with the whole broken mask when no lane stays; without an entry it is an illegal instruction. -/
def Obligations.Loops : Prop :=
  ∀ s c, s.issue = some c →
    (∀ a (n : BitVec 8), let stop := c.next + BitVec.ofNat 64 (4 * n.toNat)
      let count : W32 := (c.wave.k.getD a 0).extractLsb' 0 32
      (count = 0 → goesOnAs (.loop a n) s { c with next := stop }) ∧
      (count ≠ 0 → c.pth.loops.length < 4 → goesOnAs (.loop a n) s
        (c.setPth { c.pth with loops := ⟨c.next, stop, count, 0⟩ :: c.pth.loops })) ∧
      (count ≠ 0 → c.pth.loops.length = 4 → exec (.loop a n) s = .next (s.abandon c (.fault 10 0x01 0 0)))) ∧
    ∀ q, let m := takenLanes c q
      match c.pth.loops with
      | [] => exec (.lbrk q) s = .next (s.abandon c (.fault 1 0x08 0 0))
      | e :: r =>
        (m = 0 → goesOnAs (.lbrk q) s c) ∧
        (m ≠ 0 → c.pth.mask &&& ~~~m ≠ 0 → goesOnAs (.lbrk q) s (c.setPth { c.pth with
          mask := c.pth.mask &&& ~~~m, loops := { e with broken := e.broken ||| m } :: r })) ∧
        (m ≠ 0 → c.pth.mask &&& ~~~m = 0 → goesOnAs (.lbrk q) s
          { c.setPth { c.pth with mask := e.broken ||| m, loops := r } with next := e.stop })

/-- R272, R278, R279, R201, R209, R236. `exit` ends the lanes of the path; `trig` and `bar` order the path's lanes by a fence at
their place among the clause's effects; `fnc` performs the effects before it and goes on once its waits are met, an acquire with
the lines of its L1 discarded, and holds its clause until then: for a path with no pending fault and no watch entry of its
lanes. The model's choices: while the checks of the whole clause are made, nothing waits and nothing is discarded (log 14), and
the wait covers the same accesses at every scope (log 29). -/
def Obligations.Releases : Prop :=
  ∀ s c, s.issue = some c → releasable c →
    (∃ c', goesOnAs .exit s c' ∧ (c'.wave.path c.path).mask = 0 ∧ c'.wave.ended = c.wave.ended ||| c.pth.mask ∧
      (∀ e ∈ c'.wave.div, e.arrived &&& c.pth.mask = 0 ∧ ∀ x ∈ e.deferred, x.2 &&& c.pth.mask = 0) ∧
      c'.effects = c.effects ∧ c'.next = c.next ∧ c'.wave.v = c.wave.v ∧ c'.wave.k = c.wave.k ∧ c'.wave.q = c.wave.q) ∧
    goesOnAs .trig s { c with effects := c.effects ++ [.fence c.pth.mask .rel .device, .trigger] } ∧
    (∀ (cl : Bool) (n : BitVec 4), goesOnAs (.bar cl n) s { c.setPth { c.pth with wait := .barrier cl n.toNat } with
      effects := c.effects ++ [.fence c.pth.mask .rel (if cl then .cluster else .group)] }) ∧
    (c.effects = [] → s.flush c = ({ s with issue := some c }, c)) ∧
    ∀ k sc, let r := if c.phase = .checking then (s, c) else s.flush c
      if c.phase = .checking ∨ (r.2.effects = [] ∧ r.1.dev.fenceMet c.wave.id c.pth.mask k = true) then
        exec (.fnc k sc) s = .next { r.1 with
          dev := if k = .rel ∨ c.phase = .checking then r.1.dev else r.1.dev.discardL1 r.2.wave.id.launch r.2.wave.core sc
          issue := some r.2.retire }
      else exec (.fnc k sc) s = .next (r.1.abandon r.2 .hold)

/-- R282, R283, R72. `sysrd` and `clk` write a special value to each active lane or once to a k register, zero-extended;
`syswr` writes the sticky flags or `%xva` from a uniform source, or from the lowest active lane, and nothing where no lane
is active. -/
def Obligations.SpecialRegisters : Prop :=
  ∀ s c, s.issue = some c →
    (∀ d n, c.hasDst (specialWide n) d → ∃ c', exec (.sysrd d n) s = .next { s with issue := some c' } ∧
      c.put c' d (specialWide n) false c.active (fun l => match n with
        | .lane => l
        | .wave => c.wave.id.wave
        | .helper => if c.wave.helper.getLsbD l then 1 else 0
        | .retired => c.wave.retired.toNat
        | .timebase => s.dev.timebase.toNat
        | .step => s.dev.step (s.dev.ctxOf c.wave.id)
        | .fpflags => c.wave.fpflags.toNat
        | .faultmask => c.wave.faultmask.toNat
        | .xva => c.wave.xva.toNat
        | .pathmask => c.pth.mask.toNat
        | .watch => c.wave.watchWord.toNat) 0) ∧
    (∀ d, c.hasDst true d → ∃ c', exec (.clk d) s = .next { s with issue := some c' } ∧
      c.put c' d true false c.active
        (fun _ => (if s.dev.det c.wave.id then c.wave.retired else s.dev.clock).toNat) 0) ∧
    ∀ a, let lane := (List.range c.wave.width).find? c.active.getLsbD
      let x : Option Nat := match a with
        | .v _ | .x _ | .lane => lane.map (c.src false true a)
        | _ => some (c.src false true a 0)
      match x with
      | none => goesOnAs (.syswr a .fpflags) s c ∧ goesOnAs (.syswr a .xva) s c
      | some x =>
        goesOnAs (.syswr a .fpflags) s { c with wave := { c.wave with fpflags := BitVec.ofNat 6 x } } ∧
        goesOnAs (.syswr a .xva) s { c with wave := { c.wave with xva := BitVec.ofNat 16 x } }

/-- R284, R248. `sal` reads the send allowance of the destination that each lane names, 65,535 in deterministic mode; `spcfg`
converts more ways of the L1 to scratchpad, for a launch that is not fused: the core's L1 is emptied and the group's scratchpad
grows by 32 KiB a way. A destination above 511, of the one read for a k register or of an active real lane, is an illegal
instruction, with the mask of those lanes; so are more than eight ways and fewer than the core has. That `sal` reads single
registers in every type mode (log 60), and that the whole L1 is emptied (log 38), are the model's choices. -/
def Obligations.AllowanceAndWays : Prop :=
  ∀ s c, s.issue = some c →
    (∀ d a, let dest := c.src false true a
      let bad := match d with
        | .k _ => []
        | _ => (realLanes c).filter (fun l => decide (511 < dest l))
      let fails := bad ≠ [] ∨ ((∃ n, d = .k n) ∧ 511 < dest 0)
      (fails → exec (.sal d a) s = .next (s.abandon c (.fault 1 0x08 (maskOf bad) 0))) ∧
      (¬ fails → c.hasDst false d → ∃ c', exec (.sal d a) s = .next { s with issue := some c' } ∧
        c.put c' d false false c.active (fun l => if s.dev.det c.wave.id then 65535 else s.dev.allowance (dest l % 512)) 0)) ∧
    ∀ a, let n := (c.wave.k.getD a 0).toNat % 2 ^ 32
      let cur := (s.dev.core c.wave.core).ways
      let fused : Bool := match s.dev.launch? c.wave.id.launch with
        | some l => l.record.fuse && decide (2 ≤ l.record.ccores)
        | none => false
      (fused = true ∨ 8 < n ∨ n < cur → exec (.spcfg a) s = .next (s.abandon c (.fault 1 0x08 0 0))) ∧
      (fused = false → n ≤ 8 → n = cur → goesOnAs (.spcfg a) s c) ∧
      (fused = false → n ≤ 8 → cur < n → ∃ t, exec (.spcfg a) s = .next t ∧
        t.issue = some (c.send (.convert (n - cur))).retire ∧
        t.dev.core c.wave.core = { s.dev.core c.wave.core with ways := n, l1 := [] } ∧
        (t.dev.group? c.wave.id.launch c.wave.id.group).map (fun g => (g.scratchSize, g.converted)) =
          (s.dev.group? c.wave.id.launch c.wave.id.group).map (fun g =>
            (g.scratchSize + 32768 * (n - cur), g.converted + (n - cur))))

/-- R226 to R228. The checks of an access to the group's scratchpad, or to the lane's private space of 16,384 bytes: an
address that is no multiple of the width in some real lane is a misaligned-access fault with the mask of those lanes and
the address of the lowest; else one that reaches outside is an out-of-range fault of the same form; otherwise every lane
has its place, nothing of the device changes, and the helper lanes that fail make no access. An access where no data is lost
is meant. While the checks of a whole clause are made, the access that has passed is kept, and one that is kept is not checked
again once a fence of its clause has sent what stands before it (log 14). -/
def Obligations.LocalChecks : Prop :=
  ∀ (priv : Bool) (s : State) (c : Issue) (need : Need) (width : Nat) (addr : Nat → Int),
    (width = 4 ∨ width = 8) →
    let tier : Space := if priv then .priv c.wave.id else .scratch c.wave.id.launch c.wave.id.group
    let lanes := (List.range c.wave.width).filter c.active.getLsbD
    let addrs := lanes.map (fun l => (l, addr l))
    let size := if priv then 16384 else s.scratchSize c
    let sp : MemSpace := if priv then .priv else .scratch
    let off := fun l => decide (addr l % width ≠ 0)
    let out := fun l => decide (¬(0 ≤ addr l ∧ addr l + width ≤ size))
    let real := fun l => !c.wave.helper.getLsbD l
    let place : Nat → Loc := fun l => ⟨tier, if priv then 16384 * l + (addr l).toNat else (addr l).toNat⟩
    let r := s.checkAccess c sp need width false lanes addr (fun _ => none)
    (∀ x, c.recorded addrs = some x → r = (s, .ok (x.parts, x.zero))) ∧
    (c.recorded addrs = none → (∀ l, s.dev.lost.contains ⟨tier, l⟩ = false) → s.dev.failing = [] →
    match lanes.filter (fun l => real l && off l) with
    | l :: ls => r = (s, .error (.fault 4 0x01 (maskOf (l :: ls)) (BitVec.ofInt 64 (addr l))))
    | [] =>
      match lanes.filter (fun l => real l && out l) with
      | l :: ls => r = (s, .error (.fault 5 0x06 (maskOf (l :: ls)) (BitVec.ofInt 64 (addr l))))
      | [] =>
        let parts := (lanes.filter (fun l => !off l && !out l)).map (fun l => ({
          lane := l, loc := place l, va := BitVec.ofNat 64 (addr l).toNat, value := 0, value2 := 0, copy := none
          version := none, old := false } : LaneAccess))
        let zero := lanes.filter (fun l => off l || out l)
        r = (s.record addrs parts zero, .ok (parts, zero)))

/-- R228 to R230, R234, R245. The loads complete when their checks pass: an access of the lanes checked will write the
destination, zero in the helper lanes that failed; a k destination makes one access, of the lowest lane of the path. A failed
check ends the clause. -/
def Obligations.Loads : Prop :=
  ∀ p ∈ loadForms, ∀ d a b s c, s.issue = some c →
    let wideAddr : Bool := p.space = .global ∨ p.space = .version ∨ p.space = .fabric
    let scalar : Bool := match d with | .k _ => true | _ => false
    let lanes := if scalar then [((List.range c.wave.width).find? c.pth.mask.getLsbD).getD 0]
      else (List.range c.wave.width).filter c.active.getLsbD
    let r := s.checkAccess c p.space .read (accessWidth c) scalar lanes (c.addrOf wideAddr a b) (fun _ => none)
    (∀ t parts zero, r = (t, .ok (parts, zero)) → let c0 := t.issue.getD c
      sends (p.form d a b) s t c0 true
        (accessOf t c0 p.kind (accessWidth c0) parts (c0.destOf d c0.ty.wide) true p.counter
          (zero.map (fun l => (l, 0))))) ∧
    (∀ t e, r = (t, .error e) → exec (p.form d a b) s = .next (t.abandon (t.issue.getD c) e))

/-- R25, R225, R228, R230. The stores complete when the checks of the active real lanes pass: an access will write the
bytes of d at their places. A failed check ends the clause. -/
def Obligations.Stores : Prop :=
  ∀ p ∈ storeForms, ∀ d a b s c, s.issue = some c →
    let r := s.checkAccess c p.space .write (accessWidth c) false (realLanes c) (c.addrOf (decide (p.space = .global)) a b)
      (fun _ => none)
    (∀ t parts zero, r = (t, .ok (parts, zero)) → let c0 := t.issue.getD c
      sends (p.form d a b) s t c0 false
        (accessOf t c0 .store (accessWidth c0) (parts.map (fun la =>
          { la with value := BitVec.ofNat 64 (c0.src c0.ty.wide false d la.lane) })) .none false p.counter [])) ∧
    (∀ t e, r = (t, .error e) → exec (p.form d a b) s = .next (t.abandon (t.issue.getD c) e))

/-- R312, R313, R232, R233. The fabric store and atomics `stf`, `xadd` and `xcas` complete when their checks pass and every
part stays on this device or the allowances of the destinations cover the clause: what the clause has not paid already is spent,
and the charges come before the access. Where an allowance does not cover it, the clause is not ready, and its path waits for
that allowance. While the checks of the whole clause are made, nothing is spent (log 14). -/
def Obligations.FabricWrites : Prop :=
  ∀ (d a b : Operand) s c, s.issue = some c →
    let out (i : Instr) (need : Need) (kind : AccessKind) (late : Bool) : Prop :=
      let r := s.checkAccess c .fabric need (accessWidth c) false (realLanes c) (c.addrOf true a b) (fun _ => none)
      (∀ t parts zero, r = (t, .ok (parts, zero)) → let c0 := t.issue.getD c
        let parts' := if late then withValues c0 d parts
          else parts.map (fun la => { la with value := BitVec.ofNat 64 (c0.src c0.ty.wide false d la.lane) })
        let units := charges parts'
        let asked : Nat × Nat → Nat := fun x =>
          if c0.phase = .checking then c0.charged x.1 + x.2
          else c0.charged x.1 + x.2 - max ((c0.paid.lookup x.1).getD 0) (c0.charged x.1)
        match units.find? (fun x => decide (t.dev.allowance x.1 < asked x)) with
        | none =>
          let t' := if c0.phase = .checking then t
            else { t with dev := units.foldl (fun d x => d.spend x.1 (asked x)) t.dev }
          sends i s t' { c0 with effects := c0.effects ++ units.map (fun x => .allowance x.1 x.2) } late
            (accessOf t' c0 kind (accessWidth c0) parts' (if late then c0.destOf d c0.ty.wide else .none) late (some 2) [])
        | some x => exec i s = .next (t.abandon c0 (.notReady (.allowance x.1 (c0.charged x.1 + x.2))))) ∧
      ∀ t e, r = (t, .error e) → exec i s = .next (t.abandon (t.issue.getD c) e)
    out (.stf d a b) .write .store false ∧
    (among (.b32 :: words) c.ty = true → out (.xadd d a b) .atomic (.atomic 0xCC) true) ∧
    (among (.b32 :: words) c.ty = false → exec (.xadd d a b) s = .next (s.abandon c (.fault 1 0x05 0 0))) ∧
    out (.xcas d a b) .atomic (.atomic 0xCD) true

/-- R228, R232 to R234. The atomics on this device and `stcn` complete when their checks pass, for the types that each takes: an
access will read and write the place in each active real lane; a helper lane's `stcn` gives zero. Another type is an
illegal instruction, and a failed check ends the clause. -/
def Obligations.Atomics : Prop :=
  (∀ p ∈ atomicForms, ∀ d a b, refusesType (among p.types) (p.form d a b) ∧ ∀ s c, s.issue = some c →
    among p.types c.ty = true →
    let r := s.checkAccess c p.space .atomic (accessWidth c) false (realLanes c)
      (c.addrOf (decide (p.space = .global)) a b) (fun _ => none)
    (∀ t parts zero, r = (t, .ok (parts, zero)) → let c0 := t.issue.getD c
      sends (p.form d a b) s t c0 true (accessOf t c0 (.atomic p.opcode) (accessWidth c0) (withValues c0 d parts)
        (c0.destOf d c0.ty.wide) true p.counter [])) ∧
    (∀ t e, r = (t, .error e) → exec (p.form d a b) s = .next (t.abandon (t.issue.getD c) e))) ∧
  ∀ d a b s c, s.issue = some c →
    let r := s.checkAccess c .global .write (accessWidth c) false (realLanes c) (c.addrOf true a b) (fun _ => none)
    (∀ t parts zero, r = (t, .ok (parts, zero)) → let c0 := t.issue.getD c
      sends (.stcn d a b) s t c0 true (accessOf t c0 .stcn (accessWidth c0) (parts.map (fun la =>
          { la with value := BitVec.ofNat 64 (c0.src c0.ty.wide false d la.lane) })) (c0.destOf d c0.ty.wide) true (some 0)
        (((List.range c0.wave.width).filter (c0.active &&& c0.wave.helper).getLsbD).map (fun l => (l, 0))))) ∧
    ∀ t e, r = (t, .error e) → exec (.stcn d a b) s = .next (t.abandon (t.issue.getD c) e)

/-- R231, R365. The asynchronous copies complete when the checks of the active real lanes pass, the scratchpad address of each
among them: four words per lane; `ldgs` sets a completion flag and `stsg` sets none. A scratchpad address that is no
multiple of 16, or whose 16 bytes reach outside the scratchpad, fails the lane, and so does a `stsg` from bytes whose data is
lost. -/
def Obligations.Copies : Prop :=
  ∀ (store : Bool) (d a b : Operand) s c, s.issue = some c →
    let i : Instr := if store then .stsg d a b else .ldgs d a b
    let p : Nat → Nat := fun l => c.src false true d l
    let extra : Nat → Option LaneBad := fun l =>
      if p l % 16 ≠ 0 then some ⟨1, 4, 0x01, BitVec.ofNat 64 (p l), none⟩
      else if p l + 16 ≤ s.scratchSize c then
        (if store then (s.dev.readLoss none ⟨.scratch c.wave.id.launch c.wave.id.group, p l⟩ 16).map
          (fun code => ⟨5, 11, code, BitVec.ofNat 64 (p l), none⟩) else none)
      else some ⟨2, 5, 0x06, BitVec.ofNat 64 (p l), none⟩
    let r := s.checkAccess c .global (if store then .write else .read) 16 false (realLanes c) (c.addrOf true a b) extra
    (∀ t parts zero, r = (t, .ok (parts, zero)) → let c0 := t.issue.getD c
      sends i s t c0 (!store) (accessOf t c0 (if store then .stsg else .ldgs) 4 (parts.flatMap (fun la =>
        (List.range 4).map (fun n => { la with
          loc := { la.loc with addr := la.loc.addr + 4 * n }
          va := la.va + BitVec.ofNat 64 (4 * n)
          value := BitVec.ofNat 64 (c0.src false true d la.lane + 4 * n) }))) .none (!store) (some 0) [])) ∧
    (∀ t e, r = (t, .error e) → exec i s = .next (t.abandon (t.issue.getD c) e))

/-- R239, R240, R244. The early loads complete when their checks pass. In deterministic mode they are ordinary loads. Otherwise
they record watch entries, at the end of the wave's list and numbered on: for lines of which the wave's die has a copy that it
may take early, while the wave has fewer than 32 and its core fewer than 256. An entry holds its line, the sequence number of
the copy, the wave's set and the lanes of the line, and is confirmed at once where the die holds the line in M or E; those
lanes take the bytes of the copy. The entries of a remote home are asked for as the instruction issues, not while the checks of
the whole clause are made (log 14). Nothing else of the clause differs from an ordinary load's, and nothing of the device but
lines of the L1s. -/
def Obligations.EarlyLoads : Prop :=
  ∀ (fabric : Bool) (d a b : Operand) s c, s.issue = some c →
    let i : Instr := if fabric then .lfe d a b else .lde d a b
    let r := s.checkAccess c (if fabric then .fabric else .global) .read (accessWidth c) false
      ((List.range c.wave.width).filter c.active.getLsbD) (c.addrOf true a b) (fun _ => none)
    (∀ t parts zero, r = (t, .ok (parts, zero)) → let c0 := t.issue.getD c
      let w := c0.wave
      let mine : LaneAccess → Bool := fun la => !w.helper.getLsbD la.lane &&
        (if fabric then la.loc.space == .fabric else la.loc.global)
      let on := fun (line : Loc) => parts.filter (fun la => la.loc.line == line && !w.helper.getLsbD la.lane)
      let others := ((t.dev.waves.filter (fun x => x.core == w.core && x.id != w.id)).map
        (fun x => ((t.waveNow x.id).map (fun y => y.watch.length)).getD 0)).sum
      ∃ (more : List WatchEntry) (copies : Nat → Option W64) (cores : List Core),
        (t.dev.det w.id = true → more = [] ∧ ∀ l, copies l = none) ∧
        (∀ i, { { t.dev with cores := cores }.core i with l1 := [] } = { t.dev.core i with l1 := [] }) ∧
        (more.map WatchEntry.line).Nodup ∧
        (∀ n (e : WatchEntry), more[n]? = some e → ∃ copy, t.earlyCopy c0 e.line = some copy ∧ (∃ la ∈ parts, mine la = true ∧ la.loc.line = e.line) ∧
          e = { id := t.dev.nextId + n, fabric := fabric, line := e.line
                va := (((on e.line).head?).map LaneAccess.va).getD 0, seq := copy.seq, set := w.wset, lanes := maskOf ((on e.line).map LaneAccess.lane)
                state := if copy.state = .modified ∨ copy.state = .exclusive then .confirmed else .pending }) ∧
        (∀ n la, parts[n]? = some la → copies n =
          if mine la = true ∧ la.loc.line ∈ more.map WatchEntry.line then
            (t.earlyCopy c0 la.loc.line).map (fun copy => BitVec.ofNat 64 (leNat (((if copy.valid then
              t.dev.peek la.loc.line 128 else copy.data).drop (la.loc.addr % 128)).take (accessWidth c0))))
          else none) ∧
        (more ≠ [] → w.watch.length + more.length ≤ 32 ∧ others + w.watch.length + more.length ≤ 256) ∧
        (t.dev.det w.id = false → w.watch.length + more.length < 32 → others + w.watch.length + more.length < 256 →
          ∀ la ∈ parts, mine la = true → (t.earlyCopy c0 la.loc.line).isSome = true → la.loc.line ∈ more.map WatchEntry.line) ∧
        let c1 := { c0 with wave := { w with watch := w.watch ++ more } }
        let t1 : State := { t with
          dev := { t.dev with cores := cores, nextId := t.dev.nextId + more.length }, issue := some c1 }
        let t2 := if c1.phase = .checking then t1 else
          (more.filter (fun e => e.fabric && e.state == .pending)).foldl (fun u e => u.askVerdict w.id e) t1
        let c2 := t2.issue.getD c1
        sends i s t2 c2 true (accessOf t2 c2 .load (accessWidth c0)
          (parts.mapIdx (fun n la => { la with copy := (copies n).or la.copy })) (c0.destOf d c0.ty.wide) true
          (some (if fabric then 2 else 0)) (zero.map (fun l => (l, 0))))) ∧
    (∀ t e, r = (t, .error e) → exec i s = .next (t.abandon (t.issue.getD c) e))

/-- R285, R286, R237. `cond` sends its write of a condition word as one relaxed atomic, and nothing where its value has no
active lane; `enq`, for a path with no pending fault and no watch entry, is a release and sends its graph once, for an
address that is a multiple of 64, where the checks of its clause find fewer than 64 graphs held, and its path waits where they
find 64 (log 14); a misaligned address faults, but not one that a helper lane supplies, for which nothing is sent; `fsys`, once
its waits are met, writes the bitmap of failed peers to its 64 bytes of scratchpad and the count of its bits to d; an address
that is no multiple of
64, or outside the scratchpad, faults. How `fsys` waits for the writes before it (log 14), that its address is checked before
it waits (log 39), and what an address of a helper lane does (log 64), are the model's readings. -/
def Obligations.SystemMemory : Prop :=
  ∀ s c, s.issue = some c →
    let low := (List.range c.wave.width).find? c.active.getLsbD
    let lanewide : Operand → Bool := fun o => match o with | .v _ | .x _ | .lane => true | _ => false
    let once : Bool → Operand → Option Nat := fun wide o =>
      if lanewide o then low.map (c.src wide true o) else some (c.src wide true o 0)
    (∀ a b, let x := c.src true true a 0
      let base := match s.dev.launch? c.wave.id.launch with
        | some l => ((s.dev.graphs.find? (fun g => g.id == l.graph)).map Graph.condAt).getD 0
        | none => 0
      (1024 ≤ x → exec (.cond a b) s = .next (s.abandon c (.fault 1 0x08 0 0))) ∧
      (x < 1024 → once false b = none →
        sends (.cond a b) s s c false (accessOf s c (.cond 0) 4 [] .none false (some 0) [])) ∧
      ∀ v, x < 1024 → once false b = some v → ∀ t parts zero,
        s.checkAccess c .global .write 4 true [((List.range c.wave.width).find? c.pth.mask.getLsbD).getD 0]
          (fun _ => ((base + 4 * (x % 256) : Nat) : Int)) (fun _ => none) = (t, .ok (parts, zero)) →
        let c0 := t.issue.getD c
        sends (.cond a b) s t c0 false (accessOf t c0 (.cond (x / 256)) 4
          (parts.map (fun la => { la with value := BitVec.ofNat 64 v })) .none false (some 0) [])) ∧
    (releasable c → c.phase = .checking → 64 ≤ s.dev.openGraphs (s.dev.ctxOf c.wave.id) → ∀ a b,
      exec (.enq a b) s = .next (s.abandon c (.notReady .graphs))) ∧
    (releasable c → (c.phase = .checking → s.dev.openGraphs (s.dev.ctxOf c.wave.id) < 64) → ∀ a b,
      let c0 := { c with effects := c.effects ++ [.fence c.pth.mask .rel .device] }
      (∀ x v, once true a = some x → once false b = some v →
        if x % 64 = 0 then sends (.enq a b) s s c0 false (accessOf s c0 (.enq (BitVec.ofNat 32 v)) 0
          [{ lane := low.getD 0, loc := ⟨.priv c.wave.id, 0⟩, va := BitVec.ofNat 64 x, value := 0, value2 := 0, copy := none
             version := none, old := false }] .none false (some 3) [])
        else if lanewide a = true ∧ (low.map c.wave.helper.getLsbD).getD false = true then
          sends (.enq a b) s s c0 false (accessOf s c0 (.cond 0) 0 [] .none false (some 3) [])
        else exec (.enq a b) s = .next ({ s with dev := { s.dev with nextId := s.dev.nextId + 1 } }.abandon c
          (.fault 4 0x02 (if lanewide a then maskOf [low.getD 0] else 0) (BitVec.ofNat 64 x)))) ∧
      (once true a = none ∨ once false b = none →
        sends (.enq a b) s s c0 false (accessOf s c0 (.cond 0) 0 [] .none false (some 3) []))) ∧
    ∀ d a b, let vec := lanewide a || lanewide b
      let skip : Bool := vec && low.isNone
      let helper : Bool := vec && (low.map c.wave.helper.getLsbD).getD false
      let addr := c.addrOf false a b (low.getD 0)
      let within : Bool := decide (0 ≤ addr ∧ addr + 64 ≤ s.scratchSize c)
      let mask := if vec then maskOf [low.getD 0] else 0
      (skip = false → helper = false → addr % 64 ≠ 0 →
        exec (.fsys d a b) s = .next (s.abandon c (.fault 4 0x01 mask (BitVec.ofInt 64 addr)))) ∧
      (skip = false → helper = false → addr % 64 = 0 → within = false →
        exec (.fsys d a b) s = .next (s.abandon c (.fault 5 0x06 mask (BitVec.ofInt 64 addr)))) ∧
      (skip = true ∨ helper = true ∨ (addr % 64 = 0 ∧ within = true) → releasable c → c.effects = [] →
        (c.phase = .checking ∨ s.dev.fenceMet c.wave.id c.pth.mask .sc = true) → c.hasDst false d →
        let bits := s.dev.peerBitmap (s.dev.ctxOf c.wave.id)
        ∃ c', c.put c' d false false c.active (fun _ => ((List.range 512).filter bits.getLsbD).length) 0 ∧
          exec (.fsys d a b) s = .next { s with issue := some { c' with
            effects := if skip = true ∨ addr % 64 ≠ 0 ∨ within = false then [] else
              [.put ⟨.scratch c.wave.id.launch c.wave.id.group, addr.toNat⟩ (leBytes 64 bits.toNat)] } })

/-- R153 to R155, R162, R163. `wld`, `wfmt`, `wswp` and `mmz` place one operation in the queue of the wave's core (`mmz` none
where no lane is active), unless the clause of another wave holds with an operation for it, which comes first; sizes, offsets,
types and addresses outside the stated limits fault. The model's choices: what a misaligned `wld` reports (log 75), the code of
a reserved value of `wfmt` (log 40), and that the held clause of another wave comes first (log 14). -/
def Obligations.MatrixSetup : Prop :=
  ∀ s c, s.issue = some c →
    placesMatrix .wswp s c (fun op => [(c.wave.core, .wswp op c.wave.id)]) ∧
    (∀ d, placesMatrix (.mmz d) s c (fun op =>
      if c.active = 0 then [] else [(c.wave.core, .mmz op c.wave.id c.active (regNum d))])) ∧
    (∀ a, let x := c.src false true a 0
      if x % 16 ∈ [8, 9, 10, 11, 12, 13, 14] ∧ x / 16 % 4096 = 0 then
        placesMatrix (.wfmt a) s c
          (fun op => [(c.wave.core, .wfmt op c.wave.id (BitVec.ofNat 4 x) (BitVec.ofNat 16 (x / 65536)))])
      else exec (.wfmt a) s = .next (s.abandon c (.fault 1 0x01 0 0))) ∧
    ∀ d a b, let off := c.src false true d 0
      let addr := c.src false true a 0
      let n := c.src false true b 0
      if n < 16 ∨ 131072 < n ∨ 131072 < off + n then exec (.wld d a b) s = .next (s.abandon c (.fault 1 0x08 0 0))
      else if off % 16 ≠ 0 ∨ addr % 16 ≠ 0 ∨ n % 16 ≠ 0 then
        exec (.wld d a b) s = .next (s.abandon c (.fault 4 0x01 0 (BitVec.ofNat 64 addr)))
      else if s.scratchSize c < addr + n then
        exec (.wld d a b) s = .next (s.abandon c (.fault 5 0x06 0 (BitVec.ofNat 64 addr)))
      else placesMatrix (.wld d a b) s c (fun op => [(c.wave.core, .wld op c.wave.id off addr n none)])

/-- R150, R156 to R158, R161. `mma` and `mmac`: for a type pair that R150 names on every core of the chain, a tile offset
of at most 8,191, a layout permutation of at most 6 and rows that pass their checks in the active real lanes, each octet
of lanes with an active lane becomes one operation on each core, for sixteen D registers each, with the rows of A as the
scratchpad holds them at issue. A pair that is not named is an illegal instruction. That the rows are read at issue (log 75)
and that the held clause of another wave comes first (log 14) are the model's choices. -/
def Obligations.MatrixMultiply : Prop :=
  ∀ (chained : Bool) (d a b : Operand) s c, s.issue = some c →
    let i : Instr := if chained then .mmac d a b else .mma d a b
    let chain := if chained then s.dev.chainCores c.wave else [c.wave.core]
    let tile := c.src false true b 0
    let lw := c.layout (regNum a)
    let named := fun t u : EType => (t, u) ∈ [(EType.f64, EType.f64), (.f32, .f32), (.f16, .f16), (.f16, .bf16),
      (.bf16, .f16), (.bf16, .bf16), (.t8, .t8), (.f4, .t6), (.f4, .f4)]
    ((∃ k ∈ chain, ¬ named c.ty (s.btypeAt c k)) → exec i s = .next (s.abandon c (.fault 1 0x05 0 0))) ∧
    ((∀ k ∈ chain, named c.ty (s.btypeAt c k)) → tile ≤ 8191 → bitsOf lw 95 92 ≤ 6 →
      (∀ l ∈ realLanes c, ∀ p, rowPlaces c.ty lw l = some p → rowCheck (s.scratchSize c) (p.1 ++ p.2) = none) →
      let octets := ((List.range (c.wave.width / 8)).map (fun o =>
        (List.range c.wave.width).filter (fun l => c.active.getLsbD l && l / 8 == o))).filter (fun ls => !ls.isEmpty)
      let seen := s.scratchCover c
      let loses := fun (p : Nat × Nat) =>
        (seen.readLoss none ⟨.scratch c.wave.id.launch c.wave.id.group, p.1⟩ p.2).isSome
      placesMatrixOn chain i s c (fun op => chain.zipIdx.flatMap (fun x => octets.map (fun ls =>
        (x.1, .mma op chained c.wave.id (regNum d + 16 * x.2) (c.pth.mode.extractLsb' 0 4) (16 * tile)
          c.wave.xva (ls.map (readRow (s.scratchNow c) (s.scratchSize c) loses c.ty lw)))))))

/-- R170, R171. The splat instructions complete for a record of 64 bytes, aligned on 64, inside the scratchpad: one
operation with the instruction's opcode joins the queue of the wave's hardware cluster when the clause ends. A misaligned
record is a misaligned-access fault, code 0x02, and one that reaches outside an out-of-range fault. -/
def Obligations.SplatIssue : Prop :=
  ∀ p ∈ ([(.spm, 0xE0), (.spj, 0xE1), (.sbn, 0xE2), (.sst, 0xE3), (.sbl, 0xE4), (.sbk, 0xE5)] :
      List ((Operand → Instr) × Nat)), ∀ a s c, s.issue = some c →
    let x := c.src false true a 0
    if x % 64 ≠ 0 then exec (p.1 a) s = .next (s.abandon c (.fault 4 0x02 0 (BitVec.ofNat 64 x)))
    else if s.scratchSize c < x + 64 then exec (p.1 a) s = .next (s.abandon c (.fault 5 0x06 0 (BitVec.ofNat 64 x)))
    else exec (p.1 a) s = .next { s with
      dev := { s.dev with nextId := s.dev.nextId + 1 }
      issue := some ((c.takeFlag s.dev.nextId).send (.splat (c.wave.core / 4)
        { op := s.dev.nextId, opcode := p.2, w := c.wave.id, clause := c.header, record := x, command := [],
          accepted := false, parked := false })).retire }

/-- R217, R250, R251, R253, R365. The engine instructions complete for a record of 64 bytes, aligned on 64, inside the
scratchpad, no byte of which is lost, while the die's range-lock table has room for the ranges beside what the other
clauses keep: one command joins its engine's queue when the clause ends, with the record's bytes as they stand at issue,
the tensor descriptor of a `ckp` and the list of an `lxf`. The ranges of a valid command are registered at once, together;
an invalid one registers nothing and keeps the code with which it will complete. Where the room is not there, the clause
is not ready. A misaligned record and one that reaches outside fault. The room that other clauses keep from their start on is
the model's reading (log 14). -/
def Obligations.EngineIssue : Prop :=
  ∀ p ∈ ([(.cpy, 0xE8), (.lxf, 0xE9), (.hxc, 0xEA), (.ared, 0xEB), (.pub, 0xEC), (.vret, 0xED), (.ckp, 0xEE)] :
      List ((Operand → Instr) × Nat)), ∀ a s c, s.issue = some c →
    let x := c.src false true a 0
    let size := s.scratchSize c
    (x % 64 ≠ 0 → exec (p.1 a) s = .next (s.abandon c (.fault 4 0x02 0 (BitVec.ofNat 64 x)))) ∧
    (x % 64 = 0 → size < x + 64 → exec (p.1 a) s = .next (s.abandon c (.fault 5 0x06 0 (BitVec.ofNat 64 x)))) ∧
    (x % 64 = 0 → x + 64 ≤ size → s.dev.failing = [] →
      let m := s.scratchNow c
      let record := m.readN x 64
      let ctx := s.dev.ctxOf c.wave.id
      let die := c.wave.core / 64
      let command := if p.2 = 0xEE then record ++ m.readN (cmdField record 16 19) 128 else record
      let list := if p.2 = 0xE9 then (List.range (min 512 ((size - cmdField record 40 43) / 2))).map (fun i =>
        leNat (m.readN (cmdField record 40 43 + 2 * i) 2)) else []
      let engine : Engine := if p.2 = 0xE9 then .pattern else if p.2 = 0xEC ∨ p.2 = 0xED then .snapshot
        else .runner (4 * die + c.wave.core / 4 % 16 % 4)
      let room := s.lockRoom die (some c.wave.id)
      let completes := fun (ranges : List LockRange) (reject : Option Nat) =>
        exec (p.1 a) s = .next { s with
          dev := { s.dev with
            nextId := s.dev.nextId + 1
            locks := s.dev.locks ++ ranges.map (fun r =>
              ⟨die, ctx, r.write, r.version, r.base, r.length, s.dev.nextId⟩) }
          issue := some (({ c with
            room := c.room.map (fun (r : Nat × Nat) => if r.1 = die then (r.1, r.2 - ranges.length) else r) }.takeFlag s.dev.nextId).send
              (.engine { id := s.dev.nextId, ctx := ctx, engine := engine, opcode := p.2
                         cls := (classOf p.2 (cmdField record 47 47)).2, w := some c.wave.id, clause := c.header
                         record := ⟨.scratch c.wave.id.launch c.wave.id.group, x⟩, command := command
                         list := list.map (BitVec.ofNat 16), reject := reject, accepted := false, parked := false
                         node := none, phase := 0, acked := 0, failure := none, log := [], replay := [], regStep := s.dev.step ctx
                         regTime := s.dev.timebase })).retire }
      (∀ code, s.dev.validEngine ctx p.2 c.wave.core size command list = .reject code → completes [] (some code)) ∧
      ∀ ranges, s.dev.validEngine ctx p.2 c.wave.core size command list = .ok ranges →
        (ranges.length ≤ room → completes ranges none) ∧
        (room < ranges.length → exec (p.1 a) s = .next (s.abandon c (.notReady (.locks die
          (((s.dev.locks.filter (fun e => e.die == die && c.commands.contains e.owner)).length) + ranges.length))))))

/-- R37, R45, R46, R61, R212. The events of accesses in flight. The lowest lane of a store, with no earlier part at its
place, is performed: its bytes stand in HBM, and the access keeps the other lanes, or is done. A late computation, or a
load of one lane of the scratchpad, writes its destination, sets its sticky flags and clears its completion flag; half of
a pair may come before the other. A counter falls when its oldest instruction has completed, and not before. A verdict
confirms or strikes a pending watch entry of this device: it strikes it where the directory no longer holds its number. -/
def Obligations.AccessEvents : Prop :=
  (∀ (s : State) op a l ls, s.dev.access? op = some a → a.failed = [] → a.results = [] → a.kind = .store →
    a.lanes = l :: ls → (∀ x ∈ ls, x.lane ≠ l.lane) → l.loc.space = .hbm → s.dev.partReady a l = true →
    s.dev.partRight a l = .here → s.dev.refusedBy (masterAt a.ctx 0 .hbm) l.loc a.width true = none →
    s.dev.lost.contains l.loc.line = false → s.dev.failing = [] → l.copy = none →
    let place := s.dev.storePlace a l
    place.space = .hbm → ∃ t, exec (.accessPerformed op 1) s = .next t ∧
      t.dev.hbm = s.dev.hbm.writeN place.addr (leBytes a.width l.value.toNat) ∧
      t.dev.access? op = (if ls.isEmpty then none else some { a with lanes := ls }) ∧ keepsButHbm s t) ∧
  (∀ (s : State) op a w, s.dev.access? op = some a → a.failed = [] → s.waveNow a.w = some w →
    let finishes := fun (rs : List (Nat × W64)) =>
      ∃ t, exec (.longLatencyCompletion op (.whole (BitVec.allOnes 64))) s = .next t ∧ t.dev.access? op = none ∧
        keepsMemory s t ∧ (∀ id, id ≠ a.w → t.waveNow id = s.waveNow id) ∧ t.waveNow a.w = some (
          let x : Wave := (w.writeDest a rs none).orFlags a.fp
          { x with
            path0 := { x.path0 with flags := x.path0.flags.map (FlagState.done op) }
            path1 := { x.path1 with flags := x.path1.flags.map (FlagState.done op) } })
    (a.kind = .compute → a.lanes = [] → (∀ r ∈ a.results, r.1 < 64) → finishes a.results) ∧
    (∀ l la g, a.kind = .load → a.results = [] → a.lanes = [l] → l.lane < 64 → l.copy = none →
      l.loc.space = .scratch la g → s.dev.partReady a l = true → s.dev.failing = [] →
      finishes [(l.lane, BitVec.ofNat 64 (leNat (s.dev.peek l.loc a.width)))]) ∧
    ∀ high n lane x, a.kind = .compute → a.lanes = [] → a.results = [(lane, x)] → lane < 64 → a.dest = .v n true →
      a.halves = [] → n + 1 < w.v.length → (∀ r ∈ w.v, lane < r.length) →
      ∃ t w', exec (.longLatencyCompletion op (.half high (BitVec.allOnes 64))) s = .next t ∧
        t.dev.access? op = some { a with halves := [(lane, high)] } ∧ t.waveNow a.w = some w' ∧
        w' = { w with v := w'.v } ∧ wroteRows (lane + 1) w.v w'.v false (if high then n + 1 else n) (maskOf [lane])
          (fun _ => (x.extractLsb' (if high then 32 else 0) 32).toNat)) ∧
  (∀ (s : State) launch group ctr g, s.dev.group? launch group = some g →
    (∀ op rest, g.counters[ctr]? = some ((op, true) :: rest) →
      (s.dev.waves.any (fun w => w.id.launch == launch && w.id.group == group && !w.over)) = true →
      ∃ t, exec (.counterDecrement launch group ctr) s = .next t ∧
        t.dev.group? launch group = some { g with counters := g.counters.set ctr rest } ∧
        keepsRegisters s t ∧ keepsMemory s t) ∧
    (∀ op rest, g.counters[ctr]? = some ((op, false) :: rest) → exec (.counterDecrement launch group ctr) s = .next s)) ∧
  ∀ (s : State) id n (strike : Bool) w e, s.waveNow id = some w → w.watch[n]? = some e →
    (e.state ≠ .pending ∨ e.fabric = true → exec (.watchVerdict id n strike) s = .next s) ∧
    (e.state = .pending → e.fabric = false → let stands := (s.dev.dirLine e.line).held && (s.dev.dirLine e.line).seq == e.seq
      ∃ t w', exec (.watchVerdict id n strike) s = .next t ∧ t.waveNow id = some w' ∧
        w' = { w with watch := w'.watch } ∧ keepsMemory s t ∧ (w'.watch[n]?).map WatchEntry.state = some
          (if strike = false ∧ stands = true then .confirmed else .struck))

/-- R339, R247, R414. The fill of a first touch of a page whose hint is host memory writes its leaf, with the backing's
address, of which a leaf has no place for bits [7:0], and the group's wave waits no longer. A retired frame goes back to
its pool list, or is dropped and counted where the list is full. -/
def Obligations.FillsAndFrames : Prop :=
  (∀ (s : State) n f x h entry g, s.issue = none → s.dev.fills[n]? = some f → f.unit = none → f.cmd = none →
    f.pages = [g] → s.dev.ctx? f.ctx = some x → s.dev.hintOf x g.page = some h → h.home = 2 → h.large = false →
    s.dev.walkTable x.root g.page = .invalid entry 16 → s.dev.refusedBy firmwareMaster ⟨.hbm, entry⟩ 8 true = none →
    ∃ t, exec (.firstTouchFill n) s = .next t ∧ t.dev.fills = s.dev.fills.eraseIdx n ∧
      t.dev.hbm = s.dev.hbm.writeN entry
        (leBytes 8 (2 * 2 ^ 62 + 2 * 2 ^ 60 + (h.backing + (g.page / 65536 * 65536 - h.base)) / 256 * 256 + 0xD0)) ∧
      keepsButHbm s t ∧ ((∀ y ∈ t.dev.fills, y.w ≠ f.w) → ∀ w, t.dev.wave? f.w = some w → w.hold ≠ .fill)) ∧
  ∀ (s : State) n f x, s.dev.returns[n]? = some f → s.returnReady f = true → s.dev.ctx? f.ctx = some x →
    let i := if f.lpddr then 2 else 0
    let l := s.dev.poolList x i
    ∃ t, exec (.frameReturn n) s = .next t ∧ t.dev.returns = s.dev.returns.eraseIdx n ∧ keepsButHbm s t ∧
      (l.count < l.capacity → t.dev.hbm = (s.dev.hbm.writeN (l.array + 8 * l.count) (leBytes 8 f.frame)).writeN
        (x.pool + 16 * i + 8) (leBytes 4 (l.count + 1))) ∧
      (l.capacity ≤ l.count → t.dev.ctx? f.ctx = some { x with poolOverflow := x.poolOverflow + 1 })

/-- R27, R35, R36, R39, R294, R297. The events of the schedule. A bay with one wave that may start begins the clause of its
only path, which counts as the start of a clause where the checks of the whole clause need not come first (log 14), and no bay
selects while a clause is in execution; a path that has aged 256 clauses is to issue next, and in
deterministic mode the running path gives way after 256; a wave's clock becomes known once its synchronising operations are
performed; the next cluster of a launch is placed: that they come in ascending order, on which cores and in which slots, is the
model's choice (log 72); a launch that has used its budget halts with its context, a live wave of it with the watchdog fault.
Which event occurs next is the model's tape or default schedule (log 3). -/
def Obligations.Scheduling : Prop :=
  (∀ (s : State) dom, s.issue.isSome = true → exec (.clauseIssue dom) s = .next s) ∧
  (∀ (s : State) dom w c, s.issue = none → s.held = [] → s.dev.bayOrder dom = [w] → s.dev.wave? w.id = some w →
    (∀ x ∈ s.dev.waves, x.yieldTo = [] ∧ (x.id = w.id → x = w)) → s.mayStart w = true → w.last = 0 → w.forced = none →
    w.path0.live = true → w.path0.wait = .none → w.path0.park = .none → w.path1.live = false →
    (s.fetchFill w 0).startOf w 0 = .runs c →
    ∃ t, exec (.clauseIssue dom) s = .next t ∧ t.issue = some { c with
        wave := w.countStart 0 false (s.dev.det w.id), rival := false, counted := decide (c.phase = .running)
        turn := some (s.dev.rotation.lookup dom) } ∧
      t.dev.rotation.head? = some (dom, w.slot) ∧
      ∀ l, s.dev.launch? w.id.launch = some l → t.dev.launch? w.id.launch =
        some (if c.phase = .running then { l with used := l.used + 1 } else l)) ∧
  (∀ (s : State) id w, s.waveNow id = some w →
    (s.dev.det id = false → 256 ≤ w.path0.ageing →
      ∃ t, exec (.ageingSwitch id) s = .next t ∧ t.waveNow id = some { w with forced := some 0 }) ∧
    (s.dev.det id = true → 256 ≤ w.switches → (w.path (1 - w.last)).mayRun = true →
      ∃ t, exec (.detPathSwitch id) s = .next t ∧ t.waveNow id = some { w with last := 1 - w.last, switches := 0 })) ∧
  (∀ (s : State) id w, s.dev.wave? id = some w → s.syncPending id = false →
    ∃ t, exec (.isobarMinimumUpdate id) s = .next t ∧ t.dev.knownClock id = w.retired.toNat ∧
      keepsRegisters s t ∧ keepsMemory s t) ∧
  (∀ (s : State) launch hw l c cores, s.dev.launch? launch = some l → s.dev.ctx? l.ctx = some c →
    s.dev.mayPlace l = true → s.dev.placeOn c l hw = some cores →
    ∃ t, exec (.groupPlacement launch hw) s = .next t ∧
      t.dev.launch? launch = some { l with nextCluster := l.nextCluster + 1 } ∧
      t.dev.clusters = s.dev.clusters ++ [{ launch := launch, index := l.nextCluster, hw := hw, cores := cores
                                            barriers := List.replicate 16 ⟨0, []⟩ }] ∧
      ∃ more, t.dev.groups = s.dev.groups ++ more ∧ more.map Group.index = l.record.members l.nextCluster ∧
        (0 < l.record.ccores → ∀ g ∈ more, g.core ∈ cores)) ∧
  ∀ (s : State) launch l x, s.dev.launch? launch = some l → l.budget ≤ l.used → l.halted = false →
    s.dev.ctx? l.ctx = some x → (x.saving = none → x.halts = { x with state := 2 }) ∧
    let halts := fun (t : State) => t.dev.launch? launch = some { l with halted := true } ∧
      t.dev.ctx? l.ctx = some x.halts ∧ keepsRegisters s t ∧ keepsMemory s t
    (s.dev.watchdogWave launch = none → ∃ t, exec (.watchdogExpiry launch) s = .next t ∧ halts t) ∧
    ∀ w, s.dev.watchdogWave launch = some w → s.issueOf w.id = none →
      ∃ t w' b, exec (.watchdogExpiry launch) s = .next t ∧ halts t ∧ t.dev.wave? w.id = some w' ∧
        w'.hold = .halted b ∧ b.cls = 14

/-- R34, R46, R105, R106, R153 to R155, R159 to R162. The operations at the head of a core's matrix queue, in their order: a
weight load reads the scratchpad into the load bank once the wave's earlier scratchpad writes are performed, or takes the bytes
that were kept for it as the scratchpad was released; a format goes to the load bank; a swap exchanges the banks; an operation
of an octet, alone or as a part of a chain, accumulates into D from the active bank, and the zero write clears sixteen
registers in its lanes, each once no earlier operation on its D registers stands in a queue. The results of the last three may
be written element by element: those that an event selects stand in D, and the others stay at the head of the queue. Each
element is the chain of roundings over K, from the element of D that was there: one fused multiply-add a product in f64 and
f32; in the other types the exact sum of 32 products, under the scales, rounded to f32 and added. The queue loses its head and
nothing else of the core changes. The operations whose operands have lost no data are meant. That D is read as the operation
executes and that the head of the queue comes first, whichever D registers it names, are the model's readings (log 75). -/
def Obligations.MatrixQueue : Prop :=
  (∀ (s : State) core rest, s.dev.failing = [] → let c := s.dev.core core
    let writes := fun (t : State) (op : Nat) (kind : ResultsOf) (id : WaveId) (d : Nat) (els : List DElem) (p : DPart) (w : Wave) =>
      let left := els.filter (fun e => !(p.regs.getLsbD e.reg && p.lanes.getLsbD e.lane))
      t.dev.core core = { c with queue := if left = [] then rest else .results op kind id d left :: rest } ∧
      keepsMemory s t ∧ ∃ w', t.waveNow id = some w' ∧ w'.k = w.k ∧ w'.q = w.q ∧
        ((∀ r ∈ w.v, r.length = w.width) → wroteElements w.width w.v w'.v d
          (els.filter (fun e => p.regs.getLsbD e.reg && p.lanes.getLsbD e.lane)))
    let event := fun (kind : ResultsOf) (p : DPart) => match kind with
      | .mma => Instr.matrixOperation p
      | .part => .mmacPart p
      | .zero => .mmzWrite p
    (∀ op id off addr n kept, c.queue = .wld op id off addr n kept :: rest →
      kept.isSome = true ∨ s.dev.scratchSettled id op = true →
      ∃ t, exec (.weightLoadAccept core) s = .next t ∧ keepsRegisters s t ∧ keepsMemory s t ∧ t.dev.core core =
        { c.mapLoad (fun b => (b.1.writeN off (kept.getD (s.dev.peek ⟨.scratch id.launch id.group, addr⟩ n)), b.2)) with
          queue := rest }) ∧
    (∀ op id ty x, c.queue = .wfmt op id ty x :: rest →
      ∃ t, exec (.formatLatch core) s = .next t ∧ keepsRegisters s t ∧ keepsMemory s t ∧
        t.dev.core core = { c.mapLoad (fun b => (b.1, ty, x)) with queue := rest }) ∧
    (∀ op id, c.queue = .wswp op id :: rest →
      ∃ t, exec (.bankSwap core) s = .next t ∧ keepsRegisters s t ∧ keepsMemory s t ∧
        t.dev.core core = { c with active := !c.active, queue := rest }) ∧
    ∀ (p : DPart), p.core = core →
      (∀ op part id d ty tile xva rows w, c.queue = .mma op part id d ty tile xva rows :: rest → s.waveNow id = some w →
        s.dev.dFree (.mma op part id d ty tile xva rows) = true → (∀ r ∈ rows, r.lost = none) →
        let t := EType.ofCode ty.toNat
        let bt := EType.ofCode c.activeBank.2.1.toNat
        ∃ u els, exec (event (if part then .part else .mma) p) s = .next u ∧
          writes u op (if part then .part else .mma) id d els p w ∧
          (∀ e ∈ els, e.reg < (if t = .f64 then 2 else 1) * tileN bt ∧ ∃ r ∈ rows, r.lane = e.lane) ∧
          ∀ r ∈ rows, ∀ n, n < tileN bt →
            let old := rowsRead w.v (decide (t = .f64)) (if t = .f64 then d + 2 * n else d + n) r.lane
            let new := match tileImage c.activeBank.1 bt c.activeBank.2.1.toNat tile with
              | none => if t = .f64 then fmt64.nan else fmt32.nan
              | some img => ((⟨t, bt, xva.toNat, c.activeBank.2.2.toNat, leNat r.data, r.scales.map BitVec.toNat,
                  field img (n * (tileK bt * bt.bits / 8)) (tileK bt * bt.bits / 8),
                  if bt.scaled then (List.range (tileK bt / 32)).map (fun j =>
                    field img (tileData bt + 4 * (n * (tileK bt / 32) + j)) 4) else []⟩ : Chain).run old).1
            if t = .f64 then (⟨2 * n, r.lane, BitVec.ofNat 32 new⟩ : DElem) ∈ els ∧
              (⟨2 * n + 1, r.lane, BitVec.ofNat 32 (new / 2 ^ 32)⟩ : DElem) ∈ els
            else (⟨n, r.lane, BitVec.ofNat 32 new⟩ : DElem) ∈ els) ∧
      (∀ op id (lanes : Lanes) d w, c.queue = .mmz op id lanes d :: rest → s.waveNow id = some w →
        s.dev.dFree (.mmz op id lanes d) = true → ∃ t els, exec (.mmzWrite p) s = .next t ∧ writes t op .zero id d els p w ∧
          ∀ e : DElem, e ∈ els ↔ e.reg < 16 ∧ e.lane < w.width ∧ lanes.getLsbD e.lane = true ∧ e.value = 0) ∧
      ∀ op kind id d els w, c.queue = .results op kind id d els :: rest → s.waveNow id = some w →
        ∃ t, exec (event kind p) s = .next t ∧ writes t op kind id d els p w) ∧
  (∀ (x : Chain) (c : Nat),
    let pair := fun k => (elemAt x.at_ x.xva x.row k, elemAt x.bt x.xvw x.col k)
    let f := x.at_.ffmt
    let scale := fun (l : List Nat) j => scaleVal (l.getD j 0 % 2 ^ 20)
    (x.at_ = .f64 ∨ x.at_ = .f32 → x.run c = (List.range (tileK x.bt)).foldl (fun acc k =>
      let r := f.fmaV .rne false false false (pair k).1 (pair k).2 (f.decode acc.1)
      (r.1, acc.2 ||| r.2)) (c, 0)) ∧
    (x.at_ ≠ .f64 → x.at_ ≠ .f32 → x.run c = (List.range (tileK x.bt / 32)).foldl (fun acc j =>
      let ps := (List.range 32).map (fun i => pair (32 * j + i))
      if x.at_.scaled then runStep (ps.map (fun p => (underScale (scale x.rowScales j) p.1, underScale (scale x.colScales j) p.2)))
        [(scale x.rowScales j).getD (.zero false), (scale x.colScales j).getD (.zero false)] acc
      else runStep ps [] acc) (c, 0))) ∧
  ∀ (ps : List (FVal × FVal)) (scales : List FVal) (c : Nat × FpFlags),
    let none_ : Prop := ∃ p ∈ ps, p.1.isNaN = true ∨ p.2.isNaN = true ∨ exactMul p.1 p.2 = none
    let infinite := fun neg => ∃ p ∈ ps, exactMul p.1 p.2 = some (.inf neg)
    let adds := fun (r : Nat × FpFlags) => runStep ps scales c =
      (let x := fmt32.addV .rne false false (fmt32.decode c.1) (fmt32.decode r.1); (x.1, c.2 ||| r.2 ||| x.2))
    (none_ ∨ (infinite true ∧ infinite false) → adds (fmt32.nan, fNV)) ∧
    (¬ none_ → ∀ neg, infinite neg → ¬ infinite (!neg) → adds (fmt32.inf neg, 0)) ∧
    ((∀ p ∈ ps, finite p.1 ∧ finite p.2) → (∀ x ∈ scales, ∃ m e, x = .fin false m e ∧ 0 < m) → ∃ r, adds r ∧
      roundsNumber fmt32 .rne false
        (scales.foldl (fun x y => x * exactly y) ((ps.map (fun p => exactly p.1 * exactly p.2)).foldl (fun x y => x + y) 0))
        (ps.all (fun p => exactMul p.1 p.2 == some (.zero true))) r)

/-- R168, R171, R174, R178, R180, R181, R184, R186, R187. The queue of a splat unit accepts the first operation that waits,
with its record, while one of its 32 entries is free. The operation at the head, accepted and behind the stores of its wave,
runs: it leaves the queue and its status word stands in its record; `spm` replaces the parameters of its group. Of the bytes that
the operations write: a batch of records is written record by record; a projection of at most sixteen splats writes the record
of each at its place, and a blend the sixteen pixels of each row of its one tile; a binning of at most sixteen records counts in
each tile the visible ones whose boxes meet it, and enters the first of them up to the capacity; a sort puts the entries of each
tile that does not overflow in ascending order. A pixel starts with T = 1 and no colour, and an entry that covers it, with alpha
α, adds α · T times its colour, multiplies T by 1 − α, and stops the pixel where T falls under the cut-off. That an operation is
one step is the model's choice (log 6), and so is what a batch reads that it also writes (log 74). -/
def Obligations.SplatUnits : Prop :=
  (∀ (s : State) u o, let q := s.dev.unitQueue u
    q.find? (fun x => !x.accepted) = some o → (q.filter SplatOp.accepted).length < 32 →
    s.dev.scratchSettled o.w o.op = true → s.dev.failing = [] →
    ∃ t, exec (.splatQueueAccept u) s = .next t ∧ t.dev.unitQueue u = q.map (fun x => if x.op = o.op then { x with
      command := s.dev.peek ⟨.scratch o.w.launch o.w.group, o.record⟩ 64, accepted := true } else x)) ∧
  (∀ (s : State) u o g p, s.splatHead u 0xE0 = some (o, g) → splatParamsOf o.command = some p → s.dev.failing = [] →
    ∃ t g', exec (.splatParameterSet u) s = .next t ∧ t.dev.group? o.w.launch o.w.group = some g' ∧ g'.splat = p ∧
      t.dev.unitQueue u = (s.dev.unitQueue u).filter (fun x => x.op ≠ o.op)) ∧
  (∀ x ∈ ([(.projection, 0xE1, State.runProject), (.binning, 0xE2, State.runBin), (.tileSort, 0xE3, State.runSort),
      (.blend, 0xE4, State.runBlend), (.gradientGather, 0xE5, State.runGradient)] :
      List ((Nat → Instr) × Nat × (State → SplatOp → Group → SplatRun))),
    ∀ (s s' : State) u o g g' status, s.splatHead u x.2.1 = some (o, g) → x.2.2 s o g = (s', .ok status) →
      s'.dev.group? o.w.launch o.w.group = some g' → g'.scratch.wf = true → s'.dev.failing = [] →
      ∃ t, exec (x.1 u) s = .next t ∧ t.dev.unitQueue u = (s'.dev.unitQueue u).filter (fun y => y.op ≠ o.op) ∧
        t.dev.peek ⟨.scratch o.w.launch o.w.group, o.record + 60⟩ 4 = leBytes 4 status) ∧
  (∀ (s s' : State) o n (recs : List (Nat × List Byte)) ps, s.splatCheck o .write n (recs.map Prod.fst) = (s', .ok ps) →
    s'.dev.failing = [] → (∀ p ∈ ps, p.loc.space = .hbm ∧ s'.dev.lost.contains p.loc.line = false) →
    ∃ t, s.splatWrite o n recs = (t, .ok ()) ∧
      t.dev.hbm = (ps.zip (recs.map Prod.snd)).foldl (fun m x => m.writeN x.1.loc.addr x.2) s'.dev.hbm) ∧
  (∀ (s s1 s2 : State) o g recs, let cmd := o.command
    let first := field cmd 16 4
    let n := field cmd 20 4
    let camera := field cmd 24 4
    let view := s.dev.peek ⟨.scratch o.w.launch o.w.group, camera⟩ 64
    let ids := (List.range n).map (fun i => first + i)
    let gives := fun (r : List Byte) =>
      projectSplat g.splat ⟨(List.range 16).map (fun i => field view (4 * i) 4)⟩ (fun i => field r (4 * i) 4)
    field cmd 0 8 % 64 = 0 → field cmd 8 8 % 64 = 0 → 1 ≤ n → n ≤ 16 → first + n ≤ 2 ^ 32 → camera % 64 = 0 →
    camera + 64 ≤ g.scratchSize → zeroBytes cmd 28 60 = true → s.dev.failing = [] →
    s.splatFetch o 64 (ids.map (fun i => field cmd 0 8 + 64 * i)) = (s1, .ok recs) →
    s1.splatWrite o 64 ((ids.zip recs).map (fun x => (field cmd 8 8 + 64 * x.1,
      ((((gives x.2).1.getD []) ++ List.replicate 16 0).take 16).flatMap (leBytes 4)))) = (s2, .ok ()) →
    s.runProject o g = (s2, .ok (splatStatus 0 (recs.foldl (fun f r => f ||| (gives r).2) 0)
      (recs.countP (fun r => (gives r).1.isSome))))) ∧
  (∀ (s s1 : State) o g b recs grp, let cmd := o.command
    let n := field cmd 12 4
    let ids := (List.range n).map (fun i => field cmd 8 4 + i)
    let at_ := fun (a : Nat) => (⟨.scratch o.w.launch o.w.group, a⟩ : Loc)
    let s0 := s.poke (at_ (b.countAt 0)) (List.replicate (4 * b.tiles) 0)
    let hits := fun (tile : Nat) => (ids.zip recs).filter (fun x =>
      decide (field x.2 44 4 ≠ 0 ∧ tile ∈ b.tilesOf (field x.2 40 4)))
    binsOf cmd g = some b → field cmd 0 8 % 64 = 0 → 1 ≤ n → n ≤ 16 → field cmd 8 4 + n ≤ 2 ^ 32 →
    zeroBytes cmd 32 60 = true → s.dev.failing = [] → s.dev.group? o.w.launch o.w.group = some grp → grp.scratch.wf = true →
    s0.splatFetch o 64 (ids.map (fun i => field cmd 0 8 + 64 * i)) = (s1, .ok recs) → s1.dev.groups = s0.dev.groups →
    s1.dev.failing = [] → ∃ t status, s.runBin o g = (t, .ok status) ∧ ∀ tile, tile < b.tiles →
      t.dev.peek (at_ (b.countAt tile)) 4 = leBytes 4 (hits tile).length ∧
      ∀ k x, k < b.cap → (hits tile)[k]? = some x →
        t.dev.peek (at_ (b.slotAt tile k)) 8 = leBytes 4 (field x.2 20 4) ++ leBytes 4 x.1) ∧
  (∀ (s : State) o g b grp, let at_ := fun (a : Nat) => (⟨.scratch o.w.launch o.w.group, a⟩ : Loc)
    let count := fun (t : State) tile => leNat (t.dev.peek (at_ (b.countAt tile)) 4)
    let entries := fun (t : State) tile n => (List.range n).map (fun k =>
      (leNat (t.dev.peek (at_ (b.slotAt tile k)) 4), leNat (t.dev.peek (at_ (b.slotAt tile k + 4)) 4)))
    binsOf o.command g = some b → zeroBytes o.command 0 16 = true → zeroBytes o.command 32 60 = true → s.dev.failing = [] →
    s.dev.group? o.w.launch o.w.group = some grp → grp.scratch.wf = true →
    ∃ t status, s.runSort o g = (t, .ok status) ∧ ∀ tile, tile < b.tiles →
      count t tile = count s tile ∧
      (b.cap < count s tile → entries t tile b.cap = entries s tile b.cap) ∧
      (count s tile ≤ b.cap → (entries t tile (count s tile)).Perm (entries s tile (count s tile)) ∧
        (entries t tile (count s tile)).Pairwise (fun x y => x.1 < y.1 ∨ (x.1 = y.1 ∧ x.2 ≤ y.2)))) ∧
  (∀ (s : State) o g b es (u : Nat → Nat → State) (x : Nat → Nat → Pixel), let cmd := o.command
    binsOf cmd g = some b → b.wx = 1 → b.wy = 1 → field cmd 0 8 % 64 = 0 → field cmd 8 8 % 32 = 0 → field cmd 32 4 % 32 = 0 →
    512 ≤ field cmd 32 4 → zeroBytes cmd 36 60 = true → s.tileList o b 0 = .ok (false, es) → u 0 0 = s →
    (∀ i j, i < 16 → j < 16 → (u i j).blendPixel o (field cmd 0 8) (g.splat.cutoff.toNat, 0) (16 * b.x0 + j) (16 * b.y0 + i) es =
      (u i (j + 1), .ok (x i j))) →
    (∀ i, i < 16 → (u i 16).splatWrite o 32 ((List.range 16).map (fun j =>
      (field cmd 8 8 + i * field cmd 32 4 + j * 32, let p := x i j
        leBytes 4 p.r.1 ++ leBytes 4 p.g.1 ++ leBytes 4 p.b.1 ++ leBytes 4 p.t.1 ++ leBytes 4 p.n ++ leBytes 4 p.stop ++
          List.replicate 8 0))) = (u (i + 1) 0, .ok ())) →
    ∃ fl, s.runBlend o g = (u 16 0, .ok (splatStatus 0 fl 256))) ∧
  (∀ (s s' : State) o proj cut px py es recs, es.length ≤ 16 →
    s.fetchIds o proj (es.map Prod.snd) = (s', .ok recs) → es ≠ [] → recs.length = es.length →
    s.blendPixel o proj cut px py es = (s', .ok ((es.zipIdx.zip recs).foldl (fun x e => x.blendOne cut px py e.1.2 e.2.2)
      ⟨(0x3F800000, 0), (0, 0), (0, 0), (0, 0), 0, es.length, false, 0⟩))) ∧
  ∀ (x : Pixel) cut px py pos p, (x.done = true → x.blendOne cut px py pos p = x) ∧ (x.done = false →
    (∀ fl, alphaOf p px py = (none, fl) → x.blendOne cut px py pos p = { x with fl := x.fl ||| fl }) ∧
    ∀ c fl, alphaOf p px py = (some c, fl) → let y := x.blendOne cut px py pos p
      let w := svMul c.alpha x.t
      y.t = svMul x.t (svSub (0x3F800000, 0) c.alpha) ∧ y.r = svFma w (field p 28 4, 0) x.r ∧
        y.g = svFma w (field p 32 4, 0) x.g ∧ y.b = svFma w (field p 36 4, 0) x.b ∧ y.n = x.n + 1 ∧
        y.done = svGt cut y.t ∧ y.stop = if svGt cut y.t then pos + 1 else x.stop)

/-- R219, R251 to R253, R261, R325. A class queue of an engine accepts its first waiting command while one of its 16 entries is
free. A command that may run completes: a rejected one at once with its code, any other as its engine's run ends, once none of
its stores to peers is on its way; it leaves its queue, its range locks are released, and the completion area of its record
holds the result, the count and the status. Of the bytes that the commands write: an access within one page of HBM reads or
writes the bytes at its place; a `cpy` without scales writes each row as it is read, or converted element by element; a store
of the Pattern engine writes the first staging entries at its cursor; a halo exchange to this device writes the rows, cut at
blocks of 256 bytes; an all-reduce writes the combination of all elements in rank order, in chunks of 4 KiB. A `pub`
that is not refused and waits for no write advances the context's step when its flag asks for it. An all-reduce whose limit has
passed sets the error bits of the devices that are missing. Of the `pub`, one whose pages' rights are at this device and whose
version records the access table lets it write is meant. That a command is one step, or a few, is the model's choice (log
6). -/
def Obligations.EngineCommands : Prop :=
  let finishes := fun (s' : State) (c : EngineCmd) (e : EngineEnd) (i : Instr) (s : State) =>
    ∀ w la g x grp, c.w = some w → c.record = ⟨.scratch la g, x⟩ → s'.dev.group? la g = some grp → grp.scratch.wf = true →
      ∃ t, exec i s = .next t ∧ t.dev.cmd? c.id = none ∧ (∀ l ∈ t.dev.locks, l.owner ≠ c.id) ∧
        t.dev.peek ⟨.scratch la g, x + 48⟩ 16 = e.bytes
  let passes := fun (s : State) (c : EngineCmd) => ((s.dev.cmd? c.id).map EngineCmd.replay).getD [] = []
  (∀ (s : State) id c, s.dev.cmd? id = some c → c.accepted = false →
    ((s.dev.cmdQueue c).filter EngineCmd.accepted).length < 16 →
    ((s.dev.cmdQueue c).find? (fun x => !x.accepted)).map EngineCmd.id = some id →
    ∃ t, exec (.engineQueueAccept id) s = .next t ∧ t.dev.cmd? id = some { c with accepted := true }) ∧
  (∀ x ∈ ([(.cpyExecution, 0xE8, fun _ => true, State.runCpy), (.lxfExecution, 0xE9, fun _ => true, State.runLxf),
      (.hxcExecution, 0xEA, fun _ => true, State.runHxc), (.aredExecution, 0xEB, fun _ => true, State.runAred),
      (.pubStamp, 0xEC, fun _ => true, State.runPub), (.vretRetire, 0xED, fun _ => true, State.runVret),
      (.ckpDrain, 0xEE, fun b => (CkpCmd.of b).op == 0, State.runDrain),
      (.ckpLoad, 0xEE, fun b => (CkpCmd.of b).op == 1, State.runLoad),
      (.ckpRevert, 0xEE, fun b => (CkpCmd.of b).op == 2, State.runRevert)] :
      List ((Nat → Instr) × Nat × (List Byte → Bool) × (State → EngineCmd → EngineRun))),
    ∀ (s : State) c, s.dev.cmd? c.id = some c → c.opcode = x.2.1 → s.dev.cmdReady c = true →
      (∀ code, c.reject = some code → finishes s c (EngineEnd.plain code 0) (x.1 c.id) s) ∧
      ∀ s' e, c.reject = none → x.2.2.1 c.command = true →
        x.2.2.2 { s with dev := s.dev.mapCmd c.id (fun y => { y with replay := y.log }) } c = (s', .ok (some e)) →
        (s'.dev.storing c.id = false → finishes s' c e (x.1 c.id) s) ∧
        (s'.dev.storing c.id = true → exec (x.1 c.id) s = .next { s' with
          dev := s'.dev.mapCmd c.id (fun y => { y with replay := [], parked := false }) })) ∧
  (∀ (s s1 : State) c va n (l : Loc), passes s c → 0 < n → va % 65536 + n ≤ 65536 → l.space = .hbm →
    (∀ version, s.agentCheck c.agent .read version va n = (s1, .ok l) →
      ∃ t, s.cmdRead c version va n = (t, .ok (s1.dev.hbm.readN l.addr n)) ∧ t.dev.hbm = s1.dev.hbm) ∧
    ∀ bs : List Byte, bs.length = n → s.agentCheck c.agent .write none va n = (s1, .ok l) →
      ∃ t, s.cmdWrite c va bs = (t, .ok ()) ∧ t.dev.hbm = s1.dev.hbm.writeN l.addr bs) ∧
  (∀ (s : State) c (u v : Nat → State) (row : Nat → List Byte), let x := CpyCmd.of c.command
    let version := if x.ver = true ∧ x.sstep ≠ c.regStep then some x.sstep else none
    let out := fun (bs : List Byte) => if x.stype = x.dtype then bs else packDense x.dtype.bits
      ((unpackDense x.stype.bits x.n0 bs).map (fun e => (convertV (RMode.ofCode x.rmCode) false x.sat x.stype x.dtype
        (x.stype.decodeV false x.xv e) e).1))
    x.scaled = false → x.stype = x.dtype ∨ (x.stype.scaled = false ∧ x.dtype.scaled = false) → u 0 = s →
    (∀ j, j < x.n1 → (u j).cmdRead c version (x.src + j * x.ss1) (x.stype.denseBytes x.n0) = (v j, .ok (row j)) ∧
      (v j).cmdWrite c (x.dst + j * x.ds1) (out (row j)) = (u (j + 1), .ok ())) →
    ∃ fl, s.runCpy c = (u x.n1, .ok (some ⟨0, x.n0 * x.n1, if x.crc then ((List.range x.n1).foldl (fun acc j =>
      crc64 acc (if x.side then out (row j) else row j)) (BitVec.ofNat 64 x.seed)).toNat else 0, fl⟩))) ∧
  (∀ (s : State) c x p i w n la g grp, let a := p.cursor i
    let bs := packDense (8 * 2 ^ w) (p.staging.take n)
    passes s c → LxfCmd.scratch x i = true → n ≤ p.staging.length → c.record.space = .scratch la g →
    s.dev.group? la g = some grp → grp.scratch.wf = true → s.dev.failing = [] → 0 ≤ a →
    a + ((2 ^ w * n : Nat) : Int) ≤ grp.scratchSize →
    (∃ t q, s.patternStep c x p (.pst i w n) = (t, .ok (some q)) ∧ q.staging = p.staging.drop n ∧ q.stored = p.stored + n ∧
      t.dev.peek ⟨.scratch la g, a.toNat⟩ bs.length = bs) ∧
    (p.staging.length + n ≤ 1024 → ∃ t q, s.patternStep c x p (.pld i w n) = (t, .ok (some q)) ∧ q.staging =
      p.staging ++ unpackDense (8 * 2 ^ w) n (s.dev.peek ⟨.scratch la g, a.toNat⟩ (2 ^ w * n)))) ∧
  (∀ (s : State) c (u v : Nat → State) (row : Nat → List Byte), let x := HxcCmd.of c.command
    let ps := (List.range x.rows).flatMap (fun i =>
      pieces (x.rowbytes / 256 + 2) (x.dst % 2 ^ 48 + i * x.dpitch) (row i))
    let tested := (v x.rows).loggedTest c (fun s => x.tagged && s.dev.step c.ctx != x.step)
    c.phase = 0 → v 0 = s → (∀ i, i < x.rows → (v i).cmdRead c none (x.src + i * x.spitch) x.rowbytes = (v (i + 1), .ok (row i))) →
    fabricDest x.dst = (v x.rows).dev.devId → tested.2 = false → u 0 = tested.1 →
    (∀ j p, ps[j]? = some p → (u j).cmdWrite c p.1 p.2 = (u (j + 1), .ok ())) →
    (u ps.length).dev.storing c.id = false → x.flag = 0 →
    s.runHxc c = (u ps.length, .ok (some (EngineEnd.plain 0 (x.rows * x.rowbytes))))) ∧
  (∀ a (bs : List Byte), (pieces (bs.length / 256 + 2) a bs).flatMap Prod.snd = bs ∧
    ∀ p ∈ pieces (bs.length / 256 + 2) a bs, a ≤ p.1 ∧ p.2 = (bs.drop (p.1 - a)).take p.2.length ∧
      ∀ i, i < p.2.length → (p.1 + i) / 256 = p.1 / 256) ∧
  (∀ (s : State) c x table (u : Nat → State),
    let of := fun (r i : Nat) => if r = x.rank then (unpackDense x.type.bits x.n (c.command.drop 64)).getD i 0
      else (((s.dev.contribution c x (table.getD r 0)).1.bind (fun m => m.data[i]?)).map BitVec.toNat).getD 0 % 2 ^ x.type.bits
    let result := fun (i : Nat) => x.combine ((List.range x.parts).map (fun r => of r i))
    let bytes := (List.range x.n).flatMap (fun i => leBytes (x.type.bits / 8) (result i).1)
    let chunks := (bytes.length + 4095) / 4096
    u 0 = s → (∀ j, j < chunks →
      (u j).cmdWrite c (x.buf + 4096 * j) ((bytes.drop (4096 * j)).take 4096) = (u (j + 1), .ok ())) →
    (u chunks).dev.storing c.id = false → ∃ t fl, s.aredReduce c x table = (t, .ok (some ⟨0, x.n, 0, fl⟩)) ∧
      t.dev.hbm = (u chunks).dev.hbm) ∧
  (∀ (s : State) c ctx, s.dev.cmd? c.id = some c → c.opcode = 0xEC → s.dev.cmdReady c = true → c.reject = none →
    c.w.isSome = true → s.dev.ctx? c.ctx = some ctx → ctx.step < 2 ^ 24 - 1 → (cmdField c.command 16 16).testBit 0 = true →
    let pages := pagesOf (cmdField c.command 0 7) (cmdField c.command 8 15)
    (∀ p ∈ pages, s.dev.pubRefuses c.ctx p = false ∧ s.dev.recordRefused c.ctx p = none) →
    s.dev.rightsAway c.ctx (cmdField c.command 0 7) (cmdField c.command 8 15) = [] → s.writesPending c.ctx pages = false →
    s.dev.storing c.id = false → ∃ t, exec (.pubStamp c.id) s = .next t ∧ t.dev.cmd? c.id = none ∧ t.dev.step c.ctx = ctx.step + 1) ∧
  ∀ (s : State) c ctx, s.dev.cmd? c.id = some c → c.opcode = 0xEB → s.dev.cmdReady c = true → c.reject = none →
    s.dev.ctx? c.ctx = some ctx → s.aredMissing c ≠ [] → s.dev.storing c.id = false →
    ∃ t y, exec (.aredLimitExpiry c.id) s = .next t ∧ t.dev.cmd? c.id = none ∧ t.dev.ctx? c.ctx = some y ∧
      ∀ p ∈ s.aredMissing c, p < 512 → y.errbits.getLsbD p = true

/-- R286, R289 to R292, R309, R329, R409, R410. The walker. A doorbell is dropped before bring-up is complete, waits behind one
of its context that waits, is refused with a count, or accepted; the graph of an `enq` is accepted while fewer than 64 are
open, and its instruction is complete; one at a descriptor that is not mapped halts the wave, or is dropped where a helper
lane named it. A ready kernel node whose launch record is valid becomes a running launch; a ready timed node whose time had
not passed when it became ready runs, and ends when it comes, and one whose time had passed ends late; a copy node ends with
its command. A walker event that meets a page whose right is away, or a peer's bytes that have not come, does nothing but ask
for them, and an event from outside is kept. -/
def Obligations.Walker : Prop :=
  (∀ (s : State) ctx addr, s.dev.platform.state ≠ 6 → exec (.doorbell ctx addr) s = .next s) ∧
  (∀ (s : State) ctx addr, s.dev.platform.state = 6 → s.dev.doorbellWaits ctx = true →
    exec (.doorbell ctx addr) s = .next { s with dev := { s.dev with
      heldRequests := s.dev.heldRequests ++ [.doorbell ctx addr] } }) ∧
  (∀ (s : State) ctx addr x, s.dev.platform.state = 6 → s.dev.doorbellWaits ctx = false → s.dev.ctx? ctx = some x →
    (x.state = 0 ∨ addr.toNat % 64 ≠ 0 ∨ 64 ≤ s.dev.openGraphs ctx ∨ s.dev.rangeRW ctx addr.toNat 64 ≠ none) →
    ∃ t, exec (.doorbell ctx addr) s = .next t ∧ t.dev.ctx? ctx = some { x with refused := x.refused + 1 }) ∧
  (∀ (s : State) ctx addr x, s.dev.platform.state = 6 → s.dev.doorbellWaits ctx = false → s.dev.ctx? ctx = some x →
    x.state ≠ 0 → addr.toNat % 64 = 0 → s.dev.openGraphs ctx < 64 → s.dev.rangeRW ctx addr.toNat 64 = none →
    exec (.doorbell ctx addr) s =
      .next (s.walking ctx (some (.doorbell ctx addr)) (fun s => s.acceptGraph ctx addr.toNat none))) ∧
  (∀ (s : State) ctx a v l, s.dev.enqOf ctx = some (a, v, l) →
    let drop := fun (s : State) =>
      ({ s with dev := { s.dev with inflight := s.dev.inflight.filter (fun x => x.op ≠ a.op) } } : State)
    let done := fun (s : State) => s.mapDev (fun d => d.countDone a.w a.op)
    (s.dev.rangeRW ctx l.va.toNat 64 = none → s.dev.openGraphs ctx < 64 →
      exec (.graphAcceptance ctx) s = .next (s.walking ctx none (fun s =>
        done ((drop s).acceptGraph ctx l.va.toNat (some v))))) ∧
    (s.dev.rangeRW ctx l.va.toNat 64 = none → 64 ≤ s.dev.openGraphs ctx → exec (.graphAcceptance ctx) s = .next s) ∧
    ∀ code, s.dev.rangeRW ctx l.va.toNat 64 = some code →
      (s.helperLane a l.lane = true → exec (.graphAcceptance ctx) s = .next (done (drop s))) ∧
      (s.helperLane a l.lane = false → s.unitCanStop a.w = true →
        exec (.graphAcceptance ctx) s = .next ((drop s).unitHalt a.w a.clause 5 code 0 l.va))) ∧
  (∀ (s : State) graph node g n, s.dev.graph? graph = some g → g.node? node = some n → s.dev.nodeMayStart g n = true →
    s.dev.platform.state = 6 → (∀ x ∈ s.dev.rights, x.ctx ≠ g.ctx) → s.dev.revoking = [] →
    let s0 : State := { s with dev := { s.dev with walkerWaits := [] } }
    let r := s0.walkRead g.ctx (g.nodesAt + 128 * node) 64
    let runs := fun (t : State) => ∀ g' n', t.dev.graph? graph = some g' → g'.node? node = some n' → n'.status = .running
    (n.kind = 0 → r.1.dev.walkerWaits = [] → (LaunchRecord.of r.2).invalid (recordReserved r.2) = false →
      (LaunchRecord.of r.2).det = false →
      ∃ t l, exec (.nodeStart graph node) s = .next t ∧ runs t ∧ t.dev.launches = r.1.dev.launches ++ [l] ∧
        l.ctx = g.ctx ∧ l.graph = graph ∧ l.node = node ∧ l.record = LaunchRecord.of r.2 ∧ l.used = 0 ∧ l.nextCluster = 0) ∧
    (n.kind = 5 → let due := s0.walkRead g.ctx (g.nodesAt + 128 * node) 8
      (n.readyAt.toNat ≤ leNat due.2 → due.1.dev.walkerWaits = [] →
        ∃ t, exec (.nodeStart graph node) s = .next t ∧ runs t) ∧
      (leNat due.2 < n.readyAt.toNat → exec (.nodeStart graph node) s = .next (s.walking g.ctx none (fun s =>
        ((s.walkRead g.ctx (g.nodesAt + 128 * node) 8).1.endNode g n .doneLate (fun _ => true)).graphEnd graph))))) ∧
  (∀ (s : State) graph node g n, s.dev.graph? graph = some g → g.node? node = some n → n.status = .running →
    (n.kind = 1 → (s.dev.cmds.any (fun c => c.node == some (graph, node))) = false →
      exec (.nodeCompletion graph node) s =
        .next (s.walking g.ctx none (fun s => (s.endNode g n .done (fun _ => true)).graphEnd graph))) ∧
    (n.kind = 5 → exec (.timedNodeExpiry graph node) s = .next (s.walking g.ctx none (fun s =>
      let r := s.walkRead g.ctx (g.nodesAt + 128 * node) 8
      if leNat r.2 ≤ r.1.dev.now.toNat then r.1.endNode g n .done (fun _ => true) else r.1)))) ∧
  ∀ (s : State) ctx kept f, let t := f { s with dev := { s.dev with walkerWaits := [] } }
    let u := s.walking ctx kept f
    (t.dev.walkerWaits = [] → u = { t with dev := t.dev.dropFetched (.walker ctx) }) ∧
    (t.dev.walkerWaits ≠ [] → u.dev.walkerWaits = t.dev.walkerWaits ∧ u.dev.hbm = s.dev.hbm ∧
      u.dev.graphs = s.dev.graphs ∧ u.dev.heldRequests = s.dev.heldRequests ++ kept.toList)

/-- R192, R351, R353, R354, R364, R416. The context commands. A pre-emption of a running or halted context notes its image
and halts its waves that stand at a boundary, and the descriptor reads 1 until the save is done. The part of the context
on a hardware cluster is kept for the image and the hardware cluster released once it has come to rest; when no part is
left and nothing of the context is outstanding the image is written, and the descriptor reads 3. A restore of a good image
into a free or saved context that its partition can hold gives the context its step and error bits and runs or halts it; a
resume of a halted context whose halted launches all may resume runs them; a free clears the context. The command register
holds the outcome. The model's choices: what stands beside the image (log 33), that parts are kept until the image is written
at the end (log 49), and that a free performs what is in flight (log 50). -/
def Obligations.ContextCommands : Prop :=
  (∀ (s : State) (c : ContextCommand) x, s.dev.platform.state = 6 → s.dev.command.outcome ≠ 1 → c.ctx ≤ 63 →
    s.dev.ctx? c.ctx = some x →
    let started := fun (op outcome : Nat) =>
      (⟨c.ctx, op, c.image, c.clusters, c.wdog, outcome, 0⟩ : CommandReg)
    (c.image.toNat % 4096 = 0 → c.image.toNat < 2 ^ 39 → (x.state = 1 ∨ x.state = 2) → x.saving = none →
      ∃ t, exec (.preempt c) s = .next t ∧ t.dev.command = started 1 1 ∧
        t.dev.ctx? c.ctx = some { x with saving := some c.image, state := 1 } ∧
        ∀ w ∈ s.dev.waves, s.dev.ctxOf w.id = c.ctx → w.hold = .none → s.issueOf w.id = none →
          ∀ w', t.dev.wave? w.id = some w' → w'.hold = .preempted) ∧
    (c.image.toNat % 4096 = 0 → c.image.toNat < 2 ^ 39 → (x.state = 0 ∨ x.state = 3) →
      let b := s.dev.hbm.readN c.image.toNat (max 256 (leNat (s.dev.hbm.readN (c.image.toNat + 8) 8)))
      let y : Context := if c.clusters = 0 then x else { x with clusters := c.clusters }
      imageOk b = true →
      findPlaces (fun l hw => s.dev.clusterOpen y (l.launch s.dev 0 c.ctx 0 0 0 false) hw)
        ((savedLaunches (s.dev.sideOf c.image.toNat) b).flatMap SavedLaunch.parts) [] ≠ none →
      ∃ t z, exec (.restore c) s = .next t ∧ t.dev.command = started 2 2 ∧ t.dev.ctx? c.ctx = some z ∧
        (z.state = 1 ∨ z.state = 2) ∧ z.step = field b 24 4 % 2 ^ 24 ∧ z.errbits = BitVec.ofNat 512 (field b 48 64) ∧
        z.clusters = y.clusters) ∧
    (c.image = 0 → x.state = 2 → x.saving = none →
      (∀ l ∈ s.dev.launches, l.ctx = c.ctx → l.halted = true → l.restored = true ∨ s.dev.launchResumable l.id = true) →
      ∃ t z, exec (.resume c) s = .next t ∧ t.dev.command = started 3 2 ∧ t.dev.ctx? c.ctx = some z ∧ z.state = 1 ∧
        ∀ l ∈ t.dev.launches, l.ctx = c.ctx → l.halted = false) ∧
    (c.image = 0 → x.state ≠ 0 →
      ∃ t, exec (.free c) s = .next t ∧ t.dev.command = started 4 2 ∧ t.dev.ctx? c.ctx = none ∧
        (∀ l ∈ t.dev.launches, l.ctx ≠ c.ctx) ∧ (∀ g ∈ t.dev.graphs, g.ctx ≠ c.ctx) ∧
        ∀ a ∈ t.dev.inflight, a.ctx ≠ c.ctx)) ∧
  ∀ (s : State) ctx x image, s.dev.ctx? ctx = some x → x.saving = some image →
    let resting := (s.dev.clustersOf ctx).find? (s.restsOn ctx)
    let row := fun (w : Wave) => (w.id, w.v, w.k, w.q, w.priv)
    (∀ hw, resting = some hw → let gs := s.dev.groupsOn ctx hw
      let mine := fun (w : Wave) => gs.any (fun g => g.launch == w.id.launch && g.index == w.id.group)
      let kept := fun (q : SavePart) => (q.ctx, q.hw, q.groups, q.waves.map row)
      ∃ t ps p, exec (.contextSave ctx) s = .next t ∧ t.dev.parts = ps ++ [p] ∧ ps.map kept = s.dev.parts.map kept ∧
        p.ctx = ctx ∧ p.hw = hw ∧
        p.groups = gs ∧ p.waves.map row = (s.dev.waves.filter mine).map row ∧
        t.dev.groups = s.dev.groups.filter (fun g => !gs.contains g) ∧
        t.dev.waves.map row = (s.dev.waves.filter (fun w => !mine w)).map row ∧
        (∀ c ∈ t.dev.cores, c.index / 4 ≠ hw) ∧ t.dev.ctx? ctx = some x ∧ t.dev.hbm = s.dev.hbm) ∧
    (resting = none → s.saveReady ctx = true →
      ∃ t, exec (.contextSave ctx) s = .next t ∧
        t.dev.ctx? ctx = some { x with state := 3, saving := none, savedGraphs := s.dev.openGraphs ctx } ∧
        t.dev.hbm = s.dev.hbm.writeN image.toNat ((s.dev.savedView ctx).imageBytes
          ((s.dev.parts.filter (fun p => p.ctx == ctx)).flatMap SavePart.fresh) x) ∧
        t.dev.command.outcome = 2 ∧ ∀ l ∈ t.dev.launches, l.ctx ≠ ctx) ∧
    (resting = none → s.saveReady ctx = false → exec (.contextSave ctx) s = .next s)

/-- R1, R253, R318, R334, R342, R343, R407, R408, R410, R416, R417. The driver's window. A write to a register that bring-up or
the access table does not allow is dropped, and so is one to a field that is read only. The descriptor and the budgets of a
context take the bytes written; error bits, the overflow count and the walker-fault entry are cleared; a revocation leaves no
L1 line of the range, and its start field reads other than 0 until it ends; and a granted access to HBM reads or writes its
bytes. A read of the window answers with the identity, the serial number and the state word in every state, with the
descriptors, the context that the command register names and the target that dropped a request of a context once bring-up is
complete, and with all ones where the access table does not permit it and, before, beyond those fields. An access table takes
what the driver writes there, but the entry of a reserved class and the write mask of an engine, and a region register takes
it, and read back so in a check; so do the shares of the classes, if they are legal, and a constant section. The model's
choices: that the driver's descriptor write gives the lifecycle word only while the context is free (log 34), that a
revocation performs the accesses in flight and drops L1 lines (log 35), the targets' numbers and events of their own for what
R342 and R408 give no offset (log 13), the firmware release 2.4 (log 84) and the place of the dropped targets (log 85). -/
def Obligations.DriverWindow : Prop :=
  (∀ (s : State) offset data, s.dev.windowOpen offset = false ∨ 0x1000000 ≤ offset →
    exec (.registerWrite (.window offset) data) s = .next s) ∧
  (∀ (s : State) ctx, ctx < 64 →
    (∀ data : List Byte, data.length = 64 → s.dev.windowOpen (0x800000 + 64 * ctx) = true →
      ∃ t, exec (.registerWrite (.window (0x800000 + 64 * ctx)) data) s = .next t ∧
        t.dev.context ctx = (s.dev.context ctx).written data) ∧
    (∀ w : BitVec 64, s.dev.windowOpen (0x830000 + 8 * ctx) = true →
      ∃ t, exec (.registerWrite (.window (0x830000 + 8 * ctx)) (leBytes 8 w.toNat)) s = .next t ∧
        t.dev.context ctx = { s.dev.context ctx with
          coreBudget := (w.extractLsb' 0 9).toNat, hbmBudget := (w.extractLsb' 16 9).toNat
          powerBudget := (w.extractLsb' 32 9).toNat })) ∧
  (∀ (s : State) ctx x, s.dev.ctx? ctx = some x →
    (∀ mask, s.dev.windowOpen 0x810000 = true → ∃ t, exec (.errorBitClear ctx mask) s = .next t ∧
      t.dev.ctx? ctx = some { x with
        errbits := x.errbits &&& ~~~mask, causes := x.causes.filter (fun p => (x.errbits &&& ~~~mask).getLsbD p.1) }) ∧
    (s.dev.windowOpen 0x840100 = true → ∃ t, exec (.poolOverflowClear ctx) s = .next t ∧
      t.dev.ctx? ctx = some { x with poolOverflow := 0 }) ∧
    (s.dev.windowOpen 0x840200 = true → ∃ t, exec (.walkerFaultClear ctx) s = .next t ∧
      t.dev.ctx? ctx = some { x with walker := ⟨0, 0, 0, 0⟩ })) ∧
  (∀ (s : State) ctx (base n : BitVec 64), s.dev.windowOpen 0x840000 = true →
    ∃ t, exec (.revocation ctx base n) s = .next t ∧ (t.dev.revocationBytes).drop 24 = leBytes 8 1 ∧
      ∀ c ∈ t.dev.cores, ∀ e ∈ c.l1, e.ctx = ctx →
        e.va * 128 + 128 ≤ base.toNat ∨ base.toNat + n.toNat ≤ e.va * 128) ∧
  (∀ (s : State), let reads := fun (off : Nat) => s.dev.bitGranted 37 512 (off / 2 ^ 23) false
    (∀ off n, exec (.bar4Access off (.readWindow n)) s = .next { s with dev := { s.dev with
      outbox := s.dev.outbox ++ [.hostData ((List.range n).map (fun i => s.dev.windowByte (off + i)))] } }) ∧
    (∀ off, reads off = false ∨ (s.dev.platform.state ≠ 6 ∧ 0x1C ≤ off) → s.dev.windowByte off = 255) ∧
    (reads 0 = true → (List.range 0x1C).map s.dev.windowByte =
      leBytes 8 (0x0B04 + 0xB1 * 2 ^ 16 + 0x0204 * 2 ^ 24 + s.dev.devId * 2 ^ 40) ++ serialNumber ++
        leBytes 4 (s.dev.platform.code * 2 ^ 24 + s.dev.platform.state)) ∧
    ∀ ctx, ctx < 64 → reads 0x800000 = true → s.dev.platform.state = 6 →
      let field := fun (at_ n : Nat) => (List.range n).map (fun i => s.dev.windowByte (at_ + i))
      field (0x800000 + 64 * ctx) 64 = (s.dev.context ctx).bytes ∧
      field 0x840020 8 = leBytes 4 (s.dev.command.ctx % 64) ++ leBytes 4 s.dev.command.op ∧
      field (0x840600 + 4 * ctx) 4 = leBytes 4 ((s.dev.context ctx).dropped.getD (2 ^ 32 - 1))) ∧
  (∀ (s : State), s.dev.platform.state = 6 →
    (∀ target master (e : BitVec 64), target < 38 → master < 514 →
      ∃ t, exec (.registerWrite (.access target master) (leBytes 8 e.toNat)) s = .next t ∧
        t.dev.access.find? (fun x => x.target == target && x.master == master) = some ⟨target, master,
          if master < 512 ∧ (master % 8 = 6 ∨ master % 8 = 7) then 0
          else if target = 33 ∨ target = 34 ∨ target = 35 then e &&& 0xFFFFFFFF else e⟩) ∧
    (∀ target index (base limit : BitVec 64), target < 38 → index < 32 →
      ∃ t, exec (.registerWrite (.region target index) (leBytes 8 base.toNat ++ leBytes 8 limit.toNat)) s = .next t ∧
        t.dev.regions.find? (fun x => x.target == target && x.index == index) =
          some ⟨target, index, base.toNat, limit.toNat⟩) ∧
    (∀ a b c d e : Byte, exec (.registerWrite .shares [a, b, c, d, e]) s = .next (
      if a.toNat + b.toNat + c.toNat + d.toNat + e.toNat ≤ 64
      then { s with dev := { s.dev with shares := [a.toNat, b.toNat, c.toNat, d.toNat, e.toNat] } } else s)) ∧
    ∀ ctx lo hi data, ctx < 64 → ∃ t, exec (.registerWrite (.constants ctx lo hi) data) s = .next t ∧
      t.dev.consts.find? (fun c => c.ctx == ctx && c.codeBase == lo && c.codeLimit == hi) =
        some ⟨ctx, lo, hi, Memory.writeN [] 0 data, data.length⟩) ∧
  ∀ (s : State) pa, s.dev.platform.state = 6 →
    (∀ n, (∀ i, i < n → s.dev.driverGranted (pa + i) false = true) →
      exec (.bar4Access pa (.read n)) s = .next { s with dev := { s.dev with
        outbox := s.dev.outbox ++ [.hostData (s.dev.hbm.readN pa n)] } }) ∧
    ∀ data : List Byte, pa + data.length ≤ 2 ^ 39 → (∀ i, i < data.length → s.dev.driverGranted (pa + i) true = true) →
      ∃ t, exec (.bar4Access pa (.write data)) s = .next t ∧ t.dev.hbm = s.dev.hbm.writeN pa data

/-- R210, R212, R303 to R305, R308 to R311, R314, R322, R324, R342. Inbound requests whose check finds a place in HBM: a load
answers with the bytes, cut into units, and the line's number, under which no die goes on writing the line; a store, and a
tagged store whose tag is the step of the paired context, is performed and acknowledged; an atomic whose page's right is here
is counted in the page's window, answers with the old bytes and adds, or stores where the compare matches; a watch check
answers whether the number stands. A refused one answers so, one whose data is lost too, a tagged store of another step with
its own refusal, and one that meets a right on its way is held; an atomic whose page has another owner goes on to it as a
transaction of this device, fails without a path, and is refused where the fabric ports admit no write. The payload may have
come in units of a port, which are used up. An all-reduce message of a paired context that the ports admit waits for its
command, unless an ended command still owed it, and its sender hears which. The model's choices: the units of the allowance go
back as the buffers of a store or an atomic that was charged drain (log 77); the units that wait at a port (log 69); the reply
for lost data (log 68); the contribution that an ended command still owes (log 43). -/
def Obligations.FabricRequests : Prop :=
  ∀ (s : State) (r : FabricRequest),
    let asker := r.home.getD r.src
    let saying := fun (x : FabricReply) => OutMsg.fabric asker r.tag x []
    let bringing := fun (k : Nat) (bs : List Byte) (seq : BitVec 32) =>
      OutMsg.fabric asker r.tag (.data (.inline bs) seq) (unitsOf k (bs.length / 256 + 1) bs)
    let grant := fun (n : Nat) => if r.engine = true ∨ r.home.isSome = true then ([] : List OutMsg)
      else [.grant r.src ((r.va.toNat + max n 1 - 1) / 256 - r.va.toNat / 256 + 1)]
    let sent := fun (t u : State) (xs : List OutMsg) => u.dev.outbox = t.dev.outbox ++ xs ∧ keepsButHbm t u
    let page := r.va.toNat / 65536
    let admits := fun (x : Context) => s.dev.bitGranted 36 (masterOf x.index 4) 1 true
    (∀ s' x (loc : Loc), s.inbound r .read = (s', .ok x loc) → loc.space = .hbm →
      (∃ t k, exec (.fabricLoadRequest r) s = .next t ∧ t.dev.hbm = s'.dev.hbm ∧
        sent s' t [bringing k (s'.dev.hbm.readN loc.addr r.bytes) (s'.dev.lineSeq loc)] ∧
        ∀ c ∈ t.dev.l2, c.line = loc.line → c.state ≠ .modified ∧ c.state ≠ .exclusive) ∧
      ∀ seq, ∃ t, exec (.watchVerdictRequest r seq) s = .next t ∧ t.dev.hbm = s'.dev.hbm ∧
        sent s' t [saying (.verdict (decide (s'.dev.lineSeq loc = seq)))]) ∧
    (∀ s', (s.inbound r .read = (s', .refused) → exec (.fabricLoadRequest r) s = .next (s'.answer r .refused)) ∧
      (s.inbound r .read = (s', .lost) → exec (.fabricLoadRequest r) s = .next (s'.answer r .dataLoss)) ∧
      (s.inbound r .read = (s', .waits) → exec (.fabricLoadRequest r) s = .next (s'.holdRequest (.load r)))) ∧
    (∀ (data : List Byte) s', let n := data.length
      (∀ x (loc : Loc), s.inbound { r with bytes := n } .write = (s', .ok x loc) → loc.space = .hbm →
        (∃ t, exec (.fabricStoreRequest r (.inline data)) s = .next t ∧ t.dev.hbm = s'.dev.hbm.writeN loc.addr data ∧
          sent s' t (saying .ack :: grant n)) ∧
        ∀ y (tag : BitVec 24), s.dev.pairedCtx r.src r.srcCtx = some y → y.step = tag.toNat →
          ∃ t, exec (.versionTaggedStore r (.inline data) tag) s = .next t ∧
            t.dev.hbm = s'.dev.hbm.writeN loc.addr data ∧ sent s' t (saying .ack :: grant n)) ∧
      (∀ x y, (x, y) ∈ [(Inbound.refused, FabricReply.refused), (.lost, .dataLoss)] →
        s.inbound { r with bytes := n } .write = (s', x) → ∃ t, exec (.fabricStoreRequest r (.inline data)) s = .next t ∧
          t.dev.hbm = s'.dev.hbm ∧ sent s' t (saying y :: grant n)) ∧
      ∀ y (tag : BitVec 24), s.dev.pairedCtx r.src r.srcCtx = some y → y.step ≠ tag.toNat →
        ∃ t, exec (.versionTaggedStore r (.inline data) tag) s = .next t ∧ t.dev.hbm = s.dev.hbm ∧
          sent s t (saying .stepRefused :: grant n)) ∧
    (∀ port, let bytes := (s.dev.portUnits.filter (fun x => x.1 == port)).flatMap Prod.snd
      let used := { s with dev := { s.dev with portUnits := s.dev.portUnits.filter (fun x => x.1 != port) } }
      exec (.fabricStoreRequest r (.received port)) s = exec (.fabricStoreRequest r (.inline bytes)) used ∧
      ∀ tag, exec (.versionTaggedStore r (.received port) tag) s = exec (.versionTaggedStore r (.inline bytes) tag) used) ∧
    (∀ y, s.dev.pairedCtx r.src r.srcCtx = some y → r.home = none →
      (∀ s' x (loc : Loc), s.dev.rightCase y.index page true = .here → s.inbound r .atomic = (s', .ok x loc) →
        loc.space = .hbm →
        let old := s'.dev.hbm.readN loc.addr r.bytes
        let counted := fun (t : State) => (t.dev.right? x.index page).map AtomicRight.window =
          some (((s'.dev.right? x.index page).map AtomicRight.window).getD [] ++ [r.src])
        (∀ v, ∃ t n k, exec (.fabricAtomicRequest r (.add v)) s = .next t ∧ counted t ∧
          sent s' t (bringing k old n :: grant r.bytes) ∧
          t.dev.hbm = s'.dev.hbm.writeN loc.addr (leBytes r.bytes (leNat old + v.toNat))) ∧
        ∀ cmp new, ∃ t n k, exec (.fabricAtomicRequest r (.cas cmp new)) s = .next t ∧ counted t ∧
          sent s' t (bringing k old n :: grant r.bytes) ∧
          t.dev.hbm = if leNat old = cmp.toNat % 2 ^ (8 * r.bytes)
            then s'.dev.hbm.writeN loc.addr (leBytes r.bytes new.toNat) else s'.dev.hbm) ∧
      ∀ a, (∀ o, s.dev.rightCase y.index page true = .away o →
          let fails := fun (x : FabricReply) => ∃ t, exec (.fabricAtomicRequest r a) s = .next t ∧
            t.dev.hbm = s.dev.hbm ∧ sent s t (saying x :: grant r.bytes)
          (admits y = false → fails .refused) ∧
          (admits y = true → s.dev.pathTo o r.va.toNat = none → fails .failed) ∧
          ∀ port, admits y = true → s.dev.pathTo o r.va.toNat = some port →
            ∃ t x, exec (.fabricAtomicRequest r a) s = .next t ∧ t.dev.hbm = s.dev.hbm ∧ x ∈ t.dev.txns ∧
              x.kind = .relay (.atomic { r with engine := true } a) ∧ x.ctx = y.index ∧ x.peer = o ∧ x.port = port ∧
              x.va = r.va.toNat ∧ x.away = true) ∧
        ∀ b, s.dev.rightCase y.index page true = .waits b →
          exec (.fabricAtomicRequest r a) s = .next (s.holdRequest (.atomic r a))) ∧
    ∀ m : CollectiveMessage,
      let told := fun (d : Dev) (taken : Bool) =>
        ({ s with dev := { d with outbox := d.outbox ++ [.collective m.src m.ctx m.id taken] } } : State)
      (s.dev.pairedCtx m.src m.ctx = none → exec (.collectiveMessage m) s = .next (told s.dev false)) ∧
      ∀ x, s.dev.pairedCtx m.src m.ctx = some x → let key := (x.index, m.id.toNat, m.src)
        let kept := { s.dev with collect := s.dev.collect ++ [{ m with ctx := x.index }] }
        let behind := s.dev.collect.any (fun y => !y.failed && y.ctx == x.index && y.id == m.id && y.src == m.src)
        (admits x = false → exec (.collectiveMessage m) s = .next (told s.dev false)) ∧
        (admits x = true → m.failed = false → exec (.collectiveMessage m) s = .next (told (if key ∈ s.dev.owed
          then { s.dev with owed := s.dev.owed.erase key } else kept) true)) ∧
        (admits x = true → m.failed = true →
          exec (.collectiveMessage m) s = .next (told (if behind = true then kept else s.dev) true))

/-- R235, R305, R308, R309, R311, R314, R326. What comes back to the device. An acknowledgement ends a store's transaction and
takes its part from the access; data end a load's, with the value for the lane, cut out of the line when the whole line has
come (log 51), whether the bytes stand in the reply or have come in the units of a port. A grant raises an allowance, up to
65,535. A window of 64 atomics ends with the right and the page's bytes on their way to the remote device that issued 56 of
them, or, at an owner that issued fewer, on their way back to the home with the lines that it has written; otherwise the next
window begins. The right arrives at its new owner, at home with the page's bytes, of which the written lines are taken, or
here from another device, and is given up when its home takes it back. A measured offset sets the timebase while
synchronising, and moves it on by at most 1 ns afterwards; without a usable path the timebase is unsynchronised. How a time
correction moves the timebase is the model's reading (log 10), and so is the way of a right with its page (log 36). -/
def Obligations.FabricReturns : Prop :=
  (∀ (s : State) id t a, s.dev.txns.find? (fun x => x.id == id && !x.held) = some t → s.dev.cmd? t.op = none →
    s.dev.access? t.op = some a → (∃ l ∈ a.lanes, t.carries l = false) →
    (t.kind = .store → a.kind = .store → ∃ u, exec (.fabricReply id .ack) s = .next u ∧
      (∀ x ∈ u.dev.txns, x.id ≠ id) ∧
      u.dev.access? t.op = some { a with lanes := a.lanes.filter (fun l => !t.carries l) }) ∧
    (∀ (bytes : List Byte) seq, t.kind = .load → a.kind = .load →
      let data := if bytes.length = 128 then (bytes.drop (t.part % 128)).take a.width else bytes.take a.width
      ∃ u, exec (.fabricReply id (.data (.inline bytes) seq)) s = .next u ∧ (∀ x ∈ u.dev.txns, x.id ≠ id) ∧
        u.dev.access? t.op = some { a with
          lanes := a.lanes.filter (fun l => !t.carries l)
          results := a.results ++ [(t.lane, BitVec.ofNat 64 (leNat data))] }) ∧
    ∀ port seq, exec (.fabricReply id (.data (.received port) seq)) s =
      exec (.fabricReply id (.data (.inline ((s.dev.portUnits.filter (fun x => x.1 == port)).flatMap Prod.snd)) seq))
        { s with dev := { s.dev with portUnits := s.dev.portUnits.filter (fun x => x.1 != port) } }) ∧
  (∀ (s : State) dest units, ∃ t, exec (.allowanceGrant dest units) s = .next t ∧
    t.dev.peers = s.dev.peers.map (fun p =>
      if p.id = dest then { p with allowance := min 65535 (p.allowance + units) } else p)) ∧
  (∀ (s : State) ctx page r l, s.dev.rights = [r] → r.ctx = ctx → r.page = page → r.handing = false → r.owner = none →
    64 ≤ r.window.length → s.dev.pagePlace ctx page = some l →
    let share := fun (w : Nat) => ((r.window.take 64).filter (· == w)).length
    (∀ w, w ≠ s.dev.devId → 56 ≤ share w → ∃ t, exec (.atomicWindowEnd ctx (.own page)) s = .next t ∧
      t.dev.rights = [{ r with owner := some w, window := [], handing := true }] ∧
      t.dev.outbox = s.dev.outbox ++ [.right w ctx page (s.dev.pageCells l) []]) ∧
    ((∀ w, w ≠ s.dev.devId → share w < 56) → ∃ t, exec (.atomicWindowEnd ctx (.own page)) s = .next t ∧
      t.dev.rights = [{ r with window := r.window.drop 64 }] ∧ t.dev.outbox = s.dev.outbox)) ∧
  (∀ (s : State) o, s.dev.owned = [o] → 64 ≤ o.window.length →
    let share := ((o.window.take 64).filter (· == s.dev.devId)).length
    ∃ t, exec (.atomicWindowEnd o.ctx (.of o.peer o.page)) s = .next t ∧
      (56 ≤ share → t.dev.owned = [{ o with window := o.window.drop 64 }] ∧ t.dev.outbox = s.dev.outbox) ∧
      (share < 56 → t.dev.owned = [] ∧ t.dev.outbox = s.dev.outbox ++ [.right o.peer o.ctx o.page o.words o.written])) ∧
  (∀ (s : State) r w, s.dev.rights = [r] → r.owner = some w → r.handing = true → s.dev.heldRequests = [] →
    ∃ t, exec (.atomicRightHandover r.ctx r.page .away) s = .next t ∧ t.dev.rights = [{ r with handing := false }]) ∧
  (∀ (s : State) r words written a, s.dev.rights = [r] → (r.owner.isSome = true ∨ r.handing = true) →
    s.dev.heldRequests = [] → s.dev.pagePlace r.ctx r.page = some ⟨.hbm, a⟩ → s.dev.hbm.wf = true →
    ∃ t, exec (.atomicRightHandover r.ctx r.page (.home words written)) s = .next t ∧
      t.dev.rights = [{ r with owner := none, window := [], handing := false, from_ := none }] ∧
      (∀ k, k < 65536 → t.dev.hbm.read (a + k) =
        if k / 128 ∈ written then (pageMemory words).read k else s.dev.hbm.read (a + k)) ∧
      ∀ x, x < a ∨ a + 65536 ≤ x → t.dev.hbm.read x = s.dev.hbm.read x) ∧
  (∀ (s : State) ctx peer page,
    (∀ words, s.dev.owned? ctx peer page = none → exec (.atomicRightHandover ctx page (.here peer words)) s = .next { s with
      dev := { s.dev with owned := s.dev.owned ++ [⟨ctx, peer, page, pageMemory words, [], []⟩] } }) ∧
    ∀ o, s.dev.owned? ctx peer page = some o → ∃ t, exec (.atomicRightHandover ctx page (.taken peer)) s = .next t ∧
      t.dev.owned = s.dev.owned.filter (fun x => x ≠ o) ∧
      t.dev.outbox = s.dev.outbox ++ [.right o.peer o.ctx o.page o.words o.written]) ∧
  ∀ (s : State) (offset : Int),
    let after := fun (t : State) =>
      t.dev.platform = { s.dev.platform with unsync := false } ∧
      t.dev.timebase = (if s.dev.platform.state = 5 then BitVec.ofInt 64 (s.dev.timebase.toNat + offset)
        else if 0 < offset then s.dev.timebase + 1 else s.dev.timebase)
    (s.dev.anyPath = true → ∃ t, exec (.timebaseSync offset) s = .next t ∧ after t) ∧
    (s.dev.anyPath = false → ∃ t, exec (.timebaseSync offset) s = .next t ∧
      t.dev.platform = { s.dev.platform with unsync := true } ∧ t.dev.timebase = s.dev.timebase) ∧
    ∀ src, ∃ t, exec (.timeMessage src offset) s = .next t ∧
      (src = s.dev.timeSource → src ≠ s.dev.devId → after t) ∧
      (src = s.dev.devId ∨ src ≠ s.dev.timeSource →
        t.dev.outbox = s.dev.outbox ++ [.time src s.dev.timebase] ∧ t.dev.timebase = s.dev.timebase)

/-- R311, R314 to R316, R346. The links. A unit of a known method is rebuilt and joins those of its port; any other is
discarded, and the paths of its port retrain. A block whose tag fails is discarded, and after three in a row the paths of
the port retrain. A key that replaces another starts its block counter at zero, and a port that has no key takes none. The
transactions of a path that begins to retrain are held; a path that is trained is usable, and a peer that had none has the
allowance that it grants, and is granted what the driver has set for it. A path whose retraining runs out is not usable,
and a peer that is lost is down: no transaction is left there, entries that rest on it are struck, and so is the right of
a page that it held (no request being held for a right meanwhile). The model's choices: one block for each unit (log 52), the
grants at training with their default and bounds (log 53), and the units that wait at a port (log 69). -/
def Obligations.Links : Prop :=
  let held := fun (d e : Dev) (peer : Nat → Prop) (port : Nat) =>
    (∀ p ∈ e.peers, ∃ q ∈ d.peers, p.id = q.id ∧ p.usable = q.usable ∧ p.down = q.down ∧ p.allowance = q.allowance ∧
      (peer q.id → q.usable.getLsbD port = true → p.retraining = q.retraining ||| BitVec.ofNat 96 (2 ^ port)) ∧
      (¬ (peer q.id ∧ q.usable.getLsbD port = true) → p = q)) ∧ e.peers.map Peer.id = d.peers.map Peer.id ∧
    e.txns.map (fun x => { x with held := true }) = d.txns.map (fun x => { x with held := true }) ∧
    ∀ x ∈ e.txns, (x ∈ d.txns ∨ (peer x.peer ∧ x.port = port)) ∧ (peer x.peer → x.port = port → x.held = true)
  (∀ (s : State) port (d : BitVec 16) body,
    let passed : Dev := { s.dev with
      keys := s.dev.keys.map (fun (k : PortKey) => if k.port = port ∧ k.outbound = false then { k with counter := k.counter + 1 } else k)
      tagFails := s.dev.tagFails.filter (fun x => x.1 ≠ port) }
    (∀ u, rebuildUnit d.toNat body = some u → exec (.fabricUnitReceive port d (some body)) s = .next { s with
      dev := { passed with portUnits := s.dev.portUnits ++ [(port, u)] } }) ∧
    (rebuildUnit d.toNat body = none → ∃ t, exec (.fabricUnitReceive port d (some body)) s = .next t ∧
      t.dev.portUnits = s.dev.portUnits ∧ t.dev.keys = passed.keys ∧ t.dev.tagFails = passed.tagFails ∧
      held s.dev t.dev (fun p => p ∈ s.dev.peers.map Peer.id) port) ∧
    let n := (s.dev.tagFails.lookup port).getD 0 + 1
    (n < 3 → exec (.fabricUnitReceive port d none) s = .next { s with
      dev := { s.dev with tagFails := (port, n) :: passed.tagFails } }) ∧
    (3 ≤ n → ∃ t, exec (.fabricUnitReceive port d none) s = .next t ∧ t.dev.portUnits = s.dev.portUnits ∧
      t.dev.keys = s.dev.keys ∧ t.dev.tagFails = passed.tagFails ∧
      held s.dev t.dev (fun p => p ∈ s.dev.peers.map Peer.id) port)) ∧
  ((∀ b : List Byte, b.length ≤ 256 → rebuildUnit 0x0000 b = some b) ∧ rebuildUnit 0x1000 [] = some (List.replicate 256 0) ∧
    (∀ w : List Byte, w.length = 4 → rebuildUnit 0x2004 w = some (List.replicate 64 w).flatten) ∧
    ∀ d (b : List Byte), 0x5000 ≤ d → rebuildUnit d b = none) ∧
  (∀ (s : State) port out key, let mine := fun (k : PortKey) => k.port == port && k.outbound == out
    exec (.linkKeyRollover port out key) s = .next (if s.dev.keys.any mine = true then
      { s with dev := { s.dev with keys := ⟨port, out, key, 0⟩ :: s.dev.keys.filter (fun k => !mine k) } } else s)) ∧
  (∀ (s : State) peer port, ∃ t, exec (.linkRetrainStart peer port) s = .next t ∧ held s.dev t.dev (· = peer) port) ∧
  (∀ (s : State) peer (link : LinkUp),
    (96 ≤ link.port ∨ 512 ≤ peer ∨ s.dev.platform.state < 4 → exec (.linkRetrainComplete peer link) s = .next s) ∧
    (link.port < 96 → peer < 512 → 4 ≤ s.dev.platform.state →
      let known := s.dev.peers.find? (fun p => p.id == peer)
      let units := fun (n : Nat) => if n = 0 then 4096 else min 65535 (max 2048 n)
      ∃ t p more, exec (.linkRetrainComplete peer link) s = .next t ∧ t.dev.peers.find? (fun p => p.id == peer) = some p ∧
        p.usable.getLsbD link.port = true ∧ p.retraining.getLsbD link.port = false ∧ p.down = false ∧
        (∀ q, known = some q → q.down = false → q.usable ≠ 0 →
          p.allowance = q.allowance ∧ t.dev.outbox = s.dev.outbox ++ more) ∧
        ((∀ q, known = some q → q.down = true ∨ q.usable = 0) → p.allowance = units link.grant ∧
          t.dev.outbox = s.dev.outbox ++ [.grant peer (units ((s.dev.sourceGrants.lookup peer).getD 0))] ++ more))) ∧
  (∀ (s : State) peer port,
    (s.dev.retraining peer port = false → exec (.retrainTimeout peer port) s = .next s) ∧
    (s.dev.retraining peer port = true → s.dev.heldRequests = [] →
      ∃ t, exec (.retrainTimeout peer port) s = .next t ∧
        (∀ p ∈ t.dev.peers, p.id = peer → p.usable.getLsbD port = false ∧ p.retraining.getLsbD port = false) ∧
        ∀ x ∈ t.dev.txns, ¬ (x.peer = peer ∧ x.port = port))) ∧
  ∀ (s : State) peer, s.dev.heldRequests = [] → ∃ t, exec (.peerLostReport peer) s = .next t ∧
    (∀ p ∈ t.dev.peers, p.id = peer → p.down = true ∧ p.usable = 0 ∧ p.retraining = 0) ∧
    (∀ x ∈ t.dev.txns, x.peer ≠ peer) ∧ t.dev.rights = s.dev.rights.filter (fun r => !r.restsWith peer) ∧
    t.dev.owned = s.dev.owned.filter (fun o => o.peer != peer) ∧
    ∀ w ∈ t.dev.waves, ∀ e ∈ w.watch, e.fabric = true → e.line.space = .fabric → fabricDest e.line.addr = peer →
      e.state ≠ .pending

/-- R326, R344, R345, R347, R410 to R413. The platform. A stage of bring-up that ends moves the state on, the image that
is loaded in state 1 is measured, one that fails leaves its code, and the driver assigns the device's number. A
fundamental reset leaves everything as after reset but the host's memory and the firmware, and a function-level reset
frees every context, loses the LPDDR tier and forgets the measurement; each verifies an image that is staged, and a bad one
leaves state 1 with its code, as does firmware that has failed its check already. Power at the cap and a junction at 100 °C
lower the clock and hold the module, which below them is held no more, and 115 °C in a junction or as a trip stops every clock
and drops the link. The management requests answer, or set what they name. The contents of HBM after a fundamental reset (log
54), what the firmware check, the digests and the signature answer (log 9), that a cap outside 800 W to 2,400 W is not taken
(log 55), that a hold ends at the first reading below its mark (log 58), and the power of the auxiliary rail (log 71) are the
model's choices. -/
def Obligations.PlatformEvents : Prop :=
  let goes := fun (i : Instr) (s : State) (d : Dev) => exec i s = .next { s with dev := d }
  let restarts := fun (i : Instr) (s : State) (d : Dev) => exec i s = .next { s with dev := d, issue := none, held := [] }
  let verifies := fun (p q : Platform) (good : Bool) =>
    (p.staged = [] → q = { p with code := if good then 0 else 1 }) ∧
    (p.staged ≠ [] → good = true → Config.firmwareGood p.staged = true →
      q = { p with code := 0, image := p.staged, staged := [] }) ∧
    (p.staged ≠ [] → good = false ∨ Config.firmwareGood p.staged = false → q = { p with code := 1 })
  let left : Dev → Dev := fun d => { Dev.reset with
    devId := d.devId, hbm := d.hbm, host := d.host
    failing := d.failing.filter (fun f => match f with | .memory a => a.space == .hbm | _ => false) }
  let trips := fun (s : State) (p : Platform) (celsius : Nat) => { left s.dev with
    platform := { p with state := 0, tripped := true, linkUp := false }, timebase := s.dev.timebase, clock := s.dev.clock
    outbox := s.dev.outbox ++ [.thermalTrip celsius] }
  (∀ (s : State), let p := s.dev.platform
    (1 ≤ p.state → p.state < 6 → p.code = 0 →
      (let digests := p.digests ++ digest64 p.image
        let next : Platform := if p.state = 1 then { p with state := 2, digests := digests, measurement := digest64 digests }
          else { p with state := p.state + 1 }
        goes (.bringupStageComplete .done) s { s.dev with platform := next }) ∧
      (∀ id, id < 512 → goes (.bringupStageComplete (.assigned id)) s { s.dev with devId := id }) ∧
      ∀ r k, (r, k) ∈ [(StageResult.signatureBad, 1), (.memoryFailed, 3), (.noPortUp, 4)] →
        goes (.bringupStageComplete r) s (if p.state = k then { s.dev with platform := { p with code := k } } else s.dev)) ∧
    (p.state = 0 ∨ 6 ≤ p.state ∨ p.code ≠ 0 → ∀ r, goes (.bringupStageComplete r) s s.dev)) ∧
  (∀ (s : State) good, ∃ q, verifies { Platform.reset with staged := s.dev.platform.staged, image := s.dev.platform.image } q good ∧
    restarts (.fundamentalReset good) s { Dev.reset with platform := q, host := s.dev.host }) ∧
  (∀ s : State, ∃ q, verifies { s.dev.platform with
      state := 1, powerHeld := false, thermalHeld := false, digests := [], measurement := [] } q (s.dev.platform.code != 1) ∧
    restarts .functionLevelReset s { left s.dev with
      platform := q, keys := s.dev.keys, timebase := s.dev.timebase, clock := s.dev.clock }) ∧
  (∀ (s : State) x, let p := s.dev.platform
    goes (.powerHold x) s { s.dev with platform := { p with
      watts := x, powerHeld := decide (p.cap ≤ x), clockSteps := p.clockSteps + if p.cap ≤ x then 1 else 0 } } ∧
    (115 ≤ x → restarts (.thermalTrip x) s (trips s p x)) ∧
    (∀ js : List Nat, let hot := js.any (fun j => decide (100 ≤ j))
      ((∀ j ∈ js, j < 115) → goes (.thermalHold js) s { s.dev with platform := { p with
        celsius := js, thermalHeld := hot, clockSteps := p.clockSteps + if hot = true then 1 else 0 } }) ∧
      ∀ j, js.find? (fun j => decide (115 ≤ j)) = some j →
        restarts (.thermalHold js) s (trips s { p with celsius := js } j)) ∧
    (x < 115 → goes (.thermalTrip x) s s.dev) ∧
    goes (.powerCap x) s (if 800 ≤ x ∧ x ≤ 2400 then { s.dev with platform := { p with cap := x } } else s.dev)) ∧
  ∀ (s : State), let p := s.dev.platform
    let saying := fun (m : OutMsg) => { s.dev with outbox := s.dev.outbox ++ [m] }
    exec .telemetry s = .next { s with
      dev := saying (.telemetry ([p.watts, Config.auxPower s.free] ++ p.celsius ++ [1600 - 25 * p.clockSteps] ++
        s.dev.errorCounts.flatMap (fun e => [e.structure_, e.corrected, e.uncorrectable])))
      free := s.free + 1 } ∧
    (∀ nonce : List Byte, nonce.length = 32 → p.measurement.length = 64 →
      let head := nonce ++ p.measurement ++ digest64 s.dev.configBytes ++ leBytes 8 s.dev.timebase.toNat ++ serialNumber
      goes (.attest nonce) s
        (saying (.report (head ++ (Config.falconSign (digest64 head) ++ List.replicate 1280 0).take 1280)))) ∧
    (∀ port out key, goes (.linkKey port out key) s (if port < 96 then { s.dev with
      keys := ⟨port, out, key, 0⟩ :: s.dev.keys.filter (fun k => !(k.port == port && k.outbound == out)) } else s.dev)) ∧
    ∀ image : List Byte, goes (.stageFirmware image) s { s.dev with platform := { p with staged := image } }

/-- R48, R281, R348 to R351. Taking a fault, a trap or a breakpoint: the wave halts, and the status window's slot of its
place holds the class, the code, the address, the mask without helper lanes, the reported pc, the path's mode, the
context, the group and the wave; every wave of the launch that stands at a boundary and has not ended halts; the launch is
halted, and the context's state reads 2 unless it is being saved. So ends a clause that holds a `trap n` or a `brk n`:
what its instructions wrote is kept, its path stands at the next header, and the wave halts with class 12 or 13 and the
code n, the pc being that of the next header. That a class 0 fault halts the context's waves at a boundary at once is the
model's reading (log 5). -/
def Obligations.TakingFaults : Prop :=
  (∀ (s : State) id path (f : FaultInfo) w l x, s.dev.wave? id = some w → s.dev.launch? id.launch = some l →
    s.dev.ctx? l.ctx = some x → (∀ y ∈ s.dev.allWaves, y.id ≠ id → y.place ≠ w.place) →
    let t := s.takeFault id path f
    (∃ w' b, t.dev.wave? id = some w' ∧ w' = { w with hold := .halted b } ∧ t.dev.status.lookup w.place = some b ∧
      b.cls = f.cls ∧ b.code = f.code ∧ b.addr = f.addr ∧ b.mask = f.mask &&& ~~~w.helper ∧ b.pc = f.pc ∧
      b.mode = (w.path path).mode ∧ b.ctx = l.ctx ∧ b.group = id.group ∧ b.wave = id.wave ∧
      b.time = s.dev.timebase ∧ (b.flags.getLsbD 3 = true ↔ f.cls = 13)) ∧
    (∀ y ∈ t.dev.waves, y.id.launch = id.launch → s.issueOf y.id = none → y.over = true ∨ y.running = false) ∧
    t.dev.launch? id.launch = some { l with halted := true } ∧
    t.dev.ctx? l.ctx = some (if x.saving = none then { x with state := 2 } else x) ∧
    keepsRegisters s t ∧ keepsMemory s t) ∧
  ∀ (s : State) (c : Issue) (brk : Bool) n w l x, s.tape = [] → s.issue = some c → c.words = [] → c.effects = [] →
    c.phase ≠ .unchecked → c.trap = some (if brk then 13 else 12, n) →
    s.dev.waves.find? (fun y => y.id == c.wave.id) = some w → s.dev.launch? c.wave.id.launch = some l →
    s.dev.ctx? l.ctx = some x → s.dev.revoking = [] → c.rival = false →
    ∃ t w' b, step s = .next t ∧ t.issue = none ∧ t.dev.wave? c.wave.id = some w' ∧ w'.hold = .halted b ∧
      b.cls = (if brk then 13 else 12) ∧ b.code = n ∧ b.pc = c.next ∧ (w'.path c.path).pc = c.next ∧
      w'.v = c.wave.v ∧ w'.k = c.wave.k ∧ w'.q = c.wave.q ∧
      ∃ y, t.dev.ctx? l.ctx = some y ∧ (x.saving = none → y.state = 2)

/-- R41, R42, R51 to R53, R66. Decoding the words of a well-formed instruction, whatever words follow, gives the
instruction back with every operand, and leaves the words that follow. -/
def Obligations.DecodeEncode : Prop :=
  ∀ i : Instr, i.wellFormed = true → i.hasWord = true → ∀ rest, decodeInstr (encode i ++ rest) = .ok (i, rest)

/-- R41, R42, R51 to R53, R65, R66. No bit of an instruction is dropped: words that decode to an instruction are the words
of that instruction, which is well formed, followed by the words that are left. -/
def Obligations.EncodeDecode : Prop :=
  ∀ ws i rest, decodeInstr ws = .ok (i, rest) → i.wellFormed = true ∧ i.hasWord = true ∧ ws = encode i ++ rest

/-- R43, R47. A step at an instruction of the clause in execution is that instruction's effect, with time moved on before
it and its words taken from the clause after it: when the words of the clause begin with those of a well-formed
instruction, no register that it reads has lost its data, the checks of the whole clause are made and the ageing of the other
path is settled (log 14), and nothing comes from outside. As time moves on, the clause, the tape and the waves stay as they
are, unless a revocation comes to its end. -/
def Obligations.StepRunsDecoded : Prop :=
  (∀ (s : State) (c : Issue) i rest t, let u := s.advance
    u.tape = [] → u.issue = some c → c.rival = false → c.phase ≠ .unchecked → i.wellFormed = true → i.hasWord = true →
    c.words = encode i ++ rest → decodeInstr c.words = .ok (i, rest) → c.regLoss u.dev i = none → exec i u = .next t →
    step s = .next { t with issue := t.issue.map (fun c' => { c' with
      words := rest, covered := c'.covered ++ c.coverRegs i u.dev.failing }) }) ∧
  ∀ (s : State) c, s.issue = some c → s.dev.revoking = [] →
    s.advance.issue = some c ∧ s.advance.tape = s.tape ∧ s.advance.dev.waves = s.dev.waves

/-- R43, R47, R287. The machine always goes on: no state, with any events on its tape and any words in its clause, makes a
step stop. That an event whose conditions do not hold changes nothing, and is no stop, is the model's choice (log 3). -/
def Obligations.AlwaysGoesOn : Prop := ∀ s : State, s.goesOn

/-- R2, R209. Every step keeps every memory in its canonical form, whatever the state, the events and the words. The canonical
form is the model's own. Which form is canonical is the model's choice (log 1). -/
def Obligations.KeepsCanonical : Prop := ∀ s t : State, s.canonical → step s = .next t → t.canonical

/-- R217, R253, R266, R274. Every step keeps every state within the bounds of the machine's tables, whatever the events and the
words: at most 16 entries on the divergence stack of a wave and four on a loop stack, at most 64 entries in a die's range-lock
table, and at most 16 accepted commands in a class queue of an engine. -/
def Obligations.KeepsBounds : Prop := ∀ s t : State, s.bounded → step s = .next t → t.bounded

/-- R253, R341, R410, R411. After reset: bring-up is in state 1 with no failure, the power cap is 2,400 W and no hold stands;
every context is free; there is no graph, launch or wave; the bandwidth shares are the default ones; and the matrix array of a
core that no launch has been given holds B type f32 with XVW 0x8000 and zeros in both banks, bank 0 active. Every memory is in
the canonical form, which is the model's choice (log 1), and every table within its bounds. The values that the manual does not
give are the model's choice (log 2). -/
def Obligations.ResetState : Prop :=
  let d := State.reset.dev
  d.platform.state = 1 ∧ d.platform.code = 0 ∧ d.platform.cap = 2400 ∧ d.platform.powerHeld = false ∧
    d.platform.thermalHeld = false ∧ (∀ i, (d.context i).state = 0 ∧ (d.context i).step = 0) ∧ d.graphs = [] ∧
    d.launches = [] ∧ d.waves = [] ∧ d.shares = [32, 8, 8, 12, 4] ∧
    (∀ i, let c := d.core i
      EType.ofCode c.type0.toNat = .f32 ∧ EType.ofCode c.type1.toNat = .f32 ∧ c.xvw0 = 0x8000 ∧ c.xvw1 = 0x8000 ∧
        c.bank0 = [] ∧ c.bank1 = [] ∧ c.active = false ∧ c.queue = []) ∧
    State.reset.canonical ∧ State.reset.bounded

/-- R41, R43, R51 to R53. Words that the spec writes out decode to the instructions that they stand for, with their
literals, and its header to its fields. -/
def Obligations.DecodeWords : Prop :=
  decodeHeader 0xF900047C = some (⟨4, 1, 1, 15, false⟩, true) ∧
  decodeInstr [0xB40802F8, 0x240A0406] = .ok (.lds (.v 8) (.v 2) .zero, [0x240A0406]) ∧
  decodeInstr [0x240A0406] = .ok (.mul (.v 10) (.v 4) (.v 6), []) ∧
  decodeInstr [0x200C0CFE, 0x0000012C] = .ok (.add (.v 12) (.v 12) (.lit32 300), []) ∧
  decodeInstr [0xB10C06F8] = .ok (.stg (.v 12) (.v 6) .zero, []) ∧
  decodeInstr [0x3D030200] = .ok (.bsp3 (.v 3) (.v 2), []) ∧
  decodeInstr [0x82040607] = .ok (.clt 4 (.v 6) (.v 7), []) ∧
  decodeInstr [0x03030009] = .ok (.bif 3 9, []) ∧
  decodeInstr [0x3F04C014] = .ok (.lea (.v 4) (.k 0) (.v 20), []) ∧
  decodeInstr [0xA40A0800] = .ok (.mtch (.v 10) (.v 8), []) ∧
  decodeInstr [0x0E000000] = .ok (.exit, [])
end

