-- ==== Sys2Proof/Laws/State.lean ====
section
/-! SUPPORT. One lemma for each field under each update of the state, the device, a wave and a clause in execution, so
that no later proof unfolds a record update. -/

namespace Sys2Proof.Machine

@[simp] theorem State.mapDev_dev (s : State) (f : Dev → Dev) : (s.mapDev f).dev = f s.dev := rfl
@[simp] theorem State.mapDev_issue (s : State) (f : Dev → Dev) : (s.mapDev f).issue = s.issue := rfl
@[simp] theorem State.mapDev_held (s : State) (f : Dev → Dev) : (s.mapDev f).held = s.held := rfl
@[simp] theorem State.mapDev_tape (s : State) (f : Dev → Dev) : (s.mapDev f).tape = s.tape := rfl
@[simp] theorem State.mapDev_free (s : State) (f : Dev → Dev) : (s.mapDev f).free = s.free := rfl
@[simp] theorem State.mapWaves_dev (s : State) (f : Wave → Wave) : (s.mapWaves f).dev = { s.dev with waves := s.dev.waves.map f, parts := s.dev.parts.map (fun p => { p with waves := p.waves.map f }) } := rfl
@[simp] theorem State.mapWaves_issue (s : State) (f : Wave → Wave) : (s.mapWaves f).issue = s.issue.map (fun c => c.mapWave f) := rfl
@[simp] theorem State.mapWaves_held (s : State) (f : Wave → Wave) : (s.mapWaves f).held = s.held.map (fun c => c.mapWave f) := rfl
@[simp] theorem State.mapWaves_tape (s : State) (f : Wave → Wave) : (s.mapWaves f).tape = s.tape := rfl
@[simp] theorem State.mapWaves_free (s : State) (f : Wave → Wave) : (s.mapWaves f).free = s.free := rfl
@[simp] theorem State.onWave_tape (s : State) (id : WaveId) (f : Wave → Wave) : (s.onWave id f).tape = s.tape := rfl
@[simp] theorem State.onWave_free (s : State) (id : WaveId) (f : Wave → Wave) : (s.onWave id f).free = s.free := rfl
@[simp] theorem State.onWave_dev_platform (s : State) (id : WaveId) (f : Wave → Wave) : (s.onWave id f).dev.platform = s.dev.platform := rfl
@[simp] theorem State.onWave_dev_timebase (s : State) (id : WaveId) (f : Wave → Wave) : (s.onWave id f).dev.timebase = s.dev.timebase := rfl
@[simp] theorem State.onWave_dev_clock (s : State) (id : WaveId) (f : Wave → Wave) : (s.onWave id f).dev.clock = s.dev.clock := rfl
@[simp] theorem State.onWave_dev_devId (s : State) (id : WaveId) (f : Wave → Wave) : (s.onWave id f).dev.devId = s.dev.devId := rfl
@[simp] theorem State.onWave_dev_shares (s : State) (id : WaveId) (f : Wave → Wave) : (s.onWave id f).dev.shares = s.dev.shares := rfl
@[simp] theorem State.onWave_dev_ctxs (s : State) (id : WaveId) (f : Wave → Wave) : (s.onWave id f).dev.ctxs = s.dev.ctxs := rfl
@[simp] theorem State.onWave_dev_command (s : State) (id : WaveId) (f : Wave → Wave) : (s.onWave id f).dev.command = s.dev.command := rfl
@[simp] theorem State.onWave_dev_revocation (s : State) (id : WaveId) (f : Wave → Wave) : (s.onWave id f).dev.revocation = s.dev.revocation := rfl
@[simp] theorem State.onWave_dev_errorCounts (s : State) (id : WaveId) (f : Wave → Wave) : (s.onWave id f).dev.errorCounts = s.dev.errorCounts := rfl
@[simp] theorem State.onWave_dev_failing (s : State) (id : WaveId) (f : Wave → Wave) : (s.onWave id f).dev.failing = s.dev.failing := rfl
@[simp] theorem State.onWave_dev_status (s : State) (id : WaveId) (f : Wave → Wave) : (s.onWave id f).dev.status = s.dev.status := rfl
@[simp] theorem State.onWave_dev_access (s : State) (id : WaveId) (f : Wave → Wave) : (s.onWave id f).dev.access = s.dev.access := rfl
@[simp] theorem State.onWave_dev_regions (s : State) (id : WaveId) (f : Wave → Wave) : (s.onWave id f).dev.regions = s.dev.regions := rfl
@[simp] theorem State.onWave_dev_hbm (s : State) (id : WaveId) (f : Wave → Wave) : (s.onWave id f).dev.hbm = s.dev.hbm := rfl
@[simp] theorem State.onWave_dev_lpddr (s : State) (id : WaveId) (f : Wave → Wave) : (s.onWave id f).dev.lpddr = s.dev.lpddr := rfl
@[simp] theorem State.onWave_dev_host (s : State) (id : WaveId) (f : Wave → Wave) : (s.onWave id f).dev.host = s.dev.host := rfl
@[simp] theorem State.onWave_dev_consts (s : State) (id : WaveId) (f : Wave → Wave) : (s.onWave id f).dev.consts = s.dev.consts := rfl
@[simp] theorem State.onWave_dev_saves (s : State) (id : WaveId) (f : Wave → Wave) : (s.onWave id f).dev.saves = s.dev.saves := rfl
@[simp] theorem State.onWave_dev_graphs (s : State) (id : WaveId) (f : Wave → Wave) : (s.onWave id f).dev.graphs = s.dev.graphs := rfl
@[simp] theorem State.onWave_dev_launches (s : State) (id : WaveId) (f : Wave → Wave) : (s.onWave id f).dev.launches = s.dev.launches := rfl
@[simp] theorem State.onWave_dev_clusters (s : State) (id : WaveId) (f : Wave → Wave) : (s.onWave id f).dev.clusters = s.dev.clusters := rfl
@[simp] theorem State.onWave_dev_groups (s : State) (id : WaveId) (f : Wave → Wave) : (s.onWave id f).dev.groups = s.dev.groups := rfl
@[simp] theorem State.onWave_dev_cores (s : State) (id : WaveId) (f : Wave → Wave) : (s.onWave id f).dev.cores = s.dev.cores := rfl
@[simp] theorem State.onWave_dev_units (s : State) (id : WaveId) (f : Wave → Wave) : (s.onWave id f).dev.units = s.dev.units := rfl
@[simp] theorem State.onWave_dev_cmds (s : State) (id : WaveId) (f : Wave → Wave) : (s.onWave id f).dev.cmds = s.dev.cmds := rfl
@[simp] theorem State.onWave_dev_locks (s : State) (id : WaveId) (f : Wave → Wave) : (s.onWave id f).dev.locks = s.dev.locks := rfl
@[simp] theorem State.onWave_dev_dir (s : State) (id : WaveId) (f : Wave → Wave) : (s.onWave id f).dev.dir = s.dev.dir := rfl
@[simp] theorem State.onWave_dev_l2 (s : State) (id : WaveId) (f : Wave → Wave) : (s.onWave id f).dev.l2 = s.dev.l2 := rfl
@[simp] theorem State.onWave_dev_inflight (s : State) (id : WaveId) (f : Wave → Wave) : (s.onWave id f).dev.inflight = s.dev.inflight := rfl
@[simp] theorem State.onWave_dev_txns (s : State) (id : WaveId) (f : Wave → Wave) : (s.onWave id f).dev.txns = s.dev.txns := rfl
@[simp] theorem State.onWave_dev_peers (s : State) (id : WaveId) (f : Wave → Wave) : (s.onWave id f).dev.peers = s.dev.peers := rfl
@[simp] theorem State.onWave_dev_keys (s : State) (id : WaveId) (f : Wave → Wave) : (s.onWave id f).dev.keys = s.dev.keys := rfl
@[simp] theorem State.onWave_dev_rights (s : State) (id : WaveId) (f : Wave → Wave) : (s.onWave id f).dev.rights = s.dev.rights := rfl
@[simp] theorem State.onWave_dev_owned (s : State) (id : WaveId) (f : Wave → Wave) : (s.onWave id f).dev.owned = s.dev.owned := rfl
@[simp] theorem State.onWave_dev_lost (s : State) (id : WaveId) (f : Wave → Wave) : (s.onWave id f).dev.lost = s.dev.lost := rfl
@[simp] theorem State.onWave_dev_tlbs (s : State) (id : WaveId) (f : Wave → Wave) : (s.onWave id f).dev.tlbs = s.dev.tlbs := rfl
@[simp] theorem State.onWave_dev_gaps (s : State) (id : WaveId) (f : Wave → Wave) : (s.onWave id f).dev.gaps = s.dev.gaps := rfl
@[simp] theorem State.onWave_dev_fetched (s : State) (id : WaveId) (f : Wave → Wave) : (s.onWave id f).dev.fetched = s.dev.fetched := rfl
@[simp] theorem State.onWave_dev_revoking (s : State) (id : WaveId) (f : Wave → Wave) : (s.onWave id f).dev.revoking = s.dev.revoking := rfl
@[simp] theorem State.onWave_dev_fills (s : State) (id : WaveId) (f : Wave → Wave) : (s.onWave id f).dev.fills = s.dev.fills := rfl
@[simp] theorem State.onWave_dev_returns (s : State) (id : WaveId) (f : Wave → Wave) : (s.onWave id f).dev.returns = s.dev.returns := rfl
@[simp] theorem State.onWave_dev_outbox (s : State) (id : WaveId) (f : Wave → Wave) : (s.onWave id f).dev.outbox = s.dev.outbox := rfl
@[simp] theorem State.onWave_dev_sourceGrants (s : State) (id : WaveId) (f : Wave → Wave) : (s.onWave id f).dev.sourceGrants = s.dev.sourceGrants := rfl
@[simp] theorem State.onWave_dev_collect (s : State) (id : WaveId) (f : Wave → Wave) : (s.onWave id f).dev.collect = s.dev.collect := rfl
@[simp] theorem State.onWave_dev_owed (s : State) (id : WaveId) (f : Wave → Wave) : (s.onWave id f).dev.owed = s.dev.owed := rfl
@[simp] theorem State.onWave_dev_walkerWaits (s : State) (id : WaveId) (f : Wave → Wave) : (s.onWave id f).dev.walkerWaits = s.dev.walkerWaits := rfl
@[simp] theorem State.onWave_dev_heldRequests (s : State) (id : WaveId) (f : Wave → Wave) : (s.onWave id f).dev.heldRequests = s.dev.heldRequests := rfl
@[simp] theorem State.onWave_dev_portUnits (s : State) (id : WaveId) (f : Wave → Wave) : (s.onWave id f).dev.portUnits = s.dev.portUnits := rfl
@[simp] theorem State.onWave_dev_tagFails (s : State) (id : WaveId) (f : Wave → Wave) : (s.onWave id f).dev.tagFails = s.dev.tagFails := rfl
@[simp] theorem State.onWave_dev_rotation (s : State) (id : WaveId) (f : Wave → Wave) : (s.onWave id f).dev.rotation = s.dev.rotation := rfl
@[simp] theorem State.onWave_dev_isobar (s : State) (id : WaveId) (f : Wave → Wave) : (s.onWave id f).dev.isobar = s.dev.isobar := rfl
@[simp] theorem State.onWave_dev_nextId (s : State) (id : WaveId) (f : Wave → Wave) : (s.onWave id f).dev.nextId = s.dev.nextId := rfl
@[simp] theorem State.fresh_issue (s : State) : s.fresh.2.issue = s.issue := rfl
@[simp] theorem State.fresh_held (s : State) : s.fresh.2.held = s.held := rfl
@[simp] theorem State.fresh_tape (s : State) : s.fresh.2.tape = s.tape := rfl
@[simp] theorem State.fresh_free (s : State) : s.fresh.2.free = s.free := rfl
@[simp] theorem State.fresh_dev_platform (s : State) : s.fresh.2.dev.platform = s.dev.platform := rfl
@[simp] theorem State.fresh_dev_timebase (s : State) : s.fresh.2.dev.timebase = s.dev.timebase := rfl
@[simp] theorem State.fresh_dev_clock (s : State) : s.fresh.2.dev.clock = s.dev.clock := rfl
@[simp] theorem State.fresh_dev_devId (s : State) : s.fresh.2.dev.devId = s.dev.devId := rfl
@[simp] theorem State.fresh_dev_shares (s : State) : s.fresh.2.dev.shares = s.dev.shares := rfl
@[simp] theorem State.fresh_dev_ctxs (s : State) : s.fresh.2.dev.ctxs = s.dev.ctxs := rfl
@[simp] theorem State.fresh_dev_command (s : State) : s.fresh.2.dev.command = s.dev.command := rfl
@[simp] theorem State.fresh_dev_revocation (s : State) : s.fresh.2.dev.revocation = s.dev.revocation := rfl
@[simp] theorem State.fresh_dev_errorCounts (s : State) : s.fresh.2.dev.errorCounts = s.dev.errorCounts := rfl
@[simp] theorem State.fresh_dev_failing (s : State) : s.fresh.2.dev.failing = s.dev.failing := rfl
@[simp] theorem State.fresh_dev_status (s : State) : s.fresh.2.dev.status = s.dev.status := rfl
@[simp] theorem State.fresh_dev_access (s : State) : s.fresh.2.dev.access = s.dev.access := rfl
@[simp] theorem State.fresh_dev_regions (s : State) : s.fresh.2.dev.regions = s.dev.regions := rfl
@[simp] theorem State.fresh_dev_hbm (s : State) : s.fresh.2.dev.hbm = s.dev.hbm := rfl
@[simp] theorem State.fresh_dev_lpddr (s : State) : s.fresh.2.dev.lpddr = s.dev.lpddr := rfl
@[simp] theorem State.fresh_dev_host (s : State) : s.fresh.2.dev.host = s.dev.host := rfl
@[simp] theorem State.fresh_dev_consts (s : State) : s.fresh.2.dev.consts = s.dev.consts := rfl
@[simp] theorem State.fresh_dev_parts (s : State) : s.fresh.2.dev.parts = s.dev.parts := rfl
@[simp] theorem State.fresh_dev_saves (s : State) : s.fresh.2.dev.saves = s.dev.saves := rfl
@[simp] theorem State.fresh_dev_graphs (s : State) : s.fresh.2.dev.graphs = s.dev.graphs := rfl
@[simp] theorem State.fresh_dev_launches (s : State) : s.fresh.2.dev.launches = s.dev.launches := rfl
@[simp] theorem State.fresh_dev_clusters (s : State) : s.fresh.2.dev.clusters = s.dev.clusters := rfl
@[simp] theorem State.fresh_dev_groups (s : State) : s.fresh.2.dev.groups = s.dev.groups := rfl
@[simp] theorem State.fresh_dev_waves (s : State) : s.fresh.2.dev.waves = s.dev.waves := rfl
@[simp] theorem State.fresh_dev_cores (s : State) : s.fresh.2.dev.cores = s.dev.cores := rfl
@[simp] theorem State.fresh_dev_units (s : State) : s.fresh.2.dev.units = s.dev.units := rfl
@[simp] theorem State.fresh_dev_cmds (s : State) : s.fresh.2.dev.cmds = s.dev.cmds := rfl
@[simp] theorem State.fresh_dev_locks (s : State) : s.fresh.2.dev.locks = s.dev.locks := rfl
@[simp] theorem State.fresh_dev_dir (s : State) : s.fresh.2.dev.dir = s.dev.dir := rfl
@[simp] theorem State.fresh_dev_l2 (s : State) : s.fresh.2.dev.l2 = s.dev.l2 := rfl
@[simp] theorem State.fresh_dev_inflight (s : State) : s.fresh.2.dev.inflight = s.dev.inflight := rfl
@[simp] theorem State.fresh_dev_txns (s : State) : s.fresh.2.dev.txns = s.dev.txns := rfl
@[simp] theorem State.fresh_dev_peers (s : State) : s.fresh.2.dev.peers = s.dev.peers := rfl
@[simp] theorem State.fresh_dev_keys (s : State) : s.fresh.2.dev.keys = s.dev.keys := rfl
@[simp] theorem State.fresh_dev_rights (s : State) : s.fresh.2.dev.rights = s.dev.rights := rfl
@[simp] theorem State.fresh_dev_owned (s : State) : s.fresh.2.dev.owned = s.dev.owned := rfl
@[simp] theorem State.fresh_dev_lost (s : State) : s.fresh.2.dev.lost = s.dev.lost := rfl
@[simp] theorem State.fresh_dev_tlbs (s : State) : s.fresh.2.dev.tlbs = s.dev.tlbs := rfl
@[simp] theorem State.fresh_dev_gaps (s : State) : s.fresh.2.dev.gaps = s.dev.gaps := rfl
@[simp] theorem State.fresh_dev_fetched (s : State) : s.fresh.2.dev.fetched = s.dev.fetched := rfl
@[simp] theorem State.fresh_dev_revoking (s : State) : s.fresh.2.dev.revoking = s.dev.revoking := rfl
@[simp] theorem State.fresh_dev_fills (s : State) : s.fresh.2.dev.fills = s.dev.fills := rfl
@[simp] theorem State.fresh_dev_returns (s : State) : s.fresh.2.dev.returns = s.dev.returns := rfl
@[simp] theorem State.fresh_dev_outbox (s : State) : s.fresh.2.dev.outbox = s.dev.outbox := rfl
@[simp] theorem State.fresh_dev_sourceGrants (s : State) : s.fresh.2.dev.sourceGrants = s.dev.sourceGrants := rfl
@[simp] theorem State.fresh_dev_collect (s : State) : s.fresh.2.dev.collect = s.dev.collect := rfl
@[simp] theorem State.fresh_dev_owed (s : State) : s.fresh.2.dev.owed = s.dev.owed := rfl
@[simp] theorem State.fresh_dev_walkerWaits (s : State) : s.fresh.2.dev.walkerWaits = s.dev.walkerWaits := rfl
@[simp] theorem State.fresh_dev_heldRequests (s : State) : s.fresh.2.dev.heldRequests = s.dev.heldRequests := rfl
@[simp] theorem State.fresh_dev_portUnits (s : State) : s.fresh.2.dev.portUnits = s.dev.portUnits := rfl
@[simp] theorem State.fresh_dev_tagFails (s : State) : s.fresh.2.dev.tagFails = s.dev.tagFails := rfl
@[simp] theorem State.fresh_dev_rotation (s : State) : s.fresh.2.dev.rotation = s.dev.rotation := rfl
@[simp] theorem State.fresh_dev_isobar (s : State) : s.fresh.2.dev.isobar = s.dev.isobar := rfl
@[simp] theorem State.fresh_dev_nextId (s : State) : s.fresh.2.dev.nextId = s.dev.nextId + 1 := rfl
@[simp] theorem State.fresh_fst (s : State) : s.fresh.1 = s.dev.nextId := rfl
@[simp] theorem Dev.setWave_platform (d : Dev) (w : Wave) : (d.setWave w).platform = d.platform := rfl
@[simp] theorem Dev.setWave_timebase (d : Dev) (w : Wave) : (d.setWave w).timebase = d.timebase := rfl
@[simp] theorem Dev.setWave_clock (d : Dev) (w : Wave) : (d.setWave w).clock = d.clock := rfl
@[simp] theorem Dev.setWave_devId (d : Dev) (w : Wave) : (d.setWave w).devId = d.devId := rfl
@[simp] theorem Dev.setWave_shares (d : Dev) (w : Wave) : (d.setWave w).shares = d.shares := rfl
@[simp] theorem Dev.setWave_ctxs (d : Dev) (w : Wave) : (d.setWave w).ctxs = d.ctxs := rfl
@[simp] theorem Dev.setWave_command (d : Dev) (w : Wave) : (d.setWave w).command = d.command := rfl
@[simp] theorem Dev.setWave_revocation (d : Dev) (w : Wave) : (d.setWave w).revocation = d.revocation := rfl
@[simp] theorem Dev.setWave_errorCounts (d : Dev) (w : Wave) : (d.setWave w).errorCounts = d.errorCounts := rfl
@[simp] theorem Dev.setWave_failing (d : Dev) (w : Wave) : (d.setWave w).failing = d.failing := rfl
@[simp] theorem Dev.setWave_status (d : Dev) (w : Wave) : (d.setWave w).status = d.status := rfl
@[simp] theorem Dev.setWave_access (d : Dev) (w : Wave) : (d.setWave w).access = d.access := rfl
@[simp] theorem Dev.setWave_regions (d : Dev) (w : Wave) : (d.setWave w).regions = d.regions := rfl
@[simp] theorem Dev.setWave_hbm (d : Dev) (w : Wave) : (d.setWave w).hbm = d.hbm := rfl
@[simp] theorem Dev.setWave_lpddr (d : Dev) (w : Wave) : (d.setWave w).lpddr = d.lpddr := rfl
@[simp] theorem Dev.setWave_host (d : Dev) (w : Wave) : (d.setWave w).host = d.host := rfl
@[simp] theorem Dev.setWave_consts (d : Dev) (w : Wave) : (d.setWave w).consts = d.consts := rfl
@[simp] theorem Dev.setWave_parts (d : Dev) (w : Wave) : (d.setWave w).parts = d.parts := rfl
@[simp] theorem Dev.setWave_saves (d : Dev) (w : Wave) : (d.setWave w).saves = d.saves := rfl
@[simp] theorem Dev.setWave_graphs (d : Dev) (w : Wave) : (d.setWave w).graphs = d.graphs := rfl
@[simp] theorem Dev.setWave_launches (d : Dev) (w : Wave) : (d.setWave w).launches = d.launches := rfl
@[simp] theorem Dev.setWave_clusters (d : Dev) (w : Wave) : (d.setWave w).clusters = d.clusters := rfl
@[simp] theorem Dev.setWave_groups (d : Dev) (w : Wave) : (d.setWave w).groups = d.groups := rfl
@[simp] theorem Dev.setWave_cores (d : Dev) (w : Wave) : (d.setWave w).cores = d.cores := rfl
@[simp] theorem Dev.setWave_units (d : Dev) (w : Wave) : (d.setWave w).units = d.units := rfl
@[simp] theorem Dev.setWave_cmds (d : Dev) (w : Wave) : (d.setWave w).cmds = d.cmds := rfl
@[simp] theorem Dev.setWave_locks (d : Dev) (w : Wave) : (d.setWave w).locks = d.locks := rfl
@[simp] theorem Dev.setWave_dir (d : Dev) (w : Wave) : (d.setWave w).dir = d.dir := rfl
@[simp] theorem Dev.setWave_l2 (d : Dev) (w : Wave) : (d.setWave w).l2 = d.l2 := rfl
@[simp] theorem Dev.setWave_inflight (d : Dev) (w : Wave) : (d.setWave w).inflight = d.inflight := rfl
@[simp] theorem Dev.setWave_txns (d : Dev) (w : Wave) : (d.setWave w).txns = d.txns := rfl
@[simp] theorem Dev.setWave_peers (d : Dev) (w : Wave) : (d.setWave w).peers = d.peers := rfl
@[simp] theorem Dev.setWave_keys (d : Dev) (w : Wave) : (d.setWave w).keys = d.keys := rfl
@[simp] theorem Dev.setWave_rights (d : Dev) (w : Wave) : (d.setWave w).rights = d.rights := rfl
@[simp] theorem Dev.setWave_owned (d : Dev) (w : Wave) : (d.setWave w).owned = d.owned := rfl
@[simp] theorem Dev.setWave_lost (d : Dev) (w : Wave) : (d.setWave w).lost = d.lost := rfl
@[simp] theorem Dev.setWave_tlbs (d : Dev) (w : Wave) : (d.setWave w).tlbs = d.tlbs := rfl
@[simp] theorem Dev.setWave_gaps (d : Dev) (w : Wave) : (d.setWave w).gaps = d.gaps := rfl
@[simp] theorem Dev.setWave_fetched (d : Dev) (w : Wave) : (d.setWave w).fetched = d.fetched := rfl
@[simp] theorem Dev.setWave_revoking (d : Dev) (w : Wave) : (d.setWave w).revoking = d.revoking := rfl
@[simp] theorem Dev.setWave_fills (d : Dev) (w : Wave) : (d.setWave w).fills = d.fills := rfl
@[simp] theorem Dev.setWave_returns (d : Dev) (w : Wave) : (d.setWave w).returns = d.returns := rfl
@[simp] theorem Dev.setWave_outbox (d : Dev) (w : Wave) : (d.setWave w).outbox = d.outbox := rfl
@[simp] theorem Dev.setWave_sourceGrants (d : Dev) (w : Wave) : (d.setWave w).sourceGrants = d.sourceGrants := rfl
@[simp] theorem Dev.setWave_collect (d : Dev) (w : Wave) : (d.setWave w).collect = d.collect := rfl
@[simp] theorem Dev.setWave_owed (d : Dev) (w : Wave) : (d.setWave w).owed = d.owed := rfl
@[simp] theorem Dev.setWave_walkerWaits (d : Dev) (w : Wave) : (d.setWave w).walkerWaits = d.walkerWaits := rfl
@[simp] theorem Dev.setWave_heldRequests (d : Dev) (w : Wave) : (d.setWave w).heldRequests = d.heldRequests := rfl
@[simp] theorem Dev.setWave_portUnits (d : Dev) (w : Wave) : (d.setWave w).portUnits = d.portUnits := rfl
@[simp] theorem Dev.setWave_tagFails (d : Dev) (w : Wave) : (d.setWave w).tagFails = d.tagFails := rfl
@[simp] theorem Dev.setWave_rotation (d : Dev) (w : Wave) : (d.setWave w).rotation = d.rotation := rfl
@[simp] theorem Dev.setWave_isobar (d : Dev) (w : Wave) : (d.setWave w).isobar = d.isobar := rfl
@[simp] theorem Dev.setWave_nextId (d : Dev) (w : Wave) : (d.setWave w).nextId = d.nextId := rfl
@[simp] theorem Dev.mapGroup_platform (d : Dev) (l i : Nat) (f : Group → Group) : (d.mapGroup l i f).platform = d.platform := rfl
@[simp] theorem Dev.mapGroup_timebase (d : Dev) (l i : Nat) (f : Group → Group) : (d.mapGroup l i f).timebase = d.timebase := rfl
@[simp] theorem Dev.mapGroup_clock (d : Dev) (l i : Nat) (f : Group → Group) : (d.mapGroup l i f).clock = d.clock := rfl
@[simp] theorem Dev.mapGroup_devId (d : Dev) (l i : Nat) (f : Group → Group) : (d.mapGroup l i f).devId = d.devId := rfl
@[simp] theorem Dev.mapGroup_shares (d : Dev) (l i : Nat) (f : Group → Group) : (d.mapGroup l i f).shares = d.shares := rfl
@[simp] theorem Dev.mapGroup_ctxs (d : Dev) (l i : Nat) (f : Group → Group) : (d.mapGroup l i f).ctxs = d.ctxs := rfl
@[simp] theorem Dev.mapGroup_command (d : Dev) (l i : Nat) (f : Group → Group) : (d.mapGroup l i f).command = d.command := rfl
@[simp] theorem Dev.mapGroup_revocation (d : Dev) (l i : Nat) (f : Group → Group) : (d.mapGroup l i f).revocation = d.revocation := rfl
@[simp] theorem Dev.mapGroup_errorCounts (d : Dev) (l i : Nat) (f : Group → Group) : (d.mapGroup l i f).errorCounts = d.errorCounts := rfl
@[simp] theorem Dev.mapGroup_failing (d : Dev) (l i : Nat) (f : Group → Group) : (d.mapGroup l i f).failing = d.failing := rfl
@[simp] theorem Dev.mapGroup_status (d : Dev) (l i : Nat) (f : Group → Group) : (d.mapGroup l i f).status = d.status := rfl
@[simp] theorem Dev.mapGroup_access (d : Dev) (l i : Nat) (f : Group → Group) : (d.mapGroup l i f).access = d.access := rfl
@[simp] theorem Dev.mapGroup_regions (d : Dev) (l i : Nat) (f : Group → Group) : (d.mapGroup l i f).regions = d.regions := rfl
@[simp] theorem Dev.mapGroup_hbm (d : Dev) (l i : Nat) (f : Group → Group) : (d.mapGroup l i f).hbm = d.hbm := rfl
@[simp] theorem Dev.mapGroup_lpddr (d : Dev) (l i : Nat) (f : Group → Group) : (d.mapGroup l i f).lpddr = d.lpddr := rfl
@[simp] theorem Dev.mapGroup_host (d : Dev) (l i : Nat) (f : Group → Group) : (d.mapGroup l i f).host = d.host := rfl
@[simp] theorem Dev.mapGroup_consts (d : Dev) (l i : Nat) (f : Group → Group) : (d.mapGroup l i f).consts = d.consts := rfl
@[simp] theorem Dev.mapGroup_saves (d : Dev) (l i : Nat) (f : Group → Group) : (d.mapGroup l i f).saves = d.saves := rfl
@[simp] theorem Dev.mapGroup_graphs (d : Dev) (l i : Nat) (f : Group → Group) : (d.mapGroup l i f).graphs = d.graphs := rfl
@[simp] theorem Dev.mapGroup_launches (d : Dev) (l i : Nat) (f : Group → Group) : (d.mapGroup l i f).launches = d.launches := rfl
@[simp] theorem Dev.mapGroup_clusters (d : Dev) (l i : Nat) (f : Group → Group) : (d.mapGroup l i f).clusters = d.clusters := rfl
@[simp] theorem Dev.mapGroup_waves (d : Dev) (l i : Nat) (f : Group → Group) : (d.mapGroup l i f).waves = d.waves := rfl
@[simp] theorem Dev.mapGroup_cores (d : Dev) (l i : Nat) (f : Group → Group) : (d.mapGroup l i f).cores = d.cores := rfl
@[simp] theorem Dev.mapGroup_units (d : Dev) (l i : Nat) (f : Group → Group) : (d.mapGroup l i f).units = d.units := rfl
@[simp] theorem Dev.mapGroup_cmds (d : Dev) (l i : Nat) (f : Group → Group) : (d.mapGroup l i f).cmds = d.cmds := rfl
@[simp] theorem Dev.mapGroup_locks (d : Dev) (l i : Nat) (f : Group → Group) : (d.mapGroup l i f).locks = d.locks := rfl
@[simp] theorem Dev.mapGroup_dir (d : Dev) (l i : Nat) (f : Group → Group) : (d.mapGroup l i f).dir = d.dir := rfl
@[simp] theorem Dev.mapGroup_l2 (d : Dev) (l i : Nat) (f : Group → Group) : (d.mapGroup l i f).l2 = d.l2 := rfl
@[simp] theorem Dev.mapGroup_inflight (d : Dev) (l i : Nat) (f : Group → Group) : (d.mapGroup l i f).inflight = d.inflight := rfl
@[simp] theorem Dev.mapGroup_txns (d : Dev) (l i : Nat) (f : Group → Group) : (d.mapGroup l i f).txns = d.txns := rfl
@[simp] theorem Dev.mapGroup_peers (d : Dev) (l i : Nat) (f : Group → Group) : (d.mapGroup l i f).peers = d.peers := rfl
@[simp] theorem Dev.mapGroup_keys (d : Dev) (l i : Nat) (f : Group → Group) : (d.mapGroup l i f).keys = d.keys := rfl
@[simp] theorem Dev.mapGroup_rights (d : Dev) (l i : Nat) (f : Group → Group) : (d.mapGroup l i f).rights = d.rights := rfl
@[simp] theorem Dev.mapGroup_owned (d : Dev) (l i : Nat) (f : Group → Group) : (d.mapGroup l i f).owned = d.owned := rfl
@[simp] theorem Dev.mapGroup_lost (d : Dev) (l i : Nat) (f : Group → Group) : (d.mapGroup l i f).lost = d.lost := rfl
@[simp] theorem Dev.mapGroup_tlbs (d : Dev) (l i : Nat) (f : Group → Group) : (d.mapGroup l i f).tlbs = d.tlbs := rfl
@[simp] theorem Dev.mapGroup_gaps (d : Dev) (l i : Nat) (f : Group → Group) : (d.mapGroup l i f).gaps = d.gaps := rfl
@[simp] theorem Dev.mapGroup_fetched (d : Dev) (l i : Nat) (f : Group → Group) : (d.mapGroup l i f).fetched = d.fetched := rfl
@[simp] theorem Dev.mapGroup_revoking (d : Dev) (l i : Nat) (f : Group → Group) : (d.mapGroup l i f).revoking = d.revoking := rfl
@[simp] theorem Dev.mapGroup_fills (d : Dev) (l i : Nat) (f : Group → Group) : (d.mapGroup l i f).fills = d.fills := rfl
@[simp] theorem Dev.mapGroup_returns (d : Dev) (l i : Nat) (f : Group → Group) : (d.mapGroup l i f).returns = d.returns := rfl
@[simp] theorem Dev.mapGroup_outbox (d : Dev) (l i : Nat) (f : Group → Group) : (d.mapGroup l i f).outbox = d.outbox := rfl
@[simp] theorem Dev.mapGroup_sourceGrants (d : Dev) (l i : Nat) (f : Group → Group) : (d.mapGroup l i f).sourceGrants = d.sourceGrants := rfl
@[simp] theorem Dev.mapGroup_collect (d : Dev) (l i : Nat) (f : Group → Group) : (d.mapGroup l i f).collect = d.collect := rfl
@[simp] theorem Dev.mapGroup_owed (d : Dev) (l i : Nat) (f : Group → Group) : (d.mapGroup l i f).owed = d.owed := rfl
@[simp] theorem Dev.mapGroup_walkerWaits (d : Dev) (l i : Nat) (f : Group → Group) : (d.mapGroup l i f).walkerWaits = d.walkerWaits := rfl
@[simp] theorem Dev.mapGroup_heldRequests (d : Dev) (l i : Nat) (f : Group → Group) : (d.mapGroup l i f).heldRequests = d.heldRequests := rfl
@[simp] theorem Dev.mapGroup_portUnits (d : Dev) (l i : Nat) (f : Group → Group) : (d.mapGroup l i f).portUnits = d.portUnits := rfl
@[simp] theorem Dev.mapGroup_tagFails (d : Dev) (l i : Nat) (f : Group → Group) : (d.mapGroup l i f).tagFails = d.tagFails := rfl
@[simp] theorem Dev.mapGroup_rotation (d : Dev) (l i : Nat) (f : Group → Group) : (d.mapGroup l i f).rotation = d.rotation := rfl
@[simp] theorem Dev.mapGroup_isobar (d : Dev) (l i : Nat) (f : Group → Group) : (d.mapGroup l i f).isobar = d.isobar := rfl
@[simp] theorem Dev.mapGroup_nextId (d : Dev) (l i : Nat) (f : Group → Group) : (d.mapGroup l i f).nextId = d.nextId := rfl
@[simp] theorem Dev.mapLaunch_platform (d : Dev) (i : Nat) (f : Launch → Launch) : (d.mapLaunch i f).platform = d.platform := rfl
@[simp] theorem Dev.mapLaunch_timebase (d : Dev) (i : Nat) (f : Launch → Launch) : (d.mapLaunch i f).timebase = d.timebase := rfl
@[simp] theorem Dev.mapLaunch_clock (d : Dev) (i : Nat) (f : Launch → Launch) : (d.mapLaunch i f).clock = d.clock := rfl
@[simp] theorem Dev.mapLaunch_devId (d : Dev) (i : Nat) (f : Launch → Launch) : (d.mapLaunch i f).devId = d.devId := rfl
@[simp] theorem Dev.mapLaunch_shares (d : Dev) (i : Nat) (f : Launch → Launch) : (d.mapLaunch i f).shares = d.shares := rfl
@[simp] theorem Dev.mapLaunch_ctxs (d : Dev) (i : Nat) (f : Launch → Launch) : (d.mapLaunch i f).ctxs = d.ctxs := rfl
@[simp] theorem Dev.mapLaunch_command (d : Dev) (i : Nat) (f : Launch → Launch) : (d.mapLaunch i f).command = d.command := rfl
@[simp] theorem Dev.mapLaunch_revocation (d : Dev) (i : Nat) (f : Launch → Launch) : (d.mapLaunch i f).revocation = d.revocation := rfl
@[simp] theorem Dev.mapLaunch_errorCounts (d : Dev) (i : Nat) (f : Launch → Launch) : (d.mapLaunch i f).errorCounts = d.errorCounts := rfl
@[simp] theorem Dev.mapLaunch_failing (d : Dev) (i : Nat) (f : Launch → Launch) : (d.mapLaunch i f).failing = d.failing := rfl
@[simp] theorem Dev.mapLaunch_status (d : Dev) (i : Nat) (f : Launch → Launch) : (d.mapLaunch i f).status = d.status := rfl
@[simp] theorem Dev.mapLaunch_access (d : Dev) (i : Nat) (f : Launch → Launch) : (d.mapLaunch i f).access = d.access := rfl
@[simp] theorem Dev.mapLaunch_regions (d : Dev) (i : Nat) (f : Launch → Launch) : (d.mapLaunch i f).regions = d.regions := rfl
@[simp] theorem Dev.mapLaunch_hbm (d : Dev) (i : Nat) (f : Launch → Launch) : (d.mapLaunch i f).hbm = d.hbm := rfl
@[simp] theorem Dev.mapLaunch_lpddr (d : Dev) (i : Nat) (f : Launch → Launch) : (d.mapLaunch i f).lpddr = d.lpddr := rfl
@[simp] theorem Dev.mapLaunch_host (d : Dev) (i : Nat) (f : Launch → Launch) : (d.mapLaunch i f).host = d.host := rfl
@[simp] theorem Dev.mapLaunch_consts (d : Dev) (i : Nat) (f : Launch → Launch) : (d.mapLaunch i f).consts = d.consts := rfl
@[simp] theorem Dev.mapLaunch_parts (d : Dev) (i : Nat) (f : Launch → Launch) : (d.mapLaunch i f).parts = d.parts := rfl
@[simp] theorem Dev.mapLaunch_saves (d : Dev) (i : Nat) (f : Launch → Launch) : (d.mapLaunch i f).saves = d.saves := rfl
@[simp] theorem Dev.mapLaunch_graphs (d : Dev) (i : Nat) (f : Launch → Launch) : (d.mapLaunch i f).graphs = d.graphs := rfl
@[simp] theorem Dev.mapLaunch_clusters (d : Dev) (i : Nat) (f : Launch → Launch) : (d.mapLaunch i f).clusters = d.clusters := rfl
@[simp] theorem Dev.mapLaunch_groups (d : Dev) (i : Nat) (f : Launch → Launch) : (d.mapLaunch i f).groups = d.groups := rfl
@[simp] theorem Dev.mapLaunch_waves (d : Dev) (i : Nat) (f : Launch → Launch) : (d.mapLaunch i f).waves = d.waves := rfl
@[simp] theorem Dev.mapLaunch_cores (d : Dev) (i : Nat) (f : Launch → Launch) : (d.mapLaunch i f).cores = d.cores := rfl
@[simp] theorem Dev.mapLaunch_units (d : Dev) (i : Nat) (f : Launch → Launch) : (d.mapLaunch i f).units = d.units := rfl
@[simp] theorem Dev.mapLaunch_cmds (d : Dev) (i : Nat) (f : Launch → Launch) : (d.mapLaunch i f).cmds = d.cmds := rfl
@[simp] theorem Dev.mapLaunch_locks (d : Dev) (i : Nat) (f : Launch → Launch) : (d.mapLaunch i f).locks = d.locks := rfl
@[simp] theorem Dev.mapLaunch_dir (d : Dev) (i : Nat) (f : Launch → Launch) : (d.mapLaunch i f).dir = d.dir := rfl
@[simp] theorem Dev.mapLaunch_l2 (d : Dev) (i : Nat) (f : Launch → Launch) : (d.mapLaunch i f).l2 = d.l2 := rfl
@[simp] theorem Dev.mapLaunch_inflight (d : Dev) (i : Nat) (f : Launch → Launch) : (d.mapLaunch i f).inflight = d.inflight := rfl
@[simp] theorem Dev.mapLaunch_txns (d : Dev) (i : Nat) (f : Launch → Launch) : (d.mapLaunch i f).txns = d.txns := rfl
@[simp] theorem Dev.mapLaunch_peers (d : Dev) (i : Nat) (f : Launch → Launch) : (d.mapLaunch i f).peers = d.peers := rfl
@[simp] theorem Dev.mapLaunch_keys (d : Dev) (i : Nat) (f : Launch → Launch) : (d.mapLaunch i f).keys = d.keys := rfl
@[simp] theorem Dev.mapLaunch_rights (d : Dev) (i : Nat) (f : Launch → Launch) : (d.mapLaunch i f).rights = d.rights := rfl
@[simp] theorem Dev.mapLaunch_owned (d : Dev) (i : Nat) (f : Launch → Launch) : (d.mapLaunch i f).owned = d.owned := rfl
@[simp] theorem Dev.mapLaunch_lost (d : Dev) (i : Nat) (f : Launch → Launch) : (d.mapLaunch i f).lost = d.lost := rfl
@[simp] theorem Dev.mapLaunch_tlbs (d : Dev) (i : Nat) (f : Launch → Launch) : (d.mapLaunch i f).tlbs = d.tlbs := rfl
@[simp] theorem Dev.mapLaunch_gaps (d : Dev) (i : Nat) (f : Launch → Launch) : (d.mapLaunch i f).gaps = d.gaps := rfl
@[simp] theorem Dev.mapLaunch_fetched (d : Dev) (i : Nat) (f : Launch → Launch) : (d.mapLaunch i f).fetched = d.fetched := rfl
@[simp] theorem Dev.mapLaunch_revoking (d : Dev) (i : Nat) (f : Launch → Launch) : (d.mapLaunch i f).revoking = d.revoking := rfl
@[simp] theorem Dev.mapLaunch_fills (d : Dev) (i : Nat) (f : Launch → Launch) : (d.mapLaunch i f).fills = d.fills := rfl
@[simp] theorem Dev.mapLaunch_returns (d : Dev) (i : Nat) (f : Launch → Launch) : (d.mapLaunch i f).returns = d.returns := rfl
@[simp] theorem Dev.mapLaunch_outbox (d : Dev) (i : Nat) (f : Launch → Launch) : (d.mapLaunch i f).outbox = d.outbox := rfl
@[simp] theorem Dev.mapLaunch_sourceGrants (d : Dev) (i : Nat) (f : Launch → Launch) : (d.mapLaunch i f).sourceGrants = d.sourceGrants := rfl
@[simp] theorem Dev.mapLaunch_collect (d : Dev) (i : Nat) (f : Launch → Launch) : (d.mapLaunch i f).collect = d.collect := rfl
@[simp] theorem Dev.mapLaunch_owed (d : Dev) (i : Nat) (f : Launch → Launch) : (d.mapLaunch i f).owed = d.owed := rfl
@[simp] theorem Dev.mapLaunch_walkerWaits (d : Dev) (i : Nat) (f : Launch → Launch) : (d.mapLaunch i f).walkerWaits = d.walkerWaits := rfl
@[simp] theorem Dev.mapLaunch_heldRequests (d : Dev) (i : Nat) (f : Launch → Launch) : (d.mapLaunch i f).heldRequests = d.heldRequests := rfl
@[simp] theorem Dev.mapLaunch_portUnits (d : Dev) (i : Nat) (f : Launch → Launch) : (d.mapLaunch i f).portUnits = d.portUnits := rfl
@[simp] theorem Dev.mapLaunch_tagFails (d : Dev) (i : Nat) (f : Launch → Launch) : (d.mapLaunch i f).tagFails = d.tagFails := rfl
@[simp] theorem Dev.mapLaunch_rotation (d : Dev) (i : Nat) (f : Launch → Launch) : (d.mapLaunch i f).rotation = d.rotation := rfl
@[simp] theorem Dev.mapLaunch_isobar (d : Dev) (i : Nat) (f : Launch → Launch) : (d.mapLaunch i f).isobar = d.isobar := rfl
@[simp] theorem Dev.mapLaunch_nextId (d : Dev) (i : Nat) (f : Launch → Launch) : (d.mapLaunch i f).nextId = d.nextId := rfl
@[simp] theorem Dev.mapCtx_platform (d : Dev) (i : Nat) (f : Context → Context) : (d.mapCtx i f).platform = d.platform := rfl
@[simp] theorem Dev.mapCtx_timebase (d : Dev) (i : Nat) (f : Context → Context) : (d.mapCtx i f).timebase = d.timebase := rfl
@[simp] theorem Dev.mapCtx_clock (d : Dev) (i : Nat) (f : Context → Context) : (d.mapCtx i f).clock = d.clock := rfl
@[simp] theorem Dev.mapCtx_devId (d : Dev) (i : Nat) (f : Context → Context) : (d.mapCtx i f).devId = d.devId := rfl
@[simp] theorem Dev.mapCtx_shares (d : Dev) (i : Nat) (f : Context → Context) : (d.mapCtx i f).shares = d.shares := rfl
@[simp] theorem Dev.mapCtx_command (d : Dev) (i : Nat) (f : Context → Context) : (d.mapCtx i f).command = d.command := rfl
@[simp] theorem Dev.mapCtx_revocation (d : Dev) (i : Nat) (f : Context → Context) : (d.mapCtx i f).revocation = d.revocation := rfl
@[simp] theorem Dev.mapCtx_errorCounts (d : Dev) (i : Nat) (f : Context → Context) : (d.mapCtx i f).errorCounts = d.errorCounts := rfl
@[simp] theorem Dev.mapCtx_failing (d : Dev) (i : Nat) (f : Context → Context) : (d.mapCtx i f).failing = d.failing := rfl
@[simp] theorem Dev.mapCtx_status (d : Dev) (i : Nat) (f : Context → Context) : (d.mapCtx i f).status = d.status := rfl
@[simp] theorem Dev.mapCtx_access (d : Dev) (i : Nat) (f : Context → Context) : (d.mapCtx i f).access = d.access := rfl
@[simp] theorem Dev.mapCtx_regions (d : Dev) (i : Nat) (f : Context → Context) : (d.mapCtx i f).regions = d.regions := rfl
@[simp] theorem Dev.mapCtx_hbm (d : Dev) (i : Nat) (f : Context → Context) : (d.mapCtx i f).hbm = d.hbm := rfl
@[simp] theorem Dev.mapCtx_lpddr (d : Dev) (i : Nat) (f : Context → Context) : (d.mapCtx i f).lpddr = d.lpddr := rfl
@[simp] theorem Dev.mapCtx_host (d : Dev) (i : Nat) (f : Context → Context) : (d.mapCtx i f).host = d.host := rfl
@[simp] theorem Dev.mapCtx_consts (d : Dev) (i : Nat) (f : Context → Context) : (d.mapCtx i f).consts = d.consts := rfl
@[simp] theorem Dev.mapCtx_parts (d : Dev) (i : Nat) (f : Context → Context) : (d.mapCtx i f).parts = d.parts := rfl
@[simp] theorem Dev.mapCtx_saves (d : Dev) (i : Nat) (f : Context → Context) : (d.mapCtx i f).saves = d.saves := rfl
@[simp] theorem Dev.mapCtx_graphs (d : Dev) (i : Nat) (f : Context → Context) : (d.mapCtx i f).graphs = d.graphs := rfl
@[simp] theorem Dev.mapCtx_launches (d : Dev) (i : Nat) (f : Context → Context) : (d.mapCtx i f).launches = d.launches := rfl
@[simp] theorem Dev.mapCtx_clusters (d : Dev) (i : Nat) (f : Context → Context) : (d.mapCtx i f).clusters = d.clusters := rfl
@[simp] theorem Dev.mapCtx_groups (d : Dev) (i : Nat) (f : Context → Context) : (d.mapCtx i f).groups = d.groups := rfl
@[simp] theorem Dev.mapCtx_waves (d : Dev) (i : Nat) (f : Context → Context) : (d.mapCtx i f).waves = d.waves := rfl
@[simp] theorem Dev.mapCtx_cores (d : Dev) (i : Nat) (f : Context → Context) : (d.mapCtx i f).cores = d.cores := rfl
@[simp] theorem Dev.mapCtx_units (d : Dev) (i : Nat) (f : Context → Context) : (d.mapCtx i f).units = d.units := rfl
@[simp] theorem Dev.mapCtx_cmds (d : Dev) (i : Nat) (f : Context → Context) : (d.mapCtx i f).cmds = d.cmds := rfl
@[simp] theorem Dev.mapCtx_locks (d : Dev) (i : Nat) (f : Context → Context) : (d.mapCtx i f).locks = d.locks := rfl
@[simp] theorem Dev.mapCtx_dir (d : Dev) (i : Nat) (f : Context → Context) : (d.mapCtx i f).dir = d.dir := rfl
@[simp] theorem Dev.mapCtx_l2 (d : Dev) (i : Nat) (f : Context → Context) : (d.mapCtx i f).l2 = d.l2 := rfl
@[simp] theorem Dev.mapCtx_inflight (d : Dev) (i : Nat) (f : Context → Context) : (d.mapCtx i f).inflight = d.inflight := rfl
@[simp] theorem Dev.mapCtx_txns (d : Dev) (i : Nat) (f : Context → Context) : (d.mapCtx i f).txns = d.txns := rfl
@[simp] theorem Dev.mapCtx_peers (d : Dev) (i : Nat) (f : Context → Context) : (d.mapCtx i f).peers = d.peers := rfl
@[simp] theorem Dev.mapCtx_keys (d : Dev) (i : Nat) (f : Context → Context) : (d.mapCtx i f).keys = d.keys := rfl
@[simp] theorem Dev.mapCtx_rights (d : Dev) (i : Nat) (f : Context → Context) : (d.mapCtx i f).rights = d.rights := rfl
@[simp] theorem Dev.mapCtx_owned (d : Dev) (i : Nat) (f : Context → Context) : (d.mapCtx i f).owned = d.owned := rfl
@[simp] theorem Dev.mapCtx_lost (d : Dev) (i : Nat) (f : Context → Context) : (d.mapCtx i f).lost = d.lost := rfl
@[simp] theorem Dev.mapCtx_tlbs (d : Dev) (i : Nat) (f : Context → Context) : (d.mapCtx i f).tlbs = d.tlbs := rfl
@[simp] theorem Dev.mapCtx_gaps (d : Dev) (i : Nat) (f : Context → Context) : (d.mapCtx i f).gaps = d.gaps := rfl
@[simp] theorem Dev.mapCtx_fetched (d : Dev) (i : Nat) (f : Context → Context) : (d.mapCtx i f).fetched = d.fetched := rfl
@[simp] theorem Dev.mapCtx_revoking (d : Dev) (i : Nat) (f : Context → Context) : (d.mapCtx i f).revoking = d.revoking := rfl
@[simp] theorem Dev.mapCtx_fills (d : Dev) (i : Nat) (f : Context → Context) : (d.mapCtx i f).fills = d.fills := rfl
@[simp] theorem Dev.mapCtx_returns (d : Dev) (i : Nat) (f : Context → Context) : (d.mapCtx i f).returns = d.returns := rfl
@[simp] theorem Dev.mapCtx_outbox (d : Dev) (i : Nat) (f : Context → Context) : (d.mapCtx i f).outbox = d.outbox := rfl
@[simp] theorem Dev.mapCtx_sourceGrants (d : Dev) (i : Nat) (f : Context → Context) : (d.mapCtx i f).sourceGrants = d.sourceGrants := rfl
@[simp] theorem Dev.mapCtx_collect (d : Dev) (i : Nat) (f : Context → Context) : (d.mapCtx i f).collect = d.collect := rfl
@[simp] theorem Dev.mapCtx_owed (d : Dev) (i : Nat) (f : Context → Context) : (d.mapCtx i f).owed = d.owed := rfl
@[simp] theorem Dev.mapCtx_walkerWaits (d : Dev) (i : Nat) (f : Context → Context) : (d.mapCtx i f).walkerWaits = d.walkerWaits := rfl
@[simp] theorem Dev.mapCtx_heldRequests (d : Dev) (i : Nat) (f : Context → Context) : (d.mapCtx i f).heldRequests = d.heldRequests := rfl
@[simp] theorem Dev.mapCtx_portUnits (d : Dev) (i : Nat) (f : Context → Context) : (d.mapCtx i f).portUnits = d.portUnits := rfl
@[simp] theorem Dev.mapCtx_tagFails (d : Dev) (i : Nat) (f : Context → Context) : (d.mapCtx i f).tagFails = d.tagFails := rfl
@[simp] theorem Dev.mapCtx_rotation (d : Dev) (i : Nat) (f : Context → Context) : (d.mapCtx i f).rotation = d.rotation := rfl
@[simp] theorem Dev.mapCtx_isobar (d : Dev) (i : Nat) (f : Context → Context) : (d.mapCtx i f).isobar = d.isobar := rfl
@[simp] theorem Dev.mapCtx_nextId (d : Dev) (i : Nat) (f : Context → Context) : (d.mapCtx i f).nextId = d.nextId := rfl
@[simp] theorem Dev.setStatus_platform (d : Dev) (p : Nat) (b : StatusBlock) : (d.setStatus p b).platform = d.platform := rfl
@[simp] theorem Dev.setStatus_timebase (d : Dev) (p : Nat) (b : StatusBlock) : (d.setStatus p b).timebase = d.timebase := rfl
@[simp] theorem Dev.setStatus_clock (d : Dev) (p : Nat) (b : StatusBlock) : (d.setStatus p b).clock = d.clock := rfl
@[simp] theorem Dev.setStatus_devId (d : Dev) (p : Nat) (b : StatusBlock) : (d.setStatus p b).devId = d.devId := rfl
@[simp] theorem Dev.setStatus_shares (d : Dev) (p : Nat) (b : StatusBlock) : (d.setStatus p b).shares = d.shares := rfl
@[simp] theorem Dev.setStatus_ctxs (d : Dev) (p : Nat) (b : StatusBlock) : (d.setStatus p b).ctxs = d.ctxs := rfl
@[simp] theorem Dev.setStatus_command (d : Dev) (p : Nat) (b : StatusBlock) : (d.setStatus p b).command = d.command := rfl
@[simp] theorem Dev.setStatus_revocation (d : Dev) (p : Nat) (b : StatusBlock) : (d.setStatus p b).revocation = d.revocation := rfl
@[simp] theorem Dev.setStatus_errorCounts (d : Dev) (p : Nat) (b : StatusBlock) : (d.setStatus p b).errorCounts = d.errorCounts := rfl
@[simp] theorem Dev.setStatus_failing (d : Dev) (p : Nat) (b : StatusBlock) : (d.setStatus p b).failing = d.failing := rfl
@[simp] theorem Dev.setStatus_access (d : Dev) (p : Nat) (b : StatusBlock) : (d.setStatus p b).access = d.access := rfl
@[simp] theorem Dev.setStatus_regions (d : Dev) (p : Nat) (b : StatusBlock) : (d.setStatus p b).regions = d.regions := rfl
@[simp] theorem Dev.setStatus_hbm (d : Dev) (p : Nat) (b : StatusBlock) : (d.setStatus p b).hbm = d.hbm := rfl
@[simp] theorem Dev.setStatus_lpddr (d : Dev) (p : Nat) (b : StatusBlock) : (d.setStatus p b).lpddr = d.lpddr := rfl
@[simp] theorem Dev.setStatus_host (d : Dev) (p : Nat) (b : StatusBlock) : (d.setStatus p b).host = d.host := rfl
@[simp] theorem Dev.setStatus_consts (d : Dev) (p : Nat) (b : StatusBlock) : (d.setStatus p b).consts = d.consts := rfl
@[simp] theorem Dev.setStatus_parts (d : Dev) (p : Nat) (b : StatusBlock) : (d.setStatus p b).parts = d.parts := rfl
@[simp] theorem Dev.setStatus_saves (d : Dev) (p : Nat) (b : StatusBlock) : (d.setStatus p b).saves = d.saves := rfl
@[simp] theorem Dev.setStatus_graphs (d : Dev) (p : Nat) (b : StatusBlock) : (d.setStatus p b).graphs = d.graphs := rfl
@[simp] theorem Dev.setStatus_launches (d : Dev) (p : Nat) (b : StatusBlock) : (d.setStatus p b).launches = d.launches := rfl
@[simp] theorem Dev.setStatus_clusters (d : Dev) (p : Nat) (b : StatusBlock) : (d.setStatus p b).clusters = d.clusters := rfl
@[simp] theorem Dev.setStatus_groups (d : Dev) (p : Nat) (b : StatusBlock) : (d.setStatus p b).groups = d.groups := rfl
@[simp] theorem Dev.setStatus_waves (d : Dev) (p : Nat) (b : StatusBlock) : (d.setStatus p b).waves = d.waves := rfl
@[simp] theorem Dev.setStatus_cores (d : Dev) (p : Nat) (b : StatusBlock) : (d.setStatus p b).cores = d.cores := rfl
@[simp] theorem Dev.setStatus_units (d : Dev) (p : Nat) (b : StatusBlock) : (d.setStatus p b).units = d.units := rfl
@[simp] theorem Dev.setStatus_cmds (d : Dev) (p : Nat) (b : StatusBlock) : (d.setStatus p b).cmds = d.cmds := rfl
@[simp] theorem Dev.setStatus_locks (d : Dev) (p : Nat) (b : StatusBlock) : (d.setStatus p b).locks = d.locks := rfl
@[simp] theorem Dev.setStatus_dir (d : Dev) (p : Nat) (b : StatusBlock) : (d.setStatus p b).dir = d.dir := rfl
@[simp] theorem Dev.setStatus_l2 (d : Dev) (p : Nat) (b : StatusBlock) : (d.setStatus p b).l2 = d.l2 := rfl
@[simp] theorem Dev.setStatus_inflight (d : Dev) (p : Nat) (b : StatusBlock) : (d.setStatus p b).inflight = d.inflight := rfl
@[simp] theorem Dev.setStatus_txns (d : Dev) (p : Nat) (b : StatusBlock) : (d.setStatus p b).txns = d.txns := rfl
@[simp] theorem Dev.setStatus_peers (d : Dev) (p : Nat) (b : StatusBlock) : (d.setStatus p b).peers = d.peers := rfl
@[simp] theorem Dev.setStatus_keys (d : Dev) (p : Nat) (b : StatusBlock) : (d.setStatus p b).keys = d.keys := rfl
@[simp] theorem Dev.setStatus_rights (d : Dev) (p : Nat) (b : StatusBlock) : (d.setStatus p b).rights = d.rights := rfl
@[simp] theorem Dev.setStatus_owned (d : Dev) (p : Nat) (b : StatusBlock) : (d.setStatus p b).owned = d.owned := rfl
@[simp] theorem Dev.setStatus_lost (d : Dev) (p : Nat) (b : StatusBlock) : (d.setStatus p b).lost = d.lost := rfl
@[simp] theorem Dev.setStatus_tlbs (d : Dev) (p : Nat) (b : StatusBlock) : (d.setStatus p b).tlbs = d.tlbs := rfl
@[simp] theorem Dev.setStatus_gaps (d : Dev) (p : Nat) (b : StatusBlock) : (d.setStatus p b).gaps = d.gaps := rfl
@[simp] theorem Dev.setStatus_fetched (d : Dev) (p : Nat) (b : StatusBlock) : (d.setStatus p b).fetched = d.fetched := rfl
@[simp] theorem Dev.setStatus_revoking (d : Dev) (p : Nat) (b : StatusBlock) : (d.setStatus p b).revoking = d.revoking := rfl
@[simp] theorem Dev.setStatus_fills (d : Dev) (p : Nat) (b : StatusBlock) : (d.setStatus p b).fills = d.fills := rfl
@[simp] theorem Dev.setStatus_returns (d : Dev) (p : Nat) (b : StatusBlock) : (d.setStatus p b).returns = d.returns := rfl
@[simp] theorem Dev.setStatus_outbox (d : Dev) (p : Nat) (b : StatusBlock) : (d.setStatus p b).outbox = d.outbox := rfl
@[simp] theorem Dev.setStatus_sourceGrants (d : Dev) (p : Nat) (b : StatusBlock) : (d.setStatus p b).sourceGrants = d.sourceGrants := rfl
@[simp] theorem Dev.setStatus_collect (d : Dev) (p : Nat) (b : StatusBlock) : (d.setStatus p b).collect = d.collect := rfl
@[simp] theorem Dev.setStatus_owed (d : Dev) (p : Nat) (b : StatusBlock) : (d.setStatus p b).owed = d.owed := rfl
@[simp] theorem Dev.setStatus_walkerWaits (d : Dev) (p : Nat) (b : StatusBlock) : (d.setStatus p b).walkerWaits = d.walkerWaits := rfl
@[simp] theorem Dev.setStatus_heldRequests (d : Dev) (p : Nat) (b : StatusBlock) : (d.setStatus p b).heldRequests = d.heldRequests := rfl
@[simp] theorem Dev.setStatus_portUnits (d : Dev) (p : Nat) (b : StatusBlock) : (d.setStatus p b).portUnits = d.portUnits := rfl
@[simp] theorem Dev.setStatus_tagFails (d : Dev) (p : Nat) (b : StatusBlock) : (d.setStatus p b).tagFails = d.tagFails := rfl
@[simp] theorem Dev.setStatus_rotation (d : Dev) (p : Nat) (b : StatusBlock) : (d.setStatus p b).rotation = d.rotation := rfl
@[simp] theorem Dev.setStatus_isobar (d : Dev) (p : Nat) (b : StatusBlock) : (d.setStatus p b).isobar = d.isobar := rfl
@[simp] theorem Dev.setStatus_nextId (d : Dev) (p : Nat) (b : StatusBlock) : (d.setStatus p b).nextId = d.nextId := rfl
@[simp] theorem Dev.mapAccess_platform (d : Dev) (op : Nat) (f : Access → Access) : (d.mapAccess op f).platform = d.platform := rfl
@[simp] theorem Dev.mapAccess_timebase (d : Dev) (op : Nat) (f : Access → Access) : (d.mapAccess op f).timebase = d.timebase := rfl
@[simp] theorem Dev.mapAccess_clock (d : Dev) (op : Nat) (f : Access → Access) : (d.mapAccess op f).clock = d.clock := rfl
@[simp] theorem Dev.mapAccess_devId (d : Dev) (op : Nat) (f : Access → Access) : (d.mapAccess op f).devId = d.devId := rfl
@[simp] theorem Dev.mapAccess_shares (d : Dev) (op : Nat) (f : Access → Access) : (d.mapAccess op f).shares = d.shares := rfl
@[simp] theorem Dev.mapAccess_ctxs (d : Dev) (op : Nat) (f : Access → Access) : (d.mapAccess op f).ctxs = d.ctxs := rfl
@[simp] theorem Dev.mapAccess_command (d : Dev) (op : Nat) (f : Access → Access) : (d.mapAccess op f).command = d.command := rfl
@[simp] theorem Dev.mapAccess_revocation (d : Dev) (op : Nat) (f : Access → Access) : (d.mapAccess op f).revocation = d.revocation := rfl
@[simp] theorem Dev.mapAccess_errorCounts (d : Dev) (op : Nat) (f : Access → Access) : (d.mapAccess op f).errorCounts = d.errorCounts := rfl
@[simp] theorem Dev.mapAccess_failing (d : Dev) (op : Nat) (f : Access → Access) : (d.mapAccess op f).failing = d.failing := rfl
@[simp] theorem Dev.mapAccess_status (d : Dev) (op : Nat) (f : Access → Access) : (d.mapAccess op f).status = d.status := rfl
@[simp] theorem Dev.mapAccess_access (d : Dev) (op : Nat) (f : Access → Access) : (d.mapAccess op f).access = d.access := rfl
@[simp] theorem Dev.mapAccess_regions (d : Dev) (op : Nat) (f : Access → Access) : (d.mapAccess op f).regions = d.regions := rfl
@[simp] theorem Dev.mapAccess_hbm (d : Dev) (op : Nat) (f : Access → Access) : (d.mapAccess op f).hbm = d.hbm := rfl
@[simp] theorem Dev.mapAccess_lpddr (d : Dev) (op : Nat) (f : Access → Access) : (d.mapAccess op f).lpddr = d.lpddr := rfl
@[simp] theorem Dev.mapAccess_host (d : Dev) (op : Nat) (f : Access → Access) : (d.mapAccess op f).host = d.host := rfl
@[simp] theorem Dev.mapAccess_consts (d : Dev) (op : Nat) (f : Access → Access) : (d.mapAccess op f).consts = d.consts := rfl
@[simp] theorem Dev.mapAccess_parts (d : Dev) (op : Nat) (f : Access → Access) : (d.mapAccess op f).parts = d.parts := rfl
@[simp] theorem Dev.mapAccess_saves (d : Dev) (op : Nat) (f : Access → Access) : (d.mapAccess op f).saves = d.saves := rfl
@[simp] theorem Dev.mapAccess_graphs (d : Dev) (op : Nat) (f : Access → Access) : (d.mapAccess op f).graphs = d.graphs := rfl
@[simp] theorem Dev.mapAccess_launches (d : Dev) (op : Nat) (f : Access → Access) : (d.mapAccess op f).launches = d.launches := rfl
@[simp] theorem Dev.mapAccess_clusters (d : Dev) (op : Nat) (f : Access → Access) : (d.mapAccess op f).clusters = d.clusters := rfl
@[simp] theorem Dev.mapAccess_groups (d : Dev) (op : Nat) (f : Access → Access) : (d.mapAccess op f).groups = d.groups := rfl
@[simp] theorem Dev.mapAccess_waves (d : Dev) (op : Nat) (f : Access → Access) : (d.mapAccess op f).waves = d.waves := rfl
@[simp] theorem Dev.mapAccess_cores (d : Dev) (op : Nat) (f : Access → Access) : (d.mapAccess op f).cores = d.cores := rfl
@[simp] theorem Dev.mapAccess_units (d : Dev) (op : Nat) (f : Access → Access) : (d.mapAccess op f).units = d.units := rfl
@[simp] theorem Dev.mapAccess_cmds (d : Dev) (op : Nat) (f : Access → Access) : (d.mapAccess op f).cmds = d.cmds := rfl
@[simp] theorem Dev.mapAccess_locks (d : Dev) (op : Nat) (f : Access → Access) : (d.mapAccess op f).locks = d.locks := rfl
@[simp] theorem Dev.mapAccess_dir (d : Dev) (op : Nat) (f : Access → Access) : (d.mapAccess op f).dir = d.dir := rfl
@[simp] theorem Dev.mapAccess_l2 (d : Dev) (op : Nat) (f : Access → Access) : (d.mapAccess op f).l2 = d.l2 := rfl
@[simp] theorem Dev.mapAccess_txns (d : Dev) (op : Nat) (f : Access → Access) : (d.mapAccess op f).txns = d.txns := rfl
@[simp] theorem Dev.mapAccess_peers (d : Dev) (op : Nat) (f : Access → Access) : (d.mapAccess op f).peers = d.peers := rfl
@[simp] theorem Dev.mapAccess_keys (d : Dev) (op : Nat) (f : Access → Access) : (d.mapAccess op f).keys = d.keys := rfl
@[simp] theorem Dev.mapAccess_rights (d : Dev) (op : Nat) (f : Access → Access) : (d.mapAccess op f).rights = d.rights := rfl
@[simp] theorem Dev.mapAccess_owned (d : Dev) (op : Nat) (f : Access → Access) : (d.mapAccess op f).owned = d.owned := rfl
@[simp] theorem Dev.mapAccess_lost (d : Dev) (op : Nat) (f : Access → Access) : (d.mapAccess op f).lost = d.lost := rfl
@[simp] theorem Dev.mapAccess_tlbs (d : Dev) (op : Nat) (f : Access → Access) : (d.mapAccess op f).tlbs = d.tlbs := rfl
@[simp] theorem Dev.mapAccess_gaps (d : Dev) (op : Nat) (f : Access → Access) : (d.mapAccess op f).gaps = d.gaps := rfl
@[simp] theorem Dev.mapAccess_fetched (d : Dev) (op : Nat) (f : Access → Access) : (d.mapAccess op f).fetched = d.fetched := rfl
@[simp] theorem Dev.mapAccess_revoking (d : Dev) (op : Nat) (f : Access → Access) : (d.mapAccess op f).revoking = d.revoking := rfl
@[simp] theorem Dev.mapAccess_fills (d : Dev) (op : Nat) (f : Access → Access) : (d.mapAccess op f).fills = d.fills := rfl
@[simp] theorem Dev.mapAccess_returns (d : Dev) (op : Nat) (f : Access → Access) : (d.mapAccess op f).returns = d.returns := rfl
@[simp] theorem Dev.mapAccess_outbox (d : Dev) (op : Nat) (f : Access → Access) : (d.mapAccess op f).outbox = d.outbox := rfl
@[simp] theorem Dev.mapAccess_sourceGrants (d : Dev) (op : Nat) (f : Access → Access) : (d.mapAccess op f).sourceGrants = d.sourceGrants := rfl
@[simp] theorem Dev.mapAccess_collect (d : Dev) (op : Nat) (f : Access → Access) : (d.mapAccess op f).collect = d.collect := rfl
@[simp] theorem Dev.mapAccess_owed (d : Dev) (op : Nat) (f : Access → Access) : (d.mapAccess op f).owed = d.owed := rfl
@[simp] theorem Dev.mapAccess_walkerWaits (d : Dev) (op : Nat) (f : Access → Access) : (d.mapAccess op f).walkerWaits = d.walkerWaits := rfl
@[simp] theorem Dev.mapAccess_heldRequests (d : Dev) (op : Nat) (f : Access → Access) : (d.mapAccess op f).heldRequests = d.heldRequests := rfl
@[simp] theorem Dev.mapAccess_portUnits (d : Dev) (op : Nat) (f : Access → Access) : (d.mapAccess op f).portUnits = d.portUnits := rfl
@[simp] theorem Dev.mapAccess_tagFails (d : Dev) (op : Nat) (f : Access → Access) : (d.mapAccess op f).tagFails = d.tagFails := rfl
@[simp] theorem Dev.mapAccess_rotation (d : Dev) (op : Nat) (f : Access → Access) : (d.mapAccess op f).rotation = d.rotation := rfl
@[simp] theorem Dev.mapAccess_isobar (d : Dev) (op : Nat) (f : Access → Access) : (d.mapAccess op f).isobar = d.isobar := rfl
@[simp] theorem Dev.mapAccess_nextId (d : Dev) (op : Nat) (f : Access → Access) : (d.mapAccess op f).nextId = d.nextId := rfl
@[simp] theorem Dev.mapCore_platform (d : Dev) (i : Nat) (f : Core → Core) : (d.mapCore i f).platform = d.platform := by
  unfold Dev.mapCore; split <;> rfl
@[simp] theorem Dev.mapCore_timebase (d : Dev) (i : Nat) (f : Core → Core) : (d.mapCore i f).timebase = d.timebase := by
  unfold Dev.mapCore; split <;> rfl
@[simp] theorem Dev.mapCore_clock (d : Dev) (i : Nat) (f : Core → Core) : (d.mapCore i f).clock = d.clock := by
  unfold Dev.mapCore; split <;> rfl
@[simp] theorem Dev.mapCore_devId (d : Dev) (i : Nat) (f : Core → Core) : (d.mapCore i f).devId = d.devId := by
  unfold Dev.mapCore; split <;> rfl
@[simp] theorem Dev.mapCore_shares (d : Dev) (i : Nat) (f : Core → Core) : (d.mapCore i f).shares = d.shares := by
  unfold Dev.mapCore; split <;> rfl
@[simp] theorem Dev.mapCore_ctxs (d : Dev) (i : Nat) (f : Core → Core) : (d.mapCore i f).ctxs = d.ctxs := by
  unfold Dev.mapCore; split <;> rfl
@[simp] theorem Dev.mapCore_command (d : Dev) (i : Nat) (f : Core → Core) : (d.mapCore i f).command = d.command := by
  unfold Dev.mapCore; split <;> rfl
@[simp] theorem Dev.mapCore_revocation (d : Dev) (i : Nat) (f : Core → Core) : (d.mapCore i f).revocation = d.revocation := by
  unfold Dev.mapCore; split <;> rfl
@[simp] theorem Dev.mapCore_errorCounts (d : Dev) (i : Nat) (f : Core → Core) : (d.mapCore i f).errorCounts = d.errorCounts := by
  unfold Dev.mapCore; split <;> rfl
@[simp] theorem Dev.mapCore_failing (d : Dev) (i : Nat) (f : Core → Core) : (d.mapCore i f).failing = d.failing := by
  unfold Dev.mapCore; split <;> rfl
@[simp] theorem Dev.mapCore_status (d : Dev) (i : Nat) (f : Core → Core) : (d.mapCore i f).status = d.status := by
  unfold Dev.mapCore; split <;> rfl
@[simp] theorem Dev.mapCore_access (d : Dev) (i : Nat) (f : Core → Core) : (d.mapCore i f).access = d.access := by
  unfold Dev.mapCore; split <;> rfl
@[simp] theorem Dev.mapCore_regions (d : Dev) (i : Nat) (f : Core → Core) : (d.mapCore i f).regions = d.regions := by
  unfold Dev.mapCore; split <;> rfl
@[simp] theorem Dev.mapCore_hbm (d : Dev) (i : Nat) (f : Core → Core) : (d.mapCore i f).hbm = d.hbm := by
  unfold Dev.mapCore; split <;> rfl
@[simp] theorem Dev.mapCore_lpddr (d : Dev) (i : Nat) (f : Core → Core) : (d.mapCore i f).lpddr = d.lpddr := by
  unfold Dev.mapCore; split <;> rfl
@[simp] theorem Dev.mapCore_host (d : Dev) (i : Nat) (f : Core → Core) : (d.mapCore i f).host = d.host := by
  unfold Dev.mapCore; split <;> rfl
@[simp] theorem Dev.mapCore_consts (d : Dev) (i : Nat) (f : Core → Core) : (d.mapCore i f).consts = d.consts := by
  unfold Dev.mapCore; split <;> rfl
@[simp] theorem Dev.mapCore_parts (d : Dev) (i : Nat) (f : Core → Core) : (d.mapCore i f).parts = d.parts := by
  unfold Dev.mapCore; split <;> rfl
@[simp] theorem Dev.mapCore_saves (d : Dev) (i : Nat) (f : Core → Core) : (d.mapCore i f).saves = d.saves := by
  unfold Dev.mapCore; split <;> rfl
@[simp] theorem Dev.mapCore_graphs (d : Dev) (i : Nat) (f : Core → Core) : (d.mapCore i f).graphs = d.graphs := by
  unfold Dev.mapCore; split <;> rfl
@[simp] theorem Dev.mapCore_launches (d : Dev) (i : Nat) (f : Core → Core) : (d.mapCore i f).launches = d.launches := by
  unfold Dev.mapCore; split <;> rfl
@[simp] theorem Dev.mapCore_clusters (d : Dev) (i : Nat) (f : Core → Core) : (d.mapCore i f).clusters = d.clusters := by
  unfold Dev.mapCore; split <;> rfl
@[simp] theorem Dev.mapCore_groups (d : Dev) (i : Nat) (f : Core → Core) : (d.mapCore i f).groups = d.groups := by
  unfold Dev.mapCore; split <;> rfl
@[simp] theorem Dev.mapCore_waves (d : Dev) (i : Nat) (f : Core → Core) : (d.mapCore i f).waves = d.waves := by
  unfold Dev.mapCore; split <;> rfl
@[simp] theorem Dev.mapCore_units (d : Dev) (i : Nat) (f : Core → Core) : (d.mapCore i f).units = d.units := by
  unfold Dev.mapCore; split <;> rfl
@[simp] theorem Dev.mapCore_cmds (d : Dev) (i : Nat) (f : Core → Core) : (d.mapCore i f).cmds = d.cmds := by
  unfold Dev.mapCore; split <;> rfl
@[simp] theorem Dev.mapCore_locks (d : Dev) (i : Nat) (f : Core → Core) : (d.mapCore i f).locks = d.locks := by
  unfold Dev.mapCore; split <;> rfl
@[simp] theorem Dev.mapCore_dir (d : Dev) (i : Nat) (f : Core → Core) : (d.mapCore i f).dir = d.dir := by
  unfold Dev.mapCore; split <;> rfl
@[simp] theorem Dev.mapCore_l2 (d : Dev) (i : Nat) (f : Core → Core) : (d.mapCore i f).l2 = d.l2 := by
  unfold Dev.mapCore; split <;> rfl
@[simp] theorem Dev.mapCore_inflight (d : Dev) (i : Nat) (f : Core → Core) : (d.mapCore i f).inflight = d.inflight := by
  unfold Dev.mapCore; split <;> rfl
@[simp] theorem Dev.mapCore_txns (d : Dev) (i : Nat) (f : Core → Core) : (d.mapCore i f).txns = d.txns := by
  unfold Dev.mapCore; split <;> rfl
@[simp] theorem Dev.mapCore_peers (d : Dev) (i : Nat) (f : Core → Core) : (d.mapCore i f).peers = d.peers := by
  unfold Dev.mapCore; split <;> rfl
@[simp] theorem Dev.mapCore_keys (d : Dev) (i : Nat) (f : Core → Core) : (d.mapCore i f).keys = d.keys := by
  unfold Dev.mapCore; split <;> rfl
@[simp] theorem Dev.mapCore_rights (d : Dev) (i : Nat) (f : Core → Core) : (d.mapCore i f).rights = d.rights := by
  unfold Dev.mapCore; split <;> rfl
@[simp] theorem Dev.mapCore_owned (d : Dev) (i : Nat) (f : Core → Core) : (d.mapCore i f).owned = d.owned := by
  unfold Dev.mapCore; split <;> rfl
@[simp] theorem Dev.mapCore_lost (d : Dev) (i : Nat) (f : Core → Core) : (d.mapCore i f).lost = d.lost := by
  unfold Dev.mapCore; split <;> rfl
@[simp] theorem Dev.mapCore_tlbs (d : Dev) (i : Nat) (f : Core → Core) : (d.mapCore i f).tlbs = d.tlbs := by
  unfold Dev.mapCore; split <;> rfl
@[simp] theorem Dev.mapCore_gaps (d : Dev) (i : Nat) (f : Core → Core) : (d.mapCore i f).gaps = d.gaps := by
  unfold Dev.mapCore; split <;> rfl
@[simp] theorem Dev.mapCore_fetched (d : Dev) (i : Nat) (f : Core → Core) : (d.mapCore i f).fetched = d.fetched := by
  unfold Dev.mapCore; split <;> rfl
@[simp] theorem Dev.mapCore_revoking (d : Dev) (i : Nat) (f : Core → Core) : (d.mapCore i f).revoking = d.revoking := by
  unfold Dev.mapCore; split <;> rfl
@[simp] theorem Dev.mapCore_fills (d : Dev) (i : Nat) (f : Core → Core) : (d.mapCore i f).fills = d.fills := by
  unfold Dev.mapCore; split <;> rfl
@[simp] theorem Dev.mapCore_returns (d : Dev) (i : Nat) (f : Core → Core) : (d.mapCore i f).returns = d.returns := by
  unfold Dev.mapCore; split <;> rfl
@[simp] theorem Dev.mapCore_outbox (d : Dev) (i : Nat) (f : Core → Core) : (d.mapCore i f).outbox = d.outbox := by
  unfold Dev.mapCore; split <;> rfl
@[simp] theorem Dev.mapCore_sourceGrants (d : Dev) (i : Nat) (f : Core → Core) : (d.mapCore i f).sourceGrants = d.sourceGrants := by
  unfold Dev.mapCore; split <;> rfl
@[simp] theorem Dev.mapCore_collect (d : Dev) (i : Nat) (f : Core → Core) : (d.mapCore i f).collect = d.collect := by
  unfold Dev.mapCore; split <;> rfl
@[simp] theorem Dev.mapCore_owed (d : Dev) (i : Nat) (f : Core → Core) : (d.mapCore i f).owed = d.owed := by
  unfold Dev.mapCore; split <;> rfl
@[simp] theorem Dev.mapCore_walkerWaits (d : Dev) (i : Nat) (f : Core → Core) : (d.mapCore i f).walkerWaits = d.walkerWaits := by
  unfold Dev.mapCore; split <;> rfl
@[simp] theorem Dev.mapCore_heldRequests (d : Dev) (i : Nat) (f : Core → Core) : (d.mapCore i f).heldRequests = d.heldRequests := by
  unfold Dev.mapCore; split <;> rfl
@[simp] theorem Dev.mapCore_portUnits (d : Dev) (i : Nat) (f : Core → Core) : (d.mapCore i f).portUnits = d.portUnits := by
  unfold Dev.mapCore; split <;> rfl
@[simp] theorem Dev.mapCore_tagFails (d : Dev) (i : Nat) (f : Core → Core) : (d.mapCore i f).tagFails = d.tagFails := by
  unfold Dev.mapCore; split <;> rfl
@[simp] theorem Dev.mapCore_rotation (d : Dev) (i : Nat) (f : Core → Core) : (d.mapCore i f).rotation = d.rotation := by
  unfold Dev.mapCore; split <;> rfl
@[simp] theorem Dev.mapCore_isobar (d : Dev) (i : Nat) (f : Core → Core) : (d.mapCore i f).isobar = d.isobar := by
  unfold Dev.mapCore; split <;> rfl
@[simp] theorem Dev.mapCore_nextId (d : Dev) (i : Nat) (f : Core → Core) : (d.mapCore i f).nextId = d.nextId := by
  unfold Dev.mapCore; split <;> rfl
@[simp] theorem Issue.mapWave_wave (c : Issue) (f : Wave → Wave) : (c.mapWave f).wave = f c.wave := rfl
@[simp] theorem Issue.mapWave_path (c : Issue) (f : Wave → Wave) : (c.mapWave f).path = c.path := rfl
@[simp] theorem Issue.mapWave_header (c : Issue) (f : Wave → Wave) : (c.mapWave f).header = c.header := rfl
@[simp] theorem Issue.mapWave_words (c : Issue) (f : Wave → Wave) : (c.mapWave f).words = c.words := rfl
@[simp] theorem Issue.mapWave_setA (c : Issue) (f : Wave → Wave) : (c.mapWave f).setA = c.setA := rfl
@[simp] theorem Issue.mapWave_setB (c : Issue) (f : Wave → Wave) : (c.mapWave f).setB = c.setB := rfl
@[simp] theorem Issue.mapWave_seen (c : Issue) (f : Wave → Wave) : (c.mapWave f).seen = c.seen := rfl
@[simp] theorem Issue.mapWave_temps (c : Issue) (f : Wave → Wave) : (c.mapWave f).temps = c.temps := rfl
@[simp] theorem Issue.mapWave_effects (c : Issue) (f : Wave → Wave) : (c.mapWave f).effects = c.effects := rfl
@[simp] theorem Issue.mapWave_next (c : Issue) (f : Wave → Wave) : (c.mapWave f).next = c.next := rfl
@[simp] theorem Issue.mapWave_trap (c : Issue) (f : Wave → Wave) : (c.mapWave f).trap = c.trap := rfl
@[simp] theorem Issue.mapWave_flushed (c : Issue) (f : Wave → Wave) : (c.mapWave f).flushed = c.flushed := rfl
@[simp] theorem Issue.mapWave_phase (c : Issue) (f : Wave → Wave) : (c.mapWave f).phase = c.phase := rfl
@[simp] theorem Issue.mapWave_paid (c : Issue) (f : Wave → Wave) : (c.mapWave f).paid = c.paid := rfl
@[simp] theorem Issue.mapWave_room (c : Issue) (f : Wave → Wave) : (c.mapWave f).room = c.room := rfl
@[simp] theorem Issue.mapWave_queues (c : Issue) (f : Wave → Wave) : (c.mapWave f).queues = c.queues := rfl
@[simp] theorem Issue.mapWave_checked (c : Issue) (f : Wave → Wave) : (c.mapWave f).checked = c.checked := rfl
@[simp] theorem Issue.mapWave_rival (c : Issue) (f : Wave → Wave) : (c.mapWave f).rival = c.rival := rfl
@[simp] theorem Issue.mapWave_counted (c : Issue) (f : Wave → Wave) : (c.mapWave f).counted = c.counted := rfl
@[simp] theorem Issue.mapWave_covered (c : Issue) (f : Wave → Wave) : (c.mapWave f).covered = c.covered := rfl
@[simp] theorem Issue.mapWave_turn (c : Issue) (f : Wave → Wave) : (c.mapWave f).turn = c.turn := rfl
@[simp] theorem Issue.setPth_path (c : Issue) (x : Path) : (c.setPth x).path = c.path := rfl
@[simp] theorem Issue.setPth_header (c : Issue) (x : Path) : (c.setPth x).header = c.header := rfl
@[simp] theorem Issue.setPth_words (c : Issue) (x : Path) : (c.setPth x).words = c.words := rfl
@[simp] theorem Issue.setPth_setA (c : Issue) (x : Path) : (c.setPth x).setA = c.setA := rfl
@[simp] theorem Issue.setPth_setB (c : Issue) (x : Path) : (c.setPth x).setB = c.setB := rfl
@[simp] theorem Issue.setPth_seen (c : Issue) (x : Path) : (c.setPth x).seen = c.seen := rfl
@[simp] theorem Issue.setPth_temps (c : Issue) (x : Path) : (c.setPth x).temps = c.temps := rfl
@[simp] theorem Issue.setPth_effects (c : Issue) (x : Path) : (c.setPth x).effects = c.effects := rfl
@[simp] theorem Issue.setPth_next (c : Issue) (x : Path) : (c.setPth x).next = c.next := rfl
@[simp] theorem Issue.setPth_trap (c : Issue) (x : Path) : (c.setPth x).trap = c.trap := rfl
@[simp] theorem Issue.setPth_flushed (c : Issue) (x : Path) : (c.setPth x).flushed = c.flushed := rfl
@[simp] theorem Issue.setPth_phase (c : Issue) (x : Path) : (c.setPth x).phase = c.phase := rfl
@[simp] theorem Issue.setPth_paid (c : Issue) (x : Path) : (c.setPth x).paid = c.paid := rfl
@[simp] theorem Issue.setPth_room (c : Issue) (x : Path) : (c.setPth x).room = c.room := rfl
@[simp] theorem Issue.setPth_queues (c : Issue) (x : Path) : (c.setPth x).queues = c.queues := rfl
@[simp] theorem Issue.setPth_checked (c : Issue) (x : Path) : (c.setPth x).checked = c.checked := rfl
@[simp] theorem Issue.setPth_rival (c : Issue) (x : Path) : (c.setPth x).rival = c.rival := rfl
@[simp] theorem Issue.setPth_counted (c : Issue) (x : Path) : (c.setPth x).counted = c.counted := rfl
@[simp] theorem Issue.setPth_covered (c : Issue) (x : Path) : (c.setPth x).covered = c.covered := rfl
@[simp] theorem Issue.setPth_turn (c : Issue) (x : Path) : (c.setPth x).turn = c.turn := rfl
@[simp] theorem Issue.send_wave (c : Issue) (e : Effect) : (c.send e).wave = c.wave := rfl
@[simp] theorem Issue.send_path (c : Issue) (e : Effect) : (c.send e).path = c.path := rfl
@[simp] theorem Issue.send_header (c : Issue) (e : Effect) : (c.send e).header = c.header := rfl
@[simp] theorem Issue.send_words (c : Issue) (e : Effect) : (c.send e).words = c.words := rfl
@[simp] theorem Issue.send_setA (c : Issue) (e : Effect) : (c.send e).setA = c.setA := rfl
@[simp] theorem Issue.send_setB (c : Issue) (e : Effect) : (c.send e).setB = c.setB := rfl
@[simp] theorem Issue.send_seen (c : Issue) (e : Effect) : (c.send e).seen = c.seen := rfl
@[simp] theorem Issue.send_temps (c : Issue) (e : Effect) : (c.send e).temps = c.temps := rfl
@[simp] theorem Issue.send_effects (c : Issue) (e : Effect) : (c.send e).effects = c.effects ++ [e] := rfl
@[simp] theorem Issue.send_next (c : Issue) (e : Effect) : (c.send e).next = c.next := rfl
@[simp] theorem Issue.send_trap (c : Issue) (e : Effect) : (c.send e).trap = c.trap := rfl
@[simp] theorem Issue.send_flushed (c : Issue) (e : Effect) : (c.send e).flushed = c.flushed := rfl
@[simp] theorem Issue.send_phase (c : Issue) (e : Effect) : (c.send e).phase = c.phase := rfl
@[simp] theorem Issue.send_paid (c : Issue) (e : Effect) : (c.send e).paid = c.paid := rfl
@[simp] theorem Issue.send_room (c : Issue) (e : Effect) : (c.send e).room = c.room := rfl
@[simp] theorem Issue.send_queues (c : Issue) (e : Effect) : (c.send e).queues = c.queues := rfl
@[simp] theorem Issue.send_checked (c : Issue) (e : Effect) : (c.send e).checked = c.checked := rfl
@[simp] theorem Issue.send_rival (c : Issue) (e : Effect) : (c.send e).rival = c.rival := rfl
@[simp] theorem Issue.send_counted (c : Issue) (e : Effect) : (c.send e).counted = c.counted := rfl
@[simp] theorem Issue.send_covered (c : Issue) (e : Effect) : (c.send e).covered = c.covered := rfl
@[simp] theorem Issue.send_turn (c : Issue) (e : Effect) : (c.send e).turn = c.turn := rfl
@[simp] theorem Issue.retire_path (c : Issue) : c.retire.path = c.path := rfl
@[simp] theorem Issue.retire_header (c : Issue) : c.retire.header = c.header := rfl
@[simp] theorem Issue.retire_words (c : Issue) : c.retire.words = c.words := rfl
@[simp] theorem Issue.retire_setA (c : Issue) : c.retire.setA = c.setA := rfl
@[simp] theorem Issue.retire_setB (c : Issue) : c.retire.setB = c.setB := rfl
@[simp] theorem Issue.retire_seen (c : Issue) : c.retire.seen = c.seen := rfl
@[simp] theorem Issue.retire_temps (c : Issue) : c.retire.temps = c.temps := rfl
@[simp] theorem Issue.retire_effects (c : Issue) : c.retire.effects = c.effects := rfl
@[simp] theorem Issue.retire_next (c : Issue) : c.retire.next = c.next := rfl
@[simp] theorem Issue.retire_trap (c : Issue) : c.retire.trap = c.trap := rfl
@[simp] theorem Issue.retire_flushed (c : Issue) : c.retire.flushed = c.flushed := rfl
@[simp] theorem Issue.retire_phase (c : Issue) : c.retire.phase = c.phase := rfl
@[simp] theorem Issue.retire_paid (c : Issue) : c.retire.paid = c.paid := rfl
@[simp] theorem Issue.retire_room (c : Issue) : c.retire.room = c.room := rfl
@[simp] theorem Issue.retire_queues (c : Issue) : c.retire.queues = c.queues := rfl
@[simp] theorem Issue.retire_checked (c : Issue) : c.retire.checked = c.checked := rfl
@[simp] theorem Issue.retire_rival (c : Issue) : c.retire.rival = c.rival := rfl
@[simp] theorem Issue.retire_counted (c : Issue) : c.retire.counted = c.counted := rfl
@[simp] theorem Issue.retire_covered (c : Issue) : c.retire.covered = c.covered := rfl
@[simp] theorem Issue.retire_turn (c : Issue) : c.retire.turn = c.turn := rfl
@[simp] theorem Issue.takeFlag_path (c : Issue) (op : Nat) : (c.takeFlag op).path = c.path := rfl
@[simp] theorem Issue.takeFlag_header (c : Issue) (op : Nat) : (c.takeFlag op).header = c.header := rfl
@[simp] theorem Issue.takeFlag_words (c : Issue) (op : Nat) : (c.takeFlag op).words = c.words := rfl
@[simp] theorem Issue.takeFlag_setA (c : Issue) (op : Nat) : (c.takeFlag op).setA = c.setA := rfl
@[simp] theorem Issue.takeFlag_setB (c : Issue) (op : Nat) : (c.takeFlag op).setB = c.setB := rfl
@[simp] theorem Issue.takeFlag_temps (c : Issue) (op : Nat) : (c.takeFlag op).temps = c.temps := rfl
@[simp] theorem Issue.takeFlag_effects (c : Issue) (op : Nat) : (c.takeFlag op).effects = c.effects := rfl
@[simp] theorem Issue.takeFlag_next (c : Issue) (op : Nat) : (c.takeFlag op).next = c.next := rfl
@[simp] theorem Issue.takeFlag_trap (c : Issue) (op : Nat) : (c.takeFlag op).trap = c.trap := rfl
@[simp] theorem Issue.takeFlag_flushed (c : Issue) (op : Nat) : (c.takeFlag op).flushed = c.flushed := rfl
@[simp] theorem Issue.takeFlag_phase (c : Issue) (op : Nat) : (c.takeFlag op).phase = c.phase := rfl
@[simp] theorem Issue.takeFlag_paid (c : Issue) (op : Nat) : (c.takeFlag op).paid = c.paid := rfl
@[simp] theorem Issue.takeFlag_room (c : Issue) (op : Nat) : (c.takeFlag op).room = c.room := rfl
@[simp] theorem Issue.takeFlag_queues (c : Issue) (op : Nat) : (c.takeFlag op).queues = c.queues := rfl
@[simp] theorem Issue.takeFlag_checked (c : Issue) (op : Nat) : (c.takeFlag op).checked = c.checked := rfl
@[simp] theorem Issue.takeFlag_rival (c : Issue) (op : Nat) : (c.takeFlag op).rival = c.rival := rfl
@[simp] theorem Issue.takeFlag_counted (c : Issue) (op : Nat) : (c.takeFlag op).counted = c.counted := rfl
@[simp] theorem Issue.takeFlag_covered (c : Issue) (op : Nat) : (c.takeFlag op).covered = c.covered := rfl
@[simp] theorem Issue.takeFlag_turn (c : Issue) (op : Nat) : (c.takeFlag op).turn = c.turn := rfl
@[simp] theorem Issue.takeFlag_seen (c : Issue) (op : Nat) : (c.takeFlag op).seen = c.seen + 1 := rfl
@[simp] theorem Wave.setK_id (w : Wave) (n : Nat) (x : W64) : (w.setK n x).id = w.id := rfl
@[simp] theorem Wave.setK_core (w : Wave) (n : Nat) (x : W64) : (w.setK n x).core = w.core := rfl
@[simp] theorem Wave.setK_bay (w : Wave) (n : Nat) (x : W64) : (w.setK n x).bay = w.bay := rfl
@[simp] theorem Wave.setK_half (w : Wave) (n : Nat) (x : W64) : (w.setK n x).half = w.half := rfl
@[simp] theorem Wave.setK_slot (w : Wave) (n : Nat) (x : W64) : (w.setK n x).slot = w.slot := rfl
@[simp] theorem Wave.setK_width (w : Wave) (n : Nat) (x : W64) : (w.setK n x).width = w.width := rfl
@[simp] theorem Wave.setK_nregs (w : Wave) (n : Nat) (x : W64) : (w.setK n x).nregs = w.nregs := rfl
@[simp] theorem Wave.setK_real (w : Wave) (n : Nat) (x : W64) : (w.setK n x).real = w.real := rfl
@[simp] theorem Wave.setK_helper (w : Wave) (n : Nat) (x : W64) : (w.setK n x).helper = w.helper := rfl
@[simp] theorem Wave.setK_ended (w : Wave) (n : Nat) (x : W64) : (w.setK n x).ended = w.ended := rfl
@[simp] theorem Wave.setK_v (w : Wave) (n : Nat) (x : W64) : (w.setK n x).v = w.v := rfl
@[simp] theorem Wave.setK_k (w : Wave) (n : Nat) (x : W64) : (w.setK n x).k = w.k.set n x := rfl
@[simp] theorem Wave.setK_q (w : Wave) (n : Nat) (x : W64) : (w.setK n x).q = w.q := rfl
@[simp] theorem Wave.setK_fpflags (w : Wave) (n : Nat) (x : W64) : (w.setK n x).fpflags = w.fpflags := rfl
@[simp] theorem Wave.setK_xva (w : Wave) (n : Nat) (x : W64) : (w.setK n x).xva = w.xva := rfl
@[simp] theorem Wave.setK_retired (w : Wave) (n : Nat) (x : W64) : (w.setK n x).retired = w.retired := rfl
@[simp] theorem Wave.setK_path0 (w : Wave) (n : Nat) (x : W64) : (w.setK n x).path0 = w.path0 := rfl
@[simp] theorem Wave.setK_path1 (w : Wave) (n : Nat) (x : W64) : (w.setK n x).path1 = w.path1 := rfl
@[simp] theorem Wave.setK_div (w : Wave) (n : Nat) (x : W64) : (w.setK n x).div = w.div := rfl
@[simp] theorem Wave.setK_wset (w : Wave) (n : Nat) (x : W64) : (w.setK n x).wset = w.wset := rfl
@[simp] theorem Wave.setK_watch (w : Wave) (n : Nat) (x : W64) : (w.setK n x).watch = w.watch := rfl
@[simp] theorem Wave.setK_resv (w : Wave) (n : Nat) (x : W64) : (w.setK n x).resv = w.resv := rfl
@[simp] theorem Wave.setK_triggered (w : Wave) (n : Nat) (x : W64) : (w.setK n x).triggered = w.triggered := rfl
@[simp] theorem Wave.setK_excluded (w : Wave) (n : Nat) (x : W64) : (w.setK n x).excluded = w.excluded := rfl
@[simp] theorem Wave.setK_faultmask (w : Wave) (n : Nat) (x : W64) : (w.setK n x).faultmask = w.faultmask := rfl
@[simp] theorem Wave.setK_switches (w : Wave) (n : Nat) (x : W64) : (w.setK n x).switches = w.switches := rfl
@[simp] theorem Wave.setK_last (w : Wave) (n : Nat) (x : W64) : (w.setK n x).last = w.last := rfl
@[simp] theorem Wave.setK_forced (w : Wave) (n : Nat) (x : W64) : (w.setK n x).forced = w.forced := rfl
@[simp] theorem Wave.setK_yieldTo (w : Wave) (n : Nat) (x : W64) : (w.setK n x).yieldTo = w.yieldTo := rfl
@[simp] theorem Wave.setK_hold (w : Wave) (n : Nat) (x : W64) : (w.setK n x).hold = w.hold := rfl
@[simp] theorem Wave.setK_priv (w : Wave) (n : Nat) (x : W64) : (w.setK n x).priv = w.priv := rfl
@[simp] theorem Wave.orFlags_id (w : Wave) (f : FpFlags) : (w.orFlags f).id = w.id := rfl
@[simp] theorem Wave.orFlags_core (w : Wave) (f : FpFlags) : (w.orFlags f).core = w.core := rfl
@[simp] theorem Wave.orFlags_bay (w : Wave) (f : FpFlags) : (w.orFlags f).bay = w.bay := rfl
@[simp] theorem Wave.orFlags_half (w : Wave) (f : FpFlags) : (w.orFlags f).half = w.half := rfl
@[simp] theorem Wave.orFlags_slot (w : Wave) (f : FpFlags) : (w.orFlags f).slot = w.slot := rfl
@[simp] theorem Wave.orFlags_width (w : Wave) (f : FpFlags) : (w.orFlags f).width = w.width := rfl
@[simp] theorem Wave.orFlags_nregs (w : Wave) (f : FpFlags) : (w.orFlags f).nregs = w.nregs := rfl
@[simp] theorem Wave.orFlags_real (w : Wave) (f : FpFlags) : (w.orFlags f).real = w.real := rfl
@[simp] theorem Wave.orFlags_helper (w : Wave) (f : FpFlags) : (w.orFlags f).helper = w.helper := rfl
@[simp] theorem Wave.orFlags_ended (w : Wave) (f : FpFlags) : (w.orFlags f).ended = w.ended := rfl
@[simp] theorem Wave.orFlags_v (w : Wave) (f : FpFlags) : (w.orFlags f).v = w.v := rfl
@[simp] theorem Wave.orFlags_k (w : Wave) (f : FpFlags) : (w.orFlags f).k = w.k := rfl
@[simp] theorem Wave.orFlags_q (w : Wave) (f : FpFlags) : (w.orFlags f).q = w.q := rfl
@[simp] theorem Wave.orFlags_xva (w : Wave) (f : FpFlags) : (w.orFlags f).xva = w.xva := rfl
@[simp] theorem Wave.orFlags_retired (w : Wave) (f : FpFlags) : (w.orFlags f).retired = w.retired := rfl
@[simp] theorem Wave.orFlags_path0 (w : Wave) (f : FpFlags) : (w.orFlags f).path0 = w.path0 := rfl
@[simp] theorem Wave.orFlags_path1 (w : Wave) (f : FpFlags) : (w.orFlags f).path1 = w.path1 := rfl
@[simp] theorem Wave.orFlags_div (w : Wave) (f : FpFlags) : (w.orFlags f).div = w.div := rfl
@[simp] theorem Wave.orFlags_wset (w : Wave) (f : FpFlags) : (w.orFlags f).wset = w.wset := rfl
@[simp] theorem Wave.orFlags_watch (w : Wave) (f : FpFlags) : (w.orFlags f).watch = w.watch := rfl
@[simp] theorem Wave.orFlags_resv (w : Wave) (f : FpFlags) : (w.orFlags f).resv = w.resv := rfl
@[simp] theorem Wave.orFlags_triggered (w : Wave) (f : FpFlags) : (w.orFlags f).triggered = w.triggered := rfl
@[simp] theorem Wave.orFlags_excluded (w : Wave) (f : FpFlags) : (w.orFlags f).excluded = w.excluded := rfl
@[simp] theorem Wave.orFlags_faultmask (w : Wave) (f : FpFlags) : (w.orFlags f).faultmask = w.faultmask := rfl
@[simp] theorem Wave.orFlags_switches (w : Wave) (f : FpFlags) : (w.orFlags f).switches = w.switches := rfl
@[simp] theorem Wave.orFlags_last (w : Wave) (f : FpFlags) : (w.orFlags f).last = w.last := rfl
@[simp] theorem Wave.orFlags_forced (w : Wave) (f : FpFlags) : (w.orFlags f).forced = w.forced := rfl
@[simp] theorem Wave.orFlags_yieldTo (w : Wave) (f : FpFlags) : (w.orFlags f).yieldTo = w.yieldTo := rfl
@[simp] theorem Wave.orFlags_hold (w : Wave) (f : FpFlags) : (w.orFlags f).hold = w.hold := rfl
@[simp] theorem Wave.orFlags_priv (w : Wave) (f : FpFlags) : (w.orFlags f).priv = w.priv := rfl
@[simp] theorem Issue.retire_wave_id (c : Issue) : c.retire.wave.id = c.wave.id := rfl
@[simp] theorem Issue.retire_wave_core (c : Issue) : c.retire.wave.core = c.wave.core := rfl
@[simp] theorem Issue.retire_wave_bay (c : Issue) : c.retire.wave.bay = c.wave.bay := rfl
@[simp] theorem Issue.retire_wave_half (c : Issue) : c.retire.wave.half = c.wave.half := rfl
@[simp] theorem Issue.retire_wave_slot (c : Issue) : c.retire.wave.slot = c.wave.slot := rfl
@[simp] theorem Issue.retire_wave_width (c : Issue) : c.retire.wave.width = c.wave.width := rfl
@[simp] theorem Issue.retire_wave_nregs (c : Issue) : c.retire.wave.nregs = c.wave.nregs := rfl
@[simp] theorem Issue.retire_wave_real (c : Issue) : c.retire.wave.real = c.wave.real := rfl
@[simp] theorem Issue.retire_wave_helper (c : Issue) : c.retire.wave.helper = c.wave.helper := rfl
@[simp] theorem Issue.retire_wave_ended (c : Issue) : c.retire.wave.ended = c.wave.ended := rfl
@[simp] theorem Issue.retire_wave_v (c : Issue) : c.retire.wave.v = c.wave.v := rfl
@[simp] theorem Issue.retire_wave_k (c : Issue) : c.retire.wave.k = c.wave.k := rfl
@[simp] theorem Issue.retire_wave_q (c : Issue) : c.retire.wave.q = c.wave.q := rfl
@[simp] theorem Issue.retire_wave_fpflags (c : Issue) : c.retire.wave.fpflags = c.wave.fpflags := rfl
@[simp] theorem Issue.retire_wave_xva (c : Issue) : c.retire.wave.xva = c.wave.xva := rfl
@[simp] theorem Issue.retire_wave_retired (c : Issue) : c.retire.wave.retired = c.wave.retired + 1 := rfl
@[simp] theorem Issue.retire_wave_path0 (c : Issue) : c.retire.wave.path0 = c.wave.path0 := rfl
@[simp] theorem Issue.retire_wave_path1 (c : Issue) : c.retire.wave.path1 = c.wave.path1 := rfl
@[simp] theorem Issue.retire_wave_div (c : Issue) : c.retire.wave.div = c.wave.div := rfl
@[simp] theorem Issue.retire_wave_wset (c : Issue) : c.retire.wave.wset = c.wave.wset := rfl
@[simp] theorem Issue.retire_wave_watch (c : Issue) : c.retire.wave.watch = c.wave.watch := rfl
@[simp] theorem Issue.retire_wave_resv (c : Issue) : c.retire.wave.resv = c.wave.resv := rfl
@[simp] theorem Issue.retire_wave_triggered (c : Issue) : c.retire.wave.triggered = c.wave.triggered := rfl
@[simp] theorem Issue.retire_wave_excluded (c : Issue) : c.retire.wave.excluded = c.wave.excluded := rfl
@[simp] theorem Issue.retire_wave_faultmask (c : Issue) : c.retire.wave.faultmask = c.wave.faultmask := rfl
@[simp] theorem Issue.retire_wave_switches (c : Issue) : c.retire.wave.switches = c.wave.switches := rfl
@[simp] theorem Issue.retire_wave_last (c : Issue) : c.retire.wave.last = c.wave.last := rfl
@[simp] theorem Issue.retire_wave_forced (c : Issue) : c.retire.wave.forced = c.wave.forced := rfl
@[simp] theorem Issue.retire_wave_yieldTo (c : Issue) : c.retire.wave.yieldTo = c.wave.yieldTo := rfl
@[simp] theorem Issue.retire_wave_hold (c : Issue) : c.retire.wave.hold = c.wave.hold := rfl
@[simp] theorem Issue.retire_wave_priv (c : Issue) : c.retire.wave.priv = c.wave.priv := rfl
@[simp] theorem Wave.setPath_id (w : Wave) (p : Nat) (x : Path) : (w.setPath p x).id = w.id := by
  unfold Wave.setPath; split <;> rfl
@[simp] theorem Wave.setPath_core (w : Wave) (p : Nat) (x : Path) : (w.setPath p x).core = w.core := by
  unfold Wave.setPath; split <;> rfl
@[simp] theorem Wave.setPath_bay (w : Wave) (p : Nat) (x : Path) : (w.setPath p x).bay = w.bay := by
  unfold Wave.setPath; split <;> rfl
@[simp] theorem Wave.setPath_half (w : Wave) (p : Nat) (x : Path) : (w.setPath p x).half = w.half := by
  unfold Wave.setPath; split <;> rfl
@[simp] theorem Wave.setPath_slot (w : Wave) (p : Nat) (x : Path) : (w.setPath p x).slot = w.slot := by
  unfold Wave.setPath; split <;> rfl
@[simp] theorem Wave.setPath_width (w : Wave) (p : Nat) (x : Path) : (w.setPath p x).width = w.width := by
  unfold Wave.setPath; split <;> rfl
@[simp] theorem Wave.setPath_nregs (w : Wave) (p : Nat) (x : Path) : (w.setPath p x).nregs = w.nregs := by
  unfold Wave.setPath; split <;> rfl
@[simp] theorem Wave.setPath_real (w : Wave) (p : Nat) (x : Path) : (w.setPath p x).real = w.real := by
  unfold Wave.setPath; split <;> rfl
@[simp] theorem Wave.setPath_helper (w : Wave) (p : Nat) (x : Path) : (w.setPath p x).helper = w.helper := by
  unfold Wave.setPath; split <;> rfl
@[simp] theorem Wave.setPath_ended (w : Wave) (p : Nat) (x : Path) : (w.setPath p x).ended = w.ended := by
  unfold Wave.setPath; split <;> rfl
@[simp] theorem Wave.setPath_v (w : Wave) (p : Nat) (x : Path) : (w.setPath p x).v = w.v := by
  unfold Wave.setPath; split <;> rfl
@[simp] theorem Wave.setPath_k (w : Wave) (p : Nat) (x : Path) : (w.setPath p x).k = w.k := by
  unfold Wave.setPath; split <;> rfl
@[simp] theorem Wave.setPath_q (w : Wave) (p : Nat) (x : Path) : (w.setPath p x).q = w.q := by
  unfold Wave.setPath; split <;> rfl
@[simp] theorem Wave.setPath_fpflags (w : Wave) (p : Nat) (x : Path) : (w.setPath p x).fpflags = w.fpflags := by
  unfold Wave.setPath; split <;> rfl
@[simp] theorem Wave.setPath_xva (w : Wave) (p : Nat) (x : Path) : (w.setPath p x).xva = w.xva := by
  unfold Wave.setPath; split <;> rfl
@[simp] theorem Wave.setPath_retired (w : Wave) (p : Nat) (x : Path) : (w.setPath p x).retired = w.retired := by
  unfold Wave.setPath; split <;> rfl
@[simp] theorem Wave.setPath_div (w : Wave) (p : Nat) (x : Path) : (w.setPath p x).div = w.div := by
  unfold Wave.setPath; split <;> rfl
@[simp] theorem Wave.setPath_wset (w : Wave) (p : Nat) (x : Path) : (w.setPath p x).wset = w.wset := by
  unfold Wave.setPath; split <;> rfl
@[simp] theorem Wave.setPath_watch (w : Wave) (p : Nat) (x : Path) : (w.setPath p x).watch = w.watch := by
  unfold Wave.setPath; split <;> rfl
@[simp] theorem Wave.setPath_resv (w : Wave) (p : Nat) (x : Path) : (w.setPath p x).resv = w.resv := by
  unfold Wave.setPath; split <;> rfl
@[simp] theorem Wave.setPath_triggered (w : Wave) (p : Nat) (x : Path) : (w.setPath p x).triggered = w.triggered := by
  unfold Wave.setPath; split <;> rfl
@[simp] theorem Wave.setPath_excluded (w : Wave) (p : Nat) (x : Path) : (w.setPath p x).excluded = w.excluded := by
  unfold Wave.setPath; split <;> rfl
@[simp] theorem Wave.setPath_faultmask (w : Wave) (p : Nat) (x : Path) : (w.setPath p x).faultmask = w.faultmask := by
  unfold Wave.setPath; split <;> rfl
@[simp] theorem Wave.setPath_switches (w : Wave) (p : Nat) (x : Path) : (w.setPath p x).switches = w.switches := by
  unfold Wave.setPath; split <;> rfl
@[simp] theorem Wave.setPath_last (w : Wave) (p : Nat) (x : Path) : (w.setPath p x).last = w.last := by
  unfold Wave.setPath; split <;> rfl
@[simp] theorem Wave.setPath_forced (w : Wave) (p : Nat) (x : Path) : (w.setPath p x).forced = w.forced := by
  unfold Wave.setPath; split <;> rfl
@[simp] theorem Wave.setPath_yieldTo (w : Wave) (p : Nat) (x : Path) : (w.setPath p x).yieldTo = w.yieldTo := by
  unfold Wave.setPath; split <;> rfl
@[simp] theorem Wave.setPath_hold (w : Wave) (p : Nat) (x : Path) : (w.setPath p x).hold = w.hold := by
  unfold Wave.setPath; split <;> rfl
@[simp] theorem Wave.setPath_priv (w : Wave) (p : Nat) (x : Path) : (w.setPath p x).priv = w.priv := by
  unfold Wave.setPath; split <;> rfl

/-- A path that has been set is the one found. -/
@[simp] theorem Wave.setPath_path (w : Wave) (p : Nat) (x : Path) : (w.setPath p x).path p = x := by
  unfold Wave.setPath Wave.path; split <;> simp_all

/-- The path of a clause that has been set. -/
@[simp] theorem Issue.setPth_pth (c : Issue) (x : Path) : (c.setPth x).pth = x := Wave.setPath_path c.wave c.path x

end Sys2Proof.Machine
end

