-- ==== Sys2Proof/Laws/Exec.lean ====
section
/-! SUPPORT. What an instruction can do to the clause in execution: the lemmas that claims cite instead of unfolding the
shape in which every instruction acts. -/

namespace Sys2Proof.Machine

/-- An instruction that the clause accepts retires, and the clause goes on. -/
theorem State.onIssue_ok {s s' : State} {c c' : Issue} {f : State → Issue → State × Except Stop Issue}
    (h : s.issue = some c) (hf : f s c = (s', .ok c')) : s.onIssue f = .next { s' with issue := some c'.retire } := by
  simp [State.onIssue, h, hf]

/-- An instruction that stops its clause ends it. -/
theorem State.onIssue_error {s s' : State} {c : Issue} {e : Stop} {f : State → Issue → State × Except Stop Issue}
    (h : s.issue = some c) (hf : f s c = (s', .error e)) :
    s.onIssue f = .next (s'.abandon (s'.issue.getD c) e) := by
  simp [State.onIssue, h, hf]

/-- An instruction that acts on the clause alone and is accepted. -/
theorem State.onClause_ok {s : State} {c c' : Issue} {f : Issue → Except Stop Issue} (h : s.issue = some c)
    (hf : f c = .ok c') : s.onClause f = .next { s with issue := some c'.retire } :=
  State.onIssue_ok h (by rw [hf])

/-- An instruction that acts on the clause alone and stops it. -/
theorem State.onClause_error {s : State} {c : Issue} {e : Stop} {f : Issue → Except Stop Issue} (h : s.issue = some c)
    (hf : f c = .error e) : s.onClause f = .next (s.abandon c e) := by
  rw [State.onClause, State.onIssue_error h (by rw [hf])]; simp [h]

/-- Everything that an instruction does in a state with a clause in execution: it retires, or the clause ends. -/
theorem State.onIssue_cases {s t : State} {c : Issue} {f : State → Issue → State × Except Stop Issue}
    (h : s.issue = some c) (ht : s.onIssue f = .next t) :
    (∃ s' c', f s c = (s', .ok c') ∧ t = { s' with issue := some c'.retire }) ∨
    (∃ s' e, f s c = (s', .error e) ∧ t = s'.abandon (s'.issue.getD c) e) := by
  rcases hf : f s c with ⟨s', r⟩
  cases r with
  | ok c' => rw [State.onIssue_ok h hf] at ht; left; exact ⟨s', c', rfl, by cases ht; rfl⟩
  | error e => rw [State.onIssue_error h hf] at ht; right; exact ⟨s', e, rfl, by cases ht; rfl⟩

/-- With a clause in execution an instruction always answers a next state. -/
theorem State.onIssue_next {s : State} {c : Issue} (f : State → Issue → State × Except Stop Issue)
    (h : s.issue = some c) : ∃ t, s.onIssue f = .next t := by
  rcases hf : f s c with ⟨s', r⟩
  cases r with
  | ok c' => exact ⟨_, State.onIssue_ok h hf⟩
  | error e => exact ⟨_, State.onIssue_error h hf⟩

/-- An instruction of the mode's type is accepted when the type is supported. -/
theorem Issue.needType_ok {c x : Issue} {ok : EType → Bool} (h : ok c.ty = true) : c.needType ok x = .ok x := by
  simp [Issue.needType, h]

/-- R57. An instruction whose type the mode does not select is illegal. -/
theorem Issue.needType_error {c x : Issue} {ok : EType → Bool} (h : ok c.ty = false) :
    c.needType ok x = .error (illegal 0x05) := by
  simp [Issue.needType, h]

/-- R44, R47. The next instruction of a clause is what its words decode to, unless a register that it reads has lost its
data. -/
theorem State.nextInstr_ok {s : State} {c : Issue} {i : Instr} {rest : List W32}
    (h : decodeInstr c.words = .ok (i, rest)) (hl : c.regLoss s.dev i = none) : s.nextInstr c = .ok (i, rest) := by
  simp [State.nextInstr, h, hl]

/-- R47. The step of a clause whose checks are made, with the ageing of the other path settled, and whose next word decodes:
the instruction is executed and its words are dropped. -/
theorem stepClause_decoded {s : State} {c : Issue} {i : Instr} {rest : List W32} (hr : c.rival = false)
    (hp : c.phase ≠ .unchecked)
    (h : decodeInstr c.words = .ok (i, rest)) (hl : c.regLoss s.dev i = none) :
    stepClause s c = match exec i s with
      | .next s' => .next (s'.dropWords c i rest)
      | .fault r => .fault r
      | .refused r => .refused r := by
  have hn := State.nextInstr_ok h hl
  have hw : c.words.isEmpty = false := by
    cases hw : c.words with
    | nil => rw [hw] at h; simp [decodeInstr] at h
    | cons w ws => rfl
  cases hx : exec i s <;> simp [stepClause, hr, hp, hw, hn, hx]

/-- R49. A clause whose checks are still to be made has them made first. -/
theorem stepClause_unchecked {s : State} {c : Issue} (hr : c.rival = false) (hp : c.phase = .unchecked) :
    stepClause s c = .next (s.checkAhead c) := by
  simp [stepClause, hr, hp]

/-- R36. A clause whose start leaves open whether the other path was ready has this settled first. -/
theorem stepClause_rival {s : State} {c : Issue} (hr : c.rival = true) : stepClause s c = .next (s.settleRival c) := by
  simp [stepClause, hr]

end Sys2Proof.Machine
end

