-- ==== Sys2Proof/Laws/Lanes.lean ====
section
/-! SUPPORT. What a computation over the lanes writes: the lanes of a mask, register rows, slots, sticky flags, and the
one lemma about `Issue.compute` from which claims about arithmetic instructions follow. -/

namespace Sys2Proof.Machine

theorem mem_lanesOf {w l : Nat} {m : Lanes} : l ∈ lanesOf w m ↔ l < w ∧ m.getLsbD l = true := by
  simp [lanesOf]

/-- The result of a lane among the results of some lanes. -/
theorem lookup_map_lanes {β : Type} (ls : List Nat) (g : Nat → β) (l : Nat) :
    (ls.map (fun x => (x, g x))).lookup l = if l ∈ ls then some (g l) else none := by
  induction ls with
  | nil => simp
  | cons x r ih =>
    by_cases h : l = x
    · subst h; simp
    · have hb : (l == x) = false := by simpa using h
      simp [List.lookup, hb, ih, h]

/-- The results of a computation on some lanes, without the flags. -/
theorem bare_onLanes (w : Nat) (m : Lanes) (f : Nat → Nat × FpFlags) :
    bare (onLanes w m f) = (lanesOf w m).map (fun l => (l, BitVec.ofNat 64 (f l).1)) := by
  simp [bare, onLanes]

@[simp] theorem writeRow_length (row : List W32) (rs : List (Nat × W32)) : (writeRow row rs).length = row.length := by
  simp [writeRow]

/-- A lane of a row after a write. -/
theorem writeRow_getD (row : List W32) (rs : List (Nat × W32)) (l : Nat) (h : l < row.length) :
    (writeRow row rs).getD l 0 = (rs.lookup l).getD (row.getD l 0) := by
  simp [writeRow, List.getD_eq_getElem?_getD, h]

@[simp] theorem writeRows_length (rows : List (List W32)) (wide : Bool) (n : Nat) (rs : List (Nat × W64)) :
    (writeRows rows wide n rs).length = rows.length := by
  unfold writeRows; cases wide <;> simp

/-- The rows that a write does not name. -/
theorem writeRows_other (rows : List (List W32)) (wide : Bool) (n m : Nat) (rs : List (Nat × W64)) (h : m ≠ n)
    (h' : wide = true → m ≠ n + 1) : (writeRows rows wide n rs).getD m [] = rows.getD m [] := by
  unfold writeRows
  cases wide
  · simp [List.getD_eq_getElem?_getD, Ne.symm h]
  · have := h' rfl
    simp [List.getD_eq_getElem?_getD, Ne.symm h, Ne.symm this]

theorem lookup_map_snd {α β : Type} (rs : List (Nat × α)) (g : α → β) (l : Nat) :
    (rs.map (fun p => (p.1, g p.2))).lookup l = (rs.lookup l).map g := by
  induction rs with
  | nil => rfl
  | cons p r ih =>
    obtain ⟨x, y⟩ := p
    by_cases h : l = x
    · subst h; simp [List.lookup]
    · have hb : (l == x) = false := by simpa using h
      simp [List.lookup, hb, ih]

/-- The low row of a write, in a lane. -/
theorem writeRows_low (rows : List (List W32)) (wide : Bool) (n l : Nat) (rs : List (Nat × W64)) (hn : n < rows.length)
    (hl : l < (rows.getD n []).length) :
    rowElem (writeRows rows wide n rs) n l = ((rs.lookup l).map (fun x => x.extractLsb' 0 32)).getD (rowElem rows n l) := by
  have hr : (writeRows rows wide n rs).getD n [] = writeRow (rows.getD n []) (rs.map (fun p => (p.1, p.2.extractLsb' 0 32))) := by
    unfold writeRows
    cases wide <;> simp [List.getD_eq_getElem?_getD, hn]
  unfold rowElem
  rw [hr, writeRow_getD _ _ _ hl, lookup_map_snd]

/-- The high row of a write of pairs, in a lane. -/
theorem writeRows_high (rows : List (List W32)) (n l : Nat) (rs : List (Nat × W64)) (hn : n + 1 < rows.length)
    (hl : l < (rows.getD (n + 1) []).length) :
    rowElem (writeRows rows true n rs) (n + 1) l =
      ((rs.lookup l).map (fun x => x.extractLsb' 32 32)).getD (rowElem rows (n + 1) l) := by
  have hr : (writeRows rows true n rs).getD (n + 1) [] =
      writeRow (rows.getD (n + 1) []) (rs.map (fun p => (p.1, p.2.extractLsb' 32 32))) := by
    simp [writeRows, List.getD_eq_getElem?_getD, hn]
  unfold rowElem
  rw [hr, writeRow_getD _ _ _ hl, lookup_map_snd]

theorem rows_getD_length {rows : List (List W32)} {w n : Nat} (hn : n < rows.length)
    (h : ∀ r ∈ rows, r.length = w) : (rows.getD n []).length = w := by
  simp only [List.getD_eq_getElem?_getD, List.getElem?_eq_getElem hn, Option.getD_some]
  exact h _ (List.getElem_mem hn)

/-- Register rows after a write of the values of some lanes. -/
theorem writeRows_wrote (width : Nat) (rows : List (List W32)) (wide : Bool) (n : Nat) (m : Lanes) (g : Nat → Nat)
    (hn : n + wide.toNat < rows.length) (h : ∀ r ∈ rows, r.length = width) :
    wroteRows width rows (writeRows rows wide n ((lanesOf width m).map (fun l => (l, BitVec.ofNat 64 (g l))))) wide n m g := by
  refine ⟨writeRows_length _ _ _ _, fun k h1 h2 => writeRows_other _ _ _ _ _ h1 h2, ?_⟩
  intro l hl
  have hlow := rows_getD_length (n := n) (by omega) h
  cases wide with
  | false =>
    simp only [rowsRead, Bool.false_eq_true, if_false]
    rw [writeRows_low _ _ _ _ _ (by simpa using hn) (by omega), lookup_map_lanes]
    by_cases hm : m.getLsbD l = true
    · simp [mem_lanesOf, hl, hm, BitVec.extractLsb'_toNat]
    · simp [mem_lanesOf, hm]
  | true =>
    have hhigh := rows_getD_length (n := n + 1) (by simpa using hn) h
    simp only [rowsRead, if_true]
    rw [writeRows_low _ _ _ _ _ (by simp at hn; omega) (by omega), writeRows_high _ _ _ _ (by simpa using hn) (by omega),
      lookup_map_lanes]
    by_cases hm : m.getLsbD l = true
    · have he : ∀ x : W64, (x.extractLsb' 32 32 ++ x.extractLsb' 0 32 : BitVec 64) = x := by
        intro x
        apply BitVec.eq_of_getLsbD_eq
        intro i hi
        simp only [BitVec.getLsbD_append, BitVec.getLsbD_extractLsb']
        by_cases h32 : i < 32
        · simp [h32]
        · have : i - 32 < 32 := by omega
          simp [h32, this]
          congr 1; omega
      simp [mem_lanesOf, hl, hm, he]
    · simp [mem_lanesOf, hm]

/-- The flags of the real lanes of some results. -/
theorem realFlags_getLsbD (real : Lanes) (rs : List LaneResult) (b : Nat) :
    (realFlags real rs).getLsbD b = true ↔ ∃ r ∈ rs, real.getLsbD r.1 = true ∧ r.2.2.getLsbD b = true := by
  have key : ∀ (rs : List LaneResult) (a : FpFlags),
      (rs.foldl (fun a r => if real.getLsbD r.1 then a ||| r.2.2 else a) a).getLsbD b = true ↔
        a.getLsbD b = true ∨ ∃ r ∈ rs, real.getLsbD r.1 = true ∧ r.2.2.getLsbD b = true := by
    intro rs
    induction rs with
    | nil => simp
    | cons r rs ih =>
      intro a
      rw [List.foldl_cons, ih]
      by_cases h : real.getLsbD r.1 = true <;> simp [h, or_assoc]
  rw [realFlags, key]; simp

/-- R7, R55, R94. What an arithmetic computation leaves of a clause, once it has retired. -/
theorem Issue.computeAs_wrote (c : Issue) (d : Operand) (wide signed : Bool) (f : Nat → Nat × FpFlags)
    (h : c.hasDst wide d) : c.wroteAs (c.computeAs d wide signed f).retire d wide signed f := by
  have hflags : ∀ b, (realFlags c.wave.real (onLanes c.wave.width c.active f)).getLsbD b = true ↔
      ∃ l, l < c.wave.width ∧ c.active.getLsbD l = true ∧ c.wave.real.getLsbD l = true ∧ (f l).2.getLsbD b = true := by
    intro b
    rw [realFlags_getLsbD]
    constructor
    · rintro ⟨r, hr, h1, h2⟩
      simp only [onLanes, List.mem_map] at hr
      obtain ⟨l, hl, rfl⟩ := hr
      exact ⟨l, (mem_lanesOf.1 hl).1, (mem_lanesOf.1 hl).2, h1, h2⟩
    · rintro ⟨l, h1, h2, h3, h4⟩
      exact ⟨(l, (BitVec.ofNat 64 (f l).1, (f l).2)), by
        simp only [onLanes, List.mem_map]; exact ⟨l, mem_lanesOf.2 ⟨h1, h2⟩, rfl⟩, h3, h4⟩
  cases d with
  | v n =>
    refine ⟨_, hflags, rfl, rfl, rfl, ?_⟩
    simp only [Issue.computeAs, bare_onLanes]
    exact writeRows_wrote _ _ _ _ _ (fun l => (f l).1) h.1 h.2
  | x n =>
    refine ⟨_, hflags, rfl, rfl, rfl, ?_⟩
    simp only [Issue.computeAs, bare_onLanes]
    exact writeRows_wrote _ _ _ _ _ (fun l => (f l).1) h.1 h.2
  | k n => exact ⟨(f 0).2, fun b => Iff.rfl, rfl, rfl, rfl, rfl⟩
  | _ => exact absurd h (by simp [Issue.hasDst])

/-- R55, R57. The same for results of the mode's type. -/
theorem Issue.compute_wrote (c : Issue) (d : Operand) (wide : Bool) (f : Nat → Nat × FpFlags) (h : c.hasDst wide d) :
    c.wrote (c.compute d wide f).retire d wide f := c.computeAs_wrote d wide c.ty.signed f h

theorem slot_sum_lt (w : Nat) (n : Nat) (g : Nat → Nat) (h : ∀ j, g j < 2 ^ w) :
    (List.range n).foldl (fun acc j => acc + g j * 2 ^ (w * j)) 0 < 2 ^ (w * n) := by
  induction n with
  | zero => simp
  | succ n ih =>
    rw [List.range_succ, List.foldl_append]
    simp only [List.foldl_cons, List.foldl_nil]
    have h1 := h n
    calc _ < 2 ^ (w * n) + g n * 2 ^ (w * n) := by omega
      _ = (1 + g n) * 2 ^ (w * n) := by ring
      _ ≤ 2 ^ w * 2 ^ (w * n) := Nat.mul_le_mul_right _ (by omega)
      _ = 2 ^ (w * (n + 1)) := by rw [← pow_add]; ring_nf

theorem slot_sum_div (w : Nat) (n : Nat) (g : Nat → Nat) (h : ∀ j, g j < 2 ^ w) (j : Nat) (hj : j < n) :
    (List.range n).foldl (fun acc j => acc + g j * 2 ^ (w * j)) 0 / 2 ^ (w * j) % 2 ^ w = g j := by
  induction n with
  | zero => omega
  | succ n ih =>
    rw [List.range_succ, List.foldl_append]
    simp only [List.foldl_cons, List.foldl_nil]
    have hlt := slot_sum_lt w n g h
    generalize List.foldl (fun acc j => acc + g j * 2 ^ (w * j)) 0 (List.range n) = s at *
    have hp : 0 < 2 ^ (w * j) := by positivity
    by_cases hjn : j = n
    · subst hjn
      rw [Nat.add_mul_div_right _ _ hp, Nat.div_eq_of_lt hlt, Nat.zero_add, Nat.mod_eq_of_lt (h j)]
    · have hj' : j < n := by omega
      have hsplit : 2 ^ (w * n) = 2 ^ (w * (n - j - 1)) * 2 ^ w * 2 ^ (w * j) := by
        rw [← pow_add, ← pow_add]; congr 1
        have : n = (n - j - 1) + 1 + j := by omega
        nth_rewrite 1 [this]; ring
      rw [hsplit, show g n * (2 ^ (w * (n - j - 1)) * 2 ^ w * 2 ^ (w * j)) = (g n * 2 ^ (w * (n - j - 1)) * 2 ^ w) * 2 ^ (w * j) by ring,
        Nat.add_mul_div_right _ _ hp, Nat.add_mul_mod_self_right]
      exact ih hj'

/-- R83, R110. An element computed slot by slot. -/
theorem mapSlots_slotwise (t : EType) (f : Nat → Nat × FpFlags) : slotwise t (mapSlots t f) f := by
  have key : ∀ (ls : List Nat) (a : Nat) (b : FpFlags),
      ls.foldl (fun acc j => (acc.1 + (f j).1 % 2 ^ t.bits * 2 ^ (t.bits * j), acc.2 ||| (f j).2)) (a, b) =
        (ls.foldl (fun acc j => acc + (f j).1 % 2 ^ t.bits * 2 ^ (t.bits * j)) a, ls.foldl (fun acc j => acc ||| (f j).2) b) := by
    intro ls
    induction ls with
    | nil => simp
    | cons x r ih => intro a b; simp only [List.foldl_cons]; exact ih _ _
  have hlt : ∀ j, (f j).1 % 2 ^ t.bits < 2 ^ t.bits := fun j => Nat.mod_lt _ (by positivity)
  unfold mapSlots
  rw [key]
  refine ⟨slot_sum_lt _ _ (fun j => (f j).1 % 2 ^ t.bits) hlt, fun j hj => slot_sum_div _ _ (fun j => (f j).1 % 2 ^ t.bits) hlt j hj, ?_⟩
  intro b
  have hor : ∀ (ls : List Nat) (a : FpFlags), (ls.foldl (fun acc j => acc ||| (f j).2) a).getLsbD b = true ↔
      a.getLsbD b = true ∨ ∃ j ∈ ls, (f j).2.getLsbD b = true := by
    intro ls
    induction ls with
    | nil => simp
    | cons x r ih => intro a; rw [List.foldl_cons, ih]; simp [or_assoc]
  simp only [hor]; simp

end Sys2Proof.Machine
end

