-- ==== Sys2Proof/Laws/Forms.lean ====
section
/-! SUPPORT. How a statement about a family of arithmetic instructions follows from their meaning: one lemma for each
form. -/

namespace Sys2Proof.Spec

open Sys2Proof.Machine

/-- R110. An arithmetic instruction of an unsupported type. -/
theorem refusesType_of_needType {ok : EType → Bool} {i : Instr} {f : Issue → Issue}
    (h : ∀ s, exec i s = s.onClause (fun c => c.needType ok (f c))) : refusesType ok i := by
  intro s c hc hok
  rw [h]
  exact State.onClause_error hc (Issue.needType_error hok)

/-- The claim about a lane by lane instruction, from its meaning. -/
theorem lanewise_of_alu {ok ok' : EType → Bool} {wide : Issue → Bool} {mk : Operand → Instr} {f f' : Issue → Nat → Nat × FpFlags}
    (h : ∀ d s, exec (mk d) s = s.onClause (fun c => c.alu ok' d (wide c) (f' c)))
    (hok : ∀ t, ok t = ok' t) (hf : ∀ c l, ok c.ty = true → f' c l = f c l) : lanewise ok wide mk f := by
  have : ok = ok' := funext hok
  subst this
  intro d
  refine ⟨refusesType_of_needType (h d), fun s c hc ht hd => ?_⟩
  rw [h]
  refine ⟨_, State.onClause_ok hc (Issue.needType_ok ht), ?_⟩
  have : f' c = f c := funext (fun l => hf c l ht)
  rw [this]
  exact Issue.compute_wrote c d _ _ hd

/-- The claim about a slot by slot instruction of one source, from its meaning. -/
theorem slotwise1_of_alu {ok ok' : EType → Bool} {mk : Operand → Operand → Instr} {g g' : Issue → Nat → Nat × FpFlags}
    (h : ∀ d a s, exec (mk d a) s = s.onClause (fun c => c.alu ok' d c.ty.wide (c.slots1 a (g' c))))
    (hok : ∀ t, ok t = ok' t)
    (hg : ∀ c x, ok c.ty = true → x < 2 ^ c.ty.bits →
      (g' c x).1 % 2 ^ c.ty.bits = (g c x).1 % 2 ^ c.ty.bits ∧ (g' c x).2 = (g c x).2) :
    slotwise1 ok mk g := by
  have : ok = ok' := funext hok
  subst this
  intro d a
  refine ⟨refusesType_of_needType (h d a), fun s c hc ht hd => ?_⟩
  rw [h]
  refine ⟨_, _, State.onClause_ok hc (Issue.needType_ok ht), Issue.compute_wrote c d _ _ hd, fun l => ?_⟩
  have hs := mapSlots_slotwise c.ty (fun j => g' c (slotOf c.ty (c.arg a l) j))
  have hlt : ∀ j, slotOf c.ty (c.arg a l) j < 2 ^ c.ty.bits := fun j => Nat.mod_lt _ (by positivity)
  refine ⟨hs.1, fun j hj => (hs.2.1 j hj).trans (hg c _ ht (hlt j)).1, fun b => (hs.2.2 b).trans ?_⟩
  simp only [(hg c _ ht (hlt _)).2]

/-- The claim about a slot by slot instruction of two sources, from its meaning. -/
theorem slotwise2_of_alu {ok ok' : EType → Bool} {mk : Operand → Operand → Operand → Instr} {g g' : Issue → Nat → Nat → Nat × FpFlags}
    (h : ∀ d a b s, exec (mk d a b) s = s.onClause (fun c => c.alu ok' d c.ty.wide (c.slots2 a b (g' c))))
    (hok : ∀ t, ok t = ok' t)
    (hg : ∀ c x y, ok c.ty = true → x < 2 ^ c.ty.bits → y < 2 ^ c.ty.bits →
      (g' c x y).1 % 2 ^ c.ty.bits = (g c x y).1 % 2 ^ c.ty.bits ∧ (g' c x y).2 = (g c x y).2) :
    slotwise2 ok mk g := by
  have : ok = ok' := funext hok
  subst this
  intro d a b
  refine ⟨refusesType_of_needType (h d a b), fun s c hc ht hd => ?_⟩
  rw [h]
  refine ⟨_, _, State.onClause_ok hc (Issue.needType_ok ht), Issue.compute_wrote c d _ _ hd, fun l => ?_⟩
  have hs := mapSlots_slotwise c.ty (fun j => g' c (slotOf c.ty (c.arg a l) j) (slotOf c.ty (c.arg b l) j))
  have hlt : ∀ o j, slotOf c.ty (c.arg o l) j < 2 ^ c.ty.bits := fun o j => Nat.mod_lt _ (by positivity)
  refine ⟨hs.1, fun j hj => (hs.2.1 j hj).trans (hg c _ _ ht (hlt a j) (hlt b j)).1, fun b => (hs.2.2 b).trans ?_⟩
  simp only [(hg c _ _ ht (hlt _ _) (hlt _ _)).2]

/-- The claim about a slot by slot instruction of three sources, from its meaning. -/
theorem slotwise3_of_alu {ok ok' : EType → Bool} {mk : Operand → Operand → Operand → Instr} {g g' : Issue → Nat → Nat → Nat → Nat × FpFlags}
    (h : ∀ d a b s, exec (mk d a b) s = s.onClause (fun c => c.alu ok' d c.ty.wide (c.slots3 d a b (g' c))))
    (hok : ∀ t, ok t = ok' t)
    (hg : ∀ c z x y, ok c.ty = true → z < 2 ^ c.ty.bits → x < 2 ^ c.ty.bits → y < 2 ^ c.ty.bits →
      (g' c z x y).1 % 2 ^ c.ty.bits = (g c z x y).1 % 2 ^ c.ty.bits ∧ (g' c z x y).2 = (g c z x y).2) :
    slotwise3 ok mk g := by
  have : ok = ok' := funext hok
  subst this
  intro d a b
  refine ⟨refusesType_of_needType (h d a b), fun s c hc ht hd => ?_⟩
  rw [h]
  refine ⟨_, _, State.onClause_ok hc (Issue.needType_ok ht), Issue.compute_wrote c d _ _ hd, fun l => ?_⟩
  have hs := mapSlots_slotwise c.ty (fun j => g' c (slotOf c.ty (c.arg d l) j) (slotOf c.ty (c.arg a l) j) (slotOf c.ty (c.arg b l) j))
  have hlt : ∀ o j, slotOf c.ty (c.arg o l) j < 2 ^ c.ty.bits := fun o j => Nat.mod_lt _ (by positivity)
  refine ⟨hs.1, fun j hj => (hs.2.1 j hj).trans (hg c _ _ _ ht (hlt d j) (hlt a j) (hlt b j)).1, fun b => (hs.2.2 b).trans ?_⟩
  simp only [(hg c _ _ _ ht (hlt _ _) (hlt _ _) (hlt _ _)).2]

end Sys2Proof.Spec
end

