-- ==== Sys2Proof/Laws/Memory.lean ====
section
/-! SUPPORT. The laws of the byte-addressed memory: the canonical form, read after write, and equality by reads. -/

namespace Sys2Proof.Machine

/-- The canonical form without its nesting: a memory whose first cell lies beyond a bound. -/
theorem Memory.wf_cons (a : Nat) (b : Byte) (r : Memory) :
    Memory.wf ((a, b) :: r) = true ↔ b ≠ 0 ∧ (∀ p ∈ r.head?, a < p.1) ∧ Memory.wf r = true := by
  cases r with
  | nil => simp [Memory.wf]
  | cons p q => obtain ⟨x, y⟩ := p; simp [Memory.wf, and_assoc]

@[simp] theorem Memory.wf_nil : Memory.wf [] = true := rfl

theorem Memory.wf_tail {p : Host.Cell} {r : Memory} (h : Memory.wf (p :: r) = true) : Memory.wf r = true :=
  ((Memory.wf_cons p.1 p.2 r).1 h).2.2

/-- A cell of the rest lies beyond the first. -/
theorem Memory.lt_of_wf {a : Nat} {b : Byte} {r : Memory} (h : Memory.wf ((a, b) :: r) = true) :
    ∀ p ∈ r, a < p.1 := by
  induction r generalizing a b with
  | nil => simp
  | cons q r ih =>
    obtain ⟨x, y⟩ := q
    have h1 := (Memory.wf_cons _ _ _).1 h
    have hx : a < x := h1.2.1 _ rfl
    intro p hp
    rcases List.mem_cons.1 hp with rfl | hp
    · exact hx
    · exact lt_trans hx (ih h1.2.2 p hp)

/-- The first address of a write's result is the written one or the old first one. -/
theorem Memory.write_head {m : Memory} {a : Nat} {b : Byte} {l : Nat} (h : ∀ p ∈ m.head?, l < p.1) (ha : l < a) (hw : m.wf = true) :
    ∀ p ∈ (m.write a b).head?, l < p.1 := by
  cases m with
  | nil => unfold Memory.write; split <;> simp_all
  | cons q r =>
    obtain ⟨x, y⟩ := q
    have hx : l < x := h _ rfl
    unfold Memory.write
    split
    · split <;> simp_all
    · split
      · split
        · intro p hp
          have := Memory.lt_of_wf hw p (List.mem_of_mem_head? hp)
          omega
        · simp_all
      · simp_all

/-- A write keeps the canonical form. -/
theorem Memory.write_wf {m : Memory} (a : Nat) (b : Byte) (h : m.wf = true) : (m.write a b).wf = true := by
  induction m with
  | nil => unfold Memory.write; split <;> simp_all [Memory.wf]
  | cons q r ih =>
    obtain ⟨x, y⟩ := q
    have h1 := (Memory.wf_cons _ _ _).1 h
    unfold Memory.write
    split
    · split
      · exact h
      · exact (Memory.wf_cons _ _ _).2 ⟨by assumption, by simpa, h⟩
    · split
      · split
        · exact h1.2.2
        · next hb =>
          refine (Memory.wf_cons _ _ _).2 ⟨hb, ?_, h1.2.2⟩
          subst_vars; exact h1.2.1
      · exact (Memory.wf_cons _ _ _).2 ⟨h1.1, Memory.write_head h1.2.1 (by omega) h1.2.2, ih h1.2.2⟩

/-- A write of bytes keeps the canonical form. -/
theorem Memory.writeN_wf {m : Memory} (a : Nat) (bs : List Byte) (h : m.wf = true) : (m.writeN a bs).wf = true := by
  induction bs generalizing m a with
  | nil => exact h
  | cons b r ih => exact ih (a + 1) (Memory.write_wf a b h)

@[simp] theorem Memory.read_nil (a : Nat) : Memory.read [] a = 0 := rfl

/-- An address below every listed one reads as zero. -/
theorem Memory.read_of_lt {m : Memory} {a : Nat} (h : ∀ p ∈ m, a < p.1) : m.read a = 0 := by
  induction m with
  | nil => rfl
  | cons q r ih =>
    have hq : a < q.1 := h q (by simp)
    simp only [Memory.read, Nat.ne_of_gt hq, if_false]
    exact ih (fun p hp => h p (by simp [hp]))

/-- Read after write at the same address. -/
theorem Memory.read_write_same {m : Memory} (a : Nat) (b : Byte) (h : m.wf = true) : (m.write a b).read a = b := by
  induction m with
  | nil => unfold Memory.write; split <;> simp_all [Memory.read]
  | cons q r ih =>
    obtain ⟨x, y⟩ := q
    unfold Memory.write
    split
    · next hl =>
      split
      · next hb =>
        subst hb
        exact Memory.read_of_lt (fun p hp => by
          rcases List.mem_cons.1 hp with rfl | hp
          · exact hl
          · exact lt_trans hl (Memory.lt_of_wf h p hp))
      · simp [Memory.read]
    · split
      · split
        · next he hb => subst hb; subst he; exact Memory.read_of_lt (Memory.lt_of_wf h)
        · simp [Memory.read]
      · next hne => simp [Memory.read, Ne.symm hne, ih (Memory.wf_tail h)]

/-- A write leaves every other address alone. -/
theorem Memory.read_write_other {m : Memory} {a c : Nat} (b : Byte) (h : c ≠ a) : (m.write a b).read c = m.read c := by
  induction m with
  | nil => unfold Memory.write; split <;> simp [Memory.read, Ne.symm h]
  | cons q r ih =>
    obtain ⟨x, y⟩ := q
    unfold Memory.write
    split
    · split <;> simp [Memory.read, Ne.symm h]
    · split
      · next he => subst he; split <;> simp [Memory.read, Ne.symm h]
      · simp [Memory.read, ih]

/-- A write of bytes leaves every address outside them alone. -/
theorem Memory.read_writeN_other {m : Memory} {a c : Nat} (bs : List Byte) (h : c < a ∨ a + bs.length ≤ c) :
    (m.writeN a bs).read c = m.read c := by
  induction bs generalizing m a with
  | nil => rfl
  | cons b r ih =>
    simp only [List.length_cons] at h
    simp only [Memory.writeN]
    rw [ih (by omega), Memory.read_write_other b (by omega)]

/-- Read after a write of bytes. -/
theorem Memory.read_writeN_same {m : Memory} (a i : Nat) (bs : List Byte) (h : m.wf = true) (hi : i < bs.length) :
    (m.writeN a bs).read (a + i) = bs[i] := by
  induction bs generalizing m a i with
  | nil => simp at hi
  | cons b r ih =>
    simp only [Memory.writeN]
    cases i with
    | zero => rw [Memory.read_writeN_other _ (by omega)]; simpa using Memory.read_write_same a b h
    | succ i =>
      rw [show a + (i + 1) = a + 1 + i by omega, ih (a + 1) i (Memory.write_wf a b h) (by simpa using hi)]; simp

/-- The bytes just written are read back. -/
theorem Memory.readN_writeN {m : Memory} (a : Nat) (bs : List Byte) (h : m.wf = true) :
    (m.writeN a bs).readN a bs.length = bs := by
  apply List.ext_getElem
  · simp [Memory.readN]
  · intro i h1 h2; simpa [Memory.readN] using Memory.read_writeN_same a i bs h h2

/-- Canonical memories that read alike are equal. -/
theorem Memory.ext_of_read {m n : Memory} (hm : m.wf = true) (hn : n.wf = true) (h : ∀ a, m.read a = n.read a) :
    m = n := by
  induction m generalizing n with
  | nil =>
    cases n with
    | nil => rfl
    | cons q r => have := h q.1; simp [Memory.read] at this; exact absurd this.symm ((Memory.wf_cons q.1 q.2 r).1 hn).1
  | cons p m ih =>
    obtain ⟨a, b⟩ := p
    have hp := (Memory.wf_cons _ _ _).1 hm
    cases n with
    | nil => have := h a; simp [Memory.read] at this; exact absurd this hp.1
    | cons q n =>
      obtain ⟨c, d⟩ := q
      have hq := (Memory.wf_cons _ _ _).1 hn
      have hac : a = c := by
        rcases Nat.lt_trichotomy a c with hl | he | hl
        · have h0 := h a
          rw [Memory.read_of_lt (m := (c, d) :: n) (fun p hp => by
            rcases List.mem_cons.1 hp with rfl | hp
            · exact hl
            · exact lt_trans hl (Memory.lt_of_wf hn p hp))] at h0
          simp [Memory.read] at h0; exact absurd h0 hp.1
        · exact he
        · have h0 := h c
          rw [Memory.read_of_lt (m := (a, b) :: m) (fun p hp => by
            rcases List.mem_cons.1 hp with rfl | hp
            · exact hl
            · exact lt_trans hl (Memory.lt_of_wf hm p hp))] at h0
          simp [Memory.read] at h0; exact absurd h0.symm hq.1
      subst hac
      have hbd : b = d := by have := h a; simpa [Memory.read] using this
      subst hbd
      rw [ih hp.2.2 hq.2.2 (fun e => by
        by_cases he : a = e
        · subst he
          rw [Memory.read_of_lt (Memory.lt_of_wf hm), Memory.read_of_lt (Memory.lt_of_wf hn)]
        · have := h e; simpa [Memory.read, he] using this)]

/-- A memory is canonical when its cells are pairwise rising and none is zero. -/
theorem Memory.wf_iff (m : Memory) :
    m.wf = true ↔ m.Pairwise (fun p q => p.1 < q.1) ∧ ∀ p ∈ m, p.2 ≠ 0 := by
  induction m with
  | nil => simp
  | cons q r ih =>
    obtain ⟨x, y⟩ := q
    constructor
    · intro h
      have h1 := (Memory.wf_cons _ _ _).1 h
      have h2 := ih.1 h1.2.2
      refine ⟨List.pairwise_cons.2 ⟨Memory.lt_of_wf h, h2.1⟩, ?_⟩
      intro p hp
      rcases List.mem_cons.1 hp with rfl | hp
      · exact h1.1
      · exact h2.2 p hp
    · rintro ⟨h1, h2⟩
      have h3 := List.pairwise_cons.1 h1
      exact (Memory.wf_cons _ _ _).2 ⟨h2 (x, y) (by simp), fun p hp => h3.1 p (List.mem_of_mem_head? hp),
        ih.2 ⟨h3.2, fun p hp => h2 p (by simp [hp])⟩⟩

/-- Clearing a range keeps the canonical form. -/
theorem Memory.clearRange_wf {m : Memory} (a n : Nat) (h : m.wf = true) : (m.clearRange a n).wf = true := by
  rw [Memory.wf_iff] at *
  exact ⟨h.1.filter _, fun p hp => h.2 p (List.mem_of_mem_filter hp)⟩

/-- Copying a range keeps the canonical form. -/
theorem Memory.copyRange_wf {m : Memory} (src dst n : Nat) (h : m.wf = true) : (m.copyRange src dst n).wf = true := by
  unfold Memory.copyRange
  generalize m.filter _ = l
  have h0 := Memory.clearRange_wf dst n h
  revert h0
  generalize m.clearRange dst n = acc
  intro h0
  induction l generalizing acc with
  | nil => exact h0
  | cons p l ih => exact ih _ (Memory.write_wf _ _ h0)

/-- The memory of some bytes is canonical. -/
theorem Memory.ofBytes_wf (b : List Byte) : (Memory.ofBytes b).wf = true := Memory.writeN_wf 0 b rfl

end Sys2Proof.Machine
end

