-- ==== Sys2Proof/Laws/PerInstr.lean ====
section
/-! SUPPORT. One lemma for each constructor about its encoding: the opcode of its word has a cell in the opcode map and is
not that of a clause header; an event has no word. -/

namespace Sys2Proof.Laws

/-- R42, R65. The opcode of an instruction's word has a cell in the map, and its upper five bits are not those of a
header. -/
def Encoding.Statement (i : Instr) : Prop :=
  ∀ op d a b, i.raw = some (op, d, a, b) → (fmtOf op.toNat).isSome = true ∧ op.extractLsb' 3 5 ≠ 0b11111

theorem Encoding.nop : Encoding.Statement (.nop) := by
  intro op d a b h; cases h; exact ⟨rfl, by decide⟩
theorem Encoding.mode (s : BitVec 6) (v : BitVec 16) : Encoding.Statement (.mode s v) := by
  intro op d a b h; cases h; exact ⟨rfl, by decide⟩
theorem Encoding.bra (i : BitVec 16) : Encoding.Statement (.bra i) := by
  intro op d a b h; cases h; exact ⟨rfl, by decide⟩
theorem Encoding.bif (q : BitVec 4) (i : BitVec 16) : Encoding.Statement (.bif q i) := by
  intro op d a b h; cases h; exact ⟨rfl, by decide⟩
theorem Encoding.bany (q : BitVec 4) (i : BitVec 16) : Encoding.Statement (.bany q i) := by
  intro op d a b h; cases h; exact ⟨rfl, by decide⟩
theorem Encoding.ball (q : BitVec 4) (i : BitVec 16) : Encoding.Statement (.ball q i) := by
  intro op d a b h; cases h; exact ⟨rfl, by decide⟩
theorem Encoding.join (i : BitVec 16) : Encoding.Statement (.join i) := by
  intro op d a b h; cases h; exact ⟨rfl, by decide⟩
theorem Encoding.call (k : Nat) (i : BitVec 16) : Encoding.Statement (.call k i) := by
  intro op d a b h; cases h; exact ⟨rfl, by decide⟩
theorem Encoding.ret (a : Nat) : Encoding.Statement (.ret a) := by
  intro op d a b h; cases h; exact ⟨rfl, by decide⟩
theorem Encoding.loop (a : Nat) (n : BitVec 8) : Encoding.Statement (.loop a n) := by
  intro op d a b h; cases h; exact ⟨rfl, by decide⟩
theorem Encoding.lbrk (q : BitVec 4) : Encoding.Statement (.lbrk q) := by
  intro op d a b h; cases h; exact ⟨rfl, by decide⟩
theorem Encoding.wcnt (p : BitVec 2) (a : Nat) : Encoding.Statement (.wcnt p a) := by
  intro op d a b h; cases h; exact ⟨rfl, by decide⟩
theorem Encoding.trig : Encoding.Statement (.trig) := by
  intro op d a b h; cases h; exact ⟨rfl, by decide⟩
theorem Encoding.bar (s : Bool) (n : BitVec 4) : Encoding.Statement (.bar s n) := by
  intro op d a b h; cases h; exact ⟨rfl, by decide⟩
theorem Encoding.exit : Encoding.Statement (.exit) := by
  intro op d a b h; cases h; exact ⟨rfl, by decide⟩
theorem Encoding.trap (c : BitVec 16) : Encoding.Statement (.trap c) := by
  intro op d a b h; cases h; exact ⟨rfl, by decide⟩
theorem Encoding.brk (c : BitVec 16) : Encoding.Statement (.brk c) := by
  intro op d a b h; cases h; exact ⟨rfl, by decide⟩
theorem Encoding.sysrd (d : Operand) (n : SpecialReg) : Encoding.Statement (.sysrd d n) := by
  intro op d a b h; cases h; exact ⟨rfl, by decide⟩
theorem Encoding.syswr (a : Operand) (n : SpecialReg) : Encoding.Statement (.syswr a n) := by
  intro op d a b h; cases h; exact ⟨rfl, by decide⟩
theorem Encoding.yield : Encoding.Statement (.yield) := by
  intro op d a b h; cases h; exact ⟨rfl, by decide⟩
theorem Encoding.wset (s : BitVec 2) : Encoding.Statement (.wset s) := by
  intro op d a b h; cases h; exact ⟨rfl, by decide⟩
theorem Encoding.wchk (s : BitVec 2) (i : BitVec 16) : Encoding.Statement (.wchk s i) := by
  intro op d a b h; cases h; exact ⟨rfl, by decide⟩
theorem Encoding.bsa (k : Nat) (i : BitVec 16) : Encoding.Statement (.bsa k i) := by
  intro op d a b h; cases h; exact ⟨rfl, by decide⟩
theorem Encoding.sal (d : Operand) (a : Operand) : Encoding.Statement (.sal d a) := by
  intro op d a b h; cases h; exact ⟨rfl, by decide⟩
theorem Encoding.spcfg (a : Nat) : Encoding.Statement (.spcfg a) := by
  intro op d a b h; cases h; exact ⟨rfl, by decide⟩
theorem Encoding.clk (d : Operand) : Encoding.Statement (.clk d) := by
  intro op d a b h; cases h; exact ⟨rfl, by decide⟩
theorem Encoding.cond (a : Operand) (b : Operand) : Encoding.Statement (.cond a b) := by
  intro op d a b h; cases h; exact ⟨rfl, by decide⟩
theorem Encoding.enq (a : Operand) (b : Operand) : Encoding.Statement (.enq a b) := by
  intro op d a b h; cases h; exact ⟨rfl, by decide⟩
theorem Encoding.add (d : Operand) (a : Operand) (b : Operand) : Encoding.Statement (.add d a b) := by
  intro op d a b h; cases h; exact ⟨rfl, by decide⟩
theorem Encoding.sub (d : Operand) (a : Operand) (b : Operand) : Encoding.Statement (.sub d a b) := by
  intro op d a b h; cases h; exact ⟨rfl, by decide⟩
theorem Encoding.addc (d : Operand) (a : Operand) (b : Operand) : Encoding.Statement (.addc d a b) := by
  intro op d a b h; cases h; exact ⟨rfl, by decide⟩
theorem Encoding.subb (d : Operand) (a : Operand) (b : Operand) : Encoding.Statement (.subb d a b) := by
  intro op d a b h; cases h; exact ⟨rfl, by decide⟩
theorem Encoding.mul (d : Operand) (a : Operand) (b : Operand) : Encoding.Statement (.mul d a b) := by
  intro op d a b h; cases h; exact ⟨rfl, by decide⟩
theorem Encoding.mulh (d : Operand) (a : Operand) (b : Operand) : Encoding.Statement (.mulh d a b) := by
  intro op d a b h; cases h; exact ⟨rfl, by decide⟩
theorem Encoding.mulw (d : Operand) (a : Operand) (b : Operand) : Encoding.Statement (.mulw d a b) := by
  intro op d a b h; cases h; exact ⟨rfl, by decide⟩
theorem Encoding.mad (d : Operand) (a : Operand) (b : Operand) : Encoding.Statement (.mad d a b) := by
  intro op d a b h; cases h; exact ⟨rfl, by decide⟩
theorem Encoding.min (d : Operand) (a : Operand) (b : Operand) : Encoding.Statement (.min d a b) := by
  intro op d a b h; cases h; exact ⟨rfl, by decide⟩
theorem Encoding.max (d : Operand) (a : Operand) (b : Operand) : Encoding.Statement (.max d a b) := by
  intro op d a b h; cases h; exact ⟨rfl, by decide⟩
theorem Encoding.abs (d : Operand) (a : Operand) : Encoding.Statement (.abs d a) := by
  intro op d a b h; cases h; exact ⟨rfl, by decide⟩
theorem Encoding.neg (d : Operand) (a : Operand) : Encoding.Statement (.neg d a) := by
  intro op d a b h; cases h; exact ⟨rfl, by decide⟩
theorem Encoding.and (d : Operand) (a : Operand) (b : Operand) : Encoding.Statement (.and d a b) := by
  intro op d a b h; cases h; exact ⟨rfl, by decide⟩
theorem Encoding.or (d : Operand) (a : Operand) (b : Operand) : Encoding.Statement (.or d a b) := by
  intro op d a b h; cases h; exact ⟨rfl, by decide⟩
theorem Encoding.xor (d : Operand) (a : Operand) (b : Operand) : Encoding.Statement (.xor d a b) := by
  intro op d a b h; cases h; exact ⟨rfl, by decide⟩
theorem Encoding.andn (d : Operand) (a : Operand) (b : Operand) : Encoding.Statement (.andn d a b) := by
  intro op d a b h; cases h; exact ⟨rfl, by decide⟩
theorem Encoding.not (d : Operand) (a : Operand) : Encoding.Statement (.not d a) := by
  intro op d a b h; cases h; exact ⟨rfl, by decide⟩
theorem Encoding.shl (d : Operand) (a : Operand) (b : Operand) : Encoding.Statement (.shl d a b) := by
  intro op d a b h; cases h; exact ⟨rfl, by decide⟩
theorem Encoding.shr (d : Operand) (a : Operand) (b : Operand) : Encoding.Statement (.shr d a b) := by
  intro op d a b h; cases h; exact ⟨rfl, by decide⟩
theorem Encoding.sra (d : Operand) (a : Operand) (b : Operand) : Encoding.Statement (.sra d a b) := by
  intro op d a b h; cases h; exact ⟨rfl, by decide⟩
theorem Encoding.rotl (d : Operand) (a : Operand) (b : Operand) : Encoding.Statement (.rotl d a b) := by
  intro op d a b h; cases h; exact ⟨rfl, by decide⟩
theorem Encoding.rotr (d : Operand) (a : Operand) (b : Operand) : Encoding.Statement (.rotr d a b) := by
  intro op d a b h; cases h; exact ⟨rfl, by decide⟩
theorem Encoding.clz (d : Operand) (a : Operand) : Encoding.Statement (.clz d a) := by
  intro op d a b h; cases h; exact ⟨rfl, by decide⟩
theorem Encoding.ctz (d : Operand) (a : Operand) : Encoding.Statement (.ctz d a) := by
  intro op d a b h; cases h; exact ⟨rfl, by decide⟩
theorem Encoding.popc (d : Operand) (a : Operand) : Encoding.Statement (.popc d a) := by
  intro op d a b h; cases h; exact ⟨rfl, by decide⟩
theorem Encoding.brev (d : Operand) (a : Operand) : Encoding.Statement (.brev d a) := by
  intro op d a b h; cases h; exact ⟨rfl, by decide⟩
theorem Encoding.bfe (d : Operand) (a : Operand) (b : Operand) : Encoding.Statement (.bfe d a b) := by
  intro op d a b h; cases h; exact ⟨rfl, by decide⟩
theorem Encoding.bfi (d : Operand) (a : Operand) (b : Operand) : Encoding.Statement (.bfi d a b) := by
  intro op d a b h; cases h; exact ⟨rfl, by decide⟩
theorem Encoding.bzi (d : Operand) (a : Operand) (b : Operand) : Encoding.Statement (.bzi d a b) := by
  intro op d a b h; cases h; exact ⟨rfl, by decide⟩
theorem Encoding.bsp3 (d : Operand) (a : Operand) : Encoding.Statement (.bsp3 d a) := by
  intro op d a b h; cases h; exact ⟨rfl, by decide⟩
theorem Encoding.bcp3 (d : Operand) (a : Operand) : Encoding.Statement (.bcp3 d a) := by
  intro op d a b h; cases h; exact ⟨rfl, by decide⟩
theorem Encoding.lea (d : Operand) (a : Operand) (b : Operand) : Encoding.Statement (.lea d a b) := by
  intro op d a b h; cases h; exact ⟨rfl, by decide⟩
theorem Encoding.mov (d : Operand) (a : Operand) : Encoding.Statement (.mov d a) := by
  intro op d a b h; cases h; exact ⟨rfl, by decide⟩
theorem Encoding.dp4 (d : Operand) (a : Operand) (b : Operand) : Encoding.Statement (.dp4 d a b) := by
  intro op d a b h; cases h; exact ⟨rfl, by decide⟩
theorem Encoding.sad (d : Operand) (a : Operand) (b : Operand) : Encoding.Statement (.sad d a b) := by
  intro op d a b h; cases h; exact ⟨rfl, by decide⟩
theorem Encoding.bmsk (d : Operand) (a : Operand) (b : Operand) : Encoding.Statement (.bmsk d a b) := by
  intro op d a b h; cases h; exact ⟨rfl, by decide⟩
theorem Encoding.sat (d : Operand) (a : Operand) : Encoding.Statement (.sat d a) := by
  intro op d a b h; cases h; exact ⟨rfl, by decide⟩
theorem Encoding.csub (d : Operand) (a : Operand) (b : Operand) : Encoding.Statement (.csub d a b) := by
  intro op d a b h; cases h; exact ⟨rfl, by decide⟩
theorem Encoding.fadd (d : Operand) (a : Operand) (b : Operand) : Encoding.Statement (.fadd d a b) := by
  intro op d a b h; cases h; exact ⟨rfl, by decide⟩
theorem Encoding.fsub (d : Operand) (a : Operand) (b : Operand) : Encoding.Statement (.fsub d a b) := by
  intro op d a b h; cases h; exact ⟨rfl, by decide⟩
theorem Encoding.fmul (d : Operand) (a : Operand) (b : Operand) : Encoding.Statement (.fmul d a b) := by
  intro op d a b h; cases h; exact ⟨rfl, by decide⟩
theorem Encoding.fma (d : Operand) (a : Operand) (b : Operand) : Encoding.Statement (.fma d a b) := by
  intro op d a b h; cases h; exact ⟨rfl, by decide⟩
theorem Encoding.fms (d : Operand) (a : Operand) (b : Operand) : Encoding.Statement (.fms d a b) := by
  intro op d a b h; cases h; exact ⟨rfl, by decide⟩
theorem Encoding.fnma (d : Operand) (a : Operand) (b : Operand) : Encoding.Statement (.fnma d a b) := by
  intro op d a b h; cases h; exact ⟨rfl, by decide⟩
theorem Encoding.fmin (d : Operand) (a : Operand) (b : Operand) : Encoding.Statement (.fmin d a b) := by
  intro op d a b h; cases h; exact ⟨rfl, by decide⟩
theorem Encoding.fmax (d : Operand) (a : Operand) (b : Operand) : Encoding.Statement (.fmax d a b) := by
  intro op d a b h; cases h; exact ⟨rfl, by decide⟩
theorem Encoding.fabs (d : Operand) (a : Operand) : Encoding.Statement (.fabs d a) := by
  intro op d a b h; cases h; exact ⟨rfl, by decide⟩
theorem Encoding.fneg (d : Operand) (a : Operand) : Encoding.Statement (.fneg d a) := by
  intro op d a b h; cases h; exact ⟨rfl, by decide⟩
theorem Encoding.fcps (d : Operand) (a : Operand) (b : Operand) : Encoding.Statement (.fcps d a b) := by
  intro op d a b h; cases h; exact ⟨rfl, by decide⟩
theorem Encoding.fdiv (d : Operand) (a : Operand) (b : Operand) : Encoding.Statement (.fdiv d a b) := by
  intro op d a b h; cases h; exact ⟨rfl, by decide⟩
theorem Encoding.fsqrt (d : Operand) (a : Operand) : Encoding.Statement (.fsqrt d a) := by
  intro op d a b h; cases h; exact ⟨rfl, by decide⟩
theorem Encoding.frcp (d : Operand) (a : Operand) : Encoding.Statement (.frcp d a) := by
  intro op d a b h; cases h; exact ⟨rfl, by decide⟩
theorem Encoding.frsq (d : Operand) (a : Operand) : Encoding.Statement (.frsq d a) := by
  intro op d a b h; cases h; exact ⟨rfl, by decide⟩
theorem Encoding.fex2 (d : Operand) (a : Operand) : Encoding.Statement (.fex2 d a) := by
  intro op d a b h; cases h; exact ⟨rfl, by decide⟩
theorem Encoding.flg2 (d : Operand) (a : Operand) : Encoding.Statement (.flg2 d a) := by
  intro op d a b h; cases h; exact ⟨rfl, by decide⟩
theorem Encoding.fsnp (d : Operand) (a : Operand) : Encoding.Statement (.fsnp d a) := by
  intro op d a b h; cases h; exact ⟨rfl, by decide⟩
theorem Encoding.fcsp (d : Operand) (a : Operand) : Encoding.Statement (.fcsp d a) := by
  intro op d a b h; cases h; exact ⟨rfl, by decide⟩
theorem Encoding.ftnh (d : Operand) (a : Operand) : Encoding.Statement (.ftnh d a) := by
  intro op d a b h; cases h; exact ⟨rfl, by decide⟩
theorem Encoding.fflr (d : Operand) (a : Operand) : Encoding.Statement (.fflr d a) := by
  intro op d a b h; cases h; exact ⟨rfl, by decide⟩
theorem Encoding.fcel (d : Operand) (a : Operand) : Encoding.Statement (.fcel d a) := by
  intro op d a b h; cases h; exact ⟨rfl, by decide⟩
theorem Encoding.ftrc (d : Operand) (a : Operand) : Encoding.Statement (.ftrc d a) := by
  intro op d a b h; cases h; exact ⟨rfl, by decide⟩
theorem Encoding.frnd (d : Operand) (a : Operand) : Encoding.Statement (.frnd d a) := by
  intro op d a b h; cases h; exact ⟨rfl, by decide⟩
theorem Encoding.fldx (d : Operand) (a : Operand) (b : Operand) : Encoding.Statement (.fldx d a b) := by
  intro op d a b h; cases h; exact ⟨rfl, by decide⟩
theorem Encoding.fgtx (d : Operand) (a : Operand) : Encoding.Statement (.fgtx d a) := by
  intro op d a b h; cases h; exact ⟨rfl, by decide⟩
theorem Encoding.fcls (d : Operand) (a : Operand) : Encoding.Statement (.fcls d a) := by
  intro op d a b h; cases h; exact ⟨rfl, by decide⟩
theorem Encoding.cvd (d : Operand) (a : Operand) : Encoding.Statement (.cvd d a) := by
  intro op d a b h; cases h; exact ⟨rfl, by decide⟩
theorem Encoding.cvs (d : Operand) (a : Operand) : Encoding.Statement (.cvs d a) := by
  intro op d a b h; cases h; exact ⟨rfl, by decide⟩
theorem Encoding.cvh (d : Operand) (a : Operand) : Encoding.Statement (.cvh d a) := by
  intro op d a b h; cases h; exact ⟨rfl, by decide⟩
theorem Encoding.cvb (d : Operand) (a : Operand) : Encoding.Statement (.cvb d a) := by
  intro op d a b h; cases h; exact ⟨rfl, by decide⟩
theorem Encoding.cv8 (d : Operand) (a : Operand) : Encoding.Statement (.cv8 d a) := by
  intro op d a b h; cases h; exact ⟨rfl, by decide⟩
theorem Encoding.cv6 (d : Operand) (a : Operand) : Encoding.Statement (.cv6 d a) := by
  intro op d a b h; cases h; exact ⟨rfl, by decide⟩
theorem Encoding.cv4 (d : Operand) (a : Operand) : Encoding.Statement (.cv4 d a) := by
  intro op d a b h; cases h; exact ⟨rfl, by decide⟩
theorem Encoding.cvi (d : Operand) (a : Operand) : Encoding.Statement (.cvi d a) := by
  intro op d a b h; cases h; exact ⟨rfl, by decide⟩
theorem Encoding.cvn (d : Operand) (a : Operand) : Encoding.Statement (.cvn d a) := by
  intro op d a b h; cases h; exact ⟨rfl, by decide⟩
theorem Encoding.bsc (d : Operand) (a : Operand) : Encoding.Statement (.bsc d a) := by
  intro op d a b h; cases h; exact ⟨rfl, by decide⟩
theorem Encoding.bsq (d : Operand) (a : Operand) (b : Operand) : Encoding.Statement (.bsq d a b) := by
  intro op d a b h; cases h; exact ⟨rfl, by decide⟩
theorem Encoding.ceq (q : BitVec 4) (a : Operand) (b : Operand) : Encoding.Statement (.ceq q a b) := by
  intro op d a b h; cases h; exact ⟨rfl, by decide⟩
theorem Encoding.cne (q : BitVec 4) (a : Operand) (b : Operand) : Encoding.Statement (.cne q a b) := by
  intro op d a b h; cases h; exact ⟨rfl, by decide⟩
theorem Encoding.clt (q : BitVec 4) (a : Operand) (b : Operand) : Encoding.Statement (.clt q a b) := by
  intro op d a b h; cases h; exact ⟨rfl, by decide⟩
theorem Encoding.cle (q : BitVec 4) (a : Operand) (b : Operand) : Encoding.Statement (.cle q a b) := by
  intro op d a b h; cases h; exact ⟨rfl, by decide⟩
theorem Encoding.cgt (q : BitVec 4) (a : Operand) (b : Operand) : Encoding.Statement (.cgt q a b) := by
  intro op d a b h; cases h; exact ⟨rfl, by decide⟩
theorem Encoding.cge (q : BitVec 4) (a : Operand) (b : Operand) : Encoding.Statement (.cge q a b) := by
  intro op d a b h; cases h; exact ⟨rfl, by decide⟩
theorem Encoding.cun (q : BitVec 4) (a : Operand) (b : Operand) : Encoding.Statement (.cun q a b) := by
  intro op d a b h; cases h; exact ⟨rfl, by decide⟩
theorem Encoding.sel (d : Operand) (a : Operand) (b : Operand) : Encoding.Statement (.sel d a b) := by
  intro op d a b h; cases h; exact ⟨rfl, by decide⟩
theorem Encoding.qand (q : BitVec 4) (a : BitVec 4) (b : BitVec 4) : Encoding.Statement (.qand q a b) := by
  intro op d a b h; cases h; exact ⟨rfl, by decide⟩
theorem Encoding.qor (q : BitVec 4) (a : BitVec 4) (b : BitVec 4) : Encoding.Statement (.qor q a b) := by
  intro op d a b h; cases h; exact ⟨rfl, by decide⟩
theorem Encoding.qxor (q : BitVec 4) (a : BitVec 4) (b : BitVec 4) : Encoding.Statement (.qxor q a b) := by
  intro op d a b h; cases h; exact ⟨rfl, by decide⟩
theorem Encoding.qnot (q : BitVec 4) (a : BitVec 4) : Encoding.Statement (.qnot q a) := by
  intro op d a b h; cases h; exact ⟨rfl, by decide⟩
theorem Encoding.qmov (q : BitVec 4) (a : BitVec 4) : Encoding.Statement (.qmov q a) := by
  intro op d a b h; cases h; exact ⟨rfl, by decide⟩
theorem Encoding.qmsk (q : BitVec 4) (a : Operand) : Encoding.Statement (.qmsk q a) := by
  intro op d a b h; cases h; exact ⟨rfl, by decide⟩
theorem Encoding.qpop (d : Operand) (a : BitVec 4) : Encoding.Statement (.qpop d a) := by
  intro op d a b h; cases h; exact ⟨rfl, by decide⟩
theorem Encoding.kq (d : Nat) (a : BitVec 4) : Encoding.Statement (.kq d a) := by
  intro op d a b h; cases h; exact ⟨rfl, by decide⟩
theorem Encoding.shf (d : Operand) (a : Operand) (b : Operand) : Encoding.Statement (.shf d a b) := by
  intro op d a b h; cases h; exact ⟨rfl, by decide⟩
theorem Encoding.shx (d : Operand) (a : Operand) (b : Operand) : Encoding.Statement (.shx d a b) := by
  intro op d a b h; cases h; exact ⟨rfl, by decide⟩
theorem Encoding.shup (d : Operand) (a : Operand) (b : Operand) : Encoding.Statement (.shup d a b) := by
  intro op d a b h; cases h; exact ⟨rfl, by decide⟩
theorem Encoding.shdn (d : Operand) (a : Operand) (b : Operand) : Encoding.Statement (.shdn d a b) := by
  intro op d a b h; cases h; exact ⟨rfl, by decide⟩
theorem Encoding.qswx (d : Operand) (a : Operand) : Encoding.Statement (.qswx d a) := by
  intro op d a b h; cases h; exact ⟨rfl, by decide⟩
theorem Encoding.qswy (d : Operand) (a : Operand) : Encoding.Statement (.qswy d a) := by
  intro op d a b h; cases h; exact ⟨rfl, by decide⟩
theorem Encoding.qswd (d : Operand) (a : Operand) : Encoding.Statement (.qswd d a) := by
  intro op d a b h; cases h; exact ⟨rfl, by decide⟩
theorem Encoding.qbc (d : Operand) (a : Operand) (b : Operand) : Encoding.Statement (.qbc d a b) := by
  intro op d a b h; cases h; exact ⟨rfl, by decide⟩
theorem Encoding.cmpr (d : Operand) (a : Operand) : Encoding.Statement (.cmpr d a) := by
  intro op d a b h; cases h; exact ⟨rfl, by decide⟩
theorem Encoding.expd (d : Operand) (a : Operand) : Encoding.Statement (.expd d a) := by
  intro op d a b h; cases h; exact ⟨rfl, by decide⟩
theorem Encoding.sldu (d : Operand) (a : Operand) (b : Operand) : Encoding.Statement (.sldu d a b) := by
  intro op d a b h; cases h; exact ⟨rfl, by decide⟩
theorem Encoding.sldd (d : Operand) (a : Operand) (b : Operand) : Encoding.Statement (.sldd d a b) := by
  intro op d a b h; cases h; exact ⟨rfl, by decide⟩
theorem Encoding.mtch (d : Operand) (a : Operand) : Encoding.Statement (.mtch d a) := by
  intro op d a b h; cases h; exact ⟨rfl, by decide⟩
theorem Encoding.mtcn (d : Operand) (a : Operand) : Encoding.Statement (.mtcn d a) := by
  intro op d a b h; cases h; exact ⟨rfl, by decide⟩
theorem Encoding.radd (d : Operand) (a : Operand) : Encoding.Statement (.radd d a) := by
  intro op d a b h; cases h; exact ⟨rfl, by decide⟩
theorem Encoding.rmin (d : Operand) (a : Operand) : Encoding.Statement (.rmin d a) := by
  intro op d a b h; cases h; exact ⟨rfl, by decide⟩
theorem Encoding.rmax (d : Operand) (a : Operand) : Encoding.Statement (.rmax d a) := by
  intro op d a b h; cases h; exact ⟨rfl, by decide⟩
theorem Encoding.rbor (d : Operand) (a : Operand) : Encoding.Statement (.rbor d a) := by
  intro op d a b h; cases h; exact ⟨rfl, by decide⟩
theorem Encoding.rband (d : Operand) (a : Operand) : Encoding.Statement (.rband d a) := by
  intro op d a b h; cases h; exact ⟨rfl, by decide⟩
theorem Encoding.pfx (d : Operand) (a : Operand) : Encoding.Statement (.pfx d a) := by
  intro op d a b h; cases h; exact ⟨rfl, by decide⟩
theorem Encoding.bcl (d : Operand) (a : Operand) (b : Operand) : Encoding.Statement (.bcl d a b) := by
  intro op d a b h; cases h; exact ⟨rfl, by decide⟩
theorem Encoding.vote (d : Operand) (a : Operand) : Encoding.Statement (.vote d a) := by
  intro op d a b h; cases h; exact ⟨rfl, by decide⟩
theorem Encoding.topk (d : Operand) (a : Operand) (b : Operand) : Encoding.Statement (.topk d a b) := by
  intro op d a b h; cases h; exact ⟨rfl, by decide⟩
theorem Encoding.ffs (d : Operand) (a : Operand) : Encoding.Statement (.ffs d a) := by
  intro op d a b h; cases h; exact ⟨rfl, by decide⟩
theorem Encoding.ldg (d : Operand) (a : Operand) (b : Operand) : Encoding.Statement (.ldg d a b) := by
  intro op d a b h; cases h; exact ⟨rfl, by decide⟩
theorem Encoding.stg (d : Operand) (a : Operand) (b : Operand) : Encoding.Statement (.stg d a b) := by
  intro op d a b h; cases h; exact ⟨rfl, by decide⟩
theorem Encoding.ldgs (d : Operand) (a : Operand) (b : Operand) : Encoding.Statement (.ldgs d a b) := by
  intro op d a b h; cases h; exact ⟨rfl, by decide⟩
theorem Encoding.stsg (d : Operand) (a : Operand) (b : Operand) : Encoding.Statement (.stsg d a b) := by
  intro op d a b h; cases h; exact ⟨rfl, by decide⟩
theorem Encoding.lds (d : Operand) (a : Operand) (b : Operand) : Encoding.Statement (.lds d a b) := by
  intro op d a b h; cases h; exact ⟨rfl, by decide⟩
theorem Encoding.sts (d : Operand) (a : Operand) (b : Operand) : Encoding.Statement (.sts d a b) := by
  intro op d a b h; cases h; exact ⟨rfl, by decide⟩
theorem Encoding.ldcl (d : Operand) (a : Operand) (b : Operand) : Encoding.Statement (.ldcl d a b) := by
  intro op d a b h; cases h; exact ⟨rfl, by decide⟩
theorem Encoding.stcl (d : Operand) (a : Operand) (b : Operand) : Encoding.Statement (.stcl d a b) := by
  intro op d a b h; cases h; exact ⟨rfl, by decide⟩
theorem Encoding.ldp (d : Operand) (a : Operand) (b : Operand) : Encoding.Statement (.ldp d a b) := by
  intro op d a b h; cases h; exact ⟨rfl, by decide⟩
theorem Encoding.stp (d : Operand) (a : Operand) (b : Operand) : Encoding.Statement (.stp d a b) := by
  intro op d a b h; cases h; exact ⟨rfl, by decide⟩
theorem Encoding.ldk (d : Operand) (a : Operand) (b : Operand) : Encoding.Statement (.ldk d a b) := by
  intro op d a b h; cases h; exact ⟨rfl, by decide⟩
theorem Encoding.ldf (d : Operand) (a : Operand) (b : Operand) : Encoding.Statement (.ldf d a b) := by
  intro op d a b h; cases h; exact ⟨rfl, by decide⟩
theorem Encoding.stf (d : Operand) (a : Operand) (b : Operand) : Encoding.Statement (.stf d a b) := by
  intro op d a b h; cases h; exact ⟨rfl, by decide⟩
theorem Encoding.ldv (d : Operand) (a : Operand) (b : Operand) : Encoding.Statement (.ldv d a b) := by
  intro op d a b h; cases h; exact ⟨rfl, by decide⟩
theorem Encoding.lde (d : Operand) (a : Operand) (b : Operand) : Encoding.Statement (.lde d a b) := by
  intro op d a b h; cases h; exact ⟨rfl, by decide⟩
theorem Encoding.ldr (d : Operand) (a : Operand) (b : Operand) : Encoding.Statement (.ldr d a b) := by
  intro op d a b h; cases h; exact ⟨rfl, by decide⟩
theorem Encoding.stcn (d : Operand) (a : Operand) (b : Operand) : Encoding.Statement (.stcn d a b) := by
  intro op d a b h; cases h; exact ⟨rfl, by decide⟩
theorem Encoding.aadd (d : Operand) (a : Operand) (b : Operand) : Encoding.Statement (.aadd d a b) := by
  intro op d a b h; cases h; exact ⟨rfl, by decide⟩
theorem Encoding.afad (d : Operand) (a : Operand) (b : Operand) : Encoding.Statement (.afad d a b) := by
  intro op d a b h; cases h; exact ⟨rfl, by decide⟩
theorem Encoding.amin (d : Operand) (a : Operand) (b : Operand) : Encoding.Statement (.amin d a b) := by
  intro op d a b h; cases h; exact ⟨rfl, by decide⟩
theorem Encoding.amax (d : Operand) (a : Operand) (b : Operand) : Encoding.Statement (.amax d a b) := by
  intro op d a b h; cases h; exact ⟨rfl, by decide⟩
theorem Encoding.aand (d : Operand) (a : Operand) (b : Operand) : Encoding.Statement (.aand d a b) := by
  intro op d a b h; cases h; exact ⟨rfl, by decide⟩
theorem Encoding.aor (d : Operand) (a : Operand) (b : Operand) : Encoding.Statement (.aor d a b) := by
  intro op d a b h; cases h; exact ⟨rfl, by decide⟩
theorem Encoding.axor (d : Operand) (a : Operand) (b : Operand) : Encoding.Statement (.axor d a b) := by
  intro op d a b h; cases h; exact ⟨rfl, by decide⟩
theorem Encoding.axch (d : Operand) (a : Operand) (b : Operand) : Encoding.Statement (.axch d a b) := by
  intro op d a b h; cases h; exact ⟨rfl, by decide⟩
theorem Encoding.acas (d : Operand) (a : Operand) (b : Operand) : Encoding.Statement (.acas d a b) := by
  intro op d a b h; cases h; exact ⟨rfl, by decide⟩
theorem Encoding.asad (d : Operand) (a : Operand) (b : Operand) : Encoding.Statement (.asad d a b) := by
  intro op d a b h; cases h; exact ⟨rfl, by decide⟩
theorem Encoding.ascs (d : Operand) (a : Operand) (b : Operand) : Encoding.Statement (.ascs d a b) := by
  intro op d a b h; cases h; exact ⟨rfl, by decide⟩
theorem Encoding.xadd (d : Operand) (a : Operand) (b : Operand) : Encoding.Statement (.xadd d a b) := by
  intro op d a b h; cases h; exact ⟨rfl, by decide⟩
theorem Encoding.xcas (d : Operand) (a : Operand) (b : Operand) : Encoding.Statement (.xcas d a b) := by
  intro op d a b h; cases h; exact ⟨rfl, by decide⟩
theorem Encoding.fnc (k : FenceKind) (s : Scope) : Encoding.Statement (.fnc k s) := by
  intro op d a b h; cases h; exact ⟨rfl, by decide⟩
theorem Encoding.fsys (d : Operand) (a : Operand) (b : Operand) : Encoding.Statement (.fsys d a b) := by
  intro op d a b h; cases h; exact ⟨rfl, by decide⟩
theorem Encoding.wld (d : Operand) (a : Operand) (b : Operand) : Encoding.Statement (.wld d a b) := by
  intro op d a b h; cases h; exact ⟨rfl, by decide⟩
theorem Encoding.wfmt (a : Operand) : Encoding.Statement (.wfmt a) := by
  intro op d a b h; cases h; exact ⟨rfl, by decide⟩
theorem Encoding.wswp : Encoding.Statement (.wswp) := by
  intro op d a b h; cases h; exact ⟨rfl, by decide⟩
theorem Encoding.mma (d : Operand) (a : Operand) (b : Operand) : Encoding.Statement (.mma d a b) := by
  intro op d a b h; cases h; exact ⟨rfl, by decide⟩
theorem Encoding.mmac (d : Operand) (a : Operand) (b : Operand) : Encoding.Statement (.mmac d a b) := by
  intro op d a b h; cases h; exact ⟨rfl, by decide⟩
theorem Encoding.mmz (d : Operand) : Encoding.Statement (.mmz d) := by
  intro op d a b h; cases h; exact ⟨rfl, by decide⟩
theorem Encoding.spm (a : Operand) : Encoding.Statement (.spm a) := by
  intro op d a b h; cases h; exact ⟨rfl, by decide⟩
theorem Encoding.spj (a : Operand) : Encoding.Statement (.spj a) := by
  intro op d a b h; cases h; exact ⟨rfl, by decide⟩
theorem Encoding.sbn (a : Operand) : Encoding.Statement (.sbn a) := by
  intro op d a b h; cases h; exact ⟨rfl, by decide⟩
theorem Encoding.sst (a : Operand) : Encoding.Statement (.sst a) := by
  intro op d a b h; cases h; exact ⟨rfl, by decide⟩
theorem Encoding.sbl (a : Operand) : Encoding.Statement (.sbl a) := by
  intro op d a b h; cases h; exact ⟨rfl, by decide⟩
theorem Encoding.sbk (a : Operand) : Encoding.Statement (.sbk a) := by
  intro op d a b h; cases h; exact ⟨rfl, by decide⟩
theorem Encoding.cpy (a : Operand) : Encoding.Statement (.cpy a) := by
  intro op d a b h; cases h; exact ⟨rfl, by decide⟩
theorem Encoding.lxf (a : Operand) : Encoding.Statement (.lxf a) := by
  intro op d a b h; cases h; exact ⟨rfl, by decide⟩
theorem Encoding.hxc (a : Operand) : Encoding.Statement (.hxc a) := by
  intro op d a b h; cases h; exact ⟨rfl, by decide⟩
theorem Encoding.ared (a : Operand) : Encoding.Statement (.ared a) := by
  intro op d a b h; cases h; exact ⟨rfl, by decide⟩
theorem Encoding.pub (a : Operand) : Encoding.Statement (.pub a) := by
  intro op d a b h; cases h; exact ⟨rfl, by decide⟩
theorem Encoding.vret (a : Operand) : Encoding.Statement (.vret a) := by
  intro op d a b h; cases h; exact ⟨rfl, by decide⟩
theorem Encoding.ckp (a : Operand) : Encoding.Statement (.ckp a) := by
  intro op d a b h; cases h; exact ⟨rfl, by decide⟩
theorem Encoding.lfe (d : Operand) (a : Operand) (b : Operand) : Encoding.Statement (.lfe d a b) := by
  intro op d a b h; cases h; exact ⟨rfl, by decide⟩
theorem Encoding.clauseIssue (dom : Nat) : Encoding.Statement (.clauseIssue dom) := by
  intro op d a b h; cases h
theorem Encoding.ageingSwitch (w : WaveId) : Encoding.Statement (.ageingSwitch w) := by
  intro op d a b h; cases h
theorem Encoding.detPathSwitch (w : WaveId) : Encoding.Statement (.detPathSwitch w) := by
  intro op d a b h; cases h
theorem Encoding.longLatencyCompletion (op : Nat) (a : Arrival) : Encoding.Statement (.longLatencyCompletion op a) := by
  intro op d a b h; cases h
theorem Encoding.accessPerformed (op count : Nat) : Encoding.Statement (.accessPerformed op count) := by
  intro op d a b h; cases h
theorem Encoding.counterDecrement (launch group ctr : Nat) : Encoding.Statement (.counterDecrement launch group ctr) := by
  intro op d a b h; cases h
theorem Encoding.groupPlacement (launch hw : Nat) : Encoding.Statement (.groupPlacement launch hw) := by
  intro op d a b h; cases h
theorem Encoding.isobarMinimumUpdate (w : WaveId) : Encoding.Statement (.isobarMinimumUpdate w) := by
  intro op d a b h; cases h
theorem Encoding.watchdogExpiry (launch : Nat) : Encoding.Statement (.watchdogExpiry launch) := by
  intro op d a b h; cases h
theorem Encoding.watchVerdict (w : WaveId) (entry : Nat) (strike : Bool) : Encoding.Statement (.watchVerdict w entry strike) := by
  intro op d a b h; cases h
theorem Encoding.firstTouchFill (n : Nat) : Encoding.Statement (.firstTouchFill n) := by
  intro op d a b h; cases h
theorem Encoding.frameReturn (n : Nat) : Encoding.Statement (.frameReturn n) := by
  intro op d a b h; cases h
theorem Encoding.engineQueueAccept (cmd : Nat) : Encoding.Statement (.engineQueueAccept cmd) := by
  intro op d a b h; cases h
theorem Encoding.cpyExecution (cmd : Nat) : Encoding.Statement (.cpyExecution cmd) := by
  intro op d a b h; cases h
theorem Encoding.lxfExecution (cmd : Nat) : Encoding.Statement (.lxfExecution cmd) := by
  intro op d a b h; cases h
theorem Encoding.pubStamp (cmd : Nat) : Encoding.Statement (.pubStamp cmd) := by
  intro op d a b h; cases h
theorem Encoding.vretRetire (cmd : Nat) : Encoding.Statement (.vretRetire cmd) := by
  intro op d a b h; cases h
theorem Encoding.hxcExecution (cmd : Nat) : Encoding.Statement (.hxcExecution cmd) := by
  intro op d a b h; cases h
theorem Encoding.aredExecution (cmd : Nat) : Encoding.Statement (.aredExecution cmd) := by
  intro op d a b h; cases h
theorem Encoding.aredLimitExpiry (cmd : Nat) : Encoding.Statement (.aredLimitExpiry cmd) := by
  intro op d a b h; cases h
theorem Encoding.ckpDrain (cmd : Nat) : Encoding.Statement (.ckpDrain cmd) := by
  intro op d a b h; cases h
theorem Encoding.ckpLoad (cmd : Nat) : Encoding.Statement (.ckpLoad cmd) := by
  intro op d a b h; cases h
theorem Encoding.ckpRevert (cmd : Nat) : Encoding.Statement (.ckpRevert cmd) := by
  intro op d a b h; cases h
theorem Encoding.splatQueueAccept (unit : Nat) : Encoding.Statement (.splatQueueAccept unit) := by
  intro op d a b h; cases h
theorem Encoding.splatParameterSet (unit : Nat) : Encoding.Statement (.splatParameterSet unit) := by
  intro op d a b h; cases h
theorem Encoding.projection (unit : Nat) : Encoding.Statement (.projection unit) := by
  intro op d a b h; cases h
theorem Encoding.binning (unit : Nat) : Encoding.Statement (.binning unit) := by
  intro op d a b h; cases h
theorem Encoding.tileSort (unit : Nat) : Encoding.Statement (.tileSort unit) := by
  intro op d a b h; cases h
theorem Encoding.blend (unit : Nat) : Encoding.Statement (.blend unit) := by
  intro op d a b h; cases h
theorem Encoding.gradientGather (unit : Nat) : Encoding.Statement (.gradientGather unit) := by
  intro op d a b h; cases h
theorem Encoding.weightLoadAccept (core : Nat) : Encoding.Statement (.weightLoadAccept core) := by
  intro op d a b h; cases h
theorem Encoding.formatLatch (core : Nat) : Encoding.Statement (.formatLatch core) := by
  intro op d a b h; cases h
theorem Encoding.bankSwap (core : Nat) : Encoding.Statement (.bankSwap core) := by
  intro op d a b h; cases h
theorem Encoding.matrixOperation (core : DPart) : Encoding.Statement (.matrixOperation core) := by
  intro op d a b h; cases h
theorem Encoding.mmacPart (core : DPart) : Encoding.Statement (.mmacPart core) := by
  intro op d a b h; cases h
theorem Encoding.mmzWrite (core : DPart) : Encoding.Statement (.mmzWrite core) := by
  intro op d a b h; cases h
theorem Encoding.bringupStageComplete (r : StageResult) : Encoding.Statement (.bringupStageComplete r) := by
  intro op d a b h; cases h
theorem Encoding.atomicRightHandover (ctx page : Nat) (m : RightMove) : Encoding.Statement (.atomicRightHandover ctx page m) := by
  intro op d a b h; cases h
theorem Encoding.atomicWindowEnd (ctx : Nat) (p : RightPage) : Encoding.Statement (.atomicWindowEnd ctx p) := by
  intro op d a b h; cases h
theorem Encoding.doorbell (ctx : Nat) (addr : BitVec 64) : Encoding.Statement (.doorbell ctx addr) := by
  intro op d a b h; cases h
theorem Encoding.graphAcceptance (ctx : Nat) : Encoding.Statement (.graphAcceptance ctx) := by
  intro op d a b h; cases h
theorem Encoding.nodeStart (graph node : Nat) : Encoding.Statement (.nodeStart graph node) := by
  intro op d a b h; cases h
theorem Encoding.nodeCompletion (graph node : Nat) : Encoding.Statement (.nodeCompletion graph node) := by
  intro op d a b h; cases h
theorem Encoding.timedNodeExpiry (graph node : Nat) : Encoding.Statement (.timedNodeExpiry graph node) := by
  intro op d a b h; cases h
theorem Encoding.preempt (c : ContextCommand) : Encoding.Statement (.preempt c) := by
  intro op d a b h; cases h
theorem Encoding.contextSave (ctx : Nat) : Encoding.Statement (.contextSave ctx) := by
  intro op d a b h; cases h
theorem Encoding.restore (c : ContextCommand) : Encoding.Statement (.restore c) := by
  intro op d a b h; cases h
theorem Encoding.resume (c : ContextCommand) : Encoding.Statement (.resume c) := by
  intro op d a b h; cases h
theorem Encoding.free (c : ContextCommand) : Encoding.Statement (.free c) := by
  intro op d a b h; cases h
theorem Encoding.revocation (ctx : Nat) (base length : BitVec 64) : Encoding.Statement (.revocation ctx base length) := by
  intro op d a b h; cases h
theorem Encoding.errorBitClear (ctx : Nat) (mask : BitVec 512) : Encoding.Statement (.errorBitClear ctx mask) := by
  intro op d a b h; cases h
theorem Encoding.poolOverflowClear (ctx : Nat) : Encoding.Statement (.poolOverflowClear ctx) := by
  intro op d a b h; cases h
theorem Encoding.walkerFaultClear (ctx : Nat) : Encoding.Statement (.walkerFaultClear ctx) := by
  intro op d a b h; cases h
theorem Encoding.registerWrite (at_ : DriverField) (data : List (BitVec 8)) : Encoding.Statement (.registerWrite at_ data) := by
  intro op d a b h; cases h
theorem Encoding.bar4Access (pa : Nat) (acc : HostAccess) : Encoding.Statement (.bar4Access pa acc) := by
  intro op d a b h; cases h
theorem Encoding.fabricLoadRequest (r : FabricRequest) : Encoding.Statement (.fabricLoadRequest r) := by
  intro op d a b h; cases h
theorem Encoding.fabricStoreRequest (r : FabricRequest) (data : Payload) : Encoding.Statement (.fabricStoreRequest r data) := by
  intro op d a b h; cases h
theorem Encoding.fabricAtomicRequest (r : FabricRequest) (a : FabricAtomic) : Encoding.Statement (.fabricAtomicRequest r a) := by
  intro op d a b h; cases h
theorem Encoding.versionTaggedStore (r : FabricRequest) (data : Payload) (tag : BitVec 24) : Encoding.Statement (.versionTaggedStore r data tag) := by
  intro op d a b h; cases h
theorem Encoding.watchVerdictRequest (r : FabricRequest) (seq : BitVec 32) : Encoding.Statement (.watchVerdictRequest r seq) := by
  intro op d a b h; cases h
theorem Encoding.collectiveMessage (m : CollectiveMessage) : Encoding.Statement (.collectiveMessage m) := by
  intro op d a b h; cases h
theorem Encoding.fabricReply (txn : Nat) (r : FabricReply) : Encoding.Statement (.fabricReply txn r) := by
  intro op d a b h; cases h
theorem Encoding.allowanceGrant (dest units : Nat) : Encoding.Statement (.allowanceGrant dest units) := by
  intro op d a b h; cases h
theorem Encoding.fabricUnitReceive (port : Nat) (descriptor : BitVec 16) (body : Option (List (BitVec 8))) : Encoding.Statement (.fabricUnitReceive port descriptor body) := by
  intro op d a b h; cases h
theorem Encoding.linkKeyRollover (port : Nat) (outbound : Bool) (key : BitVec 256) : Encoding.Statement (.linkKeyRollover port outbound key) := by
  intro op d a b h; cases h
theorem Encoding.linkRetrainStart (peer port : Nat) : Encoding.Statement (.linkRetrainStart peer port) := by
  intro op d a b h; cases h
theorem Encoding.linkRetrainComplete (peer : Nat) (link : LinkUp) : Encoding.Statement (.linkRetrainComplete peer link) := by
  intro op d a b h; cases h
theorem Encoding.retrainTimeout (peer port : Nat) : Encoding.Statement (.retrainTimeout peer port) := by
  intro op d a b h; cases h
theorem Encoding.peerLostReport (peer : Nat) : Encoding.Statement (.peerLostReport peer) := by
  intro op d a b h; cases h
theorem Encoding.timebaseSync (offset : Int) : Encoding.Statement (.timebaseSync offset) := by
  intro op d a b h; cases h
theorem Encoding.timeMessage (src : Nat) (offset : Int) : Encoding.Statement (.timeMessage src offset) := by
  intro op d a b h; cases h
theorem Encoding.fundamentalReset (signatureGood : Bool) : Encoding.Statement (.fundamentalReset signatureGood) := by
  intro op d a b h; cases h
theorem Encoding.functionLevelReset : Encoding.Statement (.functionLevelReset) := by
  intro op d a b h; cases h
theorem Encoding.powerHold (watts : Nat) : Encoding.Statement (.powerHold watts) := by
  intro op d a b h; cases h
theorem Encoding.thermalHold (junctions : List Nat) : Encoding.Statement (.thermalHold junctions) := by
  intro op d a b h; cases h
theorem Encoding.thermalTrip (celsius : Nat) : Encoding.Statement (.thermalTrip celsius) := by
  intro op d a b h; cases h
theorem Encoding.telemetry : Encoding.Statement (.telemetry) := by
  intro op d a b h; cases h
theorem Encoding.powerCap (watts : Nat) : Encoding.Statement (.powerCap watts) := by
  intro op d a b h; cases h
theorem Encoding.attest (nonce : List (BitVec 8)) : Encoding.Statement (.attest nonce) := by
  intro op d a b h; cases h
theorem Encoding.linkKey (port : Nat) (outbound : Bool) (key : BitVec 256) : Encoding.Statement (.linkKey port outbound key) := by
  intro op d a b h; cases h
theorem Encoding.stageFirmware (image : List (BitVec 8)) : Encoding.Statement (.stageFirmware image) := by
  intro op d a b h; cases h

end Sys2Proof.Laws
end

