-- ==== Sys2Proof/Tests/Slice0.lean ====
section
/-! SUPPORT. Tests. The words are written from the encodings of the manual (R41, R51, R53, R66, R72) and the results
are those of its worked examples and tables, or were worked out by hand from its rules; the witnesses show states and
operands that meet the hypotheses of the statements. -/

set_option Elab.async false

namespace Sys2Proof.Tests

open Sys2Proof Sys2Proof.Machine Sys2Proof.Spec

/-- The answer of an instruction or of a step. -/
abbrev Out := Host.Outcome State Fault Refusal

/-- Whether some words decode to an instruction, with no word left. -/
def reads (ws : List W32) (i : Instr) : Bool :=
  match decodeInstr ws with
  | .ok (j, []) => j == i
  | _ => false

/-- The error with which some words are refused. -/
def refuses (ws : List W32) : Option DecodeError :=
  match decodeInstr ws with
  | .ok _ => none
  | .error e => some e

/-- A clause of the one wave of 16 lanes and 16 registers, with some first vector and scalar registers. -/
def clause (mode : BitVec 16) (v : List (List W32)) (k : List W64) : Issue :=
  (Wave.start ⟨0, 0, 0⟩ 0 0 0 0 16 16 0xFFFF 0 mode 0 k v).issueAt 0 ⟨1, 0, 0, 1, true⟩ []

/-- The clause with predicate n holding a mask. -/
def withQ (n : Nat) (m : Lanes) (c : Issue) : Issue := { c with wave := { c.wave with q := c.wave.q.set n m } }

/-- A state in which a clause is in execution. -/
def inClause (c : Issue) : State := { State.reset with issue := some c }

/-- The same value in every lane. -/
def every (x : W32) : List W32 := List.replicate 16 x

/-- A value for each lane. -/
def rows (f : Nat → Nat) : List W32 := (List.range 16).map (fun l => BitVec.ofNat 32 (f l))

/-- The state answered. -/
def answer (o : Out) : Option State := match o with | .next s => some s | _ => none

/-- The clause that goes on. -/
def goes (o : Out) : Option Issue := (answer o).bind State.issue

/-- A lane of a vector register of the clause that goes on. -/
def lane (o : Out) (n l : Nat) : Option W32 := (goes o).map (fun c => rowElem c.wave.v n l)

/-- The first lanes of a vector register of the clause that goes on. -/
def lanes (o : Out) (n count : Nat) : Option (List W32) :=
  (goes o).map (fun c => (List.range count).map (rowElem c.wave.v n))

/-- A pair of vector registers in a lane. -/
def pair (o : Out) (n l : Nat) : Option Nat := (goes o).map (fun c => rowsRead c.wave.v true n l)

/-- The sticky flags of the clause that goes on. -/
def sticky (o : Out) : Option (BitVec 6) := (goes o).map (fun c => c.wave.fpflags)

/-! Well-formedness: a term that each check refuses, beside one that passes (R51, R58, R63, R66, R72, R110, R274). -/

theorem test_wellformed_passes :
    (Instr.add (.v 191) (.k 47) (.x 7)).wellFormed = true ∧ (Instr.mma (.v 32) (.k 45) (.lit32 3)).wellFormed = true ∧
      (Instr.loop 5 255).wellFormed = true ∧ (Instr.mode 0x3F 0x1F88).wellFormed = true := by decide

theorem test_wellformed_numbers :
    (Instr.add (.v 192) (.v 0) (.v 0)).fieldsInRange = false ∧ (Instr.add (.v 0) (.k 48) (.v 0)).fieldsInRange = false ∧
      (Instr.add (.v 0) (.v 0) (.x 8)).fieldsInRange = false := by decide

theorem test_wellformed_classes :
    (Instr.add .zero (.v 0) (.v 0)).classFault.isSome = true ∧ (Instr.mtch (.k 0) (.v 0)).classFault.isSome = true ∧
      (Instr.aadd (.x 0) (.v 0) .zero).classFault.isSome = true ∧ (Instr.clk (.x 0)).classFault.isSome = true ∧
      (Instr.lds (.v 0) (.v 0) (.lit64 0)).classFault.isSome = true ∧ (Instr.spm (.v 0)).classFault.isSome = true ∧
      (Instr.qmsk 0 (.v 0)).classFault.isSome = true ∧ (Instr.cond .zero .zero).classFault.isSome = true ∧
      (Instr.ldg (.v 0) (.x 0) .zero).classFault.isSome = true ∧
      (Instr.mma (.v 0) (.k 46) .zero).classFault = some .limit := by decide

theorem test_wellformed_scalar :
    (Instr.addc (.k 0) (.k 1) (.k 2)).classFault = some .operandClass ∧
      (Instr.add (.k 0) (.v 0) (.k 1)).classFault = some .operandClass ∧
      (Instr.ldg (.k 0) (.v 0) .zero).classFault = some .operandClass := by decide

theorem test_wellformed_limits :
    (Instr.mode 2 0x0060).limitFault = some .modeRounding ∧ (Instr.mode 8 0x2800).limitFault = some .modeSubgroup ∧
      (Instr.loop 5 0).limitFault = some .limit ∧ (Instr.syswr (.k 0) .lane).limitFault = some .operandClass := by decide

/-! Decoding: a word for every instruction, and words that are refused. -/

theorem test_decode_control :
    (reads [0x00000000] (.nop) && reads [0x01040200] (.mode 4 0x0200) && reads [0x0200FFEC] (.bra 0xFFEC) &&
      reads [0x03030009] (.bif 3 9) && reads [0x04020005] (.bany 2 5) && reads [0x0501FFFE] (.ball 1 0xFFFE) &&
      reads [0x0600000C] (.join 12) && reads [0x07E80010] (.call 40 16) && reads [0x0800E800] (.ret 40) &&
      reads [0x0900C506] (.loop 5 6) && reads [0x0A020000] (.lbrk 2) && reads [0x0B03C500] (.wcnt 3 5) &&
      reads [0x0C000000] (.trig) && reads [0x0D01000F] (.bar true 15) && reads [0x0E000000] (.exit) &&
      reads [0x0F001234] (.trap 0x1234) && reads [0x10000007] (.brk 7) &&
      reads [0x11C40004] (.sysrd (.k 4) .timebase) && reads [0x12000808] (.syswr (.v 8) .xva) &&
      reads [0x13000000] (.yield) && reads [0x14020000] (.wset 2) && reads [0x15020003] (.wchk 2 3) &&
      reads [0x16C70004] (.bsa 7 4) && reads [0x17C9C800] (.sal (.k 9) (.k 8)) && reads [0x1800C300] (.spcfg 3) &&
      reads [0x19C90000] (.clk (.k 9)) && reads [0x1A00C4C5] (.cond (.k 4) (.k 5)) &&
      reads [0x1B00C4C5] (.enq (.k 4) (.k 5))) = true := by decide

theorem test_decode_integer :
    (reads [0x200C0CFE, 0x0000012C] (.add (.v 12) (.v 12) (.lit32 300)) &&
      reads [0x210307C2] (.sub (.v 3) (.v 7) (.k 2)) && reads [0x220307C2] (.addc (.v 3) (.v 7) (.k 2)) &&
      reads [0x230307C2] (.subb (.v 3) (.v 7) (.k 2)) && reads [0x240A0406] (.mul (.v 10) (.v 4) (.v 6)) &&
      reads [0x250307C2] (.mulh (.v 3) (.v 7) (.k 2)) && reads [0x260307C2] (.mulw (.v 3) (.v 7) (.k 2)) &&
      reads [0x270307C2] (.mad (.v 3) (.v 7) (.k 2)) && reads [0x280307C2] (.min (.v 3) (.v 7) (.k 2)) &&
      reads [0x290307C2] (.max (.v 3) (.v 7) (.k 2)) && reads [0x2A030700] (.abs (.v 3) (.v 7)) &&
      reads [0x2B030700] (.neg (.v 3) (.v 7))) = true := by decide

theorem test_decode_bits :
    (reads [0x2CF0F1F9] (.and (.x 0) (.x 1) .one) && reads [0x2DF7FAFB] (.or (.x 7) .minusOne .lane) &&
      reads [0x2EBFBFFC] (.xor (.v 191) (.v 191) .wave) && reads [0x2F0307C2] (.andn (.v 3) (.v 7) (.k 2)) &&
      reads [0x30030700] (.not (.v 3) (.v 7)) && reads [0x311400FE, 0x00000002] (.shl (.v 20) (.v 0) (.lit32 2)) &&
      reads [0x320307C2] (.shr (.v 3) (.v 7) (.k 2)) && reads [0x330307C2] (.sra (.v 3) (.v 7) (.k 2)) &&
      reads [0x340307C2] (.rotl (.v 3) (.v 7) (.k 2)) && reads [0x350307C2] (.rotr (.v 3) (.v 7) (.k 2)) &&
      reads [0x36030700] (.clz (.v 3) (.v 7)) && reads [0x37030700] (.ctz (.v 3) (.v 7)) &&
      reads [0x38030700] (.popc (.v 3) (.v 7)) && reads [0x39030700] (.brev (.v 3) (.v 7)) &&
      reads [0x3A0307C2] (.bfe (.v 3) (.v 7) (.k 2)) && reads [0x3B0307C2] (.bfi (.v 3) (.v 7) (.k 2)) &&
      reads [0x3C0307C2] (.bzi (.v 3) (.v 7) (.k 2)) && reads [0x3D030200] (.bsp3 (.v 3) (.v 2)) &&
      reads [0x3E030700] (.bcp3 (.v 3) (.v 7)) && reads [0x3F04C014] (.lea (.v 4) (.k 0) (.v 20)) &&
      reads [0x40030700] (.mov (.v 3) (.v 7)) && reads [0x410307C2] (.dp4 (.v 3) (.v 7) (.k 2)) &&
      reads [0x420307C2] (.sad (.v 3) (.v 7) (.k 2)) && reads [0x430307C2] (.bmsk (.v 3) (.v 7) (.k 2)) &&
      reads [0x44030700] (.sat (.v 3) (.v 7)) && reads [0x450307C2] (.csub (.v 3) (.v 7) (.k 2))) = true := by decide

theorem test_decode_float :

      (reads [0x5004FFFE, 0x00000001, 0x00000002, 0x3F800000] (.fadd (.v 4) (.lit64 0x0000000200000001) (.lit32 0x3F800000)) &&
      reads [0x510307C2] (.fsub (.v 3) (.v 7) (.k 2)) && reads [0x520307C2] (.fmul (.v 3) (.v 7) (.k 2)) &&
      reads [0x530307C2] (.fma (.v 3) (.v 7) (.k 2)) && reads [0x540307C2] (.fms (.v 3) (.v 7) (.k 2)) &&
      reads [0x550307C2] (.fnma (.v 3) (.v 7) (.k 2)) && reads [0x560307C2] (.fmin (.v 3) (.v 7) (.k 2)) &&
      reads [0x570307C2] (.fmax (.v 3) (.v 7) (.k 2)) && reads [0x58030700] (.fabs (.v 3) (.v 7)) &&
      reads [0x59030700] (.fneg (.v 3) (.v 7)) && reads [0x5A0307C2] (.fcps (.v 3) (.v 7) (.k 2)) &&
      reads [0x5B0307C2] (.fdiv (.v 3) (.v 7) (.k 2)) && reads [0x5C030700] (.fsqrt (.v 3) (.v 7)) &&
      reads [0x5D030700] (.frcp (.v 3) (.v 7)) && reads [0x5E030700] (.frsq (.v 3) (.v 7)) &&
      reads [0x5F030700] (.fex2 (.v 3) (.v 7)) && reads [0x60030700] (.flg2 (.v 3) (.v 7)) &&
      reads [0x61030700] (.fsnp (.v 3) (.v 7)) && reads [0x62030700] (.fcsp (.v 3) (.v 7)) &&
      reads [0x63030700] (.ftnh (.v 3) (.v 7)) && reads [0x64030700] (.fflr (.v 3) (.v 7)) &&
      reads [0x65030700] (.fcel (.v 3) (.v 7)) && reads [0x66030700] (.ftrc (.v 3) (.v 7)) &&
      reads [0x67030700] (.frnd (.v 3) (.v 7)) && reads [0x680307C2] (.fldx (.v 3) (.v 7) (.k 2)) &&
      reads [0x69030700] (.fgtx (.v 3) (.v 7)) && reads [0x6A030700] (.fcls (.v 3) (.v 7))) = true := by decide

theorem test_decode_convert :
    (reads [0x6B030700] (.cvd (.v 3) (.v 7)) && reads [0x6C030700] (.cvs (.v 3) (.v 7)) &&
      reads [0x6D030700] (.cvh (.v 3) (.v 7)) && reads [0x6E030700] (.cvb (.v 3) (.v 7)) &&
      reads [0x6F030700] (.cv8 (.v 3) (.v 7)) && reads [0x70030700] (.cv6 (.v 3) (.v 7)) &&
      reads [0x71030700] (.cv4 (.v 3) (.v 7)) && reads [0x72060400] (.cvi (.v 6) (.v 4)) &&
      reads [0x73030700] (.cvn (.v 3) (.v 7)) && reads [0x74030700] (.bsc (.v 3) (.v 7)) &&
      reads [0x750307C2] (.bsq (.v 3) (.v 7) (.k 2))) = true := by decide

theorem test_decode_predicate :
    (reads [0x80040607] (.ceq 4 (.v 6) (.v 7)) && reads [0x81040607] (.cne 4 (.v 6) (.v 7)) &&
      reads [0x82040607] (.clt 4 (.v 6) (.v 7)) && reads [0x83040607] (.cle 4 (.v 6) (.v 7)) &&
      reads [0x84040607] (.cgt 4 (.v 6) (.v 7)) && reads [0x85040607] (.cge 4 (.v 6) (.v 7)) &&
      reads [0x86040607] (.cun 4 (.v 6) (.v 7)) && reads [0x87080607] (.sel (.v 8) (.v 6) (.v 7)) &&
      reads [0x88010203] (.qand 1 2 3) && reads [0x89010203] (.qor 1 2 3) && reads [0x8A010203] (.qxor 1 2 3) &&
      reads [0x8B010200] (.qnot 1 2) && reads [0x8C010200] (.qmov 1 2) && reads [0x8D01C600] (.qmsk 1 (.k 6)) &&
      reads [0x8E020500] (.qpop (.v 2) 5) && reads [0x8FC60500] (.kq 6 5)) = true := by decide

theorem test_decode_lanes :
    (reads [0x98040506] (.shf (.v 4) (.v 5) (.v 6)) &&
      reads [0x990405FE, 0x00000008] (.shx (.v 4) (.v 5) (.lit32 8)) &&
      reads [0x9A0307C2] (.shup (.v 3) (.v 7) (.k 2)) && reads [0x9B0307C2] (.shdn (.v 3) (.v 7) (.k 2)) &&
      reads [0x9C030700] (.qswx (.v 3) (.v 7)) && reads [0x9D030700] (.qswy (.v 3) (.v 7)) &&
      reads [0x9E030700] (.qswd (.v 3) (.v 7)) && reads [0x9F0307C2] (.qbc (.v 3) (.v 7) (.k 2)) &&
      reads [0xA0060500] (.cmpr (.v 6) (.v 5)) && reads [0xA1070600] (.expd (.v 7) (.v 6)) &&
      reads [0xA20307C2] (.sldu (.v 3) (.v 7) (.k 2)) && reads [0xA30307C2] (.sldd (.v 3) (.v 7) (.k 2)) &&
      reads [0xA40A0800] (.mtch (.v 10) (.v 8)) && reads [0xA50B0800] (.mtcn (.v 11) (.v 8)) &&
      reads [0xA6090800] (.radd (.v 9) (.v 8)) && reads [0xA7030700] (.rmin (.v 3) (.v 7)) &&
      reads [0xA8030700] (.rmax (.v 3) (.v 7)) && reads [0xA9030700] (.rbor (.v 3) (.v 7)) &&
      reads [0xAA030700] (.rband (.v 3) (.v 7)) && reads [0xAB030700] (.pfx (.v 3) (.v 7)) &&
      reads [0xAC0307C2] (.bcl (.v 3) (.v 7) (.k 2)) && reads [0xAD030700] (.vote (.v 3) (.v 7)) &&
      reads [0xAE0A0809] (.topk (.v 10) (.v 8) (.v 9)) && reads [0xAF030700] (.ffs (.v 3) (.v 7))) = true := by decide

theorem test_decode_memory :
    (reads [0xB00A04F8] (.ldg (.v 10) (.v 4) .zero) && reads [0xB10C06F8] (.stg (.v 12) (.v 6) .zero) &&
      reads [0xB20C08C5] (.ldgs (.v 12) (.v 8) (.k 5)) && reads [0xB30C08C5] (.stsg (.v 12) (.v 8) (.k 5)) &&
      reads [0xB40802F8] (.lds (.v 8) (.v 2) .zero) && reads [0xB50C08C5] (.sts (.v 12) (.v 8) (.k 5)) &&
      reads [0xB60C08C5] (.ldcl (.v 12) (.v 8) (.k 5)) && reads [0xB70C08C5] (.stcl (.v 12) (.v 8) (.k 5)) &&
      reads [0xB80C08C5] (.ldp (.v 12) (.v 8) (.k 5)) && reads [0xB90C08C5] (.stp (.v 12) (.v 8) (.k 5)) &&
      reads [0xBA0C08C5] (.ldk (.v 12) (.v 8) (.k 5)) && reads [0xBB0C08C5] (.ldf (.v 12) (.v 8) (.k 5)) &&
      reads [0xBC0C08C5] (.stf (.v 12) (.v 8) (.k 5)) && reads [0xBD0C08C5] (.ldv (.v 12) (.v 8) (.k 5)) &&
      reads [0xBE0C08C5] (.lde (.v 12) (.v 8) (.k 5)) &&
      reads [0xBF0C08C5] (.ldr (.v 12) (.v 8) (.k 5))) = true := by decide

theorem test_decode_atomic :
    (reads [0xC00C08C5] (.stcn (.v 12) (.v 8) (.k 5)) && reads [0xC10C08C5] (.aadd (.v 12) (.v 8) (.k 5)) &&
      reads [0xC20C08C5] (.afad (.v 12) (.v 8) (.k 5)) && reads [0xC30C08C5] (.amin (.v 12) (.v 8) (.k 5)) &&
      reads [0xC40C08C5] (.amax (.v 12) (.v 8) (.k 5)) && reads [0xC50C08C5] (.aand (.v 12) (.v 8) (.k 5)) &&
      reads [0xC60C08C5] (.aor (.v 12) (.v 8) (.k 5)) && reads [0xC70C08C5] (.axor (.v 12) (.v 8) (.k 5)) &&
      reads [0xC80C08C5] (.axch (.v 12) (.v 8) (.k 5)) && reads [0xC90804F8] (.acas (.v 8) (.v 4) .zero) &&
      reads [0xCA0C08C5] (.asad (.v 12) (.v 8) (.k 5)) && reads [0xCB0C08C5] (.ascs (.v 12) (.v 8) (.k 5)) &&
      reads [0xCC0C08C5] (.xadd (.v 12) (.v 8) (.k 5)) && reads [0xCD0C08C5] (.xcas (.v 12) (.v 8) (.k 5)) &&
      reads [0xCE0C0000] (.fnc .rel .device) && reads [0xCFC902F8] (.fsys (.k 9) (.v 2) .zero)) = true := by decide

theorem test_decode_matrix :
    (reads [0xD0C1C2C3] (.wld (.k 1) (.k 2) (.k 3)) && reads [0xD100C400] (.wfmt (.k 4)) &&
      reads [0xD2000000] (.wswp) && reads [0xD320CAFE, 0x00000003] (.mma (.v 32) (.k 10) (.lit32 3)) &&
      reads [0xD420CAC3] (.mmac (.v 32) (.k 10) (.k 3)) && reads [0xD5200000] (.mmz (.v 32))) = true := by decide

theorem test_decode_unit :
    (reads [0xE000C400] (.spm (.k 4)) && reads [0xE100C400] (.spj (.k 4)) && reads [0xE200C400] (.sbn (.k 4)) &&
      reads [0xE300C400] (.sst (.k 4)) && reads [0xE400C400] (.sbl (.k 4)) && reads [0xE500C400] (.sbk (.k 4)) &&
      reads [0xE800C400] (.cpy (.k 4)) && reads [0xE900C400] (.lxf (.k 4)) && reads [0xEA00C400] (.hxc (.k 4)) &&
      reads [0xEB00C400] (.ared (.k 4)) && reads [0xEC00C400] (.pub (.k 4)) && reads [0xED00C400] (.vret (.k 4)) &&
      reads [0xEE00C400] (.ckp (.k 4)) && reads [0xF00C08C5] (.lfe (.v 12) (.v 8) (.k 5))) = true := by decide

/-- R41, R51, R53, R58, R66. A reserved opcode, a field that the row does not list, a reserved operand, a constant as a
destination, a literal that is missing, a 64-bit literal in a 32-bit position, reserved values of `mode`, and the limits of
fields. -/
theorem test_decode_refused :
    refuses [0x1C000000] = some .reservedOpcode ∧ refuses [0x00000001] = some .unusedField ∧
      (refuses [0x200300FD]).isSome = true ∧ refuses [0x20F80000] = some .operandClass ∧
      refuses [0x200300FE] = some .literalBeyond ∧ refuses [0xB40802FF, 0, 0] = some .operandClass ∧
      refuses [0x01020060] = some .modeRounding ∧ refuses [0x01082800] = some .modeSubgroup ∧
      (refuses [0x82100607]).isSome = true ∧ (refuses [0x0900C500]).isSome = true ∧
      (refuses [0xCE260000]).isSome = true ∧ (refuses [0x0D020000]).isSome = true ∧
      (refuses [0x0B04C500]).isSome = true := by decide

/-! Instructions: the worked examples of the manual, and hand-worked corners. -/

/-- R58: the worked example of the mode register. -/
theorem test_mode :
    (goes (exec (.mode 0x05 0x0185) (inClause (clause 0x1F88 [] [])))).map (fun c => c.pth.mode) = some 0x1985 := by decide

/-- R112, R114: the Barrett step of the worked example, with each of its results as the next one's source. -/
theorem test_barrett_mulh :
    lane (exec (.mulh (.v 12) (.v 0) (.lit32 349496)) (inClause (clause 0x1F85 [every 150994944] []))) 12 7 =
      some 12286 := by decide

theorem test_barrett_mul :
    lane (exec (.mul (.v 12) (.v 0) (.lit32 12289)) (inClause (clause 0x1F85 [every 12286] []))) 12 7 =
      some 150982654 := by decide

theorem test_barrett_sub :
    lane (exec (.sub (.v 12) (.v 0) (.v 1)) (inClause (clause 0x1F85 [every 150994944, every 150982654] []))) 12 7 =
      some 12290 := by decide

theorem test_barrett_csub :
    lane (exec (.csub (.v 0) (.v 0) (.lit32 12289)) (inClause (clause 0x1F85 [every 12290] []))) 0 7 = some 1 := by decide

/-- R111: wrap without SAT, and the clamp with it, in the bytes of packed i8 (a and b are 0x7F and 1 in slot 0, 0x80 and
0xFF in slot 3). -/
theorem test_add_packed :
    lane (exec (.add (.v 2) (.v 0) (.v 1)) (inClause (clause 0x1F80 [every 0x8000007F, every 0xFF000001] []))) 2 0 =
        some 0x7F000080 ∧
      lane (exec (.add (.v 2) (.v 0) (.v 1)) (inClause (clause 0x9F80 [every 0x8000007F, every 0xFF000001] []))) 2 0 =
        some 0x8000007F ∧
      sticky (exec (.add (.v 2) (.v 0) (.v 1)) (inClause (clause 0x9F80 [every 0x8000007F, every 0xFF000001] []))) =
        some fSATD := by decide

/-- R55, R57: a scalar add in n64 mode carries into the high word. -/
theorem test_add_scalar :
    (goes (exec (.add (.k 2) (.k 0) (.k 1)) (inClause (clause 0x1F87 [] [0xFFFFFFFF, 1])))).map (fun c => c.wave.k.getD 2 0) =
      some 0x100000000 := by decide

/-- R113: 0xFFFFFFFF and 0, with a carry in the lanes of q14: the odd lanes wrap to zero and keep their carry. -/
theorem test_addc :
    let o := exec (.addc (.v 2) (.v 0) (.v 1)) (inClause (withQ 14 0xAAAA (clause 0x1F85 [every 0xFFFFFFFF, every 0] [])))
    lanes o 2 2 = some [0xFFFFFFFF, 0] ∧ (goes o).map (fun c => c.wave.qread 14) = some 0xAAAA := by decide

/-- R113: 0 minus 0 minus the borrow. -/
theorem test_subb :
    let o := exec (.subb (.v 2) (.v 0) (.v 0)) (inClause (withQ 14 1 (clause 0x1F85 [every 0] [])))
    lanes o 2 2 = some [0xFFFFFFFF, 0] ∧ (goes o).map (fun c => c.wave.qread 14) = some 1 := by decide

/-- R112: the whole product of two words stands in a pair. -/
theorem test_mulw :
    pair (exec (.mulw (.v 2) (.v 0) (.v 0)) (inClause (clause 0x1F85 [every 0xFFFFFFFF] []))) 2 3 =
      some 0xFFFFFFFE00000001 := by decide

/-- R112: the addend of `mad` is its destination. -/
theorem test_mad :
    lane (exec (.mad (.v 2) (.v 0) (.v 1)) (inClause (clause 0x1F84 [every 3, every 0xFFFFFFFC, every 5] []))) 2 0 =
      some 0xFFFFFFF9 := by decide

theorem test_neg_clamps :
    lane (exec (.neg (.v 1) (.v 0)) (inClause (clause 0x9F84 [every 0x80000000] []))) 1 0 = some 0x7FFFFFFF := by decide

/-- R117: a shift of the whole width, and an arithmetic shift beyond it. -/
theorem test_shifts :
    lane (exec (.shl (.v 2) (.v 0) (.v 1)) (inClause (clause 0x1F85 [every 1, every 32] []))) 2 0 = some 0 ∧
      lane (exec (.sra (.v 2) (.v 0) (.v 1)) (inClause (clause 0x1F84 [every 0x80000000, every 40] []))) 2 0 =
        some 0xFFFFFFFF := by decide

theorem test_rotl :
    lane (exec (.rotl (.v 2) (.v 0) (.v 1)) (inClause (clause 0x1F85 [every 0x80000001, every 33] []))) 2 0 = some 3 := by
  decide

theorem test_clz_of_zero :
    lane (exec (.clz (.v 1) (.v 0)) (inClause (clause 0x1F85 [every 0] []))) 1 0 = some 32 := by decide

/-- R119: the worked example. -/
theorem test_bsp3 :
    lane (exec (.bsp3 (.v 3) (.v 2)) (inClause (clause 0x1F85 [every 0, every 0, every 0x3FF] []))) 3 0 = some 0x09249249 ∧
      lane (exec (.bsp3 (.v 3) (.v 2)) (inClause (clause 0x1F85 [every 0, every 0, every 5] []))) 3 0 = some 0x41 := by
  decide

/-- R118: a field of 8 bits at 4, extended by its sign in i32. -/
theorem test_bfe :
    lane (exec (.bfe (.v 2) (.v 0) (.v 1)) (inClause (clause 0x1F84 [every 0x00000F80, every 0x0804] []))) 2 0 =
      some 0xFFFFFFF8 := by decide

/-- R115: an address: a pair base, and an index that is extended by its sign, times 4. -/
theorem test_lea :
    pair (exec (.lea (.v 4) (.k 0) (.v 2)) (inClause (clause 0x1F85 [every 0, every 0, every 0xFFFFFFFF] [0x100000000]))) 4 0 =
      some 0xFFFFFFFC := by decide

/-- R115: the dot product of four signed bytes: (−1)·1 + 2·3 + 0 + 0 = 5. -/
theorem test_dp4 :
    lane (exec (.dp4 (.v 2) (.v 0) (.v 1)) (inClause (clause 0x1F80 [every 0x000002FF, every 0x00000301] []))) 2 0 =
      some 5 := by decide

/-- R88, R120: 2 to the 24th plus one is a tie, and RNE keeps the even one; NX. -/
theorem test_fadd_tie :
    let o := exec (.fadd (.v 2) (.v 0) (.v 1)) (inClause (clause 0x1F89 [every 0x4B800000, every 0x3F800000] []))
    lane o 2 0 = some 0x4B800000 ∧ sticky o = some fNX := by decide

/-- R122: the sign bit alone; a NaN's payload stays. -/
theorem test_fneg_nan :
    let o := exec (.fneg (.v 1) (.v 0)) (inClause (clause 0x1F89 [every 0x7F800001] []))
    lane o 1 0 = some 0xFF800001 ∧ sticky o = some 0 := by decide

/-- R120: one rounding: (1 + 2^-12)^2 - (1 + 2^-11) is 2^-24 exactly. -/
theorem test_fms_exact :
    lane (exec (.fms (.v 2) (.v 0) (.v 0)) (inClause (clause 0x1F89 [every 0x3F800800, every 0, every 0x3F801000] []))) 2 0 =
      some 0x33800000 := by decide

/-- R88: the worked example of the narrowings of 1 + 2^-8 + 2^-30. -/
theorem test_cvb_direct :
    lane (exec (.cvb (.v 2) (.v 0)) (inClause (clause 0x1F88 [every 0x00400000, every 0x3FF01000] []))) 2 0 =
      some 0x3F81 := by decide

theorem test_cvs_odd :
    lane (exec (.cvs (.v 2) (.v 0)) (inClause (clause 0x1FD8 [every 0x00400000, every 0x3FF01000] []))) 2 0 =
      some 0x3F808001 := by decide +kernel

/-- R98: the worked example: 3.1 is 0x59 under RNE, with NX, and 0x58 under RTZ. -/
theorem test_cv8 :
    let o := exec (.cv8 (.v 2) (.v 0)) (inClause (clause 0x1F89 [every 0x40466666] []))
    lane o 2 0 = some 0x59 ∧ sticky o = some fNX ∧
      lane (exec (.cv8 (.v 2) (.v 0)) (inClause (clause 0x1F99 [every 0x40466666] []))) 2 0 = some 0x58 := by decide +kernel

/-- R127: the worked example of `cvi` and `cvn`. -/
theorem test_cvi :
    let o := exec (.cvi (.v 6) (.v 4)) (inClause (clause 0x1F89 [[], [], [], [], every 0x4F32D05E] []))
    let p := exec (.cvi (.v 6) (.v 4)) (inClause (clause 0x9F89 [[], [], [], [], every 0x4F32D05E] []))
    lane o 6 0 = some 0x80000000 ∧ sticky o = some fNV ∧ lane p 6 0 = some 0x7FFFFFFF ∧ sticky p = some fSATD := by decide

theorem test_cvn :
    let o := exec (.cvn (.v 6) (.v 4)) (inClause (clause 0x1F89 [[], [], [], [], every 0x4F32D05E] []))
    lane o 6 0 = some 0xB2D05E00 ∧ sticky o = some 0 := by decide

/-- R129, R130: the worked example of a t6 block of largest magnitude 10. -/
theorem test_bsc :
    lane (exec (.bsc (.v 2) (.v 0)) (inClause (clause 0x1F8D [every 0x41200000] []))) 2 0 = some 0x7A400 := by decide

theorem test_bsq :
    let q := fun (x : W32) => exec (.bsq (.v 2) (.v 0) (.v 1)) (inClause (clause 0x1F8D [every x, every 0x7A400] []))
    lane (q 0x41200000) 2 0 = some 0x1F ∧ sticky (q 0x41200000) = some 0 ∧ lane (q 0x40400000) 2 0 = some 0x1E ∧
      sticky (q 0x40400000) = some fNX ∧ lane (q 0xBD4CCCCD) 2 0 = some 0x2F := by decide

/-- R45, R123: a division is not written yet: it sets the next flag and waits with its results; 1 by 3 in f32. -/
theorem test_fdiv_waits :
    let o := exec (.fdiv (.v 2) (.v 0) (.v 1)) (inClause (clause 0x1F89 [every 0x3F800000, every 0x40400000] []))
    lane o 2 0 = some 0 ∧ (goes o).map (fun c => c.effects.map (fun e => match e with
      | .access a => (a.results.lookup 0, a.fp)
      | _ => (none, 0))) = some [(some 0x3EAAAAAB, fNX)] := by decide

/-- R131, R132: the worked example: `clt` writes q4 in every lane, and `sel` under the guard q4 takes the smaller. -/
theorem test_clt :
    (goes (exec (.clt 4 (.v 6) (.v 7)) (inClause (clause 0x1F85
      [[], [], [], [], [], [], rows (fun l => l), every 5] [])))).map (fun c => c.wave.qread 4) = some 0x1F := by decide

theorem test_sel :
    lanes (exec (.sel (.v 8) (.v 6) (.v 7)) (inClause (withQ 4 0x1F (clause 0x1A05
      [[], [], [], [], [], [], rows (fun l => l), every 5] [])))) 8 8 = some [0, 1, 2, 3, 4, 5, 5, 5] := by decide

/-- R131: an ordered compare of a quiet NaN is false and sets NV; `cun` sees it without a flag. -/
theorem test_compare_nan :
    let s := inClause (clause 0x1F89 [every 0x7FC00000, every 0] [])
    sticky (exec (.clt 0 (.v 0) (.v 1)) s) = some fNV ∧ sticky (exec (.cun 0 (.v 0) (.v 1)) s) = some 0 ∧
      (goes (exec (.cun 0 (.v 0) (.v 1)) s)).map (fun c => c.wave.qread 0) = some 0xFFFF := by decide

/-- R134: `qmsk` and `kq`, with q15 reading as ones. -/
theorem test_kq :
    (goes (exec (.kq 6 15) (inClause (clause 0x1F85 [] [])))).map (fun c => c.wave.k.getD 6 0) = some 0xFFFF := by decide

/-- R141: the worked example of `shf` and `shx` with subgroups of 8. -/
theorem test_shf :
    let o := exec (.shf (.v 4) (.v 5) (.v 6)) (inClause (clause 0x0F85 [[], [], [], [], every 0, rows (fun l => 100 + l),
      rows (fun l => if l = 3 then 11 else 9)] []))
    lane o 4 3 = some 103 ∧ lane o 4 12 = some 109 := by decide

theorem test_shx :
    let s := fun (m : BitVec 16) => exec (.shx (.v 4) (.v 5) (.lit32 8)) (inClause (clause m [[], [], [], [], every 0,
      rows (fun l => l)] []))
    lane (s 0x0F85) 4 3 = some 3 ∧ lane (s 0x1785) 4 3 = some 11 := by decide

/-- R141: a slide leaves zero where its source falls outside the subgroup. -/
theorem test_sldu :
    lanes (exec (.sldu (.v 1) (.v 0) (.lit32 2)) (inClause (clause 0x0785 [rows (fun l => 100 + l)] []))) 1 5 =
      some [0, 0, 100, 101, 0] := by decide

/-- R142: the worked example. -/
theorem test_cmpr :
    lanes (exec (.cmpr (.v 6) (.v 5)) (inClause (withQ 2 0x32 (clause 0x0905 [[], [], [], [], [],
      rows (fun l => if l = 1 then 10 else if l = 4 then 40 else if l = 5 then 50 else 1), every 9] [])))) 6 8 =
        some [10, 40, 50, 9, 9, 9, 9, 9] := by decide

theorem test_expd :
    lanes (exec (.expd (.v 7) (.v 6)) (inClause (withQ 2 0x32 (clause 0x0905 [[], [], [], [], [], [],
      rows (fun l => if l = 0 then 10 else if l = 1 then 40 else if l = 2 then 50 else 1), every 9] [])))) 7 8 =
        some [9, 10, 9, 9, 40, 50, 9, 9] := by decide

/-- R143: the worked example. -/
def keys : List W32 :=
  [0, 0x80000000, 0x7FC00000, 0x7FC00001, 0x3F800000, 0, 0x7FC00000, 0, 0, 0, 0, 0, 0, 0, 0, 0]

theorem test_mtch :
    lanes (exec (.mtch (.v 10) (.v 8)) (inClause (withQ 3 0x7F (clause 0x0989 [[], [], [], [], [], [], [], [], keys, [],
      every 9] [])))) 10 8 = some [0x21, 0x02, 0x44, 0x08, 0x10, 0x21, 0x44, 9] := by decide

theorem test_mtcn :
    let o := exec (.mtcn (.v 11) (.v 8)) (inClause (withQ 3 0x7F (clause 0x0989 [[], [], [], [], [], [], [], [], keys, [], [],
      every 9] [])))
    lanes o 11 8 = some [0x23, 0x23, 0x4C, 0x4C, 0x10, 0x23, 0x4C, 9] ∧ sticky o = some 0 := by decide

/-- R144: the worked example of the tree; an inactive lane keeps its value. -/
theorem test_radd :
    lanes (exec (.radd (.v 9) (.v 8)) (inClause (withQ 2 0x57 (clause 0x0909 [[], [], [], [], [], [], [], [],
      rows (fun l => if l = 0 then 0x4B800000 else 0x3F800000), every 9] [])))) 9 4 =
        some [0x4B800002, 0x4B800002, 0x4B800002, 9] := by decide

/-- R145: prefix sums run from the lowest lane up. -/
theorem test_pfx :
    lanes (exec (.pfx (.v 1) (.v 0)) (inClause (clause 0x0785 [rows (fun l => l + 1)] []))) 1 5 = some [1, 3, 6, 10, 5] := by
  decide

/-- R109, R147: the worked example of `topk`. -/
theorem test_topk :
    lanes (exec (.topk (.v 10) (.v 8) (.v 9)) (inClause (withQ 3 0x7F (clause 0x0989 [[], [], [], [], [], [], [], [],
      [0x40000000, 0x7FC00000, 0x80000000, 0, 0x40000000, 0xFF800000, 0xFFC00000, 0, 0, 0, 0, 0, 0, 0, 0, 0],
      rows (fun l => l)] [])))) 10 7 = some [0, 6, 3, 2, 1, 4, 5] := by decide

/-- R147: no lane votes. -/
theorem test_ffs_none :
    lane (exec (.ffs (.v 1) (.v 0)) (inClause (clause 0x0F85 [every 0] []))) 1 0 = some 0xFFFFFFFF := by decide

/-- R269, R270: a `bif` after a `join`: the not-taken lanes stay on path 0, the taken ones move to the target. -/
theorem test_bif :
    let c := withQ 3 0xF (clause 0x1F85 [] [])
    (goes (exec (.bif 3 9) (inClause (c.setPth { c.pth with join := some 0x30 })))).map
        (fun c => (c.wave.path0.mask, c.wave.path1.mask, c.wave.path1.pc, c.wave.div.map DivEntry.j)) =
      some (0xFFF0, 0xF, 36, [0x30]) := by decide

/-- R274: the worked example of a count of zero: the body of six words is skipped. -/
theorem test_loop_zero :
    (goes (exec (.loop 5 6) (inClause (clause 0x1F85 [] [])))).map (fun c => (c.next, c.pth.loops.length)) = some (32, 0) ∧
      (goes (exec (.loop 0 6) (inClause (clause 0x1F85 [] [3])))).map (fun c => c.pth.loops) =
        some [⟨8, 32, 3, 0⟩] := by decide

/-- R55, R72: a 32-bit special register fills the low word of a k register. -/
theorem test_sysrd :
    (goes (exec (.sysrd (.k 4) .pathmask) (inClause (clause 0x1F85 [] [])))).map (fun c => c.wave.k.getD 4 0) = some 0xFFFF ∧
      lane (exec (.sysrd (.v 4) .lane) (inClause (clause 0x1F85 [] []))) 4 9 = some 9 := by decide

/-- R94: `syswr` replaces the sticky flags. -/
theorem test_syswr :
    sticky (exec (.syswr (.lit32 0x21) .fpflags) (inClause (clause 0x1F85 [] []))) = some 0x21 := by decide

/-- R156: the worked example of the layout word: element (5, 3, 0) lies at 0x470A. -/
theorem test_layout : layoutAddr (0x00204000 + 0x00100000 * 2 ^ 32 + 0x10000000 * 2 ^ 64) 5 3 0 = some 0x470A := by decide

/-- R314: the worked examples of a unit of one word and of a unit of deltas. -/
theorem test_units :
    (rebuildUnit 0x2004 [0x00, 0x00, 0x80, 0x3F]).map (fun u => (u.length, u.drop 252)) =
        some (256, [0x00, 0x00, 0x80, 0x3F]) ∧
      (rebuildUnit 0x3114 ([0, 0, 0, 0] ++ List.replicate 15 0x55 ++ [0x15])).map (fun u => u.drop 252) =
        some [63, 0, 0, 0] := by decide +kernel

/-! Worlds for the witnesses: a device that is up, with one context, one launch of one group of one wave of 16 lanes, and a
page table that maps the first 2 GiB of the context to themselves with every permission (R329, R330). -/

def tables : Memory :=
  Memory.writeN (Memory.writeN [] 0x10000 (leBytes 8 (2 ^ 62 + 0x11000))) 0x11000 (leBytes 8 (2 ^ 63 + 0xF0))

def ctx1 : Context := { Context.empty 1 with state := 1, root := 0x10000, clusters := 1, coreBudget := 4, wdog := 1 }

def record16 : LaunchRecord :=
  { entry := 0x1000, args := 0, extx := 16, exty := 1, extz := 1, gsx := 16, gsy := 1, gsz := 1, wavew := 16, vregs := 16
    scratch := 1024, cgroups := 1, ccores := 1, fuse := false, det := false, mode := 0x1F85, l1conv := 0, diemask := 1
    wdog := 0, cls := 0 }

def launch0 : Launch :=
  { id := 0, ctx := 1, graph := 0, node := 0, record := record16, budget := 65536, used := 0, nextCluster := 1, const := []
    constSize := 64, halted := false, restored := false }

def group0 : Group :=
  { launch := 0, index := 0, cluster := 0, member := 0, ccore := 0, core := 0, scratch := [], scratchSize := 1024
    counters := [[], [], [], []], barriers := List.replicate 16 ⟨0, []⟩, splat := ⟨16, 16, 0, 0, 0⟩, converted := 0
    released := false, parked := false }

def wave0 : Wave :=
  Wave.start ⟨0, 0, 0⟩ 0 0 0 0 16 16 0xFFFF 0 0x1F85 0x1000 [] [rows (fun l => 4 * l), every 0, rows (fun l => 64 * l)]

def dev0 : Dev :=
  { Dev.reset with
    platform := { Platform.reset with state := 6 }, ctxs := [ctx1], launches := [launch0], groups := [group0]
    waves := [wave0], hbm := tables, nextId := 100 }

def world : State := { State.reset with dev := dev0 }

/-- The world with a clause of the wave in execution. -/
def running (c : Issue) : State := { world with issue := some c }

/-- The wave's clause, with nothing done. -/
def plain : Issue := wave0.issueAt 0 ⟨1, 0, 0, 1, true⟩ []

/-- The same in a deterministic launch. -/
def detWorld : State :=
  { world with
    dev := { dev0 with launches := [{ launch0 with record := { record16 with det := true } }] }, issue := some plain }

/-! Witnesses of the statements about instructions. -/

/-- The modes of the types: each family of types has one that it takes and one that it refuses. -/
theorem witness_types :
    among ints (clause 0x1F85 [] []).ty = true ∧ among ints (clause 0x1F89 [] []).ty = false ∧
      among words (clause 0x1F86 [] []).ty = true ∧ among words (clause 0x1F80 [] []).ty = false ∧
      among allInts (clause 0x1F8F [] []).ty = true ∧ among allInts (clause 0x1F88 [] []).ty = false ∧
      among floats (clause 0x1F88 [] []).ty = true ∧ among floats (clause 0x1F8C [] []).ty = false ∧
      among (floats ++ ints) (clause 0x1F8A [] []).ty = true ∧ among (floats ++ ints) (clause 0x1F8E [] []).ty = false ∧
      among (.b32 :: words) (clause 0x1F8F [] []).ty = true ∧ among (.b32 :: words) (clause 0x1F82 [] []).ty = false ∧
      among [.t8, .t6, .f4] (clause 0x1F8D [] []).ty = true ∧ among [.i8, .n8, .i16, .n16] (clause 0x1F80 [] []).ty = true ∧
      among [.i32, .n32] (clause 0x1F84 [] []).ty = true ∧ (inClause plain).issue = some plain := by decide

/-- IntegerArithmetic and every statement with a destination: the last register, pair and temporary of each kind. -/
theorem witness_destinations :
    plain.hasDst false (.v 15) ∧ plain.hasDst true (.v 14) ∧ plain.hasDst false (.x 7) ∧ plain.hasDst true (.x 6) ∧
      plain.hasDst false (.k 47) := by
  simp only [Issue.hasDst]; decide

/-- CarryChain: an n32 clause. -/
theorem witness_carryChain :
    plain.hasDst plain.ty.wide (.v 15) ∧ among words plain.ty = true ∧ 14 < plain.wave.q.length ∧ plain.wave.width ≤ 64 := by
  simp only [Issue.hasDst]; decide

/-- WriteInt. -/
theorem witness_writeInt : among ints .i8 = true ∧ among ints .n64 = true := by decide

/-- RoundingExact: the least subnormal, which FTZ flushes, and the greatest finite value of f16. -/
theorem witness_roundingExact :
    fmt16.decode 1 = .fin false 1 (-24) ∧ fmt16.subnormal 1 = true ∧ fmt16.decode 0xFBFF = .fin true 2047 5 ∧
      fmt16.subnormal 0xFBFF = false ∧ 0xFBFF < 2 ^ fmt16.width := by decide

/-- Rounding: magnitudes that are exact, between two numbers, beyond the greatest and below the least; and finite values, whose
sum is zero, and zeros. -/
theorem witness_rounding :
    (0 < 1 ∧ fmt16.round .rtz false false 1 (-200) false = (0, fUF ||| fNX) ∧
      fmt16.round .rup false false 1 (-200) false = (1, fUF ||| fNX) ∧ fmt16.round .rne false true 3 0 false = (0xC200, 0) ∧
      fmt16.round .rne false false 1 16 false = (fmt16.inf false, fOF ||| fNX)) ∧
      finite (fmt32.decode 0x3F800000) ∧ finite (fmt32.decode 0xBF800000) ∧ finite (.zero true) ∧
      fmt32.addV .rdn false false (fmt32.decode 0x3F800000) (fmt32.decode 0xBF800000) = (0x80000000, 0) := by
  refine ⟨by decide, ?_, ?_, trivial, by decide⟩
  · rw [(by decide : fmt32.decode 0x3F800000 = .fin false 8388608 (-23))]; show 0 < 8388608; decide
  · rw [(by decide : fmt32.decode 0xBF800000 = .fin true 8388608 (-23))]; show 0 < 8388608; decide

/-- Compares and Predicates: the predicates of a wave, and a k destination of `sel`. -/
theorem witness_predicates :
    hasPreds plain ∧ (Instr.sel (.k 0) .zero .zero).classFault = some .operandClass ∧ 47 < plain.wave.k.length := by
  refine ⟨⟨by decide, by decide, fun l h => ?_⟩, by decide, by decide⟩
  have h16 : 16 ≤ l := h
  have e : plain.active = 0xFFFF#64 := by decide
  rw [e]
  by_cases h64 : l < 64
  · have := (by decide : ∀ x : Fin 64, 16 ≤ x.val → (0xFFFF#64).getLsbD x.val = false)
    exact this ⟨l, h64⟩ h16
  · exact BitVec.getLsbD_of_ge _ _ (by omega)

/-- Packing: subgroups of 4 in a wave of 16. -/
theorem witness_packing :
    let c := clause 0x0785 [] []
    0 < c.wave.width ∧ c.wave.width ≤ 64 ∧ c.wave.width % subWidth c = 0 ∧ subWidth c = 4 := by decide

/-- Marks: a path with no pending fault, in a launch that is deterministic and in one that is not. -/
theorem witness_marks :
    plain.pth.pending = [] ∧ detWorld.dev.det plain.wave.id = true ∧ world.dev.det plain.wave.id = false := by decide

/-- Branches: `ret` and `bsa` at the edges of what they take. -/
theorem witness_branches :
    (0xFFFFFFFFFFFC : W64).toNat < 2 ^ 48 ∧ (0xFFFFFFFFFFFC : W64).toNat % 4 = 0 ∧
      ¬ ((0x1000000000000 : W64).toNat < 2 ^ 48) ∧ ¬ ((2 : W64).toNat % 4 = 0) ∧
      (0xFFFF01FF : W64) &&& 0xFFFFFFFF0000FE00 = 0 ∧ (0x200 : W64) &&& 0xFFFFFFFF0000FE00 ≠ 0 := by decide

/-- Divergence: no join and a target that is not ahead; and with a join, no lane, some lanes and every lane taken. -/
theorem witness_divergence :
    let c := withQ 3 0xF plain
    let c' := c.setPth { c.pth with join := some 0x1030 }
    c.pth.join = none ∧ (labelAt c 0).toNat ≤ c.header.toNat ∧ c.header.toNat < (labelAt c 1).toNat ∧
      c'.pth.join = some 0x1030 ∧ takenLanes c' 2 = 0 ∧ takenLanes c' 3 = 0xF ∧ takenLanes c' 15 = c'.pth.mask ∧
      c'.wave.div = [] ∧ c'.path = 0 ∧ c'.next ≠ 0x1030 ∧ labelAt c' 9 ≠ 0x1030 ∧
      world.dev.det c'.wave.id = false := by decide

/-- Loops: a count of zero and another, an empty and a full stack, and an `lbrk` of no lane, of some and of all. -/
theorem witness_loops :
    let e : LoopEntry := ⟨0x1008, 0x1020, 3, 0⟩
    let c := withQ 3 0xF (plain.setPth { plain.pth with loops := [e, e, e, e] })
    ((plain.wave.k.getD 0 0).extractLsb' 0 32 = 0) ∧ plain.pth.loops = [] ∧ c.pth.loops.length = 4 ∧
      takenLanes c 2 = 0 ∧ takenLanes c 3 ≠ 0 ∧ c.pth.mask &&& ~~~ takenLanes c 3 ≠ 0 ∧
      c.pth.mask &&& ~~~ takenLanes c 15 = 0 := by decide

/-- Releases. -/
theorem witness_releases : releasable plain := by
  exact ⟨by decide, by decide⟩

/-- SpecialRegisters: an active lane, and none. -/
theorem witness_specialRegisters :
    (List.range plain.wave.width).find? plain.active.getLsbD = some 0 ∧
      (List.range plain.wave.width).find? (clause 0x1C05 [] []).active.getLsbD = none := by decide

/-- AllowanceAndWays: destinations at the limit and above it; the ways that are asked for. -/
theorem witness_allowance :
    (∀ l, plain.src false true (.lit32 511) l ≤ 511) ∧ 511 < plain.src false true (.lit32 512) 0 ∧
      (world.dev.core 0).ways + plain.waysAdded = 0 := by
  refine ⟨fun l => ?_, by decide, by decide⟩
  simp [Issue.src]

/-- LocalChecks: no line is lost; a misaligned lane, a lane beyond the end, and lanes in place. -/
theorem witness_localChecks :
    (∀ l, (running plain).dev.lost.contains ⟨.scratch 0 0, l⟩ = false) ∧ (running plain).scratchSize plain = 1024 ∧
      (running plain).dev.failing = [] ∧
      ((running plain).checkAccess plain .scratch .read 4 false [0, 1] (fun l => (1020 + 4 * l : Nat)) (fun _ => none)).2 matches
        .error (.fault 5 0x06 2 1024) ∧
      ((running plain).checkAccess plain .scratch .read 4 false [0, 1] (fun l => (1022 + 4 * l : Nat)) (fun _ => none)).2 matches
        .error (.fault 4 0x01 3 1022) := by
  exact ⟨fun l => rfl, by decide, rfl, by decide, by decide⟩

/-- What the checks of an access come to: the number of lanes that have a place. -/
def placed (r : State × Except Stop (List LaneAccess × List Nat)) : Option Nat :=
  match r.2 with
  | .ok (parts, _) => some parts.length
  | .error _ => none

/-- Loads, Stores, Atomics, FabricWrites and EarlyLoads: the checks of accesses to the spaces pass in all sixteen lanes. -/
theorem witness_accesses :
    let r := fun (sp : MemSpace) (need : Need) => placed ((running plain).checkAccess plain sp need 4 false
      ((List.range plain.wave.width).filter plain.active.getLsbD) (plain.addrOf (sp = .global) (.v 0) .zero) (fun _ => none))
    r .global .read = some 16 ∧ r .global .write = some 16 ∧ r .global .atomic = some 16 ∧ r .scratch .read = some 16 ∧
      r .scratch .atomic = some 16 ∧ r .priv .write = some 16 ∧ r .const .read = some 16 ∧ r .cluster .read = some 16 := by
  decide

/-- The same over the fabric and by version, for pairs that name addresses of this device and its current step; and an
address that nothing maps. -/
theorem witness_far_accesses :
    let r := fun (sp : MemSpace) (need : Need) => placed ((running plain).checkAccess plain sp need 4 false
      ((List.range plain.wave.width).filter plain.active.getLsbD) (plain.addrOf true (.v 0) .zero) (fun _ => none))
    r .fabric .read = some 16 ∧ r .fabric .write = some 16 ∧ r .fabric .atomic = some 16 ∧ r .version .read = some 16 ∧
      placed ((running plain).checkAccess plain .global .read 4 false [0] (fun _ => 0x80000000) (fun _ => none)) = none := by
  decide

/-- Copies: places in global memory and in the scratchpad. -/
theorem witness_copies :
    placed ((running plain).checkAccess plain .global .read 16 false (realLanes plain) (plain.addrOf true (.v 2) .zero)
      (fun l => if plain.src false true (.v 2) l % 16 ≠ 0 then some ⟨1, 4, 0x01, 0, none⟩
        else if plain.src false true (.v 2) l + 16 ≤ 1024 then none else some ⟨2, 5, 0x06, 0, none⟩)) = some 16 := by decide

/-- SystemMemory: a slot below and at 1,024, an `enq` with room, and an `fsys` with its waits met. -/
theorem witness_systemMemory :
    plain.src true true (.lit32 1024) 0 = 1024 ∧ plain.src true true (.lit32 1023) 0 < 1024 ∧ releasable plain ∧
      (running plain).dev.openGraphs 1 < 64 ∧ plain.effects = [] ∧
      (running plain).dev.fenceMet plain.wave.id plain.pth.mask .sc = true ∧ plain.addrOf false (.lit32 960) .zero 0 = 960 ∧
      placed ((running plain).checkAccess plain .global .write 4 true [0] (fun _ => 0x20000) (fun _ => none)) = some 1 := by
  refine ⟨by decide, by decide, witness_releases, by decide, by decide, by decide, by decide, by decide⟩

/-- MatrixSetup and MatrixMultiply: f32 by f32, which the array after reset holds, a row in the scratchpad, and the sizes at
their limits. -/
theorem witness_matrix :
    let c := clause 0x1F89 [] [0, 0, 0]
    (running plain).btypeAt plain 0 = .f32 ∧ c.ty = .f32 ∧ bitsOf (c.layout 0) 95 92 ≤ 6 ∧
      c.src false true (.lit32 8191) 0 ≤ 8191 ∧ (∀ l ∈ realLanes c, ∀ p, rowPlaces c.ty (c.layout 0) l = some p →
        rowCheck 1024 (p.1 ++ p.2) = none) := by
  refine ⟨by decide, by decide, by decide, by decide, ?_⟩
  have h : ((realLanes (clause 0x1F89 [] [0, 0, 0])).all (fun l =>
      match rowPlaces .f32 ((clause 0x1F89 [] [0, 0, 0]).layout 0) l with
      | some p => (rowCheck 1024 (p.1 ++ p.2)).isNone
      | none => true)) = true := by decide
  intro l hl p hp
  have hl' := List.all_eq_true.1 h l hl
  have e : (clause 0x1F89 [] [0, 0, 0]).ty = .f32 := by decide
  rw [e] at hp
  rw [hp] at hl'
  simpa using hl'

/-- SplatIssue and EngineIssue: records at the end of the scratchpad, beyond it, and off their alignment. -/
theorem witness_records :
    plain.src false true (.lit32 960) 0 + 64 ≤ (running plain).scratchSize plain ∧
      (running plain).scratchSize plain < plain.src false true (.lit32 1024) 0 + 64 ∧
      plain.src false true (.lit32 32) 0 % 64 ≠ 0 ∧ (running plain).dev.failing = [] := by
  decide

/-- EngineIssue: a `cpy` record of zeros is invalid; a copy of 64 bytes has two ranges, for which there is room, and would have
none where the locks of other commands leave less. -/
theorem witness_engineIssue :
    let cmd := leBytes 8 0x20000 ++ leBytes 8 0x30000 ++ leBytes 4 16 ++ leBytes 4 1 ++ leBytes 4 64 ++ leBytes 4 64 ++
      leBytes 8 0 ++ leBytes 2 0x5500 ++ List.replicate 22 0
    let full := { world with dev := { dev0 with locks := List.replicate 63 ⟨0, 1, false, none, 0, 64, 7⟩ } }
    ((running plain).dev.validEngine 1 0xE8 0 1024 (List.replicate 64 0) [] matches .reject _) ∧
      (match (running plain).dev.validEngine 1 0xE8 0 1024 cmd [] with
       | .ok ranges => ranges.length == 2 && decide (ranges.length ≤ (running plain).lockRoom 0 (some plain.wave.id)) &&
           decide (full.lockRoom 0 (some plain.wave.id) < ranges.length)
       | .reject _ => false) = true := by
  decide

/-! Witnesses of the statements about events, and small results of them. -/

/-- A lane's part at a place of HBM. -/
def partAt (l addr value : Nat) : LaneAccess :=
  { lane := l, loc := ⟨.hbm, addr⟩, va := BitVec.ofNat 64 addr, value := BitVec.ofNat 64 value, value2 := 0, copy := none
    version := none, old := false }

/-- An access in flight of the wave, with nothing done. -/
def flight (op : Nat) (kind : AccessKind) (parts : List LaneAccess) (dest : Dest) : Access :=
  { op := op, ctx := 1, w := ⟨0, 0, 0⟩, path := 0, clause := 0x1000, kind := kind, width := 4, mtype := 5, lanes := parts
    dest := dest, flag := some 1, counter := some 0, fp := 0, results := [], halves := [], failed := [] }

/-- The world with some accesses in flight. -/
def flying (l : List Access) : State := { world with dev := { dev0 with inflight := l } }

/-- The world whose wave has a store of two lanes in flight. -/
def storing : Access := flight 5 .store [partAt 0 0x20000 7, partAt 1 0x20004 8] .none

/-- AccessEvents, the store: its lowest lane, on a page whose right is here, and granted. -/
theorem witness_storePerformed :
    (flying [storing]).dev.access? 5 = some storing ∧ storing.lanes = [partAt 0 0x20000 7, partAt 1 0x20004 8] ∧
      (∀ x ∈ [partAt 1 0x20004 8], x.lane ≠ (partAt 0 0x20000 7).lane) ∧
      (flying [storing]).dev.partReady storing (partAt 0 0x20000 7) = true ∧
      (match (flying [storing]).dev.partRight storing (partAt 0 0x20000 7) with | .here => true | _ => false) = true ∧
      (flying [storing]).dev.refusedBy (masterAt 1 0 .hbm) ⟨.hbm, 0x20000⟩ 4 true = none ∧
      (flying [storing]).dev.lost.contains (⟨.hbm, 0x20000⟩ : Loc).line = false ∧ (flying [storing]).dev.failing = [] ∧
      ((flying [storing]).dev.storePlace storing (partAt 0 0x20000 7)).space = .hbm := by decide

/-- Divergence, the nested ones: under a dual entry of the wave, on either path: an entry of the path that another divergence to
the same address joins, one whose deferred arm forbids it, and sixteen of them; and arms that start at the address. -/
theorem witness_nested :
    let e : DivEntry := { j := 0x1030, mode := 0, loops := [], arrived := 0, broke := [], deferred := none, dual := true, owner := 0 }
    let mine : DivEntry := { e with dual := false, owner := 1 }
    let at_ := fun (path : Nat) (j : W64) (es : List DivEntry) =>
      let c := withQ 3 0xF { plain with path := path, wave := { plain.wave with
        div := es, path1 := { plain.wave.path0 with mask := 0xFF, join := some j } } }
      c.setPth { c.pth with join := some j }
    let c := at_ 1 0x1030 [mine, e]
    let inner := fun (c : Issue) => c.wave.div.findIdx? (fun e => !e.dual && e.owner == c.path)
    takenLanes c 3 ≠ 0 ∧ c.pth.mask &&& ~~~ c.wave.qread 3 ≠ 0 ∧ c.pth.join = some 0x1030 ∧ c.path = 1 ∧
      inner c = some 0 ∧ inner (at_ 0 0x1030 [e]) = none ∧ (at_ 0 0x1030 [e]).wave.div.findIdx? DivEntry.dual = some 0 ∧
      c.next = 0x1008 ∧ (at_ 1 0x1008 [mine, e]).pth.join = some (at_ 1 0x1008 [mine, e]).next ∧ labelAt c 9 = 0x1024 ∧
      labelAt c 12 = 0x1030 ∧ labelAt c 2 = 0x1008 ∧
      (at_ 1 0x1040 (List.replicate 15 { mine with deferred := some (0, 0) } ++ [e])).wave.div.length = 16 ∧
      detWorld.dev.det c.wave.id = true ∧ world.dev.det c.wave.id = false := by decide

/-- AllowanceAndWays: destinations at the limit, above it in some lanes, and above it for a k register; the ways asked for. -/
theorem witness_destination :
    ((realLanes plain).filter (fun l => decide (511 < plain.src false true (.v 2) l))) = [8, 9, 10, 11, 12, 13, 14, 15] ∧
      ((realLanes plain).filter (fun l => decide (511 < plain.src false true (.lit32 511) l))) = [] ∧
      511 < plain.src false true (.lit32 512) 0 ∧ (world.dev.core plain.wave.core).ways = 0 := by decide

/-- The world in which the wave's die holds the line of the first lanes, in some state. -/
def sharing (x : LineState) : State :=
  { world with dev := { dev0 with l2 := [⟨0, ⟨.hbm, 0⟩, x, 3, List.replicate 128 1⟩] } }

/-- EarlyLoads: the copies of lines that a die has, valid and stale, where the checks pass; and an empty list of entries. -/
theorem witness_earlyLoads :
    [LineState.modified, .exclusive, .shared, .stale].all (fun x =>
      let s := { sharing x with issue := some plain }
      (s.earlyCopy plain ⟨.hbm, 0⟩).isSome && (s.earlyCopy plain ⟨.hbm, 0x80⟩).isNone &&
      (match s.checkAccess plain .global .read 4 false ((List.range plain.wave.width).filter plain.active.getLsbD)
          (plain.addrOf true (.v 0) .zero) (fun _ => none) with
       | (_, .ok (parts, _)) => parts.all (fun la => la.loc.line == ⟨.hbm, 0⟩)
       | _ => false)) = true ∧ plain.wave.watch = [] ∧ world.dev.det plain.wave.id = false ∧
      detWorld.dev.det plain.wave.id = true := by decide

/-- LocalChecks: an access that is kept from the checks of the whole clause. -/
theorem witness_recorded :
    let x : CheckedAccess := ⟨0, [(0, 64)], [partAt 0 64 0], []⟩
    ({ plain with flushed := true, checked := [x] }).recorded [(0, 64)] = some x ∧ plain.recorded [(0, 64)] = none := by
  decide

/-- Releases: a clause while its checks are made, one with an effect to perform before its fence, and one whose waits are not
met. -/
theorem witness_fences :
    let c := { plain with effects := [.put ⟨.scratch 0 0, 0⟩ [1]] }
    ({ plain with phase := .checking }).phase = .checking ∧ plain.phase = .running ∧
      ((running c).flush c).2.effects = [] ∧ ((running c).flush c).1.dev.fenceMet c.wave.id c.pth.mask .rel = true ∧
      (flying [storing]).dev.fenceMet plain.wave.id plain.pth.mask .rel = false := by decide

/-- SystemMemory: an operand that a helper lane supplies, and a clause whose checks are made, with room and without. -/
theorem witness_helper :
    let c := { plain with wave := { plain.wave with helper := 1 } }
    (List.range c.wave.width).find? c.active.getLsbD = some 0 ∧ c.wave.helper.getLsbD 0 = true ∧
      c.src true true (.v 2) 0 % 64 = 0 ∧ c.src true true .one 0 % 64 ≠ 0 ∧ (inClause c).dev.openGraphs 1 < 64 ∧
      64 ≤ { dev0 with graphs := List.replicate 64 ⟨0, 1, 0, 0, 0, 0, [], none, false⟩ }.openGraphs 1 := by decide

/-- Placements of matrix operations: no clause holds, and one that uses the queue of the core. -/
theorem witness_queueHeld :
    let mine := plain.wave
    let holder := { plain with queues := [0], wave := { plain.wave with id := ⟨0, 0, 1⟩ } }
    (running plain).queueHeld mine.id 0 = false ∧
      [0].find? ({ running plain with held := [holder] }.queueHeld mine.id) = some 0 := by decide

/-- A load of one lane of the scratchpad, and a computation of one lane of a pair. -/
def loading : Access := flight 7 .load [{ partAt 0 64 0 with loc := ⟨.scratch 0 0, 64⟩ }] (.v 3 false)

def computed : Access := { flight 6 .compute [] (.v 2 true) with results := [(15, 0x500000007)] }

/-- AccessEvents, the completions: a computation of lane 63 at the edge, a load, and half of a pair. -/
theorem witness_completions :
    (flying [{ computed with results := [(63, 1)] }]).waveNow ⟨0, 0, 0⟩ = some wave0 ∧
      (∀ r ∈ [(63, (1 : W64))], r.1 < 64) ∧ (flying [loading]).dev.access? 7 = some loading ∧
      (∀ l ∈ loading.lanes, (flying [loading]).dev.partReady loading l = true) ∧
      (flying [computed]).dev.access? 6 = some computed ∧ 2 + 1 < wave0.v.length ∧ (∀ r ∈ wave0.v, 15 < r.length) ∧
      computed.halves = [] ∧ computed.dest = .v 2 true := by decide

/-- R46: the halves of a pair may disagree: the low half alone is written. -/
theorem test_half :
    ((answer (exec (.longLatencyCompletion 6 (.half false (BitVec.allOnes 64))) (flying [computed]))).bind
      (fun s => s.waveNow ⟨0, 0, 0⟩)).map (fun w => (rowElem w.v 2 15, rowElem w.v 3 15)) = some (7, 0) := by decide

/-- R200: the worked example: with 3 in the word, four lanes that each add 1 leave 7, and take 3, 4, 5 and 6. -/
theorem test_aadd_in_lane_order :
    (answer (exec (.accessPerformed 8 4) { world with dev := { dev0 with
      hbm := Memory.writeN tables 0x20000 [3]
      inflight := [flight 8 (.atomic 0xC1) [partAt 0 0x20000 1, partAt 1 0x20000 1, partAt 2 0x20000 1, partAt 3 0x20000 1]
        (.v 9 false)] } })).map (fun s => (s.dev.hbm.read 0x20000, s.dev.inflight.map Access.results)) =
      some (7, [[(0, 3), (1, 4), (2, 5), (3, 6)]]) := by decide

/-- R233: the worked example of `acas`: only lane 0 finds 0 and writes 1. -/
theorem test_acas_in_lane_order :
    (answer (exec (.accessPerformed 8 4) (flying [flight 8 (.atomic 0xC9)
      ((List.range 4).map (fun l => { partAt l 0x20000 0 with value2 := BitVec.ofNat 64 (l + 1) })) (.v 8 false)]))).map
        (fun s => (s.dev.hbm.read 0x20000, s.dev.inflight.map Access.results)) =
      some (1, [[(0, 0), (1, 1), (2, 1), (3, 1)]]) := by decide

/-- The world whose group has instructions on its first counter. -/
def counting (l : List (Nat × Bool)) : State :=
  { world with dev := { dev0 with groups := [{ group0 with counters := [l, [], [], []] }] } }

/-- AccessEvents, the counters, and R61's worked example: with B done and A not, nothing falls; then A and B fall. -/
theorem witness_counters :
    ((counting [(1, true), (2, true), (3, false)]).dev.group? 0 0).map (fun g => g.counters[0]?) =
        some (some [(1, true), (2, true), (3, false)]) ∧
      ((counting [(1, true)]).dev.waves.any (fun w => w.id.launch == 0 && w.id.group == 0 && !w.over)) = true ∧
      answer (exec (.counterDecrement 0 0 0) (counting [(1, false), (2, true), (3, false)])) =
        some (counting [(1, false), (2, true), (3, false)]) := by
  refine ⟨by decide, by decide, rfl⟩

/-- A pending watch entry of the wave. -/
def pendingEntry : WatchEntry :=
  { id := 50, fabric := false, line := ⟨.hbm, 0x20000⟩, va := 0x20000, seq := 2, set := 1, lanes := 1, state := .pending }

def watching : State :=
  { world with dev := { dev0 with waves := [{ wave0 with watch := [pendingEntry] }], dir := [⟨⟨.hbm, 0x20000⟩, 2, true⟩] } }

/-- AccessEvents, the verdicts: the line's number stands, so the entry is confirmed. -/
theorem witness_watchVerdict :
    ((watching.waveNow ⟨0, 0, 0⟩).bind (fun w => w.watch[0]?)) = some pendingEntry ∧
      ((answer (exec (.watchVerdict ⟨0, 0, 0⟩ 0 false) watching)).bind (fun s => s.waveNow ⟨0, 0, 0⟩)).map
        (fun w => w.watch.map WatchEntry.state) = some [.confirmed] := by decide

/-- A context whose page 0 has tables down to the last level and is not mapped, with a hint to host memory, and pool lists
of one free place and of none. -/
def touching : State :=
  let m := (List.range 4).foldl (fun (m : Memory) i =>
    Memory.writeN m (0x10000 + 0x1000 * i) (leBytes 8 (2 ^ 62 + 0x11000 + 0x1000 * i))) []
  let m := Memory.writeN (Memory.writeN m 0x30000 (leBytes 8 0 ++ leBytes 8 0x10000 ++ [2])) 0x40000
    (leBytes 8 0x50000 ++ leBytes 4 0 ++ leBytes 4 1)
  { world with dev := { dev0 with
    ctxs := [{ ctx1 with hints := 0x30000, nhint := 1, pool := 0x40000 }], hbm := m
    fills := [{ w := ⟨0, 0, 0⟩, ctx := 1, mask := 1, pages := [⟨0, 0, 0, true⟩], unit := none, cmd := none }]
    returns := [⟨1, false, 0x70000⟩, ⟨1, true, 0x80000⟩] } }

/-- FillsAndFrames: both clauses, with a list that has room and one that is full. -/
theorem witness_fills :
    touching.issue = none ∧ (touching.dev.fills[0]?).map Fill.pages = some [⟨0, 0, 0, true⟩] ∧
      ((touching.dev.ctx? 1).bind (fun x => touching.dev.hintOf x 0)).map (fun h => (h.home, h.large)) = some (2, false) ∧
      touching.dev.walkTable 0x10000 0 = .invalid 0x14000 16 ∧
      touching.dev.refusedBy firmwareMaster ⟨.hbm, 0x14000⟩ 8 true = none ∧ (touching.dev.returns.map touching.returnReady) = [true, true] ∧
      ((touching.dev.ctx? 1).map (fun x => [(touching.dev.poolList x 0).count, (touching.dev.poolList x 0).capacity,
        (touching.dev.poolList x 2).count, (touching.dev.poolList x 2).capacity])) = some [0, 1, 0, 0] := by decide

/-- The world with a clause of one `exit` at the wave's next header. -/
def ready : State :=
  { world with dev := { dev0 with
    hbm := Memory.writeN tables 0x1000 (leBytes 4 0xF84003FC ++ leBytes 4 0x0E000000) } }

/-- Scheduling: the wave's only path may start its clause. -/
theorem witness_clauseIssue :
    ready.issue = none ∧ ready.held = [] ∧ ready.dev.bayOrder 0 = [wave0] ∧ ready.dev.wave? wave0.id = some wave0 ∧
      (∀ x ∈ ready.dev.waves, x.yieldTo = [] ∧ (x.id = wave0.id → x = wave0)) ∧ ready.mayStart wave0 = true ∧
      wave0.last = 0 ∧ wave0.forced = none ∧ wave0.path0.live = true ∧ wave0.path0.wait = .none ∧
      wave0.path0.park = .none ∧ wave0.path1.live = false ∧
      (match (ready.fetchFill wave0 0).startOf wave0 0 with
       | .runs c => c.words == [0x0E000000] && c.next == 0x1008
       | _ => false) = true ∧ (running plain).issue.isSome = true := by
  have e : ready.dev.waves.filter (fun w => w.dom == 0 && !w.over) = [wave0] := by decide
  have r : ready.dev.rotation = [] := rfl
  refine ⟨rfl, rfl, by simp [Dev.bayOrder, e, r], by decide, by decide, by decide, rfl, rfl, by decide, by decide, by decide,
    by decide, by decide +kernel, rfl⟩

/-- Scheduling: paths that have aged, in both kinds of launch, and a wave with nothing in flight. -/
theorem witness_switches :
    (ready.waveNow wave0.id).isSome = true ∧ ready.dev.det wave0.id = false ∧
      256 ≤ { wave0.path0 with ageing := 256 }.ageing ∧ detWorld.dev.det wave0.id = true ∧
      ({ wave0 with switches := 256, path1 := { wave0.path0 with mask := 0 } }.path 1).mayRun = true ∧
      ready.syncPending wave0.id = false := by decide

/-- The world with the launch's one cluster not yet placed. -/
def placing : State :=
  { world with dev := { dev0 with launches := [{ launch0 with nextCluster := 0 }], groups := [], waves := [] } }

/-- Scheduling: a placement, and a launch that has used its budget. -/
theorem witness_placement :
    placing.dev.mayPlace { launch0 with nextCluster := 0 } = true ∧
      placing.dev.placeOn ctx1 { launch0 with nextCluster := 0 } 0 = some [0] ∧
      (({ launch0 with used := 65536 } : Launch).budget ≤ ({ launch0 with used := 65536 } : Launch).used) ∧
      launch0.halted = false ∧ world.dev.watchdogWave 0 = some wave0 ∧ world.issueOf wave0.id = none := by decide

/-- The world with a queue at core 0. -/
def queued (q : List MatrixOp) : State := { world with dev := { dev0 with cores := [{ Core.empty 0 with queue := q }] } }

/-- MatrixQueue: every kind of head, and a wave with registers to clear. -/
theorem witness_matrixQueue :
    (queued [.wld 5 ⟨0, 0, 0⟩ 0 0 16 none]).dev.scratchSettled ⟨0, 0, 0⟩ 5 = true ∧
      ((queued [.wld 5 ⟨0, 0, 0⟩ 0 0 16 none]).dev.core 0).queue = [.wld 5 ⟨0, 0, 0⟩ 0 0 16 none] ∧
      (queued []).dev.failing = [] ∧ (some [(1 : Byte)]).isSome = true ∧
      (queued []).waveNow ⟨0, 0, 0⟩ = some wave0 ∧ 0 + 16 ≤ wave0.v.length ∧ ∀ r ∈ wave0.v, r.length = wave0.width := by
  decide

/-- MatrixQueue, R160: a product and a zero write on the same registers: the earlier one is free, the later one waits for it. -/
theorem witness_dFree :
    let m : MatrixOp := .mma 5 true ⟨0, 0, 0⟩ 0 9 0 0 []
    let z : MatrixOp := .mmz 6 ⟨0, 0, 0⟩ 0x2 0
    (queued [m, z]).dev.dFree m = true ∧ (queued [m, z]).dev.dFree z = false ∧ (queued [z]).dev.dFree z = true := by decide

/-- A row of A of one lane, of f32 zeros. -/
def rowOf (l : Nat) : ARow := ⟨l, List.replicate 64 0, [], none⟩

/-- MatrixQueue: an operation of an octet at the head, alone and as a part of a chain, a clear, and results that are still to be
written; an event that writes all of them, and one that writes none. -/
theorem witness_octets :
    let m : Bool → MatrixOp := fun part => .mma 5 part ⟨0, 0, 0⟩ 0 9 0 0 [rowOf 0, rowOf 3]
    let r : MatrixOp := .results 5 .zero ⟨0, 0, 0⟩ 0 [⟨0, 1, 0⟩]
    ((queued [m false]).dev.core 0).queue = [m false] ∧ (queued [m false]).dev.dFree (m false) = true ∧
      (queued [m true]).dev.dFree (m true) = true ∧ (∀ x ∈ [rowOf 0, rowOf 3], x.lost = none) ∧
      ((queued [r]).dev.core 0).queue = [r] ∧ (queued [.mmz 6 ⟨0, 0, 0⟩ 0x2 0]).dev.dFree (.mmz 6 ⟨0, 0, 0⟩ 0x2 0) = true ∧
      ((answer (exec (.mmzWrite ⟨0, 0, 0⟩) (queued [r]))).map (fun s => (s.dev.core 0).queue)) = some [r] ∧
      ((answer (exec (.mmzWrite ⟨0, 1, 2⟩) (queued [r]))).map (fun s => (s.dev.core 0).queue)) = some [] := by decide

/-- R46, R159: the first register of an octet is written before the others: the elements of the rest stay at the head. -/
theorem test_part_of_octet :
    let m : MatrixOp := .mma 5 false ⟨0, 0, 0⟩ 0 9 0 0 [rowOf 0, rowOf 3]
    ((answer (exec (.matrixOperation ⟨0, 1, 1⟩) (queued [m]))).map (fun s => (s.dev.core 0).queue.map (fun x => match x with
      | .results _ _ _ _ els => els.length
      | _ => 0))) = some [31] := by decide +kernel

/-- MatrixQueue, the steps of 32 products: finite ones under positive scales, an infinite one, infinities of both signs, a NaN
and a product that is none. -/
theorem witness_products :
    let one := FVal.fin false 1 0
    (∀ p ∈ [(one, one), (one, FVal.zero true)], finite p.1 ∧ finite p.2) ∧ 0 < 3 ∧ exactMul one (.inf true) = some (.inf true) ∧
      exactMul (.inf false) one = some (.inf false) ∧ exactMul (.zero false) (.inf true) = none ∧
      (fmt32.decode fmt32.nan).isNaN = true ∧ EType.f64 ≠ EType.f32 ∧ EType.ofCode 9 = .f32 := by
  refine ⟨?_, by decide⟩
  intro p hp
  simp at hp
  rcases hp with rfl | rfl <;> simp [finite]

/-- R155, R162: a swap makes the other bank active, and the zero write clears its lanes alone. -/
theorem test_matrix_heads :
    (answer (exec (.bankSwap 0) (queued [.wswp 5 ⟨0, 0, 0⟩]))).map (fun s => (s.dev.core 0).active) = some true ∧
      ((answer (exec (.mmzWrite ⟨0, 0xFFFF, BitVec.allOnes 64⟩) (queued [.mmz 5 ⟨0, 0, 0⟩ 0x2 0]))).bind (fun s => s.waveNow ⟨0, 0, 0⟩)).map
        (fun w => (w.v.getD 0 []).take 4) = some [0, 0, 8, 12] := by decide

/-- R88, R159: the step of the worked example in f64: half of the last place of 1, added to 1, is a tie and leaves 1. -/
theorem test_f64_tie :
    (fmt64.addV .rne false false (fmt64.decode 0x3FF0000000000000) (fmt64.decode 0x3CA0000000000000)).1 =
      0x3FF0000000000000 := by decide

/-- A splat operation of the wave. -/
def splatOp (opcode : Nat) (cmd : List Byte) (accepted : Bool) : SplatOp :=
  { op := 9, opcode := opcode, w := ⟨0, 0, 0⟩, clause := 0x1000, record := 0, command := cmd, accepted := accepted
    parked := false }

/-- The world with an operation in the queue of unit 0. -/
def unitWith (o : SplatOp) : State := { world with dev := { dev0 with units := [⟨0, [o]⟩] } }

/-- Parameters of a frame of 16 by 16 pixels, cutoff 0, near plane 1, dilation 0. -/
def spmRecord : List Byte :=
  leBytes 4 16 ++ leBytes 4 16 ++ leBytes 4 0 ++ leBytes 4 0x3F800000 ++ List.replicate 48 0

/-- SplatUnits: an operation to accept, one of parameters, and one of each kind at the head that completes (with a record
that the unit reports as invalid). -/
theorem witness_splatUnits :
    ((unitWith (splatOp 0xE0 [] false)).dev.unitQueue 0).find? (fun x => !x.accepted) = some (splatOp 0xE0 [] false) ∧
      (unitWith (splatOp 0xE0 [] false)).dev.scratchSettled ⟨0, 0, 0⟩ 9 = true ∧
      (unitWith (splatOp 0xE0 spmRecord true)).splatHead 0 0xE0 = some (splatOp 0xE0 spmRecord true, group0) ∧
      splatParamsOf spmRecord = some ⟨16, 16, 0, 0x3F800000, 0⟩ ∧
      [(0xE1, State.runProject), (0xE2, State.runBin), (0xE3, State.runSort), (0xE4, State.runBlend),
        (0xE5, State.runGradient)].all (fun x =>
          let s := unitWith (splatOp x.1 [1] true)
          s.splatHead 0 x.1 == some (splatOp x.1 [1] true, group0) &&
            (match x.2 s (splatOp x.1 [1] true) group0 with
             | (t, .ok _) => ((t.dev.group? 0 0).map (fun g => g.scratch.wf)) == some true
             | _ => false)) = true := by decide

/-- SplatUnits, the bytes written: a batch of two records whose places stand in HBM, and of which no data is lost. -/
theorem witness_splatWrite :
    let o := splatOp 0xE1 [] true
    (match (unitWith o).splatCheck o .write 64 [0x20000, 0x20040] with
     | (s, .ok ps) => ps.map LaneAccess.loc == [⟨.hbm, 0x20000⟩, ⟨.hbm, 0x20040⟩] && s.dev.failing.isEmpty && s.dev.lost.isEmpty
     | _ => false) = true := by decide

/-- SplatUnits, a projection of the one splat of zeros at 0x20000, under a camera of zeros, which is invisible. -/
def projection : List Byte :=
  leBytes 8 0x20000 ++ leBytes 8 0x30000 ++ leBytes 4 0 ++ leBytes 4 1 ++ List.replicate 40 0

theorem witness_projection :
    let o := splatOp 0xE1 projection true
    let s := unitWith o
    field projection 0 8 = 0x20000 ∧ field projection 8 8 = 0x30000 ∧ field projection 16 4 = 0 ∧ field projection 20 4 = 1 ∧
      field projection 24 4 + 64 ≤ group0.scratchSize ∧ zeroBytes projection 28 60 = true ∧ s.dev.failing = [] ∧
      (projectSplat group0.splat ⟨List.replicate 16 0⟩ (fun _ => 0)).1 = none ∧
      (match s.splatFetch o 64 [0x20000] with
       | (s1, .ok recs) => recs == [List.replicate 64 0] && (match s1.splatWrite o 64 [(0x30000, List.replicate 64 0)] with
         | (_, .ok ()) => true
         | _ => false)
       | _ => false) = true := by decide +kernel

/-- The world with one visible projected record at 0x20000, of tile 0, its depth 7, and an operation. -/
def projected (o : SplatOp) : State :=
  let r := List.replicate 20 0 ++ leBytes 4 7 ++ leBytes 4 0x3F800000 ++ List.replicate 12 0 ++ leBytes 4 0 ++ leBytes 4 1
  { unitWith o with dev := { (unitWith o).dev with hbm := Memory.writeN tables 0x20000 r } }

/-- A command over a window of one tile with one place in its list. -/
def windowed (head : List Byte) (tail : List Byte) : List Byte :=
  head ++ leBytes 4 0 ++ leBytes 2 0 ++ leBytes 2 0 ++ leBytes 2 1 ++ leBytes 2 1 ++ leBytes 4 1 ++ tail

/-- SplatUnits, a binning of that record, which meets the tile; a sort; and the window of a blend. -/
theorem witness_binning :
    let cmd := windowed (leBytes 8 0x20000 ++ leBytes 4 0 ++ leBytes 4 1) (List.replicate 28 0)
    let o := splatOp 0xE2 cmd true
    let s := projected o
    let s0 := s.poke ⟨.scratch 0 0, 0⟩ (List.replicate 4 0)
    (binsOf cmd group0).map Bins.tiles = some 1 ∧ field cmd 0 8 = 0x20000 ∧ field cmd 12 4 = 1 ∧ field cmd 8 4 = 0 ∧
      zeroBytes cmd 32 60 = true ∧ s.dev.failing = [] ∧ s.dev.group? 0 0 = some group0 ∧ group0.scratch.wf = true ∧
      (match s0.splatFetch o 64 [0x20000] with
       | (s1, .ok recs) => recs.map (fun r => (field r 44 4, field r 40 4, field r 20 4)) == [(1, 0, 7)] &&
          decide (s1.dev.groups = s0.dev.groups) && s1.dev.failing.isEmpty
       | _ => false) = true ∧ (binsOf cmd group0).map (fun b => b.tilesOf 0) = some [0] := by decide +kernel

theorem witness_sort :
    let cmd := windowed (List.replicate 16 0) (List.replicate 28 0)
    (binsOf cmd group0).map Bins.tiles = some 1 ∧ zeroBytes cmd 0 16 = true ∧ zeroBytes cmd 32 60 = true ∧
      (unitWith (splatOp 0xE3 cmd true)).dev.group? 0 0 = some group0 ∧ group0.scratch.wf = true := by decide

/-- R180, R181: the visible record is entered in its tile, with its depth and its number, and the sort leaves it there. -/
theorem test_binned :
    let cmd := windowed (leBytes 8 0x20000 ++ leBytes 4 0 ++ leBytes 4 1) (List.replicate 28 0)
    let o := splatOp 0xE2 cmd true
    (match (projected o).runBin o group0 with
     | (t, .ok st) => st == 1 && t.dev.peek ⟨.scratch 0 0, 0⟩ 4 == leBytes 4 1 &&
        t.dev.peek ⟨.scratch 0 0, 16⟩ 8 == leBytes 4 7 ++ leBytes 4 0
     | _ => false) = true := by decide +kernel

/-- SplatUnits, a blend of a tile without entries: its command, and the rows of records that are written. -/
def blending : List Byte :=
  windowed (leBytes 8 0x20000 ++ leBytes 8 0x30000) (leBytes 4 512 ++ List.replicate 24 0)

def blendState : State := unitWith (splatOp 0xE4 blending true)

/-- The state after some rows of the tile. -/
def blendRows : Nat → State
  | 0 => blendState
  | i + 1 => ((blendRows i).splatWrite (splatOp 0xE4 blending true) 32
      ((List.range 16).map (fun j => (0x30000 + i * 512 + j * 32, (Pixel.start 0).bytes)))).1

theorem witness_blend :
    (binsOf blending group0).map (fun b => (b.wx, b.wy, b.x0, b.y0)) = some (1, 1, 0, 0) ∧ field blending 0 8 % 64 = 0 ∧
      field blending 8 8 = 0x30000 ∧ field blending 32 4 = 512 ∧ zeroBytes blending 36 60 = true ∧
      (match (binsOf blending group0).map (fun b => blendState.tileList (splatOp 0xE4 blending true) b 0) with
       | some (.ok (false, [])) => true
       | _ => false) = true ∧
      (List.range 16).all (fun i => match (blendRows i).splatWrite (splatOp 0xE4 blending true) 32
          ((List.range 16).map (fun j => (0x30000 + i * 512 + j * 32, (Pixel.start 0).bytes))) with
        | (_, .ok ()) => true
        | _ => false) = true := by decide +kernel

/-- A pixel of no entries is where it starts, whatever its place. -/
theorem witness_blendPixel (s : State) (o : SplatOp) (proj px py : Nat) (cut : SVal) :
    s.blendPixel o proj cut px py [] = (s, .ok (Pixel.start 0)) := rfl

/-- SplatUnits, a pixel's records, and what an entry gives it: one that covers it and one that is invisible. -/
theorem witness_pixel :
    let o := splatOp 0xE4 [] true
    (match (projected o).fetchIds o 0x20000 [0] with
     | (_, .ok recs) => recs.length == 1 && recs.all (fun r => (alphaOf r.2 0 0).1.isSome)
     | _ => false) = true ∧ (alphaOf (List.replicate 64 0) 0 0).1.isNone = true ∧ (Pixel.start 1).done = false ∧
      { Pixel.start 1 with done := true }.done = true := by decide +kernel

/-- An engine command of the wave. -/
def engineCmd (opcode : Nat) (engine : Engine) (cmd : List Byte) : EngineCmd :=
  { id := 9, ctx := 1, engine := engine, opcode := opcode, cls := 0, w := some ⟨0, 0, 0⟩, clause := 0x1000
    record := ⟨.scratch 0 0, 0⟩, command := cmd, list := [], reject := none, accepted := true, parked := false, node := none
    phase := 0, acked := 0, failure := none, regStep := 0, regTime := 0, log := [], replay := [] }

def commanded (c : EngineCmd) : State := { world with dev := { dev0 with cmds := [c] } }

/-- EngineCommands: a command to accept; a rejected one and one of each kind that ends; a step that advances; and an
all-reduce whose limit has passed. -/
theorem witness_engineAccept :
    let c := { engineCmd 0xE8 (.runner 0) [] with accepted := false }
    (commanded c).dev.cmd? 9 = some c ∧ (((commanded c).dev.cmdQueue c).filter EngineCmd.accepted).length < 16 ∧
      (((commanded c).dev.cmdQueue c).find? (fun x => !x.accepted)).map EngineCmd.id = some 9 := by decide

theorem witness_engineRuns :
    [(engineCmd 0xE8 (.runner 0) [], State.runCpy), (engineCmd 0xE9 .pattern [], State.runLxf),
      ({ engineCmd 0xEA (.runner 0) [] with phase := 1 }, State.runHxc),
      (engineCmd 0xEB (.runner 0) (leBytes 8 0x20000 ++ leBytes 8 0x30000 ++ leBytes 4 1 ++ [1, 0]), State.runAred),
      (engineCmd 0xEC .snapshot [], State.runPub), (engineCmd 0xED .snapshot [], State.runVret),
      (engineCmd 0xEE .snapshot (List.replicate 46 0 ++ [1]), State.runLoad),
      (engineCmd 0xEE .snapshot (List.replicate 46 0 ++ [2]), State.runRevert)].all (fun x =>
        (commanded x.1).dev.cmdReady x.1 && (match x.2 (commanded x.1) x.1 with
          | (_, .ok (some _)) => true
          | _ => false)) = true := by decide +kernel

theorem serialNumber_length : serialNumber.length = 16 := by simp [serialNumber, leBytes]

/-- A write of a command within one page, whose check passes, is done. -/
theorem cmdWrite_page (s s' : State) (c : EngineCmd) (va : Nat) (bs : List Byte) (loc : Loc)
    (hn : bs.length ≠ 0) (hp : bs.length ≤ 65536 - va % 65536)
    (hr : ((s.dev.cmd? c.id).map EngineCmd.replay).getD [] = [])
    (h : s.agentCheck c.agent .write none va bs.length = (s', .ok loc)) : (s.cmdWrite c va bs).2 = .ok () := by
  have hm : Nat.min bs.length (65536 - va % 65536) = bs.length := Nat.min_eq_left hp
  simp [State.cmdWrite, pageParts, hn, hm, runAll, State.loggedDone, State.logged, hr, State.agentWrite, h]

/-- EngineCommands: a drain of a box of no elements, which writes the shard's header, serial number and all. -/
theorem witness_drain :
    let c := engineCmd 0xEE .snapshot (List.replicate 8 0 ++ leBytes 8 0x20000)
    (commanded c).dev.cmdReady c = true ∧ ∃ s' e, (commanded c).runDrain c = (s', .ok (some e)) := by
  refine ⟨by decide, ?_⟩
  generalize hc : engineCmd 0xEE .snapshot (List.replicate 8 0 ++ leBytes 8 0x20000) = c
  have hb : boxRows (CkpCmd.of c.command).tensor.c = [] := by rw [← hc]; decide
  have hz : paddedTo64 (CkpCmd.of c.command).tensor.payload = 0 := by rw [← hc]; decide
  have hw : ∀ image : List Byte, image.length = 128 →
      ((commanded c).cmdWrite c (CkpCmd.of c.command).area image).2 = .ok () := by
    intro image hi
    have hk : (match (commanded c).agentCheck c.agent .write none (CkpCmd.of c.command).area image.length with
        | (_, .ok _) => true
        | _ => false) = true := by
      rw [hi, ← hc]; decide +kernel
    obtain ⟨s', loc, ha⟩ : ∃ s' loc, (commanded c).agentCheck c.agent .write none (CkpCmd.of c.command).area image.length =
        (s', .ok loc) := by
      split at hk
      · exact ⟨_, _, ‹_›⟩
      · simp at hk
    exact cmdWrite_page _ _ _ _ _ _ (by omega) (by rw [hi, ← hc]; decide) (by rw [← hc]; decide) ha
  have hl : ∀ crc now step, (shardHeader (CkpCmd.of c.command).tensor step crc now).length = 128 := by
    intro crc now step
    simp [shardHeader, leBytes, serialNumber_length, List.length_flatMap, List.map_const']
  simp only [State.runDrain, hb, runAll, hz, List.length_nil, Nat.sub_zero, List.replicate_zero, List.append_nil]
  have h := hw _ (hl ((crc64 0 []).toNat) (commanded c).dev.timebase (CkpCmd.of c.command).step)
  rcases hr : (commanded c).cmdWrite c (CkpCmd.of c.command).area (shardHeader (CkpCmd.of c.command).tensor
    (CkpCmd.of c.command).step ((crc64 0 []).toNat) (commanded c).dev.timebase) with ⟨s', r⟩
  rw [hr] at h
  simp only at h
  subst h
  exact ⟨_, _, rfl⟩

/-- EngineCommands: the op that tells the kinds of `ckp` apart, and a command that its validation rejected. -/
theorem witness_ckpOps :
    (CkpCmd.of []).op = 0 ∧ (CkpCmd.of (List.replicate 46 0 ++ [1])).op = 1 ∧ (CkpCmd.of (List.replicate 46 0 ++ [2])).op = 2 ∧
      (commanded { engineCmd 0xE8 (.runner 0) [] with reject := some 1 }).dev.cmdReady
        { engineCmd 0xE8 (.runner 0) [] with reject := some 1 } = true := by decide

theorem witness_pub :
    let c := engineCmd 0xEC .snapshot (List.replicate 16 0 ++ [1])
    (cmdField c.command 16 16).testBit 0 = true ∧ c.w.isSome = true ∧ ctx1.step < 2 ^ 24 - 1 ∧
      (∀ p ∈ pagesOf (cmdField c.command 0 7) (cmdField c.command 8 15),
        (commanded c).dev.pubRefuses 1 p = false ∧ (commanded c).dev.recordRefused 1 p = none) ∧
      (commanded c).dev.rightsAway 1 (cmdField c.command 0 7) (cmdField c.command 8 15) = [] ∧
      (commanded c).writesPending 1 (pagesOf (cmdField c.command 0 7) (cmdField c.command 8 15)) = false ∧
      ((answer (exec (.pubStamp 9) (commanded c))).map (fun s => (s.dev.step 1, s.dev.cmds.length))) = some (1, 0) := by decide

/-- Two participants, of which this device is the first; the limit of 1 µs has passed. -/
theorem witness_ared :
    let c := { engineCmd 0xEB (.runner 0) (List.replicate 20 0 ++ [2, 0] ++ [0, 0] ++ List.replicate 4 0 ++ [1]) with
      phase := 1, list := [0, 7] }
    ({ (commanded c) with dev := { (commanded c).dev with timebase := 1000 } }).aredMissing c = [7] := by decide

/-- Whether a run answers, and the state that it leaves. -/
def ran {α : Type} (r : State × Except Stop α) : Bool := match r.2 with | .ok _ => true | .error _ => false

/-- EngineCommands, the accesses of commands: within one page of HBM, with nothing to pass again. -/
theorem witness_agentAccess :
    let c := engineCmd 0xE8 (.runner 0) []
    let s := commanded c
    let hbm := fun (r : State × Except Stop Loc) => match r.2 with | .ok l => l.space == .hbm | .error _ => false
    ((s.dev.cmd? c.id).map EngineCmd.replay).getD [] = [] ∧ 0 < 64 ∧ 0x2FFC0 % 65536 + 64 ≤ 65536 ∧
      hbm (s.agentCheck c.agent .read none 0x2FFC0 64) = true ∧ hbm (s.agentCheck c.agent .write none 0x2FFC0 64) = true := by
  decide +kernel

/-- EngineCommands, a copy of two rows of 16 words of f32 as they are, and one that converts them to f16: each row is read, then
written. -/
def copying (types : Nat) : EngineCmd :=
  engineCmd 0xE8 (.runner 0) (leBytes 8 0x20000 ++ leBytes 8 0x30000 ++ leBytes 4 16 ++ leBytes 4 2 ++ leBytes 4 64 ++
    leBytes 4 64 ++ leBytes 8 0 ++ leBytes 2 types ++ List.replicate 22 0)

theorem witness_cpy :
    [0x9900, 0x9A00].all (fun types =>
      let c := copying types
      let x := CpyCmd.of c.command
      let row := fun (s : State) (j : Nat) =>
        let v := s.cmdRead c none (x.src + j * x.ss1) (x.stype.denseBytes x.n0)
        let u := v.1.cmdWrite c (x.dst + j * x.ds1) (List.replicate (x.dtype.denseBytes x.n0) 0)
        (u.1, ran v && ran u && (match v.2 with | .ok bs => bs == List.replicate 64 0 | _ => false))
      x.scaled == false && x.stype == .f32 && x.n1 == 2 && !x.ver && (row (commanded c) 0).2 &&
        (row (row (commanded c) 0).1 1).2) = true ∧
      (CpyCmd.of (copying 0x9900).command).dtype = .f32 ∧ (CpyCmd.of (copying 0x9A00).command).dtype.scaled = false := by
  decide +kernel

/-- EngineCommands, the Pattern engine: a store of two words and a load of two, at a cursor in the scratchpad. -/
theorem witness_pattern :
    let c := engineCmd 0xE9 .pattern []
    let x : LxfCmd := { LxfCmd.of [] with space := 1 }
    let p : PatternState := { PatternState.start x with cursors := [64, 0, 0, 0], staging := [5, 6, 7] }
    x.scratch 0 = true ∧ 2 ≤ p.staging.length ∧ c.record.space = .scratch 0 0 ∧
      (commanded c).dev.group? 0 0 = some group0 ∧ group0.scratch.wf = true ∧ (commanded c).dev.failing = [] ∧
      p.cursor 0 = 64 ∧ ((2 ^ 2 * 2 : Nat) : Int) + 64 ≤ group0.scratchSize ∧ p.staging.length + 2 ≤ 1024 := by decide

/-- EngineCommands, a halo exchange of one row of 16 bytes to this device itself. -/
theorem witness_hxcLocal :
    let c := engineCmd 0xEA (.runner 0) (leBytes 8 0x20000 ++ leBytes 8 0x30000 ++ leBytes 4 1 ++ leBytes 4 16 ++
      leBytes 4 16 ++ leBytes 4 16 ++ List.replicate 24 0)
    let x := HxcCmd.of c.command
    let v := (commanded c).cmdRead c none x.src x.rowbytes
    let tested := v.1.loggedTest c (fun s => x.tagged && s.dev.step c.ctx != x.step)
    let u := tested.1.cmdWrite c 0x30000 (List.replicate 16 0)
    c.phase = 0 ∧ x.rows = 1 ∧ x.rowbytes = 16 ∧ x.flag = 0 ∧ fabricDest x.dst = (commanded c).dev.devId ∧ ran v = true ∧
      tested.2 = false ∧ (pieces 2 0x30000 (List.replicate 16 0)).map Prod.fst = [0x30000] ∧ ran u = true ∧
      u.1.dev.storing c.id = false := by decide +kernel

/-- EngineCommands, an all-reduce of one participant, whose one chunk is written. -/
theorem witness_reduce :
    let c := engineCmd 0xEB (.runner 0) (leBytes 8 0x20000 ++ leBytes 8 0x30000 ++ leBytes 4 1 ++ [1, 0] ++
      List.replicate 42 0 ++ leBytes 4 7)
    let x := AredCmd.of c.command
    let bytes := (List.range x.n).flatMap (fun i => leBytes (x.type.bits / 8) (x.combine [7 + i]).1)
    let u := (commanded c).cmdWrite c x.buf bytes
    x.parts = 1 ∧ x.n = 1 ∧ 0 < bytes.length ∧ bytes.length ≤ 4096 ∧ ran u = true ∧ u.1.dev.storing c.id = false := by
  decide +kernel

/-- EngineCommands: the command whose run ends while its stores to a peer are on their way. -/
theorem witness_storing :
    let c := engineCmd 0xE8 (.runner 0) []
    let sent : Txn := ⟨50, 9, 0, 1, 7, 0, .store, 0, 0, 4, [], false, none, false⟩
    (commanded c).dev.storing c.id = false ∧ { (commanded c).dev with txns := [sent] }.storing c.id = true := by decide

/-- A graph of one node. -/
def graph1 (kind : Byte) (status : NodeStatus) : Graph :=
  { id := 3, ctx := 1, desc := 0x20000, nodesAt := 0x21000, condAt := 0x22000, doneAt := 0x23000
    nodes := [{ index := 0, status := status, waiting := 0, wanted := true, passes := 0, order := 0, readyAt := 7, counted := []
                header := List.replicate 16 0 ++ [kind] ++ List.replicate 47 0 }]
    stopped := none, ended := false }

/-- The world with the graph, and with the launch record of the tests in its node's body. -/
def walking (kind : Byte) (status : NodeStatus) : State :=
  { world with dev := { dev0 with
    launches := [], groups := [], waves := [], graphs := [graph1 kind status]
    hbm := Memory.writeN tables 0x21000 record16.bytes } }

/-- Walker: the doorbells. -/
theorem witness_doorbell :
    State.reset.dev.platform.state ≠ 6 ∧ world.dev.platform.state = 6 ∧ (world.dev.ctx? 1).map Context.state = some 1 ∧
      (0x20000 : BitVec 64).toNat % 64 = 0 ∧ (0x20001 : BitVec 64).toNat % 64 ≠ 0 ∧ world.dev.openGraphs 1 < 64 ∧
      world.dev.rangeRW 1 0x20000 64 = none := by decide

/-- Walker: a graph that an `enq` has sent. -/
theorem witness_enq :
    ((flying [flight 8 (.enq 5) [partAt 0 0x20000 0] .none]).dev.enqOf 1).map (fun x => (x.2.1, x.2.2.va)) =
      some (5, 0x20000) := by decide

/-- Walker: a kernel node and a timed node that may start, and a copy node and a timed node that run. -/
theorem witness_nodes :
    ((walking 0 .ready).dev.graph? 3).isSome = true ∧
      [(0 : Byte), 5].all (fun k => match (graph1 k .ready).node? 0 with
        | some n => n.kind == k.toNat && (walking k .ready).dev.nodeMayStart (graph1 k .ready) n
        | none => false) = true ∧
      (let r := (walking 0 .ready).walkRead 1 0x21000 64
       LaunchRecord.of r.2 = record16 ∧ (LaunchRecord.of r.2).invalid (recordReserved r.2) = false ∧
         (LaunchRecord.of r.2).det = false) ∧
      (∀ x ∈ (walking 0 .ready).dev.rights, x.ctx ≠ 1) ∧ (walking 5 .ready).dev.walkerWaits = [] ∧
      ((graph1 5 .ready).node? 0).map (fun n => n.readyAt.toNat) = some 7 ∧
      leNat ((walking 5 .ready).walkRead 1 0x21000 8).2 < 7 ∧
      (let due : State := { walking 5 .ready with
        dev := { (walking 5 .ready).dev with hbm := Memory.writeN tables 0x21000 [7] } }
       7 ≤ leNat (due.walkRead 1 0x21000 8).2) ∧
      (walking 1 .running).dev.cmds.any (fun c => c.node == some (3, 0)) = false := by decide +kernel

/-- The context commands on context 1, with some image. -/
def command1 (image : BitVec 64) : ContextCommand := ⟨1, image, 0, 0⟩

/-- The world with the context's state replaced. -/
def inState (n : Nat) : State := { world with dev := { dev0 with ctxs := [{ ctx1 with state := n }] } }

/-- ContextCommands: a pre-emption of a running context, a resume of a halted one whose launch was restored, a free, and a
save of a context at rest. -/
theorem witness_contextCommands :
    world.dev.platform.state = 6 ∧ world.dev.command.outcome ≠ 1 ∧ (command1 0x100000).ctx ≤ 63 ∧
      (command1 0x100000).image.toNat % 4096 = 0 ∧ (command1 0x100000).image.toNat < 2 ^ 39 ∧
      (world.dev.ctx? 1).map (fun x => (x.state, x.saving)) = some (1, none) ∧ (command1 0).image = 0 ∧
      ((inState 2).dev.ctx? 1).map (fun x => (x.state, x.saving)) = some (2, none) ∧
      (∀ l ∈ [{ launch0 with halted := true, restored := true }], l.ctx = 1 → l.halted = true → l.restored = true) := by
  decide

theorem witness_contextSave :
    let s : State := { world with dev := { dev0 with
      ctxs := [{ ctx1 with saving := some 0x100000 }], launches := [], groups := [], waves := [] } }
    (s.dev.ctx? 1).bind Context.saving = some 0x100000 ∧ (s.dev.clustersOf 1).find? (s.restsOn 1) = none ∧
      s.saveReady 1 = true := by decide

/-- ContextCommands: a save whose hardware cluster 0 has come to rest, and one whose wave still has a store in flight. -/
theorem witness_savePart :
    let s : State := { world with dev := { dev0 with
      ctxs := [{ ctx1 with saving := some 0x100000 }], clusters := [⟨0, 0, 0, [0], []⟩] } }
    let t : State := { s with dev := { s.dev with inflight := [storing] } }
    (s.dev.clustersOf 1).find? (s.restsOn 1) = some 0 ∧ (t.dev.clustersOf 1).find? (t.restsOn 1) = none ∧
      t.saveReady 1 = false ∧
      ((answer (exec (.contextSave 1) s)).map (fun u => (u.dev.parts.map SavePart.hw, u.dev.waves.length))) = some ([0], 0) := by
  decide

/-- The header of an image of no launch and no graph: its magic, its version, its length, the place of its graph section and
the serial number. -/
def imageHead : List Byte :=
  leBytes 4 0x56535842 ++ leBytes 2 0x0204 ++ leBytes 2 0 ++ leBytes 8 256 ++ List.replicate 16 0 ++ leBytes 8 192 ++
    List.replicate 72 0 ++ serialNumber

/-- The image with its digest, whatever the digest's bytes are. -/
def emptyImage : List Byte :=
  imageHead ++ (Config.shake256 (imageHead ++ List.replicate 128 0) ++ zeros 64).take 64 ++ List.replicate 64 0

/-- The first 112 bytes of the image. -/
def imageStart : List Byte :=
  leBytes 4 0x56535842 ++ leBytes 2 0x0204 ++ leBytes 2 0 ++ leBytes 8 256 ++ List.replicate 16 0 ++ leBytes 8 192 ++
    List.replicate 72 0

theorem emptyImage_parts : emptyImage = imageStart ++ (serialNumber ++
    ((Config.shake256 (imageHead ++ List.replicate 128 0) ++ zeros 64).take 64 ++ List.replicate 64 0)) := by
  simp [emptyImage, imageHead, imageStart]

theorem field_start (i n : Nat) (h : i + n ≤ 112) : field emptyImage i n = field imageStart i n := by
  have hl : imageStart.length = 112 := by decide
  rw [emptyImage_parts, field, field, List.drop_append_of_le_length (by omega), List.take_append_of_le_length (by simp; omega)]

theorem imageHead_length : imageHead.length = 128 := by
  have h := serialNumber_length
  simp [imageHead, leBytes, h]

/-- ContextCommands: an image that a restore takes, into a free context, of no launch; its length field names 256 bytes. -/
theorem witness_restore :
    imageOk emptyImage = true ∧ emptyImage.length = 256 ∧ field emptyImage 8 8 = 256 ∧
      (Memory.writeN [] 0 emptyImage).readN 0 256 = emptyImage ∧
      findPlaces (fun _ _ => true) ((savedLaunches (dev0.sideOf 0) emptyImage).flatMap SavedLaunch.parts) [] ≠ none := by
  have hl : emptyImage.length = 256 := by simp [emptyImage, imageHead_length, zeros]
  have hz : (zeros 64 ++ List.replicate 64 (0 : Byte)) = List.replicate 128 0 := by simp [zeros]
  have d192 : emptyImage.drop 192 = List.replicate 64 0 := by
    rw [emptyImage]; exact List.drop_left' (by simp [imageHead_length, zeros])
  have t128 : emptyImage.take 128 = imageHead := by
    rw [emptyImage, List.append_assoc]; exact List.take_left' imageHead_length
  have d128 : emptyImage.drop 128 =
      (Config.shake256 (imageHead ++ List.replicate 128 0) ++ zeros 64).take 64 ++ List.replicate 64 0 := by
    rw [emptyImage, List.append_assoc]; exact List.drop_left' imageHead_length
  have h1 : (emptyImage.drop 112).take 16 = serialNumber := by
    rw [emptyImage_parts, List.drop_left' (by decide)]; exact List.take_left' serialNumber_length
  have h2 : (emptyImage.drop 128).take 64 = (Config.shake256 (imageHead ++ List.replicate 128 0) ++ zeros 64).take 64 := by
    rw [d128]; exact List.take_left' (by simp [zeros])
  have s : savedLaunches (dev0.sideOf 0) emptyImage = [] := by
    have : field emptyImage 28 4 = 0 := by rw [field_start _ _ (by omega)]; decide
    simp [savedLaunches, this]
  refine ⟨?_, hl, by rw [field_start _ _ (by omega)]; decide, by rw [← hl]; exact Memory.readN_writeN 0 emptyImage rfl, ?_⟩
  · simp only [imageOk, field_start 0 4 (by omega), field_start 4 2 (by omega), h1, h2, t128, d192, List.append_assoc, hz]
    simp; decide
  · rw [s]; simp [findPlaces]

/-- A device with a free context: the command register's offset is open only after bring-up. -/
theorem witness_window :
    State.reset.dev.windowOpen 0x800000 = false ∧ world.dev.windowOpen 0x800040 = true ∧
      world.dev.windowOpen 0x810000 = true ∧ world.dev.windowOpen 0x830008 = true ∧
      world.dev.windowOpen 0x840000 = true ∧ world.dev.windowOpen 0x840100 = true ∧
      world.dev.windowOpen 0x840200 = true ∧ (world.dev.ctx? 1).isSome = true ∧
      (∀ i, i < 4 → world.dev.driverGranted (2 ^ 39 - 4 + i) false = true) ∧
      (∀ i, i < 4 → world.dev.driverGranted (2 ^ 39 - 4 + i) true = true) ∧
      world.dev.driverGranted (2 ^ 39) true = false := by decide

/-- DriverWindow: reads in every state, one that the access table refuses, an entry that is legal and one of each kind that is
not, and the last target and region. -/
theorem witness_windowReads :
    world.dev.bitGranted 37 512 0 false = true ∧ world.dev.bitGranted 37 512 (0x800000 / 2 ^ 23) false = true ∧
      { dev0 with access := [⟨37, 512, 2⟩] }.bitGranted 37 512 0 false = false ∧
      State.reset.dev.platform.state ≠ 6 ∧ 0x1C ≤ 0x28 ∧ entryLegal 37 513 = true ∧
      entryLegal 38 0 = false ∧ entryLegal 0 514 = false ∧ 37 < 38 ∧ 31 < 32 := by
  decide

/-- The world in which context 1 is paired with context 5 of peer 7, and a peer may reach its pages (R329). -/
def paired : State :=
  { world with dev := { dev0 with
    ctxs := [{ ctx1 with pairs := 0x60000 }]
    hbm := Memory.writeN (Memory.writeN tables 0x11000 (leBytes 8 (2 ^ 63 + 0xF8))) (0x60000 + 14) (leBytes 2 0x8005) } }

/-- A request of that peer for a word. -/
def request7 (va : BitVec 48) : FabricRequest := ⟨7, 5, 1, va, 4, none, false⟩

/-- What the check of an inbound request comes to. -/
def inboundOf (s : State) (r : FabricRequest) (need : Need) : Option Loc :=
  match (s.inbound r need).2 with
  | .ok _ loc => some loc
  | _ => none

def inboundAt (r : FabricRequest) (need : Need) : Option Loc := inboundOf paired r need

/-- The paired world in which the right of page 2 rests with a device, or is on its way, or a line of it is lost. -/
def righted (owner : Option Nat) (handing : Bool) : State :=
  { paired with dev := { paired.dev with
    rights := [{ ctx := 1, page := 2, owner := owner, window := [], handing := handing, from_ := none }] } }

def losing : State := { paired with dev := { paired.dev with lost := [⟨.hbm, 0x20000⟩] } }

/-- Whether the right of page 2 is here, at another device, or waited for. -/
def rightIs (s : State) : Nat :=
  match s.dev.rightCase 1 2 true with
  | .here => 0
  | .away _ => 1
  | .waits _ => 2

/-- FabricRequests: requests that find a place, one that does not, a step that is the tag and one that is not. -/
theorem witness_fabricRequests :
    inboundAt (request7 0x20000) .read = some ⟨.hbm, 0x20000⟩ ∧ inboundAt (request7 0x20000) .write = some ⟨.hbm, 0x20000⟩ ∧
      inboundAt (request7 0x20000) .atomic = some ⟨.hbm, 0x20000⟩ ∧ inboundAt (request7 0x80000000) .read = none ∧
      (paired.dev.pairedCtx 7 5).map Context.step = some 0 ∧ (0 : BitVec 24).toNat = 0 ∧ (1 : BitVec 24).toNat ≠ 0 ∧
      rightIs paired = 0 ∧ rightIs (righted (some 9) false) = 1 ∧ rightIs (righted (some 9) true) = 2 ∧
      (match (paired.inbound (request7 0x80000000) .read).2, ((righted (some 9) false).inbound (request7 0x20000) .read).2,
          (losing.inbound (request7 0x20000) .read).2, (losing.inbound (request7 0x20000) .write).2 with
       | .refused, .waits, .lost, .lost => true
       | _, _, _, _ => false) = true ∧ (request7 0x20000).home = none ∧ (paired.dev.pairedCtx 8 5) = none := by decide

/-- A peer with a usable path. -/
def peer7 : Peer := { id := 7, usable := 1, retraining := 0, down := false, allowance := 4096 }

/-- A fabric access of two lanes, and its first lane's transaction. -/
def abroad (kind : AccessKind) : State :=
  { world with dev := { dev0 with
    peers := [peer7]
    inflight := [flight 8 kind [partAt 0 0x7000000020000 7, partAt 1 0x7000000020004 8] .none]
    txns := [{ id := 50, op := 8, lane := 0, ctx := 1, peer := 7, port := 0, kind := kind, part := 0x7000000020000, va := 0x20000, width := 4, data := []
               away := false, tag := none, held := false }] } }

/-- FabricReturns: an acknowledgement of a store and the data of a load, with another lane still out. -/
theorem witness_fabricReply :
    ((abroad .store).dev.txns.find? (fun x => x.id == 50 && !x.held)).map Txn.op = some 8 ∧
      ((abroad .store).dev.access? 8).map (fun a => a.failed.isEmpty) = some true ∧
      ((abroad .store).dev.access? 8).map (fun a => a.lanes.map LaneAccess.lane) = some [0, 1] ∧
      ((abroad .load).dev.access? 8).map Access.kind = some .load ∧ (abroad .load).dev.cmd? 8 = none := by decide

/-- FabricReturns: a transaction that carries one of the two lanes, and a page that this device owns, whose window ends. -/
theorem witness_carries :
    ((abroad .store).dev.txns.map (fun t => [partAt 0 0x7000000020000 7, partAt 1 0x7000000020004 8].map (fun l =>
        t.carries { l with loc := ⟨.fabric, l.va.toNat⟩ }))) = [[true, false]] ∧
      (let s : State := { world with dev := { dev0 with owned := [⟨1, 7, 2, [(0, 5)], [], List.replicate 64 9⟩] } }
       ((answer (exec (.atomicWindowEnd 1 (.of 7 2)) s)).map (fun t => t.dev.owned)) = some [] ∧
         (s.dev.owned? 1 7 2).isSome = true) := by decide

/-- FabricReturns: R309's worked example of 60 atomics of device 9; a right on its way; and a time source. -/
theorem witness_rights :
    let w := List.replicate 60 9 ++ List.replicate 4 0
    64 ≤ w.length ∧ 56 ≤ ((w.take 64).filter (· == 9)).length ∧ 9 ≠ world.dev.devId ∧ world.dev.heldRequests = [] ∧
      world.dev.pagePlace 1 2 = some ⟨.hbm, 0x20000⟩ ∧ world.dev.hbm.wf = true ∧ world.dev.owned? 1 7 2 = none ∧
      ((w.take 64).filter (· == world.dev.devId)).length < 56 ∧
      (abroad .store).dev.anyPath = true ∧ world.dev.anyPath = false ∧
      { (abroad .store).dev with devId := 9 }.timeSource = 7 := by decide

/-- Links: a unit of a known method and one of none; a key; a path that retrains; a port beyond which there is none. -/
theorem witness_links :
    (rebuildUnit 0x2004 [0x00, 0x00, 0x80, 0x3F]).isSome = true ∧ rebuildUnit 0xF000 [] = none ∧
      ([⟨3, true, 0, 5⟩] : List PortKey).any (fun k => k.port == 3 && k.outbound == true) = true ∧ 95 < 96 ∧ 511 < 512 ∧
      4 ≤ world.dev.platform.state ∧ world.dev.heldRequests = [] ∧ (world.dev.tagFails.lookup 3).getD 0 + 1 < 3 ∧
      3 ≤ (([(3, 2)] : List (Nat × Nat)).lookup 3).getD 0 + 1 ∧ (0x5000 ≤ 0x5000) ∧
      { dev0 with peers := [{ peer7 with retraining := 1 }] }.retraining 7 0 = true := by decide +kernel

/-- PlatformEvents: bring-up under way, and readings at their limits. -/
theorem witness_platform :
    1 ≤ State.reset.dev.platform.state ∧ State.reset.dev.platform.state < 6 ∧ State.reset.dev.platform.code = 0 ∧
      (115 : Nat) ≤ 115 ∧ ¬ ((115 : Nat) ≤ 114) ∧ 800 ≤ 800 ∧ 2400 ≤ 2400 ∧ (List.replicate 32 (0 : Byte)).length = 32 ∧
      { Platform.reset with measurement := List.replicate 64 0 }.measurement.length = 64 ∧ State.reset.dev.platform.staged = [] ∧
      { Platform.reset with staged := [1] }.staged ≠ [] := by decide

/-- R410: a stage that ends moves bring-up on. -/
theorem test_bringup :
    (answer (exec (.bringupStageComplete .done) State.reset)).map (fun s => s.dev.platform.state) = some 2 := by decide

/-- R411, R412: a reading at the cap lowers the clock by one step and holds the module. -/
theorem test_powerHold :
    (answer (exec (.powerHold 2400) world)).map (fun s => (s.dev.platform.powerHeld, s.dev.platform.clockSteps)) =
      some (true, 1) := by decide

/-- TakingFaults: the wave, its launch and context, and no other wave at its place. -/
theorem witness_takingFaults :
    world.dev.wave? ⟨0, 0, 0⟩ = some wave0 ∧ world.dev.launch? 0 = some launch0 ∧ world.dev.ctx? launch0.ctx = some ctx1 ∧
      (∀ y ∈ world.dev.waves, y.id ≠ wave0.id → y.place ≠ wave0.place) ∧ plain.words = [] ∧ plain.effects = [] ∧
      world.tape = [] ∧ plain.phase ≠ .unchecked ∧ (ctx1.saving = none) := by
  refine ⟨by decide, by decide, rfl, by decide, rfl, rfl, rfl, by decide, rfl⟩

/-- R348 to R350: the end of a clause of `trap #5`: class 12, code 5, the next header as the pc, the context halted. -/
theorem test_trap :
    let s := answer (step (running { plain with trap := some (12, 5) }))
    s.map (fun s => s.dev.status.map (fun b => (b.2.cls, b.2.code, b.2.pc))) = some [(12, 5, 0x1008)] ∧
      s.map (fun s => s.dev.ctxs.map Context.state) = some [2] ∧ s.map (fun s => s.issue.isSome) = some false := by decide

/-- DecodeEncode, EncodeDecode and StepRunsDecoded: an instruction with a word of its own, after which others follow. -/
theorem witness_decode :
    (Instr.add (.v 12) (.v 12) (.lit32 300)).wellFormed = true ∧ (Instr.add (.v 12) (.v 12) (.lit32 300)).hasWord = true ∧
      encode (.add (.v 12) (.v 12) (.lit32 300)) = [0x200C0CFE, 0x0000012C] ∧
      (match decodeInstr [0x200C0CFE, 0x0000012C, 0x0E000000] with
       | .ok (i, rest) => i == .add (.v 12) (.v 12) (.lit32 300) && rest == [0x0E000000]
       | .error _ => false) = true := by decide

/-- StepRunsDecoded: the clause's checks are made and no register that it reads is lost; one that is lost is found. -/
theorem witness_stepRunsDecoded :
    let s := running { plain with words := [0x200C0CFE, 0x0000012C, 0x0E000000] }
    plain.phase ≠ .unchecked ∧ plain.regLoss s.advance.dev (.add (.v 12) (.v 12) (.lit32 300)) = none ∧
      (plain.regLoss { s.advance.dev with failing := [.vector plain.wave.id 12 3] }
        (.add (.v 12) (.v 12) (.lit32 300))).isSome = true ∧
      (answer (exec (.add (.v 12) (.v 12) (.lit32 300)) s.advance)).isSome = true ∧ s.tape = [] := by decide

/-- StepRunsDecoded: one step of the clause of `add v12, v12, #300`, which leaves the words after it. -/
theorem test_step :
    let s := running { plain with words := [0x200C0CFE, 0x0000012C, 0x0E000000] }
    (answer (step s)).map (fun t => t.issue.map (fun c => (rowElem c.wave.v 12 0, c.wave.retired, c.words))) =
      some (some (300, 1, [0x0E000000])) := by decide

/-- Walker: a doorbell behind one that waits, one to a free context, an `enq` of an address that nothing maps, by a real lane
and by a helper lane, and one that finds 64 graphs. -/
theorem witness_doorbells :
    let held := { dev0 with heldRequests := [.doorbell 1 0x20000] }
    let enq := fun (va : Nat) => flying [flight 8 (.enq 5) [partAt 0 va 0] .none]
    let helper := { enq 0x80000000 with dev := { (enq 0x80000000).dev with waves := [{ wave0 with helper := 1 }] } }
    held.doorbellWaits 1 = true ∧ world.dev.doorbellWaits 1 = false ∧ (world.dev.ctx? 1).map Context.state = some 1 ∧
      { dev0 with ctxs := [{ ctx1 with state := 0 }] }.doorbellWaits 1 = false ∧
      (enq 0x20000).dev.rangeRW 1 0x20000 64 = none ∧ (enq 0x20000).dev.openGraphs 1 < 64 ∧
      ((enq 0x80000000).dev.rangeRW 1 0x80000000 64).isSome = true ∧
      ((enq 0x80000000).dev.enqOf 1).map (fun x => (enq 0x80000000).helperLane x.1 x.2.2.lane) = some false ∧
      (helper.dev.enqOf 1).map (fun x => helper.helperLane x.1 x.2.2.lane) = some true ∧
      (enq 0x80000000).unitCanStop ⟨0, 0, 0⟩ = true ∧
      64 ≤ { (enq 0x20000).dev with graphs := List.replicate 64 ⟨0, 1, 0, 0, 0, 0, [], none, false⟩ }.openGraphs 1 := by decide

/-- Walker: reads that find the bytes they need, in a device that no revocation keeps, and an event that waits. -/
theorem witness_walking :
    let s0 : State := walking 0 .ready
    let r := s0.walkRead 1 0x21000 64
    s0.dev.walkerWaits = [] ∧ r.1.dev.walkerWaits = [] ∧ s0.dev.revoking = [] ∧ s0.dev.platform.state = 6 ∧
      { s0.dev with walkerWaits := [(1, .right 2)] }.walkerWaits ≠ [] := by decide +kernel

/-- TakingFaults: the wave is the one of its name, among all that the device has. -/
theorem witness_allWaves :
    world.dev.wave? ⟨0, 0, 0⟩ = some wave0 ∧ (∀ y ∈ world.dev.allWaves, y.id ≠ ⟨0, 0, 0⟩ → y.place ≠ wave0.place) ∧
      world.dev.waves.find? (fun y => y.id == plain.wave.id) = some wave0 ∧ world.dev.revoking = [] ∧ plain.rival = false := by
  decide

/-- StepRunsDecoded: the clause in execution is there after time has moved on. -/
theorem witness_advance :
    let c := { plain with words := [0x200C0CFE, 0x0000012C, 0x0E000000] }
    (running c).advance.issue = some c ∧ (running c).advance.tape = [] ∧ c.rival = false ∧ c.phase ≠ .unchecked ∧
      (running c).dev.revoking = [] := by
  refine ⟨rfl, rfl, rfl, by decide, rfl⟩

/-- DriverWindow: an offset that is read only, the events for the shares and the constant sections, the entries of a reserved class,
of an engine and of the driver, and a target that has dropped a request of a context. -/
theorem witness_driverWindow :
    0x1000000 ≤ 0x2000000 ∧ world.dev.platform.state = 6 ∧ 37 < 38 ∧ 513 < 514 ∧ (6 < 512 ∧ 6 % 8 = 6) ∧
      (32 : Byte).toNat + (8 : Byte).toNat + (8 : Byte).toNat + (12 : Byte).toNat + (4 : Byte).toNat ≤ 64 ∧
      ¬ ((64 : Byte).toNat + (1 : Byte).toNat ≤ 64) ∧ 1 < 64 ∧ world.dev.bitGranted 37 512 (0x840600 / 2 ^ 23) false = true ∧
      (world.dev.context 1).dropped = none ∧ ({ ctx1 with dropped := some 3 } : Context).dropped.getD (2 ^ 32 - 1) = 3 := by decide

/-- FabricRequests: the one usable path to a peer carries every transaction to it. -/
theorem witness_onePath (d : Dev) (va : Nat) (h : d.peers = [⟨9, 1, 0, false, 4096⟩]) : d.pathTo 9 va = some 0 := by
  have e : (List.range 96).filter (1#96).getLsbD = [0] := by decide
  simp [Dev.pathTo, h, e, Nat.mod_one]

/-- FabricRequests: a page whose right another device holds, without a path to it, and where the fabric ports let the context
write no request; a device that is paired, and one that is not. -/
theorem witness_relayed :
    let s := righted (some 9) false
    let barred : State := { s with dev := { s.dev with access := [⟨36, 12, 0⟩] } }
    let admits := fun (s : State) => s.dev.bitGranted 36 (masterOf 1 4) 1 true
    rightIs s = 1 ∧ s.dev.pathTo 9 0x20000 = none ∧ admits s = true ∧ admits barred = false ∧
      (s.dev.pairedCtx 7 5).isSome = true ∧ s.dev.pairedCtx 8 5 = none ∧ (request7 0x20000).home = none := by decide +kernel

/-- FabricRequests: a message of an all-reduce that an ended command still owed, and a note behind a contribution. -/
theorem witness_collective :
    let m : CollectiveMessage := { src := 7, ctx := 1, id := 3, rank := 1, digest := [], data := [], failed := false }
    (1, m.id.toNat, m.src) ∈ { paired.dev with owed := [(1, 3, 7)] }.owed ∧ paired.dev.owed = [] ∧
      { paired.dev with collect := [m] }.collect.any (fun y => !y.failed && y.ctx == 1 && y.id == m.id && y.src == m.src) = true ∧
      paired.dev.collect = [] := by decide

/-- FabricRequests, FabricReturns: a payload in two units of a port, beside one of another port. -/
theorem witness_received :
    ({ dev0 with portUnits := [(3, [1, 2]), (4, [9]), (3, [5])] }.portUnits.filter (fun (x : Nat × List Byte) => x.1 == 3)).flatMap Prod.snd =
      [1, 2, 5] := by decide

/-- FabricReturns: an owner's window that ends with its own share, a page that comes home with one written line, and one that its
home takes back. -/
theorem witness_owned :
    let o : OwnedPage := ⟨1, 7, 2, [(0, 5)], [0], List.replicate 60 9 ++ List.replicate 4 0⟩
    let mine : OwnedPage := { o with window := List.replicate 60 0 ++ List.replicate 4 9 }
    64 ≤ o.window.length ∧ ((o.window.take 64).filter (· == world.dev.devId)).length < 56 ∧
      56 ≤ ((mine.window.take 64).filter (· == world.dev.devId)).length ∧ (righted (some 9) true).dev.rights.length = 1 ∧
      5 / 128 ∈ o.written ∧ ¬ (200 / 128 ∈ o.written) ∧ { dev0 with owned := [o] }.owned? 1 7 2 = some o := by decide

/-- PlatformEvents: readings at which the module is held and at which it trips; and a device that a failed check has stopped. -/
theorem witness_readings :
    (∀ j ∈ [100, 114], j < 115) ∧ [20, 115, 130].find? (fun j => decide (115 ≤ j)) = some 115 ∧
      ({ Platform.reset with code := 1 }.code != 1) = false ∧ (Platform.reset.code != 1) = true := by decide

/-- KeepsBounds: a world with its tables in use, and the clause of a wave. -/
theorem witness_bounded : (running plain).bounded ∧ (commanded (engineCmd 0xE8 (.runner 0) [])).bounded := by
  have noCmds : ∀ die, (([] : List RangeLock).filter (fun e => e.die == die)).length ≤ 64 := fun die => by simp
  refine ⟨⟨?_, noCmds, by decide, ?_⟩, ⟨?_, noCmds, by decide, ?_⟩⟩
  · intro w h
    have e : w = wave0 := by simpa [running, world, State.clauses, State.reset, dev0, Dev.reset, plain, Wave.issueAt] using h
    subst e
    refine ⟨by decide, by decide, by decide, fun e h => ?_⟩
    simp [wave0, Wave.start] at h
  · intro c h e he
    have : c = plain := by simpa [running, world, State.clauses, State.reset] using h
    subst this
    simp [plain, Wave.issueAt] at he
  · intro w h
    have e : w = wave0 := by simpa [commanded, world, State.clauses, State.reset, dev0, Dev.reset] using h
    subst e
    refine ⟨by decide, by decide, by decide, fun e h => ?_⟩
    simp [wave0, Wave.start] at h
  · intro c h
    simp [commanded, world, State.clauses, State.reset] at h

/-- KeepsCanonical: the state after reset is canonical, and so is the world's HBM. -/
theorem witness_canonical : State.reset.canonical ∧ tables.wf = true := by
  refine ⟨?_, by decide⟩
  intro m h
  have e : State.reset.memories = [[], [], []] := rfl
  rw [e] at h
  simp at h
  rw [h]; rfl

/-- DecodeWords is stated of words; a header among the words of a clause is refused (R42). -/
theorem test_header_in_clause : refuses [0xF900047C] = some .headerWord := by decide

/-- The host's two questions, on one row: the decoder's instruction, and step runs it as the first after reset. -/
theorem test_tableWord :
    decodeTableWord 32 0x500A0406 = some (.fadd (.v 10) (.v 4) (.v 6)) ∧
      ((answer (step (State.reset.withFetchWord 32 0x500A0406))).bind State.issue).map (fun c => c.wave.retired) = some 1 := by
  decide

end Sys2Proof.Tests
end

section
/-! SUPPORT. The proofs of the statements about what every step keeps of the memories (R2, R209) and about the driver's window. -/

-- Each proof is elaborated before the next begins, as its lemmas are those above it; together, the proofs that wait for the
-- kernel's check of those lemmas need more threads than the check's memory has room for.
set_option Elab.async false

/-! The memories of a state, item by item: what `State.canonical` says of each field (R2, log 1), as a structure whose frame
is written `{ h with }`, and the rules for lists of items and for the updates of one item. -/

namespace Sys2Proof.Machine

/-- Every item of a list keeps the memory that it holds in the canonical form. -/
def AllWf {α : Type} (f : α → Memory) (l : List α) : Prop := ∀ x ∈ l, (f x).wf = true

section AllWf
variable {α β : Type} {f : α → Memory} {l m : List α}

@[simp] theorem AllWf_nil : AllWf f [] := by simp [AllWf]

@[simp] theorem AllWf_cons {a : α} : AllWf f (a :: l) ↔ (f a).wf = true ∧ AllWf f l := by simp [AllWf]

@[simp] theorem AllWf_append : AllWf f (l ++ m) ↔ AllWf f l ∧ AllWf f m := by simp [AllWf, or_imp, forall_and]

theorem AllWf.mono (h : AllWf f m) (hs : ∀ x ∈ l, x ∈ m) : AllWf f l := fun x hx => h x (hs x hx)

theorem AllWf.filter (h : AllWf f l) (p : α → Bool) : AllWf f (l.filter p) := h.mono fun _ hx => List.mem_of_mem_filter hx

theorem AllWf.map {g : β → α} {f' : β → Memory} {l : List β} (h : AllWf f' l)
    (hg : ∀ x, (f' x).wf = true → (f (g x)).wf = true) : AllWf f (l.map g) := by
  simpa [AllWf] using fun x hx => hg x (h x hx)

theorem AllWf.find? {p : α → Bool} {a : α} (h : AllWf f l) (e : l.find? p = some a) : (f a).wf = true :=
  h a (List.mem_of_find?_eq_some e)

end AllWf

/-- A choice between two items whose memories are canonical. -/
theorem wf_ite {α : Type} {f : α → Memory} {c : Prop} [Decidable c] {a b : α} (ha : (f a).wf = true) (hb : (f b).wf = true) :
    (f (if c then a else b)).wf = true := by
  split
  · exact ha
  · exact hb

/-- The memories of what a save under way has written are canonical. -/
structure SavePart.Wf (p : SavePart) : Prop where
  groups : AllWf Group.scratch p.groups
  waves : AllWf Wave.priv p.waves
  bank0 : AllWf Core.bank0 p.cores
  bank1 : AllWf Core.bank1 p.cores

/-- The memories of the device are canonical. -/
structure Dev.Wf (d : Dev) : Prop where
  hbm : d.hbm.wf = true
  lpddr : d.lpddr.wf = true
  host : d.host.wf = true
  consts : AllWf ConstSection.bytes d.consts
  parts : ∀ p ∈ d.parts, p.Wf
  saves : ∀ x ∈ d.saves, AllWf SavedWave.priv x.waves
  launches : AllWf Launch.const d.launches
  groups : AllWf Group.scratch d.groups
  waves : AllWf Wave.priv d.waves
  bank0 : AllWf Core.bank0 d.cores
  bank1 : AllWf Core.bank1 d.cores
  owned : AllWf OwnedPage.words d.owned

/-- The memories of the device and of the working copies of waves are canonical. -/
structure State.Wf (s : State) : Prop where
  dev : s.dev.Wf
  issue : AllWf (fun c : Issue => c.wave.priv) s.issue.toList
  held : AllWf (fun c : Issue => c.wave.priv) s.held

/-- `State.Wf` is the frozen predicate, sorted by fields. -/
theorem State.canonical_iff_wf (s : State) : s.canonical ↔ s.Wf := by
  have part (p : SavePart) : p.Wf ↔ AllWf Group.scratch p.groups ∧ AllWf Wave.priv p.waves ∧ AllWf Core.bank0 p.cores ∧
      AllWf Core.bank1 p.cores := ⟨fun h => ⟨h.1, h.2, h.3, h.4⟩, fun h => ⟨h.1, h.2.1, h.2.2.1, h.2.2.2⟩⟩
  have all {α : Type} (f : α → Memory) (l : List α) : AllWf f l ↔ ∀ m ∈ l.map f, m.wf = true := by simp [AllWf]
  constructor
  · intro h
    simp only [State.canonical, State.memories, State.clauses, Dev.memories, List.forall_mem_append, List.map_append,
      List.forall_mem_cons, List.forall_mem_flatMap, ← all] at h
    obtain ⟨⟨⟨⟨⟨⟨⟨⟨⟨⟨⟨hbm, lpddr, host, -⟩, consts⟩, saves⟩, launches⟩, groups⟩, waves⟩, bank0⟩, bank1⟩, parts⟩, owned⟩,
      issue, held⟩ := h
    exact ⟨⟨hbm, lpddr, host, consts, fun p hp => (part p).2 (by simpa [and_assoc] using parts p hp), saves, launches, groups,
      waves, bank0, bank1, owned⟩, issue, held⟩
  · rintro ⟨⟨hbm, lpddr, host, consts, parts, saves, launches, groups, waves, bank0, bank1, owned⟩, issue, held⟩
    simp only [State.canonical, State.memories, State.clauses, Dev.memories, List.forall_mem_append, List.map_append,
      List.forall_mem_cons, List.forall_mem_flatMap, ← all]
    exact ⟨⟨⟨⟨⟨⟨⟨⟨⟨⟨⟨hbm, lpddr, host, by simp⟩, consts⟩, saves⟩, launches⟩, groups⟩, waves⟩, bank0⟩, bank1⟩,
      fun p hp => by simpa [and_assoc] using (part p).1 (parts p hp)⟩, owned⟩, issue, held⟩

end Sys2Proof.Machine

/-! The updates of a state, of the device and of its items, and what they are looked up by, with the canonical form. -/

namespace Sys2Proof.Machine

/-- An invariant of a loop body is one of the loop. -/
theorem foldl_keeps {σ α : Type} {P : σ → Prop} {f : σ → α → σ} (hf : ∀ s a, P s → P (f s a)) {s : σ} (h : P s)
    (l : List α) : P (l.foldl f s) := List.foldlRecOn l f h fun s hs a _ => hf s a hs

/-! ### Updates of the device -/

theorem Dev.Wf.foldl {α : Type} {f : Dev → α → Dev} {d : Dev} (h : d.Wf) (hf : ∀ d a, d.Wf → (f d a).Wf) (l : List α) :
    (l.foldl f d).Wf := foldl_keeps hf h l

theorem Dev.Wf.setWave {d : Dev} (h : d.Wf) {w : Wave} (hw : w.priv.wf = true) : (d.setWave w).Wf :=
  { h with waves := h.waves.map fun _ => wf_ite hw }

theorem Dev.Wf.mapGroup {d : Dev} (h : d.Wf) (l i : Nat) {f : Group → Group}
    (hf : ∀ g, g.scratch.wf = true → (f g).scratch.wf = true := by exact fun _ h => h) : (d.mapGroup l i f).Wf :=
  have one : ∀ g : Group, g.scratch.wf = true → (if g.launch = l ∧ g.index = i then f g else g).scratch.wf = true :=
    fun g hg => wf_ite (hf g hg) hg
  { h with
    groups := h.groups.map one
    parts := by
      simp only [Dev.mapGroup, List.forall_mem_map]
      exact fun p hp => { h.parts p hp with groups := (h.parts p hp).groups.map one } }

theorem Dev.Wf.mapLaunch {d : Dev} (h : d.Wf) (i : Nat) {f : Launch → Launch}
    (hf : ∀ l, l.const.wf = true → (f l).const.wf = true := by exact fun _ h => h) : (d.mapLaunch i f).Wf :=
  { h with launches := h.launches.map fun l hl => wf_ite (hf l hl) hl }

theorem Dev.Wf.mapCtx {d : Dev} (h : d.Wf) (i : Nat) (f : Context → Context) : (d.mapCtx i f).Wf := { h with }

theorem Dev.Wf.setContext {d : Dev} (h : d.Wf) (c : Context) : (d.setContext c).Wf := by
  unfold Dev.setContext
  split
  · exact h.mapCtx _ _
  · exact { h with }

/-- A change of one core that keeps its banks canonical. -/
theorem Dev.Wf.mapCore {d : Dev} (h : d.Wf) (i : Nat) {f : Core → Core}
    (h0 : ∀ c, c.bank0.wf = true → (f c).bank0.wf = true := by exact fun _ h => h)
    (h1 : ∀ c, c.bank1.wf = true → (f c).bank1.wf = true := by exact fun _ h => h) :
    (d.mapCore i f).Wf := by
  unfold Dev.mapCore
  split
  · exact { h with bank0 := h.bank0.map fun c hc => wf_ite (h0 c hc) hc
                   bank1 := h.bank1.map fun c hc => wf_ite (h1 c hc) hc }
  · exact { h with bank0 := by simpa using ⟨h.bank0, h0 _ rfl⟩
                   bank1 := by simpa using ⟨h.bank1, h1 _ rfl⟩ }

/-- A change of every core that keeps its banks canonical. -/
theorem Dev.Wf.mapCores {d : Dev} (h : d.Wf) {f : Core → Core}
    (h0 : ∀ c, c.bank0.wf = true → (f c).bank0.wf = true := by exact fun _ h => h)
    (h1 : ∀ c, c.bank1.wf = true → (f c).bank1.wf = true := by exact fun _ h => h) :
    ({ d with cores := d.cores.map f } : Dev).Wf := { h with bank0 := h.bank0.map h0, bank1 := h.bank1.map h1 }

theorem Dev.Wf.setTier {d : Dev} (h : d.Wf) (sp : Space) {m : Memory} (hm : m.wf = true) : (d.setTier sp m).Wf := by
  unfold Dev.setTier
  split
  · exact { h with hbm := hm }
  · exact { h with lpddr := hm }
  · exact { h with host := hm }
  · exact h

/-! ### Updates of the state -/

theorem State.Wf.foldl {α : Type} {f : State → α → State} {s : State} (h : s.Wf) (hf : ∀ s a, s.Wf → (f s a).Wf)
    (l : List α) : (l.foldl f s).Wf := foldl_keeps hf h l

theorem State.Wf.setDev {s : State} (h : s.Wf) {d : Dev} (hd : d.Wf) : ({ s with dev := d } : State).Wf := { h with dev := hd }

theorem State.Wf.mapDev {s : State} (h : s.Wf) {f : Dev → Dev}
    (hf : ∀ d, d.Wf → (f d).Wf := by exact fun _ h => { h with }) : (s.mapDev f).Wf :=
  h.setDev (hf _ h.dev)

theorem State.Wf.mapWaves {s : State} (h : s.Wf) {f : Wave → Wave}
    (hf : ∀ w, w.priv.wf = true → (f w).priv.wf = true := by exact fun _ h => h) : (s.mapWaves f).Wf where
  dev := { h.dev with
    waves := h.dev.waves.map hf
    parts := by
      simp only [State.mapWaves, List.forall_mem_map]
      exact fun p hp => { h.dev.parts p hp with waves := (h.dev.parts p hp).waves.map hf } }
  issue := by
    simp only [State.mapWaves, Option.toList_map]
    exact h.issue.map fun c => hf c.wave
  held := h.held.map fun c => hf c.wave

theorem State.Wf.onWave {s : State} (h : s.Wf) (id : WaveId) {f : Wave → Wave}
    (hf : ∀ w, w.priv.wf = true → (f w).priv.wf = true := by exact fun _ h => h) : (s.onWave id f).Wf :=
  h.mapWaves fun w hw => wf_ite (hf w hw) hw

theorem State.Wf.endIssue {s : State} (h : s.Wf) : ({ s with issue := none } : State).Wf := { h with issue := AllWf_nil }

theorem State.Wf.setIssue {s : State} (h : s.Wf) {c : Issue} (hc : c.wave.priv.wf = true) :
    ({ s with issue := some c } : State).Wf := { h with issue := by simpa using hc }

theorem State.Wf.holdClause {s : State} (h : s.Wf) {c : Issue} (hc : c.wave.priv.wf = true) : (s.holdClause c).Wf :=
  { h with held := by simpa [State.holdClause] using ⟨h.held, hc⟩ }

theorem State.Wf.fresh {s : State} (h : s.Wf) : s.fresh.2.Wf := { h with dev := { h.dev with } }

theorem State.Wf.draw {s : State} (h : s.Wf) : s.draw.2.Wf := { h with }

theorem State.Wf.ite {p : Prop} [Decidable p] {s t : State} (hs : s.Wf) (ht : t.Wf) : (if p then s else t).Wf := by
  split
  · exact hs
  · exact ht

theorem State.Wf.fst_ite {α : Type} {b : Prop} [Decidable b] {p q : State × α} (hp : p.1.Wf) (hq : q.1.Wf) :
    (if b then p else q).1.Wf := by
  split
  · exact hp
  · exact hq

/-- The state of a pair, by the parts that a match gives it. -/
theorem State.Wf.of_fst {α : Type} {p : State × α} (h : p.1.Wf) {t : State} {a : α} (e : p = (t, a)) : t.Wf := by
  subst e; exact h

theorem State.Wf.of_eq {α : Type} {p q : State × α} (h : p.1.Wf) (e : p = q) : q.1.Wf := e ▸ h

theorem State.Wf.of_snd {α : Type} {p : α × State} (h : p.2.Wf) {t : State} {a : α} (e : p = (a, t)) : t.Wf := by
  subst e; exact h

/-! ### What a canonical device is asked for -/

theorem Dev.Wf.allWaves {d : Dev} (h : d.Wf) : AllWf Wave.priv d.allWaves := by
  simpa only [Dev.allWaves, AllWf_append] using
    ⟨h.waves, fun w hw => by obtain ⟨p, hp, hw⟩ := List.mem_flatMap.1 hw; exact (h.parts p hp).waves w hw⟩

theorem Dev.Wf.allGroups {d : Dev} (h : d.Wf) : AllWf Group.scratch d.allGroups := by
  simpa only [Dev.allGroups, AllWf_append] using
    ⟨h.groups, fun g hg => by obtain ⟨p, hp, hg⟩ := List.mem_flatMap.1 hg; exact (h.parts p hp).groups g hg⟩

theorem Dev.Wf.wave? {d : Dev} (h : d.Wf) {id : WaveId} {w : Wave} (e : d.wave? id = some w) : w.priv.wf = true :=
  h.allWaves.find? e

theorem Dev.Wf.group? {d : Dev} (h : d.Wf) {l i : Nat} {g : Group} (e : d.group? l i = some g) : g.scratch.wf = true :=
  h.allGroups.find? e

theorem Dev.Wf.launch? {d : Dev} (h : d.Wf) {i : Nat} {l : Launch} (e : d.launch? i = some l) : l.const.wf = true :=
  h.launches.find? e

theorem Dev.Wf.owned? {d : Dev} (h : d.Wf) {ctx peer page : Nat} {o : OwnedPage} (e : d.owned? ctx peer page = some o) :
    o.words.wf = true := h.owned.find? e

theorem Dev.Wf.tier {d : Dev} (h : d.Wf) (sp : Space) : (d.tier sp).wf = true := by
  unfold Dev.tier
  split
  · exact h.hbm
  · exact h.lpddr
  · exact h.host
  · rfl

theorem State.Wf.issue_some {s : State} (h : s.Wf) {c : Issue} (e : s.issue = some c) : c.wave.priv.wf = true :=
  h.issue c (by simp [e])

theorem State.Wf.issueOf {s : State} (h : s.Wf) {id : WaveId} {c : Issue} (e : s.issueOf id = some c) :
    c.wave.priv.wf = true := by
  unfold State.issueOf at e
  split at e
  · next hc =>
    split at e
    · cases e; exact h.issue_some hc
    · exact h.held.find? e
  · exact h.held.find? e

theorem State.Wf.waveNow {s : State} (h : s.Wf) {id : WaveId} {w : Wave} (e : s.waveNow id = some w) : w.priv.wf = true := by
  unfold State.waveNow at e
  split at e
  · next hc => cases e; exact h.issueOf hc
  · exact h.dev.wave? e

/-! ### Bytes that are put at a place -/

theorem Dev.Wf.coverGranules {d : Dev} (h : d.Wf) (l : Loc) (n : Nat) : (d.coverGranules l n).Wf := by
  unfold Dev.coverGranules
  split
  · exact h
  · exact { h with }

theorem State.Wf.poke {s : State} (h : s.Wf) (l : Loc) (bs : List Byte) : (s.poke l bs).Wf := by
  have h := h.setDev (h.dev.coverGranules l bs.length)
  unfold State.poke
  cases l.space with
  | hbm => exact h.mapDev fun d h => { h with hbm := Memory.writeN_wf _ _ h.hbm }
  | lpddr => exact h.mapDev fun d h => { h with lpddr := Memory.writeN_wf _ _ h.lpddr }
  | host => exact h.mapDev fun d h => { h with host := Memory.writeN_wf _ _ h.host }
  | scratch la g => exact h.mapDev fun d h => h.mapGroup la g fun _ => Memory.writeN_wf _ _
  | priv w => exact h.onWave w fun _ => Memory.writeN_wf _ _
  | const la => exact h.mapDev fun d h => h.mapLaunch la fun _ => Memory.writeN_wf _ _
  | fabric => exact h

theorem State.Wf.clearReservations {s : State} (h : s.Wf) (writer : Option (WaveId × Nat)) (line : Loc) :
    (s.clearReservations writer line).Wf := h.mapWaves

theorem Dev.Wf.lineCame {d : Dev} (h : d.Wf) (die : Nat) (line : Loc) (bad : List Loc) : (d.lineCame die line bad).Wf := by
  unfold Dev.lineCame
  split
  · exact h
  · exact { h with }

theorem Dev.Wf.lineWritten {d : Dev} (h : d.Wf) (die : Option Nat) (line : Loc) (bad : List Loc) :
    (d.lineWritten die line bad).Wf := by
  unfold Dev.lineWritten
  split
  · exact h
  · exact { h with }

theorem Dev.Wf.dropCopies {d : Dev} (h : d.Wf) (gone : L2Copy → Bool) : (d.dropCopies gone).Wf := { h with }

theorem Dev.Wf.setDir {d : Dev} (h : d.Wf) (e : DirLine) : (d.setDir e).Wf := { h with }

theorem Dev.Wf.dirWrite {d : Dev} (h : d.Wf) (die : Option Nat) (line : Loc) : (d.dirWrite die line).Wf := { h with }

theorem Dev.Wf.dirRead {d : Dev} (h : d.Wf) (die : Nat) (line : Loc) : (d.dirRead die line).Wf := by
  dsimp only [Dev.dirRead]
  split
  · exact h
  · exact { h.lineCame die line _ with }

theorem Dev.Wf.dirShare {d : Dev} (h : d.Wf) (line : Loc) : (d.dirShare line).Wf := { h with }

theorem Dev.Wf.l2Replace {d : Dev} (h : d.Wf) (die : Nat) (line : Loc) (k : Nat) : (d.l2Replace die line k).Wf := by
  unfold Dev.l2Replace
  extract_lets _ _ _ victim
  cases victim with
  | some c => exact h.dropCopies _
  | none => exact h

theorem State.Wf.dirEvict {s : State} (h : s.Wf) (line : Loc) : (s.dirEvict line).Wf :=
  (h.setDev ((h.dev.dropCopies _).setDir _)).mapWaves

theorem State.Wf.cameIn {s : State} (h : s.Wf) (die : Nat) (line : Loc) : (s.cameIn die line).Wf := by
  have h := h.draw.setDev (h.draw.dev.l2Replace die line s.draw.1)
  dsimp only [State.cameIn, State.draw]
  split
  · exact h.dirEvict _
  · exact h

theorem Dev.Wf.l1Write {d : Dev} (h : d.Wf) (cores : List Nat) (ctx va : Nat) (line : Loc) (data : List Byte) :
    (cores.foldl (fun d core => d.mapCore core (fun c => c.l1Write ctx va line data)) d).Wf := by
  refine h.foldl (fun _ _ h => ?_) _
  exact h.mapCore _

theorem Dev.Wf.l1Drop {d : Dev} (h : d.Wf) (cores : List Nat) (line : Loc) :
    (cores.foldl (fun d i => d.mapCore i (fun c => c.l1Drop line)) d).Wf := by
  refine h.foldl (fun _ _ h => ?_) _
  exact h.mapCore _

theorem State.Wf.storeLine {s : State} (h : s.Wf) (by_ : Writer) (l : Loc) (bs : List Byte) : (s.storeLine by_ l bs).Wf := by
  unfold State.storeLine
  have h := h.poke l bs
  cases by_ with
  | lane w lane cores ctx va =>
    refine State.Wf.cameIn (State.Wf.mapDev ?_ fun _ h => h.l1Write _ _ _ _ _) _ _
    exact (h.clearReservations _ _).mapDev fun _ h => (h.dirWrite _ _).lineWritten _ _ _
  | other => exact (h.clearReservations _ _).mapDev fun _ h => (h.dirWrite _ _).lineWritten _ _ _

theorem State.Wf.storeAt {s : State} (h : s.Wf) (by_ : Writer) (l : Loc) (bs : List Byte) : (s.storeAt by_ l bs).Wf := by
  unfold State.storeAt
  split
  · exact h.foldl (fun _ _ h => h.storeLine _ _ _) _
  · exact h.poke _ _

end Sys2Proof.Machine

/-! Faults, halts and the clause in execution: what they leave of the memories. -/

namespace Sys2Proof.Machine

/-! ### Updates of a wave and of a clause that leave the own space alone -/

@[simp] theorem Wave.qwrite_priv (w : Wave) (n : Nat) (lanes x : Lanes) : (w.qwrite n lanes x).priv = w.priv := by
  unfold Wave.qwrite
  split <;> rfl

@[simp] theorem Wave.takeCounts_priv (w c : Wave) : (w.takeCounts c).priv = w.priv := rfl

@[simp] theorem Issue.setPth_priv (c : Issue) (x : Path) : (c.setPth x).wave.priv = c.wave.priv := by simp [Issue.setPth]

@[simp] theorem Issue.writeVec_priv (c : Issue) (d : Operand) (wide : Bool) (rs : List (Nat × W64)) :
    (c.writeVec d wide rs).wave.priv = c.wave.priv := by
  unfold Issue.writeVec
  split <;> rfl

@[simp] theorem Issue.computeAs_priv (c : Issue) (d : Operand) (wide signed : Bool) (f : Nat → Nat × FpFlags) :
    (c.computeAs d wide signed f).wave.priv = c.wave.priv := by
  unfold Issue.computeAs
  split <;> simp

@[simp] theorem Issue.compute_priv (c : Issue) (d : Operand) (wide : Bool) (f : Nat → Nat × FpFlags) :
    (c.compute d wide f).wave.priv = c.wave.priv := Issue.computeAs_priv _ _ _ _ _

@[simp] theorem Issue.raw_priv (c : Issue) (d : Operand) (wide : Bool) (f : Nat → Nat) :
    (c.raw d wide f).wave.priv = c.wave.priv := by
  unfold Issue.raw
  split <;> simp

@[simp] theorem Issue.takeFlag_priv (c : Issue) (op : Nat) : (c.takeFlag op).wave.priv = c.wave.priv := by
  simp [Issue.takeFlag]

@[simp] theorem Issue.retire_priv (c : Issue) : c.retire.wave.priv = c.wave.priv := rfl

@[simp] theorem Issue.jump_priv (c : Issue) (t : W64) : (c.jump t).wave.priv = c.wave.priv := by simp [Issue.jump]

/-! ### Halts and faults -/

theorem State.Wf.haltWave {s : State} (h : s.Wf) (id : WaveId) (path : Nat) (f : FaultInfo) (halted resumable : Bool) :
    (s.haltWave id path f halted resumable).Wf := by
  unfold State.haltWave
  split
  · exact h
  · exact h.mapDev.onWave _

theorem State.Wf.haltOthers {s : State} (h : s.Wf) (sel : Wave → Bool) (resumable : Bool) : (s.haltOthers sel resumable).Wf :=
  h.foldl (fun _ _ h => h.haltWave _ _ _ _ _) _

theorem State.Wf.takeFault {s : State} (h : s.Wf) (id : WaveId) (path : Nat) (f : FaultInfo) : (s.takeFault id path f).Wf := by
  unfold State.takeFault
  exact (((h.haltWave _ _ _ _ _).haltOthers _ _).mapDev fun _ h => h.mapLaunch _).mapDev

theorem State.Wf.boundaryHalt {s : State} (h : s.Wf) (id : WaveId) : (s.boundaryHalt id).Wf := by
  unfold State.boundaryHalt
  split
  · split_ifs
    · exact h
    · exact h.haltWave _ _ _ _ _
    · exact h.onWave _
    · exact h
  · exact h

theorem State.Wf.parkForFill {s : State} (h : s.Wf) (id : WaveId) (mask : Lanes) (touches : List Touch) :
    (s.parkForFill id mask touches).Wf := by
  unfold State.parkForFill
  exact (h.onWave _).mapDev fun d h => { h.mapGroup id.launch id.group with }

/-! ### The clause in execution -/

theorem State.Wf.countSlot {s : State} (h : s.Wf) (c : Issue) : (s.countSlot c).Wf := by
  unfold State.countSlot
  split
  · exact h
  · exact (h.onWave _).mapDev fun _ h => h.mapLaunch _

theorem State.Wf.startClause {s : State} (h : s.Wf) {c : Issue} (hc : c.wave.priv.wf = true) : (s.startClause c).Wf :=
  (h.countSlot c).setIssue hc

theorem State.Wf.parkPath {s : State} (h : s.Wf) (c : Issue) (why : Park) : (s.parkPath c why).Wf :=
  h.onWave _ fun _ h => by simpa using h

theorem State.Wf.undoTurn {s : State} (h : s.Wf) (c : Issue) : (s.undoTurn c).Wf := by
  unfold State.undoTurn
  split
  · exact h
  · exact h.mapDev

theorem Dev.Wf.refund {d : Dev} (h : d.Wf) (dest units : Nat) : (d.refund dest units).Wf := { h with }

theorem Dev.Wf.spend {d : Dev} (h : d.Wf) (dest units : Nat) : (d.spend dest units).Wf := { h with }

theorem Memory.filter_wf {m : Memory} (p : Host.Cell → Bool) (h : m.wf = true) : Memory.wf (m.filter p) = true := by
  rw [Memory.wf_iff] at *
  exact ⟨h.1.filter _, fun x hx => h.2 x (List.mem_of_mem_filter hx)⟩

theorem Dev.Wf.convertWays {d : Dev} (h : d.Wf) (w : Wave) (n : Nat) : (d.convertWays w n).Wf := by
  unfold Dev.convertWays
  refine Dev.Wf.mapGroup ?_ _ _ fun _ h => Memory.filter_wf _ h
  exact h.mapCore _

theorem Dev.Wf.restoreWays {d : Dev} (h : d.Wf) (w : Wave) (n : Nat) : (d.restoreWays w n).Wf := by
  unfold Dev.restoreWays
  refine Dev.Wf.mapGroup ?_ _ _
  exact h.mapCore _

theorem State.Wf.undoClause {s : State} (h : s.Wf) (c : Issue) : (s.undoClause c).Wf := by
  have h1 : (s.mapDev fun d => { d with locks := d.locks.filter (fun e => !c.commands.contains e.owner) }).Wf :=
    h.mapDev
  have h2 := h1.mapDev fun _ h => h.restoreWays c.wave c.waysAdded
  unfold State.undoClause
  split_ifs
  · exact h1
  · exact h1.mapDev fun _ h => h.foldl (fun _ _ h => h.refund _ _) _
  · exact h2
  · exact h2.mapDev fun _ h => h.foldl (fun _ _ h => h.refund _ _) _

theorem State.Wf.abandon {s : State} (h : s.Wf) {c : Issue} (hc : c.wave.priv.wf = true) (e : Stop) : (s.abandon c e).Wf := by
  have h := h.endIssue
  have undone := (h.undoClause c).countSlot c
  cases e with
  | fault cls code mask addr => exact undone.takeFault _ _ _
  | pending f => exact undone.takeFault _ _ _
  | fill mask pages =>
    unfold State.abandon
    dsimp only
    split
    · exact (h.holdClause hc).parkForFill _ _ _
    · exact undone.parkForFill _ _ _
  | notReady why =>
    unfold State.abandon
    dsimp only
    split
    · exact h.holdClause (by simpa using hc)
    · exact (((h.undoClause c).undoTurn c).parkPath c why).boundaryHalt _
  | hold => exact h.holdClause hc

/-! ### What an instruction answers -/

/-- The clause that an instruction leaves, if it does not stop it, has a canonical own space. -/
def Except.ClauseWf : Except Stop Issue → Prop
  | .ok c => c.wave.priv.wf = true
  | .error _ => True

/-- An instruction leaves a state with canonical memories, and a clause with a canonical own space. -/
def InstrWf (p : State × Except Stop Issue) : Prop := p.1.Wf ∧ Except.ClauseWf p.2

/-- What an instruction or an event answers is a state with canonical memories, or no state. -/
def KeepsWf (o : Out) : Prop := ∀ t, o = .next t → t.Wf

@[simp] theorem keepsWf_next (s : State) : KeepsWf (.next s) ↔ s.Wf := ⟨fun h => h s rfl, fun h _ e => by cases e; exact h⟩

theorem keepsWf_onIssue {s : State} (h : s.Wf) {f : State → Issue → State × Except Stop Issue}
    (hf : ∀ c, c.wave.priv.wf = true → InstrWf (f s c)) : KeepsWf (s.onIssue f) := by
  intro t ht
  cases hi : s.issue with
  | none => simp [State.onIssue, hi] at ht
  | some c =>
    have hc := h.issue_some hi
    obtain ⟨hs, hr⟩ := hf c hc
    rcases State.onIssue_cases hi ht with ⟨s', c', e, rfl⟩ | ⟨s', x, e, rfl⟩
    · rw [e] at hs hr
      exact hs.setIssue hr
    · rw [e] at hs
      refine hs.abandon ?_ _
      cases hj : s'.issue with
      | none => exact hc
      | some c' => exact hs.issue_some hj

theorem keepsWf_onClause {s : State} (h : s.Wf) {f : Issue → Except Stop Issue}
    (hf : ∀ c, c.wave.priv.wf = true → Except.ClauseWf (f c)) : KeepsWf (s.onClause f) :=
  keepsWf_onIssue h fun c hc => ⟨h, hf c hc⟩

@[simp] theorem clauseWf_ok (c : Issue) : Except.ClauseWf (.ok c) ↔ c.wave.priv.wf = true := Iff.rfl

@[simp] theorem clauseWf_error (e : Stop) : Except.ClauseWf (.error e) := trivial

@[simp] theorem clauseWf_ite {p : Prop} [Decidable p] {a b : Except Stop Issue} :
    Except.ClauseWf (if p then a else b) ↔ (p → Except.ClauseWf a) ∧ (¬p → Except.ClauseWf b) := by
  split <;> simp [*]

theorem clauseWf_needType {c x : Issue} (ok : EType → Bool) (hx : x.wave.priv.wf = true) :
    Except.ClauseWf (c.needType ok x) := by
  simp [Issue.needType, hx]

theorem clauseWf_alu {c : Issue} (hc : c.wave.priv.wf = true) (ok : EType → Bool) (d : Operand) (wide : Bool)
    (f : Nat → Nat × FpFlags) : Except.ClauseWf (c.alu ok d wide f) :=
  clauseWf_needType ok (by simpa using hc)

/-- R45. A long-latency computation changes neither memory nor own space. -/
theorem State.Wf.computeLate {s : State} (h : s.Wf) {c : Issue} (hc : c.wave.priv.wf = true) (ok : EType → Bool)
    (d : Operand) (f : Nat → Nat × FpFlags) : InstrWf (s.computeLate c ok d f) := by
  unfold State.computeLate
  split
  · exact ⟨h.fresh, by simpa using hc⟩
  · exact ⟨h, trivial⟩

end Sys2Proof.Machine

/-! Translation, the pools, the accesses of lanes and what they perform, with canonical memories. -/

namespace Sys2Proof.Machine

/-! ### Translation and the pools -/

theorem State.Wf.tlbFill {s : State} (h : s.Wf) (u : TransUnit) (ctx va : Nat) : (s.tlbFill u ctx va).Wf := by
  unfold State.tlbFill
  split
  · exact h
  · split
    · exact h
    · split
      · dsimp only [State.draw]
        split
        · exact h.draw.mapDev
        · split
          · exact h.draw.mapDev
          · exact h.draw
      · exact h

theorem Dev.Wf.tlbDrop {d : Dev} (h : d.Wf) (ctx base n : Nat) : (d.tlbDrop ctx base n).Wf := { h with }

theorem State.Wf.setPoolCount {s : State} (h : s.Wf) (c : Context) (i n : Nat) : (s.setPoolCount c i n).Wf := h.storeAt _ _ _

theorem State.Wf.poolTake {s t : State} {c : Context} {i x : Nat} (h : s.Wf) (e : s.poolTake c i = some (x, t)) : t.Wf := by
  dsimp only [State.poolTake] at e
  split at e
  · cases e
  · simp only [Option.some.injEq, Prod.mk.injEq] at e
    obtain ⟨-, rfl⟩ := e
    exact h.setPoolCount _ _ _

theorem State.Wf.poolReturn {s : State} (h : s.Wf) (c : Context) (i frame : Nat) : (s.poolReturn c i frame).Wf := by
  dsimp only [State.poolReturn]
  split
  · exact (h.storeAt _ _ _).setPoolCount _ _ _
  · exact h.mapDev

theorem Dev.Wf.dirWriteRange {d : Dev} (h : d.Wf) (sp : Space) (a n : Nat) : (d.dirWriteRange sp a n).Wf := { h with }

theorem Dev.Wf.dropL1Frame {d : Dev} (h : d.Wf) (sp : Space) (a n : Nat) : (d.dropL1Frame sp a n).Wf := h.mapCores

/-! ### Counters, flags and rights -/

theorem Dev.Wf.raise {d : Dev} (h : d.Wf) (id : WaveId) (ctr op : Nat) : (d.raise id ctr op).Wf := h.mapGroup _ _

theorem Dev.Wf.countDone {d : Dev} (h : d.Wf) (id : WaveId) (op : Nat) : (d.countDone id op).Wf := h.mapGroup _ _

theorem State.Wf.mapFlags {s : State} (h : s.Wf) (id : WaveId) (f : FlagState → FlagState) : (s.mapFlags id f).Wf := h.onWave _

theorem State.Wf.flagDone {s : State} (h : s.Wf) (id : WaveId) (op : Nat) : (s.flagDone id op).Wf := h.mapFlags _ _

theorem Dev.Wf.mapRight {d : Dev} (h : d.Wf) (ctx page : Nat) (f : AtomicRight → AtomicRight) :
    (d.mapRight ctx page f).Wf := { h with }

theorem Dev.Wf.recallPage {d : Dev} (h : d.Wf) (ctx page : Nat) : (d.recallPage ctx page).Wf := by
  unfold Dev.recallPage
  split
  · exact { h with }
  · exact h

theorem Dev.Wf.countAtomic {d : Dev} (h : d.Wf) (ctx page dev : Nat) : (d.countAtomic ctx page dev).Wf := { h with }

theorem Dev.Wf.mapAccess {d : Dev} (h : d.Wf) (op : Nat) (f : Access → Access) : (d.mapAccess op f).Wf := { h with }

theorem Dev.Wf.partGone {d : Dev} (h : d.Wf) (op : Nat) (l : LaneAccess) (result : Option W64) : (d.partGone op l result).Wf :=
  { h with }

theorem Dev.Wf.coverDest {d : Dev} (h : d.Wf) (w : WaveId) (dest : Dest) (lanes : List Nat) : (d.coverDest w dest lanes).Wf := by
  unfold Dev.coverDest
  split
  · exact h
  · exact { h with }

theorem Dev.Wf.setError {d : Dev} (h : d.Wf) (ctx peer cause : Nat) : (d.setError ctx peer cause).Wf := { h with }

/-! ### Loads -/

theorem State.Wf.loadGlobal {s : State} (h : s.Wf) (a : Access) (l : LaneAccess) (n : Nat) : (s.loadGlobal a l n).2.Wf := by
  dsimp only [State.loadGlobal, State.draw]
  split
  · exact h.draw
  · split
    · exact h.draw
    · have read := h.draw.mapDev (f := fun d => d.dirRead (dieOf (sliceOf (s.dev.l1Slices a.w) (l.va.toNat % 2 ^ 48))) l.loc.line)
        fun _ h => h.dirRead _ _
      split_ifs
      · exact read.cameIn _ _
      · exact (read.mapDev fun _ h => (h.l1Drop _ _).mapCore _).cameIn _ _
      · exact read
      · exact read.mapDev fun _ h => (h.l1Drop _ _).mapCore _

theorem State.Wf.freshenL1 {s : State} (h : s.Wf) (a : Access) (line : Loc) : (s.freshenL1 a line).Wf :=
  h.mapDev fun _ h => h.l1Drop _ _

theorem State.Wf.laneRead {s : State} (h : s.Wf) (a : Access) (l : LaneAccess) : (s.laneRead a l).2.Wf := by
  unfold State.laneRead
  split
  · exact h
  · split
    · exact h.loadGlobal _ _ _
    · split
      · exact h
      · exact h

theorem State.Wf.reserve {s : State} (h : s.Wf) (id : WaveId) (lane : Nat) (line : Loc) (page : Nat) :
    (s.reserve id lane line page).Wf :=
  h.onWave _ fun _ h => wf_ite h h

theorem State.Wf.unreserve {s : State} (h : s.Wf) (id : WaveId) (lane : Nat) : (s.unreserve id lane).Wf := h.onWave _

/-! ### The end of an access -/

@[simp] theorem Wave.writeDest_priv (w : Wave) (a : Access) (rs : List (Nat × W64)) (half : Option Bool) :
    (w.writeDest a rs half).priv = w.priv := by
  unfold Wave.writeDest
  split
  · rfl
  · rfl
  · rfl
  · refine foldl_keeps (P := fun x : Wave => x.priv = w.priv) (fun x _ h => ?_) rfl rs
    exact h

theorem State.Wf.accessEnd {s : State} (h : s.Wf) (op : Nat) : (s.accessEnd op).Wf := by
  unfold State.accessEnd
  split
  · exact h
  · next a _ =>
    extract_lets waits s1 s2 s3 more s4 faults fails meets pend
    have h4 : s4.Wf := ((h.mapDev.mapDev fun _ h => h.countDone _ _).onWave _).onWave _
    split
    · exact h
    · split
      · exact h4.flagDone _ _
      · exact h4.onWave _

theorem State.Wf.dropsRequest {s : State} (h : s.Wf) (ctx target : Nat) : (s.dropsRequest ctx target).Wf := by
  refine (h.mapDev fun d h => ?_).haltOthers _ _
  have h : ({ d with launches := d.launches.map (fun l => if l.ctx = ctx then { l with halted := true } else l) } : Dev).Wf :=
    { h with launches := h.launches.map fun _ h => wf_ite h h }
  exact h.mapCtx _ _

theorem State.Wf.dropPart {s : State} (h : s.Wf) (a : Access) (l : LaneAccess) (target : Nat) : (s.dropPart a l target).Wf := by
  unfold State.dropPart
  split
  · exact h.mapDev
  · exact State.Wf.dropsRequest (h.mapDev.onWave _ (by intro w h; simpa using h)) _ _

theorem State.Wf.failLane {s : State} (h : s.Wf) (op lane part ctx peer cause : Nat) :
    (s.failLane op lane part ctx peer cause).Wf := by
  unfold State.failLane
  split
  · exact h.mapDev
  · dsimp only
    split
    · exact h.mapDev.mapDev.accessEnd _
    · exact h.mapDev.accessEnd _

/-! ### Transactions -/

theorem Dev.Wf.blocksPassed {d : Dev} (h : d.Wf) (port : Nat) (outbound : Bool) (n : Nat) :
    (d.blocksPassed port outbound n).Wf := { h with }

theorem Dev.Wf.sendOut {d : Dev} (h : d.Wf) (t : Txn) : (d.sendOut t).Wf := { h with }

theorem Dev.Wf.sendFrom {d : Dev} (h : d.Wf) (before ts : List Txn) : (Dev.sendFrom before ts d).Wf := by
  induction ts generalizing before d with
  | nil => exact { h with }
  | cons t r ih =>
    unfold Dev.sendFrom
    split
    · exact ih (h.sendOut _) _
    · exact ih h _

theorem Dev.Wf.sendHeld {d : Dev} (h : d.Wf) : d.sendHeld.Wf := h.sendFrom _ _

theorem State.Wf.sendTxn {s : State} (h : s.Wf) (t : Txn) : (s.sendTxn t).Wf := by
  unfold State.sendTxn
  exact h.fresh.mapDev fun d h => Dev.Wf.sendHeld { h with }

theorem State.Wf.judge {s : State} (h : s.Wf) (id : WaveId) (entry : Nat) (confirmed : Bool) :
    (s.judge id entry confirmed).Wf := h.onWave _

theorem State.Wf.askVerdict {s : State} (h : s.Wf) (id : WaveId) (e : WatchEntry) : (s.askVerdict id e).Wf := by
  unfold State.askVerdict
  extract_lets
  split
  · exact h.judge _ _ _
  · exact h.sendTxn _

theorem State.Wf.askLines {s : State} (h : s.Wf) (r : Reader) (ctx addr n : Nat) : (s.askLines r ctx addr n).Wf := by
  refine h.foldl (fun s line h => ?_) _
  extract_lets
  split
  · exact h
  · split
    · exact h.mapDev
    · exact h.fresh.sendTxn _

theorem Dev.Wf.dropFetched {d : Dev} (h : d.Wf) (r : Reader) : (d.dropFetched r).Wf := { h with }

theorem applyScratch_wf (sp : Space) (a : Access) {m : Memory} (h : m.wf = true) (l : LaneAccess) :
    (applyScratch sp a m l).wf = true := by
  unfold applyScratch
  split
  · exact h
  · split
    · exact Memory.writeN_wf _ _ h
    · split
      · exact Memory.writeN_wf _ _ h
      · exact h
    · exact h

/-! ### Pages of other devices whose right is here -/

theorem Dev.Wf.setOwned {d : Dev} (h : d.Wf) (o : OwnedPage) {new : OwnedPage} (hn : new.words.wf = true) :
    (d.setOwned o new).Wf := { h with owned := h.owned.map fun _ => wf_ite hn }

theorem OwnedPage.put_wf {o : OwnedPage} (h : o.words.wf = true) (va : Nat) (bs : List Byte) : (o.put va bs).words.wf = true :=
  Memory.writeN_wf _ _ h

theorem State.Wf.ownedStore {s : State} (h : s.Wf) (writer : Option (WaveId × Nat)) {o : OwnedPage} (ho : o.words.wf = true)
    (va : Nat) (bs : List Byte) : (s.ownedStore writer o va bs).Wf :=
  (h.clearReservations _ _).mapDev fun _ h => h.setOwned _ (OwnedPage.put_wf ho _ _)

theorem State.Wf.ownedAtomic {s : State} (h : s.Wf) (writer : Option (WaveId × Nat)) {o : OwnedPage} (ho : o.words.wf = true)
    (dev va width : Nat) (new : Nat → Option Nat) : (s.ownedAtomic writer o dev va width new).2.Wf := by
  unfold State.ownedAtomic
  dsimp only
  split
  · exact (h.clearReservations _ _).mapDev fun _ h => h.setOwned _ (Memory.writeN_wf _ _ ho)
  · exact h.mapDev fun _ h => h.setOwned _ ho

/-! ### Performing a part -/

theorem State.Wf.sendPart {s : State} (h : s.Wf) (a : Access) (l : LaneAccess) (peer va : Nat) (away : Bool) :
    (s.sendPart a l peer va away).Wf := by
  unfold State.sendPart
  split
  · exact h.failLane _ _ _ _ _ _
  · extract_lets t
    split
    · exact (h.clearReservations _ _).sendTxn _
    · exact (h.clearReservations _ _).sendTxn _
    · exact (h.clearReservations _ _).sendTxn _
    · exact h.sendTxn _
    · exact h.sendTxn _
    · exact h.sendTxn _

theorem State.Wf.addFlags {s : State} (h : s.Wf) (a : Access) (lane : Nat) (fl : FpFlags) : (s.addFlags a lane fl).Wf := by
  unfold State.addFlags
  extract_lets
  split
  · exact h.mapDev
  · exact h

theorem State.Wf.ownedPart {s : State} (h : s.Wf) (a : Access) (l : LaneAccess) {o : OwnedPage} (ho : o.words.wf = true) :
    (s.ownedPart a l o).Wf := by
  unfold State.ownedPart
  extract_lets va word gone store held s'
  have hgone {s : State} (h : s.Wf) (r : Option W64) : (gone s r).Wf := h.mapDev
  have hstore (bs : List Byte) : (store s bs).Wf := h.ownedStore _ ho _ _
  split
  · exact hgone ((h.ownedAtomic _ ho _ _ _ _).addFlags _ _ _) _
  · exact hgone (hstore _) _
  · exact hgone h _
  · exact hgone (h.reserve _ _ _ _) _
  · exact hgone (hstore _) _
  · have hs : s'.Wf := by
      unfold s'
      split
      · exact hstore _
      · exact h
    exact hgone (hs.unreserve _ _) _
  · exact hgone (h.poke _ _) _
  · exact hgone (hstore _) _
  · exact hgone h _

theorem State.Wf.startPart {s : State} (h : s.Wf) (a : Access) (l : LaneAccess) : (s.startPart a l).Wf := by
  unfold State.startPart
  extract_lets peer va held s'
  split
  · exact h.draw.mapDev
  · split
    · next e => exact h.ownedPart _ _ (h.dev.owned? e)
    · split
      · exact (h.unreserve _ _).sendPart _ _ _ _ _
      · exact (h.unreserve _ _).mapDev
    · exact (h.sendPart _ _ _ _ _).reserve _ _ _ _
    · exact h.sendPart _ _ _ _ _

theorem State.Wf.laneStore {s : State} (h : s.Wf) (a : Access) (l : LaneAccess) (bs : List Byte) (result : Option W64)
    (fl : FpFlags) : (s.laneStore a l bs result fl).state.Wf := by
  unfold State.laneStore
  extract_lets
  split
  · exact h
  · exact h.storeAt _ _ _

theorem State.Wf.performLane {s : State} (h : s.Wf) (a : Access) (l : LaneAccess) : (s.performLane a l).state.Wf := by
  have read := h.laneRead a l
  unfold State.performLane
  extract_lets
  split
  iterate 7 exact h
  · split
    · next e => exact read.of_snd e
    · next e => exact read.of_snd e
  · split
    · next e => exact (read.of_snd e).reserve _ _ _ _
    · next e => exact read.of_snd e
  · exact h.laneStore _ _ _ _ _
  · split
    · exact h
    · split
      · exact h.storeAt _ _ _
      · exact h.freshenL1 _ _
  · split
    · exact (h.laneStore _ _ _ _ _).unreserve _ _
    · exact h.unreserve _ _
  · split
    · next e =>
      dsimp only
      exact (read.of_snd e).poke _ _
    · next e => exact read.of_snd e
  · split
    · exact h
    · exact h.laneStore _ _ _ _ _
  · split
    · exact h
    · exact h.laneStore _ _ _ _ _

theorem State.Wf.performHere {s : State} (h : s.Wf) (a : Access) (l : LaneAccess) : (s.performHere a l).Wf := by
  unfold State.performHere
  split
  · exact h.sendPart _ _ _ _ _
  · split
    · exact h.mapDev fun _ h => h.recallPage _ _
    · exact h
  · extract_lets reaches s' p
    split
    · exact h.dropPart _ _ _
    · have hs : s'.Wf := by
        unfold s'
        split
        · exact h.mapDev
        · exact h
      have hp : p.state.Wf := by
        unfold p
        split
        · exact hs
        · exact hs.performLane _ _
      split
      · exact hp.mapDev.addFlags _ _ _
      · exact hp.mapDev

theorem State.Wf.performPart {s : State} (h : s.Wf) (a : Access) (l : LaneAccess) : (s.performPart a l).Wf := by
  unfold State.performPart
  split
  · exact h.startPart _ _
  · exact h.performHere _ _

theorem State.Wf.performParts {s : State} (h : s.Wf) (op : Nat) (sel : LaneAccess → Bool) (count : Nat) :
    (s.performParts op sel count).Wf := by
  unfold State.performParts
  split
  · exact h
  · refine foldl_keeps (P := fun x : State × Nat => x.1.Wf) (fun x l h => ?_) h _
    split
    · exact h
    · split
      · exact h
      · exact h.performPart _ _

theorem State.Wf.performSome {s : State} (h : s.Wf) (op : Nat) (m : Nat → Bool) (count : Nat) :
    (s.performSome op m count).Wf := h.performParts _ _ _

theorem State.Wf.sendTxns {s : State} (h : s.Wf) (a : Access) : (s.sendTxns a).Wf := h.performParts _ _ _

theorem State.Wf.writeResults {s : State} (h : s.Wf) (op : Nat) (m : Nat → Bool) (half : Option Bool) :
    (s.writeResults op m half).Wf := by
  unfold State.writeResults
  split
  · exact h
  · exact ((h.onWave _ fun _ h => by simpa using h).mapDev fun _ h => h.coverDest _ _ _).mapDev

end Sys2Proof.Machine

/-! The boundary of a clause and its end, and the end of translations, with canonical memories. -/

namespace Sys2Proof.Machine

/-! ### A path at a clause boundary -/

@[simp] theorem Wave.arrive_priv (w : Wave) (p i : Nat) (e : DivEntry) : (w.arrive p i e).1.priv = w.priv := by
  dsimp only [Wave.arrive]
  split
  · split
    · simp
    · rfl
  · split
    · simp
    · simp

@[simp] theorem Wave.settleStep_priv (w : Wave) (p : Nat) : (w.settleStep p).1.priv = w.priv := by
  dsimp only [Wave.settleStep]
  split
  · rfl
  · split
    · simp
    · split
      · split <;> simp
      · split
        · split <;> simp
        · rfl

@[simp] theorem Wave.settleFor_priv (n : Nat) (w : Wave) (p : Nat) : (Wave.settleFor n w p).priv = w.priv := by
  induction n generalizing w p with
  | zero => rfl
  | succ n ih =>
    have step := w.settleStep_priv p
    unfold Wave.settleFor
    split
    · next e => rw [e] at step; rw [ih, ← step]
    · next e => rw [e] at step; exact step

@[simp] theorem Wave.settle_priv (w : Wave) (p : Nat) : (w.settle p).priv = w.priv := Wave.settleFor_priv _ _ _

@[simp] theorem Wave.dropLanes_priv (w : Wave) (m : Lanes) : (w.dropLanes m).priv = w.priv := rfl

@[simp] theorem Wave.giveWay_priv (w : Wave) (p : Nat) : (w.giveWay p).priv = w.priv := by
  unfold Wave.giveWay
  split <;> rfl

@[simp] theorem Wave.keepRunning_priv (w : Wave) : w.keepRunning.priv = w.priv := by
  unfold Wave.keepRunning
  split <;> rfl

@[simp] theorem Dev.wake_priv (d : Dev) (w : Wave) (p : Nat) : (d.wake w p).priv = w.priv := by
  dsimp only [Dev.wake]
  split
  · split <;> simp
  · split
    · rfl
    · simp
  · rfl

theorem Dev.Wf.discardL1 {d : Dev} (h : d.Wf) (launch core : Nat) (scope : Scope) : (d.discardL1 launch core scope).Wf :=
  h.mapCores (fun _ h => wf_ite h h) fun _ h => wf_ite h h

/-! ### Barriers and releases -/

theorem Dev.Wf.mapBarrier {d : Dev} (h : d.Wf) (g : Group) (cluster : Bool) (n : Nat) (f : Barrier → Barrier) :
    (d.mapBarrier g cluster n f).Wf := by
  unfold Dev.mapBarrier
  split
  · exact { h with }
  · exact h.mapGroup _ _

theorem State.Wf.barrierTry {s : State} (h : s.Wf) (g : Group) (cluster : Bool) (n : Nat) (arrival : Option WaveId) :
    (s.barrierTry g cluster n arrival).Wf := by
  unfold State.barrierTry
  extract_lets d ws b clock free s1 s2
  split
  · exact h
  · have h1 : s1.Wf := by
      refine h.mapWaves fun w hw => ?_
      split
      · dsimp only
        split_ifs <;> simpa using hw
      · exact hw
    exact (h1.mapDev fun _ h => h.mapBarrier _ _ _ _).mapDev fun _ h => h.foldl (fun _ _ h => h.discardL1 _ _ _) _

theorem State.Wf.barriersTry {s : State} (h : s.Wf) (launch group : Nat) : (s.barriersTry launch group).Wf := by
  unfold State.barriersTry
  split
  · exact h
  · exact h.foldl (fun _ _ h => (h.barrierTry _ _ _ _).barrierTry _ _ _ _) _

/-- R34. The waves and groups that are released go, and their core keeps its banks. -/
theorem State.Wf.releaseTry {s : State} (h : s.Wf) (launch group : Nat) : (s.releaseTry launch group).Wf := by
  unfold State.releaseTry
  split
  · exact h
  · next g _ =>
    extract_lets mine gone
    split
    · exact h
    · refine h.mapDev fun d h => ?_
      extract_lets d1 d2 d3 left keep d4 d5
      have h1 : d1.Wf := h.mapGroup _ _
      have h2 : d2.Wf := { h1 with waves := h1.waves.filter _ }
      have h3 : d3.Wf := h2.mapCore _
      have h4 : d4.Wf := h3.mapCores
      have h5 : d5.Wf := { h4 with groups := h4.groups.filter _ }
      split
      · exact h3
      · exact h5.mapCores (fun _ h => wf_ite h h) fun _ h => wf_ite h h

theorem State.Wf.afterEnd {s : State} (h : s.Wf) (id : WaveId) : (s.afterEnd id).Wf := by
  unfold State.afterEnd
  split
  · exact h
  · dsimp only
    refine (State.Wf.barriersTry ?_ _ _).releaseTry _ _
    split
    · exact h.onWave _
    · exact h.onWave _

theorem State.Wf.wakePath {s : State} (h : s.Wf) (id : WaveId) (p : Nat) : (s.wakePath id p).Wf := by
  unfold State.wakePath
  split
  · exact h
  · next w e =>
    extract_lets +onlyGivenNames waits t
    have ht : t.priv.wf = true := by simpa [t] using h.waveNow e
    split
    · exact h
    · extract_lets +onlyGivenNames det kept s'
      have hk : kept.priv.wf = true := by
        unfold kept
        split <;> simpa using ht
      have hs : s'.Wf := h.onWave _ fun _ _ => hk
      split
      · exact hs.mapDev fun _ h => h.discardL1 _ _ _
      · exact hs

/-! ### The effects and the end of a clause -/

theorem Dev.Wf.mapUnit {d : Dev} (h : d.Wf) (i : Nat) (f : SplatUnit → SplatUnit) : (d.mapUnit i f).Wf := by
  unfold Dev.mapUnit
  split
  · exact { h with }
  · exact { h with }

theorem State.Wf.perform {s t : State} (h : s.Wf) {w : Wave} {e : Effect} (ht : s.perform w e = some t) : t.Wf := by
  cases e with
  | access a =>
    simp only [State.perform, Option.some.injEq] at ht
    subst ht
    refine State.Wf.accessEnd (State.Wf.sendTxns ?_ a) _
    split
    · exact State.Wf.mapDev h.mapDev fun _ h => h.raise _ _ _
    · exact h.mapDev
  | fence lanes kind scope =>
    dsimp only [State.perform] at ht
    split at ht
    · simp only [Option.some.injEq] at ht
      subst ht
      split
      · exact h
      · exact h.mapDev fun _ h => h.discardL1 _ _ _
    · cases ht
  | matrix core m =>
    simp only [State.perform, Option.some.injEq] at ht
    exact ht ▸ h.mapDev fun _ h => h.mapCore _
  | splat unit o =>
    simp only [State.perform, Option.some.injEq] at ht
    exact ht ▸ (h.mapDev fun _ h => h.mapUnit _ _).mapDev fun _ h => h.raise _ _ _
  | engine c =>
    simp only [State.perform, Option.some.injEq] at ht
    subst ht
    exact State.Wf.mapDev h.mapDev fun _ h => h.raise _ _ _
  | allowance dest units => cases ht; exact h
  | trigger =>
    simp only [State.perform, Option.some.injEq] at ht
    exact ht ▸ h.onWave _
  | convert ways => cases ht; exact h
  | put l bs =>
    simp only [State.perform, Option.some.injEq] at ht
    exact ht ▸ h.poke _ _

theorem State.Wf.performAll {s : State} (h : s.Wf) (w : Wave) (es : List Effect) : (s.performAll w es).1.Wf := by
  induction es generalizing s with
  | nil => exact h
  | cons e r ih =>
    unfold State.performAll
    split
    · next ht => exact ih (h.perform ht)
    · exact h

theorem State.Wf.endClause {s : State} (h : s.Wf) {c : Issue} (hc : c.wave.priv.wf = true) : (s.endClause c).Wf := by
  unfold State.endClause
  extract_lets +onlyGivenNames s1 id src w det s2 s3
  have h3 : s3.Wf := (h.endIssue.mapDev.countSlot c).mapDev fun _ h => h.setWave (by simpa [w] using hc)
  split
  · exact h3.takeFault _ _ _
  · extract_lets s4 ended
    have h4 : s4.Wf := by
      unfold s4
      split
      · split
        · exact h3
        · refine State.Wf.barrierTry (State.Wf.onWave (h3.mapDev fun _ h => h.mapBarrier _ _ _ _) _ fun w h => ?_) _ _ _ _
          dsimp only
          split
          · simpa using h
          · exact h
      · refine h3.onWave _ fun w h => ?_
        dsimp only
        split_ifs <;> simpa using h
      · exact h3.wakePath _ _
    split
    · exact (h4.afterEnd _).boundaryHalt _
    · exact h4.boundaryHalt _

theorem State.Wf.finishClause {s : State} (h : s.Wf) {c : Issue} (hc : c.wave.priv.wf = true) : (s.finishClause c).Wf := by
  have h1 := h.performAll c.wave c.effects
  unfold State.finishClause
  extract_lets r w c'
  have hw : c'.wave.priv.wf = true := by
    cases e : r.1.issue with
    | none => simpa [c', w, e] using hc
    | some x => simpa [c', w, e] using h1.issue_some e
  split
  · exact h1.endClause hw
  · exact h1.endIssue.holdClause hw

/-- The clause that a state executes, or another one if there is none. -/
theorem State.Wf.issue_getD {s : State} (h : s.Wf) {c : Issue} (hc : c.wave.priv.wf = true) :
    (s.issue.getD c).wave.priv.wf = true := by
  cases e : s.issue with
  | none => exact hc
  | some x => exact h.issue_some e

theorem State.Wf.flush {s : State} (h : s.Wf) {c : Issue} (hc : c.wave.priv.wf = true) :
    (s.flush c).1.Wf ∧ (s.flush c).2.wave.priv.wf = true := by
  have h1 := h.performAll c.wave c.effects
  exact ⟨h1.setIssue (h1.issue_getD hc), h1.issue_getD hc⟩

theorem State.Wf.fencePoint {s : State} (h : s.Wf) {c : Issue} (hc : c.wave.priv.wf = true) (kind : FenceKind) :
    InstrWf (s.fencePoint c kind) := by
  obtain ⟨h1, h2⟩ := h.flush hc
  unfold State.fencePoint
  split
  · exact ⟨h, hc⟩
  · dsimp only
    split
    · exact ⟨h1, trivial⟩
    · exact ⟨h1, h2⟩

/-! ### The end of translations -/

theorem State.Wf.drain {s : State} (h : s.Wf) (ctx : Option Nat) (p : LaneAccess → Bool) : (s.drain ctx p).Wf :=
  h.foldl (fun _ _ h => (h.performSome _ _ _).accessEnd _) _

theorem State.Wf.age {s : State} (h : s.Wf) (ctx : Option Nat) (p : LaneAccess → Bool) : (s.age ctx p).Wf := by
  have aged {q : Prop} [Decidable q] (c : Issue) (h : c.wave.priv.wf = true) :
      (if q then c.aged p else c).wave.priv.wf = true := by
    split
    · exact h
    · exact h
  exact {
    dev := { h.dev with }
    issue := by
      simp only [State.age, Option.toList_map]
      exact h.issue.map fun c => aged c
    held := h.held.map fun c => aged c }

theorem State.Wf.revokeFrame {s : State} (h : s.Wf) (ctx base n : Nat) (sp : Space) (frame : Nat) :
    (s.revokeFrame ctx base n sp frame).Wf :=
  ((h.drain _ _).age _ _).mapDev fun _ h => (h.tlbDrop _ _ _).dropL1Frame _ _ _

theorem Dev.Wf.dropL1Range {d : Dev} (h : d.Wf) (ctx base n : Nat) : (d.dropL1Range ctx base n).Wf :=
  (h.foldl (fun _ _ h => h.dropL1Frame _ _ _) _).mapCores

theorem State.Wf.revoke {s : State} (h : s.Wf) (ctx base n : Nat) : (s.revoke ctx base n).Wf :=
  ((h.drain _ _).age _ _).mapDev fun _ h => (h.dropL1Range _ _ _).tlbDrop _ _ _

theorem State.Wf.startRevocation {s : State} (h : s.Wf) (r : Revocation) : (s.startRevocation r).Wf :=
  State.Wf.mapDev (h.revoke _ _ _)

theorem Dev.Wf.copyLosses {d : Dev} (h : d.Wf) (sp : Space) (old new n : Nat) : (d.copyLosses sp old new n).Wf := { h with }

end Sys2Proof.Machine

/-! The memory instructions with canonical memories: the copy on first store, the checks of the lanes and what an instruction
sends. -/

namespace Sys2Proof.Machine

/-! ### The checks of an access -/

/-- R260. The states that a copy on first store leaves. -/
def FirstStore.Wf : FirstStore → Prop
  | .nothing s | .recallFirst s | .dropped s => s.Wf
  | .noSlot | .noFrame => True

theorem State.Wf.firstStore {s : State} (h : s.Wf) (c : Context) (l : Leaf) (va : Nat) : (s.firstStore c l va).Wf := by
  unfold State.firstStore
  split
  · exact h
  · dsimp only
    split
    · split
      · exact h
      · split
        · trivial
        · split
          · show State.Wf _
            split
            · exact h.mapDev fun _ h => h.recallPage _ _
            · exact h
          · split
            · trivial
            · exact h.dropsRequest _ _
            · next e _ =>
              have h1 := (h.poolTake e).revokeFrame c.index (va / 65536 * 65536) 65536
              refine State.Wf.mapWaves (State.Wf.mapDev (State.Wf.storeAt (State.Wf.mapDev (h1 _ _) fun d h => ?_) _ _ _))
              exact ((h.setTier _ (Memory.copyRange_wf _ _ _ (h.tier _))).dirWriteRange _ _ _).copyLosses _ _ _ _
    · exact h

theorem State.Wf.of_firstStore {s : State} (h : s.Wf) {c : Context} {l : Leaf} {va : Nat} {r : FirstStore}
    (e : s.firstStore c l va = r) : r.Wf := e ▸ h.firstStore c l va

theorem State.Wf.firstStores {s : State} (h : s.Wf) (c : Issue) (ls : List LaneAccess) : (s.firstStores c ls).1.Wf := by
  induction ls generalizing s with
  | nil => exact h
  | cons la r ih =>
    unfold State.firstStores
    extract_lets bad
    split
    · exact ih h
    · split
      · split
        · next e => exact ih (h.of_firstStore e)
        · next e => exact h.of_firstStore e
        · next e => exact h.of_firstStore e
        · exact ih h
        · exact ih h
      · exact ih h

theorem State.Wf.fillTlb {s : State} (h : s.Wf) (c : Issue) (sp : MemSpace) (addrs : List Int) : (s.fillTlb c sp addrs).Wf :=
  h.foldl (fun _ _ h => h.tlbFill _ _ _) _

theorem State.Wf.record {s : State} (h : s.Wf) (addrs : List (Nat × Int)) (parts : List LaneAccess) (zero : List Nat) :
    (s.record addrs parts zero).Wf :=
  { h with
    issue := by
      simp only [State.record, Option.toList_map]
      refine h.issue.map fun c hc => ?_
      split
      · exact hc
      · exact hc }

theorem State.Wf.checkNow {s : State} (h : s.Wf) (losses : Bool) (c : Issue) (sp : MemSpace) (need : Need) (width : Nat)
    (scalar : Bool) (lanes : List Nat) (addr : Nat → Int) (extra : Nat → Option LaneBad) :
    (s.checkNow losses c sp need width scalar lanes addr extra).1.Wf := by
  have h := h.fillTlb c sp (lanes.map addr)
  dsimp only [State.checkNow]
  split
  · exact h
  · split
    · next e => exact (h.firstStores c _).of_fst e
    · next e =>
      have h1 := (h.firstStores c _).of_fst e
      split
      · exact h1
      · split
        · exact .ite h1 (h1.fillTlb _ _ _)
        · exact .ite h1 (h1.fillTlb _ _ _)

theorem State.Wf.checkLanes {s : State} (h : s.Wf) (losses : Bool) (c : Issue) (sp : MemSpace) (need : Need) (width : Nat)
    (scalar : Bool) (lanes : List Nat) (addr : Nat → Int) (extra : Nat → Option LaneBad) :
    (s.checkLanes losses c sp need width scalar lanes addr extra).1.Wf := by
  have now := h.checkNow losses c sp need width scalar lanes addr extra
  unfold State.checkLanes
  extract_lets addrs ctx
  split
  · exact h
  · split
    · exact h
    · split
      · next e => exact now.of_fst e
      · next e => exact (now.of_fst e).record _ _ _

theorem State.Wf.checkAccess {s : State} (h : s.Wf) (c : Issue) (sp : MemSpace) (need : Need) (width : Nat)
    (scalar : Bool) (lanes : List Nat) (addr : Nat → Int) (extra : Nat → Option LaneBad) :
    (s.checkAccess c sp need width scalar lanes addr extra).1.Wf := h.checkLanes _ _ _ _ _ _ _ _ _

@[simp] theorem Issue.issueAccess_priv (c : Issue) (ctx op opcode : Nat) (kind : AccessKind) (width : Nat)
    (lanes : List LaneAccess) (dest : Dest) (results : List (Nat × W64)) :
    (c.issueAccess ctx op opcode kind width lanes dest results).wave.priv = c.wave.priv := by
  dsimp only [Issue.issueAccess]
  split <;> simp

theorem State.Wf.charge {s : State} (h : s.Wf) {c : Issue} (hc : c.wave.priv.wf = true) (parts : List LaneAccess) :
    InstrWf (s.charge c parts) := by
  dsimp only [State.charge]
  split
  · exact ⟨h, trivial⟩
  · refine ⟨?_, hc⟩
    dsimp only
    split
    · exact h
    · exact h.mapDev fun _ h => h.foldl (fun _ _ h => h.spend _ _) _

/-! ### What the memory instructions send -/

section
variable {s : State} (h : s.Wf) {c : Issue} (hc : c.wave.priv.wf = true)
include h hc

/-- The end of an instruction that sends an access: a number for it, and the clause with the access. -/
theorem State.Wf.sends (opcode : Nat) (kind : AccessKind) (width : Nat) (lanes : List LaneAccess)
    (dest : Dest) (results : List (Nat × W64)) (ctx op : Nat) :
    InstrWf (s.fresh.2, .ok (c.issueAccess ctx op opcode kind width lanes dest results)) :=
  ⟨h.fresh, by simpa using hc⟩

theorem State.Wf.loadOp (opcode : Nat) (sp : MemSpace) (kind : AccessKind) (d a b : Operand) :
    InstrWf (s.loadOp c opcode sp kind d a b) := by
  have checked := h.checkAccess c sp .read c.width (scalarDest d) (c.accessLanes (scalarDest d)) (c.addrOf sp.wideAddr a b)
    (fun _ => none)
  dsimp only [State.loadOp]
  split
  · next e => exact ⟨checked.of_fst e, trivial⟩
  · next e =>
    have h1 := checked.of_fst e
    exact h1.sends (h1.issue_getD hc) _ _ _ _ _ _ _ _

theorem State.Wf.chargeIf (sp : MemSpace) (parts : List LaneAccess) :
    InstrWf (if sp = .fabric then s.charge c parts else (s, .ok c)) := by
  split
  · exact h.charge hc _
  · exact ⟨h, hc⟩

theorem State.Wf.storeOp (opcode : Nat) (sp : MemSpace) (d a b : Operand) : InstrWf (s.storeOp c opcode sp d a b) := by
  have checked := h.checkAccess c sp .write c.width false (lanesOf c.wave.width (c.active &&& ~~~c.wave.helper))
    (c.addrOf sp.wideAddr a b) (fun _ => none)
  dsimp only [State.storeOp]
  split
  · next e => exact ⟨checked.of_fst e, trivial⟩
  · next e =>
    have h1 := checked.of_fst e
    have charged := h1.chargeIf (h1.issue_getD hc) sp
    split
    · next e => exact ⟨(charged _).1.of_fst e, trivial⟩
    · next e =>
      obtain ⟨h2, hc2⟩ := charged _
      rw [e] at h2 hc2
      exact h2.sends hc2 _ _ _ _ _ _ _ _

theorem State.Wf.copyOp (opcode : Nat) (need : Need) (kind : AccessKind) (d a b : Operand) :
    InstrWf (s.copyOp c opcode need kind d a b) := by
  have checked := h.checkAccess c .global need 16 false (lanesOf c.wave.width (c.active &&& ~~~c.wave.helper))
    (c.addrOf true a b) (s.copyCheck c d need)
  dsimp only [State.copyOp]
  split
  · next e => exact ⟨checked.of_fst e, trivial⟩
  · next e =>
    have h1 := checked.of_fst e
    exact h1.sends (h1.issue_getD hc) _ _ _ _ _ _ _ _

omit h in
theorem State.earlyLines_priv (fabric : Bool) (width : Nat) (helper : Lanes) (id : Nat) (lines : List Loc)
    (parts : List LaneAccess) : (s.earlyLines fabric width helper id lines c parts).1.wave.priv.wf = true := by
  induction lines generalizing id c parts with
  | nil => exact hc
  | cons line r ih =>
    unfold State.earlyLines
    dsimp only
    split
    · split
      · exact ih (by exact hc) _ _
      · exact ih hc _ _
    · exact ih hc _ _

omit hc in
theorem State.Wf.dropEarly (w : WaveId) (parts : List LaneAccess) : (s.dropEarly w parts).Wf := by
  refine h.mapDev fun _ h => h.foldl (fun _ _ h => ?_) _
  exact h.l1Drop _ _

theorem State.Wf.tookEntries (old : Nat) : (s.tookEntries c old).1.Wf ∧ (s.tookEntries c old).2.wave.priv.wf = true := by
  dsimp only [State.tookEntries]
  have h1 : ({ s.mapDev (fun d => { d with nextId := d.nextId + (c.wave.watch.drop old).length }) with
    issue := some c } : State).Wf := State.Wf.setIssue h.mapDev hc
  split
  · exact ⟨h1, h1.issue_getD hc⟩
  · have h2 := h1.foldl (f := fun s e => s.askVerdict c.wave.id e) (fun _ _ h => h.askVerdict _ _) ((c.wave.watch.drop old).filter
      (fun e => e.fabric && e.state == .pending))
    exact ⟨h2, h2.issue_getD hc⟩

theorem State.Wf.earlyOp (opcode : Nat) (fabric : Bool) (d a b : Operand) : InstrWf (s.earlyOp c opcode fabric d a b) := by
  have checked := h.checkAccess c (if fabric then .fabric else .global) .read c.width false (c.accessLanes false)
    (c.addrOf true a b) (fun _ => none)
  dsimp only [State.earlyOp]
  split
  · next e => exact ⟨checked.of_fst e, trivial⟩
  · next s1 parts zero e =>
    have h1 := checked.of_fst e
    have hc1 := h1.issue_getD hc
    generalize hr : (if s1.dev.det (s1.issue.getD c).wave.id then _ else _ : Issue × List LaneAccess) = r
    have hr : r.1.wave.priv.wf = true := by
      subst hr
      split
      · exact hc1
      · exact State.earlyLines_priv hc1 _ _ _ _ _ _
    obtain ⟨h2, hc2⟩ := (h1.dropEarly (s1.issue.getD c).wave.id r.2).tookEntries hr (s1.issue.getD c).wave.watch.length
    exact h2.sends hc2 _ _ _ _ _ _ _ _

theorem State.Wf.atomicOp (opcode : Nat) (sp : MemSpace) (ok : EType → Bool) (d a b : Operand) :
    InstrWf (s.atomicOp c opcode sp ok d a b) := by
  have checked := h.checkAccess c sp .atomic c.width false (lanesOf c.wave.width (c.active &&& ~~~c.wave.helper))
    (c.addrOf sp.wideAddr a b) (fun _ => none)
  dsimp only [State.atomicOp]
  split
  · exact ⟨h, trivial⟩
  · split
    · next e => exact ⟨checked.of_fst e, trivial⟩
    · next e =>
      have h1 := checked.of_fst e
      have charged := h1.chargeIf (h1.issue_getD hc) sp
      split
      · next e => exact ⟨(charged _).1.of_fst e, trivial⟩
      · next e =>
        obtain ⟨h2, hc2⟩ := charged _
        rw [e] at h2 hc2
        exact h2.sends hc2 _ _ _ _ _ _ _ _

end

/-! ### The instructions with a shape of their own -/

theorem execStcn_keepsWf {s : State} (h : s.Wf) (d a b : Operand) : KeepsWf (execStcn d a b s) := by
  refine keepsWf_onIssue h fun c hc => ?_
  have checked := h.checkAccess c .global .write c.width false (lanesOf c.wave.width (c.active &&& ~~~c.wave.helper))
    (c.addrOf true a b) (fun _ => none)
  dsimp only
  split
  · next e => exact ⟨checked.of_fst e, trivial⟩
  · next e =>
    have h1 := checked.of_fst e
    exact h1.sends (h1.issue_getD hc) _ _ _ _ _ _ _ _

theorem execFnc_keepsWf {s : State} (h : s.Wf) (k : FenceKind) (sc : Scope) : KeepsWf (execFnc k sc s) := by
  refine keepsWf_onIssue h fun c hc => ?_
  obtain ⟨h1, hc1⟩ := h.fencePoint hc k
  dsimp only
  split
  · exact ⟨h, trivial⟩
  · split
    · next e => exact ⟨h1.of_fst e, trivial⟩
    · next e =>
      rw [e] at h1 hc1
      refine ⟨?_, hc1⟩
      dsimp only
      split
      · exact h1
      · exact h1.mapDev fun _ h => h.discardL1 _ _ _

theorem execFsys_keepsWf {s : State} (h : s.Wf) (d a b : Operand) : KeepsWf (execFsys d a b s) := by
  refine keepsWf_onIssue h fun c hc => ?_
  obtain ⟨h1, hc1⟩ := h.fencePoint hc .sc
  dsimp only
  split
  · exact ⟨h, trivial⟩
  · split
    · exact ⟨h, trivial⟩
    · split
      · next e => exact ⟨h1.of_fst e, trivial⟩
      · next e =>
        rw [e] at h1 hc1
        refine ⟨h1, ?_⟩
        rw [clauseWf_ok] at hc1 ⊢
        split_ifs <;> simpa using hc1

theorem execCond_keepsWf {s : State} (h : s.Wf) (a b : Operand) : KeepsWf (execCond a b s) := by
  refine keepsWf_onIssue h fun c hc => ?_
  dsimp only
  split
  · exact ⟨h, trivial⟩
  · split
    · exact h.sends hc _ _ _ _ _ _ _ _
    · generalize ((_ + 4 * (c.src true true a 0 % 256) : Nat) : Int) = at_
      have checked := h.checkAccess c .global .write 4 true [(lowestLane c.wave.width c.pth.mask).getD 0] (fun _ => at_)
        (fun _ => none)
      split
      · next e => exact ⟨checked.of_fst e, trivial⟩
      · next e =>
        have h1 := checked.of_fst e
        exact h1.sends (h1.issue_getD hc) _ _ _ _ _ _ _ _

theorem execEnq_keepsWf {s : State} (h : s.Wf) (a b : Operand) : KeepsWf (execEnq a b s) := by
  refine keepsWf_onIssue h fun c hc => ?_
  have hsend : (c.send (.fence c.pth.mask .rel .device)).wave.priv.wf = true := hc
  dsimp only
  split
  · exact ⟨h, trivial⟩
  · split
    · exact ⟨h, trivial⟩
    · split
      · split
        · refine ⟨h.fresh, ?_⟩
          dsimp only
          split
          · simpa using hc
          · trivial
        · exact h.sends hsend _ _ _ _ _ _ _ _
      · exact h.sends hsend _ _ _ _ _ _ _ _

end Sys2Proof.Machine

/-! The accesses of units and engines, and the operations of the Runners, the Pattern engine and the snapshot engine, with
canonical memories. -/

namespace Sys2Proof.Machine

/-! ### The accesses of an agent -/

theorem State.Wf.sendStore {s : State} (h : s.Wf) (ctx op addr : Nat) (bs : List Byte) : (s.sendStore ctx op addr bs).Wf := by
  unfold State.sendStore
  split
  · exact h.mapDev
  · exact (h.clearReservations _ _).sendTxn _

theorem State.Wf.writeLoc {s : State} (h : s.Wf) (ctx op : Nat) (l : Loc) (bs : List Byte) : (s.writeLoc ctx op l bs).Wf := by
  unfold State.writeLoc
  split
  · exact h.sendStore _ _ _ _
  · exact h.storeAt _ _ _

theorem State.Wf.arrive {s : State} (h : s.Wf) (g : Agent) (need : Need) (va n : Nat) (loc : Loc) :
    (s.arrive g need va n loc).1.Wf := by
  dsimp only [State.arrive]
  split
  · exact h.dropsRequest _ _
  · split
    · exact h
    · split
      · exact h
      · exact h

theorem State.Wf.agentCheck {s : State} (h : s.Wf) (g : Agent) (need : Need) (version : Option Nat) (va n : Nat) :
    (s.agentCheck g need version va n).1.Wf := by
  unfold State.agentCheck
  extract_lets +onlyGivenNames bad page s'
  have hs : s'.Wf := by
    unfold s'
    split
    · exact h.tlbFill _ _ _
    · exact h
  clear_value s'
  split
  · exact h
  · split
    · exact h
    · split
      · exact h
      · split
        · split
          · exact hs
          · exact hs
        · split
          · split
            · exact hs
            · split
              · exact hs.arrive _ _ _ _ _
              · exact hs
          · exact .ite (hs.mapDev fun _ h => h.recallPage _ _) hs
          · split
            · split
              · exact hs
              · exact hs
              · next e => exact hs.of_firstStore e
              · next e => exact hs.of_firstStore e
              · next e =>
                have h1 : State.Wf _ := hs.of_firstStore e
                split
                · exact h1
                · exact h1.arrive _ _ _ _ _
            · exact hs.arrive _ _ _ _ _

theorem State.Wf.agentBytes {s : State} (h : s.Wf) (g : Agent) (va : Nat) (l : Loc) (n : Nat) :
    (s.agentBytes g va l n).1.Wf := by
  unfold State.agentBytes
  split
  · split
    · exact h.askLines _ _ _ _
    · exact h
    · exact h
  · exact h

theorem State.Wf.agentRead {s : State} (h : s.Wf) (g : Agent) (version : Option Nat) (fuel va n : Nat) :
    (State.agentRead g version fuel s va n).1.Wf := by
  induction fuel generalizing s va n with
  | zero => exact h
  | succ fuel ih =>
    unfold State.agentRead
    split
    · exact h
    · extract_lets m
      split
      · next e => exact (h.agentCheck _ _ _ _ _).of_fst e
      · next e =>
        have h1 := (h.agentCheck _ _ _ _ _).of_fst e
        split
        · next e => exact (h1.agentBytes _ _ _ _).of_fst e
        · next e =>
          have h2 := (h1.agentBytes _ _ _ _).of_fst e
          split
          · next e => exact (ih h2 _ _).of_fst e
          · next e => exact (ih h2 _ _).of_fst e

theorem State.Wf.agentWrite {s : State} (h : s.Wf) (g : Agent) (op fuel va : Nat) (bs : List Byte) :
    (State.agentWrite g op fuel s va bs).1.Wf := by
  induction fuel generalizing s va bs with
  | zero => exact h
  | succ fuel ih =>
    unfold State.agentWrite
    split
    · exact h
    · extract_lets m
      split
      · next e => exact (h.agentCheck _ _ _ _ _).of_fst e
      · next e => exact ih (((h.agentCheck _ _ _ _ _).of_fst e).writeLoc _ _ _ _) _ _

theorem State.Wf.takeRecalls {s : State} (h : s.Wf) (t : State) : (s.takeRecalls t).Wf := by
  refine State.Wf.foldl (State.Wf.mapDev (h.foldl (fun _ _ h => ?_) _)) (fun _ x h => ?_) _
  · exact h.mapDev fun _ h => h.recallPage _ _
  · split
    · exact h.askLines _ _ _ _
    · exact h

theorem State.Wf.runAll {α β : Type} {f : State → β → α → State × Except Stop β} (hf : ∀ s b x, s.Wf → (f s b x).1.Wf)
    {s : State} (h : s.Wf) (b : β) (l : List α) : (runAll f s b l).1.Wf := by
  induction l generalizing s b with
  | nil => exact h
  | cons x r ih =>
    unfold Machine.runAll
    split
    · next e => exact (hf _ _ _ h).of_fst e
    · next e => exact ih ((hf _ _ _ h).of_fst e) _

theorem State.Wf.unitHalt {s : State} (h : s.Wf) (id : WaveId) (clause : W64) (cls code : Nat) (mask : Lanes) (addr : W64) :
    (s.unitHalt id clause cls code mask addr).Wf := h.takeFault _ _ _

theorem State.Wf.parkUnit {s : State} (h : s.Wf) (id : WaveId) (mask : Lanes) (touches : List Touch)
    (unit cmd : Option Nat) : (s.parkUnit id mask touches unit cmd).Wf := by
  unfold State.parkUnit
  exact State.Wf.mapDev (h.parkForFill _ _ _)

/-! ### Engine commands -/

theorem State.Wf.engineIssue {s : State} (h : s.Wf) {c : Issue} (hc : c.wave.priv.wf = true) (opcode : Nat) (a : Operand) :
    InstrWf (s.engineIssue c opcode a) := by
  unfold State.engineIssue
  extract_lets +onlyGivenNames addr ctx die m bs cmd at_ list sp loss v ranges mine
  clear_value loss
  split
  · exact ⟨h, trivial⟩
  · split
    · exact ⟨h, trivial⟩
    · split
      · exact ⟨h, trivial⟩
      · split
        · exact ⟨h, trivial⟩
        · refine ⟨?_, by simpa using hc⟩
          dsimp only [State.fresh]
          exact h.fresh.mapDev

theorem State.Wf.dropCmd {s : State} (h : s.Wf) (id : Nat) : (s.dropCmd id).Wf := h.mapDev

theorem State.Wf.engineFinish {s : State} (h : s.Wf) (c : EngineCmd) (e : EngineEnd) : (s.engineFinish c e).Wf := by
  have h := h.dropCmd c.id
  unfold State.engineFinish
  extract_lets s'
  split
  · exact (h.storeAt _ _ _).mapDev fun _ h => h.countDone _ _
  · split
    · next e => exact (h.agentWrite _ _ _ _ _).of_fst e
    · exact h.mapDev
  · exact h

theorem State.Wf.engineStop {s : State} (h : s.Wf) (c : EngineCmd) (cls code : Nat) (addr : W64) :
    (s.engineStop c cls code addr).Wf := by
  have h := h.dropCmd c.id
  unfold State.engineStop
  extract_lets s'
  split
  · exact h.unitHalt _ _ _ _ _ _
  · exact h.mapDev
  · exact h

theorem execEngineQueueAccept_keepsWf {s : State} (h : s.Wf) (cmd : Nat) : KeepsWf (execEngineQueueAccept cmd s) := by
  unfold execEngineQueueAccept
  rw [keepsWf_next]
  split
  · exact h
  · extract_lets q s'
    have hs : s'.Wf := h.mapDev
    split
    · exact h
    · split
      · exact hs.flagDone _ _
      · exact hs

/-- R254. A command runs, parks, stops or ends, and its memories stay canonical if its run keeps them so. -/
theorem State.Wf.runEngine {s : State} (h : s.Wf) (cmd : Nat) (opcode : Nat → Bool) {run : State → EngineCmd → EngineRun}
    (hrun : ∀ s c, s.Wf → (run s c).1.Wf) : KeepsWf (s.runEngine cmd opcode run) := by
  unfold State.runEngine
  rw [keepsWf_next]
  split
  · exact h
  · next c _ =>
    split
    · exact h
    · split
      · exact h.engineFinish _ _
      · extract_lets rests stops
        have hrests {t : State} (ht : t.Wf) (p : Bool) : (rests t p).Wf := ht.mapDev
        have ran := hrun _ c (State.Wf.mapDev h (f := fun d => d.mapCmd cmd (fun c => { c with replay := c.log })))
        split
        · next e =>
          have ht := ran.of_fst e
          exact .ite (hrests ht _) (ht.engineFinish _ _)
        · next e => exact hrests (ran.of_fst e) _
        · next e => exact hrests (ran.of_fst e) _
        · next e =>
          have ht := ran.of_fst e
          split
          · exact h
          · split
            · exact (hrests ht _).parkUnit _ _ _ _ _
            · exact ht.engineStop _ _ _ _
        · next e => exact .ite ((ran.of_fst e).engineStop _ _ _ _) h
        · exact h

theorem State.Wf.logged {s : State} (h : s.Wf) (c : EngineCmd) {access : State → State × Except Stop (List Byte)}
    (ha : (access s).1.Wf) : (s.logged c access).1.Wf := by
  unfold State.logged
  split
  · dsimp only
    exact h.mapDev
  · split
    · next e =>
      dsimp only
      exact (ha.of_fst e).mapDev
    · next e => exact ha.of_fst e

theorem State.Wf.loggedTest {s : State} (h : s.Wf) (c : EngineCmd) (test : State → Bool) : (s.loggedTest c test).1.Wf := by
  have hl := h.logged c (access := fun s => (s, .ok (if test s then [1] else []))) h
  unfold State.loggedTest
  split
  · next e => exact hl.of_fst e
  · next e => exact hl.of_fst e

theorem State.Wf.cmdRead {s : State} (h : s.Wf) (c : EngineCmd) (version : Option Nat) (va n : Nat) :
    (s.cmdRead c version va n).1.Wf := by
  refine State.Wf.runAll (fun s acc p h => ?_) h _ _
  have hl := h.logged c (access := fun s => s.agentRead c.agent version 1 p.1 p.2) (h.agentRead _ _ _ _ _)
  split <;> exact hl.of_fst ‹_›

theorem State.Wf.loggedDone {s : State} (h : s.Wf) (c : EngineCmd) {access : State → State × Except Stop Unit}
    (ha : (access s).1.Wf) : (s.loggedDone c access).1.Wf := by
  unfold State.loggedDone
  generalize hl : s.logged c _ = r
  have hr : r.1.Wf := by
    subst hl
    refine h.logged c ?_
    split <;> exact ha.of_fst ‹_›
  split <;> exact hr

theorem State.Wf.cmdWrite {s : State} (h : s.Wf) (c : EngineCmd) (va : Nat) (bs : List Byte) : (s.cmdWrite c va bs).1.Wf :=
  State.Wf.runAll (fun _ _ _ h => h.loggedDone c (h.agentWrite _ _ _ _ _)) h _ _

theorem State.Wf.copyBlock {s : State} (h : s.Wf) (c : EngineCmd) (x : CpyCmd) (version : Option Nat) (n : Nat)
    (acc : CopyAcc) (at_ : Nat × Nat) : (State.copyBlock c x version n s acc at_).1.Wf := by
  obtain ⟨i1, i⟩ := at_
  dsimp only [State.copyBlock]
  split
  · next e => exact (h.cmdRead _ _ _ _).of_fst e
  · next e =>
    have h := (h.cmdRead _ _ _ _).of_fst e
    split
    · next e => exact (State.Wf.fst_ite (h.cmdRead _ _ _ _) h).of_fst e
    · next e =>
      have h := (State.Wf.fst_ite (h.cmdRead _ _ _ _) h).of_fst e
      generalize (if x.stype = x.dtype then _ else _ : Option Nat × List Byte × FpFlags) = r
      obtain ⟨_ | w, out, fl⟩ := r
      · dsimp only
        split <;> exact (h.cmdWrite _ _ _).of_fst ‹_›
      · dsimp only
        split
        · next e => exact (h.cmdWrite _ _ _).of_fst e
        · next e =>
          have h := (h.cmdWrite _ _ _).of_fst e
          split <;> exact (h.cmdWrite _ _ _).of_fst ‹_›

theorem State.Wf.runCpy {s : State} (h : s.Wf) (c : EngineCmd) : (s.runCpy c).1.Wf := by
  unfold State.runCpy
  extract_lets
  split <;> exact (State.Wf.runAll (fun _ _ _ h => h.copyBlock _ _ _ _ _ _) h _ _).of_fst ‹_›

/-! ### The Pattern engine -/

theorem State.Wf.cursorRead {s : State} (h : s.Wf) (c : EngineCmd) (scratch : Bool) (a : Int) (width count : Nat) :
    (s.cursorRead c scratch a width count).1.Wf := by
  unfold State.cursorRead
  split
  · split
    · exact h
    · refine h.logged c ?_
      split
      · exact h
      · exact h
  · split
    · exact h
    · exact h.cmdRead _ _ _ _

theorem State.Wf.cursorWrite {s : State} (h : s.Wf) (c : EngineCmd) (scratch : Bool) (a : Int) (width : Nat)
    (bs : List Byte) : (s.cursorWrite c scratch a width bs).1.Wf := by
  dsimp only [State.cursorWrite]
  split
  · split
    · exact .ite h (h.poke _ _)
    · refine h.loggedDone c ?_
      split
      · exact h
      · exact h.poke _ _
  · split
    · exact h
    · exact h.cmdWrite _ _ _

/-- R256. The conversion of one block of 32 by the Pattern engine, with its scale word. -/
theorem State.Wf.patternConvert {s : State} (h : s.Wf) (c : EngineCmd) (x : LxfCmd) (p : PatternState) (f g : EType)
    (rm : RMode) (sat : Bool) : (s.patternConvert c x p f g rm sat).1.Wf := by
  dsimp only [State.patternConvert]
  split
  · split
    · exact h
    · split
      · exact h
      · split <;> refine (State.Wf.runAll (fun s acc b h => ?_) h _ _).of_fst ‹_›
        all_goals
          split
          · next e => exact (State.Wf.fst_ite (h.cursorRead _ _ _ _ _) h).of_fst e
          · next e =>
            have h := (State.Wf.fst_ite (h.cursorRead _ _ _ _ _) h).of_fst e
            generalize convertBlock _ _ _ _ _ _ _ = r
            obtain ⟨_ | w, out, fl⟩ := r
            · exact h
            · dsimp only
              split <;> exact (h.cursorWrite _ _ _ _ _).of_fst ‹_›
  · exact h

theorem State.Wf.patternStep {s : State} (h : s.Wf) (c : EngineCmd) (x : LxfCmd) (p : PatternState) (o : PatternOp) :
    (s.patternStep c x p o).1.Wf := by
  unfold State.patternStep
  extract_lets q
  split
  · split
    · exact h
    · split <;> exact (h.cursorRead _ _ _ _ _).of_fst ‹_›
  · split
    · exact h
    · split <;> exact (h.cursorWrite _ _ _ _ _).of_fst ‹_›
  · exact h
  · exact h.patternConvert _ _ _ _ _ _ _
  · exact h
  · exact h

theorem State.Wf.patternRun {s : State} (h : s.Wf) (c : EngineCmd) (x : LxfCmd) (ops : List PatternOp) (fuel : Nat)
    (p : PatternState) : (State.patternRun c x ops fuel s p).1.Wf := by
  induction fuel generalizing s p with
  | zero => exact h
  | succ fuel ih =>
    unfold State.patternRun
    split
    · exact h
    · split
      · next e => exact (h.patternStep _ _ _ _).of_fst e
      · next e => exact (h.patternStep _ _ _ _).of_fst e
      · next e => exact ih ((h.patternStep _ _ _ _).of_fst e) _

theorem State.Wf.runLxf {s : State} (h : s.Wf) (c : EngineCmd) : (s.runLxf c).1.Wf := by
  unfold State.runLxf
  extract_lets
  split <;> exact (h.patternRun _ _ _ _ _).of_fst ‹_›

/-! ### The snapshot engine's checkpoints -/

theorem State.Wf.runDrain {s : State} (h : s.Wf) (c : EngineCmd) : (s.runDrain c).1.Wf := by
  dsimp only [State.runDrain]
  generalize hr : Machine.runAll _ _ _ _ = r
  have hr : r.1.Wf := by
    subst hr
    refine State.Wf.runAll (fun s acc j h => ?_) h _ _
    split
    · exact h
    · split <;> exact (h.cmdRead _ _ _ _).of_fst ‹_›
  split
  · exact hr
  · split <;> exact (State.Wf.cmdWrite hr _ _ _).of_fst ‹_›

theorem State.Wf.readShards {s : State} (h : s.Wf) (c : EngineCmd) (x : CkpCmd) : (s.readShards c x).1.Wf := by
  refine State.Wf.runAll (fun s acc i h => ?_) h _ _
  split
  · exact h
  · split
    · next e => exact (h.cmdRead _ _ _ _).of_fst e
    · next e =>
      have h := (h.cmdRead _ _ _ _).of_fst e
      split <;> exact (h.cmdRead _ _ _ _).of_fst ‹_›

theorem State.Wf.checkShards {s : State} (h : s.Wf) (c : EngineCmd) (t : EType) (shards : List Shard) :
    (s.checkShards c t shards).1.Wf := by
  refine State.Wf.runAll (fun s acc i h => ?_) h _ _
  split
  · exact h
  · split <;> exact (h.cmdRead _ _ _ _).of_fst ‹_›

theorem State.Wf.renewPage {s : State} (h : s.Wf) (c : EngineCmd) (whole : Bool) (written : Nat → Bool) (page : Nat) :
    (s.renewPage c whole written page).1.Wf := by
  refine h.loggedDone c ?_
  split
  · exact h
  · split
    · next e => exact (h.agentCheck _ _ _ _ _).of_fst e
    · next e =>
      dsimp only
      exact ((h.agentCheck _ _ _ _ _).of_fst e).mapDev

theorem State.Wf.copyRows {s : State} (h : s.Wf) (c : EngineCmd) (x : CkpCmd) (rows : List ShardRow) :
    (s.copyRows c x rows).1.Wf := by
  refine State.Wf.runAll (fun s acc r h => ?_) h _ _
  split
  · exact h
  · generalize hp : s.cmdRead _ _ _ _ = p
    have hp := (h.cmdRead _ _ _ _).of_eq hp
    obtain ⟨t, _ | bs⟩ := p
    · exact hp
    · dsimp only
      generalize hq : Machine.runAll _ _ _ _ = q
      have hq := (State.Wf.runAll (fun _ _ _ h => h.renewPage _ _ _ _) hp _ _).of_eq hq
      obtain ⟨u, _ | _⟩ := q
      · exact hq
      · exact State.Wf.cmdWrite hq _ _ _

theorem State.Wf.runLoad {s : State} (h : s.Wf) (c : EngineCmd) : (s.runLoad c).1.Wf := by
  unfold State.runLoad
  extract_lets x t
  split
  · next e => exact (h.readShards _ _).of_fst e
  · next e => exact (h.readShards _ _).of_fst e
  · next e =>
    have h := (h.readShards _ _).of_fst e
    split
    · next e => exact (h.checkShards _ _ _).of_fst e
    · next e => exact (h.checkShards _ _ _).of_fst e
    · next e =>
      have h := (h.checkShards _ _ _).of_fst e
      split <;> exact (h.copyRows _ _ _).of_fst ‹_›

theorem State.Wf.runRevert {s : State} (h : s.Wf) (c : EngineCmd) : (s.runRevert c).1.Wf := by
  unfold State.runRevert
  extract_lets x pages
  split <;> refine (State.Wf.runAll (fun s _ va h => ?_) h _ _).of_fst ‹_›
  all_goals
    generalize hp : s.cmdRead _ _ _ _ = p
    have hp := (h.cmdRead _ _ _ _).of_eq hp
    obtain ⟨t, _ | bs⟩ := p
    · exact hp
    · dsimp only
      generalize hq : t.renewPage _ _ _ _ = q
      have hq := (State.Wf.renewPage hp _ _ _ _).of_eq hq
      obtain ⟨u, _ | _⟩ := q
      · exact hq
      · exact State.Wf.cmdWrite hq _ _ _

/-! ### Soft errors -/

theorem Dev.Wf.countError {d : Dev} (h : d.Wf) (n : Nat) (uncorrectable : Bool) : (d.countError n uncorrectable).Wf := { h with }

theorem Dev.Wf.fail {d : Dev} (h : d.Wf) (g : Granule) : (d.fail g).Wf := by
  unfold Dev.fail
  split
  · split
    · split
      · exact { h with }
      · exact { h with }
    · exact h
  · split
    · exact h
    · exact { h with }
  · exact { h with }

/-- A change of one item of a list that keeps its memory canonical. -/
theorem AllWf.modify {α : Type} {f : α → Memory} {l : List α} (h : AllWf f l) {g : α → α}
    (i : Nat) (hg : ∀ x, (f x).wf = true → (f (g x)).wf = true := by exact fun _ h => h) : AllWf f (l.modify i g) := by
  induction l generalizing i with
  | nil => simp
  | cons a l ih =>
    rw [AllWf_cons] at h
    cases i with
    | zero => simpa using ⟨hg a h.1, h.2⟩
    | succ i => simpa using ⟨h.1, ih h.2 i⟩

theorem Dev.Wf.parityError {d : Dev} (h : d.Wf) (tlb : Bool) (i n : Nat) : (d.parityError tlb i n).Wf := by
  have h := h.countError 3 false
  unfold Dev.parityError
  extract_lets d'
  split
  · exact { h with }
  · exact { h with bank0 := h.bank0.modify _, bank1 := h.bank1.modify _ }

theorem State.Wf.directoryError {s : State} (h : s.Wf) (line : Loc) : (s.directoryError line).Wf := by
  unfold State.directoryError
  split
  · exact h.mapDev fun _ h => h.foldl (fun _ _ h => h.fail _) _
  · exact h.dirEvict _

theorem State.Wf.upset {s : State} (h : s.Wf) (x : List Nat) : (s.upset x).Wf := by
  unfold State.upset
  split
  · exact h.mapDev fun _ h => h.parityError _ _ _
  · split
    · exact h
    · split
      · exact h.mapDev fun _ h => h.countError _ _
      · exact (h.mapDev fun _ h => h.countError _ _).directoryError _
  · split
    · exact h
    · refine h.mapDev fun _ h => ?_
      split
      · exact h.countError _ _
      · exact (h.countError _ _).fail _
  · exact h

end Sys2Proof.Machine

/-! The start of clauses, and the events of completion, with canonical memories. -/

namespace Sys2Proof.Machine

/-! ### The start of a clause -/

theorem State.Wf.fetchAsk {s : State} (h : s.Wf) (w : Wave) (ctx va : Nat) : (s.fetchAsk w ctx va).Wf := by
  unfold State.fetchAsk
  split
  · exact h
  · extract_lets s'
    have h' : s'.Wf := h.tlbFill _ _ _
    split
    · split
      · exact h'.askLines _ _ _ _
      · exact h'
    · exact h'

theorem State.Wf.fetchFill {s : State} (h : s.Wf) (w : Wave) (p : Nat) : (s.fetchFill w p).Wf := by
  unfold State.fetchFill
  extract_lets pc ctx s'
  have h' : s'.Wf := h.fetchAsk _ _ _
  split
  · split
    · exact h'.foldl (fun _ _ h => h.fetchAsk _ _ _) _
    · exact h'
  · exact h'

@[simp] theorem Wave.countStart_priv (w : Wave) (p : Nat) (other det : Bool) : (w.countStart p other det).priv = w.priv := by
  unfold Wave.countStart
  extract_lets x o w1 w2 w3
  have h1 : w1.priv = w.priv := Wave.setPath_priv _ _ _
  have h2 : w2.priv = w.priv := by
    unfold w2
    split
    · rw [Wave.setPath_priv, h1]
    · exact h1
  split <;> exact h2

theorem State.Wf.startWave {s t : State} (h : s.Wf) {w : Wave} (hw : w.priv.wf = true) (e : s.startWave w = some t) : t.Wf := by
  unfold State.startWave at e
  extract_lets +onlyGivenNames det may s1 found at e
  have h1 : s1.Wf := h.foldl (fun _ _ h => State.Wf.ite (h.fetchFill _ _) h) _
  split at e
  · cases e
  · extract_lets +onlyGivenNames other w1 w2 s2 stopped at e
    have h2 : s2.Wf := h1.mapDev
    have hw2 : w2.priv.wf = true := by simpa [w2, w1] using hw
    split at e
    · cases e
    · simp only [Option.some.injEq] at e
      exact e ▸ h2.abandon hw2 _
    · simp only [Option.some.injEq] at e
      exact e ▸ (h2.abandon hw2 _).dropsRequest _ _
    · simp only [Option.some.injEq] at e
      subst e
      have h3 : (s2.mapDev fun d => d.freshTemps w.id).Wf := h2.mapDev
      split
      · exact h3.startClause hw2
      · exact h3.setIssue hw2

theorem State.Wf.considered {s : State} (h : s.Wf) (id : WaveId) : (s.considered id).Wf := h.mapWaves

theorem State.Wf.select {s : State} (h : s.Wf) (dom : Nat) (ids : List WaveId) : (State.select dom ids s).Wf := by
  induction ids generalizing s with
  | nil => exact h
  | cons id r ih =>
    unfold State.select
    split
    · exact ih h
    · next w hw =>
      split
      · exact ih (h.considered _)
      · extract_lets +onlyGivenNames s1 s2 w'
        have h1 : s1.Wf := h.foldl (fun _ _ h => h.wakePath _ _) _
        have h2 : s2.Wf := h1.considered _
        have hw' : w'.priv.wf = true := by
          cases e : s2.dev.wave? id with
          | none => simpa [w', e] using h.dev.wave? hw
          | some x => simpa [w', e] using h2.dev.wave? e
        split
        · exact ih h1
        · split
          · next t e =>
            have ht := h2.startWave hw' e
            refine { ht.mapDev (f := fun d => { d with rotation := _ }) with issue := ?_ }
            rw [Option.toList_map]
            exact ht.issue.map fun _ h => h
          · exact ih h2

theorem execClauseIssue_keepsWf {s : State} (h : s.Wf) (dom : Nat) : KeepsWf (execClauseIssue dom s) :=
  (keepsWf_next _).2 (State.Wf.ite h (h.select _ _))

theorem execAgeingSwitch_keepsWf {s : State} (h : s.Wf) (w : WaveId) : KeepsWf (execAgeingSwitch w s) := by
  refine (keepsWf_next _).2 (h.onWave _ fun w h => ?_)
  split_ifs <;> exact h

theorem execDetPathSwitch_keepsWf {s : State} (h : s.Wf) (w : WaveId) : KeepsWf (execDetPathSwitch w s) :=
  (keepsWf_next _).2 (h.onWave _ fun _ h => wf_ite h h)

theorem execIsobarMinimumUpdate_keepsWf {s : State} (h : s.Wf) (w : WaveId) : KeepsWf (execIsobarMinimumUpdate w s) := by
  refine (keepsWf_next _).2 ?_
  split
  · exact h
  · split
    · exact h
    · exact h.mapDev

/-! ### Completion -/

theorem execLongLatencyCompletion_keepsWf {s : State} (h : s.Wf) (op : Nat) (r : Arrival) :
    KeepsWf (execLongLatencyCompletion op r s) := by
  refine (keepsWf_next _).2 ?_
  split
  · exact h
  · extract_lets lanes half
    have h1 : (s.writeResults op lanes.getLsbD half).Wf := h.writeResults _ _ _
    split
    · exact ((h.performSome _ _ _).writeResults _ _ _).accessEnd _
    · exact ((h.performSome _ _ _).writeResults _ _ _).accessEnd _
    · exact h1.accessEnd _
    · exact h1.accessEnd _
    · split
      · exact State.Wf.accessEnd h1.mapDev _
      · exact h1
    · exact ((h.flagDone _ _).mapDev fun _ h => h.mapAccess _ _).accessEnd _
    · exact h

theorem execAccessPerformed_keepsWf {s : State} (h : s.Wf) (op count : Nat) : KeepsWf (execAccessPerformed op count s) := by
  have h1 : ((s.performSome op (fun _ => true) count).accessEnd op).Wf := (h.performSome _ _ _).accessEnd _
  refine (keepsWf_next _).2 ?_
  split
  · exact h
  · split
    case h_7 => exact h
    all_goals exact h1

theorem execCounterDecrement_keepsWf {s : State} (h : s.Wf) (launch group ctr : Nat) :
    KeepsWf (execCounterDecrement launch group ctr s) := by
  refine (keepsWf_next _).2 ?_
  split
  · exact h
  · split
    · exact (h.mapDev fun _ h => h.mapGroup _ _).releaseTry _ _
    · exact h

theorem execWatchVerdict_keepsWf {s : State} (h : s.Wf) (w : WaveId) (entry : Nat) (strike : Bool) :
    KeepsWf (execWatchVerdict w entry strike s) := by
  refine (keepsWf_next _).2 ?_
  split
  · exact h
  · split
    · exact h
    · exact (State.Wf.ite h.mapDev h).judge _ _ _

theorem execWatchdogExpiry_keepsWf {s : State} (h : s.Wf) (launch : Nat) : KeepsWf (execWatchdogExpiry launch s) := by
  refine (keepsWf_next _).2 ?_
  split
  · exact h
  · next l _ =>
    split
    · exact h
    · have stops {t : State} (h : t.Wf) (p : Wave → Bool) : ((t.haltOthers p false).mapDev fun d =>
          ({ d with launches := d.launches.map (fun x => if x.ctx = l.ctx then { x with halted := true } else x) }
            : Dev).mapCtx l.ctx Context.halts).Wf :=
        (h.haltOthers _ _).mapDev fun _ h => { h with launches := h.launches.map fun _ h => wf_ite h h }
      dsimp only
      split
      · exact stops h _
      · split
        · exact h
        · exact stops (h.haltWave _ _ _ _ _) _

/-! ### The fill of a first touch -/

theorem State.Wf.firmwareWrite {s : State} (h : s.Wf) (ctx : Nat) (l : Loc) (bs : List Byte) : (s.firmwareWrite ctx l bs).1.Wf := by
  unfold State.firmwareWrite
  split
  · exact h.dropsRequest _ _
  · exact h.storeAt _ _ _

theorem State.Wf.writeLeaf {s : State} (h : s.Wf) (ctx at_ entry : Nat) : (s.writeLeaf ctx at_ entry).1.Wf :=
  h.firmwareWrite _ _ _

theorem State.Wf.moveReservations {s : State} (h : s.Wf) (ctx page pages : Nat) (old new : Loc) :
    (s.moveReservations ctx page pages old new).Wf :=
  h.mapWaves fun _ h => wf_ite h h

theorem State.Wf.fillPage {s : State} (h : s.Wf) (x : Context) (home bits at_ : Nat) : (s.fillPage x home bits at_).1.Wf := by
  unfold State.fillPage
  extract_lets frames records n sp
  split
  · exact h
  · split
    · exact h
    · next frame s1 e1 =>
      have h1 := h.poolTake e1
      split
      · exact h1
      · next record s2 e2 =>
        have h2 := h1.poolTake e2
        extract_lets num s3 s4 slot
        split
        · exact h2.dropsRequest _ _
        · have h3 : s3.Wf := h2.mapDev fun d h => (h.setTier _ (Memory.clearRange_wf _ _ (h.tier _))).dirWriteRange _ _ _
          have h4 : s4.Wf := h3.mapDev
          split
          · exact (h4.firmwareWrite _ _ _).of_fst ‹_›
          · exact ((h4.firmwareWrite _ _ _).of_fst ‹_›).writeLeaf _ _ _

theorem State.Wf.fillOne {s : State} (h : s.Wf) (ctx va : Nat) (write : Bool) : (s.fillOne ctx va write).1.Wf := by
  unfold State.fillOne
  split
  · exact h
  · split
    · exact h
    · extract_lets +onlyGivenNames map
      have hmap {s : State} (h : s.Wf) (at_ bits : Nat) : (map s at_ bits).1.Wf := by
        dsimp only [map]
        split_ifs
        · exact h.writeLeaf _ _ _
        · exact h.writeLeaf _ _ _
        · exact h.writeLeaf _ _ _
        · exact h.fillPage _ _ _ _
      clear_value map
      split
      · exact State.Wf.fst_ite (hmap h _ _) h
      · split
        · exact h
        · split
          · exact h
          · dsimp only
            split
            · exact (hmap (h.revoke _ _ _) _ _).of_fst ‹_›
            · next e =>
              have h1 := (hmap (h.revoke _ _ _) _ _).of_fst e
              split
              · next l _ =>
                cases l.frame with
                | none => exact h1
                | some f => exact h1.moveReservations _ _ _ _ _
              · exact h1
      · exact h

theorem State.Wf.fillAll {s : State} (h : s.Wf) (ctx : Nat) (ts : List Touch) : (State.fillAll ctx ts s).1.Wf := by
  induction ts generalizing s with
  | nil => exact h
  | cons t r ih =>
    unfold State.fillAll
    split
    · exact ih ((h.fillOne _ _ _).of_fst ‹_›)
    · exact (h.fillOne _ _ _).of_fst ‹_›

theorem State.Wf.unpark {s : State} (h : s.Wf) (f : Fill) : (s.unpark f).Wf := by
  unfold State.unpark
  extract_lets more mine saving s1 s2 s3 s4
  have h1 : s1.Wf := by
    refine State.Wf.ite h (h.onWave _ fun w h => ?_)
    split <;> exact h
  have h2 : s2.Wf := State.Wf.ite h1 (h1.mapDev fun _ h => h.mapGroup _ _)
  have h3 : s3.Wf := by
    unfold s3
    split
    · exact h2.mapDev fun _ h => h.mapUnit _ _
    · exact h2
  have h4 : s4.Wf := by
    unfold s4
    split
    · exact h3.mapDev
    · exact h3
  exact State.Wf.ite h4 (h4.boundaryHalt _)

theorem State.Wf.fillFails {s : State} (h : s.Wf) (f : Fill) (t : Touch) (code : Nat) : (s.fillFails f t code).Wf := by
  unfold State.fillFails
  extract_lets mask addr s1 op s2 s3
  clear_value op
  have h1 : s1.Wf := h.unpark _
  have h2 : s2.Wf := by
    unfold s2
    split
    · exact h1.mapDev fun _ h => h.mapUnit _ _
    · exact h1
  have h3 : s3.Wf := by
    unfold s3
    split
    · exact h2.mapDev
    · exact h2
  split
  · exact h3.unitHalt _ _ _ _ _ _
  · split
    · exact h3.takeFault _ _ _
    · exact h3

theorem execFirstTouchFill_keepsWf {s : State} (h : s.Wf) (n : Nat) : KeepsWf (execFirstTouchFill n s) := by
  refine (keepsWf_next _).2 ?_
  split
  · exact h
  · split
    · exact h
    · extract_lets r s'
      have h' : s'.Wf := (h.fillAll _ _).mapDev
      split
      · exact h'.unpark _
      · exact h'.fillFails _ _ _

end Sys2Proof.Machine

/-! The placement of launches and the graph walker with canonical memories. -/

namespace Sys2Proof.Machine

/-! ### Placement -/

theorem Dev.Wf.constFor {d : Dev} (h : d.Wf) (ctx entry : Nat) : (d.constFor ctx entry).1.wf = true := by
  unfold Dev.constFor
  split
  · next e => exact h.consts.find? e
  · exact Memory.wf_nil

theorem State.Wf.newLaunch {s : State} (h : s.Wf) (ctx graph node : Nat) (r : LaunchRecord) :
    (s.newLaunch ctx graph node r).2.Wf := by
  unfold State.newLaunch
  split
  next id s1 e =>
  have h1 := h.fresh.of_snd e
  extract_lets units const l
  dsimp only
  refine h1.mapDev fun d hd => ?_
  exact { hd with launches := AllWf_append.2 ⟨hd.launches, AllWf_cons.2 ⟨h1.dev.constFor _ _, AllWf_nil⟩⟩ }

theorem addWaves_wf (l : Launch) (core member ccore group : Nat) {ws : List Wave} (h : AllWf Wave.priv ws) :
    AllWf Wave.priv (addWaves l core member ccore group ws) :=
  foldl_keeps (P := AllWf Wave.priv) (fun ws _ h => by
    dsimp only
    split
    · exact h
    · simpa [Wave.start] using h) h _

theorem Dev.Wf.placeCluster {d : Dev} (h : d.Wf) (l : Launch) (cluster hw : Nat) (cores : List Nat) :
    (d.placeCluster l cluster hw cores).Wf := by
  unfold Dev.placeCluster
  extract_lets r d1 d2
  have h1 : d1.Wf := h.foldl (fun d c h => by
    dsimp only
    split
    · exact h.discardL1 _ _ _
    · exact { h.mapCore c (fun _ _ => Memory.wf_nil) fun _ _ => Memory.wf_nil with }) _
  have h2 : d2.Wf := { h1 with }
  refine h2.foldl (fun d p h => ?_) _
  have hg (g : Group) (hg : g.scratch = []) : AllWf Group.scratch (d.groups ++ [g]) := by simpa [hg] using h.groups
  exact { h with
    groups := hg _ rfl
    waves := addWaves_wf _ _ _ _ _ h.waves }

theorem Dev.Wf.placeNext {d : Dev} (h : d.Wf) (l : Launch) (hw : Nat) (cores : List Nat) : (d.placeNext l hw cores).Wf :=
  (h.placeCluster _ _ _ _).mapLaunch _

theorem Dev.Wf.placeAll {d d' : Dev} (h : d.Wf) {c : Context} {fuel launch : Nat} (e : Dev.placeAll c fuel d launch = some d') :
    d'.Wf := by
  induction fuel generalizing d with
  | zero =>
    unfold Dev.placeAll at e
    split at e
    · split at e
      · cases e
      · exact Option.some.inj e ▸ h
    · cases e
  | succ fuel ih =>
    unfold Dev.placeAll at e
    split at e
    · cases e
    · split_ifs at e
      · exact Option.some.inj e ▸ h
      · obtain ⟨hw, -, e⟩ := List.exists_of_findSome?_eq_some e
        obtain ⟨cores, -, e⟩ := List.exists_of_findSome?_eq_some e
        exact ih (h.placeNext _ _ _) e

theorem execGroupPlacement_keepsWf {s : State} (h : s.Wf) (launch hw : Nat) : KeepsWf (execGroupPlacement launch hw s) := by
  refine (keepsWf_next _).2 ?_
  split
  · exact h
  · split
    · exact h
    · split
      · exact h
      · split
        · exact h
        · exact h.mapDev fun _ h => h.placeNext _ _ _

/-! ### The accesses of the walker -/

theorem State.Wf.walkerMeets {s : State} (h : s.Wf) (ctx : Nat) (e : Stop) : (s.walkerMeets ctx e).Wf := by
  unfold State.walkerMeets
  split
  · exact h.mapDev
  · exact h

theorem State.Wf.walkRead {s : State} (h : s.Wf) (ctx va n : Nat) : (s.walkRead ctx va n).1.Wf := by
  unfold State.walkRead
  split
  · exact (h.agentRead _ _ _ _ _).of_fst ‹_›
  · exact ((h.agentRead _ _ _ _ _).of_fst ‹_›).walkerMeets _ _

theorem State.Wf.walkWrite {s : State} (h : s.Wf) (ctx va : Nat) (bs : List Byte) : (s.walkWrite ctx va bs).1.Wf := by
  unfold State.walkWrite
  split
  · exact h
  · split
    · exact (h.agentWrite _ _ _ _ _).of_fst ‹_›
    · exact h
    · exact ((h.agentWrite _ _ _ _ _).of_fst ‹_›).walkerMeets _ _

theorem State.Wf.walking {s : State} (h : s.Wf) (ctx : Nat) (kept : Option HeldRequest) {f : State → State}
    (hf : ∀ s, s.Wf → (f s).Wf) : (s.walking ctx kept f).Wf := by
  unfold State.walking
  exact State.Wf.ite (hf _ h.mapDev).mapDev (h.takeRecalls _).mapDev

/-! ### The nodes of a graph -/

theorem State.Wf.readNodes {s : State} (h : s.Wf) (ctx at_ count : Nat) : (s.readNodes ctx at_ count).1.Wf :=
  foldl_keeps (P := fun acc : State × List Node × Bool => acc.1.Wf) (fun _ _ h => h.walkRead _ _ _) h _

theorem Dev.Wf.mapGraph {d : Dev} (h : d.Wf) (id : Nat) (f : Graph → Graph) : (d.mapGraph id f).Wf := { h with }

theorem Dev.Wf.setNode {d : Dev} (h : d.Wf) (graph node : Nat) (f : Node → Node) : (d.setNode graph node f).Wf := { h with }

theorem State.Wf.walkerFails {s : State} (h : s.Wf) (g : Graph) (addr code node : Nat) : (s.walkerFails g addr code node).Wf :=
  (h.mapDev fun _ h => h.mapCtx _ _).mapDev fun _ h => h.mapGraph _ _

theorem State.Wf.graphWrite {s : State} (h : s.Wf) (g : Graph) (addr : Nat) (bs : List Byte) (node : Nat) :
    (s.graphWrite g addr bs node).Wf := by
  unfold State.graphWrite
  split
  · exact (h.walkWrite _ _ _).of_fst ‹_›
  · exact ((h.walkWrite _ _ _).of_fst ‹_›).walkerFails _ _ _ _

theorem State.Wf.graphStatus {s : State} (h : s.Wf) (g : Graph) (code node : Nat) : (s.graphStatus g code node).Wf := by
  unfold State.graphStatus
  split
  · exact (h.walkWrite _ _ _).of_fst ‹_›
  · have h' := (h.walkWrite _ _ _).of_fst ‹_›
    exact State.Wf.ite (h'.walkerFails _ _ _ _) h'

theorem State.Wf.nodeStatus {s : State} (h : s.Wf) (g i : Nat) (st : NodeStatus) : (s.nodeStatus g i st).Wf := by
  unfold State.nodeStatus
  split
  · exact h
  · exact (h.mapDev fun _ h => h.setNode _ _ _).graphWrite _ _ _ _

theorem State.Wf.nodeReady {s : State} (h : s.Wf) (step g i : Nat) : (s.nodeReady step g i).Wf :=
  State.Wf.nodeStatus (h.mapDev fun _ h => h.setNode _ _ _) _ _ _

theorem State.Wf.deliver {s : State} (h : s.Wf) (step g fuel : Nat) (l : List (Nat × Bool)) :
    (State.deliver step g fuel s l).Wf := by
  induction fuel generalizing s l with
  | zero => exact h
  | succ fuel ih =>
    cases l with
    | nil => exact h
    | cons x r =>
      unfold State.deliver
      split
      · exact ih h _
      · split
        · exact ih h _
        · extract_lets wanted s'
          have h' : s'.Wf := h.mapDev fun _ h => h.setNode _ _ _
          split_ifs
          · exact ih h' _
          · exact ih (h'.nodeReady _ _ _) _
          · exact ih (h'.nodeStatus _ _ _) _

theorem State.Wf.deliverFrom {s : State} (h : s.Wf) (g : Graph) (n : Node) (done : Nat → Bool) : (s.deliverFrom g n done).Wf :=
  State.Wf.deliver h.fresh _ _ _ _

/-! ### The start and the end of graphs and nodes -/

theorem State.Wf.graphEnd {s : State} (h : s.Wf) (id : Nat) : (s.graphEnd id).Wf := by
  have ended {s : State} (h : s.Wf) : (s.mapDev fun d => d.mapGraph id fun g => { g with ended := true }).Wf :=
    h.mapDev fun _ h => h.mapGraph _ _
  unfold State.graphEnd
  split
  · exact h
  · split
    · exact h
    · split
      · exact State.Wf.ite h (ended (h.graphStatus _ _ _))
      · split
        · extract_lets s1 s2
          have h1 : s1.Wf := h.graphWrite _ _ _ _
          split
          · exact ended (h1.graphStatus _ _ _)
          · have h2 : s2.Wf := h1.graphStatus _ _ _
            exact State.Wf.ite (ended h2) h2.mapDev
        · exact h

theorem State.Wf.endNode {s : State} (h : s.Wf) (g : Graph) (n : Node) (st : NodeStatus) (done : Nat → Bool) :
    (s.endNode g n st done).Wf := by
  unfold State.endNode
  have h2 := (h.graphWrite g (g.nodesAt + 128 * n.index + 112) (leBytes 8 s.dev.now.toNat) n.index).nodeStatus g.id n.index st
  exact (State.Wf.ite (h2.mapDev fun _ h => h.mapGraph _ _) (h2.deliverFrom _ _ _)).graphEnd _

theorem State.Wf.acceptGraph {s : State} (h : s.Wf) (ctx desc : Nat) (word : Option W32) : (s.acceptGraph ctx desc word).Wf := by
  unfold State.acceptGraph
  split
  next s1 b e1 =>
  have h1 := (h.walkRead _ _ _).of_fst e1
  extract_lets +onlyGivenNames nodesAt count condAt doneAt
  split
  next id s2 e2 =>
  have h2 := h1.fresh.of_snd e2
  extract_lets +onlyGivenNames g bad
  split
  · exact h2.graphStatus _ _ _
  · extract_lets +onlyGivenNames r
    have hr : r.1.Wf := h2.readNodes _ _ _
    split
    · exact hr.graphStatus _ _ _
    · extract_lets +onlyGivenNames ns s3 s4 s5
      have h3 : s3.Wf := hr.mapDev
      have h4 : s4.Wf := h3.graphStatus _ _ _
      have h5 : s5.Wf := by
        unfold s5
        split
        · exact h4.graphWrite _ _ _ _
        · exact h4
      clear_value s5
      split
      next step s6 e6 =>
      refine State.Wf.graphEnd ((h5.fresh.of_snd e6).foldl (fun _ _ h => ?_) _) _
      exact State.Wf.ite (h.nodeStatus _ _ _) (State.Wf.ite (h.nodeReady _ _ _) (h.nodeStatus _ _ _))

theorem State.Wf.ring {s : State} (h : s.Wf) (ctx : Nat) (addr : W64) : (s.ring ctx addr).Wf := by
  unfold State.ring
  extract_lets refuse free
  split_ifs
  · exact h
  · exact h.mapDev
  · exact h.mapDev fun _ h => h.setContext _
  · exact h.walking _ _ fun _ h => h.acceptGraph _ _ _

theorem execDoorbell_keepsWf {s : State} (h : s.Wf) (ctx : Nat) (addr : BitVec 64) : KeepsWf (execDoorbell ctx addr s) :=
  (keepsWf_next _).2 (h.ring _ _)

theorem execGraphAcceptance_keepsWf {s : State} (h : s.Wf) (ctx : Nat) : KeepsWf (execGraphAcceptance ctx s) := by
  refine (keepsWf_next _).2 ?_
  split
  · exact h
  · next a v l _ =>
    have drop {s : State} (h : s.Wf) :
      (s.mapDev fun d => { d with inflight := d.inflight.filter (fun x => x.op ≠ a.op) }).Wf := h.mapDev
    extract_lets dropped
    split
    · split_ifs
      · exact (drop h).mapDev fun _ h => h.countDone _ _
      · exact (drop h).unitHalt _ _ _ _ _ _
      · exact h
    · refine State.Wf.ite h (h.walking _ _ fun _ h => ?_)
      exact State.Wf.mapDev ((drop h).acceptGraph _ _ _) fun _ h => h.countDone _ _

theorem State.Wf.detStart {s t : State} (h : s.Wf) {g : Graph} {n : Node} {r : LaunchRecord} (e : s.detStart g n r = some t) :
    t.Wf := by
  unfold State.detStart at e
  split at e
  next id t1 e1 =>
  have h1 := (h.newLaunch _ _ _ _).of_snd e1
  split at e
  · cases e
  · split_ifs at e
    · exact Option.some.inj e ▸ h.endNode _ _ _ _
    · obtain ⟨d, hd, rfl⟩ := Option.map_eq_some_iff.1 e
      exact State.Wf.nodeStatus (h1.setDev (h1.dev.placeAll hd)) _ _ _

theorem State.Wf.startKernel {s : State} (h : s.Wf) (g : Graph) (n : Node) : (s.startKernel g n).Wf := by
  unfold State.startKernel
  split
  next s1 b e1 =>
  have h1 := (h.walkRead _ _ _).of_fst e1
  extract_lets r
  split
  · exact h1.endNode _ _ _ _
  · split
    · cases e : s1.detStart g n r with
      | none => exact h1
      | some t => exact h1.detStart e
    · exact (h1.newLaunch _ _ _ _).nodeStatus _ _ _

theorem State.Wf.startCopy {s : State} (h : s.Wf) (g : Graph) (n : Node) : (s.startCopy g n).Wf := by
  unfold State.startCopy
  split
  next s1 b e1 =>
  have h1 := (h.walkRead _ _ _).of_fst e1
  extract_lets +onlyGivenNames cls v ranges
  split
  · exact h
  · split
    next id s2 e2 =>
    have h2 := h1.fresh.of_snd e2
    exact State.Wf.nodeStatus h2.mapDev _ _ _

theorem State.Wf.condWord {s : State} (h : s.Wf) (g : Graph) (slot : Nat) : (s.condWord g slot).1.Wf := h.walkRead _ _ _

theorem State.Wf.armBody {s : State} (h : s.Wf) (g : Graph) (w : Node) : (s.armBody g w).Wf := by
  unfold State.armBody
  split
  next step s1 e1 =>
  refine (h.fresh.of_snd e1).foldl (fun _ n h => ?_) _
  have h' := h.mapDev fun _ h => h.setNode g.id n.index (fun n =>
    { n with waiting := n.npred, wanted := false, counted := [], passes := 0 })
  exact State.Wf.ite (h'.nodeStatus _ _ _) (State.Wf.ite (h'.nodeReady _ _ _) (h'.nodeStatus _ _ _))

theorem State.Wf.whilePass {s : State} (h : s.Wf) (g : Graph) (n : Node) : (s.whilePass g n).Wf := by
  unfold State.whilePass
  split
  next s1 x e1 =>
  have h1 := (h.condWord _ _).of_fst e1
  split_ifs
  · exact h1.endNode _ _ _ _
  · exact h1.endNode _ _ _ _
  · exact State.Wf.armBody ((h1.nodeStatus _ _ _).mapDev fun _ h => h.setNode _ _ _) _ _

theorem State.Wf.startEvent {s : State} (h : s.Wf) (g : Graph) (n : Node) : (s.startEvent g n).Wf := by
  unfold State.startEvent
  split
  next s1 b e1 =>
  have h1 := (h.walkRead _ _ _).of_fst e1
  split
  · exact (((h1.walkWrite _ _ _).of_fst ‹_›).walkerFails _ _ _ _).graphEnd _
  · have h2 := (h1.walkWrite _ _ _).of_fst ‹_›
    exact State.Wf.endNode (State.Wf.ite h2.mapDev h2) _ _ _ _

theorem State.Wf.startTimed {s : State} (h : s.Wf) (g : Graph) (n : Node) : (s.startTimed g n).Wf := by
  unfold State.startTimed
  split
  next s1 b e1 =>
  have h1 := (h.walkRead _ _ _).of_fst e1
  exact State.Wf.ite (h1.endNode _ _ _ _) (h1.nodeStatus _ _ _)

theorem execNodeStart_keepsWf {s : State} (h : s.Wf) (graph node : Nat) : KeepsWf (execNodeStart graph node s) := by
  refine (keepsWf_next _).2 ?_
  split
  · exact h
  · split
    · exact h
    · refine State.Wf.ite h (h.walking _ _ fun s h => State.Wf.graphEnd ?_ _)
      split
      · exact h.startKernel _ _
      · exact h.startCopy _ _
      · exact (h.condWord _ _).endNode _ _ _ _
      · exact h.whilePass _ _
      · exact h.startEvent _ _
      · exact h.startTimed _ _

theorem State.Wf.earlyDeliver {s : State} (h : s.Wf) (g : Graph) (n : Node) : (s.earlyDeliver g n).Wf :=
  State.Wf.deliver (State.Wf.fresh (h.mapDev fun _ h => h.setNode _ _ _)) _ _ _ _

theorem State.Wf.kernelCompletes {s : State} (h : s.Wf) (g : Graph) (n : Node) : (s.kernelCompletes g n).Wf := by
  unfold State.kernelCompletes
  split
  · exact h
  · split_ifs
    · exact h.endNode _ _ _ _
    · refine State.Wf.endNode (h.mapDev fun d h => ?_) _ _ _ _
      exact { h with launches := h.launches.filter _ }
    · exact h.earlyDeliver _ _
    · exact h

theorem execNodeCompletion_keepsWf {s : State} (h : s.Wf) (graph node : Nat) : KeepsWf (execNodeCompletion graph node s) := by
  refine (keepsWf_next _).2 ?_
  split
  · exact h
  · split
    · exact h
    · refine h.walking _ _ fun s h => State.Wf.graphEnd ?_ _
      split
      · exact h.kernelCompletes _ _
      · exact State.Wf.ite h (h.endNode _ _ _ _)
      · exact h.endNode _ _ _ _
      · exact State.Wf.ite (h.whilePass _ _) h
      · exact h

theorem execTimedNodeExpiry_keepsWf {s : State} (h : s.Wf) (graph node : Nat) : KeepsWf (execTimedNodeExpiry graph node s) := by
  refine (keepsWf_next _).2 ?_
  split
  · exact h
  · split
    · exact h
    · refine State.Wf.ite (h.walking _ _ fun s h => ?_) h
      have h1 := h.walkRead
      exact State.Wf.ite ((h.walkRead _ _ _).endNode _ _ _ _) (h.walkRead _ _ _)

end Sys2Proof.Machine

/-! The context commands with canonical memories: pre-emption and the save, the restore, the resume and the freeing. -/

namespace Sys2Proof.Machine

/-! ### The save -/

theorem State.Wf.outcome {s : State} (h : s.Wf) (outcome reason : Nat) : (s.outcome outcome reason).Wf := h.mapDev

theorem State.Wf.preempt {s : State} (h : s.Wf) (x : Context) (image : W64) : (s.preempt x image).Wf := by
  unfold State.preempt
  exact State.Wf.outcome (State.Wf.foldl (h.mapDev fun _ h => h.mapCtx _ _) (fun _ _ h => h.onWave _) _) _ _

theorem State.Wf.acceptWaiting {s : State} (h : s.Wf) (hw : Nat) : (s.acceptWaiting hw).1.Wf := by
  unfold State.acceptWaiting
  exact h.foldl (fun _ _ h => State.Wf.flagDone (h.mapDev fun _ h => h.mapUnit _ _) _ _) _

theorem Dev.Wf.core {d : Dev} (h : d.Wf) (i : Nat) : (d.core i).bank0.wf = true ∧ (d.core i).bank1.wf = true := by
  unfold Dev.core
  cases e : d.cores.find? (fun c => c.index == i) with
  | none => exact ⟨Memory.wf_nil, Memory.wf_nil⟩
  | some c => exact ⟨h.bank0.find? e, h.bank1.find? e⟩

theorem State.Wf.writePart {s : State} (h : s.Wf) (ctx hw : Nat) : (s.writePart ctx hw).Wf := by
  unfold State.writePart
  split
  next s1 fresh e =>
  have h1 := (h.acceptWaiting hw).of_fst e
  extract_lets +onlyGivenNames d gs mine here cs part
  have hd : d.Wf := h1.dev
  have banks : ∀ x ∈ part.cores, x.bank0.wf = true ∧ x.bank1.wf = true := by
    simp only [part, List.forall_mem_map]
    exact fun i _ => hd.core i
  have hp : part.Wf :=
    { groups := hd.groups.filter _
      waves := hd.waves.filter _
      bank0 := fun x hx => (banks x hx).1
      bank1 := fun x hx => (banks x hx).2 }
  clear_value part
  refine h1.setDev { hd with
    parts := ?_
    groups := hd.groups.filter _
    waves := hd.waves.filter _
    bank0 := hd.bank0.filter _
    bank1 := hd.bank1.filter _ }
  simp only [List.forall_mem_append, List.forall_mem_singleton]
  exact ⟨hd.parts, hp⟩

theorem State.Wf.clearCtx {s : State} (h : s.Wf) (ctx : Nat) : (s.clearCtx ctx).Wf := by
  unfold State.clearCtx
  extract_lets ls mine cores
  have hd := h.dev
  refine { dev := ?_, issue := ?_, held := h.held.filter _ }
  · exact { hd with
      launches := hd.launches.filter _
      groups := hd.groups.filter _
      waves := hd.waves.filter _
      parts := fun p hp => hd.parts p (List.mem_of_mem_filter hp)
      bank0 := hd.bank0.filter _
      bank1 := hd.bank1.filter _ }
  · dsimp only
    split
    · next c e =>
      split
      · exact AllWf_nil
      · simpa using h.issue_some e
    · exact AllWf_nil

theorem Dev.Wf.savedView {d : Dev} (h : d.Wf) (ctx : Nat) : AllWf Wave.priv (d.savedView ctx).waves := by
  intro w hw
  obtain ⟨p, hp, hw⟩ := List.mem_flatMap.1 hw
  exact (h.parts p (List.mem_of_mem_filter hp)).waves w hw

theorem Dev.savedImage_wf {d : Dev} (h : AllWf Wave.priv d.waves) (x : Context) (image : Nat) :
    AllWf SavedWave.priv (d.savedImage x image).waves := by
  intro y hy
  obtain ⟨p, -, hy⟩ := List.mem_flatMap.1 hy
  obtain ⟨w, hw, rfl⟩ := List.mem_map.1 hy
  exact h w (List.mem_of_mem_filter hw)

theorem State.Wf.writeImage {s : State} (h : s.Wf) (x : Context) (image : W64) : (s.writeImage x image).Wf := by
  unfold State.writeImage
  extract_lets view fresh side open_ s1
  have hs : AllWf SavedWave.priv side.waves := Dev.savedImage_wf (h.dev.savedView _) _ _
  have h1 : s1.Wf := (h.clearCtx _).storeAt _ _ _
  clear_value side s1
  refine State.Wf.outcome (h1.mapDev fun d h => ?_) _ _
  have hc := h.mapCtx x.index fun c => { c with state := 3, saving := none, savedGraphs := open_ }
  refine { hc with saves := ?_ }
  simp only [List.forall_mem_cons]
  exact ⟨hs, fun y hy => h.saves y (List.mem_of_mem_filter hy)⟩

theorem execContextSave_keepsWf {s : State} (h : s.Wf) (ctx : Nat) : KeepsWf (execContextSave ctx s) := by
  refine (keepsWf_next _).2 ?_
  split
  · exact h
  · split
    · exact h
    · split
      · exact h.writePart _ _
      · exact State.Wf.ite (h.writeImage _ _) h

/-! ### The restore -/

theorem Dev.Wf.setStatus {d : Dev} (h : d.Wf) (at_ : Nat) (b : StatusBlock) : (d.setStatus at_ b).Wf := { h with }

/-- R360, R364. The own space that a save has kept of a wave. -/
theorem SavedImage.kept_wf {side : SavedImage} (h : AllWf SavedWave.priv side.waves) (p : SavedWave → Bool) {x : SavedWave}
    (hx : x.priv = []) : ((side.waves.find? p).getD x).priv.wf = true := by
  cases e : side.waves.find? p with
  | none => simp [hx]
  | some y => exact h.find? e

theorem Dev.Wf.restoreWaves {d : Dev} (h : d.Wf) {side : SavedImage} (hs : AllWf SavedWave.priv side.waves) (l : SavedLaunch)
    (g : Group) (b : List Byte) : (d.restoreWaves side l g b).Wf := by
  unfold Dev.restoreWaves
  refine h.foldl (fun d s h => ?_) _
  extract_lets +onlyGivenNames i bay m kept w d1
  have hw : w.priv.wf = true := SavedImage.kept_wf hs _ rfl
  have h1 : d1.Wf := by
    unfold d1
    split
    · exact h.setStatus _ _
    · exact h
  clear_value w d1
  exact { h1 with waves := by simpa using ⟨h1.waves, hw⟩ }

theorem Dev.Wf.restoreGroup {d : Dev} (h : d.Wf) {side : SavedImage} (hs : AllWf SavedWave.priv side.waves) (l : SavedLaunch)
    (launch : Nat) (places : List (Nat × Nat)) (b : List Byte) : (d.restoreGroup side l launch places b).1.Wf := by
  unfold Dev.restoreGroup
  extract_lets core es ops kept g d1
  have hg : g.scratch.wf = true := Memory.ofBytes_wf _
  have h1 : d1.Wf := { h with groups := AllWf_append.2 ⟨h.groups, AllWf_cons.2 ⟨hg, AllWf_nil⟩⟩ }
  exact h1.restoreWaves hs _ _ _

theorem Dev.Wf.restoreArrivals {d : Dev} (h : d.Wf) (launch : Nat) : (d.restoreArrivals launch).Wf := by
  refine h.foldl (fun d w h => h.foldl (fun d p h => ?_) _) _
  split
  · exact h.mapBarrier _ _ _ _
  · exact h

theorem Dev.Wf.restoreCore {d : Dev} (h : d.Wf) (core : Nat) (b : List Byte) (ways : Nat) :
    (d.mapCore core fun _ => Core.ofBytes b core ways).Wf :=
  h.mapCore _ (fun _ _ => Memory.ofBytes_wf _) fun _ _ => Memory.ofBytes_wf _

theorem Dev.Wf.restoreLaunch (image : List Byte) {side : SavedImage} (hs : AllWf SavedWave.priv side.waves) (ctx wdog : Nat)
    (graphs : List Nat) (places : List (Nat × Nat)) {acc : Dev × List (Nat × Nat × SplatOp)} (h : acc.1.Wf) (l : SavedLaunch) :
    (Dev.restoreLaunch image side ctx wdog graphs places acc l).1.Wf := by
  unfold Dev.restoreLaunch
  extract_lets +onlyGivenNames d id gs first halted x d1 d2 r
  have hx : x.const.wf = true := Dev.Wf.constFor h _ _
  have h1 : d1.Wf := { h with launches := AllWf_append.2 ⟨h.launches, AllWf_cons.2 ⟨hx, AllWf_nil⟩⟩ }
  have h2 : d2.Wf := by
    refine h1.foldl (fun d i h => ?_) _
    dsimp only
    split
    · exact { h.restoreCore _ _ _ with }
    · exact h
  have hr : r.1.Wf := by
    refine foldl_keeps (P := fun a : Dev × List (Nat × Nat × SplatOp) => a.1.Wf) (fun a g h => ?_) h2 _
    exact Dev.Wf.restoreGroup h hs _ _ _ _
  exact hr.restoreArrivals _

theorem State.Wf.restoreGraph (ctx : Nat) (kept : SavedGraph) {acc : State × List Nat × Nat} (h : acc.1.Wf)
    (x : Nat × List Nat) : (State.restoreGraph ctx kept acc x).1.Wf := by
  unfold State.restoreGraph
  extract_lets +onlyGivenNames r nodesAt
  have hr : r.1.Wf := h.walkRead _ _ _
  split
  next id s1 e =>
  have h1 := hr.fresh.of_snd e
  extract_lets +onlyGivenNames t g
  have ht : t.1.Wf := foldl_keeps (P := fun a : State × List Node => a.1.Wf) (fun a p h => h.walkRead _ _ _) h1 _
  dsimp only
  exact ht.mapDev

theorem Dev.Wf.sideOf {d : Dev} (h : d.Wf) (image : Nat) : AllWf SavedWave.priv (d.sideOf image).waves := by
  unfold Dev.sideOf
  cases e : d.saves.find? (fun e => e.image == image) with
  | none => exact AllWf_nil
  | some x => exact h.saves x (List.mem_of_find?_eq_some e)

theorem Dev.Wf.reorder {d : Dev} (h : d.Wf) (ctx k : Nat) : (d.reorder ctx k).Wf := { h with }

theorem State.Wf.load {s : State} (h : s.Wf) (x : Context) (image wdog : Nat) (b : List Byte) (places : List (Nat × Nat)) :
    (s.load x image wdog b places).Wf := by
  unfold State.load
  extract_lets +onlyGivenNames side ls s1 s2 gs s3 s4 r s5 t ops d halted failing s6
  have hs : AllWf SavedWave.priv side.waves := h.dev.sideOf _
  have h1 : s1.Wf := h.mapDev fun _ h => h.setContext _
  have h2 : s2.Wf := h1.storeAt _ _ _
  have h3 : s3.Wf := h2.mapDev fun _ h => h.reorder _ _
  have h4 : s4.Wf := by
    refine h3.mapDev fun d h => ?_
    exact { h with saves := fun y hy => h.saves y (List.mem_of_mem_filter hy) }
  have hr : r.1.Wf := foldl_keeps (P := fun a : State × List Nat × Nat => a.1.Wf)
    (fun a p h => State.Wf.restoreGraph _ _ h _) h4 _
  have ht : t.1.Wf := foldl_keeps (P := fun a : Dev × List (Nat × Nat × SplatOp) => a.1.Wf)
    (fun a l h => Dev.Wf.restoreLaunch b hs _ _ _ _ h l) hr.dev _
  have hd : d.Wf := ht.foldl (fun _ _ h => h.mapUnit _ _) _
  clear_value d
  refine State.Wf.foldl (State.Wf.setDev hr ?_) (fun _ _ h => h.releaseTry _ _) _
  exact { hd with }

theorem State.Wf.restore {s : State} (h : s.Wf) (x : Context) (image clusters : W64) (wdog : W32) :
    (s.restore x image clusters wdog).1.Wf := by
  unfold State.restore
  split
  · exact h
  · extract_lets +onlyGivenNames at_ b
    split
    · exact h
    · extract_lets +onlyGivenNames x' ls ok
      split
      · exact h
      · exact h.load _ _ _ _ _

/-! ### The resume and the freeing -/

@[simp] theorem Wave.restart_priv (w : Wave) (det : Bool) : (w.restart det).priv = w.priv := by
  unfold Wave.restart
  extract_lets w0 w1 w2
  have h1 : w1.priv = w.priv := by
    unfold w1
    split
    · exact Wave.settle_priv _ _
    · rfl
  have h2 : w2.priv = w.priv := by
    unfold w2
    split
    · rw [Wave.settle_priv, h1]
    · exact h1
  split
  · rw [Wave.keepRunning_priv, h2]
  · exact h2

theorem State.Wf.resumeNode {s : State} (h : s.Wf) (graph node : Nat) : (s.resumeNode graph node).Wf := by
  unfold State.resumeNode
  split
  · exact h
  · split
    · exact h
    · extract_lets s1 other stopped s2
      have h2 : s2.Wf := State.Wf.mapDev (h.nodeStatus _ _ _) fun _ h => h.mapGraph _ _
      exact State.Wf.ite (h2.graphStatus _ _ _) h2

theorem State.Wf.resume {s : State} (h : s.Wf) (x : Context) : (s.resume x).1.Wf := by
  unfold State.resume
  extract_lets ls back s1 s2 s3
  split
  · exact h
  · split
    · exact h
    · have h1 : s1.Wf := h.foldl (fun _ _ h => h.onWave _ fun _ h => by simpa using h) _
      have h2 : s2.Wf := h1.mapDev fun _ h => { h with launches := h.launches.map fun _ h => wf_ite h h }
      have h3 : s3.Wf := h2.foldl (fun _ _ h => h.afterEnd _) _
      exact h3.foldl (fun _ _ h => h.resumeNode _ _) _

theorem State.Wf.freeCtx {s : State} (h : s.Wf) (x : Context) : (s.freeCtx x).1.Wf := by
  unfold State.freeCtx
  split
  · exact h
  · extract_lets s1 s2
    have h1 : s1.Wf := h.foldl (fun _ _ h => h.performSome _ _ _) _
    have h2 : s2.Wf := h1.clearCtx _
    dsimp only
    exact h2.mapDev fun _ h => { h with owned := h.owned.filter _ }

theorem State.Wf.startCommand {s : State} (h : s.Wf) (op ctx : Nat) (image clusters : W64) (wdog : W32) :
    (s.startCommand op ctx image clusters wdog).Wf := by
  unfold State.startCommand
  split
  · exact h
  · extract_lets +onlyGivenNames s1 reserved done x
    have h1 : s1.Wf := h.mapDev
    have hdone {r : State × Option Nat} (hr : r.1.Wf) : (done r).Wf := by
      unfold done
      split
      · exact h1.outcome _ _
      · exact hr.outcome _ _
    clear_value s1 done
    split
    · exact h1.outcome _ _
    · split
      · exact State.Wf.ite (h1.preempt _ _) (h1.outcome _ _)
      · exact hdone (h1.restore _ _ _ _)
      · exact hdone (h1.resume _)
      · exact hdone (h1.freeCtx _)

theorem execPreempt_keepsWf {s : State} (h : s.Wf) (c : ContextCommand) : KeepsWf (execPreempt c s) :=
  (keepsWf_next _).2 (h.startCommand _ _ _ _ _)

theorem execRestore_keepsWf {s : State} (h : s.Wf) (c : ContextCommand) : KeepsWf (execRestore c s) :=
  (keepsWf_next _).2 (h.startCommand _ _ _ _ _)

theorem execResume_keepsWf {s : State} (h : s.Wf) (c : ContextCommand) : KeepsWf (execResume c s) :=
  (keepsWf_next _).2 (h.startCommand _ _ _ _ _)

theorem execFree_keepsWf {s : State} (h : s.Wf) (c : ContextCommand) : KeepsWf (execFree c s) :=
  (keepsWf_next _).2 (h.startCommand _ _ _ _ _)

end Sys2Proof.Machine

/-! The splat units with canonical memories. -/

namespace Sys2Proof.Machine

/-! ### The queue of a unit, and its accesses -/

theorem State.Wf.splatIssue {s : State} (h : s.Wf) {c : Issue} (hc : c.wave.priv.wf = true) (opcode : Nat) (a : Operand) :
    InstrWf (s.splatIssue c opcode a) := by
  unfold State.splatIssue
  extract_lets +onlyGivenNames addr
  split
  · exact ⟨h, trivial⟩
  · split
    · exact ⟨h, trivial⟩
    · split
      next op s1 e =>
      exact ⟨h.fresh.of_snd e, by simpa [Issue.send] using hc⟩

theorem keepsWf_splatIssue {s : State} (h : s.Wf) (opcode : Nat) (a : Operand) :
    KeepsWf (s.onIssue fun s c => s.splatIssue c opcode a) :=
  keepsWf_onIssue h fun _ hc => h.splatIssue hc _ _

theorem State.Wf.unitPoke {s : State} (h : s.Wf) (o : SplatOp) (a : Nat) (bs : List Byte) : (s.unitPoke o a bs).1.Wf := by
  unfold State.unitPoke
  split
  · exact h
  · dsimp only
    exact h.poke _ _

theorem State.Wf.dropSplat {s : State} (h : s.Wf) (unit op : Nat) : (s.dropSplat unit op).Wf := h.mapDev fun _ h => h.mapUnit _ _

theorem State.Wf.parkSplat {s : State} (h : s.Wf) (unit op : Nat) : (s.parkSplat unit op).Wf := h.mapDev fun _ h => h.mapUnit _ _

theorem execSplatQueueAccept_keepsWf {s : State} (h : s.Wf) (unit : Nat) : KeepsWf (execSplatQueueAccept unit s) := by
  refine (keepsWf_next _).2 ?_
  extract_lets q
  split
  · exact h
  · split
    · exact h
    · split
      · exact State.Wf.flagDone (h.mapDev fun _ h => h.mapUnit _ _) _ _
      · exact State.Wf.ite ((h.dropSplat _ _).unitHalt _ _ _ _ _ _) h
      · exact h

theorem State.Wf.unitArrive {s : State} (h : s.Wf) (ctx : Nat) (need : Need) (n : Nat) (p : LaneAccess) :
    (s.unitArrive ctx need n p).1.Wf := by
  unfold State.unitArrive
  split
  · exact h
  · extract_lets page
    split
    · exact State.Wf.ite (h.mapDev fun _ h => h.recallPage _ _) h
    · exact h.dropsRequest _ _
    · exact h

theorem State.Wf.splatCheck {s : State} (h : s.Wf) (o : SplatOp) (need : Need) (n : Nat) (vas : List Nat) :
    (s.splatCheck o need n vas).1.Wf := by
  unfold State.splatCheck
  split
  · exact h
  · split
    · exact (h.checkLanes _ _ _ _ _ _ _ _ _).of_fst ‹_›
    · exact (h.checkLanes _ _ _ _ _ _ _ _ _).of_fst ‹_›
    · exact State.Wf.runAll (fun _ _ _ h => h.unitArrive _ _ _ _) ((h.checkLanes _ _ _ _ _ _ _ _ _).of_fst ‹_›) _ _

theorem State.Wf.splatBytes {s : State} (h : s.Wf) (o : SplatOp) (n : Nat) (ps : List LaneAccess) : (s.splatBytes o n ps).1.Wf := by
  unfold State.splatBytes
  extract_lets reader far s1 bytes bads
  have h1 : s1.Wf := h.foldl (fun _ _ h => h.askLines _ _ _ _) _
  split
  · exact h1
  · split <;> exact h1

theorem State.Wf.splatFetch {s : State} (h : s.Wf) (o : SplatOp) (n : Nat) (vas : List Nat) : (s.splatFetch o n vas).1.Wf := by
  unfold State.splatFetch
  split
  · exact (h.splatCheck _ _ _ _).of_fst ‹_›
  · next e =>
    have h1 := (h.splatCheck _ _ _ _).of_fst e
    split
    · exact h1
    · exact h1.splatBytes _ _ _

theorem State.Wf.splatWrite {s : State} (h : s.Wf) (o : SplatOp) (n : Nat) (recs : List (Nat × List Byte)) :
    (s.splatWrite o n recs).1.Wf := by
  unfold State.splatWrite
  split
  · exact (h.splatCheck _ _ _ _).of_fst ‹_›
  · next e =>
    have h1 := (h.splatCheck _ _ _ _).of_fst e
    split
    · exact h1
    · exact h1.foldl (fun _ _ h => h.writeLoc _ _ _ _) _

/-! ### Projection, bins, sort and blend -/

theorem State.Wf.runProject {s : State} (h : s.Wf) (o : SplatOp) (g : Group) : (s.runProject o g).1.Wf := by
  unfold State.runProject
  extract_lets +onlyGivenNames cmd gsrc dst first n camera
  split
  · exact h
  · split
    · exact h
    · extract_lets +onlyGivenNames cam r
      have hr : r.1.Wf := by
        refine State.Wf.runAll (fun s acc ids h => ?_) h _ _
        split
        · exact (h.splatFetch _ _ _).of_fst ‹_›
        · next e =>
          have h1 := (h.splatFetch _ _ _).of_fst e
          extract_lets res out
          split <;> exact (h1.splatWrite _ _ _).of_fst ‹_›
      clear_value r
      obtain ⟨t, _ | _⟩ := r
      · exact hr
      · exact hr

theorem State.Wf.binTile {s : State} (h : s.Wf) (o : SplatOp) (b : Bins) (i : Nat) (r : List Byte) (n t : Nat) :
    (s.binTile o b i r n t).1.Wf := by
  unfold State.binTile
  split
  · exact h
  · next k _ =>
    have h1 : (if k < b.cap then s.unitPoke o (b.slotAt t k) (leBytes 4 (wordsAt r 5) ++ leBytes 4 i)
      else (s, .ok ())).1.Wf := State.Wf.fst_ite (h.unitPoke _ _ _) h
    split
    · exact h1.of_fst ‹_›
    · exact (h1.of_fst ‹_›).unitPoke _ _ _

theorem State.Wf.binSplat {s : State} (h : s.Wf) (o : SplatOp) (b : Bins) (n : Nat) (x : Nat × List Byte) :
    (s.binSplat o b n x).1.Wf := by
  unfold State.binSplat
  split
  · exact h
  · exact State.Wf.runAll (fun _ _ _ h => h.binTile _ _ _ _ _ _) h _ _

theorem State.Wf.runBin {s : State} (h : s.Wf) (o : SplatOp) (g : Group) : (s.runBin o g).1.Wf := by
  unfold State.runBin
  extract_lets +onlyGivenNames cmd proj first n
  split
  · exact h
  · split
    · exact h
    · split
      · exact (h.unitPoke _ _ _).of_fst ‹_›
      · next e =>
        have h1 := (h.unitPoke _ _ _).of_fst e
        extract_lets +onlyGivenNames r
        have hr : r.1.Wf := by
          refine State.Wf.runAll (fun s acc ids h => ?_) h1 _ _
          split
          · exact (h.splatFetch _ _ _).of_fst ‹_›
          · exact State.Wf.runAll (fun _ _ _ h => h.binSplat _ _ _ _) ((h.splatFetch _ _ _).of_fst ‹_›) _ _
        clear_value r
        obtain ⟨t, _ | k⟩ := r
        · exact hr
        · exact State.Wf.runAll (fun _ _ _ h => h) hr _ _

theorem State.Wf.sortTile {s : State} (h : s.Wf) (o : SplatOp) (b : Bins) (acc : Nat × Bool) (t : Nat) :
    (s.sortTile o b acc t).1.Wf := by
  unfold State.sortTile
  split
  · exact h
  · split
    · exact h
    · split
      · exact h
      · exact h.unitPoke _ _ _

theorem State.Wf.runSort {s : State} (h : s.Wf) (o : SplatOp) (g : Group) : (s.runSort o g).1.Wf := by
  unfold State.runSort
  split
  · exact h
  · split
    · exact h
    · exact State.Wf.runAll (fun _ _ _ h => h.sortTile _ _ _ _) h _ _

theorem State.Wf.fetchIds {s : State} (h : s.Wf) (o : SplatOp) (proj : Nat) (ids : List Nat) : (s.fetchIds o proj ids).1.Wf := by
  unfold State.fetchIds
  split <;> exact (h.splatFetch _ _ _).of_fst ‹_›

theorem State.Wf.blendPixel {s : State} (h : s.Wf) (o : SplatOp) (proj : Nat) (cut : SVal) (px py : Nat) (es : List (Nat × Nat)) :
    (s.blendPixel o proj cut px py es).1.Wf := by
  refine State.Wf.runAll (fun s x part h => ?_) h _ _
  split
  · exact h
  · split <;> exact (h.fetchIds _ _ _).of_fst ‹_›

theorem State.Wf.runBlend {s : State} (h : s.Wf) (o : SplatOp) (g : Group) : (s.runBlend o g).1.Wf := by
  unfold State.runBlend
  extract_lets +onlyGivenNames cmd proj out pitch
  split
  · exact h
  · next b _ =>
    split
    · exact h
    · extract_lets +onlyGivenNames r
      have hr : r.1.Wf := by
        refine State.Wf.runAll (fun s acc t h => ?_) h _ _
        split
        · exact h
        · refine State.Wf.runAll (fun s acc part h => ?_) h _ _
          generalize hp : Machine.runAll _ s [] part = p
          have h1 : p.1.Wf := by
            refine State.Wf.of_eq (State.Wf.runAll (fun s xs p h => ?_) h _ _) hp
            split <;> exact (h.blendPixel _ _ _ _ _ _).of_fst ‹_›
          obtain ⟨t, _ | xs⟩ := p
          · exact h1
          · dsimp only
            split <;> exact (h1.splatWrite _ _ _).of_fst ‹_›
      clear_value r
      obtain ⟨t, _ | _⟩ := r
      · exact hr
      · exact hr

/-! ### The gradients -/

theorem State.Wf.gatherPixel {s : State} (h : s.Wf) (o : SplatOp) (proj grad px py : Nat) (es : List (Nat × Nat))
    (outRec gin : List Byte) (gs : Gradients) (fl : FpFlags) :
    (s.gatherPixel o proj grad px py es outRec gin gs fl).1.Wf := by
  unfold State.gatherPixel
  extract_lets tn start visits
  refine State.Wf.runAll (fun s x part h => ?_) h _ _
  split
  · exact (h.fetchIds _ _ _).of_fst ‹_›
  · next e =>
    have h1 := (h.fetchIds _ _ _).of_fst e
    extract_lets x' fresh
    split <;> exact (h1.splatCheck _ _ _ _).of_fst ‹_›

theorem State.Wf.sendAddition {s : State} (h : s.Wf) (op ctx peer va : Nat) (away : Bool) (x : Nat) :
    (s.sendAddition op ctx peer va away x).Wf := by
  unfold State.sendAddition
  split
  · exact h.mapDev fun _ h => h.setError _ _ _
  · exact h.sendTxn _

theorem State.Wf.addAway {s : State} (h : s.Wf) (o : SplatOp) (peer va : Nat) (away : Bool) (x : SVal) :
    (s.addAway o peer va away x).1.Wf := h.draw.sendAddition _ _ _ _ _ _

theorem State.Wf.addTo {s : State} (h : s.Wf) (o : SplatOp) (p : LaneAccess) (x : SVal) : (s.addTo o p x).1.Wf := by
  unfold State.addTo
  extract_lets +onlyGivenNames ctx va sum
  split
  · extract_lets +onlyGivenNames peer
    split
    · next w e =>
      dsimp only
      exact h.ownedAtomic none (h.dev.owned? e) _ _ _ _
    · exact h.addAway _ _ _ _ _
  · split
    · exact h.addAway _ _ _ _ _
    · split
      · exact h
      · exact State.Wf.writeLoc (h.mapDev fun _ h => h.countAtomic _ _ _) _ _ _ _

theorem State.Wf.commitGradient {s : State} (h : s.Wf) (o : SplatOp) (grad i : Nat) (ws : List SVal) (fl : FpFlags) :
    (s.commitGradient o grad i ws fl).1.Wf := by
  refine State.Wf.runAll (fun s fl x h => ?_) h _ _
  split
  · exact (h.splatCheck _ _ _ _).of_fst ‹_›
  · exact (h.splatCheck _ _ _ _).of_fst ‹_›
  · next e =>
    have h1 := (h.splatCheck _ _ _ _).of_fst e
    split <;> exact (h1.addTo _ _ _).of_fst ‹_›

theorem State.Wf.runGradient {s : State} (h : s.Wf) (o : SplatOp) (g : Group) : (s.runGradient o g).1.Wf := by
  unfold State.runGradient
  extract_lets +onlyGivenNames cmd proj out pitch gpitch ginAt grad
  split
  · exact h
  · next b _ =>
    split
    · exact h
    · extract_lets +onlyGivenNames r
      have hr : r.1.Wf := by
        refine State.Wf.runAll (fun s acc t h => ?_) h _ _
        split
        · exact h
        · exact h
        · refine State.Wf.runAll (fun s acc part h => ?_) h _ _
          split
          · exact (h.splatFetch _ _ _).of_fst ‹_›
          · next e =>
            have h1 := (h.splatFetch _ _ _).of_fst e
            split
            · exact (h1.splatFetch _ _ _).of_fst ‹_›
            · next e =>
              refine State.Wf.runAll (fun s acc x h => ?_) ((h1.splatFetch _ _ _).of_fst e) _ _
              split <;> exact (h.gatherPixel _ _ _ _ _ _ _ _ _ _).of_fst ‹_›
      clear_value r
      obtain ⟨t, _ | ⟨gs, fl, full⟩⟩ := r
      · exact hr
      · have commit (fl : FpFlags) (l : List (Nat × List SVal)) :
            (Machine.runAll (fun s (fl : FpFlags) (x : Nat × List SVal) => s.commitGradient o grad x.1 x.2 fl) t fl l).1.Wf :=
          State.Wf.runAll (fun _ _ _ h => h.commitGradient _ _ _ _ _) hr _ _
        dsimp only
        split <;> exact (commit _ _).of_fst ‹_›

theorem State.Wf.lateAddition {s : State} (h : s.Wf) (op ctx va : Nat) (x : W32) : (s.lateAddition op ctx va x).Wf := by
  unfold State.lateAddition
  split
  · exact h.mapDev
  · exact h.sendAddition _ _ _ _ _ _
  · split
    · exact h
    · exact State.Wf.writeLoc (h.mapDev fun _ h => h.countAtomic _ _ _) _ _ _ _

/-! ### The events of a unit -/

theorem State.Wf.runSplat {s : State} (h : s.Wf) (unit opcode : Nat) {run : State → SplatOp → Group → SplatRun}
    (hrun : ∀ o g, (run s o g).1.Wf) : KeepsWf (s.runSplat unit opcode run) := by
  refine (keepsWf_next _).2 ?_
  split
  · exact h
  · next o g _ =>
    extract_lets +onlyGivenNames done
    have hd : done.1.Wf := by
      have h1 := hrun o g
      unfold done
      split
      · next e => exact (h1.of_fst e).unitPoke _ _ _
      · next e => exact h1.of_fst e
    clear_value done
    split
    · exact (hd.dropSplat _ _).mapDev fun _ h => (h.countDone _ _).dropFetched _
    · exact (h.takeRecalls _).parkSplat _ _
    · refine State.Wf.ite h ?_
      split
      · split
        · exact (hd.parkSplat _ _).parkUnit _ _ _ _ _
        · exact (hd.dropSplat _ _).unitHalt _ _ _ _ _ _
      · exact (hd.dropSplat _ _).unitHalt _ _ _ _ _ _
      · exact h

theorem execSplatParameterSet_keepsWf {s : State} (h : s.Wf) (unit : Nat) : KeepsWf (execSplatParameterSet unit s) := by
  refine h.runSplat _ _ fun o g => ?_
  split
  · exact h
  · exact h.mapDev fun _ h => h.mapGroup _ _

theorem execProjection_keepsWf {s : State} (h : s.Wf) (unit : Nat) : KeepsWf (execProjection unit s) :=
  h.runSplat _ _ h.runProject

theorem execBinning_keepsWf {s : State} (h : s.Wf) (unit : Nat) : KeepsWf (execBinning unit s) :=
  h.runSplat _ _ h.runBin

theorem execTileSort_keepsWf {s : State} (h : s.Wf) (unit : Nat) : KeepsWf (execTileSort unit s) :=
  h.runSplat _ _ h.runSort

theorem execBlend_keepsWf {s : State} (h : s.Wf) (unit : Nat) : KeepsWf (execBlend unit s) :=
  h.runSplat _ _ h.runBlend

theorem execGradientGather_keepsWf {s : State} (h : s.Wf) (unit : Nat) : KeepsWf (execGradientGather unit s) :=
  h.runSplat _ _ h.runGradient

end Sys2Proof.Machine

/-! The commands that talk to other devices with canonical memories: the halo exchange and the all-reduce. -/

namespace Sys2Proof.Machine

/-! ### The halo exchange -/

theorem State.Wf.hxcRows {s : State} (h : s.Wf) (c : EngineCmd) (x : HxcCmd) : (s.hxcRows c x).1.Wf := by
  refine State.Wf.runAll (fun s acc i h => ?_) h _ _
  split <;> exact (h.cmdRead _ _ _ _).of_fst ‹_›

theorem Dev.Wf.mapCmd {d : Dev} (h : d.Wf) (id : Nat) (f : EngineCmd → EngineCmd) : (d.mapCmd id f).Wf := { h with }

theorem Dev.Wf.cmdFail {d : Dev} (h : d.Wf) (id code : Nat) : (d.cmdFail id code).Wf := h.mapCmd _ _

theorem State.Wf.cmdSend {s : State} (h : s.Wf) (c : EngineCmd) (peer : Nat) (tag : Option Nat) (p : Nat × List Byte) :
    (s.cmdSend c peer tag p).Wf := by
  unfold State.cmdSend
  split
  · exact h.mapDev fun _ h => (h.setError _ _ _).cmdFail _ _
  · exact (h.clearReservations _ _).sendTxn _

theorem State.Wf.sendArrive {s : State} (h : s.Wf) (c : EngineCmd) (peer va : Nat) (away : Bool) :
    (s.sendArrive c peer va away).Wf := by
  unfold State.sendArrive
  have h1 := h.mapDev fun _ h => h.mapCmd c.id fun c => c.enters 2
  extract_lets s1
  split
  · exact State.Wf.mapDev h1 fun _ h => (h.setError _ _ _).cmdFail _ _
  · exact State.Wf.sendTxn h1 _

theorem State.Wf.localArrive {s : State} (h : s.Wf) (c : EngineCmd) (va n : Nat) : (s.localArrive c va n).1.Wf := by
  unfold State.localArrive
  split
  · exact (h.agentCheck _ _ _ _ _).of_fst ‹_›
  · next e =>
    extract_lets +onlyGivenNames s1 add done
    have h1 : s1.Wf := State.Wf.mapDev ((h.agentCheck _ _ _ _ _).of_fst e) fun _ h => h.mapCmd _ _
    split
    · extract_lets +onlyGivenNames peer at_
      split
      · next o eo =>
        dsimp only
        exact h1.ownedAtomic none (h1.dev.owned? eo) _ _ _ _
      · exact h1.sendArrive _ _ _ _
    · split
      · exact h1.sendArrive _ _ _ _
      · exact State.Wf.writeLoc (h1.mapDev fun _ h => h.countAtomic _ _ _) _ _ _ _

theorem State.Wf.hxcLocal {s : State} (h : s.Wf) (c : EngineCmd) (x : HxcCmd) (ps : List (Nat × List Byte)) :
    (s.hxcLocal c x ps).1.Wf := by
  unfold State.hxcLocal
  split
  next s1 stale e =>
  have h1 := (h.loggedTest _ _).of_fst e
  have h2 : (Machine.runAll (fun s (_ : Unit) (p : Nat × List Byte) => s.cmdWrite c p.1 p.2) s1 () ps).1.Wf :=
    State.Wf.runAll (fun _ _ _ h => h.cmdWrite _ _ _) h1 _ _
  split
  · exact h1
  · split
    · exact h2.of_fst ‹_›
    · next e =>
      have h3 := h2.of_fst e
      split
      · exact h3
      · split
        · exact h3
        · exact h3.localArrive _ _ _

theorem State.Wf.runHxc {s : State} (h : s.Wf) (c : EngineCmd) : (s.runHxc c).1.Wf := by
  unfold State.runHxc
  extract_lets +onlyGivenNames x peer waiting
  split
  · split
    · exact (h.hxcRows _ _).of_fst ‹_›
    · next e =>
      have h1 := (h.hxcRows _ _).of_fst e
      split
      · exact h1.hxcLocal _ _ _
      · split
        · exact h1
        · exact State.Wf.foldl (h1.mapDev fun _ h => h.mapCmd _ _) (fun _ _ h => h.cmdSend _ _ _ _) _
  · split
    · exact h
    · split
      · exact h
      · split
        · exact h
        · exact h.sendArrive _ _ _ _
  · exact h.localArrive _ _ _
  · split <;> exact h

theorem execHxcExecution_keepsWf {s : State} (h : s.Wf) (cmd : Nat) : KeepsWf (execHxcExecution cmd s) :=
  h.runEngine _ _ fun _ c h => h.runHxc c

/-! ### The all-reduce -/

theorem Dev.Wf.consume {d : Dev} (h : d.Wf) (c : EngineCmd) (x : AredCmd) (others : List Nat) : (d.consume c x others).Wf :=
  { h with }

theorem State.Wf.sendCollective {s : State} (h : s.Wf) (c : EngineCmd) (m : CollectiveMessage) (peer : Nat) :
    (s.sendCollective c m peer).Wf := by
  unfold State.sendCollective
  split
  · exact h
  · exact h.sendTxn _

theorem State.Wf.aredFail {s : State} (h : s.Wf) (c : EngineCmd) (x : AredCmd) (others bad tell : List Nat) :
    (s.aredFail c x others bad tell).Wf := by
  unfold State.aredFail
  extract_lets note s1
  have h1 : s1.Wf := h.mapDev fun _ h => (h.consume _ _ _).foldl (fun _ _ h => h.setError _ _ _) _
  exact h1.foldl (fun _ _ h => h.sendCollective _ _ _) _

theorem State.Wf.writeChunks {s : State} (h : s.Wf) (c : EngineCmd) (fuel va : Nat) (bs : List Byte) :
    (s.writeChunks c fuel va bs).1.Wf := by
  induction fuel generalizing s va bs with
  | zero => exact h
  | succ fuel ih =>
    unfold State.writeChunks
    split
    · exact h
    · split
      · exact (h.cmdWrite _ _ _).of_fst ‹_›
      · exact ih ((h.cmdWrite _ _ _).of_fst ‹_›) _ _

theorem State.Wf.aredReduce {s : State} (h : s.Wf) (c : EngineCmd) (x : AredCmd) (table : List Nat) :
    (s.aredReduce c x table).1.Wf := by
  unfold State.aredReduce
  extract_lets +onlyGivenNames w own partsOf rs bytes
  split
  · exact (h.writeChunks _ _ _ _).of_fst ‹_›
  · next e =>
    have h1 := (h.writeChunks _ _ _ _).of_fst e
    split
    · exact h1
    · exact h1.mapDev fun _ h => h.consume _ _ _

theorem State.Wf.aredStart {s : State} (h : s.Wf) (c : EngineCmd) (x : AredCmd) : (s.aredStart c x).1.Wf := by
  unfold State.aredStart
  split
  · exact (h.cmdRead _ _ _ _).of_fst ‹_›
  · next e =>
    have h1 := (h.cmdRead _ _ _ _).of_fst e
    extract_lets +onlyGivenNames table
    split
    · exact h1
    · split
      · exact (h1.cmdRead _ _ _ _).of_fst ‹_›
      · next e =>
        have h2 := (h1.cmdRead _ _ _ _).of_fst e
        extract_lets +onlyGivenNames paired peers
        split
        · exact h2
        · split
          · exact h2
          · exact State.Wf.foldl (h2.mapDev fun _ h => h.mapCmd _ _) (fun _ _ h => h.sendCollective _ _ _) _

theorem State.Wf.runAred {s : State} (h : s.Wf) (c : EngineCmd) : (s.runAred c).1.Wf := by
  unfold State.runAred
  extract_lets +onlyGivenNames x
  split
  · exact h.aredStart _ _
  · extract_lets +onlyGivenNames d table others got notes differs down earlier bad
    clear_value earlier differs got notes down
    split_ifs
    · exact h
    · exact h.aredReduce _ _ _
    · exact h.aredFail _ _ _ _ _
    · exact h.aredFail _ _ _ _ _
    · exact h.aredFail _ _ _ _ _
    · exact h.aredFail _ _ _ _ _
    · exact h.aredFail _ _ _ _ _
    · exact h.aredReduce _ _ _
    · exact h

theorem execAredExecution_keepsWf {s : State} (h : s.Wf) (cmd : Nat) : KeepsWf (execAredExecution cmd s) :=
  h.runEngine _ _ fun _ c h => h.runAred c

theorem execAredLimitExpiry_keepsWf {s : State} (h : s.Wf) (cmd : Nat) : KeepsWf (execAredLimitExpiry cmd s) := by
  refine h.runEngine _ _ fun s c h => ?_
  dsimp only
  split
  · exact h
  · exact h.aredFail _ _ _ _ _

end Sys2Proof.Machine

/-! The fabric as the device meets it, with canonical memories: requests, replies, rights, paths and keys. -/

namespace Sys2Proof.Machine

/-! ### Inbound requests -/

theorem State.Wf.inbound {s : State} (h : s.Wf) (r : FabricRequest) (need : Need) : (s.inbound r need).1.Wf := by
  unfold State.inbound
  split
  · exact h
  · split
    · exact h
    · split
      · exact (h.agentCheck _ _ _ _ _).of_fst ‹_›
      · exact (h.agentCheck _ _ _ _ _).of_fst ‹_›
      · exact (h.agentCheck _ _ _ _ _).of_fst ‹_›
      · exact (h.agentCheck _ _ _ _ _).of_fst ‹_›
      · exact h

theorem Dev.Wf.emit {d : Dev} (h : d.Wf) (m : List OutMsg) : ({ d with outbox := d.outbox ++ m } : Dev).Wf := { h with }

theorem State.Wf.answer {s : State} (h : s.Wf) (r : FabricRequest) (x : FabricReply) : (s.answer r x).Wf := by
  unfold State.answer
  extract_lets data
  split
  next k s1 e =>
  refine (h.fresh.of_snd e).mapDev fun d h => ?_
  dsimp only
  split
  · exact Dev.Wf.blocksPassed (h.emit _) _ _ _
  · exact h.emit _

theorem State.Wf.holdRequest {s : State} (h : s.Wf) (i : HeldRequest) : (s.holdRequest i).Wf := h.mapDev

theorem State.Wf.drained {s : State} (h : s.Wf) (i : HeldRequest) : (s.drained i).Wf := by
  unfold State.drained
  extract_lets back
  have hb (r : FabricRequest) (n : Nat) : (back r n).Wf := State.Wf.ite h (h.mapDev fun _ h => h.emit _)
  clear_value back
  split
  · exact hb _ _
  · exact hb _ _
  · exact hb _ _
  · exact h

theorem State.Wf.relay {s : State} (h : s.Wf) (i : HeldRequest) (ctx peer va : Nat) (away : Bool) :
    (s.relay i ctx peer va away).Wf := by
  unfold State.relay
  split
  · exact h
  · split
    · exact h.answer _ _
    · exact h.fresh.sendTxn _

theorem State.Wf.atPlace {s : State} (h : s.Wf) (i : HeldRequest) (x : Context) (loc : Loc) {here : State → State}
    {owned : State → OwnedPage → State} (hh : ∀ s, s.Wf → (here s).Wf)
    (ho : ∀ s o, s.Wf → o.words.wf = true → (owned s o).Wf) : (s.atPlace i x loc here owned).Wf := by
  unfold State.atPlace
  split
  · split
    · next e => exact ho _ _ h (h.dev.owned? e)
    · exact h.relay _ _ _ _ _
  · exact hh _ h

theorem State.Wf.inboundLoad {s : State} (h : s.Wf) (r : FabricRequest) : (s.inboundLoad r).Wf := by
  unfold State.inboundLoad
  split
  · exact ((h.inbound _ _).of_fst ‹_›).answer _ _
  · exact ((h.inbound _ _).of_fst ‹_›).answer _ _
  · exact ((h.inbound _ _).of_fst ‹_›).holdRequest _
  · refine ((h.inbound _ _).of_fst ‹_›).atPlace _ _ _ (fun s h => ?_) fun s o h _ => h.answer _ _
    exact State.Wf.answer (h.mapDev fun _ h => h.dirShare _) _ _

theorem State.Wf.payload {s : State} (h : s.Wf) (p : Payload) : (s.payload p).2.Wf := by
  cases p with
  | inline data => exact h
  | received port =>
    dsimp only [State.payload]
    exact h.mapDev

theorem State.Wf.inboundStore {s : State} (h : s.Wf) (r : FabricRequest) (data : List Byte) (held : HeldRequest) :
    (s.inboundStore r data held).Wf := by
  unfold State.inboundStore
  split
  · exact ((h.inbound _ _).of_fst ‹_›).answer _ _
  · exact ((h.inbound _ _).of_fst ‹_›).answer _ _
  · exact ((h.inbound _ _).of_fst ‹_›).holdRequest _
  · exact ((h.inbound _ _).of_fst ‹_›).atPlace _ _ _ (fun s h => (h.writeLoc _ _ _ _).answer _ _)
      fun s o h ho => (h.ownedStore none ho _ _).answer _ _

theorem State.Wf.inboundTagged {s : State} (h : s.Wf) (r : FabricRequest) (data : List Byte) (tag : BitVec 24) :
    (s.inboundTagged r data tag).Wf := by
  unfold State.inboundTagged
  split
  · exact h.answer _ _
  · exact State.Wf.ite (h.inboundStore _ _ _) (h.answer _ _)

theorem Dev.Wf.openWindow {d : Dev} (h : d.Wf) (ctx page : Nat) : (d.openWindow ctx page).Wf := by
  unfold Dev.openWindow
  split
  · exact h
  · exact { h with }

theorem State.Wf.atOwned {s : State} (h : s.Wf) (r : FabricRequest) (a : FabricAtomic) {o : OwnedPage} (ho : o.words.wf = true)
    (va : Nat) : (s.atOwned r a o va).Wf := (h.ownedAtomic none ho _ _ _ _).answer _ _

theorem State.Wf.ownerAtomic {s : State} (h : s.Wf) (r : FabricRequest) (a : FabricAtomic) (home : Nat) :
    (s.ownerAtomic r a home).Wf := by
  unfold State.ownerAtomic
  split
  · exact h.answer _ _
  · split
    · exact h.answer _ _
    · split
      · exact h.answer _ _
      · next e => exact h.atOwned _ _ (h.dev.owned? e) _

theorem State.Wf.homeAtomic {s : State} (h : s.Wf) (r : FabricRequest) (a : FabricAtomic) : (s.homeAtomic r a).Wf := by
  unfold State.homeAtomic
  split
  · exact ((h.inbound _ _).of_fst ‹_›).answer _ _
  · exact ((h.inbound _ _).of_fst ‹_›).answer _ _
  · exact ((h.inbound _ _).of_fst ‹_›).holdRequest _
  · refine ((h.inbound _ _).of_fst ‹_›).atPlace _ _ _ (fun s h => ?_) fun s o h ho => h.atOwned _ _ ho _
    extract_lets page s1 old s2
    have h1 : s1.Wf := h.mapDev fun _ h => (h.openWindow _ _).countAtomic _ _ _
    have h2 : s2.Wf := by
      unfold s2
      split
      · exact h1.writeLoc _ _ _ _
      · exact h1
    exact h2.answer _ _

theorem State.Wf.inboundAtomic {s : State} (h : s.Wf) (r : FabricRequest) (a : FabricAtomic) : (s.inboundAtomic r a).Wf := by
  unfold State.inboundAtomic
  split
  · exact h.ownerAtomic _ _ _
  · exact h.answer _ _
  · split
    · exact h.holdRequest _
    · exact State.Wf.ite (h.relay _ _ _ _ _) (h.answer _ _)
    · exact h.homeAtomic _ _

theorem State.Wf.inboundVerdict {s : State} (h : s.Wf) (r : FabricRequest) (seq : W32) : (s.inboundVerdict r seq).Wf := by
  unfold State.inboundVerdict
  split
  · exact ((h.inbound _ _).of_fst ‹_›).answer _ _
  · exact ((h.inbound _ _).of_fst ‹_›).answer _ _
  · exact ((h.inbound _ _).of_fst ‹_›).holdRequest _
  · exact ((h.inbound _ _).of_fst ‹_›).atPlace _ _ _ (fun s h => h.answer _ _) fun s o h _ => h.answer _ _

theorem State.Wf.serve {s : State} (h : s.Wf) (i : HeldRequest) : (s.serve i).Wf := by
  cases i with
  | load r => exact h.inboundLoad _
  | store r data => exact h.inboundStore _ _ _
  | tagged r data tag => exact h.inboundTagged _ _ _
  | atomic r a => exact h.inboundAtomic _ _
  | verdict r seq => exact h.inboundVerdict _ _
  | doorbell ctx desc => exact h.ring _ _
  | addition op ctx va x => exact h.lateAddition _ _ _ _

theorem State.Wf.receive {s : State} (h : s.Wf) (i : HeldRequest) : (s.receive i).Wf :=
  State.Wf.ite (h.serve i) ((h.serve i).drained _)

theorem execFabricLoadRequest_keepsWf {s : State} (h : s.Wf) (r : FabricRequest) : KeepsWf (execFabricLoadRequest r s) :=
  (keepsWf_next _).2 (h.receive _)

theorem execFabricStoreRequest_keepsWf {s : State} (h : s.Wf) (r : FabricRequest) (data : Payload) :
    KeepsWf (execFabricStoreRequest r data s) := (keepsWf_next _).2 ((h.payload _).receive _)

theorem execVersionTaggedStore_keepsWf {s : State} (h : s.Wf) (r : FabricRequest) (data : Payload) (tag : BitVec 24) :
    KeepsWf (execVersionTaggedStore r data tag s) := (keepsWf_next _).2 ((h.payload _).receive _)

theorem execFabricAtomicRequest_keepsWf {s : State} (h : s.Wf) (r : FabricRequest) (a : FabricAtomic) :
    KeepsWf (execFabricAtomicRequest r a s) := (keepsWf_next _).2 (h.receive _)

theorem execWatchVerdictRequest_keepsWf {s : State} (h : s.Wf) (r : FabricRequest) (seq : BitVec 32) :
    KeepsWf (execWatchVerdictRequest r seq s) := (keepsWf_next _).2 (h.receive _)

/-! ### Atomic rights -/

/-- R308. The bytes of a page that a right brings are taken in the canonical form. -/
theorem pageMemory_wf (words : List Host.Cell) : (pageMemory words).wf = true :=
  foldl_keeps (P := fun m : Memory => m.wf = true) (fun _ _ h => Memory.write_wf _ _ h) Memory.wf_nil _

theorem State.Wf.putLine {s : State} (h : s.Wf) (l : Loc) (words : Memory) (i : Nat) : (State.putLine l words s i).Wf :=
  State.Wf.mapWaves (h.mapDev fun _ h =>
    ((h.setTier _ (Memory.writeN_wf _ _ (h.tier _))).dirWriteRange _ _ _).dropL1Frame _ _ _)

theorem State.Wf.putPage {s : State} (h : s.Wf) (l : Loc) (words : List Host.Cell) (written : List Nat) :
    (s.putPage l words written).Wf := h.foldl (fun _ _ h => h.putLine _ _ _) _

theorem Dev.Wf.homeWindow {d : Dev} (h : d.Wf) (ctx page : Nat) : (d.homeWindow ctx page).Wf := by
  unfold Dev.homeWindow
  split
  · split
    · exact h
    · split
      · exact h.mapRight _ _ _
      · next o _ => exact { h.mapRight ctx page fun r => { r with window := [], owner := some o, handing := true } with }
  · exact h

theorem Dev.Wf.returnRight {d : Dev} (h : d.Wf) (o : OwnedPage) : (d.returnRight o).Wf :=
  { h with owned := h.owned.filter _ }

theorem Dev.Wf.ownerWindow {d : Dev} (h : d.Wf) {o : OwnedPage} (ho : o.words.wf = true) : (d.ownerWindow o).Wf := by
  unfold Dev.ownerWindow
  split
  · exact h
  · split
    · exact { h with owned := h.owned.map fun _ hx => wf_ite ho hx }
    · exact h.returnRight _

theorem execAtomicWindowEnd_keepsWf {s : State} (h : s.Wf) (ctx : Nat) (p : RightPage) : KeepsWf (execAtomicWindowEnd ctx p s) := by
  refine (keepsWf_next _).2 (h.mapDev fun d h => ?_)
  split
  · exact h.homeWindow _ _
  · split
    · next e => exact h.ownerWindow (h.owned? e)
    · exact h

theorem State.Wf.rightMoved {s : State} (h : s.Wf) : s.rightMoved.Wf := by
  unfold State.rightMoved
  extract_lets unit cmd t
  have ht : t.Wf := h.mapDev
  exact ht.foldl (fun _ _ h => h.receive _) _

theorem execAtomicRightHandover_keepsWf {s : State} (h : s.Wf) (ctx page : Nat) (m : RightMove) :
    KeepsWf (execAtomicRightHandover ctx page m s) := by
  refine (keepsWf_next _).2 ?_
  split
  · exact State.Wf.rightMoved (h.mapDev fun _ h => h.mapRight _ _ _)
  · split
    · split
      · refine State.Wf.rightMoved (State.Wf.mapDev ?_ fun _ h => h.mapRight _ _ _)
        split
        · exact h.putPage _ _ _
        · exact h
      · exact h
    · exact h
  · refine State.Wf.ite h (h.mapDev fun d h => ?_)
    exact { h with owned := AllWf_append.2 ⟨h.owned, AllWf_cons.2 ⟨pageMemory_wf _, AllWf_nil⟩⟩ }
  · refine h.mapDev fun d h => ?_
    split
    · exact h.returnRight _
    · exact h

theorem Dev.Wf.collective {d : Dev} (h : d.Wf) (x : Context) (m : CollectiveMessage) : (d.collective x m).Wf := by
  unfold Dev.collective
  extract_lets m' key behind
  split_ifs
  · exact { h with }
  · exact h
  · exact { h with }
  · exact { h with }

theorem execCollectiveMessage_keepsWf {s : State} (h : s.Wf) (m : CollectiveMessage) : KeepsWf (execCollectiveMessage m s) := by
  refine (keepsWf_next _).2 (h.mapDev fun d h => Dev.Wf.emit ?_ _)
  split
  · exact h.collective _ _
  · exact h

/-! ### Replies and failures -/

theorem State.Wf.retain {s : State} (h : s.Wf) (die : Nat) (line : Loc) (seq : W32) (data : List Byte) :
    (s.retain die line seq data).Wf := by
  unfold State.retain
  refine State.Wf.cameIn (h.mapDev fun d h => ?_) _ _
  exact { h.lineCame die line [] with }

theorem State.Wf.atomicReplied {s : State} (h : s.Wf) (a : Access) (l : LaneAccess) (op old : Nat) :
    (s.atomicReplied a l op old).Wf := by
  unfold State.atomicReplied
  split
  · exact h
  · exact (h.clearReservations _ _).addFlags _ _ _

theorem State.Wf.replyLane {s : State} (h : s.Wf) (t : Txn) (bytes : List Byte) (seq : W32) : (s.replyLane t bytes seq).Wf := by
  unfold State.replyLane
  split
  · exact h
  · extract_lets +onlyGivenNames whole data s1 s2 result
    have h1 : s1.Wf := by
      unfold s1
      split
      · exact h.retain _ _ _ _
      · exact h
    have h2 : s2.Wf := by
      unfold s2
      split
      · exact h1.poke _ _
      · exact h1.atomicReplied _ _ _ _
      · exact h1
    clear_value s2
    exact State.Wf.accessEnd (h2.mapDev fun _ h => h.mapAccess _ _) _

theorem State.Wf.lineCame {s : State} (h : s.Wf) (r : Reader) (t : Txn) (data : List Byte) (failure : Option (Nat × Nat)) :
    (s.lineCame r t data failure).Wf := by
  unfold State.lineCame
  exact State.Wf.ite h.mapDev (State.Wf.rightMoved h.mapDev)

theorem State.Wf.relayed {s : State} (h : s.Wf) (i : HeldRequest) (x : FabricReply) : (s.relayed i x).Wf := by
  unfold State.relayed
  split
  · exact h.serve _
  · exact h.answer _ _
  · exact h

theorem State.Wf.failTxn {s : State} (h : s.Wf) (t : Txn) (cause : Nat) : (s.failTxn t cause).Wf := by
  unfold State.failTxn
  extract_lets s1 isCmd
  have h1 : s1.Wf := h.mapDev
  split
  · exact h1.judge _ _ _
  · exact h1.lineCame _ _ _ _
  · exact h1.relayed _ _
  · split
    · exact h1.mapDev fun _ h => { h.setError t.ctx t.peer cause with }
    · exact h1.mapDev fun _ h => h.setError _ _ _
  · split
    · exact h1.mapDev fun _ h => (h.setError _ _ _).cmdFail _ _
    · exact h1.failLane _ _ _ _ _ _

theorem State.Wf.loseLane {s : State} (h : s.Wf) (t : Txn) : (s.loseLane t).Wf := by
  unfold State.loseLane
  split
  · exact h
  · exact State.Wf.accessEnd (h.mapDev fun _ h => h.mapAccess _ _) _

theorem State.Wf.commandReplied {s : State} (h : s.Wf) (t : Txn) (x : FabricReply) : (s.commandReplied t x).Wf := by
  unfold State.commandReplied
  split
  · exact h.mapDev fun _ h => h.cmdFail _ _
  · exact h.failTxn _ _
  · exact h.failTxn _ _
  · exact h.failTxn _ _
  · exact h.mapDev fun _ h => h.mapCmd _ _
  · exact h
  · exact h.mapDev fun _ h => h.mapCmd _ _

theorem State.Wf.replied {s : State} (h : s.Wf) (t : Txn) (x : FabricReply) (data : List Byte) : (s.replied t x data).Wf := by
  unfold State.replied
  split
  · exact h.judge _ _ _
  · exact h.relayed _ _
  · split
    · exact h.lineCame _ _ _ _
    · exact h.lineCame _ _ _ _
    · exact h.lineCame _ _ _ _
  · split
    · exact h.commandReplied _ _
    · split
      · exact h.failTxn _ _
      · exact h.failTxn _ _
      · exact h.failTxn _ _
      · exact State.Wf.ite h (h.lateAddition _ _ _ _)
      · exact h.loseLane _
      · exact h.replyLane _ _ _
      · exact h.replyLane _ _ _

theorem execFabricReply_keepsWf {s : State} (h : s.Wf) (txn : Nat) (r : FabricReply) : KeepsWf (execFabricReply txn r s) := by
  refine (keepsWf_next _).2 ?_
  split
  · exact h
  · extract_lets +onlyGivenNames gone p
    have hg : gone.Wf := h.mapDev
    have hp : p.2.Wf := by
      unfold p
      split
      · exact hg.payload _
      · exact hg
    exact (hp.replied _ _ _).mapDev fun _ h => h.sendHeld

/-! ### Paths, peers and keys -/

theorem execAllowanceGrant_keepsWf {s : State} (h : s.Wf) (dest units : Nat) : KeepsWf (execAllowanceGrant dest units s) :=
  (keepsWf_next _).2 h.mapDev

theorem Dev.Wf.holdPath {d : Dev} (h : d.Wf) (peer port : Nat) : (d.holdPath peer port).Wf := { h with }

theorem Dev.Wf.retrainPort {d : Dev} (h : d.Wf) (port : Nat) : (d.retrainPort port).Wf := h.foldl (fun _ _ h => h.holdPath _ _) _

theorem execLinkRetrainStart_keepsWf {s : State} (h : s.Wf) (peer port : Nat) : KeepsWf (execLinkRetrainStart peer port s) :=
  (keepsWf_next _).2 (h.mapDev fun _ h => h.holdPath _ _)

theorem execLinkRetrainComplete_keepsWf {s : State} (h : s.Wf) (peer : Nat) (link : LinkUp) :
    KeepsWf (execLinkRetrainComplete peer link s) := by
  refine (keepsWf_next _).2 (State.Wf.ite h (h.mapDev fun d h => ?_))
  extract_lets +onlyGivenNames bit old fresh d1 d2
  have h1 : d1.Wf := by
    unfold d1
    split
    · exact h
    · exact { h with }
  have h2 : d2.Wf := by
    unfold d2
    split
    · exact h1.emit _
    · exact h1
  clear_value d2
  refine Dev.Wf.sendHeld ?_
  exact { h2 with }

theorem Dev.Wf.losePage {d : Dev} (h : d.Wf) (ctx page : Nat) : (d.losePage ctx page).Wf := by
  unfold Dev.losePage
  split
  · exact { h with }
  · exact h

theorem State.Wf.peerDown {s : State} (h : s.Wf) (peer : Nat) : (s.peerDown peer).Wf := by
  unfold State.peerDown
  extract_lets s1 s2 s3 gone s4 alone s5
  have h1 : s1.Wf := h.mapDev
  have h2 : s2.Wf := h1.foldl (fun _ _ h => h.failTxn _ _) _
  have h3 : s3.Wf := h2.mapWaves
  have h4 : s4.Wf := h3.mapDev fun d h => by
    have hg : (gone.foldl (fun d r => d.losePage r.ctx r.page) d).Wf := h.foldl (fun _ _ h => h.losePage _ _) _
    exact { hg with owned := h.owned.filter _ }
  have h5 : s5.Wf := h4.mapDev
  exact h5.rightMoved.mapDev fun _ h => h.sendHeld

theorem execRetrainTimeout_keepsWf {s : State} (h : s.Wf) (peer port : Nat) : KeepsWf (execRetrainTimeout peer port s) := by
  refine (keepsWf_next _).2 (State.Wf.ite h ?_)
  have h1 := State.Wf.foldl (f := fun s t => s.failTxn t 1) (h.mapDev (f := fun d => { d with peers := d.peers.map (fun p =>
    if p.id = peer then { p with
      usable := p.usable &&& ~~~BitVec.ofNat 96 (2 ^ port), retraining := p.retraining &&& ~~~BitVec.ofNat 96 (2 ^ port) } else p) }))
    (fun _ _ h => h.failTxn _ _)
  exact State.Wf.ite ((h1 _).peerDown _) ((h1 _).mapDev fun _ h => h.sendHeld)

theorem execPeerLostReport_keepsWf {s : State} (h : s.Wf) (peer : Nat) : KeepsWf (execPeerLostReport peer s) :=
  (keepsWf_next _).2 (h.peerDown _)

theorem Dev.Wf.setKey {d : Dev} (h : d.Wf) (port : Nat) (outbound : Bool) (key : BitVec 256) : (d.setKey port outbound key).Wf :=
  { h with }

theorem Dev.Wf.tagFailed {d : Dev} (h : d.Wf) (port : Nat) : (d.tagFailed port).Wf := by
  unfold Dev.tagFailed
  extract_lets n rest
  have h1 (l : List (Nat × Nat)) : ({ d with tagFails := l } : Dev).Wf := { h with }
  split
  · exact (h1 _).retrainPort _
  · exact h1 _

theorem execFabricUnitReceive_keepsWf {s : State} (h : s.Wf) (port : Nat) (descriptor : BitVec 16)
    (body : Option (List (BitVec 8))) : KeepsWf (execFabricUnitReceive port descriptor body s) := by
  refine (keepsWf_next _).2 (h.mapDev fun d h => ?_)
  split
  · exact h.tagFailed _
  · extract_lets d1 d2
    have h1 : d1.Wf := h.blocksPassed _ _ _
    have h2 : d2.Wf := { h1 with }
    split
    · exact { h2 with }
    · exact h2.retrainPort _

theorem execLinkKeyRollover_keepsWf {s : State} (h : s.Wf) (port : Nat) (outbound : Bool) (key : BitVec 256) :
    KeepsWf (execLinkKeyRollover port outbound key s) :=
  (keepsWf_next _).2 (State.Wf.ite (h.mapDev fun _ h => h.setKey _ _ _) h)

theorem execLinkKey_keepsWf {s : State} (h : s.Wf) (port : Nat) (outbound : Bool) (key : BitVec 256) :
    KeepsWf (execLinkKey port outbound key s) :=
  (keepsWf_next _).2 (State.Wf.ite (h.mapDev fun _ h => h.setKey _ _ _) h)

theorem State.Wf.correctTime {s : State} (h : s.Wf) (offset : Int) : (s.correctTime offset).Wf := by
  unfold State.correctTime
  exact h.mapDev

theorem execTimebaseSync_keepsWf {s : State} (h : s.Wf) (offset : Int) : KeepsWf (execTimebaseSync offset s) :=
  (keepsWf_next _).2 (State.Wf.ite (h.correctTime _) h.mapDev)

theorem execTimeMessage_keepsWf {s : State} (h : s.Wf) (src : Nat) (offset : Int) : KeepsWf (execTimeMessage src offset s) :=
  (keepsWf_next _).2 (State.Wf.ite (h.correctTime _) (h.mapDev fun _ h => h.emit _))

end Sys2Proof.Machine

/-! The matrix arrays, the platform and the snapshots with canonical memories. -/

namespace Sys2Proof.Machine

/-! ### Matrix operations -/

@[simp] theorem Issue.send_priv (c : Issue) (e : Effect) : (c.send e).wave.priv = c.wave.priv := rfl

@[simp] theorem Issue.matrixFlag_priv (c : Issue) (ctx op : Nat) (none_ : Bool) :
    (c.matrixFlag ctx op none_).wave.priv = c.wave.priv := by simp [Issue.matrixFlag]

theorem State.Wf.placeMatrix {s : State} (h : s.Wf) {c : Issue} (hc : c.wave.priv.wf = true) (cores : List Nat)
    (ops : Nat → List (Nat × MatrixOp)) : InstrWf (s.placeMatrix c cores ops) := by
  unfold State.placeMatrix
  extract_lets checking
  have hp : (if c.flushed && !checking then s.flush c else (s, c)).1.Wf ∧
      (if c.flushed && !checking then s.flush c else (s, c)).2.wave.priv.wf = true := by
    split
    · exact h.flush hc
    · exact ⟨h, hc⟩
  split
  next s1 c1 e =>
  rw [e] at hp
  obtain ⟨h1, hc1⟩ := hp
  split
  · exact ⟨h1, trivial⟩
  · split
    next op s2 e2 =>
    refine ⟨h1.fresh.of_snd e2, ?_⟩
    have hm : (List.foldl (fun c m => c.send (.matrix m.1 m.2)) c1 (ops op)).wave.priv.wf = true :=
      foldl_keeps (P := fun c : Issue => c.wave.priv.wf = true) (fun c m h => (c.send_priv _).symm ▸ h) hc1 _
    simpa using hm

theorem execWld_keepsWf {s : State} (h : s.Wf) (d a b : Operand) : KeepsWf (execWld d a b s) := by
  refine keepsWf_onIssue h fun c hc => ?_
  extract_lets off addr n
  split_ifs
  · exact ⟨h, trivial⟩
  · exact ⟨h, trivial⟩
  · exact ⟨h, trivial⟩
  · exact h.placeMatrix hc _ _

theorem execWfmt_keepsWf {s : State} (h : s.Wf) (a : Operand) : KeepsWf (execWfmt a s) := by
  refine keepsWf_onIssue h fun c hc => ?_
  extract_lets x
  split
  · exact ⟨h, trivial⟩
  · exact h.placeMatrix hc _ _

theorem execWswp_keepsWf {s : State} (h : s.Wf) : KeepsWf (execWswp s) :=
  keepsWf_onIssue h fun _ hc => h.placeMatrix hc _ _

theorem State.Wf.multiply {s : State} (h : s.Wf) {c : Issue} (hc : c.wave.priv.wf = true) (part : Bool) (chain : List Nat)
    (d kn : Nat) (b : Operand) : InstrWf (s.multiply c part chain d kn b) := by
  unfold State.multiply
  extract_lets +onlyGivenNames t lw tile size lanes
  split
  · exact ⟨h, trivial⟩
  · split
    · exact ⟨h, trivial⟩
    · split
      · exact ⟨h, trivial⟩
      · extract_lets +onlyGivenNames check bads
        split
        · exact ⟨h, trivial⟩
        · exact h.placeMatrix hc _ _

theorem execMma_keepsWf {s : State} (h : s.Wf) (d a b : Operand) : KeepsWf (execMma d a b s) :=
  keepsWf_onIssue h fun _ hc => h.multiply hc _ _ _ _ _

theorem execMmac_keepsWf {s : State} (h : s.Wf) (d a b : Operand) : KeepsWf (execMmac d a b s) :=
  keepsWf_onIssue h fun _ hc => h.multiply hc _ _ _ _ _

theorem execMmz_keepsWf {s : State} (h : s.Wf) (d : Operand) : KeepsWf (execMmz d s) :=
  keepsWf_onIssue h fun _ hc => h.placeMatrix hc _ _

theorem State.Wf.matrixDone {s : State} (h : s.Wf) (core : Nat) (m : MatrixOp) : (s.matrixDone core m).Wf :=
  State.Wf.accessEnd (h.mapDev fun _ h => h.mapCore _) _

@[simp] theorem Wave.putD_priv (w : Wave) (d : Nat) (e : DElem) : (w.putD d e).priv = w.priv := rfl

theorem State.Wf.writeD {s : State} (h : s.Wf) (core op : Nat) (of_ : ResultsOf) (id : WaveId) (d : Nat) (els : List DElem)
    (p : DPart) : (s.writeD core op of_ id d els p).Wf := by
  unfold State.writeD
  extract_lets now left s1 s2 m
  have h1 : s1.Wf := h.onWave _ fun w h =>
    foldl_keeps (P := fun w : Wave => w.priv.wf = true) (fun w e h => (w.putD_priv d e).symm ▸ h) h _
  have h2 : s2.Wf := h1.mapDev fun _ h => h.foldl (fun _ _ h => h.coverDest _ _ _) _
  exact State.Wf.ite (h2.matrixDone _ _) (h2.mapDev fun _ h => h.mapCore _)

theorem State.Wf.runMma {s : State} (h : s.Wf) (wantPart : Bool) (p : DPart) : (s.runMma wantPart p).Wf := by
  unfold State.runMma
  extract_lets core c
  split
  · exact State.Wf.ite (h.writeD _ _ _ _ _ _ _) h
  · split
    · exact h
    · exact State.Wf.writeD (h.mapDev fun _ h => h.mapAccess _ _) _ _ _ _ _ _ _
  · exact h

theorem execMatrixOperation_keepsWf {s : State} (h : s.Wf) (core : DPart) : KeepsWf (execMatrixOperation core s) :=
  (keepsWf_next _).2 (h.runMma _ _)

theorem execMmacPart_keepsWf {s : State} (h : s.Wf) (core : DPart) : KeepsWf (execMmacPart core s) :=
  (keepsWf_next _).2 (h.runMma _ _)

theorem execMmzWrite_keepsWf {s : State} (h : s.Wf) (core : DPart) : KeepsWf (execMmzWrite core s) := by
  refine (keepsWf_next _).2 ?_
  split
  · exact State.Wf.ite (h.writeD _ _ _ _ _ _ _) h
  · exact State.Wf.ite h (h.writeD _ _ _ _ _ _ _)
  · exact h

theorem Dev.Wf.coverBank {d : Dev} (h : d.Wf) (core off n : Nat) : (d.coverBank core off n).Wf := { h with }

/-- R149. The load bank of a core changes, and stays canonical if the change keeps it so. -/
theorem Dev.Wf.mapLoad {d : Dev} (h : d.Wf) (core : Nat) {f : Memory × BitVec 4 × BitVec 16 → Memory × BitVec 4 × BitVec 16}
    (hf : ∀ b, b.1.wf = true → (f b).1.wf = true) : (d.mapCore core fun c => c.mapLoad f).Wf := by
  refine h.mapCore _ (fun c h => ?_) fun c h => ?_
  · unfold Core.mapLoad
    split
    · exact hf _ h
    · exact h
  · unfold Core.mapLoad
    split
    · exact h
    · exact hf _ h

theorem execWeightLoadAccept_keepsWf {s : State} (h : s.Wf) (core : Nat) : KeepsWf (execWeightLoadAccept core s) := by
  refine (keepsWf_next _).2 ?_
  split
  · next off _ n _ _ _ =>
    extract_lets m place load
    have hl (bs : List Byte) : (load bs).Wf := State.Wf.matrixDone
      (h.mapDev fun _ h => (h.coverBank _ _ _).mapLoad _ fun _ h => Memory.writeN_wf _ _ h) _ _
    clear_value load
    split
    · exact hl _
    · split
      · exact h
      · split
        · exact hl _
        · exact State.Wf.matrixDone (h.mapDev fun _ h => h.mapAccess _ _) _ _
  · exact h

theorem execFormatLatch_keepsWf {s : State} (h : s.Wf) (core : Nat) : KeepsWf (execFormatLatch core s) := by
  refine (keepsWf_next _).2 ?_
  split
  · refine State.Wf.matrixDone (h.mapDev fun _ h => h.mapLoad _ fun b h => ?_) _ _
    exact h
  · exact h

theorem execBankSwap_keepsWf {s : State} (h : s.Wf) (core : Nat) : KeepsWf (execBankSwap core s) := by
  refine (keepsWf_next _).2 ?_
  split
  · exact State.Wf.matrixDone (h.mapDev fun _ h => h.mapCore _) _ _
  · exact h

/-! ### Resets, power and heat -/

theorem Dev.reset_wf : Dev.reset.Wf := by
  constructor <;> simp [Dev.reset, AllWf]

theorem Dev.Wf.restarted {d : Dev} (h : d.Wf) : d.restarted.Wf := { Dev.reset_wf with hbm := h.hbm, host := h.host }

theorem State.Wf.restart {s : State} (h : s.Wf) {f : Dev → Dev} (hf : ∀ d, d.Wf → (f d).Wf) : (s.restart f).Wf :=
  ⟨hf _ h.dev, AllWf_nil, AllWf_nil⟩

theorem execFundamentalReset_keepsWf {s : State} (h : s.Wf) (signatureGood : Bool) : KeepsWf (execFundamentalReset signatureGood s) :=
  (keepsWf_next _).2 (h.restart fun _ h => { Dev.reset_wf with host := h.host })

theorem execFunctionLevelReset_keepsWf {s : State} (h : s.Wf) : KeepsWf (execFunctionLevelReset s) :=
  (keepsWf_next _).2 (h.restart fun _ h => { h.restarted with })

theorem execBringupStageComplete_keepsWf {s : State} (h : s.Wf) (r : StageResult) : KeepsWf (execBringupStageComplete r s) := by
  refine (keepsWf_next _).2 (h.mapDev fun d h => ?_)
  extract_lets p code
  have hc (n : Nat) : (code n).Wf := by
    unfold code
    split
    · exact { h with }
    · exact h
  clear_value code
  split
  · exact h
  · split
    · exact { h with }
    · split
      · exact { h with }
      · exact h
    · exact hc _
    · exact hc _
    · exact hc _

theorem execPowerHold_keepsWf {s : State} (h : s.Wf) (watts : Nat) : KeepsWf (execPowerHold watts s) :=
  (keepsWf_next _).2 h.mapDev

theorem State.Wf.trip {s : State} (h : s.Wf) (celsius : Nat) : (s.trip celsius).Wf :=
  h.restart fun _ h => { h.restarted with }

theorem execThermalHold_keepsWf {s : State} (h : s.Wf) (junctions : List Nat) : KeepsWf (execThermalHold junctions s) := by
  refine (keepsWf_next _).2 ?_
  extract_lets s1
  have h1 : s1.Wf := h.mapDev
  split
  · exact h1.trip _
  · refine h1.mapDev fun d h => ?_
    dsimp only
    split
    · exact { h with }
    · exact { h with }

theorem execThermalTrip_keepsWf {s : State} (h : s.Wf) (celsius : Nat) : KeepsWf (execThermalTrip celsius s) :=
  (keepsWf_next _).2 (State.Wf.ite h (h.trip _))

theorem execTelemetry_keepsWf {s : State} (h : s.Wf) : KeepsWf (execTelemetry s) :=
  (keepsWf_next _).2 (State.Wf.mapDev h.draw fun _ h => h.emit _)

theorem execPowerCap_keepsWf {s : State} (h : s.Wf) (watts : Nat) : KeepsWf (execPowerCap watts s) :=
  (keepsWf_next _).2 (State.Wf.ite h.mapDev h)

theorem execAttest_keepsWf {s : State} (h : s.Wf) (nonce : List (BitVec 8)) : KeepsWf (execAttest nonce s) :=
  (keepsWf_next _).2 (h.mapDev fun _ h => h.emit _)

theorem execStageFirmware_keepsWf {s : State} (h : s.Wf) (image : List (BitVec 8)) : KeepsWf (execStageFirmware image s) :=
  (keepsWf_next _).2 h.mapDev

/-! ### Snapshots -/

theorem State.Wf.snapshotCheck {s : State} (h : s.Wf) (c : EngineCmd) (base length : Nat) :
    (s.snapshotCheck c base length).1.Wf := by
  fun_cases State.snapshotCheck s c base length
  · exact State.Wf.foldl h (fun _ _ h => h.mapDev fun _ h => h.recallPage _ _) _
  · exact h.dropsRequest _ _
  · exact h

theorem State.Wf.stampPage {s : State} (h : s.Wf) (ctx step va : Nat) : (State.stampPage ctx step s va).Wf := by
  unfold State.stampPage
  split
  · exact h.storeAt _ _ _
  · exact h

theorem Dev.Wf.writeHome {d : Dev} (h : d.Wf) (sp : Space) (a n : Nat) : (d.writeHome sp a n).Wf := { h with }

theorem State.Wf.pageHome {s : State} (h : s.Wf) (ctx va : Nat) : (State.pageHome ctx s va).Wf := by
  unfold State.pageHome
  split
  · exact h.mapDev fun _ h => h.writeHome _ _ _
  · exact h

theorem State.Wf.runPub {s : State} (h : s.Wf) (c : EngineCmd) : (s.runPub c).1.Wf := by
  unfold State.runPub
  extract_lets +onlyGivenNames base length advance step pages
  split
  · exact h
  · split
    · exact h
    · split
      · exact (h.snapshotCheck _ _ _).of_fst ‹_›
      · next e =>
        have h1 := (h.snapshotCheck _ _ _).of_fst e
        split
        · exact h1
        · have h2 := (h1.foldl (f := State.stampPage c.ctx step) (fun _ _ h => h.stampPage _ _ _) pages).mapDev
            fun _ h => h.tlbDrop c.ctx base length
          exact State.Wf.foldl (State.Wf.ite (h2.mapDev fun _ h => h.mapCtx _ _) h2) (fun _ _ h => h.pageHome _ _) _

theorem execPubStamp_keepsWf {s : State} (h : s.Wf) (cmd : Nat) : KeepsWf (execPubStamp cmd s) :=
  h.runEngine _ _ fun _ c h => h.runPub c

theorem Dev.Wf.dropL1Version {d : Dev} (h : d.Wf) (sp : Space) (a : Nat) : (d.dropL1Version sp a).Wf := h.mapCores

theorem State.Wf.retirePage {acc : State × Nat} (h : acc.1.Wf) (ctx r va : Nat) : (State.retirePage ctx r acc va).1.Wf := by
  unfold State.retirePage
  split
  · next l cur rest _ =>
    extract_lets +onlyGivenNames gone
    split
    · exact h
    · extract_lets +onlyGivenNames at_ s1 s2 s3
      have h1 : s1.Wf := State.Wf.foldl h (fun _ _ h => h.revokeFrame _ _ _ _ _) _
      have h2 : s2.Wf := h1.storeAt _ _ _
      have h3 : s3.Wf := h2.mapDev fun _ h => h.foldl (fun _ _ h => h.dropL1Version _ _) _
      dsimp only
      exact h3.mapDev
  · exact h

theorem State.Wf.runVret {s : State} (h : s.Wf) (c : EngineCmd) : (s.runVret c).1.Wf := by
  fun_cases State.runVret s c
  · exact h
  · exact (h.snapshotCheck _ _ _).of_fst ‹_›
  · next pages _ t _ e acc =>
    clear_value pages
    exact foldl_keeps (P := fun acc : State × Nat => acc.1.Wf) (fun _ _ h => State.Wf.retirePage h _ _ _)
      ((h.snapshotCheck _ _ _).of_fst e) _

theorem execVretRetire_keepsWf {s : State} (h : s.Wf) (cmd : Nat) : KeepsWf (execVretRetire cmd s) :=
  h.runEngine _ _ fun _ c h => h.runVret c

theorem execFrameReturn_keepsWf {s : State} (h : s.Wf) (n : Nat) : KeepsWf (execFrameReturn n s) := by
  refine (keepsWf_next _).2 ?_
  split
  · exact h
  · split
    · exact h
    · extract_lets s1
      have h1 : s1.Wf := h.mapDev
      split
      · exact h1.poolReturn _ _ _
      · exact h1

end Sys2Proof.Machine

/-! The driver's window with canonical memories. -/

namespace Sys2Proof.Machine

theorem State.Wf.eachContext {s : State} (h : s.Wf) (size at_ : Nat) (b : List Byte) (f : Context → Nat → List Byte → Context) :
    (s.eachContext size at_ b f).Wf := h.foldl (fun _ _ h => h.mapDev fun _ h => h.setContext _) _

theorem State.Wf.writeRevocation {s : State} (h : s.Wf) (at_ : Nat) (b : List Byte) : (s.writeRevocation at_ b).Wf := by
  unfold State.writeRevocation
  extract_lets r s1
  have h1 : s1.Wf := h.mapDev
  exact State.Wf.ite (h1.startRevocation _) h1

theorem State.Wf.writeCommand {s : State} (h : s.Wf) (at_ : Nat) (b : List Byte) : (s.writeCommand at_ b).Wf := by
  unfold State.writeCommand
  extract_lets r runs src c s1
  have h1 : s1.Wf := h.mapDev
  exact State.Wf.ite (h1.startCommand _ _ _ _ _) h1

theorem State.Wf.writeRegister {s : State} (h : s.Wf) (offset : Nat) (b : List Byte) : (s.writeRegister offset b).Wf := by
  unfold State.writeRegister
  extract_lets within
  have tail : (if within 0x840100 256 then s.eachContext 4 (offset - 0x840100) b (fun c at_ x =>
        if at_ = 0 ∧ leNat x = 0 then { c with poolOverflow := 0 } else c)
      else if within 0x840200 1024 then s.eachContext 16 (offset - 0x840200) b (fun c at_ x =>
        if at_ ≤ 12 ∧ 12 < at_ + x.length ∧ leNat (x.drop (12 - at_)) = 0 then c.clearWalker else c)
      else s : State).Wf := .ite (h.eachContext _ _ _ _) (.ite (h.eachContext _ _ _ _) h)
  exact .ite h (.ite (h.eachContext _ _ _ _) (.ite (h.eachContext _ _ _ _) (.ite (h.eachContext _ _ _ _)
    (.ite (h.writeRevocation _ _) (.ite (h.writeCommand _ _) tail)))))

theorem Dev.Wf.writeAccess {d : Dev} (h : d.Wf) (target master : Nat) (e : W64) : (d.writeAccess target master e).Wf := { h with }

theorem Dev.Wf.writeRegion {d : Dev} (h : d.Wf) (target index base limit : Nat) : (d.writeRegion target index base limit).Wf :=
  { h with }

theorem Dev.Wf.loadConstants {d : Dev} (h : d.Wf) (ctx codeBase codeLimit : Nat) (data : List Byte) :
    (d.loadConstants ctx codeBase codeLimit data).Wf :=
  { h with consts := AllWf_cons.2 ⟨Memory.writeN_wf 0 data rfl, h.consts.filter _⟩ }

theorem execRegisterWrite_keepsWf {s : State} (h : s.Wf) (at_ : DriverField) (data : List (BitVec 8)) :
    KeepsWf (execRegisterWrite at_ data s) := by
  refine (keepsWf_next _).2 ?_
  cases at_ with
  | window offset => exact h.writeRegister _ _
  | access target master => exact State.Wf.ite (h.mapDev fun _ h => h.writeAccess _ _ _) h
  | region target index => exact State.Wf.ite (h.mapDev fun _ h => h.writeRegion _ _ _ _) h
  | grant source => exact State.Wf.ite h.mapDev h
  | shares => exact State.Wf.ite h.mapDev h
  | constants ctx codeBase codeLimit => exact State.Wf.ite (h.mapDev fun _ h => h.loadConstants _ _ _ _) h

theorem execRevocation_keepsWf {s : State} (h : s.Wf) (ctx : Nat) (base length : BitVec 64) :
    KeepsWf (execRevocation ctx base length s) := (keepsWf_next _).2 (State.Wf.ite h (h.startRevocation _))

theorem execErrorBitClear_keepsWf {s : State} (h : s.Wf) (ctx : Nat) (mask : BitVec 512) : KeepsWf (execErrorBitClear ctx mask s) :=
  (keepsWf_next _).2 (State.Wf.ite h (h.mapDev fun _ h => h.mapCtx _ _))

theorem execPoolOverflowClear_keepsWf {s : State} (h : s.Wf) (ctx : Nat) : KeepsWf (execPoolOverflowClear ctx s) :=
  (keepsWf_next _).2 (State.Wf.ite h (h.mapDev fun _ h => h.mapCtx _ _))

theorem execWalkerFaultClear_keepsWf {s : State} (h : s.Wf) (ctx : Nat) : KeepsWf (execWalkerFaultClear ctx s) :=
  (keepsWf_next _).2 (State.Wf.ite h (h.mapDev fun _ h => h.mapCtx _ _))

theorem State.Wf.hostRead {s : State} (h : s.Wf) (n : Nat) (byte : Nat → Byte) : (s.hostRead n byte).Wf :=
  h.mapDev fun _ h => h.emit _

theorem execBar4Access_keepsWf {s : State} (h : s.Wf) (pa : Nat) (acc : HostAccess) : KeepsWf (execBar4Access pa acc s) := by
  refine (keepsWf_next _).2 ?_
  cases acc with
  | read n => exact h.hostRead _ _
  | write data => exact State.Wf.ite h (h.storeAt _ _ _)
  | readWindow n => exact h.hostRead _ _
  | readDoorbell n => exact h.hostRead _ _

end Sys2Proof.Machine

/-! The instructions whose meaning has a shape of its own, with canonical memories: control, system and mask instructions. -/

namespace Sys2Proof.Machine

/-! ### What a clause answers -/

@[simp] theorem Issue.mapWave_priv (c : Issue) (f : Wave → Wave) : (c.mapWave f).wave.priv = (f c.wave).priv := rfl

section
variable {c : Issue} (hc : c.wave.priv.wf = true)
include hc

theorem clauseWf_compute (d : Operand) (wide : Bool) (f : Nat → Nat × FpFlags) : Except.ClauseWf (.ok (c.compute d wide f)) := by
  simpa using hc

theorem clauseWf_raw (d : Operand) (wide : Bool) (f : Nat → Nat) : Except.ClauseWf (.ok (c.raw d wide f)) := by
  simpa using hc

theorem clauseWf_writeVec (d : Operand) (wide : Bool) (rs : List (Nat × W64)) : Except.ClauseWf (.ok (c.writeVec d wide rs)) := by
  simpa using hc

theorem clauseWf_setPth (x : Path) : Except.ClauseWf (.ok (c.setPth x)) := by
  simpa using hc

theorem clauseWf_predOp (q : BitVec 4) (x : Lanes) : Except.ClauseWf (.ok (c.predOp q x)) := by
  simpa [Issue.predOp] using hc

theorem clauseWf_compareOp (q : BitVec 4) (a b : Operand) (anyNaN : Bool) (f : Option Ordering → Bool) :
    Except.ClauseWf (.ok (c.compareOp q a b anyNaN f)) := by
  simpa [Issue.compareOp] using hc

theorem clauseWf_carryOp (d a b : Operand) (f : Nat → Nat → Nat → Int) : Except.ClauseWf (c.carryOp d a b f) :=
  clauseWf_needType _ (by simpa using hc)

theorem clauseWf_convertOp (d a : Operand) (t : EType) : Except.ClauseWf (c.convertOp d a t) :=
  clauseWf_needType _ (by simpa using hc)

/-- R270. A divergence leaves the own space alone. -/
theorem clauseWf_diverge (det : Bool) (j : W64) (arms : List Arm) : Except.ClauseWf (c.diverge det j arms) := by
  fun_cases Issue.diverge c det j arms
  · exact hc
  · trivial
  · simpa using hc
  · simpa using hc
  · simpa using hc
  · exact hc

end

/-! ### Control -/

theorem execBif_keepsWf {s : State} (h : s.Wf) (q : BitVec 4) (i : BitVec 16) : KeepsWf (execBif q i s) := by
  refine keepsWf_onIssue h fun c hc => ⟨h, ?_⟩
  extract_lets +onlyGivenNames t n target
  split
  · trivial
  · extract_lets src c'
    have hc' : c'.wave.priv.wf = true := by simpa [c'] using hc
    split_ifs
    · exact hc'
    · simpa using hc'
    · exact clauseWf_diverge hc' _ _ _

theorem execBany_keepsWf {s : State} (h : s.Wf) (q : BitVec 4) (i : BitVec 16) : KeepsWf (execBany q i s) := by
  refine keepsWf_onClause h fun c hc => ?_
  split
  · simpa using hc
  · exact hc

theorem execBall_keepsWf {s : State} (h : s.Wf) (q : BitVec 4) (i : BitVec 16) : KeepsWf (execBall q i s) := by
  refine keepsWf_onClause h fun c hc => ?_
  split
  · simpa using hc
  · exact hc

theorem execRet_keepsWf {s : State} (h : s.Wf) (a : Nat) : KeepsWf (execRet a s) := by
  refine keepsWf_onClause h fun c hc => ?_
  extract_lets +onlyGivenNames t
  split
  · trivial
  · simpa using hc

theorem execLoop_keepsWf {s : State} (h : s.Wf) (a : Nat) (n : BitVec 8) : KeepsWf (execLoop a n s) := by
  refine keepsWf_onClause h fun c hc => ?_
  extract_lets +onlyGivenNames stop count
  split_ifs
  · exact hc
  · trivial
  · exact clauseWf_setPth hc _

theorem execLbrk_keepsWf {s : State} (h : s.Wf) (q : BitVec 4) : KeepsWf (execLbrk q s) := by
  refine keepsWf_onClause h fun c hc => ?_
  extract_lets +onlyGivenNames x m
  split
  · trivial
  · extract_lets e
    split_ifs
    · exact hc
    · simpa +zetaDelta using hc
    · exact clauseWf_setPth hc _

theorem execWcnt_keepsWf {s : State} (h : s.Wf) (p : BitVec 2) (a : Nat) : KeepsWf (execWcnt p a s) := by
  refine keepsWf_onClause h fun c hc => ?_
  extract_lets raised src
  clear_value raised
  cases raised
  · exact clauseWf_setPth hc _
  · trivial

theorem execTrig_keepsWf {s : State} (h : s.Wf) : KeepsWf (execTrig s) := by
  refine keepsWf_onClause h fun c hc => ?_
  split
  · trivial
  · simpa using hc

theorem execBar_keepsWf {s : State} (h : s.Wf) (cluster : Bool) (n : BitVec 4) : KeepsWf (execBar cluster n s) := by
  refine keepsWf_onClause h fun c hc => ?_
  split
  · trivial
  · simpa using hc

theorem execExit_keepsWf {s : State} (h : s.Wf) : KeepsWf (execExit s) := by
  refine keepsWf_onClause h fun c hc => ?_
  extract_lets +onlyGivenNames m last
  split
  · trivial
  · simpa using hc

/-! ### System and mask instructions -/

theorem execSyswr_keepsWf {s : State} (h : s.Wf) (a : Operand) (n : SpecialReg) : KeepsWf (execSyswr a n s) := by
  refine keepsWf_onClause h fun c hc => ?_
  split
  · exact hc
  · split <;> exact hc

theorem execYield_keepsWf {s : State} (h : s.Wf) : KeepsWf (execYield s) := by
  refine keepsWf_onIssue h fun c hc => ⟨h, ?_⟩
  dsimp only
  split <;> exact hc

theorem execBsa_keepsWf {s : State} (h : s.Wf) (k : Nat) (i : BitVec 16) : KeepsWf (execBsa k i s) := by
  refine keepsWf_onIssue h fun c hc => ⟨h, ?_⟩
  extract_lets +onlyGivenNames x
  split_ifs
  · trivial
  · exact hc
  · simpa using hc
  · exact hc

theorem execSal_keepsWf {s : State} (h : s.Wf) (d a : Operand) : KeepsWf (execSal d a s) := by
  refine keepsWf_onIssue h fun c hc => ⟨h, ?_⟩
  extract_lets +onlyGivenNames scalar dest bad
  split
  · trivial
  · exact clauseWf_raw hc _ _ _

theorem execSpcfg_keepsWf {s : State} (h : s.Wf) (a : Nat) : KeepsWf (execSpcfg a s) := by
  refine keepsWf_onIssue h fun c hc => ?_
  extract_lets +onlyGivenNames n cur fused
  split_ifs
  · exact ⟨h, trivial⟩
  · exact ⟨h, hc⟩
  · exact ⟨h.mapDev fun _ h => h.convertWays _ _, hc⟩

theorem execQpop_keepsWf {s : State} (h : s.Wf) (d : Operand) (a : BitVec 4) : KeepsWf (execQpop d a s) := by
  refine keepsWf_onClause h fun c hc => ?_
  extract_lets +onlyGivenNames n
  split
  · exact hc
  · exact clauseWf_writeVec hc _ _ _

end Sys2Proof.Machine

/-! R2. Every instruction, and every event, keeps the canonical form of every memory. -/

namespace Sys2Proof.Machine

theorem keepsWf_lateOp1 {s : State} (h : s.Wf) (d a : Operand) (f : Issue → FVal → Nat × FpFlags) :
    KeepsWf (s.lateOp1 d a f) :=
  keepsWf_onIssue h fun _ hc => h.computeLate hc _ _ _

/-- R2. No instruction and no event leaves a memory that is not canonical. -/
theorem exec_keepsWf {s : State} (h : s.Wf) (i : Instr) : KeepsWf (exec i s) := by
  unfold exec
  cases i with
  | nop | call _ _ | trap _ | brk _ | wset _ | kq _ _ =>
    exact keepsWf_onClause h fun _ hc => hc
  | mode _ _ | join _ | wchk _ _ =>
    exact keepsWf_onClause h fun _ hc => clauseWf_setPth hc _
  | bra _ =>
    exact keepsWf_onClause h fun c hc => by simpa using hc
  | sysrd _ _ | clk _ =>
    exact keepsWf_onIssue h fun _ hc => ⟨h, clauseWf_raw hc _ _ _⟩
  | add _ _ _ | sub _ _ _ | mul _ _ _ | mulh _ _ _ | mulw _ _ _ | mad _ _ _ | min _ _ _ | max _ _ _ | abs _ _
  | neg _ _ | and _ _ _ | or _ _ _ | xor _ _ _ | andn _ _ _ | not _ _ | shl _ _ _ | shr _ _ _ | sra _ _ _
  | rotl _ _ _ | rotr _ _ _ | clz _ _ | ctz _ _ | popc _ _ | brev _ _ | bfe _ _ _ | bfi _ _ _ | bzi _ _ _ | bsp3 _ _
  | bcp3 _ _ | lea _ _ _ | mov _ _ | dp4 _ _ _ | bmsk _ _ _ | sat _ _ | csub _ _ _ | fadd _ _ _ | fsub _ _ _
  | fmul _ _ _ | fma _ _ _ | fms _ _ _ | fnma _ _ _ | fmin _ _ _ | fmax _ _ _ | fabs _ _ | fneg _ _ | fcps _ _ _
  | fflr _ _ | fcel _ _ | ftrc _ _ | frnd _ _ | fldx _ _ _ | fgtx _ _ | fcls _ _ | bsc _ _ | bsq _ _ _ | radd _ _
  | rmin _ _ | rmax _ _ | pfx _ _ =>
    exact keepsWf_onClause h fun _ hc => clauseWf_alu hc _ _ _ _
  | addc _ _ _ | subb _ _ _ =>
    exact keepsWf_onClause h fun _ hc => clauseWf_carryOp hc _ _ _ _
  | sad _ _ _ =>
    exact keepsWf_onClause h fun _ hc => clauseWf_needType _ (by simpa using hc)
  | fdiv _ _ _ =>
    exact keepsWf_onIssue h fun _ hc => h.computeLate hc _ _ _
  | fsqrt _ _ | frcp _ _ | frsq _ _ | fex2 _ _ | flg2 _ _ | fsnp _ _ | fcsp _ _ | ftnh _ _ =>
    exact keepsWf_lateOp1 h _ _ _
  | cvd _ _ | cvs _ _ | cvh _ _ | cvb _ _ | cv8 _ _ | cv6 _ _ | cv4 _ _ | cvi _ _ | cvn _ _ =>
    exact keepsWf_onClause h fun _ hc => clauseWf_convertOp hc _ _ _
  | ceq _ _ _ | cne _ _ _ | clt _ _ _ | cle _ _ _ | cgt _ _ _ | cge _ _ _ | cun _ _ _ =>
    exact keepsWf_onClause h fun _ hc => clauseWf_compareOp hc _ _ _ _ _
  | sel _ _ _ | cmpr _ _ | expd _ _ =>
    exact keepsWf_onClause h fun _ hc => clauseWf_writeVec hc _ _ _
  | qand _ _ _ | qor _ _ _ | qxor _ _ _ | qnot _ _ | qmov _ _ | qmsk _ _ =>
    exact keepsWf_onClause h fun _ hc => clauseWf_predOp hc _ _
  | shf _ _ _ | shx _ _ _ | shup _ _ _ | shdn _ _ _ | qswx _ _ | qswy _ _ | qswd _ _ | qbc _ _ _ | sldu _ _ _
  | sldd _ _ _ | mtch _ _ | mtcn _ _ | rbor _ _ | rband _ _ | bcl _ _ _ | vote _ _ | topk _ _ _ | ffs _ _ =>
    exact keepsWf_onClause h fun _ hc => clauseWf_compute hc _ _ _
  | ldg _ _ _ | lds _ _ _ | ldcl _ _ _ | ldp _ _ _ | ldk _ _ _ | ldf _ _ _ | ldv _ _ _ | ldr _ _ _ =>
    exact keepsWf_onIssue h fun _ hc => h.loadOp hc _ _ _ _ _ _
  | stg _ _ _ | sts _ _ _ | stcl _ _ _ | stp _ _ _ | stf _ _ _ =>
    exact keepsWf_onIssue h fun _ hc => h.storeOp hc _ _ _ _ _
  | ldgs _ _ _ | stsg _ _ _ =>
    exact keepsWf_onIssue h fun _ hc => h.copyOp hc _ _ _ _ _ _
  | lde _ _ _ | lfe _ _ _ =>
    exact keepsWf_onIssue h fun _ hc => h.earlyOp hc _ _ _ _ _
  | aadd _ _ _ | afad _ _ _ | amin _ _ _ | amax _ _ _ | aand _ _ _ | aor _ _ _ | axor _ _ _ | axch _ _ _ | acas _ _ _
  | asad _ _ _ | ascs _ _ _ | xadd _ _ _ | xcas _ _ _ =>
    exact keepsWf_onIssue h fun _ hc => h.atomicOp hc _ _ _ _ _ _
  | spm _ | spj _ | sbn _ | sst _ | sbl _ | sbk _ =>
    exact keepsWf_splatIssue h _ _
  | cpy _ | lxf _ | hxc _ | ared _ | pub _ | vret _ | ckp _ =>
    exact keepsWf_onIssue h fun _ hc => h.engineIssue hc _ _
  | cpyExecution _ =>
    exact h.runEngine _ _ fun _ c h => h.runCpy c
  | lxfExecution _ =>
    exact h.runEngine _ _ fun _ c h => h.runLxf c
  | ckpDrain _ =>
    exact h.runEngine _ _ fun _ c h => .fst_ite (h.runDrain c) h
  | ckpLoad _ =>
    exact h.runEngine _ _ fun _ c h => .fst_ite (h.runLoad c) h
  | ckpRevert _ =>
    exact h.runEngine _ _ fun _ c h => .fst_ite (h.runRevert c) h
  | bany q imm => exact execBany_keepsWf h q imm
  | ball q imm => exact execBall_keepsWf h q imm
  | ret a => exact execRet_keepsWf h a
  | loop a n => exact execLoop_keepsWf h a n
  | lbrk q => exact execLbrk_keepsWf h q
  | wcnt p a => exact execWcnt_keepsWf h p a
  | trig => exact execTrig_keepsWf h
  | bar z n => exact execBar_keepsWf h z n
  | exit => exact execExit_keepsWf h
  | syswr a n => exact execSyswr_keepsWf h a n
  | yield => exact execYield_keepsWf h
  | bsa k imm => exact execBsa_keepsWf h k imm
  | sal d a => exact execSal_keepsWf h d a
  | spcfg a => exact execSpcfg_keepsWf h a
  | cond a b => exact execCond_keepsWf h a b
  | enq a b => exact execEnq_keepsWf h a b
  | qpop d a => exact execQpop_keepsWf h d a
  | stcn d a b => exact execStcn_keepsWf h d a b
  | fnc k z => exact execFnc_keepsWf h k z
  | fsys d a b => exact execFsys_keepsWf h d a b
  | wld d a b => exact execWld_keepsWf h d a b
  | wfmt a => exact execWfmt_keepsWf h a
  | wswp => exact execWswp_keepsWf h
  | mma d a b => exact execMma_keepsWf h d a b
  | mmac d a b => exact execMmac_keepsWf h d a b
  | mmz d => exact execMmz_keepsWf h d
  | clauseIssue dom => exact execClauseIssue_keepsWf h dom
  | ageingSwitch w => exact execAgeingSwitch_keepsWf h w
  | detPathSwitch w => exact execDetPathSwitch_keepsWf h w
  | longLatencyCompletion op a => exact execLongLatencyCompletion_keepsWf h op a
  | accessPerformed op count => exact execAccessPerformed_keepsWf h op count
  | counterDecrement launch group ctr => exact execCounterDecrement_keepsWf h launch group ctr
  | groupPlacement launch hw => exact execGroupPlacement_keepsWf h launch hw
  | isobarMinimumUpdate w => exact execIsobarMinimumUpdate_keepsWf h w
  | watchdogExpiry launch => exact execWatchdogExpiry_keepsWf h launch
  | watchVerdict w entry strike => exact execWatchVerdict_keepsWf h w entry strike
  | firstTouchFill n => exact execFirstTouchFill_keepsWf h n
  | frameReturn n => exact execFrameReturn_keepsWf h n
  | engineQueueAccept cmd => exact execEngineQueueAccept_keepsWf h cmd
  | pubStamp cmd => exact execPubStamp_keepsWf h cmd
  | vretRetire cmd => exact execVretRetire_keepsWf h cmd
  | hxcExecution cmd => exact execHxcExecution_keepsWf h cmd
  | aredExecution cmd => exact execAredExecution_keepsWf h cmd
  | aredLimitExpiry cmd => exact execAredLimitExpiry_keepsWf h cmd
  | splatQueueAccept unit => exact execSplatQueueAccept_keepsWf h unit
  | splatParameterSet unit => exact execSplatParameterSet_keepsWf h unit
  | projection unit => exact execProjection_keepsWf h unit
  | binning unit => exact execBinning_keepsWf h unit
  | tileSort unit => exact execTileSort_keepsWf h unit
  | blend unit => exact execBlend_keepsWf h unit
  | gradientGather unit => exact execGradientGather_keepsWf h unit
  | weightLoadAccept core => exact execWeightLoadAccept_keepsWf h core
  | formatLatch core => exact execFormatLatch_keepsWf h core
  | bankSwap core => exact execBankSwap_keepsWf h core
  | matrixOperation core => exact execMatrixOperation_keepsWf h core
  | mmacPart core => exact execMmacPart_keepsWf h core
  | mmzWrite core => exact execMmzWrite_keepsWf h core
  | bringupStageComplete r => exact execBringupStageComplete_keepsWf h r
  | atomicRightHandover ctx page m => exact execAtomicRightHandover_keepsWf h ctx page m
  | atomicWindowEnd ctx p => exact execAtomicWindowEnd_keepsWf h ctx p
  | doorbell ctx addr => exact execDoorbell_keepsWf h ctx addr
  | graphAcceptance ctx => exact execGraphAcceptance_keepsWf h ctx
  | nodeStart graph node => exact execNodeStart_keepsWf h graph node
  | nodeCompletion graph node => exact execNodeCompletion_keepsWf h graph node
  | timedNodeExpiry graph node => exact execTimedNodeExpiry_keepsWf h graph node
  | preempt c => exact execPreempt_keepsWf h c
  | contextSave ctx => exact execContextSave_keepsWf h ctx
  | restore c => exact execRestore_keepsWf h c
  | resume c => exact execResume_keepsWf h c
  | free c => exact execFree_keepsWf h c
  | revocation ctx base length => exact execRevocation_keepsWf h ctx base length
  | errorBitClear ctx mask => exact execErrorBitClear_keepsWf h ctx mask
  | poolOverflowClear ctx => exact execPoolOverflowClear_keepsWf h ctx
  | walkerFaultClear ctx => exact execWalkerFaultClear_keepsWf h ctx
  | registerWrite at_ data => exact execRegisterWrite_keepsWf h at_ data
  | bar4Access pa acc => exact execBar4Access_keepsWf h pa acc
  | fabricLoadRequest r => exact execFabricLoadRequest_keepsWf h r
  | fabricStoreRequest r data => exact execFabricStoreRequest_keepsWf h r data
  | fabricAtomicRequest r a => exact execFabricAtomicRequest_keepsWf h r a
  | versionTaggedStore r data tag => exact execVersionTaggedStore_keepsWf h r data tag
  | watchVerdictRequest r seq => exact execWatchVerdictRequest_keepsWf h r seq
  | collectiveMessage m => exact execCollectiveMessage_keepsWf h m
  | fabricReply txn r => exact execFabricReply_keepsWf h txn r
  | allowanceGrant dest units => exact execAllowanceGrant_keepsWf h dest units
  | fabricUnitReceive port descriptor body => exact execFabricUnitReceive_keepsWf h port descriptor body
  | linkKeyRollover port outbound key => exact execLinkKeyRollover_keepsWf h port outbound key
  | linkRetrainStart peer port => exact execLinkRetrainStart_keepsWf h peer port
  | linkRetrainComplete peer link => exact execLinkRetrainComplete_keepsWf h peer link
  | retrainTimeout peer port => exact execRetrainTimeout_keepsWf h peer port
  | peerLostReport peer => exact execPeerLostReport_keepsWf h peer
  | timebaseSync offset => exact execTimebaseSync_keepsWf h offset
  | timeMessage src offset => exact execTimeMessage_keepsWf h src offset
  | fundamentalReset signatureGood => exact execFundamentalReset_keepsWf h signatureGood
  | functionLevelReset => exact execFunctionLevelReset_keepsWf h
  | powerHold watts => exact execPowerHold_keepsWf h watts
  | thermalHold junctions => exact execThermalHold_keepsWf h junctions
  | thermalTrip celsius => exact execThermalTrip_keepsWf h celsius
  | telemetry => exact execTelemetry_keepsWf h
  | powerCap watts => exact execPowerCap_keepsWf h watts
  | attest nonce => exact execAttest_keepsWf h nonce
  | linkKey port outbound key => exact execLinkKey_keepsWf h port outbound key
  | stageFirmware image => exact execStageFirmware_keepsWf h image
  -- The conditional branch, whose constructor is named like a Lean keyword.
  | _ => exact execBif_keepsWf h _ _

end Sys2Proof.Machine

/-! R2, R209. A step keeps every memory canonical: the time that passes with it, the checks of a clause, and what is done. -/

namespace Sys2Proof.Machine

theorem State.Wf.endRevocations {s : State} (h : s.Wf) : s.endRevocations.Wf :=
  h.ite h.mapDev.rightMoved

theorem State.Wf.advance {s : State} (h : s.Wf) : s.advance.Wf := by
  unfold State.advance
  have hm := h.draw.mapDev (f := fun d => { d with
      timebase := d.timebase + BitVec.ofNat 64 (Config.tick s.draw.1), clock := d.clock + BitVec.ofNat 64 (Config.clocks s.draw.1)
      ctxs := d.ctxs.map (Context.measured s.draw.1) })
  exact h.draw.ite (State.Wf.endRevocations ((hm.upset _).ite hm))

theorem State.Wf.resumeHeld {s t : State} (h : s.Wf) (e : s.resumeHeld = some t) : t.Wf := by
  unfold State.resumeHeld at e
  split at e
  · cases e
  · rename_i i _
    cases e
    refine { h with issue := ?_, held := ?_ }
    · have there : AllWf (fun c : Issue => c.wave.priv) s.held[i]?.toList :=
        h.held.mono fun _ hc => List.mem_of_getElem? (Option.mem_toList.mp hc)
      rw [Option.toList_map]
      exact there.map fun _ hc => by simpa using hc
    · exact h.held.mono fun _ => List.mem_of_mem_eraseIdx

theorem State.Wf.dropWords {s : State} (h : s.Wf) (c : Issue) (i : Instr) (rest : List W32) : (s.dropWords c i rest).Wf :=
  { h with
    issue := by
      simp only [State.dropWords, Option.toList_map]
      exact h.issue.map fun _ hc => hc }

/-- R49. The checks of a clause run its instructions, so they keep what an instruction keeps. -/
theorem State.Wf.runAhead {s : State} (h : s.Wf) (fuel : Nat) : (State.runAhead fuel s).Wf := by
  induction fuel generalizing s with
  | zero => exact h
  | succ fuel ih =>
    unfold State.runAhead
    split
    · exact h
    · rename_i c hc
      split
      · exact h
      · split
        · exact h.abandon (h.issue_some hc) _
        · split
          · rename_i t ht
            exact ih ((exec_keepsWf h _ t ht).dropWords _ _ _)
          · exact h

theorem State.Wf.checkAhead {s : State} (h : s.Wf) {c : Issue} (hc : c.wave.priv.wf = true) : (s.checkAhead c).Wf := by
  have ht := (h.setIssue (c := { c with phase := .checking }) hc).runAhead 64
  unfold State.checkAhead
  dsimp only
  split
  · exact (h.endIssue.holdClause hc).ite ht
  · rename_i x hx
    split
    · exact ht.abandon (ht.issue_some hx) _
    · refine State.Wf.startClause ?_ hc
      exact (ht.undoClause x).mapDev fun d hd => foldl_keeps (fun d p hd => hd.spend p.1 p.2) hd _

theorem State.Wf.settleRival {s : State} (h : s.Wf) {c : Issue} (hc : c.wave.priv.wf = true) : (s.settleRival c).Wf := by
  have hw : (if s.rivalReady c.wave (1 - c.path) then
      c.wave.setPath (1 - c.path) { c.wave.path (1 - c.path) with ageing := (c.wave.path (1 - c.path)).ageing + 1 }
      else c.wave).priv.wf = true :=
    wf_ite (by simpa using hc) hc
  exact (h.startClause hw).ite (h.setIssue hw)

theorem stepClause_keepsWf {s : State} (h : s.Wf) {c : Issue} (hc : c.wave.priv.wf = true) : KeepsWf (stepClause s c) := by
  unfold stepClause
  split
  · exact (keepsWf_next _).2 (h.settleRival hc)
  split
  · exact (keepsWf_next _).2 (h.checkAhead hc)
  split
  · exact (keepsWf_next _).2 (h.finishClause hc)
  split
  · exact (keepsWf_next _).2 (h.abandon hc _)
  split
  · rename_i t ht
    exact (keepsWf_next _).2 ((exec_keepsWf h _ t ht).dropWords _ _ _)
  · intro t ht; cases ht
  · intro t ht; cases ht

theorem State.Wf.proceed {s : State} (h : s.Wf) : KeepsWf s.proceed := by
  unfold State.proceed
  split
  · rename_i i rest _
    have ht : ({ s with tape := rest } : State).Wf := { h with }
    dsimp only
    split
    · exact (keepsWf_next _).2 ht
    · exact exec_keepsWf ht i
  · split
    · rename_i c hc
      exact stepClause_keepsWf h (h.issue_some hc)
    · split
      · rename_i t ht
        exact (keepsWf_next _).2 (h.resumeHeld ht)
      · exact exec_keepsWf h _

/-- Settles O57: a step is the time that passes and then an instruction, an event, or a part of the clause in execution, and
each of them leaves canonical memories where it finds them. -/
theorem keepsCanonical : Obligations.KeepsCanonical := by
  intro s t hs ht
  rw [State.canonical_iff_wf] at hs ⊢
  exact hs.advance.proceed t ht

end Sys2Proof.Machine

/-! R4. Numbers as bytes in memory order: what is written to a register is what its fields read. -/

namespace Sys2Proof.Machine

@[simp] theorem leBytes_length (n x : Nat) : (leBytes n x).length = n := by simp [leBytes]

@[simp] theorem le64_length (x : W64) : (le64 x).length = 8 := leBytes_length _ _

@[simp] theorem zeros_length (n : Nat) : (zeros n).length = n := List.length_replicate

theorem leBytes_succ (n x : Nat) : leBytes (n + 1) x = BitVec.ofNat 8 x :: leBytes n (x / 256) := by
  simp [leBytes, List.range_succ_eq_map, Nat.pow_succ', Nat.div_div_eq_div_mul]

/-- The number that the low bytes of a number are. -/
theorem leNat_leBytes (n x : Nat) : leNat (leBytes n x) = x % 256 ^ n := by
  induction n generalizing x with
  | zero => simp [leBytes, leNat, Nat.mod_one]
  | succ n ih =>
    calc leNat (leBytes (n + 1) x) = x % 256 + 256 * (x / 256 % 256 ^ n) := by
          rw [leBytes_succ, leNat, ih, BitVec.toNat_ofNat]
      _ = x % 256 ^ (n + 1) := by rw [Nat.pow_succ', Nat.mod_mul]

/-- A word of 64 bits is what its eight bytes say. -/
theorem leNat_leBytes_word (e : W64) : leNat (leBytes 8 e.toNat) = e.toNat := by
  rw [leNat_leBytes]
  exact Nat.mod_eq_of_lt e.isLt

theorem w64_leNat_leBytes (e : W64) : w64 (leNat (leBytes 8 e.toNat)) = e := by
  rw [leNat_leBytes_word, w64, BitVec.ofNat_toNat, BitVec.setWidth_eq]

/-- A field of a word's number is the field of the word. -/
theorem bitsOf_toNat (w : W64) (lo n : Nat) : bitsOf w.toNat (lo + n) lo = (w.extractLsb' lo (n + 1)).toNat := by
  rw [bitsOf, BitVec.extractLsb'_toNat, Nat.shiftRight_eq_div_pow]
  congr 2
  omega

/-! ### Bytes laid over bytes -/

/-- A field reads only the bytes that lie under it. -/
theorem field_append_left {a : List Byte} (b : List Byte) {i n : Nat} (h : i + n ≤ a.length) :
    field (a ++ b) i n = field a i n := by
  rw [field, field, List.drop_append_of_le_length (by omega), List.take_append_of_le_length (by simp; omega)]

theorem overlay_zero (b x : List Byte) : overlay b 0 x = x ++ b.drop x.length := by simp [overlay]

/-- The bytes after those that were laid over are as before. -/
theorem overlay_whole {b x : List Byte} (h : b.length ≤ x.length) : overlay b 0 x = x := by
  simp [overlay, List.drop_eq_nil_of_le h]

theorem drop_overlay {b x : List Byte} {k : Nat} (h : k + x.length = b.length) : (overlay b k x).drop k = x := by
  simp [overlay, List.drop_eq_nil_of_le h.ge, show min k b.length = k by omega]

end Sys2Proof.Machine

/-! R298, R341, R408. The contexts' entries of the driver's window: a whole entry that the driver writes is the context's. -/

namespace Sys2Proof.Machine

/-! ### A context of the device after a write of one -/

theorem Dev.index_of_ctx? {d : Dev} {i : Nat} {x : Context} (h : d.ctx? i = some x) : x.index = i := by
  simpa using List.find?_some h

@[simp] theorem Dev.context_index (d : Dev) (i : Nat) : (d.context i).index = i := by
  unfold Dev.context
  cases h : d.ctx? i with
  | none => rfl
  | some x => exact Dev.index_of_ctx? h

theorem Dev.ctx?_mapCtx {d : Dev} {i : Nat} {f : Context → Context} {x : Context} (h : d.ctx? i = some x)
    (hf : ∀ c : Context, c.index = i → (f c).index = i) : (d.mapCtx i f).ctx? i = some (f x) := by
  have same : ((fun c : Context => c.index == i) ∘ fun c => if c.index = i then f c else c) = fun c => c.index == i := by
    funext c
    by_cases hc : c.index = i
    · simp [hc, hf c hc]
    · simp [hc]
  rw [Dev.ctx?, Dev.mapCtx, List.find?_map, same, ← Dev.ctx?, h]
  simp [Dev.index_of_ctx? h]

theorem Dev.ctx?_setContext (d : Dev) (c : Context) : (d.setContext c).ctx? c.index = some c := by
  unfold Dev.setContext
  split
  · rename_i h
    have there : (d.ctx? c.index).isSome := List.find?_isSome.mpr (by simpa using h)
    obtain ⟨x, hx⟩ := Option.isSome_iff_exists.mp there
    exact Dev.ctx?_mapCtx hx fun _ _ => rfl
  · rename_i h
    have none : d.ctxs.find? (fun x => x.index == c.index) = none := by simpa using h
    simp [Dev.ctx?, List.find?_append, none]

theorem Dev.context_setContext {d : Dev} {c : Context} {i : Nat} (h : c.index = i) : (d.setContext c).context i = c := by
  subst h
  rw [Dev.context, Dev.ctx?_setContext, Option.getD_some]

/-! ### A write of a whole entry -/

/-- R408. A write of a whole entry of an array falls into that entry alone. -/
theorem entryWrites_whole {size : Nat} (i : Nat) {b : List Byte} (h : b.length = size) (hs : 0 < size) (fuel : Nat) :
    entryWrites size (fuel + 2) (size * i) b = [(i, 0, b)] := by
  have hb : b ≠ [] := by rintro rfl; simp at h; omega
  simp [entryWrites, hb, ← h]

theorem State.eachContext_whole (s : State) {size : Nat} (i : Nat) {b : List Byte} (h : b.length = size) (hs : 0 < size)
    (f : Context → Nat → List Byte → Context) :
    s.eachContext size (size * i) b f = s.mapDev (fun d => d.setContext (f (d.context i) 0 b)) := by
  obtain ⟨fuel, hf⟩ : ∃ fuel, b.length + 1 = fuel + 2 := ⟨b.length - 1, by omega⟩
  rw [State.eachContext, hf, entryWrites_whole i h hs]
  rfl

/-- A context's entry reads as what a write of a whole entry makes of the context. -/
theorem State.context_eachContext (s : State) {size : Nat} (i : Nat) {b : List Byte} (h : b.length = size) (hs : 0 < size)
    {f : Context → Nat → List Byte → Context} (hf : (f (s.dev.context i) 0 b).index = i) :
    (s.eachContext size (size * i) b f).dev.context i = f (s.dev.context i) 0 b := by
  rw [State.eachContext_whole s i h hs]
  exact Dev.context_setContext hf

@[simp] theorem Context.bytes_length (c : Context) : c.bytes.length = 64 := by simp [Context.bytes]

/-- R341. A descriptor that the driver writes is the context's. -/
theorem State.writeRegister_descriptor {s : State} {ctx : Nat} (hc : ctx < 64) {data : List Byte} (hd : data.length = 64)
    (ho : s.dev.windowOpen (0x800000 + 64 * ctx) = true) :
    (s.writeRegister (0x800000 + 64 * ctx) data).dev.context ctx = (s.dev.context ctx).written data := by
  have hw : s.writeRegister (0x800000 + 64 * ctx) data =
      s.eachContext 64 (64 * ctx) data (fun c at_ x => c.written (overlay c.bytes at_ x)) := by
    unfold State.writeRegister
    dsimp only
    rw [if_neg (by simp [ho]), if_pos (by simp [hd]; omega), Nat.add_sub_cancel_left]
  rw [hw, State.context_eachContext s ctx hd (by decide) (by exact Dev.context_index _ _), overlay_whole (by simp [hd])]

/-- R298. The budgets that the driver writes are the context's. -/
theorem State.writeRegister_budgets {s : State} {ctx : Nat} (hc : ctx < 64) (w : W64)
    (ho : s.dev.windowOpen (0x830000 + 8 * ctx) = true) :
    (s.writeRegister (0x830000 + 8 * ctx) (leBytes 8 w.toNat)).dev.context ctx = { s.dev.context ctx with
      coreBudget := (w.extractLsb' 0 9).toNat, hbmBudget := (w.extractLsb' 16 9).toNat
      powerBudget := (w.extractLsb' 32 9).toNat } := by
  have hw : s.writeRegister (0x830000 + 8 * ctx) (leBytes 8 w.toNat) =
      s.eachContext 8 (8 * ctx) (leBytes 8 w.toNat) (fun c at_ x =>
        let n := leNat (overlay c.budgets at_ x)
        { c with coreBudget := bitsOf n 8 0, hbmBudget := bitsOf n 24 16, powerBudget := bitsOf n 40 32 }) := by
    unfold State.writeRegister
    dsimp only
    rw [if_neg (by simp [ho]), if_neg (by simp; omega), if_neg (by simp; omega), if_pos (by simp; omega),
      Nat.add_sub_cancel_left]
  rw [hw, State.context_eachContext s ctx (leBytes_length _ _) (by decide) (by exact Dev.context_index _ _)]
  dsimp only
  rw [overlay_whole (by simp [Context.budgets]), leNat_leBytes_word]
  rw [bitsOf_toNat w 0 8, bitsOf_toNat w 16 8, bitsOf_toNat w 32 8]

end Sys2Proof.Machine

/-! R318, R334, R342, R408. The other writes of the driver: what is not taken, the clears, the revocations, and the tables that
read back what was written. -/

namespace Sys2Proof.Machine

/-- R342, R408. A write to a register that is closed, or beyond those that a write reaches, is dropped. -/
theorem State.writeRegister_dropped {s : State} {offset : Nat} (h : s.dev.windowOpen offset = false ∨ 0x1000000 ≤ offset)
    (data : List Byte) : s.writeRegister offset data = s := by
  unfold State.writeRegister
  dsimp only
  rcases h with h | h
  · rw [if_pos (by simp [h])]
  · have beyond {base size : Nat} (hb : base + size < 0x1000000) :
        ¬ decide (base ≤ offset ∧ offset + data.length ≤ base + size) = true := by
      simp only [decide_eq_true_eq]
      omega
    simp only [if_neg (beyond (by decide : 0x800000 + 4096 < _)), if_neg (beyond (by decide : 0x810000 + 4096 < _)),
      if_neg (beyond (by decide : 0x830000 + 512 < _)), if_neg (beyond (by decide : 0x840000 + 32 < _)),
      if_neg (beyond (by decide : 0x840020 + 32 < _)), if_neg (beyond (by decide : 0x840100 + 256 < _)),
      if_neg (beyond (by decide : 0x840200 + 1024 < _)), ite_self]

/-! ### Revocations -/

theorem State.startRevocation_revoking (s : State) (r : Revocation) : (s.startRevocation r).dev.revoking ≠ [] := by
  simp [State.startRevocation]

/-- R408. While a revocation is under way, the start field of the register reads 1. -/
theorem Dev.revocationBytes_start {d : Dev} (h : d.revoking ≠ []) : d.revocationBytes.drop 24 = leBytes 8 1 := by
  have hr : d.revoking.isEmpty = false := by simpa using h
  rw [Dev.revocationBytes, hr]
  exact drop_overlay (by simp)

/-- R334. No L1 keeps a line of the context that meets the range. -/
theorem Dev.l1_dropL1Range {d : Dev} {ctx base n : Nat} {c : Core} (hc : c ∈ (d.dropL1Range ctx base n).cores) {e : L1Line}
    (he : e ∈ c.l1) (hx : e.ctx = ctx) : e.va * 128 + 128 ≤ base ∨ base + n ≤ e.va * 128 := by
  simp only [Dev.dropL1Range, List.mem_map] at hc
  obtain ⟨c, _, rfl⟩ := hc
  have kept := (List.mem_filter.mp he).2
  simp [hx] at kept
  omega

theorem State.startRevocation_cores (s : State) (r : Revocation) :
    ∃ d : Dev, (s.startRevocation r).dev.cores = (d.dropL1Range r.ctx r.base r.length).cores := by
  simp only [State.startRevocation, State.revoke, State.mapDev_dev, Dev.tlbDrop]
  exact ⟨_, rfl⟩

/-! ### Tables -/

/-- R342. What an entry of an access table takes of a write, by the rows of the table. -/
theorem entryTaken_eq (target master : Nat) (e : W64) : entryTaken target master e =
    if master < 512 ∧ (master % 8 = 6 ∨ master % 8 = 7) then 0
    else if target = 33 ∨ target = 34 ∨ target = 35 then e &&& 0xFFFFFFFF else e := by
  unfold entryTaken
  congr 1
  · simp; omega
  · congr 1
    simp; omega

theorem Dev.find?_writeAccess (d : Dev) (target master : Nat) (e : W64) :
    (d.writeAccess target master e).access.find? (fun x => x.target == target && x.master == master) =
      some ⟨target, master, e⟩ := by
  simp [Dev.writeAccess]

theorem Dev.find?_writeRegion (d : Dev) (target index base limit : Nat) :
    (d.writeRegion target index base limit).regions.find? (fun x => x.target == target && x.index == index) =
      some ⟨target, index, base, limit⟩ := by
  simp [Dev.writeRegion]

theorem Dev.find?_loadConstants (d : Dev) (ctx lo hi : Nat) (data : List Byte) :
    (d.loadConstants ctx lo hi data).consts.find? (fun c => c.ctx == ctx && c.codeBase == lo && c.codeLimit == hi) =
      some ⟨ctx, lo, hi, Memory.writeN [] 0 data, data.length⟩ := by
  simp [Dev.loadConstants]

/-- The two words of a region register are the two halves of what is written. -/
theorem field_two_words (a b : W64) :
    field (leBytes 8 a.toNat ++ leBytes 8 b.toNat) 0 8 = a.toNat ∧ field (leBytes 8 a.toNat ++ leBytes 8 b.toNat) 8 8 = b.toNat := by
  have whole : (leBytes 8 b.toNat).take 8 = leBytes 8 b.toNat := List.take_of_length_le (by simp)
  simp [field, leNat_leBytes_word, whole]

section
variable {s : State} (hs : s.dev.platform.state = 6)
include hs

theorem execRegisterWrite_access {target master : Nat} (ht : target < 38) (hm : master < 514) (e : W64) :
    execRegisterWrite (.access target master) (leBytes 8 e.toNat) s =
      .next (s.mapDev (fun d => d.writeAccess target master (entryTaken target master e))) := by
  simp [execRegisterWrite, hs, entryLegal, ht, hm, w64_leNat_leBytes]

theorem execRegisterWrite_region {target index : Nat} (ht : target < 38) (hi : index < 32) (base limit : W64) :
    execRegisterWrite (.region target index) (leBytes 8 base.toNat ++ leBytes 8 limit.toNat) s =
      .next (s.mapDev (fun d => d.writeRegion target index base.toNat limit.toNat)) := by
  obtain ⟨hb, hl⟩ := field_two_words base limit
  simp [execRegisterWrite, hs, ht, hi, hb, hl]

theorem execRegisterWrite_shares (a b c d e : Byte) :
    execRegisterWrite .shares [a, b, c, d, e] s = .next (
      if a.toNat + b.toNat + c.toNat + d.toNat + e.toNat ≤ 64
      then { s with dev := { s.dev with shares := [a.toNat, b.toNat, c.toNat, d.toNat, e.toNat] } } else s) := by
  simp [execRegisterWrite, hs, State.mapDev]

theorem execRegisterWrite_constants {ctx : Nat} (hc : ctx < 64) (lo hi : Nat) (data : List Byte) :
    execRegisterWrite (.constants ctx lo hi) data s = .next (s.mapDev (fun d => d.loadConstants ctx lo hi data)) := by
  simp [execRegisterWrite, hs, hc]

end

end Sys2Proof.Machine

/-! R1, R341, R343, R407, R408, R410, R416. What the driver reads of its window. -/

namespace Sys2Proof.Machine

/-- The bytes of a list up to its length, or up to a place within it. -/
theorem map_getD_range {l : List Byte} {n : Nat} (h : n ≤ l.length) (x : Byte) :
    (List.range n).map (fun i => l.getD i x) = l.take n := by
  refine List.ext_getElem (by simp [h]) fun i hi _ => ?_
  have hi : i < l.length := lt_of_lt_of_le (by simpa using hi) h
  simp [hi]

/-- Whether the access table lets the driver read an offset of the window. -/
def Dev.windowReads (d : Dev) (offset : Nat) : Bool := d.bitGranted 37 512 (offset / 2 ^ 23) false

theorem Dev.windowByte_hidden {d : Dev} {offset : Nat}
    (h : d.windowReads offset = false ∨ (d.platform.state ≠ 6 ∧ 0x1C ≤ offset)) : d.windowByte offset = 255 := by
  have hidden : !d.bitGranted 37 driverMaster (offset / 2 ^ 23) false ∨ (d.platform.state ≠ 6 ∧ 0x1C ≤ offset) :=
    h.imp_left fun h => by rw [show d.bitGranted 37 driverMaster _ false = false from h]; rfl
  rw [Dev.windowByte, if_pos hidden]

/-- R408. The head of the window that reads in every state. -/
theorem Dev.windowByte_head {d : Dev} (h : d.windowReads 0 = true) {offset : Nat} (ho : offset < 0x1C) :
    d.windowByte offset = d.windowHead.getD offset 255 := by
  have first : offset / 2 ^ 23 = 0 := Nat.div_eq_of_lt (by omega)
  have reads : d.bitGranted 37 driverMaster 0 false = true := h
  rw [Dev.windowByte, first, reads, if_neg (by simp; omega), if_pos (by omega)]

theorem serialNumber_length : serialNumber.length = 16 := by simp [serialNumber]

theorem Dev.take_windowHead (d : Dev) :
    d.windowHead.take 0x1C = leBytes 8 d.identity ++ serialNumber ++ leBytes 4 d.platform.stateWord := by
  unfold Dev.windowHead
  rw [List.append_assoc _ (leBytes 4 d.platform.flagsWord)]
  exact List.take_left' (by simp [serialNumber_length])

theorem Dev.windowHead_bytes {d : Dev} (h : d.windowReads 0 = true) :
    (List.range 0x1C).map d.windowByte = leBytes 8 d.identity ++ serialNumber ++ leBytes 4 d.platform.stateWord := by
  have head : (List.range 0x1C).map d.windowByte = (List.range 0x1C).map (fun i => d.windowHead.getD i 255) :=
    List.map_congr_left fun i hi => Dev.windowByte_head h (List.mem_range.mp hi)
  rw [head, map_getD_range (by simp [Dev.windowHead, serialNumber_length]), Dev.take_windowHead]

/-- R408. The arrays of the window follow one another: each ends before the next begins. -/
theorem Dev.windowArrays_pairwise (d : Dev) :
    d.windowArrays.Pairwise fun a b => a.1 + a.2.1 * a.2.2.1 ≤ b.1 := by
  unfold Dev.windowArrays
  simp only [List.pairwise_cons, List.forall_mem_cons, List.not_mem_nil, false_imp_iff, implies_true, and_true,
    List.Pairwise.nil]
  unfold droppedAt
  omega

section
variable {d : Dev} (hr : d.windowReads 0x800000 = true) (hs : d.platform.state = 6)
include hr hs

/-- R408. A byte of an entry of an array of the window, once bring-up is complete. -/
theorem Dev.windowByte_array {base size count : Nat} {entry : Nat → List Byte}
    {before after : List (Nat × Nat × Nat × (Nat → List Byte))}
    (ha : d.windowArrays = before ++ (base, size, count, entry) :: after) (hb : 0x800000 ≤ base)
    {i k : Nat} (hi : i < count) (hk : k < size)
    (ho : base + size * i + k < 0x1000000) : d.windowByte (base + size * i + k) = (entry i).getD k 255 := by
  have second : (base + size * i + k) / 2 ^ 23 = 1 := by omega
  have reads : d.bitGranted 37 driverMaster 1 false = true := hr
  have within : size * i + k < size * count :=
    calc size * i + k < size * i + size := by omega
      _ = size * (i + 1) := (Nat.mul_succ ..).symm
      _ ≤ size * count := Nat.mul_le_mul_left _ hi
  have found : d.windowArrays.find? (fun a => decide (a.1 ≤ base + size * i + k ∧ base + size * i + k < a.1 + a.2.1 * a.2.2.1)) =
      some (base, size, count, entry) := by
    rw [ha, List.find?_eq_some_iff_append]
    refine ⟨by simp; omega, before, after, rfl, fun a hm => ?_⟩
    have ordered := d.windowArrays_pairwise
    rw [ha, List.pairwise_append] at ordered
    have ends : a.1 + a.2.1 * a.2.2.1 ≤ base := ordered.2.2 a hm _ List.mem_cons_self
    simp
    omega
  have entryAt : (base + size * i + k - base) / size = i ∧ (base + size * i + k - base) % size = k := by
    rw [Nat.add_assoc, Nat.add_sub_cancel_left, Nat.mul_add_div (by omega), Nat.div_eq_of_lt hk, Nat.mul_add_mod,
      Nat.mod_eq_of_lt hk]
    exact ⟨Nat.add_zero _, rfl⟩
  unfold Dev.windowByte
  rw [second, reads, if_neg (by simp [hs]), if_neg (by omega), found]
  dsimp only
  rw [entryAt.1, entryAt.2]

/-- R408. The first bytes of an entry of an array of the window. -/
theorem Dev.windowBytes_array {base size count : Nat} {entry : Nat → List Byte}
    {before after : List (Nat × Nat × Nat × (Nat → List Byte))}
    (ha : d.windowArrays = before ++ (base, size, count, entry) :: after) (hb : 0x800000 ≤ base)
    {i n at_ : Nat} (hat : at_ = base + size * i) (hi : i < count)
    (hn : n ≤ size) (hl : n ≤ (entry i).length) (ho : at_ + n ≤ 0x1000000) :
    (List.range n).map (fun k => d.windowByte (at_ + k)) = (entry i).take n := by
  subst hat
  rw [← map_getD_range hl 255]
  refine List.map_congr_left fun k hk => ?_
  have hk := List.mem_range.mp hk
  exact Dev.windowByte_array hr hs ha hb hi (by omega) (by omega)

theorem Dev.windowBytes_descriptor {ctx : Nat} (hc : ctx < 64) :
    (List.range 64).map (fun i => d.windowByte (0x800000 + 64 * ctx + i)) = (d.context ctx).bytes := by
  have whole : (d.context ctx).bytes.take 64 = (d.context ctx).bytes := List.take_of_length_le (by simp)
  rw [← whole]
  exact Dev.windowBytes_array hr hs (before := []) (entry := fun i => (d.context i).bytes) rfl (by decide) rfl hc le_rfl
    (by simp) (by omega)

theorem Dev.windowBytes_command :
    (List.range 8).map (fun i => d.windowByte (0x840020 + i)) = leBytes 4 (d.command.ctx % 64) ++ leBytes 4 d.command.op := by
  have first : (d.command.bytes false).take 8 = leBytes 4 (d.command.ctx % 64) ++ leBytes 4 d.command.op := by
    simp [CommandReg.bytes, List.take_append]
  rw [← first]
  exact Dev.windowBytes_array hr hs (before := d.windowArrays.take 5) (entry := fun _ => d.command.bytes false) rfl (by decide)
    (i := 0) (by decide) (by decide) (by decide) (by simp [CommandReg.bytes]) (by decide)

theorem Dev.windowBytes_dropped {ctx : Nat} (hc : ctx < 64) :
    (List.range 4).map (fun i => d.windowByte (0x840600 + 4 * ctx + i)) =
      leBytes 4 ((d.context ctx).dropped.getD (2 ^ 32 - 1)) := by
  have whole : (d.context ctx).droppedBytes.take 4 = leBytes 4 ((d.context ctx).dropped.getD (2 ^ 32 - 1)) :=
    List.take_of_length_le (by simp [Context.droppedBytes])
  rw [← whole]
  exact Dev.windowBytes_array hr hs (before := d.windowArrays.take 9) (entry := fun i => (d.context i).droppedBytes) rfl
    (by decide) rfl hc le_rfl (by simp [Context.droppedBytes]) (by omega)

end

end Sys2Proof.Machine

/-! R343, R407. The driver's accesses to HBM through its base address register: the bytes that it reads and writes. -/

namespace Sys2Proof.Machine

/-- Bytes written one part after the other. -/
theorem Memory.writeN_append (m : Memory) (a : Nat) (x y : List Byte) :
    m.writeN a (x ++ y) = (m.writeN a x).writeN (a + x.length) y := by
  induction x generalizing m a with
  | nil => rfl
  | cons b x ih =>
    rw [List.cons_append, Memory.writeN, ih, Memory.writeN, List.length_cons]
    congr 1
    omega

@[simp] theorem Dev.lineWritten_hbm (d : Dev) (die : Option Nat) (line : Loc) (bad : List Loc) :
    (d.lineWritten die line bad).hbm = d.hbm := by
  unfold Dev.lineWritten
  split <;> rfl

@[simp] theorem Dev.coverGranules_hbm (d : Dev) (l : Loc) (n : Nat) : (d.coverGranules l n).hbm = d.hbm := by
  unfold Dev.coverGranules
  split <;> rfl

theorem State.poke_hbm (s : State) (a : Nat) (bs : List Byte) : (s.poke ⟨.hbm, a⟩ bs).dev.hbm = s.dev.hbm.writeN a bs := by
  simp [State.poke]

theorem State.storeLine_hbm (s : State) (a : Nat) (bs : List Byte) :
    (s.storeLine .other ⟨.hbm, a⟩ bs).dev.hbm = s.dev.hbm.writeN a bs := by
  rw [← State.poke_hbm]
  simp [State.storeLine, State.clearReservations, Dev.dirWrite, Dev.setDir]

/-! ### A store that is performed line by line -/

/-- How many of the `n` bytes from an address on lie before the `k`th line after that of the address. -/
def bytesBefore (a n k : Nat) : Nat := min n ((a / 128 + k) * 128 - a)

/-- The bytes that a store puts into the `k`th line after that of its address. -/
def bytesOfLine (a : Nat) (bs : List Byte) (k : Nat) : List Byte :=
  (bs.drop (Nat.max a ((a / 128 + k) * 128) - a)).take
    (Nat.min (a + bs.length) ((a / 128 + k + 1) * 128) - Nat.max a ((a / 128 + k) * 128))

theorem bytesBefore_zero (a n : Nat) : bytesBefore a n 0 = 0 := by
  unfold bytesBefore
  omega

theorem bytesBefore_end (a n : Nat) : bytesBefore a n ((a + n + 127) / 128 - a / 128) = n := by
  unfold bytesBefore
  omega

section
variable {a k : Nat} {bs : List Byte} (hk : k < (a + bs.length + 127) / 128 - a / 128)
include hk

/-- The part of a store in a line begins where the parts before it end. -/
theorem line_start : Nat.max a ((a / 128 + k) * 128) = a + (bs.take (bytesBefore a bs.length k)).length := by
  rw [List.length_take, show Nat.max = max from rfl]
  unfold bytesBefore
  omega

theorem take_bytesBefore_succ :
    bs.take (bytesBefore a bs.length (k + 1)) = bs.take (bytesBefore a bs.length k) ++ bytesOfLine a bs k := by
  have start : Nat.max a ((a / 128 + k) * 128) - a = bytesBefore a bs.length k := by
    rw [show Nat.max = max from rfl]
    unfold bytesBefore
    omega
  have count : bytesBefore a bs.length k + (Nat.min (a + bs.length) ((a / 128 + k + 1) * 128) - Nat.max a ((a / 128 + k) * 128)) =
      bytesBefore a bs.length (k + 1) := by
    rw [show Nat.max = max from rfl, show Nat.min = min from rfl]
    unfold bytesBefore
    omega
  rw [bytesOfLine, start, ← List.take_add, count]

end

/-- A store that is performed line by line leaves the bytes as one store does. -/
theorem State.storeAt_hbm (s : State) (a : Nat) (bs : List Byte) :
    (s.storeAt .other ⟨.hbm, a⟩ bs).dev.hbm = s.dev.hbm.writeN a bs := by
  have lines (k : Nat) (hk : k ≤ (a + bs.length + 127) / 128 - a / 128) :
      ((List.range k).foldl (fun s i => s.storeLine .other ⟨.hbm, Nat.max a ((a / 128 + i) * 128)⟩ (bytesOfLine a bs i)) s).dev.hbm =
        s.dev.hbm.writeN a (bs.take (bytesBefore a bs.length k)) := by
    induction k with
    | zero => rw [bytesBefore_zero]; rfl
    | succ k ih =>
      rw [List.range_succ, List.foldl_append, List.foldl_cons, List.foldl_nil, State.storeLine_hbm, ih (by omega),
        line_start hk, ← Memory.writeN_append, take_bytesBefore_succ hk]
  have all := lines _ le_rfl
  rw [bytesBefore_end, List.take_length] at all
  exact all

/-! ### Accesses that are granted -/

theorem execBar4Access_read {s : State} {a n : Nat} (h : ∀ i, i < n → s.dev.driverGranted (a + i) false = true) :
    execBar4Access a (.read n) s = .next { s with dev := { s.dev with
      outbox := s.dev.outbox ++ [.hostData (s.dev.hbm.readN a n)] } } := by
  have bytes : (List.range n).map (fun i => if s.dev.driverGranted (a + i) false then s.dev.hbm.read (a + i) else 255) =
      s.dev.hbm.readN a n := List.map_congr_left fun i hi => if_pos (h i (List.mem_range.mp hi))
  rw [execBar4Access, State.hostRead, bytes]
  rfl

theorem execBar4Access_write {s : State} {a : Nat} {data : List Byte}
    (h : ∀ i, i < data.length → s.dev.driverGranted (a + i) true = true) :
    execBar4Access a (.write data) s = .next (s.storeAt .other ⟨.hbm, a⟩ data) := by
  have granted : (List.range data.length).any (fun i => !s.dev.driverGranted (a + i) true) = false := by simpa using h
  rw [execBar4Access, granted]
  rfl

end Sys2Proof.Machine

/-! R408. The driver's window: its writes, its clears, its revocations, its reads, its tables, and the driver's accesses to HBM. -/

namespace Sys2Proof.Machine

/-- A clear of what the device keeps of a context. -/
theorem State.ctx?_mapCtx {s : State} {ctx : Nat} {x : Context} (hx : s.dev.ctx? ctx = some x) {f : Context → Context}
    (hf : ∀ c : Context, (f c).index = c.index) : (s.mapDev (fun d => d.mapCtx ctx f)).dev.ctx? ctx = some (f x) :=
  Dev.ctx?_mapCtx hx fun c hc => (hf c).trans hc

/-- Settles O47: each part of the window is one of the lemmas about that part; a write reads the whole entry that it falls
into, and a read the array that holds its offset. -/
theorem driverWindow : Obligations.DriverWindow := by
  refine ⟨?writesDropped, ?contextWrites, ?clears, ?revocations, ?reads, ?tables, ?hbm⟩
  case writesDropped =>
    intro s offset data h
    exact congrArg Host.Outcome.next (State.writeRegister_dropped h data)
  case contextWrites =>
    intro s ctx hc
    exact ⟨fun data hd ho => ⟨_, rfl, State.writeRegister_descriptor hc hd ho⟩,
      fun w ho => ⟨_, rfl, State.writeRegister_budgets hc w ho⟩⟩
  case clears =>
    intro s ctx x hx
    refine ⟨fun mask ho => ⟨_, rfl, ?_⟩, fun ho => ⟨_, rfl, ?_⟩, fun ho => ⟨_, rfl, ?_⟩⟩
    · rw [if_neg (by simp [ho])]
      exact State.ctx?_mapCtx hx fun _ => rfl
    · rw [if_neg (by simp [ho])]
      exact State.ctx?_mapCtx hx fun _ => rfl
    · rw [if_neg (by simp [ho])]
      exact State.ctx?_mapCtx hx fun _ => rfl
  case revocations =>
    intro s ctx base n ho
    refine ⟨_, rfl, ?_⟩
    rw [if_neg (by simp [ho])]
    refine ⟨Dev.revocationBytes_start (State.startRevocation_revoking _ _), fun c hc e he hx => ?_⟩
    obtain ⟨d, hd⟩ := State.startRevocation_cores s ⟨ctx, base.toNat, n.toNat⟩
    exact Dev.l1_dropL1Range (hd ▸ hc) he hx
  case reads =>
    intro s
    refine ⟨fun off n => rfl, fun off h => Dev.windowByte_hidden h, Dev.windowHead_bytes, fun ctx hc hr hs => ?_⟩
    exact ⟨Dev.windowBytes_descriptor hr hs hc, Dev.windowBytes_command hr hs, Dev.windowBytes_dropped hr hs hc⟩
  case tables =>
    intro s hs
    refine ⟨fun target master e ht hm => ⟨_, execRegisterWrite_access hs ht hm e, ?_⟩,
      fun target index base limit ht hi => ⟨_, execRegisterWrite_region hs ht hi base limit, Dev.find?_writeRegion _ _ _ _ _⟩,
      execRegisterWrite_shares hs,
      fun ctx lo hi data hc => ⟨_, execRegisterWrite_constants hs hc lo hi data, Dev.find?_loadConstants _ _ _ _ _⟩⟩
    rw [← entryTaken_eq]
    exact Dev.find?_writeAccess _ _ _ _
  case hbm =>
    intro s pa _
    exact ⟨fun n h => execBar4Access_read h,
      fun data _ h => ⟨_, execBar4Access_write h, State.storeAt_hbm s pa data⟩⟩

end Sys2Proof.Machine

end

section
/-! SUPPORT. The proofs of the statements about the instruction formats: the decoder and the encoder (R41 to R53, R65, R66), the
step and the instructions (R43, R47), and the taking of a fault (R348 to R351). -/

set_option Elab.async false

/-! R41, R51 to R53, R72. One byte field of an instruction's word: what the decoder of each kind of field reads from a byte, and
that it reads a field back from the field's own byte. -/

namespace Sys2Proof

theorem except_bind_eq_ok {ε α β : Type} {x : Except ε α} {f : α → Except ε β} {b : β} :
    (x >>= f) = .ok b ↔ ∃ a, x = .ok a ∧ f a = .ok b := by
  cases x with
  | error e => simp [bind, Except.bind]
  | ok a => simp [bind, Except.bind]

theorem ite_ok_eq_ok {ε α : Type} {p : Prop} [Decidable p] {x y : α} {e : ε} :
    (if p then Except.ok x else .error e) = .ok y ↔ p ∧ x = y := by
  by_cases h : p <;> simp [h]

theorem ite_error_eq_ok {ε α : Type} {p : Prop} [Decidable p] {x : Except ε α} {y : α} {e : ε} :
    (if p then .error e else x) = .ok y ↔ ¬ p ∧ x = .ok y := by
  by_cases h : p <;> simp [h]

/-- R51, R53. A byte of a word, with the literal words at the head of the words that follow it, stands for a field. -/
structure RawField.Reads (f : RawField) (c : BitVec 8) (ws rest : List W32) : Prop where
  byte : f.byte = c
  words : ws = f.literals ++ rest
  inRange : f.inRange = true

/-! ### What a decoder reads from a byte -/

section
variable {c : BitVec 8} {ws rest : List W32}

/-- A plain number is its own byte and takes no literal. -/
theorem reads_num {n : BitVec 8} (h : n = c) : (RawField.num n).Reads c ws ws := ⟨h, rfl, rfl⟩

theorem ofNat_of_toNat_eq {n : Nat} (h : c.toNat = n) : BitVec.ofNat 8 n = c := by
  rw [← h, BitVec.ofNat_toNat, BitVec.setWidth_eq]

theorem reads_v {n : Nat} (h : c.toNat = n) (hn : n < 192) : (RawField.opnd (.v n)).Reads c ws ws :=
  ⟨ofNat_of_toNat_eq h, rfl, decide_eq_true hn⟩

theorem reads_k {n : Nat} (h : c.toNat = 0xC0 + n) (hn : n < 48) : (RawField.opnd (.k n)).Reads c ws ws :=
  ⟨ofNat_of_toNat_eq h, rfl, decide_eq_true hn⟩

theorem reads_x {n : Nat} (h : c.toNat = 0xF0 + n) (hn : n < 8) : (RawField.opnd (.x n)).Reads c ws ws :=
  ⟨ofNat_of_toNat_eq h, rfl, decide_eq_true hn⟩

/-- A 64-bit literal is its low word and its high word. -/
theorem literals_lit64 (lo hi : W32) : (Operand.lit64 (hi ++ lo)).literals = [lo, hi] := by
  change [(hi ++ lo).extractLsb' 0 32, (hi ++ lo).extractLsb' 32 32] = _
  rw [BitVec.extractLsb'_append_eq_right, BitVec.extractLsb'_append_eq_left]

theorem decZero_ok {u : Unit} (h : decZero c = .ok u) : 0 = c := by
  unfold decZero at h
  split at h
  · exact Eq.symm ‹_›
  · cases h

theorem decDest_ok {o : Operand} (h : decDest c.toNat = .ok o) : (RawField.opnd o).Reads c ws ws := by
  unfold decDest at h
  split_ifs at h <;> cases h
  · exact reads_v rfl ‹_›
  · exact reads_k (by omega) (by omega)
  · exact reads_x (by omega) (by omega)

theorem decK_ok {k : Nat} (h : decK c.toNat = .ok k) : (RawField.opnd (.k k)).Reads c ws ws := by
  unfold decK at h
  split at h
  · have value := Except.ok.inj h
    exact reads_k (by omega) (by omega)
  · split at h <;> cases h

theorem decSrc_ok {o : Operand} (h : decSrc c.toNat ws = .ok (o, rest)) : (RawField.opnd o).Reads c ws rest := by
  unfold decSrc at h
  split_ifs at h with v k x zero one minus lane wave lit32 lit64
  · cases h; exact reads_v rfl v
  · cases h; exact reads_k (by omega) (by omega)
  · cases h; exact reads_x (by omega) (by omega)
  · cases h; exact ⟨ofNat_of_toNat_eq zero, rfl, rfl⟩
  · cases h; exact ⟨ofNat_of_toNat_eq one, rfl, rfl⟩
  · cases h; exact ⟨ofNat_of_toNat_eq minus, rfl, rfl⟩
  · cases h; exact ⟨ofNat_of_toNat_eq lane, rfl, rfl⟩
  · cases h; exact ⟨ofNat_of_toNat_eq wave, rfl, rfl⟩
  · split at h <;> cases h
    exact ⟨ofNat_of_toNat_eq lit32, rfl, rfl⟩
  · split at h <;> cases h
    exact ⟨ofNat_of_toNat_eq lit64, by rw [RawField.literals, literals_lit64]; rfl, rfl⟩

theorem zero_append_low {n m : Nat} {c : BitVec (n + m)} (h : c.extractLsb' m n = 0#n) : 0#n ++ c.extractLsb' 0 m = c := by
  rw [← h, BitVec.extractLsb'_append_extractLsb']

theorem bar_scope_byte (h : c.toNat ≤ 1) : (if decide (c = 1) then 1 else 0) = c := by
  revert c
  decide

theorem bar_number_high (h : c.toNat ≤ 15) : c.extractLsb' 4 4 = 0#4 := by
  revert c
  decide

theorem fence_byte (h : c.extractLsb' 5 3 = 0#3) : 0#3 ++ c.extractLsb' 3 2 ++ c.extractLsb' 0 3 = c := by
  revert c
  decide

theorem decQ_ok {q : BitVec 4} (h : decQ c = .ok q) : 0#4 ++ q = c := by
  unfold decQ at h
  split at h
  · cases h
    exact zero_append_low ‹_›
  · cases h

theorem decSpecial_ok {n : SpecialReg} (h : decSpecial c = .ok n) : n.code = c := by
  unfold decSpecial at h
  split at h <;> cases h <;> exact ofNat_of_toNat_eq ‹_›

theorem decScope_ok {c : BitVec 3} {s : Scope} (h : decScope c = .ok s) : s.code = c := by
  unfold decScope at h
  split at h <;> cases h <;> exact BitVec.eq_of_toNat_eq (Eq.symm ‹_›)

theorem code_decKind (c : BitVec 2) : (decKind c).code = c := by
  revert c
  decide

end

/-! ### What a decoder reads from the byte of a field -/

theorem Operand.code_v {n : Nat} (h : n < 192) : (Operand.v n).code.toNat = n := by
  simp only [Operand.code, BitVec.toNat_ofNat]
  omega

theorem Operand.code_k {n : Nat} (h : n < 48) : (Operand.k n).code.toNat = 0xC0 + n := by
  simp only [Operand.code, BitVec.toNat_ofNat]
  omega

theorem Operand.code_x {n : Nat} (h : n < 8) : (Operand.x n).code.toNat = 0xF0 + n := by
  simp only [Operand.code, BitVec.toNat_ofNat]
  omega

theorem decK_code {k : Nat} (h : (Operand.k k).inRange = true) : decK (Operand.k k).code.toNat = .ok k := by
  have h : k < 48 := of_decide_eq_true h
  rw [Operand.code_k h, decK, if_pos (by omega), Nat.add_sub_cancel_left]

theorem decDest_code {o : Operand} (ho : o.inRange = true) (hd : FieldClass.dest.admits o = true) :
    decDest o.code.toNat = .ok o := by
  cases o with
  | v n =>
    have h : n < 192 := of_decide_eq_true ho
    rw [Operand.code_v h, decDest, if_pos (by omega)]
  | k n =>
    have h : n < 48 := of_decide_eq_true ho
    rw [Operand.code_k h, decDest, if_neg (by omega), if_pos (by omega), Nat.add_sub_cancel_left]
  | x n =>
    have h : n < 8 := of_decide_eq_true ho
    rw [Operand.code_x h, decDest, if_neg (by omega), if_neg (by omega), if_pos (by omega), Nat.add_sub_cancel_left]
  | _ => cases hd

theorem decSrc_code {o : Operand} (ho : o.inRange = true) (rest : List W32) :
    decSrc o.code.toNat (o.literals ++ rest) = .ok (o, rest) := by
  unfold decSrc
  cases o with
  | v n =>
    have h : n < 192 := of_decide_eq_true ho
    simp only [Operand.code_v h]
    rw [if_pos (by omega)]
    rfl
  | k n =>
    have h : n < 48 := of_decide_eq_true ho
    simp only [Operand.code_k h]
    rw [if_neg (by omega), if_pos (by omega), Nat.add_sub_cancel_left]
    rfl
  | x n =>
    have h : n < 8 := of_decide_eq_true ho
    simp only [Operand.code_x h]
    rw [if_neg (by omega), if_neg (by omega), if_pos (by omega), Nat.add_sub_cancel_left]
    rfl
  | lit64 w =>
    have halves : w.extractLsb' 32 32 ++ w.extractLsb' 0 32 = w := BitVec.extractLsb'_append_extractLsb' (w := 32)
    change Except.ok (Operand.lit64 (w.extractLsb' 32 32 ++ w.extractLsb' 0 32), rest) = _
    rw [halves]
  | _ => rfl

@[simp] theorem decZero_zero : decZero 0#8 = .ok () := rfl

@[simp] theorem decQ_append (q : BitVec 4) : decQ (0#4 ++ q) = .ok q := by
  have high : (0#4 ++ q).extractLsb' 4 4 = 0 := BitVec.extractLsb'_append_eq_left
  rw [decQ, if_pos high, BitVec.extractLsb'_append_eq_right]

theorem bar_number_le (n : BitVec 4) : ¬ 15 < (0#4 ++ n).toNat := by
  revert n
  decide

theorem fence_high (k : FenceKind) (s : Scope) : (0#3 ++ k.code ++ s.code).extractLsb' 5 3 = 0#3 := by
  cases k <;> cases s <;> rfl

theorem fence_kind (k : FenceKind) (s : Scope) : (0#3 ++ k.code ++ s.code).extractLsb' 3 2 = k.code := by
  cases k <;> cases s <;> rfl

@[simp] theorem decSpecial_code (n : SpecialReg) : decSpecial n.code = .ok n := by cases n <;> rfl

@[simp] theorem decScope_code (s : Scope) : decScope s.code = .ok s := by cases s <;> rfl

@[simp] theorem decKind_code (k : FenceKind) : decKind k.code = k := by cases k <;> rfl

end Sys2Proof

/-! R41, R53, R65, R66. The shapes of the opcode map: the instruction that a shape builds with the three byte fields of its word,
that the decoder reads these fields and no others, and that they are those of the instruction's word. -/

namespace Sys2Proof

/-- R66. A shape builds an instruction whose word has three byte fields. -/
inductive Fmt.Builds : Fmt → Instr → RawField → RawField → RawField → Prop
  | none i : Builds (.none i) i (.num 0) (.num 0) (.num 0)
  | mode s v : Builds .mode (.mode s v) (.num (0#2 ++ s)) (.num (v.extractLsb' 8 8)) (.num (v.extractLsb' 0 8))
  | off f i : Builds (.off f) (f i) (.num 0) (.num (i.extractLsb' 8 8)) (.num (i.extractLsb' 0 8))
  | qoff f q i : Builds (.qoff f) (f q i) (.num (0#4 ++ q)) (.num (i.extractLsb' 8 8)) (.num (i.extractLsb' 0 8))
  | koff f k i : Builds (.koff f) (f k i) (.opnd (.k k)) (.num (i.extractLsb' 8 8)) (.num (i.extractLsb' 0 8))
  | kreg f k : Builds (.kreg f) (f k) (.num 0) (.opnd (.k k)) (.num 0)
  | loop k n : Builds .loop (.loop k n) (.num 0) (.opnd (.k k)) (.num n)
  | q f q : Builds (.q f) (f q) (.num (0#4 ++ q)) (.num 0) (.num 0)
  | wcnt p k : Builds .wcnt (.wcnt p k) (.num (0#6 ++ p)) (.opnd (.k k)) (.num 0)
  | bar s n : Builds .bar (.bar s n) (.num (if s then 1 else 0)) (.num 0) (.num (0#4 ++ n))
  | sysrd o n : Builds .sysrd (.sysrd o n) (.opnd o) (.num 0) (.num n.code)
  | syswr o n : Builds .syswr (.syswr o n) (.num 0) (.opnd o) (.num n.code)
  | wset s : Builds .wset (.wset s) (.num (0#6 ++ s)) (.num 0) (.num 0)
  | wchk s i : Builds .wchk (.wchk s i) (.num (0#6 ++ s)) (.num (i.extractLsb' 8 8)) (.num (i.extractLsb' 0 8))
  | fnc k s : Builds .fnc (.fnc k s) (.num (0#3 ++ k.code ++ s.code)) (.num 0) (.num 0)
  | d f o : Builds (.d f) (f o) (.opnd o) (.num 0) (.num 0)
  | a f o : Builds (.a f) (f o) (.num 0) (.opnd o) (.num 0)
  | da f o p : Builds (.da f) (f o p) (.opnd o) (.opnd p) (.num 0)
  | ab f o p : Builds (.ab f) (f o p) (.num 0) (.opnd o) (.opnd p)
  | dab f o p z : Builds (.dab f) (f o p z) (.opnd o) (.opnd p) (.opnd z)
  | sab f o p z : Builds (.sab f) (f o p z) (.opnd o) (.opnd p) (.opnd z)
  | qab f q o p : Builds (.qab f) (f q o p) (.num (0#4 ++ q)) (.opnd o) (.opnd p)
  | qqq f q o p : Builds (.qqq f) (f q o p) (.num (0#4 ++ q)) (.num (0#4 ++ o)) (.num (0#4 ++ p))
  | qq f q o : Builds (.qq f) (f q o) (.num (0#4 ++ q)) (.num (0#4 ++ o)) (.num 0)
  | qa f q o : Builds (.qa f) (f q o) (.num (0#4 ++ q)) (.opnd o) (.num 0)
  | dq f o q : Builds (.dq f) (f o q) (.opnd o) (.num (0#4 ++ q)) (.num 0)
  | kq k q : Builds .kq (.kq k q) (.opnd (.k k)) (.num (0#4 ++ q)) (.num 0)

/-- R65. The word of an instruction that the shape of an opcode's cell builds has that opcode and the fields of the shape. -/
theorem Fmt.Builds.raw {n : Nat} (hn : n < 256) {f : Fmt} (hf : fmtOf n = some f) {i : Instr} {d a b : RawField}
    (h : f.Builds i d a b) : i.raw = some (BitVec.ofNat 8 n, d, a, b) := by
  interval_cases n <;> cases hf <;> cases h <;> rfl

/-- R65. The cell of the opcode of an instruction's word holds the shape that builds the instruction. -/
theorem exists_fmt_builds {i : Instr} {op : BitVec 8} {d a b : RawField} (h : i.raw = some (op, d, a, b)) :
    ∃ f, fmtOf op.toNat = some f ∧ f.Builds i d a b := by
  cases i <;> cases h <;> exact ⟨_, rfl, by constructor⟩

/-! ### What the decoder reads of a word -/

/-- The two bytes of an imm16 are those of the value that they make up. -/
theorem reads_imm16_high {a b : BitVec 8} {ws : List W32} : (RawField.num ((a ++ b).extractLsb' 8 8)).Reads a ws ws :=
  reads_num BitVec.extractLsb'_append_eq_left

theorem reads_imm16_low {a b : BitVec 8} {ws : List W32} : (RawField.num ((a ++ b).extractLsb' 0 8)).Reads b ws ws :=
  reads_num BitVec.extractLsb'_append_eq_right

theorem Fmt.builds_of_decode {f : Fmt} {d a b : BitVec 8} {ws rest : List W32} {i : Instr}
    (h : f.decode d a b ws = .ok (i, rest)) :
    ∃ D A B v w, f.Builds i D A B ∧ D.Reads d ws v ∧ A.Reads a v w ∧ B.Reads b w rest := by
  cases f <;> simp only [Fmt.decode, except_bind_eq_ok, Prod.exists, ite_ok_eq_ok, ite_error_eq_ok, not_not, not_or] at h
  case none =>
    obtain ⟨_, hd, _, ha, _, hb, hi⟩ := h
    cases hi
    exact ⟨_, _, _, _, _, .none _, reads_num (decZero_ok hd), reads_num (decZero_ok ha), reads_num (decZero_ok hb)⟩
  case mode =>
    obtain ⟨hd, hi⟩ := h
    cases hi
    exact ⟨_, _, _, _, _, .mode .., reads_num (zero_append_low hd), reads_imm16_high, reads_imm16_low⟩
  case off f =>
    obtain ⟨_, hd, hi⟩ := h
    cases hi
    exact ⟨_, _, _, _, _, .off .., reads_num (decZero_ok hd), reads_imm16_high, reads_imm16_low⟩
  case qoff f =>
    obtain ⟨q, hd, hi⟩ := h
    cases hi
    exact ⟨_, _, _, _, _, .qoff .., reads_num (decQ_ok hd), reads_imm16_high, reads_imm16_low⟩
  case koff f =>
    obtain ⟨k, hd, hi⟩ := h
    cases hi
    exact ⟨_, _, _, _, _, .koff .., decK_ok hd, reads_imm16_high, reads_imm16_low⟩
  case kreg f =>
    obtain ⟨_, hd, _, hb, k, ha, hi⟩ := h
    cases hi
    exact ⟨_, _, _, _, _, .kreg .., reads_num (decZero_ok hd), decK_ok ha, reads_num (decZero_ok hb)⟩
  case loop =>
    obtain ⟨_, hd, k, ha, hi⟩ := h
    cases hi
    exact ⟨_, _, _, _, _, .loop .., reads_num (decZero_ok hd), decK_ok ha, reads_num rfl⟩
  case q f =>
    obtain ⟨_, ha, _, hb, q, hd, hi⟩ := h
    cases hi
    exact ⟨_, _, _, _, _, .q .., reads_num (decQ_ok hd), reads_num (decZero_ok ha), reads_num (decZero_ok hb)⟩
  case wcnt =>
    obtain ⟨_, hb, hd, k, ha, hi⟩ := h
    cases hi
    exact ⟨_, _, _, _, _, .wcnt .., reads_num (zero_append_low hd), decK_ok ha, reads_num (decZero_ok hb)⟩
  case bar =>
    obtain ⟨_, ha, ⟨hd, hb⟩, hi⟩ := h
    cases hi
    exact ⟨_, _, _, _, _, .bar .., reads_num (bar_scope_byte (by omega)), reads_num (decZero_ok ha),
      reads_num (zero_append_low (bar_number_high (by omega)))⟩
  case sysrd =>
    obtain ⟨_, ha, n, hb, o, hd, hi⟩ := h
    cases hi
    exact ⟨_, _, _, _, _, .sysrd .., decDest_ok hd, reads_num (decZero_ok ha), reads_num (decSpecial_ok hb)⟩
  case syswr =>
    obtain ⟨_, hd, n, hb, o, v, ha, hi⟩ := h
    cases hi
    exact ⟨_, _, _, _, _, .syswr .., reads_num (decZero_ok hd), decSrc_ok ha, reads_num (decSpecial_ok hb)⟩
  case wset =>
    obtain ⟨_, ha, _, hb, hd, hi⟩ := h
    cases hi
    exact ⟨_, _, _, _, _, .wset .., reads_num (zero_append_low hd), reads_num (decZero_ok ha), reads_num (decZero_ok hb)⟩
  case wchk =>
    obtain ⟨hd, hi⟩ := h
    cases hi
    exact ⟨_, _, _, _, _, .wchk .., reads_num (zero_append_low hd), reads_imm16_high, reads_imm16_low⟩
  case fnc =>
    obtain ⟨_, ha, _, hb, hd, s, hs, hi⟩ := h
    cases hi
    refine ⟨_, _, _, _, _, .fnc .., reads_num ?_, reads_num (decZero_ok ha), reads_num (decZero_ok hb)⟩
    rw [code_decKind, decScope_ok hs, fence_byte hd]
  case d f =>
    obtain ⟨_, ha, _, hb, o, hd, hi⟩ := h
    cases hi
    exact ⟨_, _, _, _, _, .d .., decDest_ok hd, reads_num (decZero_ok ha), reads_num (decZero_ok hb)⟩
  case a f =>
    obtain ⟨_, hd, _, hb, o, v, ha, hi⟩ := h
    cases hi
    exact ⟨_, _, _, _, _, .a .., reads_num (decZero_ok hd), decSrc_ok ha, reads_num (decZero_ok hb)⟩
  case da f =>
    obtain ⟨_, hb, o, hd, p, v, ha, hi⟩ := h
    cases hi
    exact ⟨_, _, _, _, _, .da .., decDest_ok hd, decSrc_ok ha, reads_num (decZero_ok hb)⟩
  case ab f =>
    obtain ⟨_, hd, o, v, ha, p, w, hb, hi⟩ := h
    cases hi
    exact ⟨_, _, _, _, _, .ab .., reads_num (decZero_ok hd), decSrc_ok ha, decSrc_ok hb⟩
  case dab f =>
    obtain ⟨o, hd, p, v, ha, z, w, hb, hi⟩ := h
    cases hi
    exact ⟨_, _, _, _, _, .dab .., decDest_ok hd, decSrc_ok ha, decSrc_ok hb⟩
  case sab f =>
    obtain ⟨o, u, hd, p, v, ha, z, w, hb, hi⟩ := h
    cases hi
    exact ⟨_, _, _, _, _, .sab .., decSrc_ok hd, decSrc_ok ha, decSrc_ok hb⟩
  case qab f =>
    obtain ⟨q, hd, o, v, ha, p, w, hb, hi⟩ := h
    cases hi
    exact ⟨_, _, _, _, _, .qab .., reads_num (decQ_ok hd), decSrc_ok ha, decSrc_ok hb⟩
  case qqq f =>
    obtain ⟨q, hd, o, ha, p, hb, hi⟩ := h
    cases hi
    exact ⟨_, _, _, _, _, .qqq .., reads_num (decQ_ok hd), reads_num (decQ_ok ha), reads_num (decQ_ok hb)⟩
  case qq f =>
    obtain ⟨_, hb, q, hd, o, ha, hi⟩ := h
    cases hi
    exact ⟨_, _, _, _, _, .qq .., reads_num (decQ_ok hd), reads_num (decQ_ok ha), reads_num (decZero_ok hb)⟩
  case qa f =>
    obtain ⟨_, hb, q, hd, o, v, ha, hi⟩ := h
    cases hi
    exact ⟨_, _, _, _, _, .qa .., reads_num (decQ_ok hd), decSrc_ok ha, reads_num (decZero_ok hb)⟩
  case dq f =>
    obtain ⟨_, hb, o, hd, q, ha, hi⟩ := h
    cases hi
    exact ⟨_, _, _, _, _, .dq .., decDest_ok hd, reads_num (decQ_ok ha), reads_num (decZero_ok hb)⟩
  case kq =>
    obtain ⟨_, hb, k, hd, q, ha, hi⟩ := h
    cases hi
    exact ⟨_, _, _, _, _, .kq .., decK_ok hd, reads_num (decQ_ok ha), reads_num (decZero_ok hb)⟩

/-- R66. Whether the field d of a shape is a destination of the register-field map. -/
def Fmt.destFirst : Fmt → Bool
  | .sysrd | .d _ | .da _ | .dab _ | .dq _ => true
  | _ => false

/-- R51, R66. The field d of an opcode whose shape begins with a destination admits destinations only. -/
theorem dest_of_admits {n : Nat} (hn : n < 256) {f : Fmt} (hf : fmtOf n = some f) (hd : f.destFirst = true) {o : Operand}
    (ho : (fieldClasses n).1.admits o = true) : FieldClass.dest.admits o = true := by
  have classes : (fieldClasses n).1 ∈ [FieldClass.dest, .destVX, .destV, .destKV] := by
    interval_cases n <;> cases hf <;> cases hd <;> decide
  generalize (fieldClasses n).1 = cl at classes ho
  cases o with
  | v _ | k _ | x _ => rfl
  | _ =>
    simp only [List.mem_cons, List.not_mem_nil, or_false] at classes
    rcases classes with rfl | rfl | rfl | rfl <;> cases ho

/-! ### What the decoder reads of the bytes of the fields -/

@[simp] theorem RawField.byte_num (n : BitVec 8) : (RawField.num n).byte = n := rfl
@[simp] theorem RawField.byte_opnd (o : Operand) : (RawField.opnd o).byte = o.code := rfl
@[simp] theorem RawField.literals_num (n : BitVec 8) : (RawField.num n).literals = [] := rfl
@[simp] theorem RawField.literals_opnd (o : Operand) : (RawField.opnd o).literals = o.literals := rfl
@[simp] theorem Operand.literals_k (n : Nat) : (Operand.k n).literals = [] := rfl

/-- R51. A destination takes no literal. -/
theorem literals_of_dest {o : Operand} (h : FieldClass.dest.admits o = true) : o.literals = [] := by
  cases o with
  | lit32 _ | lit64 _ => cases h
  | _ => rfl

/-- The value of an imm16 is made up of its two bytes. -/
@[simp] theorem imm16_bytes (v : BitVec 16) : v.extractLsb' 8 8 ++ v.extractLsb' 0 8 = v :=
  BitVec.extractLsb'_append_extractLsb' (w := 8)

@[simp] theorem except_ok_bind {ε α β : Type} (x : α) (f : α → Except ε β) : (Except.ok x >>= f) = f x := rfl

/-- R41, R53. The decoder reads the instruction that a shape builds from the bytes of its fields and their literals. -/
theorem Fmt.Builds.decode {f : Fmt} {i : Instr} {D A B : RawField} (h : f.Builds i D A B) (hD : D.inRange = true)
    (hA : A.inRange = true) (hB : B.inRange = true)
    (dest : f.destFirst = true → ∀ o, D = .opnd o → FieldClass.dest.admits o = true) (rest : List W32) :
    f.decode D.byte A.byte B.byte (D.literals ++ (A.literals ++ (B.literals ++ rest))) = .ok (i, rest) := by
  cases h with
  | none | off | qoff | q | qqq | qq => simp [Fmt.decode]
  | koff | kq => simp [Fmt.decode, decK_code hD]
  | kreg | loop => simp [Fmt.decode, decK_code hA]
  | mode | wset | wchk =>
    simp only [Fmt.decode, RawField.byte_num, BitVec.extractLsb'_append_eq_left, BitVec.extractLsb'_append_eq_right]
    simp
  | wcnt =>
    simp only [Fmt.decode, RawField.byte_num, BitVec.extractLsb'_append_eq_left, BitVec.extractLsb'_append_eq_right]
    simp [decK_code hA]
  | bar s n =>
    simp only [Fmt.decode, RawField.byte_num, BitVec.extractLsb'_append_eq_right]
    cases s <;> simp [bar_number_le]
  | fnc k s =>
    simp only [Fmt.decode, RawField.byte_num, BitVec.extractLsb'_append_eq_right]
    simp [fence_high, fence_kind]
  | sysrd o _ | d _ o | dq _ o _ =>
    have ho := dest rfl o rfl
    simp [Fmt.decode, decDest_code hD ho, literals_of_dest ho]
  | da _ o _ =>
    have ho := dest rfl o rfl
    simp [Fmt.decode, decDest_code hD ho, literals_of_dest ho, decSrc_code hA]
  | dab _ o _ _ =>
    have ho := dest rfl o rfl
    simp [Fmt.decode, decDest_code hD ho, literals_of_dest ho, decSrc_code hA, decSrc_code hB]
  | syswr | a | qa => simp [Fmt.decode, decSrc_code hA]
  | ab | qab => simp [Fmt.decode, decSrc_code hA, decSrc_code hB]
  | sab => simp [Fmt.decode, decSrc_code hD, decSrc_code hA, decSrc_code hB]

/-! ### Whole words -/

/-- R41. A word is its four bytes. -/
theorem word_bytes (w : W32) :
    w.extractLsb' 24 8 ++ w.extractLsb' 16 8 ++ w.extractLsb' 8 8 ++ w.extractLsb' 0 8 = w := by
  rw [BitVec.extractLsb'_append_extractLsb'_eq_extractLsb' (start₁ := 16) (len₁ := 8) rfl,
    BitVec.extractLsb'_append_extractLsb'_eq_extractLsb' (start₁ := 8) (len₁ := 8) rfl,
    BitVec.extractLsb'_append_extractLsb'_eq_extractLsb' (start₁ := 0) (len₁ := 8) rfl]
  exact BitVec.extractLsb'_eq_self

section
variable (op d a b : BitVec 8)

theorem word_opcode : (op ++ d ++ a ++ b).extractLsb' 24 8 = op := by
  rw [BitVec.extractLsb'_append_eq_of_le (by decide), BitVec.extractLsb'_append_eq_of_le (by decide)]
  exact BitVec.extractLsb'_append_eq_left

theorem word_header : (op ++ d ++ a ++ b).extractLsb' 27 5 = op.extractLsb' 3 5 := by
  rw [BitVec.extractLsb'_append_eq_of_le (by decide), BitVec.extractLsb'_append_eq_of_le (by decide),
    BitVec.extractLsb'_append_eq_of_le (by decide)]

theorem word_d : (op ++ d ++ a ++ b).extractLsb' 16 8 = d := by
  rw [BitVec.extractLsb'_append_eq_of_le (by decide), BitVec.extractLsb'_append_eq_of_le (by decide)]
  exact BitVec.extractLsb'_append_eq_right

theorem word_a : (op ++ d ++ a ++ b).extractLsb' 8 8 = a := by
  rw [BitVec.extractLsb'_append_eq_of_le (by decide)]
  exact BitVec.extractLsb'_append_eq_right

theorem word_b : (op ++ d ++ a ++ b).extractLsb' 0 8 = b := BitVec.extractLsb'_append_eq_right

end

/-- R42, R65. No opcode with a cell in the map is that of a header. -/
theorem opcode_not_header : ∀ op : BitVec 8, (fmtOf op.toNat).isSome = true → op.extractLsb' 3 5 ≠ (0b11111 : BitVec 5) := by
  decide

end Sys2Proof

/-! R41, R42, R51 to R53, R65, R66. The encoder and the decoder are inverse to each other on well-formed instructions. -/

namespace Sys2Proof

/-- R41, R65. A word whose opcode's cell holds a shape that reads an instruction without a fault decodes to the instruction. -/
theorem decodeInstr_word {op d a b : BitVec 8} {f : Fmt} (hf : fmtOf op.toNat = some f) {ws rest : List W32} {i : Instr}
    (hi : f.decode d a b ws = .ok (i, rest)) (hw : i.classFault = none) (hl : i.limitFault = none) :
    decodeInstr ((op ++ d ++ a ++ b) :: ws) = .ok (i, rest) := by
  have hh := opcode_not_header op (by rw [hf]; rfl)
  rw [decodeInstr, word_header, if_neg hh, word_opcode, hf, word_d, word_a, word_b]
  simp [hi, hw, hl]

/-- R51. A field of no fault is an operand of its class. -/
theorem admits_of_fieldFault {c : FieldClass} {o : Operand} (h : fieldFault c (.opnd o) = none) : c.admits o = true := by
  unfold fieldFault at h
  dsimp only at h
  split at h
  · assumption
  · split at h <;> cases h

/-- R66. The parts of well-formedness of an instruction with a word. -/
theorem wellFormed_of_raw {i : Instr} {op : BitVec 8} {d a b : RawField} (hr : i.raw = some (op, d, a, b))
    (h : i.wellFormed = true) :
    d.inRange = true ∧ a.inRange = true ∧ b.inRange = true ∧ i.classFault = none ∧ i.limitFault = none := by
  simpa [Instr.wellFormed, Instr.fieldsInRange, hr, and_assoc] using h

/-- R66. An instruction without a class fault has a field d of its class. -/
theorem fieldFault_of_classFault {i : Instr} {op : BitVec 8} {d a b : RawField} (hr : i.raw = some (op, d, a, b))
    (h : i.classFault = none) : fieldFault (fieldClasses op.toNat).1 d = none := by
  simp only [Instr.classFault, hr, Option.or_eq_none_iff] at h
  exact h.1

/-- Settles O53: the opcode of the word names the shape that builds the instruction, and the decoder reads the fields of the
shape from their own bytes. -/
theorem decodeEncode : Obligations.DecodeEncode := by
  intro i hw hr rest
  obtain ⟨⟨op, d, a, b⟩, raw⟩ := Option.isSome_iff_exists.mp hr
  obtain ⟨hd, ha, hb, hc, hl⟩ := wellFormed_of_raw raw hw
  obtain ⟨f, hf, built⟩ := exists_fmt_builds raw
  have dest : f.destFirst = true → ∀ o, d = .opnd o → FieldClass.dest.admits o = true := by
    rintro first o rfl
    exact dest_of_admits op.isLt hf first (admits_of_fieldFault (fieldFault_of_classFault raw hc))
  have words : encode i ++ rest = (op ++ d.byte ++ a.byte ++ b.byte) :: (d.literals ++ (a.literals ++ (b.literals ++ rest))) := by
    simp [encode, raw]
  rw [words]
  exact decodeInstr_word hf (built.decode hd ha hb dest rest) hc hl

/-- R41, R65. Words that decode are a word with the opcode of a shape, which reads the instruction from its bytes, and the
instruction has no fault of classes or limits. -/
theorem decodeInstr_ok {ws rest : List W32} {i : Instr} (h : decodeInstr ws = .ok (i, rest)) :
    ∃ (op d a b : BitVec 8) (tail : List W32) (f : Fmt), ws = (op ++ d ++ a ++ b) :: tail ∧ fmtOf op.toNat = some f ∧ f.decode d a b tail = .ok (i, rest) ∧
      i.classFault = none ∧ i.limitFault = none := by
  cases ws with
  | nil => cases h
  | cons w ws =>
    by_cases header : w.extractLsb' 27 5 = 0b11111
    · rw [decodeInstr, if_pos header] at h
      cases h
    rw [decodeInstr, if_neg header] at h
    cases hf : fmtOf (w.extractLsb' 24 8).toNat with
    | none =>
      rw [hf] at h
      cases h
    | some f =>
      rw [hf] at h
      obtain ⟨⟨j, r⟩, hd, hj⟩ := except_bind_eq_ok.mp h
      cases no : j.classFault.or j.limitFault with
      | some e =>
        simp only [no] at hj
        cases hj
      | none =>
        simp only [no] at hj
        cases hj
        obtain ⟨hc, hl⟩ := Option.or_eq_none_iff.mp no
        exact ⟨_, _, _, _, _, f, by rw [word_bytes], hf, hd, hc, hl⟩

/-- Settles O54: the shape of the opcode builds the instruction that it reads, with fields whose bytes and literals make up the
words. -/
theorem encodeDecode : Obligations.EncodeDecode := by
  intro ws i rest h
  obtain ⟨op, d, a, b, tail, f, rfl, hf, hd, hc, hl⟩ := decodeInstr_ok h
  obtain ⟨D, A, B, v, w, built, rD, rA, rB⟩ := Fmt.builds_of_decode hd
  have raw : i.raw = some (op, D, A, B) := by
    rw [built.raw op.isLt hf, BitVec.ofNat_toNat, BitVec.setWidth_eq]
  refine ⟨?_, by simp [Instr.hasWord, raw], ?_⟩
  · simp [Instr.wellFormed, Instr.fieldsInRange, raw, rD.inRange, rA.inRange, rB.inRange, hc, hl]
  · simp [encode, raw, rD.byte, rA.byte, rB.byte, rD.words, rA.words, rB.words]

/-- Settles O60: the decoder evaluated on each of the words. -/
theorem decodeWords : Obligations.DecodeWords :=
  ⟨rfl, rfl, rfl, rfl, rfl, rfl, rfl, rfl, rfl, rfl, rfl⟩

end Sys2Proof

/-! R43, R47, R287. The machine always goes on: an instruction acts on the clause in execution, an event answers a next state, and
the default scheduler names events only (log 3). -/

namespace Sys2Proof.Machine

/-! ### What an instruction and an event answer -/

/-- What acts on the clause in execution answers a next state where there is one. -/
theorem next_of_onIssue {o : State → Out} (h : ∃ f, ∀ s, o s = State.onIssue s f) {s : State} {c : Issue}
    (hc : s.issue = some c) : ∃ t, o s = .next t := by
  obtain ⟨f, hf⟩ := h
  rw [hf]
  exact State.onIssue_next f hc

/-- R43, R47. With a clause in execution every instruction answers a next state: those that nothing stops retire, and the others
retire or end the clause. -/
theorem exec_instruction {s : State} {c : Issue} (hc : s.issue = some c) {i : Instr} (h : i.hasWord = true) :
    ∃ t, exec i s = .next t := by
  cases i <;> cases h
  case nop | mode | bra | bany | ball | join | call | trap | brk | sysrd | yield | wset | wchk | clk | mov | ceq | cne | clt
    | cle | cgt | cge | cun | sel | qand | qor | qxor | qnot | qmov | qmsk | kq | shf | shx | shup | shdn | qswx | qswy | qswd
    | qbc | cmpr | expd | sldu | sldd | mtch | mtcn | rbor | rband | bcl | vote | topk | ffs =>
    cases s
    cases hc
    exact ⟨_, rfl⟩
  all_goals
    refine next_of_onIssue (o := exec _) ?_ hc
    exact ⟨_, fun _ => rfl⟩

/-- An event answers a next state. -/
theorem exec_event {i : Instr} (h : i.hasWord = false) (s : State) : ∃ t, exec i s = .next t := by
  cases i <;> cases h <;> exact ⟨_, rfl⟩

/-- With a clause in execution every instruction and every event answers a next state. -/
theorem exec_next {s : State} {c : Issue} (hc : s.issue = some c) (i : Instr) : ∃ t, exec i s = .next t := by
  cases h : i.hasWord with
  | false => exact exec_event h s
  | true => exact exec_instruction hc h

/-! ### What the default scheduler names -/

/-- What is named, if something is, is an event. -/
def EventOnly (o : Option Instr) : Prop := ∀ i ∈ o, i.hasWord = false

@[simp] theorem eventOnly_none : EventOnly none := fun _ h => by cases h

@[simp] theorem eventOnly_some {i : Instr} : EventOnly (some i) ↔ i.hasWord = false := by simp [EventOnly]

theorem EventOnly.or {o p : Option Instr} (ho : EventOnly o) (hp : EventOnly p) : EventOnly (o.or p) := by
  cases o with
  | none => exact hp
  | some i => exact ho

theorem EventOnly.ite {c : Prop} [Decidable c] {o p : Option Instr} (ho : EventOnly o) (hp : EventOnly p) :
    EventOnly (if c then o else p) := by
  split
  · exact ho
  · exact hp

theorem eventOnly_map {α : Type} (o : Option α) {f : α → Instr} (h : ∀ x, (f x).hasWord = false) : EventOnly (o.map f) := by
  cases o with
  | none => exact eventOnly_none
  | some x => exact eventOnly_some.2 (h x)

theorem eventOnly_bind {α : Type} (o : Option α) {f : α → Option Instr} (h : ∀ x, EventOnly (f x)) : EventOnly (o.bind f) := by
  cases o with
  | none => exact eventOnly_none
  | some x => exact h x

theorem eventOnly_findSome? {α : Type} (l : List α) {f : α → Option Instr} (h : ∀ x, EventOnly (f x)) :
    EventOnly (l.findSome? f) := by
  intro i hi
  obtain ⟨x, _, hx⟩ := List.exists_of_findSome?_eq_some (Option.mem_def.mp hi)
  exact h x i hx

/-- An event of a unit or an engine is named where it may act. -/
theorem EventOnly.ifActs {o : Option Instr} (h : EventOnly o) (s : State) (w : Option WaveId) :
    EventOnly (o.bind (s.ifActs w)) := by
  cases o with
  | none => exact eventOnly_none
  | some i => exact EventOnly.ite h eventOnly_none

theorem eventOnly_bringupNext (s : State) : EventOnly (bringupNext s) := EventOnly.ite (by simp; rfl) eventOnly_none

theorem eventOnly_accessEvent (d : Dev) (a : Access) : EventOnly (d.accessEvent a) := by
  have late : EventOnly (some (.longLatencyCompletion a.op (.whole allLanes))) := eventOnly_some.2 rfl
  have done_ : EventOnly (some (.accessPerformed a.op 64)) := eventOnly_some.2 rfl
  unfold Dev.accessEvent
  dsimp only
  split
  · exact late.ite eventOnly_none
  · exact late.ite eventOnly_none
  · exact late.ite (done_.ite eventOnly_none)
  · exact late.ite (done_.ite eventOnly_none)
  · exact late
  · exact done_.ite (late.ite eventOnly_none)
  · exact done_.ite eventOnly_none
  · exact done_.ite eventOnly_none
  · exact done_.ite eventOnly_none
  · exact eventOnly_none

theorem eventOnly_accessNext (s : State) : EventOnly (accessNext s) :=
  (eventOnly_findSome? _ fun a => eventOnly_accessEvent _ a).or
    (eventOnly_findSome? _ fun _ => eventOnly_map _ fun _ => rfl)

theorem eventOnly_verdictNext (s : State) : EventOnly (verdictNext s) :=
  eventOnly_findSome? _ fun _ => eventOnly_map _ fun _ => rfl

theorem eventOnly_fillNext (s : State) : EventOnly (fillNext s) :=
  EventOnly.ite (eventOnly_some.2 rfl) (eventOnly_map _ fun _ => rfl)

theorem eventOnly_rightNext (s : State) : EventOnly (rightNext s) :=
  (eventOnly_findSome? _ fun _ => EventOnly.ite (eventOnly_some.2 rfl) (EventOnly.ite (eventOnly_some.2 rfl) eventOnly_none)).or
    (eventOnly_map _ fun _ => rfl)

theorem eventOnly_matrixEvent (s : State) (core : Nat) (m : MatrixOp) : EventOnly (s.matrixEvent core m) := by
  cases m with
  | wld => exact (eventOnly_some.2 rfl).ite eventOnly_none
  | wfmt | wswp => exact eventOnly_some.2 rfl
  | mma _ part => exact EventOnly.ite (by cases part <;> exact eventOnly_some.2 rfl) eventOnly_none
  | mmz => exact (eventOnly_some.2 rfl).ite eventOnly_none
  | results _ of_ => cases of_ <;> exact eventOnly_some.2 rfl

theorem eventOnly_matrixNext (s : State) : EventOnly (matrixNext s) := by
  refine eventOnly_findSome? _ fun c => ?_
  split
  · exact eventOnly_matrixEvent _ _ _
  · exact eventOnly_none

theorem eventOnly_splatEvent (s : State) (u : Nat) (o : SplatOp) : EventOnly (s.splatEvent u o) := by
  refine EventOnly.ite eventOnly_none (EventOnly.ifActs ?_ _ _)
  split
  case h_7 => exact eventOnly_none
  all_goals exact eventOnly_some.2 rfl

theorem eventOnly_splatNext (s : State) : EventOnly (splatNext s) := by
  refine eventOnly_findSome? _ fun u => ?_
  have head : EventOnly (u.queue.head?.bind (s.splatEvent u.index)) := eventOnly_bind _ fun o => eventOnly_splatEvent s _ o
  split
  · exact EventOnly.ite (eventOnly_some.2 rfl) head
  · exact head

theorem eventOnly_cmdActs (s : State) (c : EngineCmd) : EventOnly (s.cmdActs c) := by
  unfold State.cmdActs
  refine EventOnly.ite ?rejected (eventOnly_none.ite ?runs)
  case rejected => split <;> exact eventOnly_some.2 rfl
  case runs =>
    split
    · exact eventOnly_some.2 rfl
    · exact eventOnly_some.2 rfl
    · exact eventOnly_none.ite (eventOnly_some.2 rfl)
    · exact EventOnly.ite (eventOnly_some.2 rfl) (eventOnly_none.ite (eventOnly_some.2 rfl))
    · exact eventOnly_none.ite (eventOnly_some.2 rfl)
    · exact eventOnly_none.ite (eventOnly_some.2 rfl)
    · split <;> exact eventOnly_some.2 rfl

theorem eventOnly_engineNext (s : State) : EventOnly (engineNext s) :=
  eventOnly_findSome? _ fun c => EventOnly.ite (EventOnly.ite (eventOnly_some.2 rfl) eventOnly_none)
    (EventOnly.ite ((eventOnly_cmdActs s c).ifActs s _) eventOnly_none)

theorem eventOnly_walkerNext (s : State) : EventOnly (walkerNext s) := by
  refine (eventOnly_findSome? _ fun g => eventOnly_none.ite (eventOnly_findSome? _ fun n => ?node)).or
    (eventOnly_findSome? _ fun c => ?accepted)
  case node =>
    exact EventOnly.ite (eventOnly_some.2 rfl) (EventOnly.ite (eventOnly_some.2 rfl) ((eventOnly_some.2 rfl).ite eventOnly_none))
  case accepted =>
    split
    · exact EventOnly.ite ((eventOnly_some.2 rfl).ite eventOnly_none) ((eventOnly_some.2 rfl).ite eventOnly_none)
    · exact eventOnly_none

theorem eventOnly_launchNext (s : State) : EventOnly (launchNext s) := by
  refine (eventOnly_map _ fun _ => rfl).or ((eventOnly_findSome? _ fun l => ?_).or (eventOnly_map _ fun _ => rfl))
  split
  · exact EventOnly.ite (eventOnly_map _ fun _ => rfl) eventOnly_none
  · exact eventOnly_none

theorem eventOnly_waveNext (s : State) : EventOnly (waveNext s) :=
  eventOnly_findSome? _ fun _ => EventOnly.ite
    (EventOnly.ite (eventOnly_some.2 rfl) ((eventOnly_some.2 rfl).ite eventOnly_none))
    ((eventOnly_some.2 rfl).ite eventOnly_none)

theorem eventOnly_firstNamed (s : State) {l : List (State → Option Instr)} (h : ∀ f ∈ l, EventOnly (f s)) :
    EventOnly (firstNamed s l) := by
  induction l with
  | nil => exact eventOnly_none
  | cons f l ih =>
    have first := h f List.mem_cons_self
    unfold firstNamed
    split
    · rename_i i hi
      rwa [hi] at first
    · exact ih fun g hg => h g (List.mem_cons_of_mem f hg)

/-- The default scheduler names an event. -/
theorem nextEvent_hasWord (s : State) : (nextEvent s).hasWord = false := by
  have named : EventOnly (firstNamed s [bringupNext, accessNext, verdictNext, fillNext, rightNext, matrixNext, splatNext,
      engineNext, walkerNext, launchNext, waveNext]) := by
    refine eventOnly_firstNamed s ?_
    simp only [List.forall_mem_cons, List.not_mem_nil, false_imp_iff, implies_true, and_true]
    exact ⟨eventOnly_bringupNext s, eventOnly_accessNext s, eventOnly_verdictNext s, eventOnly_fillNext s, eventOnly_rightNext s,
      eventOnly_matrixNext s, eventOnly_splatNext s, eventOnly_engineNext s, eventOnly_walkerNext s, eventOnly_launchNext s,
      eventOnly_waveNext s⟩
  unfold nextEvent
  cases h : firstNamed s _ with
  | none => rfl
  | some i => exact named i h

/-! ### What a step answers -/

/-- R43, R47, R49. A step of the clause in execution answers a next state. -/
theorem stepClause_next {s : State} {c : Issue} (hc : s.issue = some c) : ∃ t, stepClause s c = .next t := by
  unfold stepClause
  split
  · exact ⟨_, rfl⟩
  split
  · exact ⟨_, rfl⟩
  split
  · exact ⟨_, rfl⟩
  split
  · exact ⟨_, rfl⟩
  · rename_i i rest _
    obtain ⟨t, ht⟩ := exec_next hc i
    rw [ht]
    exact ⟨_, rfl⟩

/-- Once its time has passed, a step answers a next state: an instruction on the tape is dropped. -/
theorem State.proceed_next (s : State) : ∃ t, s.proceed = .next t := by
  unfold State.proceed
  split
  · rename_i i rest _
    dsimp only
    split
    · exact ⟨_, rfl⟩
    · rename_i event
      exact exec_event (by simp at event; exact event.1) _
  · split
    · exact stepClause_next ‹_›
    · split
      · exact ⟨_, rfl⟩
      · exact exec_event (nextEvent_hasWord s) s

/-- Settles O56: whatever the time that passes leaves, the device goes on from it. -/
theorem alwaysGoesOn : Obligations.AlwaysGoesOn := fun s => State.proceed_next s.advance

end Sys2Proof.Machine

/-! R58, R67, R265, R281, R287. The instructions that only retire or leave a mark. -/

namespace Sys2Proof.Machine

open Sys2Proof.Spec

/-- R67. The address of a label is the clause's own header and a signed number of words. -/
theorem Issue.target_eq_labelAt (c : Issue) (i : BitVec 16) : c.target i = labelAt c i := by
  rw [labelAt, BitVec.ofInt_add, BitVec.ofInt_mul, BitVec.ofInt_natCast, BitVec.ofNat_toNat, BitVec.setWidth_eq]
  rfl

theorem Issue.kLow_eq (c : Issue) (k : Nat) :
    BitVec.ofNat 32 (c.kLow k) = (c.wave.k.getD k 0).extractLsb' 0 32 := by
  apply BitVec.eq_of_toNat_eq
  simp [Issue.kLow]

/-- R58. The bits of the mode that a bit of the selector of `mode` replaces: TY, RM, SUB, GUARD, then one bit each. -/
def modeField (i : Nat) : Nat :=
  if i < 4 then 0 else if i < 7 then 1 else if i < 11 then 2 else if i < 14 then 3 else i - 10

/-- R58. The bits of the mode that `mode` replaces. -/
def modeMask (sel : BitVec 6) : BitVec 16 :=
  let f := fun (i : Nat) (x : BitVec 16) => if sel.getLsbD i then x else (0 : BitVec 16)
  f 0 0x000F ||| f 1 0x0070 ||| f 2 0x0780 ||| f 3 0x3800 ||| f 4 0x4000 ||| f 5 0x8000

theorem modeMask_getLsbD : ∀ sel : BitVec 6, ∀ i, i < 16 → (modeMask sel).getLsbD i = sel.getLsbD (modeField i) := by
  decide

theorem modeAfter_getLsbD (m v : BitVec 16) (sel : BitVec 6) {i : Nat} (hi : i < 16) :
    (modeAfter m (.mode sel v)).getLsbD i = if sel.getLsbD (modeField i) then v.getLsbD i else m.getLsbD i := by
  have masked : modeAfter m (.mode sel v) = (m &&& ~~~ modeMask sel) ||| (v &&& modeMask sel) := rfl
  rw [masked, ← modeMask_getLsbD sel i hi]
  simp only [BitVec.getLsbD_or, BitVec.getLsbD_and, BitVec.getLsbD_not, hi, decide_true, Bool.true_and]
  cases (modeMask sel).getLsbD i <;> simp

/-- Settles O20: each of the instructions acts on the clause alone, or reads the other waves of the bay. -/
theorem marks : Obligations.Marks := by
  refine ⟨fun sel v s c h => ?mode, fun s c h => ⟨?nop, ?trap, ?brk, ?wset, ?wchk, ?wcnt, ?detYield, ?yield⟩⟩
  case mode =>
    refine ⟨modeAfter c.pth.mode (.mode sel v), ?_, fun i hi => modeAfter_getLsbD _ v sel hi⟩
    exact State.onClause_ok (f := fun c => .ok (c.setPth { c.pth with mode := modeAfter c.pth.mode (.mode sel v) })) h rfl
  case nop => exact State.onClause_ok (f := fun c => .ok c) h rfl
  case trap => exact fun n => State.onClause_ok (f := fun c => .ok { c with trap := some (12, n.toNat) }) h rfl
  case brk => exact fun n => State.onClause_ok (f := fun c => .ok { c with trap := some (13, n.toNat) }) h rfl
  case wset => exact fun n => State.onClause_ok (f := fun c => .ok { c with wave := { c.wave with wset := n.toNat } }) h rfl
  case wchk =>
    intro n i
    rw [← Issue.target_eq_labelAt]
    exact State.onClause_ok (f := fun c => .ok (c.setPth { c.pth with wait := .wchk n.toNat (c.target i) })) h rfl
  case wcnt =>
    intro quiet p a
    rw [← Issue.kLow_eq]
    show execWcnt p a s = _
    unfold execWcnt
    exact State.onClause_ok h (by simp only [quiet, List.find?_nil])
  case detYield =>
    intro det
    show execYield s = _
    unfold execYield
    exact State.onIssue_ok h (by rw [det]; rfl)
  case yield =>
    intro det
    show execYield s = _
    unfold execYield
    exact State.onIssue_ok h (by rw [det]; rfl)

end Sys2Proof.Machine

/-! R281, R348 to R351. Taking a fault: what a halt leaves of the device, wave by wave. -/

namespace Sys2Proof.Machine

open Sys2Proof.Spec

/-! ### A change of every wave -/

theorem State.mapWaves_allWaves (s : State) (f : Wave → Wave) : (s.mapWaves f).dev.allWaves = s.dev.allWaves.map f := by
  simp [Dev.allWaves, List.flatMap_map, List.map_flatMap]

theorem find?_map_wave {f : Wave → Wave} (hf : ∀ w, (f w).id = w.id) (ws : List Wave) (i : WaveId) :
    (ws.map f).find? (fun w => w.id == i) = (ws.find? (fun w => w.id == i)).map f := by
  have same : (fun w : Wave => w.id == i) ∘ f = fun w => w.id == i := by
    funext w
    simp [hf w]
  rw [List.find?_map, same]

theorem State.mapWaves_wave? {f : Wave → Wave} (hf : ∀ w, (f w).id = w.id) (s : State) (i : WaveId) :
    (s.mapWaves f).dev.wave? i = (s.dev.wave? i).map f := by
  rw [Dev.wave?, State.mapWaves_allWaves, find?_map_wave hf]
  rfl

theorem State.mapWaves_issueOf {f : Wave → Wave} (hf : ∀ w, (f w).id = w.id) (s : State) (i : WaveId) :
    (s.mapWaves f).issueOf i = (s.issueOf i).map (fun c => c.mapWave f) := by
  have same : (fun c : Issue => c.wave.id == i) ∘ (fun c : Issue => c.mapWave f) = fun c => c.wave.id == i := by
    funext c
    simp [Issue.mapWave, hf]
  have held : (s.held.map (fun c => c.mapWave f)).find? (fun c => c.wave.id == i) =
      (s.held.find? (fun c => c.wave.id == i)).map (fun c => c.mapWave f) := by
    rw [List.find?_map, same]
  cases hc : s.issue with
  | none => simp [State.issueOf, hc, held]
  | some c =>
    by_cases hi : c.wave.id = i
    · simp [State.issueOf, hc, Issue.mapWave, hf, hi]
    · simp [State.issueOf, hc, Issue.mapWave, hf, hi]

theorem State.mapWaves_waveNow {f : Wave → Wave} (hf : ∀ w, (f w).id = w.id) (s : State) (i : WaveId) :
    (s.mapWaves f).waveNow i = (s.waveNow i).map f := by
  unfold State.waveNow
  rw [State.mapWaves_issueOf hf, State.mapWaves_wave? hf]
  cases s.issueOf i <;> rfl

theorem Dev.id_of_wave? {d : Dev} {i : WaveId} {w : Wave} (h : d.wave? i = some w) : w.id = i := by
  simpa using List.find?_some h

theorem Dev.wave?_isSome {d : Dev} {w : Wave} (h : w ∈ d.allWaves) : (d.wave? w.id).isSome :=
  List.find?_isSome.mpr ⟨w, h, by simp⟩

/-! ### What a halt changes -/

/-- A wave with its hold changed. -/
def Wave.withHold (g : Wave → Hold) (w : Wave) : Wave := { w with hold := g w }

/-- A state with the holds of its waves and the slots of the status window changed, and nothing else. -/
def State.withHolds (s : State) (g : Wave → Hold) (status : List (Nat × StatusBlock)) : State :=
  (s.mapDev (fun d => { d with status := status })).mapWaves (Wave.withHold g)

theorem State.withHolds_issueOf (s : State) (g : Wave → Hold) (st : List (Nat × StatusBlock)) (i : WaveId) :
    (s.withHolds g st).issueOf i = (s.issueOf i).map (fun c => c.mapWave (Wave.withHold g)) :=
  State.mapWaves_issueOf (f := Wave.withHold g) (fun _ => rfl) _ i

theorem State.withHolds_wave? (s : State) (g : Wave → Hold) (st : List (Nat × StatusBlock)) (i : WaveId) :
    (s.withHolds g st).dev.wave? i = (s.dev.wave? i).map (Wave.withHold g) :=
  State.mapWaves_wave? (f := Wave.withHold g) (fun _ => rfl) _ i

theorem State.withHolds_waveNow (s : State) (g : Wave → Hold) (st : List (Nat × StatusBlock)) (i : WaveId) :
    (s.withHolds g st).waveNow i = (s.waveNow i).map (Wave.withHold g) :=
  State.mapWaves_waveNow (f := Wave.withHold g) (fun _ => rfl) _ i

theorem State.withHolds_allWaves (s : State) (g : Wave → Hold) (st : List (Nat × StatusBlock)) :
    (s.withHolds g st).dev.allWaves = s.dev.allWaves.map (Wave.withHold g) :=
  State.mapWaves_allWaves _ _

theorem State.withHolds_withHolds (s : State) (g h : Wave → Hold) (a b : List (Nat × StatusBlock)) :
    (s.withHolds g a).withHolds h b = s.withHolds (fun w => h (w.withHold g)) b := by
  simp [State.withHolds, State.mapWaves, State.mapDev, Issue.mapWave, Wave.withHold, Function.comp_def]

/-- One state is the other with the waves of some names halted: nothing changes but the holds of those waves and the slots
of their places in the status window. -/
def State.Halts (s : State) (ids : List WaveId) (t : State) : Prop :=
  ∃ g status, t = s.withHolds g status ∧
    (∀ w ∈ s.dev.allWaves, w.id ∈ ids → ∃ b, g w = .halted b) ∧
    (∀ w, w.id ∉ ids → g w = w.hold) ∧
    ∀ p, (∀ w ∈ s.dev.allWaves, w.id ∈ ids → w.place ≠ p) → status.lookup p = s.dev.status.lookup p

theorem State.Halts.refl (s : State) : s.Halts [] s := by
  refine ⟨Wave.hold, s.dev.status, ?_, by simp, fun _ _ => rfl, fun _ _ => rfl⟩
  have same : Wave.withHold Wave.hold = id := rfl
  simp [State.withHolds, State.mapWaves, State.mapDev, Issue.mapWave, same]

theorem State.Halts.trans {s t u : State} {a b : List WaveId} (h : s.Halts a t) (k : t.Halts b u) : s.Halts (a ++ b) u := by
  obtain ⟨g, st, rfl, halted, kept, slots⟩ := h
  obtain ⟨g', st', rfl, halted', kept', slots'⟩ := k
  rw [State.withHolds_allWaves] at halted' slots'
  refine ⟨_, _, State.withHolds_withHolds .., fun w hw hi => ?_, fun w hi => ?_, fun p hp => ?_⟩
  · by_cases hb : w.id ∈ b
    · exact halted' _ (List.mem_map_of_mem hw) hb
    · obtain ⟨x, hx⟩ := halted w hw ((List.mem_append.mp hi).resolve_right hb)
      exact ⟨x, (kept' (w.withHold g) hb).trans hx⟩
  · rw [List.mem_append, not_or] at hi
    exact (kept' (w.withHold g) hi.2).trans (kept w hi.1)
  · refine (slots' p fun w hw hi => ?_).trans (slots p fun w hw hi => hp w hw (List.mem_append_left _ hi))
    obtain ⟨x, hx, rfl⟩ := List.mem_map.mp hw
    exact hp x hx (List.mem_append_right _ hi)

section
variable {s t : State} {ids : List WaveId} (h : s.Halts ids t)
include h

theorem State.Halts.wave?_of_notMem {i : WaveId} (hi : i ∉ ids) : t.dev.wave? i = s.dev.wave? i := by
  obtain ⟨g, st, rfl, -, kept, -⟩ := h
  rw [State.withHolds_wave?]
  cases hw : s.dev.wave? i with
  | none => rfl
  | some w =>
    have same : g w = w.hold := kept w (Dev.id_of_wave? hw ▸ hi)
    simp [Wave.withHold, same]

theorem State.Halts.lookup_status {p : Nat} (hp : ∀ w ∈ s.dev.allWaves, w.id ∈ ids → w.place ≠ p) :
    t.dev.status.lookup p = s.dev.status.lookup p := by
  obtain ⟨g, st, rfl, -, -, slots⟩ := h
  exact slots p hp

theorem State.Halts.allWaves_place {q : WaveId → Nat → Prop} (hq : ∀ w ∈ s.dev.allWaves, q w.id w.place) :
    ∀ w ∈ t.dev.allWaves, q w.id w.place := by
  obtain ⟨g, st, rfl, -, -, -⟩ := h
  rw [State.withHolds_allWaves]
  intro w hw
  obtain ⟨x, hx, rfl⟩ := List.mem_map.mp hw
  exact hq x hx

theorem State.Halts.launches : t.dev.launches = s.dev.launches := by
  obtain ⟨g, st, rfl, -, -, -⟩ := h
  rfl

theorem State.Halts.ctxs : t.dev.ctxs = s.dev.ctxs := by
  obtain ⟨g, st, rfl, -, -, -⟩ := h
  rfl

theorem State.Halts.failing : t.dev.failing = s.dev.failing := by
  obtain ⟨g, st, rfl, -, -, -⟩ := h
  rfl

theorem State.Halts.issue_eq_none (hc : s.issue = none) : t.issue = none := by
  obtain ⟨g, st, rfl, -, -, -⟩ := h
  simp [State.withHolds, State.mapDev, hc]

theorem State.Halts.issueOf_eq_none_iff (i : WaveId) : t.issueOf i = none ↔ s.issueOf i = none := by
  obtain ⟨g, st, rfl, -, -, -⟩ := h
  rw [State.withHolds_issueOf, Option.map_eq_none_iff]

theorem State.Halts.keepsRegisters : keepsRegisters s t := by
  obtain ⟨g, st, rfl, -, -, -⟩ := h
  intro i
  rw [State.withHolds_waveNow, Option.map_map]
  rfl

theorem State.Halts.keepsMemory : keepsMemory s t := by
  obtain ⟨g, st, rfl, -, -, -⟩ := h
  exact ⟨rfl, rfl, rfl, rfl⟩

/-- A wave of a state some of whose waves have been halted is a wave of the state before, halted if it is one of them. -/
theorem State.Halts.exists_wave {y : Wave} (hy : y ∈ t.dev.allWaves) : ∃ x ∈ s.dev.allWaves, ∃ k : Hold,
    y = { x with hold := k } ∧ (x.id ∈ ids → ∃ b, k = .halted b) ∧ (x.id ∉ ids → k = x.hold) := by
  obtain ⟨g, st, rfl, halted, kept, -⟩ := h
  rw [State.withHolds_allWaves] at hy
  obtain ⟨x, hx, rfl⟩ := List.mem_map.mp hy
  exact ⟨x, hx, g x, rfl, halted x hx, kept x⟩

end

/-! ### Halting waves -/

theorem Dev.lookup_setStatus_ne (d : Dev) {p q : Nat} (b : StatusBlock) (h : q ≠ p) :
    (d.setStatus p b).status.lookup q = d.status.lookup q := by
  have others : ∀ l : List (Nat × StatusBlock), (l.filter (fun x => x.1 ≠ p)).lookup q = l.lookup q := by
    intro l
    induction l with
    | nil => rfl
    | cons x l ih =>
      obtain ⟨i, y⟩ := x
      by_cases hi : i = p
      · have hq : (q == i) = false := by simpa [hi] using h
        simpa [List.filter_cons, hi, List.lookup_cons, hi ▸ hq] using ih
      · rw [List.filter_cons, if_pos (by simpa using hi), List.lookup_cons, List.lookup_cons, ih]
  have hq : (q == p) = false := by simpa using h
  rw [Dev.setStatus, List.lookup_cons, hq]
  exact others _

theorem State.haltWave_eq {s : State} {id : WaveId} {w : Wave} (hw : s.dev.wave? id = some w) (path : Nat) (f : FaultInfo)
    (halted resumable : Bool) : s.haltWave id path f halted resumable =
      let b := w.statusBlock s.dev.timebase (s.dev.ctxOf id) path f halted resumable
      s.withHolds (fun x => if x.id = id then .halted b else x.hold) (s.dev.setStatus w.place b).status := by
  have holds : ∀ b : StatusBlock, (fun x : Wave => if x.id = id then { x with hold := .halted b } else x) =
      Wave.withHold fun x => if x.id = id then .halted b else x.hold := fun b => by
    funext x
    by_cases hx : x.id = id <;> simp [Wave.withHold, hx]
  rw [State.haltWave, hw]
  exact congrArg (State.mapWaves _) (holds _)

theorem State.haltWave_halts (s : State) (id : WaveId) (path : Nat) (f : FaultInfo) (halted resumable : Bool) :
    s.Halts [id] (s.haltWave id path f halted resumable) := by
  cases hw : s.dev.wave? id with
  | none =>
    have absent : ∀ w ∈ s.dev.allWaves, w.id ∉ [id] := fun w hm hi => by
      have there := Dev.wave?_isSome hm
      rw [List.mem_singleton.mp hi, hw] at there
      exact absurd there (by simp)
    obtain ⟨g, st, eq, -, kept, slots⟩ := State.Halts.refl s
    have same : s.haltWave id path f halted resumable = s := by simp [State.haltWave, hw]
    exact ⟨g, st, same.trans eq, fun w hm hi => absurd hi (absent w hm), fun w _ => kept w (by simp),
      fun p _ => slots p (by simp)⟩
  | some w =>
    refine ⟨_, _, State.haltWave_eq hw .., fun x _ hx => ?_, fun x hx => ?_, fun p hp => ?_⟩
    · exact ⟨_, if_pos (List.mem_singleton.mp hx)⟩
    · exact if_neg fun e => hx (List.mem_singleton.mpr e)
    · have place : w.place ≠ p := hp w (List.mem_of_find?_eq_some hw) (by simp [Dev.id_of_wave? hw])
      exact Dev.lookup_setStatus_ne _ _ place.symm

/-- R348. The waves that halt with a wave's launch: those that a predicate selects, at a boundary and not yet ended. -/
def State.boundaryWaves (s : State) (sel : Wave → Bool) : List Wave :=
  s.dev.allWaves.filter (fun w => sel w && w.running && !w.over && (s.issueOf w.id).isNone)

theorem State.haltOthers_halts (s : State) (sel : Wave → Bool) (resumable : Bool) :
    s.Halts ((s.boundaryWaves sel).map Wave.id) (s.haltOthers sel resumable) := by
  have all : ∀ (ws : List Wave) (t : State), t.Halts (ws.map Wave.id)
      (ws.foldl (fun t w => let r := w.haltReport; t.haltWave w.id r.1 r.2 true resumable) t) := by
    intro ws
    induction ws with
    | nil => exact State.Halts.refl
    | cons w ws ih => exact fun t => (State.haltWave_halts t ..).trans (ih _)
  exact all _ s

/-- A wave of the selected ones that stands at a boundary has halted or has ended. -/
theorem State.haltOthers_stops {s : State} {sel : Wave → Bool} {resumable : Bool} {y : Wave}
    (hs : ∀ (x : Wave) (k : Hold), sel { x with hold := k } = sel x)
    (hy : y ∈ (s.haltOthers sel resumable).dev.allWaves) (hsel : sel y) (free : s.issueOf y.id = none) :
    y.over = true ∨ y.running = false := by
  obtain ⟨x, hx, k, rfl, halted, kept⟩ := (s.haltOthers_halts sel resumable).exists_wave hy
  rw [hs] at hsel
  by_cases hm : x.id ∈ (s.boundaryWaves sel).map Wave.id
  · obtain ⟨b, rfl⟩ := halted hm
    exact Or.inr rfl
  · obtain rfl := kept hm
    have out : x ∉ s.boundaryWaves sel := fun h => hm (List.mem_map_of_mem h)
    have free' : s.issueOf x.id = none := free
    rw [State.boundaryWaves, List.mem_filter] at out
    have stops : x.running = true → x.over = true := by simpa [hx, hsel, free'] using out
    by_cases hr : x.running = true
    · exact Or.inl (stops hr)
    · exact Or.inr (Bool.eq_false_iff.mpr hr)

/-! ### Taking a fault -/

/-- The waves of a launch but one. -/
def otherWaves (id : WaveId) (w : Wave) : Bool := w.id.launch == id.launch && w.id != id

/-- The state once the waves that a fault halts have halted. -/
def State.faultHalted (s : State) (id : WaveId) (path : Nat) (f : FaultInfo) : State :=
  (s.haltWave id path f false (decide (f.cls = 13))).haltOthers (otherWaves id) (decide (f.cls = 13))

/-- R350. The status block of the wave that takes a fault. -/
def State.faultBlock (s : State) (w : Wave) (path : Nat) (f : FaultInfo) : StatusBlock :=
  w.statusBlock s.dev.timebase (s.dev.ctxOf w.id) path f false (decide (f.cls = 13))

theorem State.faultHalted_halts (s : State) (id : WaveId) (path : Nat) (f : FaultInfo) :
    ∃ ids, s.Halts ids (s.faultHalted id path f) :=
  ⟨_, (s.haltWave_halts ..).trans (State.haltOthers_halts ..)⟩

theorem State.otherWaves_notMem (s : State) (id : WaveId) : id ∉ (s.boundaryWaves (otherWaves id)).map Wave.id := by
  intro h
  obtain ⟨x, hx, same⟩ := List.mem_map.mp h
  simp [State.boundaryWaves, otherWaves, same] at hx

theorem State.ctxOf_eq {s : State} {id : WaveId} {l : Launch} (hl : s.dev.launch? id.launch = some l) :
    s.dev.ctxOf id = l.ctx := by
  simp [Dev.ctxOf, hl]

theorem State.takeFault_eq (s : State) (id : WaveId) (path : Nat) (f : FaultInfo) : s.takeFault id path f =
    (s.faultHalted id path f).mapDev (fun d =>
      (d.mapLaunch id.launch (fun l => { l with halted := true })).mapCtx (s.dev.ctxOf id) Context.halts) := by
  obtain ⟨ids, h⟩ := s.faultHalted_halts id path f
  have same : (s.faultHalted id path f).dev.ctxOf id = s.dev.ctxOf id := by
    simp [Dev.ctxOf, Dev.launch?, h.launches]
  rw [← same]
  rfl

theorem State.takeFault_allWaves (s : State) (id : WaveId) (path : Nat) (f : FaultInfo) :
    (s.takeFault id path f).dev.allWaves = (s.faultHalted id path f).dev.allWaves := by
  simp [State.takeFault_eq, Dev.allWaves]

theorem State.takeFault_waveNow (s : State) (id : WaveId) (path : Nat) (f : FaultInfo) (i : WaveId) :
    (s.takeFault id path f).waveNow i = (s.faultHalted id path f).waveNow i := by
  unfold State.waveNow Dev.wave?
  rw [State.takeFault_allWaves]
  simp only [State.issueOf, State.takeFault_eq, State.mapDev_issue, State.mapDev_held]

section
variable {s : State} {id : WaveId} {w : Wave} (hw : s.dev.wave? id = some w) (path : Nat) (f : FaultInfo)
include hw

theorem State.haltWave_wave? : (s.haltWave id path f false (decide (f.cls = 13))).dev.wave? id =
    some { w with hold := .halted (s.faultBlock w path f) } := by
  obtain rfl := Dev.id_of_wave? hw
  rw [State.haltWave_eq hw, State.withHolds_wave?, hw]
  simp [Wave.withHold, State.faultBlock]

theorem State.takeFault_wave? : (s.takeFault id path f).dev.wave? id =
    some { w with hold := .halted (s.faultBlock w path f) } := by
  have others : (s.faultHalted id path f).dev.wave? id = _ :=
    (State.haltOthers_halts ..).wave?_of_notMem (State.otherWaves_notMem _ id)
  rw [Dev.wave?, State.takeFault_allWaves, ← Dev.wave?, others, State.haltWave_wave? hw path f]

theorem State.takeFault_status (apart : ∀ y ∈ s.dev.allWaves, y.id ≠ id → y.place ≠ w.place) :
    (s.takeFault id path f).dev.status.lookup w.place = some (s.faultBlock w path f) := by
  have first : (s.haltWave id path f false (decide (f.cls = 13))).dev.status.lookup w.place =
      some (s.faultBlock w path f) := by
    obtain rfl := Dev.id_of_wave? hw
    rw [State.haltWave_eq hw]
    exact List.lookup_cons_self
  have apart' := (s.haltWave_halts id path f false (decide (f.cls = 13))).allWaves_place
    (q := fun i p => i ≠ id → p ≠ w.place) apart
  have others : (s.faultHalted id path f).dev.status.lookup w.place = _ :=
    (State.haltOthers_halts ..).lookup_status fun y hy hi => apart' y hy fun e => State.otherWaves_notMem _ id (e ▸ hi)
  rw [State.takeFault_eq, State.mapDev_dev, Dev.mapCtx_status, Dev.mapLaunch_status, others, first]

end

/-- R348. A fault stops every wave of the launch that stands at a boundary and has not ended. -/
theorem State.takeFault_stops {s : State} {id : WaveId} {path : Nat} {f : FaultInfo} {y : Wave} (hy : y ∈ (s.takeFault id path f).dev.allWaves)
    (launch : y.id.launch = id.launch)
    (free : s.issueOf y.id = none) : y.over = true ∨ y.running = false := by
  have first := s.haltWave_halts id path f false (decide (f.cls = 13))
  have there : y ∈ (s.faultHalted id path f).dev.allWaves := s.takeFault_allWaves id path f ▸ hy
  by_cases hi : y.id = id
  · obtain ⟨x, hx, k, rfl, -, kept⟩ := (State.haltOthers_halts ..).exists_wave there
    have hi : x.id = id := hi
    obtain rfl := kept fun h => State.otherWaves_notMem _ id (hi ▸ h)
    obtain ⟨z, -, k, rfl, halted, -⟩ := first.exists_wave hx
    obtain ⟨b, rfl⟩ := halted (List.mem_singleton.mpr hi)
    exact Or.inr rfl
  · exact State.haltOthers_stops (fun _ _ => rfl) there (by simp [otherWaves, launch, hi]) ((first.issueOf_eq_none_iff _).mpr free)

theorem Dev.id_of_launch? {d : Dev} {i : Nat} {l : Launch} (h : d.launch? i = some l) : l.id = i := by
  simpa using List.find?_some h

theorem Dev.launch?_mapLaunch {d : Dev} {i : Nat} {l : Launch} (h : d.launch? i = some l) {f : Launch → Launch}
    (hf : ∀ x, (f x).id = x.id) : (d.mapLaunch i f).launch? i = some (f l) := by
  have same : ((fun x : Launch => x.id == i) ∘ fun x => if x.id = i then f x else x) = fun x => x.id == i := by
    funext x
    by_cases hx : x.id = i <;> simp [hx, hf]
  rw [Dev.launch?, Dev.mapLaunch, List.find?_map, same, ← Dev.launch?, h]
  simp [Dev.id_of_launch? h]

section
variable {s : State} {id : WaveId} {l : Launch} (hl : s.dev.launch? id.launch = some l) (path : Nat) (f : FaultInfo)
include hl

theorem State.takeFault_launch? : (s.takeFault id path f).dev.launch? id.launch = some { l with halted := true } := by
  obtain ⟨ids, h⟩ := s.faultHalted_halts id path f
  have there : (s.faultHalted id path f).dev.launch? id.launch = some l := by rw [Dev.launch?, h.launches]; exact hl
  rw [State.takeFault_eq]
  exact Dev.launch?_mapLaunch there fun _ => rfl

theorem State.takeFault_ctx? {x : Context} (hx : s.dev.ctx? l.ctx = some x) :
    (s.takeFault id path f).dev.ctx? l.ctx = some x.halts := by
  obtain ⟨ids, h⟩ := s.faultHalted_halts id path f
  have there : (s.faultHalted id path f).dev.ctx? l.ctx = some x := by rw [Dev.ctx?, h.ctxs]; exact hx
  have index : ∀ c : Context, c.halts.index = c.index := fun c => by unfold Context.halts; split <;> rfl
  rw [State.takeFault_eq, State.ctxOf_eq hl]
  exact Dev.ctx?_mapCtx there fun c hc => (index c).trans hc

end

theorem State.takeFault_keepsRegisters (s : State) (id : WaveId) (path : Nat) (f : FaultInfo) :
    keepsRegisters s (s.takeFault id path f) := by
  obtain ⟨ids, h⟩ := s.faultHalted_halts id path f
  intro i
  rw [State.takeFault_waveNow]
  exact h.keepsRegisters i

theorem State.takeFault_keepsMemory (s : State) (id : WaveId) (path : Nat) (f : FaultInfo) :
    keepsMemory s (s.takeFault id path f) := by
  obtain ⟨ids, h⟩ := s.faultHalted_halts id path f
  simpa [keepsMemory, keepsScratch, State.takeFault_eq] using h.keepsMemory

theorem State.takeFault_issue {s : State} (h : s.issue = none) (id : WaveId) (path : Nat) (f : FaultInfo) :
    (s.takeFault id path f).issue = none := by
  obtain ⟨ids, halts⟩ := s.faultHalted_halts id path f
  rw [State.takeFault_eq]
  exact halts.issue_eq_none h

theorem Context.halts_eq (x : Context) : x.halts = if x.saving = none then { x with state := 2 } else x := by
  unfold Context.halts
  cases x.saving <;> rfl

/-- R350. Bit 3 of the flags says that the fault is a breakpoint, whose waves are resumable. -/
theorem State.faultBlock_flags (s : State) (w : Wave) (path : Nat) (f : FaultInfo) :
    (s.faultBlock w path f).flags.getLsbD 3 = true ↔ f.cls = 13 := by
  have bits : ∀ second uncertain resumable : Bool, (BitVec.ofNat 8 ((if second then 1 else 0) + (if uncertain then 2 else 0) +
      (if false then 4 else 0) + (if resumable then 8 else 0))).getLsbD 3 = resumable := by decide
  have flags := bits (path = 1 && w.dual) f.uncertain (decide (f.cls = 13))
  exact (iff_of_eq (congrArg (· = true) flags)).trans decide_eq_true_iff

/-! ### Time, and the end of a clause that holds a trap -/

/-- A step's time on a device that runs: its clocks move on and its contexts are measured. -/
def Dev.ticked (k : Nat) (d : Dev) : Dev :=
  { d with
    timebase := d.timebase + BitVec.ofNat 64 (Config.tick k)
    clock := d.clock + BitVec.ofNat 64 (Config.clocks k)
    ctxs := d.ctxs.map (Context.measured k) }

/-- R283, R298. While a clause is in execution and no revocation is under way, time moves the clocks on and measures the
contexts, and does nothing else. -/
theorem State.advance_eq {s : State} {c : Issue} (h : s.issue = some c) (hr : s.dev.revoking = []) :
    s.advance = if s.dev.platform.tripped then { s with free := s.free + 1 }
      else { s with free := s.free + 1, dev := s.dev.ticked s.free } := by
  unfold State.advance
  simp [State.draw, State.mapDev, Dev.ticked, State.endRevocations, h, hr]

section
variable {s : State} {c : Issue} (h : s.issue = some c) (hr : s.dev.revoking = [])
include h hr

theorem State.advance_issue : s.advance.issue = some c := by
  rw [State.advance_eq h hr]
  split <;> exact h

theorem State.advance_tape : s.advance.tape = s.tape := by
  rw [State.advance_eq h hr]
  split <;> rfl

theorem State.advance_waves : s.advance.dev.waves = s.dev.waves := by
  rw [State.advance_eq h hr]
  split <;> rfl

theorem State.advance_launches : s.advance.dev.launches = s.dev.launches := by
  rw [State.advance_eq h hr]
  split <;> rfl

theorem State.advance_ctx? {i : Nat} {x : Context} (hx : s.dev.ctx? i = some x) :
    ∃ y, s.advance.dev.ctx? i = some y ∧ y.saving = x.saving := by
  rw [State.advance_eq h hr]
  split
  · exact ⟨x, hx, rfl⟩
  · have ticked : (s.dev.ticked s.free).ctx? i = (s.dev.ctx? i).map (Context.measured s.free) := List.find?_map ..
    exact ⟨x.measured s.free, by rw [ticked, hx]; rfl, rfl⟩

end

theorem State.finishClause_eq_endClause {s : State} {c : Issue} (h : s.issue = some c) (effects : c.effects = []) :
    s.finishClause c = s.endClause c := by
  have same : ({ c with wave := c.wave, effects := [] } : Issue) = c := by rw [← effects]
  simp [State.finishClause, effects, State.performAll, h, same]

/-- A clause at the end of its words, with no effect left to perform, ends. -/
theorem stepClause_endClause {s : State} {c : Issue} (h : s.issue = some c) (hr : c.rival = false) (hp : c.phase ≠ .unchecked)
    (words : c.words = []) (effects : c.effects = []) : stepClause s c = .next (s.endClause c) := by
  simp [stepClause, hr, hp, words, State.finishClause_eq_endClause h effects]

/-- The wave of a clause with its path at the clause's next header. -/
def Issue.endWave (c : Issue) : Wave := (c.setPth { c.pth with pc := c.next }).wave

/-- The state as a clause has ended and before what its end brings: the slot is counted and the wave takes its working copy. -/
def State.endedAs (s : State) (c : Issue) : State :=
  ((({ s with issue := none } : State).mapDev (fun d =>
    { d with failing := d.failing.filter (fun g => !c.covered.contains g) })).countSlot c).mapDev (fun d => d.setWave c.endWave)

theorem State.endClause_trap {s : State} {c : Issue} {cls code : Nat} (h : c.trap = some (cls, code)) :
    s.endClause c = (s.endedAs c).takeFault c.wave.id c.path
      { cls := cls, code := code, mask := 0, addr := 0, pc := c.next, uncertain := false } := by
  unfold State.endClause
  rw [h]
  rfl

theorem State.countSlot_cases (s : State) (c : Issue) : s.countSlot c = s ∨
    s.countSlot c = (s.onWave c.wave.id (fun w => w.takeCounts c.wave)).mapDev (fun d =>
      d.mapLaunch c.wave.id.launch (fun l => { l with used := l.used + 1 })) := by
  unfold State.countSlot
  split
  · exact Or.inl rfl
  · exact Or.inr rfl

theorem State.endedAs_issue (s : State) (c : Issue) : (s.endedAs c).issue = none := by
  obtain e | e := State.countSlot_cases _ c <;> rw [State.endedAs, e] <;> rfl

theorem State.endedAs_ctxs (s : State) (c : Issue) : (s.endedAs c).dev.ctxs = s.dev.ctxs := by
  obtain e | e := State.countSlot_cases _ c <;> rw [State.endedAs, e] <;> rfl

theorem State.endedAs_launch? {s : State} {c : Issue} {l : Launch} (hl : s.dev.launch? c.wave.id.launch = some l) :
    ∃ m, (s.endedAs c).dev.launch? c.wave.id.launch = some m ∧ m.ctx = l.ctx := by
  obtain e | e := State.countSlot_cases _ c <;> rw [State.endedAs, e]
  · exact ⟨l, hl, rfl⟩
  · exact ⟨{ l with used := l.used + 1 }, Dev.launch?_mapLaunch hl fun _ => rfl, rfl⟩

theorem Issue.endWave_id (c : Issue) : c.endWave.id = c.wave.id := by simp [Issue.endWave, Issue.setPth]

theorem Issue.endWave_v (c : Issue) : c.endWave.v = c.wave.v := by simp [Issue.endWave, Issue.setPth]

theorem Issue.endWave_k (c : Issue) : c.endWave.k = c.wave.k := by simp [Issue.endWave, Issue.setPth]

theorem Issue.endWave_q (c : Issue) : c.endWave.q = c.wave.q := by simp [Issue.endWave, Issue.setPth]

theorem Issue.endWave_pc (c : Issue) : (c.endWave.path c.path).pc = c.next := by simp [Issue.endWave, Issue.setPth]

theorem Dev.wave?_setWave {d : Dev} {w x : Wave} (h : d.waves.find? (fun y => y.id == w.id) = some x) :
    (d.setWave w).wave? w.id = some w := by
  have keep : ∀ y : Wave, (if y.id = w.id then w else y).id = y.id := fun y => by
    split
    · exact Eq.symm ‹_›
    · rfl
  have found : x.id = w.id := by simpa using List.find?_some h
  rw [Dev.wave?, Dev.allWaves, List.find?_append, Dev.setWave, find?_map_wave keep, h]
  simp [found]

theorem State.endedAs_wave? {s : State} {c : Issue} {w : Wave} (h : s.dev.waves.find? (fun y => y.id == c.wave.id) = some w) :
    (s.endedAs c).dev.wave? c.wave.id = some c.endWave := by
  have there : ∃ x, (({ s with issue := none } : State).mapDev (fun d =>
      { d with failing := d.failing.filter (fun g => !c.covered.contains g) }) |>.countSlot c).dev.waves.find?
        (fun y => y.id == c.wave.id) = some x := by
    obtain e | e := State.countSlot_cases _ c <;> rw [e]
    · exact ⟨w, h⟩
    · have keep : ∀ y : Wave, (if y.id = c.wave.id then y.takeCounts c.wave else y).id = y.id := fun y => by split <;> rfl
      exact ⟨_, (find?_map_wave keep _ _).trans (congrArg _ h)⟩
  obtain ⟨x, hx⟩ := there
  rw [← c.endWave_id] at hx ⊢
  exact Dev.wave?_setWave hx

/-- Settles O52: a halt changes the holds of waves and slots of the status window alone, and a fault adds the mark on the
launch and the state of the context; the clause with the trap ends first. -/
theorem takingFaults : Obligations.TakingFaults := by
  refine ⟨fun s id path f w l x hw hl hx apart => ⟨?report, ?stops, ?launch, ?ctx, ?registers, ?memory⟩,
    fun s c brk n w l x tape hc words effects phase trap hw hl hx revoking rival => ?trapped⟩
  case report =>
    obtain rfl := Dev.id_of_wave? hw
    exact ⟨_, _, State.takeFault_wave? hw path f, rfl, State.takeFault_status hw path f apart, rfl, rfl, rfl, rfl, rfl, rfl,
      State.ctxOf_eq hl, rfl, rfl, rfl, State.faultBlock_flags s w path f⟩
  case stops => exact fun y hy launch free => State.takeFault_stops (List.mem_append_left _ hy) launch free
  case launch => exact State.takeFault_launch? hl path f
  case ctx => exact (State.takeFault_ctx? hl path f hx).trans (congrArg some x.halts_eq)
  case registers => exact s.takeFault_keepsRegisters id path f
  case memory => exact s.takeFault_keepsMemory id path f
  case trapped =>
    have hc' := State.advance_issue hc revoking
    have ends : step s = .next (s.advance.endClause c) := by
      rw [step, State.proceed, State.advance_tape hc revoking, tape, hc']
      exact stepClause_endClause hc' rival phase words effects
    have wave : (s.advance.endedAs c).dev.wave? c.wave.id = some c.endWave :=
      State.endedAs_wave? (w := w) (by rw [State.advance_waves hc revoking]; exact hw)
    obtain ⟨m, hm, ctx⟩ := State.endedAs_launch? (s := s.advance) (c := c) (l := l)
      (by rw [Dev.launch?, State.advance_launches hc revoking]; exact hl)
    obtain ⟨y, hy, saving⟩ := State.advance_ctx? hc revoking hx
    have there : (s.advance.endedAs c).dev.ctx? m.ctx = some y := by
      rw [Dev.ctx?, State.endedAs_ctxs, ctx]
      exact hy
    rw [State.endClause_trap trap] at ends
    refine ⟨_, _, _, ends, State.takeFault_issue (State.endedAs_issue _ c) .., State.takeFault_wave? wave .., rfl, rfl, rfl,
      rfl, c.endWave_pc, c.endWave_v, c.endWave_k, c.endWave_q, y.halts, ctx ▸ State.takeFault_ctx? hm _ _ there,
      fun free => ?state⟩
    case state => rw [Context.halts_eq, if_pos (saving.trans free)]

end Sys2Proof.Machine

/-! R365. The registers whose data is lost: what an instruction performs covers granules of memory alone, so those of registers
fail after it as before. -/

namespace Sys2Proof.Machine

open Sys2Proof.Spec

/-! ### The failing granules of registers -/

/-- Whether a granule is one of a register. -/
def Granule.ofRegister : Granule → Bool
  | .vector _ _ _ | .scalar _ _ _ | .pred _ _ _ | .temp _ _ _ => true
  | _ => false

theorem Loc.granule_ofRegister (l : Loc) : l.granule.ofRegister = false := by
  unfold Loc.granule
  split <;> rfl

/-- The failing granules of registers of a device are those of a list. -/
def Dev.RegsFail (d : Dev) (gs : List Granule) : Prop := d.failing.filter Granule.ofRegister = gs

/-- The failing granules of registers of a state are those of a list. -/
def State.RegsFail (s : State) (gs : List Granule) : Prop := s.dev.RegsFail gs

/-- A filter that takes no granule of a register leaves those as they are. -/
theorem filter_ofRegister_filter {p : Granule → Bool} (hp : ∀ g, g.ofRegister = true → p g = true) (l : List Granule) :
    (l.filter p).filter Granule.ofRegister = l.filter Granule.ofRegister := by
  rw [List.filter_filter]
  refine List.filter_congr fun g _ => ?_
  cases hg : g.ofRegister with
  | false => rfl
  | true => rw [hp g hg]; rfl

theorem filter_ofRegister_eq_nil {l : List Granule} (h : ∀ g ∈ l, g.ofRegister = false) : l.filter Granule.ofRegister = [] :=
  List.filter_eq_nil_iff.mpr fun g hg => by simp [h g hg]

theorem filter_ofRegister_map {f : Loc → Granule} (hf : ∀ a, (f a).ofRegister = false) (as : List Loc) :
    (as.map f).filter Granule.ofRegister = [] :=
  filter_ofRegister_eq_nil fun g hg => by
    obtain ⟨a, -, rfl⟩ := List.mem_map.mp hg
    exact hf a

/-- What stands in the place of each granule leaves those of registers as they are. -/
theorem filter_ofRegister_flatMap {f : Granule → List Granule}
    (hf : ∀ g, (f g).filter Granule.ofRegister = if g.ofRegister then [g] else []) (l : List Granule) :
    (l.flatMap f).filter Granule.ofRegister = l.filter Granule.ofRegister := by
  induction l with
  | nil => rfl
  | cons g l ih =>
    rw [List.flatMap_cons, List.filter_append, hf, ih, List.filter_cons]
    split <;> rfl

section
variable {gs : List Granule}

theorem State.RegsFail.of_fst {α : Type} {p : State × α} (h : p.1.RegsFail gs) {t : State} {a : α} (e : p = (t, a)) :
    t.RegsFail gs := by
  subst e; exact h

theorem State.RegsFail.of_snd {α : Type} {p : α × State} (h : p.2.RegsFail gs) {t : State} {a : α} (e : p = (a, t)) :
    t.RegsFail gs := by
  subst e; exact h

theorem State.RegsFail.ite {p : Prop} [Decidable p] {s t : State} (hs : s.RegsFail gs) (ht : t.RegsFail gs) :
    (if p then s else t).RegsFail gs := by
  split
  · exact hs
  · exact ht

theorem State.RegsFail.fst_ite {α : Type} {b : Prop} [Decidable b] {p q : State × α} (hp : p.1.RegsFail gs)
    (hq : q.1.RegsFail gs) : (if b then p else q).1.RegsFail gs := by
  split
  · exact hp
  · exact hq

/-! ### What covers granules, and what moves them -/

theorem Dev.RegsFail.coverGranules {d : Dev} (h : d.RegsFail gs) (l : Loc) (n : Nat) : (d.coverGranules l n).RegsFail gs := by
  unfold Dev.coverGranules
  split
  · exact h
  · refine (filter_ofRegister_filter (fun g hg => ?_) _).trans h
    have apart : ∀ x : Loc, g ≠ x.granule := fun x e => by simp [e, Loc.granule_ofRegister] at hg
    simp [apart]

theorem Dev.RegsFail.lineCame {d : Dev} (h : d.RegsFail gs) (die : Nat) (line : Loc) (bad : List Loc) :
    (d.lineCame die line bad).RegsFail gs := by
  unfold Dev.lineCame
  split
  · exact h
  · refine (List.filter_append ..).trans ?_
    rw [filter_ofRegister_map fun _ => rfl, List.nil_append]
    refine (filter_ofRegister_filter (fun g hg => ?_) _).trans h
    cases g with
    | l2 | memory => cases hg
    | _ => rfl

theorem Dev.RegsFail.lineWritten {d : Dev} (h : d.RegsFail gs) (die : Option Nat) (line : Loc) (bad : List Loc) :
    (d.lineWritten die line bad).RegsFail gs := by
  unfold Dev.lineWritten
  split
  · exact h
  · refine (List.filter_append ..).trans ?_
    rw [filter_ofRegister_map fun a => ?_, List.nil_append]
    · refine (filter_ofRegister_filter (fun g hg => ?_) _).trans h
      cases g with
      | l2 | memory => cases hg
      | _ => rfl
    · cases die with
      | some k => rfl
      | none => exact a.granule_ofRegister

theorem Dev.RegsFail.dropCopies {d : Dev} (h : d.RegsFail gs) (gone : L2Copy → Bool) : (d.dropCopies gone).RegsFail gs := by
  refine (filter_ofRegister_flatMap (fun g => ?_) _).trans h
  cases g
  case l2 k a =>
    dsimp only
    split
    · split <;> rfl
    · rfl
  all_goals rfl

theorem Dev.RegsFail.copyLosses {d : Dev} (h : d.RegsFail gs) (sp : Space) (old new n : Nat) :
    (d.copyLosses sp old new n).RegsFail gs := by
  refine (List.filter_append ..).trans ?_
  rw [filter_ofRegister_eq_nil (l := List.eraseDups _) ?_, List.append_nil]
  · refine (filter_ofRegister_filter (fun g hg => ?_) _).trans h
    cases g with
    | l2 | memory => cases hg
    | _ => rfl
  · intro g hg
    obtain ⟨x, -, hx⟩ := List.mem_flatMap.mp (List.mem_eraseDups.mp hg)
    have memory : ∀ (b : Prop) [Decidable b] (as : List Loc), g ∈ (if b then as.map Granule.memory else []) →
        g.ofRegister = false := fun b _ as hm => by
      split at hm
      · obtain ⟨a, -, rfl⟩ := List.mem_map.mp hm
        rfl
      · cases hm
    cases x with
    | l2 | memory => exact memory _ _ hx
    | _ => cases hx

/-- What leaves the failing granules alone leaves those of registers alone. -/
theorem Dev.RegsFail.keep {d e : Dev} (h : d.RegsFail gs) (same : e.failing = d.failing := by rfl) :
    e.RegsFail gs := by
  rw [Dev.RegsFail, same]
  exact h

theorem State.RegsFail.keep {s t : State} (h : s.RegsFail gs) (same : t.dev.failing = s.dev.failing := by rfl) :
    t.RegsFail gs :=
  Dev.RegsFail.keep h same

theorem State.RegsFail.draw {s : State} (h : s.RegsFail gs) : s.draw.2.RegsFail gs := h

theorem State.RegsFail.mapDev {s : State} (h : s.RegsFail gs) {f : Dev → Dev} (hf : ∀ d, d.RegsFail gs → (f d).RegsFail gs) :
    (s.mapDev f).RegsFail gs := hf _ h

theorem Dev.RegsFail.mapCore {d : Dev} (h : d.RegsFail gs) (i : Nat) (f : Core → Core) : (d.mapCore i f).RegsFail gs := by
  rw [Dev.RegsFail, Dev.mapCore_failing]
  exact h

theorem Dev.RegsFail.l1Drop {d : Dev} (h : d.RegsFail gs) (cores : List Nat) (line : Loc) :
    (cores.foldl (fun d i => d.mapCore i (fun c => c.l1Drop line)) d).RegsFail gs :=
  foldl_keeps (P := fun d : Dev => d.RegsFail gs) (fun _ _ h => h.mapCore _ _) h cores

theorem Dev.RegsFail.mapUnit {d : Dev} (h : d.RegsFail gs) (i : Nat) (f : SplatUnit → SplatUnit) : (d.mapUnit i f).RegsFail gs := by
  unfold Dev.mapUnit
  split
  · exact h
  · exact h

theorem State.RegsFail.foldl {α : Type} {f : State → α → State} {s : State} (h : s.RegsFail gs)
    (hf : ∀ s a, s.RegsFail gs → (f s a).RegsFail gs) (l : List α) : (l.foldl f s).RegsFail gs :=
  foldl_keeps (P := fun s : State => s.RegsFail gs) hf h l

theorem State.RegsFail.onWave {s : State} (h : s.RegsFail gs) (id : WaveId) (f : Wave → Wave) : (s.onWave id f).RegsFail gs := h

/-! ### Stores and loads -/

theorem State.RegsFail.poke {s : State} (h : s.RegsFail gs) (l : Loc) (bs : List Byte) : (s.poke l bs).RegsFail gs := by
  have covered : (s.dev.coverGranules l bs.length).RegsFail gs := Dev.RegsFail.coverGranules h l bs.length
  unfold State.poke
  cases l.space with
  | _ => exact covered

theorem Dev.RegsFail.l2Replace {d : Dev} (h : d.RegsFail gs) (die : Nat) (line : Loc) (k : Nat) :
    (d.l2Replace die line k).RegsFail gs := by
  unfold Dev.l2Replace
  extract_lets _ _ _ victim
  cases victim with
  | some c => exact h.dropCopies _
  | none => exact h

theorem State.RegsFail.dirEvict {s : State} (h : s.RegsFail gs) (line : Loc) : (s.dirEvict line).RegsFail gs :=
  Dev.RegsFail.dropCopies h _

theorem State.RegsFail.cameIn {s : State} (h : s.RegsFail gs) (die : Nat) (line : Loc) : (s.cameIn die line).RegsFail gs := by
  have replaced : (s.draw.2.mapDev fun d => d.l2Replace die line s.free).RegsFail gs := Dev.RegsFail.l2Replace h die line s.free
  dsimp only [State.cameIn, State.draw]
  split
  · exact replaced.dirEvict _
  · exact replaced

theorem State.RegsFail.storeLine {s : State} (h : s.RegsFail gs) (by_ : Writer) (l : Loc) (bs : List Byte) :
    (s.storeLine by_ l bs).RegsFail gs := by
  have written (d : Dev) (die : Option Nat) (bad : List Loc) (h : d.RegsFail gs) :
      ((d.dirWrite die l.line).lineWritten die l.line bad).RegsFail gs :=
    (Dev.RegsFail.keep h : (d.dirWrite die l.line).RegsFail gs).lineWritten die l.line bad
  have poked := h.poke l bs
  unfold State.storeLine
  cases by_ with
  | lane w lane cores ctx va =>
    refine State.RegsFail.cameIn (State.RegsFail.mapDev ?_ fun _ h => ?_) _ _
    · exact State.RegsFail.mapDev poked.keep fun d => written d _ _
    · exact foldl_keeps (P := fun d : Dev => d.RegsFail gs) (fun _ _ h => h.mapCore _ _) h cores
  | other => exact State.RegsFail.mapDev poked.keep fun d => written d _ _

theorem State.RegsFail.storeAt {s : State} (h : s.RegsFail gs) (by_ : Writer) (l : Loc) (bs : List Byte) :
    (s.storeAt by_ l bs).RegsFail gs := by
  unfold State.storeAt
  split
  · exact h.foldl (fun _ _ h => h.storeLine _ _ _) _
  · exact h.poke _ _

theorem Dev.RegsFail.dirRead {d : Dev} (h : d.RegsFail gs) (die : Nat) (line : Loc) : (d.dirRead die line).RegsFail gs := by
  dsimp only [Dev.dirRead]
  split
  · exact h
  · exact h.lineCame die line _

theorem State.RegsFail.loadGlobal {s : State} (h : s.RegsFail gs) (a : Access) (l : LaneAccess) (n : Nat) :
    (s.loadGlobal a l n).2.RegsFail gs := by
  dsimp only [State.loadGlobal, State.draw]
  split
  · exact h
  · split
    · exact h
    · have read := h.draw.mapDev (f := fun d => d.dirRead (dieOf (sliceOf (s.dev.l1Slices a.w) (l.va.toNat % 2 ^ 48))) l.loc.line)
        fun _ h => h.dirRead _ _
      split_ifs
      · exact read.cameIn _ _
      · exact (read.mapDev fun _ h => (h.l1Drop _ _).mapCore _ _).cameIn _ _
      · exact read
      · exact read.mapDev fun _ h => (h.l1Drop _ _).mapCore _ _

theorem State.RegsFail.laneRead {s : State} (h : s.RegsFail gs) (a : Access) (l : LaneAccess) : (s.laneRead a l).2.RegsFail gs := by
  unfold State.laneRead
  split
  · exact h
  · split
    · exact h.loadGlobal _ _ _
    · split
      · exact h
      · exact h

theorem State.RegsFail.laneStore {s : State} (h : s.RegsFail gs) (a : Access) (l : LaneAccess) (bs : List Byte)
    (result : Option W64) (fl : FpFlags) : (s.laneStore a l bs result fl).state.RegsFail gs := by
  unfold State.laneStore
  extract_lets
  split
  · exact h
  · exact h.storeAt _ _ _

theorem State.RegsFail.performLane {s : State} (h : s.RegsFail gs) (a : Access) (l : LaneAccess) :
    (s.performLane a l).state.RegsFail gs := by
  have read := h.laneRead a l
  unfold State.performLane
  extract_lets
  split
  iterate 7 exact h
  · split
    · next e => exact read.of_snd e
    · next e => exact read.of_snd e
  · split
    · next e => exact (read.of_snd e).keep
    · next e => exact read.of_snd e
  · exact h.laneStore _ _ _ _ _
  · split
    · exact h
    · split
      · exact h.storeAt _ _ _
      · exact Dev.RegsFail.l1Drop h _ _
  · split
    · exact h.laneStore _ _ _ _ _
    · exact h
  · split
    · next e => exact (read.of_snd e).poke _ _
    · next e => exact read.of_snd e
  · split
    · exact h
    · exact h.laneStore _ _ _ _ _
  · split
    · exact h
    · exact h.laneStore _ _ _ _ _

/-! ### Messages to other devices -/

theorem Dev.RegsFail.sendFrom {d : Dev} (h : d.RegsFail gs) (before ts : List Txn) : (Dev.sendFrom before ts d).RegsFail gs := by
  induction ts generalizing before d with
  | nil => exact h
  | cons t r ih =>
    unfold Dev.sendFrom
    split
    · exact ih (d := d.sendOut _) h _
    · exact ih h _

theorem State.RegsFail.sendTxn {s : State} (h : s.RegsFail gs) (t : Txn) : (s.sendTxn t).RegsFail gs :=
  State.RegsFail.mapDev (s := s.fresh.2) h fun d h => (Dev.RegsFail.keep h).sendFrom [] _

theorem Dev.RegsFail.recallPage {d : Dev} (h : d.RegsFail gs) (ctx page : Nat) : (d.recallPage ctx page).RegsFail gs := by
  unfold Dev.recallPage
  split
  · exact h
  · exact h

theorem State.RegsFail.dropsRequest {s : State} (h : s.RegsFail gs) (ctx target : Nat) : (s.dropsRequest ctx target).RegsFail gs := by
  unfold State.dropsRequest
  rw [State.RegsFail, Dev.RegsFail, (State.haltOthers_halts ..).failing]
  exact h

/-! ### The parts of an access -/

theorem State.RegsFail.accessEnd {s : State} (h : s.RegsFail gs) (op : Nat) : (s.accessEnd op).RegsFail gs := by
  unfold State.accessEnd
  split
  · exact h
  · extract_lets waits s1 s2 s3 more s4 faults fails meets pend
    have ended : s4.RegsFail gs := h.keep (by simp [s4, s3, s2, s1, Dev.countDone])
    split
    · exact h
    · split
      · exact ended.onWave _ _
      · exact ended.onWave _ _

theorem State.RegsFail.addFlags {s : State} (h : s.RegsFail gs) (a : Access) (lane : Nat) (fl : FpFlags) :
    (s.addFlags a lane fl).RegsFail gs := by
  unfold State.addFlags
  extract_lets
  split
  · exact h
  · exact h

theorem State.RegsFail.dropPart {s : State} (h : s.RegsFail gs) (a : Access) (l : LaneAccess) (target : Nat) :
    (s.dropPart a l target).RegsFail gs := by
  unfold State.dropPart
  split
  · exact h
  · exact State.RegsFail.dropsRequest h.keep _ _

theorem State.RegsFail.failLane {s : State} (h : s.RegsFail gs) (op lane part ctx peer cause : Nat) :
    (s.failLane op lane part ctx peer cause).RegsFail gs := by
  unfold State.failLane
  split
  · exact h
  · dsimp only
    split
    · exact State.RegsFail.accessEnd h.keep _
    · exact State.RegsFail.accessEnd h.keep _

theorem State.RegsFail.sendPart {s : State} (h : s.RegsFail gs) (a : Access) (l : LaneAccess) (peer va : Nat) (away : Bool) :
    (s.sendPart a l peer va away).RegsFail gs := by
  unfold State.sendPart
  split
  · exact h.failLane _ _ _ _ _ _
  · extract_lets t
    split
    iterate 6 exact State.RegsFail.sendTxn h.keep _

theorem State.RegsFail.performHere {s : State} (h : s.RegsFail gs) (a : Access) (l : LaneAccess) :
    (s.performHere a l).RegsFail gs := by
  unfold State.performHere
  split
  · exact h.sendPart _ _ _ _ _
  · split
    · exact Dev.RegsFail.recallPage h _ _
    · exact h
  · extract_lets reaches s' p
    split
    · exact h.dropPart _ _ _
    · have hs : s'.RegsFail gs := .ite h h
      have hp : p.state.RegsFail gs := by
        unfold p
        split
        · exact hs
        · exact hs.performLane _ _
      split
      · exact State.RegsFail.addFlags hp.keep _ _ _
      · exact hp

theorem State.RegsFail.ownedPart {s : State} (h : s.RegsFail gs) (a : Access) (l : LaneAccess) (o : OwnedPage) :
    (s.ownedPart a l o).RegsFail gs := by
  unfold State.ownedPart
  extract_lets va word gone store held s'
  split
  · refine State.RegsFail.addFlags ?_ _ _ _
    unfold State.ownedAtomic
    dsimp only
    split
    · exact h
    · exact h
  iterate 4 exact h
  · exact (State.RegsFail.ite h h : s'.RegsFail gs)
  · exact h.poke _ _
  iterate 2 exact h

theorem State.RegsFail.startPart {s : State} (h : s.RegsFail gs) (a : Access) (l : LaneAccess) : (s.startPart a l).RegsFail gs := by
  unfold State.startPart
  extract_lets peer va held s'
  split
  · exact h
  · split
    · exact h.ownedPart _ _ _
    · split
      · exact State.RegsFail.sendPart h.keep _ _ _ _ _
      · exact h
    · exact h.sendPart _ _ _ _ _
    · exact h.sendPart _ _ _ _ _

theorem State.RegsFail.performParts {s : State} (h : s.RegsFail gs) (op : Nat) (sel : LaneAccess → Bool) (count : Nat) :
    (s.performParts op sel count).RegsFail gs := by
  unfold State.performParts
  split
  · exact h
  · refine foldl_keeps (P := fun x : State × Nat => x.1.RegsFail gs) (fun x l h => ?_) h _
    split
    · exact h
    · refine State.RegsFail.fst_ite h ?_
      unfold State.performPart
      exact .ite (State.RegsFail.startPart h _ _) (State.RegsFail.performHere h _ _)

theorem State.RegsFail.drain {s : State} (h : s.RegsFail gs) (ctx : Option Nat) (p : LaneAccess → Bool) :
    (s.drain ctx p).RegsFail gs :=
  h.foldl (fun _ _ h => State.RegsFail.accessEnd (h.performParts _ _ _) _) _

/-! ### The effects of a clause -/

theorem State.RegsFail.perform {s t : State} (h : s.RegsFail gs) {w : Wave} {e : Effect} (ht : s.perform w e = some t) :
    t.RegsFail gs := by
  cases e with
  | access a =>
    cases ht
    refine State.RegsFail.accessEnd (State.RegsFail.performParts ?_ _ _ _) _
    split
    · exact h
    · exact h
  | fence lanes kind scope =>
    dsimp only [State.perform] at ht
    split at ht
    · cases ht
      split
      · exact h
      · exact h
    · cases ht
  | matrix core m => cases ht; exact Dev.RegsFail.mapCore h _ _
  | splat unit o => cases ht; exact Dev.RegsFail.mapUnit h _ _
  | engine c => cases ht; exact h
  | allowance dest units => cases ht; exact h
  | trigger => cases ht; exact h
  | convert ways => cases ht; exact h
  | put l bs => cases ht; exact h.poke _ _

theorem State.RegsFail.flush {s : State} (h : s.RegsFail gs) (c : Issue) : (s.flush c).1.RegsFail gs := by
  have all : ∀ (es : List Effect) (s : State), s.RegsFail gs → (s.performAll c.wave es).1.RegsFail gs := by
    intro es
    induction es with
    | nil => exact fun _ h => h
    | cons e r ih =>
      intro s h
      unfold State.performAll
      split
      · next ht => exact ih _ (h.perform ht)
      · exact h
  exact all c.effects s h

theorem State.RegsFail.fencePoint {s : State} (h : s.RegsFail gs) (c : Issue) (kind : FenceKind) :
    (s.fencePoint c kind).1.RegsFail gs := by
  unfold State.fencePoint
  split
  · exact h
  · exact State.RegsFail.fst_ite (h.flush c) (h.flush c)

/-! ### The checks of addresses -/

theorem State.RegsFail.tlbFill {s : State} (h : s.RegsFail gs) (u : TransUnit) (ctx va : Nat) : (s.tlbFill u ctx va).RegsFail gs := by
  unfold State.tlbFill
  split
  · exact h
  · split
    · exact h
    · split
      · dsimp only [State.draw]
        split
        · exact h
        · split
          · exact h
          · exact h
      · exact h

theorem State.RegsFail.fillTlb {s : State} (h : s.RegsFail gs) (c : Issue) (sp : MemSpace) (addrs : List Int) :
    (s.fillTlb c sp addrs).RegsFail gs :=
  h.foldl (fun _ _ h => h.tlbFill _ _ _) _

theorem State.RegsFail.poolTake {s t : State} {c : Context} {i x : Nat} (h : s.RegsFail gs) (e : s.poolTake c i = some (x, t)) :
    t.RegsFail gs := by
  dsimp only [State.poolTake] at e
  split at e
  · cases e
  · simp only [Option.some.injEq, Prod.mk.injEq] at e
    obtain ⟨-, rfl⟩ := e
    exact h.storeAt _ _ _

theorem Dev.RegsFail.setTier {d : Dev} (h : d.RegsFail gs) (sp : Space) (m : Memory) : (d.setTier sp m).RegsFail gs := by
  unfold Dev.setTier
  split
  iterate 4 exact h

theorem State.RegsFail.age {s : State} (h : s.RegsFail gs) (ctx : Option Nat) (p : LaneAccess → Bool) :
    (s.age ctx p).RegsFail gs := h

theorem Dev.RegsFail.dirWriteRange {d : Dev} (h : d.RegsFail gs) (sp : Space) (a n : Nat) : (d.dirWriteRange sp a n).RegsFail gs := h

theorem State.RegsFail.revokeFrame {s : State} (h : s.RegsFail gs) (ctx base n : Nat) (sp : Space) (frame : Nat) :
    (s.revokeFrame ctx base n sp frame).RegsFail gs :=
  ((h.drain _ _).age _ _).mapDev fun _ h => h

/-- The state, where there is one, that the check of a store leaves has the same failing granules of registers. -/
def FirstStore.RegsFail (gs : List Granule) : FirstStore → Prop
  | .nothing s | .recallFirst s | .dropped s => s.RegsFail gs
  | .noSlot | .noFrame => True

theorem State.RegsFail.firstStore {s : State} (h : s.RegsFail gs) (c : Context) (l : Leaf) (va : Nat) :
    (s.firstStore c l va).RegsFail gs := by
  unfold State.firstStore
  split
  · exact h
  · dsimp only
    split
    · split
      · exact h
      · split
        · trivial
        · split
          · exact State.RegsFail.ite (Dev.RegsFail.recallPage h _ _) h
          · split
            · trivial
            · exact h.dropsRequest _ _
            · next e _ =>
              have revoked := State.RegsFail.revokeFrame (h.poolTake e) c.index (va / 65536 * 65536) 65536
              refine State.RegsFail.keep (State.RegsFail.storeAt (State.RegsFail.mapDev (revoked _ _) fun d h => ?_) _ _ _)
              exact ((h.setTier _ _).dirWriteRange _ _ _).copyLosses _ _ _ _
    · exact h

theorem State.RegsFail.of_firstStore {s : State} (h : s.RegsFail gs) {c : Context} {l : Leaf} {va : Nat} {r : FirstStore}
    (e : s.firstStore c l va = r) : r.RegsFail gs := e ▸ h.firstStore c l va

theorem State.RegsFail.firstStores {s : State} (h : s.RegsFail gs) (c : Issue) (ls : List LaneAccess) :
    (s.firstStores c ls).1.RegsFail gs := by
  induction ls generalizing s with
  | nil => exact h
  | cons la r ih =>
    unfold State.firstStores
    extract_lets bad
    split
    · exact ih h
    · split
      · split
        · next e => exact ih (h.of_firstStore e)
        · next e => exact h.of_firstStore e
        · next e => exact h.of_firstStore e
        · exact ih h
        · exact ih h
      · exact ih h

theorem State.RegsFail.checkNow {s : State} (h : s.RegsFail gs) (losses : Bool) (c : Issue) (sp : MemSpace) (need : Need)
    (width : Nat) (scalar : Bool) (lanes : List Nat) (addr : Nat → Int) (extra : Nat → Option LaneBad) :
    (s.checkNow losses c sp need width scalar lanes addr extra).1.RegsFail gs := by
  have filled := h.fillTlb c sp (lanes.map addr)
  dsimp only [State.checkNow]
  split
  · exact filled
  · split
    · next e => exact (filled.firstStores c _).of_fst e
    · next e =>
      have stored := (filled.firstStores c _).of_fst e
      split
      · exact stored
      · split
        · exact .ite stored (stored.fillTlb _ _ _)
        · exact .ite stored (stored.fillTlb _ _ _)

theorem State.RegsFail.checkAccess {s : State} (h : s.RegsFail gs) (c : Issue) (sp : MemSpace) (need : Need) (width : Nat)
    (scalar : Bool) (lanes : List Nat) (addr : Nat → Int) (extra : Nat → Option LaneBad) :
    (s.checkAccess c sp need width scalar lanes addr extra).1.RegsFail gs := by
  have now := h.checkNow true c sp need width scalar lanes addr extra
  unfold State.checkAccess State.checkLanes
  extract_lets addrs ctx
  split
  · exact h
  · split
    · exact h
    · split
      · next e => exact now.of_fst e
      · next e => exact (now.of_fst e).keep

/-! ### The instructions -/

theorem State.RegsFail.loadOp {s : State} (h : s.RegsFail gs) (c : Issue) (opcode : Nat) (sp : MemSpace) (kind : AccessKind)
    (d a b : Operand) : (s.loadOp c opcode sp kind d a b).1.RegsFail gs := by
  have checked := h.checkAccess c sp .read c.width (scalarDest d) (c.accessLanes (scalarDest d)) (c.addrOf sp.wideAddr a b)
    (fun _ => none)
  dsimp only [State.loadOp]
  split
  · next e => exact checked.of_fst e
  · next e => exact (checked.of_fst e).keep

theorem State.RegsFail.charge {s : State} (h : s.RegsFail gs) (c : Issue) (parts : List LaneAccess) :
    (s.charge c parts).1.RegsFail gs := by
  dsimp only [State.charge]
  split
  · exact h
  · refine State.RegsFail.ite h ?_
    exact foldl_keeps (P := fun d : Dev => d.RegsFail gs) (fun _ _ h => Dev.RegsFail.keep h) h _

theorem State.RegsFail.storeOp {s : State} (h : s.RegsFail gs) (c : Issue) (opcode : Nat) (sp : MemSpace) (d a b : Operand) :
    (s.storeOp c opcode sp d a b).1.RegsFail gs := by
  have checked := h.checkAccess c sp .write c.width false (lanesOf c.wave.width (c.active &&& ~~~c.wave.helper))
    (c.addrOf sp.wideAddr a b) (fun _ => none)
  dsimp only [State.storeOp]
  split
  · next e => exact checked.of_fst e
  · next e =>
    have passed := checked.of_fst e
    split
    · next e => exact (State.RegsFail.fst_ite (passed.charge _ _) passed).of_fst e
    · next e => exact ((State.RegsFail.fst_ite (passed.charge _ _) passed).of_fst e).keep

theorem State.RegsFail.copyOp {s : State} (h : s.RegsFail gs) (c : Issue) (opcode : Nat) (need : Need) (kind : AccessKind)
    (d a b : Operand) : (s.copyOp c opcode need kind d a b).1.RegsFail gs := by
  have checked := h.checkAccess c .global need 16 false (lanesOf c.wave.width (c.active &&& ~~~c.wave.helper))
    (c.addrOf true a b) (s.copyCheck c d need)
  dsimp only [State.copyOp]
  split
  · next e => exact checked.of_fst e
  · next e => exact (checked.of_fst e).keep

theorem State.RegsFail.atomicOp {s : State} (h : s.RegsFail gs) (c : Issue) (opcode : Nat) (sp : MemSpace) (ok : EType → Bool)
    (d a b : Operand) : (s.atomicOp c opcode sp ok d a b).1.RegsFail gs := by
  have checked := h.checkAccess c sp .atomic c.width false (lanesOf c.wave.width (c.active &&& ~~~c.wave.helper))
    (c.addrOf sp.wideAddr a b) (fun _ => none)
  dsimp only [State.atomicOp]
  split
  · exact h
  · split
    · next e => exact checked.of_fst e
    · next e =>
      have passed := checked.of_fst e
      split
      · next e => exact (State.RegsFail.fst_ite (passed.charge _ _) passed).of_fst e
      · next e => exact ((State.RegsFail.fst_ite (passed.charge _ _) passed).of_fst e).keep

theorem State.RegsFail.dropEarly {s : State} (h : s.RegsFail gs) (w : WaveId) (parts : List LaneAccess) :
    (s.dropEarly w parts).RegsFail gs :=
  State.RegsFail.mapDev h fun _ h => foldl_keeps (P := fun d : Dev => d.RegsFail gs) (fun _ _ h => h.l1Drop _ _) h _

theorem State.RegsFail.askVerdict {s : State} (h : s.RegsFail gs) (id : WaveId) (e : WatchEntry) :
    (s.askVerdict id e).RegsFail gs := by
  unfold State.askVerdict
  extract_lets
  split
  · exact h.keep
  · exact h.sendTxn _

theorem State.RegsFail.tookEntries {s : State} (h : s.RegsFail gs) (c : Issue) (old : Nat) :
    (s.tookEntries c old).1.RegsFail gs := by
  dsimp only [State.tookEntries]
  split
  · exact h.keep
  · exact State.RegsFail.foldl h.keep (fun _ _ h => h.askVerdict _ _) _

theorem State.RegsFail.earlyOp {s : State} (h : s.RegsFail gs) (c : Issue) (opcode : Nat) (fabric : Bool) (d a b : Operand) :
    (s.earlyOp c opcode fabric d a b).1.RegsFail gs := by
  have checked := h.checkAccess c (if fabric then .fabric else .global) .read c.width false (c.accessLanes false)
    (c.addrOf true a b) (fun _ => none)
  dsimp only [State.earlyOp]
  split
  · next e => exact checked.of_fst e
  · next e => exact (((checked.of_fst e).dropEarly _ _).tookEntries _ _).keep

theorem State.RegsFail.computeLate {s : State} (h : s.RegsFail gs) (c : Issue) (ok : EType → Bool) (d : Operand)
    (f : Nat → Nat × FpFlags) : (s.computeLate c ok d f).1.RegsFail gs := by
  unfold State.computeLate
  split
  · exact h.keep
  · exact h

theorem State.RegsFail.placeMatrix {s : State} (h : s.RegsFail gs) (c : Issue) (cores : List Nat)
    (ops : Nat → List (Nat × MatrixOp)) : (s.placeMatrix c cores ops).1.RegsFail gs := by
  have placed : (if c.flushed && !(c.phase == .checking) then s.flush c else (s, c)).1.RegsFail gs :=
    .fst_ite (h.flush c) h
  unfold State.placeMatrix
  extract_lets checking
  split
  next e =>
    have flushed := placed.of_fst e
    split
    · exact flushed
    · exact flushed.keep

theorem State.RegsFail.multiply {s : State} (h : s.RegsFail gs) (c : Issue) (part : Bool) (chain : List Nat) (d kn : Nat)
    (b : Operand) : (s.multiply c part chain d kn b).1.RegsFail gs := by
  unfold State.multiply
  extract_lets +onlyGivenNames t lw tile size lanes
  split
  · exact h
  · split
    · exact h
    · split
      · exact h
      · extract_lets +onlyGivenNames check bads
        split
        · exact h
        · exact h.placeMatrix _ _ _

theorem State.RegsFail.splatIssue {s : State} (h : s.RegsFail gs) (c : Issue) (opcode : Nat) (a : Operand) :
    (s.splatIssue c opcode a).1.RegsFail gs := by
  unfold State.splatIssue
  extract_lets +onlyGivenNames addr
  split
  · exact h
  · split
    · exact h
    · exact h.keep

theorem State.RegsFail.engineIssue {s : State} (h : s.RegsFail gs) (c : Issue) (opcode : Nat) (a : Operand) :
    (s.engineIssue c opcode a).1.RegsFail gs := by
  unfold State.engineIssue
  extract_lets +onlyGivenNames addr ctx die m bs cmd at_ list sp loss v ranges mine
  clear_value loss
  split
  · exact h
  · split
    · exact h
    · split
      · exact h
      · split
        · exact h
        · exact h.keep

/-- What an instruction leaves: no clause in execution, or the failing granules of registers of a list. -/
def Out.RegsFail (gs : List Granule) (o : Out) : Prop := ∀ t, o = .next t → t.issue = none ∨ t.RegsFail gs

theorem State.undoClause_issue (s : State) (c : Issue) : (s.undoClause c).issue = s.issue := by
  unfold State.undoClause
  dsimp only
  split_ifs <;> rfl

theorem State.countSlot_issue_eq_none {s : State} (h : s.issue = none) (c : Issue) : (s.countSlot c).issue = none := by
  obtain e | e := s.countSlot_cases c
  · rw [e, h]
  · rw [e]
    simp [State.onWave, h]

theorem State.onWave_issue_eq_none {s : State} (h : s.issue = none) (id : WaveId) (f : Wave → Wave) :
    (s.onWave id f).issue = none := by
  simp [State.onWave, h]

theorem State.boundaryHalt_issue_eq_none {s : State} (h : s.issue = none) (id : WaveId) : (s.boundaryHalt id).issue = none := by
  unfold State.boundaryHalt
  split
  · split_ifs
    · exact h
    · exact (State.haltWave_halts ..).issue_eq_none h
    · exact State.onWave_issue_eq_none h _ _
    · exact h
  · exact h

/-- An abandoned clause is no longer in execution. -/
theorem State.abandon_issue (s : State) (c : Issue) (e : Stop) : (s.abandon c e).issue = none := by
  have undone : (({ s with issue := none } : State).undoClause c).issue = none := State.undoClause_issue _ c
  have counted := State.countSlot_issue_eq_none undone c
  cases e with
  | fault cls code mask addr => exact State.takeFault_issue counted _ _ _
  | pending f => exact State.takeFault_issue counted _ _ _
  | fill mask pages =>
    unfold State.abandon
    dsimp only
    split
    · rfl
    · exact State.onWave_issue_eq_none counted _ _
  | notReady why =>
    unfold State.abandon
    dsimp only
    split
    · rfl
    · have turned : ((({ s with issue := none } : State).undoClause c).undoTurn c).issue = none := by
        unfold State.undoTurn
        split
        · exact undone
        · exact undone
      exact State.boundaryHalt_issue_eq_none (State.onWave_issue_eq_none turned _ _) _
  | hold => rfl

/-- An instruction that is accepted leaves the failing granules of registers; one that is not ends its clause. -/
theorem regsFail_onIssue {s : State} {f : State → Issue → State × Except Stop Issue} (hf : ∀ c, (f s c).1.RegsFail gs) :
    Out.RegsFail gs (s.onIssue f) := by
  intro t ht
  unfold State.onIssue at ht
  split at ht
  · cases ht
  · rename_i c _
    split at ht
    · rename_i e
      cases ht
      exact Or.inr ((hf c).of_fst e).keep
    · cases ht
      exact Or.inl (State.abandon_issue _ _ _)

theorem execSpcfg_regsFail {s : State} (h : s.RegsFail gs) (a : Nat) : Out.RegsFail gs (execSpcfg a s) := by
  refine regsFail_onIssue fun c => ?_
  dsimp only
  refine State.RegsFail.fst_ite h (State.RegsFail.fst_ite h ?_)
  exact (Dev.RegsFail.mapCore h _ _).keep

theorem execCond_regsFail {s : State} (h : s.RegsFail gs) (a b : Operand) : Out.RegsFail gs (execCond a b s) := by
  refine regsFail_onIssue fun c => ?_
  dsimp only
  split
  · exact h
  · split
    · exact h.keep
    · split
      · next e => exact (h.checkAccess _ _ _ _ _ _ _ _).of_fst e
      · next e => exact ((h.checkAccess _ _ _ _ _ _ _ _).of_fst e).keep

theorem execEnq_regsFail {s : State} (h : s.RegsFail gs) (a b : Operand) : Out.RegsFail gs (execEnq a b s) := by
  refine regsFail_onIssue fun c => ?_
  dsimp only
  split
  · exact h
  · refine State.RegsFail.fst_ite h ?_
    split
    · exact State.RegsFail.fst_ite h.keep h.keep
    · exact h.keep

theorem execStcn_regsFail {s : State} (h : s.RegsFail gs) (d a b : Operand) : Out.RegsFail gs (execStcn d a b s) := by
  refine regsFail_onIssue fun c => ?_
  dsimp only
  split
  · next e => exact (h.checkAccess _ _ _ _ _ _ _ _).of_fst e
  · next e => exact ((h.checkAccess _ _ _ _ _ _ _ _).of_fst e).keep

theorem execFnc_regsFail {s : State} (h : s.RegsFail gs) (k : FenceKind) (sc : Scope) : Out.RegsFail gs (execFnc k sc s) := by
  refine regsFail_onIssue fun c => ?_
  dsimp only
  split
  · exact h
  · split
    · next e => exact (h.fencePoint c k).of_fst e
    · next e =>
      have fenced := (h.fencePoint c k).of_fst e
      exact State.RegsFail.ite fenced fenced.keep

theorem execFsys_regsFail {s : State} (h : s.RegsFail gs) (d a b : Operand) : Out.RegsFail gs (execFsys d a b s) := by
  refine regsFail_onIssue fun c => ?_
  dsimp only
  split
  · exact h
  · split
    · exact h
    · split
      · next e => exact (h.fencePoint c .sc).of_fst e
      · next e => exact (h.fencePoint c .sc).of_fst e

theorem execWld_regsFail {s : State} (h : s.RegsFail gs) (d a b : Operand) : Out.RegsFail gs (execWld d a b s) :=
  regsFail_onIssue fun _ => State.RegsFail.fst_ite h (State.RegsFail.fst_ite h (State.RegsFail.fst_ite h (h.placeMatrix _ _ _)))

theorem execWfmt_regsFail {s : State} (h : s.RegsFail gs) (a : Operand) : Out.RegsFail gs (execWfmt a s) :=
  regsFail_onIssue fun _ => State.RegsFail.fst_ite h (h.placeMatrix _ _ _)

theorem regsFail_of_eq {o : State → Out} {s : State}
    (h : ∃ f, (∀ t, o t = State.onIssue t f) ∧ ∀ c, (f s c).1.RegsFail gs) : Out.RegsFail gs (o s) := by
  obtain ⟨f, acts, hf⟩ := h
  rw [acts]
  exact regsFail_onIssue hf

/-- R365. An instruction that goes on leaves the failing granules of registers as they are. -/
theorem exec_regsFail {s : State} {c : Issue} (hc : s.issue = some c) (h : s.RegsFail gs) {i : Instr} (hi : i.hasWord = true) :
    Out.RegsFail gs (exec i s) := by
  cases i <;> cases hi
  case nop | mode | bra | bany | ball | join | call | trap | brk | sysrd | yield | wset | wchk | clk | mov | ceq | cne | clt
    | cle | cgt | cge | cun | sel | qand | qor | qxor | qnot | qmov | qmsk | kq | shf | shx | shup | shdn | qswx | qswy | qswd
    | qbc | cmpr | expd | sldu | sldd | mtch | mtcn | rbor | rband | bcl | vote | topk | ffs =>
    cases s
    cases hc
    rintro _ ⟨⟩
    exact Or.inr h
  case spcfg => exact execSpcfg_regsFail h _
  case cond => exact execCond_regsFail h _ _
  case enq => exact execEnq_regsFail h _ _
  case stcn => exact execStcn_regsFail h _ _ _
  case fnc => exact execFnc_regsFail h _ _
  case fsys => exact execFsys_regsFail h _ _ _
  case wld => exact execWld_regsFail h _ _ _
  case wfmt => exact execWfmt_regsFail h _
  case wswp | mmz => exact regsFail_of_eq (o := exec _) ⟨_, fun _ => rfl, fun _ => h.placeMatrix _ _ _⟩
  case mma | mmac => exact regsFail_of_eq (o := exec _) ⟨_, fun _ => rfl, fun _ => h.multiply _ _ _ _ _ _⟩
  case fdiv | fsqrt | frcp | frsq | fex2 | flg2 | fsnp | fcsp | ftnh => exact regsFail_of_eq (o := exec _) ⟨_, fun _ => rfl, fun _ => h.computeLate _ _ _ _⟩
  case ldg | lds | ldcl | ldp | ldk | ldf | ldv | ldr => exact regsFail_of_eq (o := exec _) ⟨_, fun _ => rfl, fun _ => h.loadOp _ _ _ _ _ _ _⟩
  case stg | sts | stcl | stp | stf => exact regsFail_of_eq (o := exec _) ⟨_, fun _ => rfl, fun _ => h.storeOp _ _ _ _ _ _⟩
  case ldgs | stsg => exact regsFail_of_eq (o := exec _) ⟨_, fun _ => rfl, fun _ => h.copyOp _ _ _ _ _ _ _⟩
  case lde | lfe => exact regsFail_of_eq (o := exec _) ⟨_, fun _ => rfl, fun _ => h.earlyOp _ _ _ _ _ _⟩
  case aadd | afad | amin | amax | aand | aor | axor | axch | acas | asad | ascs | xadd | xcas =>
    exact regsFail_of_eq (o := exec _) ⟨_, fun _ => rfl, fun _ => h.atomicOp _ _ _ _ _ _ _⟩
  case spm | spj | sbn | sst | sbl | sbk => exact regsFail_of_eq (o := exec _) ⟨_, fun _ => rfl, fun _ => h.splatIssue _ _ _⟩
  case cpy | lxf | hxc | ared | pub | vret | ckp => exact regsFail_of_eq (o := exec _) ⟨_, fun _ => rfl, fun _ => h.engineIssue _ _ _⟩
  all_goals exact regsFail_of_eq (o := exec _) ⟨_, fun _ => rfl, fun _ => h⟩

end

/-! ### The step of an instruction -/

/-- R365. The granules that an instruction covers are among the failing ones of registers. -/
theorem Issue.coverRegs_congr (c : Issue) (i : Instr) {a b : List Granule}
    (h : a.filter Granule.ofRegister = b.filter Granule.ofRegister) : c.coverRegs i a = c.coverRegs i b := by
  have registers (l : List Granule) : c.coverRegs i (l.filter Granule.ofRegister) = c.coverRegs i l := by
    unfold Issue.coverRegs
    dsimp only
    rw [List.filter_filter]
    refine List.filter_congr fun g _ => ?_
    cases g with
    | vector | scalar | pred | temp => exact Bool.and_true _
    | _ => rfl
  rw [← registers a, h, registers]

theorem State.dropWords_eq {t u : State} (c : Issue) (i : Instr) (rest : List W32)
    (h : t.issue = none ∨ t.RegsFail (u.dev.failing.filter Granule.ofRegister)) :
    t.dropWords c i rest = { t with issue := t.issue.map (fun c' =>
      { c' with words := rest, covered := c'.covered ++ c.coverRegs i u.dev.failing }) } := by
  unfold State.dropWords
  obtain h | h := h
  · rw [h]
    rfl
  · rw [c.coverRegs_congr i h]

/-- Settles O55: an instruction leaves the failing granules of registers, so that its words are taken from the clause with the
granules that it covers. -/
theorem stepRunsDecoded : Obligations.StepRunsDecoded := by
  refine ⟨fun s c i rest t => ?_, fun s c h hr => ⟨State.advance_issue h hr, State.advance_tape h hr, State.advance_waves h hr⟩⟩
  intro u tape hc rival phase _ word _ decoded loss ht
  have runs : step s = stepClause u c := by
    rw [step, State.proceed, tape, hc]
  rw [runs, stepClause_decoded rival phase decoded loss, ht]
  exact congrArg Host.Outcome.next (State.dropWords_eq c i rest (exec_regsFail hc rfl word t ht))

end Sys2Proof.Machine

end

section
/-! SUPPORT. The proofs of the statements about the rounding of the binary formats (R85, R87 to R90) and about sums and products
of finite values (R120). -/

set_option Elab.async false

namespace Sys2Proof.Machine

open Sys2Proof.Spec

/-! ### The bits of a binary format and the magnitudes that they stand for -/

theorem pow2_eq_zpow (e : Int) : pow2 e = (2 : ℚ) ^ e := by
  cases e with
  | ofNat n => simp [pow2]
  | negSucc n => simp [pow2, zpow_negSucc]

/-- R89. The number that follows the largest finite one. -/
theorem magnitude_inf (f : FFmt) : magnitude f (f.inf false) = 2 ^ ((f.bias : ℤ) + 1) := by
  rw [magnitude, if_pos rfl, pow2_eq_zpow]

/-- R85. A format has an exponent field of two bits or more and a fraction. -/
structure FFmt.HasFields (f : FFmt) : Prop where
  eb : 2 ≤ f.eb
  fb : 1 ≤ f.fb

theorem FFmt.hasFields_of_mem {f : FFmt} (h : f ∈ [fmt64, fmt32, fmt16, fmtB16]) : f.HasFields := by
  simp only [List.mem_cons, List.not_mem_nil, or_false] at h
  obtain rfl | rfl | rfl | rfl := h <;> exact ⟨by decide, by decide⟩

section
variable {f : FFmt} (hf : f.HasFields)
include hf

theorem FFmt.HasFields.two_pow_eb : 2 ^ f.eb = 2 * f.bias + 2 := by
  have h : 2 ^ f.eb = 2 * 2 ^ (f.eb - 1) := by rw [← pow_succ', Nat.sub_add_cancel (Nat.one_le_of_lt hf.eb)]
  have pos : 0 < 2 ^ (f.eb - 1) := Nat.two_pow_pos _
  unfold FFmt.bias
  omega

theorem FFmt.HasFields.one_le_bias : 1 ≤ f.bias := by
  have h : 2 ^ 2 ≤ 2 ^ f.eb := Nat.pow_le_pow_right (by omega) hf.eb
  have := hf.two_pow_eb
  omega

theorem FFmt.HasFields.inf_false : f.inf false = (2 * f.bias + 1) * 2 ^ f.fb := by
  simp [FFmt.inf, hf.two_pow_eb]

theorem FFmt.HasFields.fraction_even (n : Nat) : n * 2 ^ f.fb % 2 = 0 := by
  rw [← Nat.sub_add_cancel hf.fb, pow_succ, ← mul_assoc, Nat.mul_mod_left]

/-- R85. A field of zero: a subnormal magnitude, or zero. -/
theorem FFmt.HasFields.magnitude_subnormal {k : Nat} (hk : k < 2 ^ f.fb) :
    magnitude f k = k * (2 : ℚ) ^ (f.emin - f.fb) := by
  have inf : k ≠ f.inf false := by
    rw [hf.inf_false]
    nlinarith [Nat.zero_le f.bias]
  have field : k / 2 ^ f.fb = 0 := Nat.div_eq_of_lt hk
  have sign : k / 2 ^ (f.eb + f.fb) = 0 := by rw [add_comm, pow_add, ← Nat.div_div_eq_div_mul, field, Nat.zero_div]
  have top : ¬ (0 = 2 ^ f.eb - 1) := by have := hf.two_pow_eb; omega
  rw [magnitude, if_neg inf]
  by_cases h0 : k = 0
  · subst h0
    simp [FFmt.decode, top, exactly]
  · simp [FFmt.decode, field, sign, top, Nat.mod_eq_of_lt hk, h0, exactly, pow2_eq_zpow]

/-- R85. The value of the bits of a normal magnitude: the field n + 1 and a fraction. -/
theorem FFmt.HasFields.decode_normal {n fr : Nat} (hfr : fr < 2 ^ f.fb) (hn : n + 1 < 2 * f.bias + 1) :
    f.decode ((n + 1) * 2 ^ f.fb + fr) = .fin false (2 ^ f.fb + fr) (n + f.emin - f.fb) := by
  have ebs := hf.two_pow_eb
  have field : ((n + 1) * 2 ^ f.fb + fr) / 2 ^ f.fb = n + 1 := by
    rw [add_comm, Nat.add_mul_div_right _ _ (Nat.two_pow_pos _), Nat.div_eq_of_lt hfr, zero_add]
  have frac : ((n + 1) * 2 ^ f.fb + fr) % 2 ^ f.fb = fr := by
    rw [add_comm, Nat.add_mul_mod_self_right, Nat.mod_eq_of_lt hfr]
  have small : (n + 1) % 2 ^ f.eb = n + 1 := Nat.mod_eq_of_lt (by omega)
  have sign : ((n + 1) * 2 ^ f.fb + fr) / 2 ^ (f.eb + f.fb) = 0 := by
    rw [add_comm f.eb, pow_add, ← Nat.div_div_eq_div_mul, field]
    exact Nat.div_eq_of_lt (by omega)
  have top : ¬ (n + 1 = 2 ^ f.eb - 1) := by omega
  have exponent : (((n + 1 : Nat) : ℤ) - f.bias - f.fb) = (n : ℤ) + f.emin - f.fb := by unfold FFmt.emin; omega
  simp only [FFmt.decode, field, frac, sign, small, if_neg top, if_neg (Nat.succ_ne_zero n), exponent]
  rfl

/-- R85. A field above zero: a normal magnitude, or the number that follows the largest finite one. -/
theorem FFmt.HasFields.magnitude_normal {n fr : Nat} (hfr : fr < 2 ^ f.fb) (hk : (n + 1) * 2 ^ f.fb + fr ≤ f.inf false) :
    magnitude f ((n + 1) * 2 ^ f.fb + fr) = ((2 ^ f.fb + fr : Nat) : ℚ) * (2 : ℚ) ^ (n + f.emin - f.fb) := by
  have fpos : 0 < 2 ^ f.fb := Nat.two_pow_pos _
  have inf := hf.inf_false
  have le : n + 1 ≤ 2 * f.bias + 1 := by
    rw [inf] at hk
    exact le_of_mul_le_mul_right ((Nat.le_add_right _ _).trans hk) fpos
  rcases le.eq_or_lt with last | normal
  · rw [last] at hk ⊢
    obtain rfl : fr = 0 := by omega
    have exponent : ((n : ℤ) + f.emin - f.fb) = (f.bias : ℤ) + 1 - f.fb := by unfold FFmt.emin; omega
    rw [add_zero, add_zero, ← inf, magnitude_inf, exponent, zpow_sub₀ two_ne_zero, zpow_natCast]
    push_cast
    rw [mul_div_cancel₀ _ (by positivity)]
  · have notInf : (n + 1) * 2 ^ f.fb + fr ≠ f.inf false := by
      have := Nat.mul_le_mul_right (2 ^ f.fb) (Nat.succ_le_of_lt normal)
      rw [Nat.succ_mul] at this
      omega
    rw [magnitude, if_neg notInf, hf.decode_normal hfr normal, exactly, pow2_eq_zpow]
    norm_num

/-- R85. Bits that stand for a multiple of the unit in their last place: a subnormal significand, or one of fb + 1 bits above
a field; a carry out of the significand is the next field. -/
theorem FFmt.HasFields.magnitude_grid {n sig : Nat} (hn : n = 0 ∨ 2 ^ f.fb ≤ sig) (hs : sig ≤ 2 ^ (f.fb + 1))
    (hk : n * 2 ^ f.fb + sig ≤ f.inf false) : magnitude f (n * 2 ^ f.fb + sig) = sig * (2 : ℚ) ^ (n + f.emin - f.fb) := by
  rw [pow_succ] at hs
  rcases Nat.lt_or_ge sig (2 ^ f.fb) with low | high
  · obtain rfl : n = 0 := by omega
    simpa using hf.magnitude_subnormal low
  rcases Nat.lt_or_ge (sig - 2 ^ f.fb) (2 ^ f.fb) with inside | carry
  · have e : n * 2 ^ f.fb + sig = (n + 1) * 2 ^ f.fb + (sig - 2 ^ f.fb) := by rw [add_mul]; omega
    rw [e] at hk ⊢
    rw [hf.magnitude_normal inside hk, Nat.add_sub_cancel' high]
  · have e : n * 2 ^ f.fb + sig = (n + 1 + 1) * 2 ^ f.fb + 0 := by simp only [add_mul]; omega
    have hs2 : sig = 2 ^ f.fb * 2 := by omega
    have hexp : (((n + 1 : Nat) : ℤ) + f.emin - f.fb) = 1 + ((n : ℤ) + f.emin - f.fb) := by push_cast; ring
    rw [e] at hk ⊢
    rw [hf.magnitude_normal (Nat.two_pow_pos _) hk, hs2, hexp, zpow_add₀ (two_ne_zero : (2 : ℚ) ≠ 0)]
    push_cast
    ring

/-- R85. Every magnitude is below the next one. -/
theorem FFmt.HasFields.magnitude_lt_succ {k : Nat} (hk : k < f.inf false) : magnitude f k < magnitude f (k + 1) := by
  have unit (e : ℤ) : (0 : ℚ) < 2 ^ e := by positivity
  have fpos : 0 < 2 ^ f.fb := Nat.two_pow_pos _
  obtain ⟨n, sig, hn, hs, rfl⟩ :
      ∃ n sig, (n = 0 ∨ 2 ^ f.fb ≤ sig) ∧ sig < 2 ^ (f.fb + 1) ∧ n * 2 ^ f.fb + sig = k := by
    rw [pow_succ]
    rcases h : k / 2 ^ f.fb with _ | n
    · exact ⟨0, k, .inl rfl, by have := (Nat.div_eq_zero_iff_lt fpos).mp h; omega, by omega⟩
    · have := Nat.mod_lt k fpos
      refine ⟨n, 2 ^ f.fb + k % 2 ^ f.fb, .inr (by omega), by omega, ?_⟩
      have := Nat.div_add_mod' k (2 ^ f.fb)
      rw [h, add_mul] at this
      omega
  rw [add_assoc, hf.magnitude_grid hn hs.le hk.le, hf.magnitude_grid (by omega) hs hk]
  push_cast
  nlinarith [unit ((n : ℤ) + f.emin - f.fb)]

/-- R85. The magnitudes stand in the order of their bits. -/
theorem FFmt.HasFields.magnitude_mono {k j : Nat} (h : k ≤ j) (hj : j ≤ f.inf false) : magnitude f k ≤ magnitude f j := by
  induction j, h using Nat.le_induction with
  | base => exact le_rfl
  | succ j _ ih => exact (ih (by omega)).trans (hf.magnitude_lt_succ hj).le

end

/-! ### The neighbour that a mode names -/

/-- R88. The neighbour that a mode names for a magnitude y between a, the n-th of a row of magnitudes, and b, the next one. -/
def neighbour (rm : RMode) (neg : Bool) (y a b : Rat) (n : Nat) : Nat :=
  let mid := (a + b) / 2
  if a = y then n else match rm with
    | .rne => if y < mid ∨ (y = mid ∧ n % 2 = 0) then n else n + 1
    | .rtz => n
    | .rup => if neg then n else n + 1
    | .rdn => if neg then n + 1 else n
    | .rna => if y < mid then n else n + 1
    | .rod => if n % 2 = 1 then n else n + 1

theorem picks_iff_neighbour {f : FFmt} {rm : RMode} {neg : Bool} {y : Rat} {k : Nat} :
    picks f rm neg y k ↔ ∃ lo, lo < f.inf false ∧ magnitude f lo ≤ y ∧ y < magnitude f (lo + 1) ∧
      k = neighbour rm neg y (magnitude f lo) (magnitude f (lo + 1)) lo := by
  cases rm <;> rfl

theorem neighbour_exact {rm : RMode} {neg : Bool} {y a b : Rat} {n : Nat} (h : a = y) : neighbour rm neg y a b n = n := by
  simp [neighbour, h]

theorem neighbour_eq_or (rm : RMode) (neg : Bool) (y a b : Rat) (n : Nat) :
    neighbour rm neg y a b n = n ∨ neighbour rm neg y a b n = n + 1 := by
  unfold neighbour
  cases rm <;> dsimp only <;> split_ifs <;> simp

/-- R89. No mode goes beyond the number that follows the largest finite one. -/
theorem picks_le_inf {f : FFmt} {rm : RMode} {neg : Bool} {y : Rat} {k : Nat} (h : picks f rm neg y k) : k ≤ f.inf false := by
  obtain ⟨lo, inside, -, -, rfl⟩ := picks_iff_neighbour.mp h
  obtain h | h := neighbour_eq_or rm neg y (magnitude f lo) (magnitude f (lo + 1)) lo <;> omega

/-- R88. The parity of the lower magnitude is all that a mode asks of its place. -/
theorem neighbour_add {rm : RMode} {neg : Bool} {y a b : Rat} {c n : Nat} (hc : c % 2 = 0) :
    neighbour rm neg y a b (c + n) = c + neighbour rm neg y a b n := by
  have parity : (c + n) % 2 = n % 2 := by omega
  unfold neighbour
  cases rm <;> simp only [parity, apply_ite (c + ·), add_assoc]

/-- R88. The model's choice by the place of a magnitude against the midpoint. -/
theorem neighbour_eq_roundUp {rm : RMode} {neg : Bool} {y a b : Rat} {n : Nat} (h : a ≠ y) :
    neighbour rm neg y a b n = if roundUp rm neg (n % 2 == 1) (compare y ((a + b) / 2)) then n + 1 else n := by
  unfold neighbour
  dsimp only
  rw [if_neg h]
  generalize (a + b) / 2 = mid
  have parity := Nat.mod_two_eq_zero_or_one n
  cases rm with
  | rne =>
    rcases lt_trichotomy y mid with lt | eq | gt
    · simp [roundUp, compare_lt_iff_lt.mpr lt, lt]
    · rcases parity with even | odd <;> simp [roundUp, *]
    · simp [roundUp, compare_gt_iff_gt.mpr gt, gt.not_gt, gt.ne']
  | rna =>
    rcases lt_or_ge y mid with lt | ge
    · simp [roundUp, compare_lt_iff_lt.mpr lt, lt]
    · simp [roundUp, ge.not_gt, compare_ge_iff_ge.mpr ge]
  | rtz => rfl
  | rup => cases neg <;> rfl
  | rdn => cases neg <;> rfl
  | rod => rcases parity with even | odd <;> simp [roundUp, *]

/-! ### Rounding on a grid -/

/-- R88. A multiple of 2^q and an exactness mark are a magnitude rounded to the grid of multiples of 2^q. -/
def RoundedOnGrid (rm : RMode) (neg : Bool) (y : Rat) (q : Int) (r : Nat × Bool) : Prop :=
  ∃ lo : Nat, lo * 2 ^ q ≤ y ∧ y < ((lo + 1 : Nat) : Rat) * 2 ^ q ∧
    r = (neighbour rm neg y (lo * 2 ^ q) (((lo + 1 : Nat) : Rat) * 2 ^ q) lo, decide (lo * 2 ^ q = y))

/-- A magnitude as a multiple of a lower power of two. -/
theorem mul_two_pow_toNat_mul_zpow (m : Nat) {e q : Int} (h : q ≤ e) :
    ((m * 2 ^ (e - q).toNat : Nat) : ℚ) * 2 ^ q = m * 2 ^ e := by
  push_cast
  rw [mul_assoc, ← zpow_natCast, ← zpow_add₀ two_ne_zero, Int.toNat_of_nonneg (by omega), Int.sub_add_cancel]

/-- A magnitude whose unit is a multiple of the grid's is exact on it. -/
theorem roundGridAt_fine (rm : RMode) (neg : Bool) (m : Nat) {e q : Int} (h : q ≤ e) :
    RoundedOnGrid rm neg (m * 2 ^ e) q (roundGridAt rm neg m e false q) := by
  have key := mul_two_pow_toNat_mul_zpow m h
  refine ⟨m * 2 ^ (e - q).toNat, key.le, ?_, ?_⟩
  · rw [Nat.cast_succ, add_mul, key, one_mul]
    exact lt_add_of_pos_right _ (by positivity)
  · rw [roundGridAt, if_pos h, neighbour_exact key, decide_eq_true key, Bool.not_false]

/-- The multiple of a power of two that a number holds and the rest, as magnitudes of the number's unit. -/
theorem mul_zpow_eq_div_add_mod (m s : Nat) (e : Int) :
    (m : ℚ) * 2 ^ e = (m / 2 ^ s : Nat) * 2 ^ (s + e) + (m % 2 ^ s : Nat) * 2 ^ e := by
  conv_lhs => rw [← Nat.div_add_mod' m (2 ^ s)]
  rw [zpow_add₀ two_ne_zero, zpow_natCast]
  push_cast
  ring

/-- R88. A magnitude whose unit is below the grid's: the bits below the grid tell its place between two multiples. -/
theorem roundGridAt_coarse (rm : RMode) (neg : Bool) (m : Nat) {e q : Int} (h : e < q) :
    RoundedOnGrid rm neg (m * 2 ^ e) q (roundGridAt rm neg m e false q) := by
  obtain ⟨s, hs⟩ : ∃ s : Nat, (q - e).toNat = s + 1 := ⟨(q - e).toNat - 1, by omega⟩
  have hq : ((s + 1 : Nat) : ℤ) + e = q := by omega
  have unit : (0 : ℚ) < 2 ^ e := by positivity
  have grid : (2 : ℚ) ^ q = 2 * 2 ^ s * 2 ^ e := by rw [← hq, zpow_add₀ two_ne_zero, zpow_natCast, pow_succ']
  have place := mul_zpow_eq_div_add_mod m (s + 1) e
  have hr : m % 2 ^ (s + 1) < 2 * 2 ^ s := by rw [← pow_succ']; exact Nat.mod_lt _ (Nat.two_pow_pos _)
  simp only [roundGridAt, if_neg h.not_ge, hs, Nat.add_sub_cancel]
  rw [hq] at place
  generalize m / 2 ^ (s + 1) = lo at place ⊢
  generalize m % 2 ^ (s + 1) = r at place hr ⊢
  generalize (m : ℚ) * 2 ^ e = y at place ⊢
  have below : (r : ℚ) * 2 ^ e < 2 ^ q := grid ▸ mul_lt_mul_of_pos_right (by exact_mod_cast hr) unit
  have rest : (0 : ℚ) ≤ r * 2 ^ e := by positivity
  have next : ((lo + 1 : Nat) : ℚ) * 2 ^ q = lo * 2 ^ q + 2 ^ q := by rw [Nat.cast_succ, add_mul, one_mul]
  refine ⟨lo, by linarith, by linarith, ?_⟩
  have exact_iff : (lo * 2 ^ q = y) ↔ r = 0 := by
    rw [place, left_eq_add, mul_eq_zero, or_iff_left unit.ne', Nat.cast_eq_zero]
  have midpoint : (lo * 2 ^ q + ((lo + 1 : Nat) : ℚ) * 2 ^ q) / 2 = lo * 2 ^ q + (2 ^ s : Nat) * 2 ^ e := by
    rw [next, grid]; push_cast; ring
  have against : compare y ((lo * 2 ^ q + ((lo + 1 : Nat) : ℚ) * 2 ^ q) / 2) =
      if r < 2 ^ s then .lt else if r = 2 ^ s then .eq else .gt := by
    rw [midpoint, place, LinearOrder.compare_eq_compareOfLessAndEq, compareOfLessAndEq]
    simp only [add_lt_add_iff_left, add_right_inj, mul_lt_mul_iff_left₀ unit, mul_left_inj' unit.ne', Nat.cast_lt,
      Nat.cast_inj]
  by_cases h0 : r = 0
  · rw [neighbour_exact (exact_iff.mpr h0), decide_eq_true (exact_iff.mpr h0), if_pos ⟨h0, rfl⟩]
  · rw [neighbour_eq_roundUp (mt exact_iff.mp h0), decide_eq_false (mt exact_iff.mp h0), against]
    simp [h0]

/-- R88. On a grid of multiples of 2^q the model takes the neighbour that the mode names, and marks a multiple exact. -/
theorem roundGridAt_rounded (rm : RMode) (neg : Bool) (m : Nat) (e q : Int) :
    RoundedOnGrid rm neg (m * 2 ^ e) q (roundGridAt rm neg m e false q) := by
  rcases le_or_gt q e with h | h
  · exact roundGridAt_fine rm neg m h
  · exact roundGridAt_coarse rm neg m h

/-- A grid and a magnitude scaled by two together. -/
theorem roundGridAt_succ (rm : RMode) (neg : Bool) (m : Nat) (e q : Int) (sticky : Bool) :
    roundGridAt rm neg m (e + 1) sticky (q + 1) = roundGridAt rm neg m e sticky q := by
  simp only [roundGridAt, add_le_add_iff_right, add_sub_add_right_eq_sub]

/-! ### The bits that the model rounds to -/

/-- The exponent of the highest bit of m · 2^e. -/
def topExp (m : Nat) (e : Int) : Int := e + (Nat.log2 m : Int)

/-- A bound on a magnitude by a power of two is one on its highest bit. -/
theorem mul_zpow_lt_iff {m : Nat} (hm : 0 < m) (e k : Int) : (m : ℚ) * 2 ^ e < 2 ^ k ↔ topExp m e < k := by
  have lower : (2 : ℚ) ^ topExp m e ≤ m * 2 ^ e := by
    rw [topExp, add_comm, zpow_add₀ two_ne_zero, zpow_natCast]
    exact mul_le_mul_of_nonneg_right (by exact_mod_cast Nat.log2_self_le hm.ne') (by positivity)
  have upper : (m : ℚ) * 2 ^ e < 2 ^ (topExp m e + 1) := by
    rw [topExp, add_assoc, add_comm, zpow_add₀ two_ne_zero, ← Nat.cast_succ, zpow_natCast]
    exact mul_lt_mul_of_pos_right (by exact_mod_cast Nat.lt_log2_self) (by positivity)
  constructor
  · exact fun h => (zpow_lt_zpow_iff_right₀ one_lt_two).mp (lower.trans_lt h)
  · exact fun h => upper.trans_le (zpow_le_zpow_right₀ one_le_two h)

/-- The number of bits of the multiple of 2^q below a magnitude. -/
theorem lt_two_pow_iff {m lo : Nat} (hm : 0 < m) {e q : Int} (h : (lo : ℚ) * 2 ^ q ≤ m * 2 ^ e)
    (h' : (m * 2 ^ e : ℚ) < ((lo + 1 : Nat) : ℚ) * 2 ^ q) (j : Nat) : lo < 2 ^ j ↔ topExp m e < j + q := by
  have unit : (0 : ℚ) < 2 ^ q := by positivity
  rw [← mul_zpow_lt_iff hm, zpow_add₀ two_ne_zero, zpow_natCast]
  constructor <;> intro lt
  · exact h'.trans_le (mul_le_mul_of_nonneg_right (by exact_mod_cast lt) unit.le)
  · exact_mod_cast (mul_lt_mul_iff_left₀ unit).mp (h.trans_lt lt)

/-- The fields above the lowest one at which a highest bit of an exponent stands. -/
def FFmt.rise (f : FFmt) (top : Int) : Nat := (top - f.emin).toNat

/-- R88, R90. The magnitude m · 2^e on the grid of the field at which it stands: the significand and whether it is exact. -/
def FFmt.onGrid (f : FFmt) (rm : RMode) (neg : Bool) (m : Nat) (e : Int) : Nat × Bool :=
  roundGridAt rm neg m e false (f.rise (topExp m e) + f.emin - f.fb)

/-- R88. The magnitude bits that the model rounds m · 2^e to, those of the infinity and above where it overflows. -/
def FFmt.roundedBits (f : FFmt) (rm : RMode) (neg : Bool) (m : Nat) (e : Int) : Nat :=
  f.rise (topExp m e) * 2 ^ f.fb + (f.onGrid rm neg m e).1

/-- R89. What an overflow leaves. -/
def FFmt.overflow (f : FFmt) (rm : RMode) (neg : Bool) : Nat :=
  match rm with
  | .rne | .rna => f.inf neg
  | .rtz | .rod => f.maxFinite neg
  | .rup => if neg then f.maxFinite neg else f.inf neg
  | .rdn => if neg then f.inf neg else f.maxFinite neg

/-- R90. Whether m · 2^e is below the smallest normal value and stays there when rounded with an unbounded exponent. -/
def FFmt.tiny (f : FFmt) (rm : RMode) (neg : Bool) (m : Nat) (e : Int) : Bool :=
  decide (topExp m e < f.emin) &&
    decide (topExp m e + 1 < f.emin ∨ (roundGridAt rm neg m e false (topExp m e - f.fb)).1 < 2 ^ (f.fb + 1))

/-- R88. The neighbours of m · 2^e on its grid, as significands of the format, and the one that the model takes. -/
theorem FFmt.onGrid_eq (f : FFmt) (rm : RMode) (neg : Bool) {m : Nat} (hm : 0 < m) (e : Int) :
    let n := f.rise (topExp m e)
    ∃ lo : Nat, lo < 2 ^ (f.fb + 1) ∧ (n = 0 ∨ 2 ^ f.fb ≤ lo) ∧ (topExp m e < f.emin → lo < 2 ^ f.fb) ∧
      (lo : ℚ) * 2 ^ (n + f.emin - f.fb) ≤ m * 2 ^ e ∧
      (m * 2 ^ e : ℚ) < ((lo + 1 : Nat) : ℚ) * 2 ^ (n + f.emin - f.fb) ∧
      f.onGrid rm neg m e = (neighbour rm neg (m * 2 ^ e) (lo * 2 ^ (n + f.emin - f.fb))
        (((lo + 1 : Nat) : ℚ) * 2 ^ (n + f.emin - f.fb)) lo, decide ((lo : ℚ) * 2 ^ (n + f.emin - f.fb) = m * 2 ^ e)) := by
  intro n
  have rise : (n : ℤ) = max (topExp m e - f.emin) 0 := Int.toNat_eq_max _
  obtain ⟨lo, below, above, taken⟩ := roundGridAt_rounded rm neg m e (n + f.emin - f.fb)
  have bits := lt_two_pow_iff hm below above
  refine ⟨lo, (bits _).mpr (by push_cast; omega), ?_, fun sub => (bits _).mpr (by omega), below, above, taken⟩
  rw [← not_lt, bits]
  omega

/-- R88. The bounds of the significand that the model takes. -/
theorem FFmt.onGrid_le (f : FFmt) (rm : RMode) (neg : Bool) {m : Nat} (hm : 0 < m) (e : Int) :
    (f.onGrid rm neg m e).1 ≤ 2 ^ (f.fb + 1) ∧ (f.rise (topExp m e) = 0 ∨ 2 ^ f.fb ≤ (f.onGrid rm neg m e).1) ∧
      (topExp m e < f.emin → (f.onGrid rm neg m e).1 ≤ 2 ^ f.fb) := by
  obtain ⟨lo, high, low, sub, -, -, taken⟩ := f.onGrid_eq rm neg hm e
  rw [taken]
  have := neighbour_eq_or rm neg (m * 2 ^ e) (lo * 2 ^ (f.rise (topExp m e) + f.emin - f.fb))
    (((lo + 1 : Nat) : ℚ) * 2 ^ (f.rise (topExp m e) + f.emin - f.fb)) lo
  dsimp only
  exact ⟨by omega, by omega, fun h => by have := sub h; omega⟩

section
variable {f : FFmt} (hf : f.HasFields)
include hf

/-- R88. Below the overflow the model takes the bits that the mode names, and it marks those of the magnitude itself exact. -/
theorem FFmt.HasFields.picks_roundedBits (rm : RMode) (neg : Bool) {m : Nat} (hm : 0 < m) {e : Int}
    (hy : (m * 2 ^ e : ℚ) < magnitude f (f.inf false)) :
    picks f rm neg (m * 2 ^ e) (f.roundedBits rm neg m e) ∧
      (f.onGrid rm neg m e).2 = decide (magnitude f (f.roundedBits rm neg m e) = m * 2 ^ e) := by
  obtain ⟨lo, high, low, -, below, above, taken⟩ := f.onGrid_eq rm neg hm e
  rw [magnitude_inf, mul_zpow_lt_iff hm] at hy
  have bias := hf.one_le_bias
  have field : f.rise (topExp m e) + 2 ≤ 2 * f.bias + 1 := by unfold FFmt.rise FFmt.emin; omega
  rw [FFmt.roundedBits, taken]
  generalize f.rise (topExp m e) = n at *
  have inside : n * 2 ^ f.fb + lo < f.inf false := by
    have := Nat.mul_le_mul_right (2 ^ f.fb) field
    rw [hf.inf_false]
    rw [pow_succ] at high
    linarith
  have at_lo := hf.magnitude_grid low high.le inside.le
  have at_next : magnitude f (n * 2 ^ f.fb + lo + 1) = ((lo + 1 : Nat) : ℚ) * 2 ^ ((n : ℤ) + f.emin - f.fb) :=
    hf.magnitude_grid (low.imp_right Nat.le_succ_of_le) high inside
  rw [← at_lo] at below ⊢
  rw [← at_next] at above ⊢
  dsimp only
  rw [← neighbour_add (hf.fraction_even n)]
  refine ⟨picks_iff_neighbour.mpr ⟨_, inside, below, above, rfl⟩, ?_⟩
  by_cases h : magnitude f (n * 2 ^ f.fb + lo) = m * 2 ^ e
  · rw [neighbour_exact h]
  · rw [decide_eq_false h, eq_comm, decide_eq_false_iff_not]
    obtain k | k := neighbour_eq_or rm neg (m * 2 ^ e) (magnitude f (n * 2 ^ f.fb + lo)) (magnitude f (n * 2 ^ f.fb + lo + 1))
      (n * 2 ^ f.fb + lo) <;> rw [k]
    · exact h
    · exact above.ne'

/-- R89. From the overflow on, the bits that the model rounds to are those of the infinity or above. -/
theorem FFmt.HasFields.inf_le_roundedBits (rm : RMode) (neg : Bool) {m : Nat} (hm : 0 < m) {e : Int}
    (hy : magnitude f (f.inf false) ≤ m * 2 ^ e) : f.inf false ≤ f.roundedBits rm neg m e := by
  obtain ⟨-, low, -⟩ := f.onGrid_le rm neg hm e
  rw [magnitude_inf, ← not_lt, mul_zpow_lt_iff hm, not_lt] at hy
  have rise : 2 * f.bias ≤ f.rise (topExp m e) := by unfold FFmt.rise FFmt.emin; omega
  have bias := hf.one_le_bias
  have high := low.resolve_left (by omega)
  rw [hf.inf_false, FFmt.roundedBits]
  linarith [Nat.mul_le_mul_right (2 ^ f.fb) rise]

/-- R88. A mode names one neighbour. -/
theorem FFmt.HasFields.picks_unique {rm : RMode} {neg : Bool} {y : Rat} {k j : Nat} (hk : picks f rm neg y k)
    (hj : picks f rm neg y j) : k = j := by
  obtain ⟨lo, inside, below, above, rfl⟩ := picks_iff_neighbour.mp hk
  obtain ⟨lo', inside', below', above', rfl⟩ := picks_iff_neighbour.mp hj
  have apart {a b : Nat} (hb : b < f.inf false) (h : magnitude f b ≤ y) (h' : y < magnitude f (a + 1)) : b ≤ a := by
    by_contra lt
    exact absurd (hf.magnitude_mono (Nat.lt_of_not_le lt) hb.le) (not_le.mpr (h.trans_lt h'))
  obtain rfl := (apart inside below above').antisymm (apart inside' below' above)
  rfl

/-- R89. The rounded bits reach those of the infinity where the exponent field would be all ones. -/
theorem FFmt.HasFields.inf_le_bits_iff {n sig : Nat} (hs : sig ≤ 2 ^ (f.fb + 1)) (hn : n = 0 ∨ 2 ^ f.fb ≤ sig) :
    f.inf false ≤ n * 2 ^ f.fb + sig ↔
      (2 ^ f.eb - 1 : ℤ) ≤ if sig < 2 ^ (f.fb + 1) then (n + 1 : ℤ) else (n + 1 : ℤ) + 1 := by
  have bias := hf.one_le_bias
  have ones : (2 ^ f.eb - 1 : ℤ) = ((2 * f.bias + 1 : Nat) : ℤ) := by
    rw [show (2 ^ f.eb : ℤ) = ((2 ^ f.eb : Nat) : ℤ) by push_cast; rfl, hf.two_pow_eb]; omega
  have fpos : 0 < 2 ^ f.fb := Nat.two_pow_pos _
  rw [hf.inf_false, ones]
  rw [pow_succ] at hs ⊢
  split
  case isTrue lt =>
    norm_cast
    constructor <;> intro h
    · by_contra hc
      nlinarith
    · have high := hn.resolve_left (by omega)
      linarith [Nat.mul_le_mul_right (2 ^ f.fb) h]
  case isFalse ge =>
    have carry : n * 2 ^ f.fb + sig = (n + 1 + 1) * 2 ^ f.fb := by simp only [add_mul]; omega
    rw [carry, Nat.mul_le_mul_right_iff fpos]
    norm_cast

end

/-! ### One rounding -/

/-- Bits below the lowest field are those of a significand there. -/
theorem bits_lt_iff {w n sig : Nat} (h : n = 0 ∨ w ≤ sig) : n * w + sig < w ↔ sig < w := by
  rcases h with rfl | high
  · simp
  · simp [high.not_gt, Nat.not_lt.mpr (high.trans (Nat.le_add_left _ _))]

/-- The model adds a significand to the field only where it has a bit of its own there. -/
theorem significand_in_field {w n sig : Nat} (h : n = 0 ∨ w ≤ sig) :
    (if sig < w then sig else ((n + 1 : ℤ).toNat - 1) * w + sig) = n * w + sig := by
  rcases h with rfl | high
  · simp
  · simp [high.not_gt]

section
variable {f : FFmt} (hf : f.HasFields)
include hf

/-- R87 to R90. What the model rounds a magnitude to, by the bits that it takes. -/
theorem FFmt.HasFields.round_eq (rm : RMode) (ftz neg : Bool) {m : Nat} (hm : 0 < m) (e : Int) :
    f.round rm ftz neg m e false =
      if f.inf false ≤ f.roundedBits rm neg m e then (f.overflow rm neg, fOF ||| fNX)
      else if ftz = true ∧ f ≠ fmt64 ∧ f.roundedBits rm neg m e < 2 ^ f.fb then (f.zero neg, fUF ||| fNX)
      else (f.zero neg + f.roundedBits rm neg m e,
        flagIf (!(f.onGrid rm neg m e).2) fNX ||| flagIf (!(f.onGrid rm neg m e).2 && f.tiny rm neg m e) fUF) := by
  obtain ⟨carry, low, -⟩ := f.onGrid_le rm neg hm e
  have rise : ((f.rise (topExp m e) : Nat) : ℤ) = max (topExp m e - f.emin) 0 := Int.toNat_eq_max _
  have top : e + (Nat.log2 m : ℤ) = topExp m e := rfl
  have grid : max (topExp m e - f.fb) (f.emin - f.fb) = f.rise (topExp m e) + f.emin - f.fb := by omega
  have onGrid : roundGridAt rm neg m e false (f.rise (topExp m e) + f.emin - f.fb) = f.onGrid rm neg m e := rfl
  have field : (f.rise (topExp m e) + f.emin - f.fb : ℤ) + f.fb + f.bias = f.rise (topExp m e) + 1 := by
    unfold FFmt.emin; omega
  have bits := significand_in_field low
  have sub := bits_lt_iff low
  simp only [FFmt.round, top, grid, onGrid, field, ← hf.inf_le_bits_iff carry low, bits, FFmt.roundedBits, sub,
    FFmt.tiny, Bool.and_eq_true, bne_iff_ne, decide_eq_true_eq, and_assoc]
  cases rm <;> rfl

/-- R90. Tininess after rounding: twice the magnitude, on the grid of the lowest field, rounds to less than twice the smallest
normal value. -/
theorem FFmt.HasFields.tiny_iff (rm : RMode) (neg : Bool) {m : Nat} (hm : 0 < m) (e : Int) :
    f.tiny rm neg m e = true ↔
      (m * 2 ^ e : ℚ) < 2 ^ f.emin ∧ ∃ j, picks f rm neg (2 * (m * 2 ^ e)) j ∧ j < 2 * 2 ^ f.fb := by
  rw [FFmt.tiny, Bool.and_eq_true, decide_eq_true_eq, decide_eq_true_eq, mul_zpow_lt_iff hm]
  refine and_congr_right fun below => ?_
  have double : (2 * (m * 2 ^ e) : ℚ) = m * 2 ^ (e + 1) := by rw [zpow_add_one₀ two_ne_zero]; ring
  have topSucc : topExp m (e + 1) = topExp m e + 1 := by unfold topExp; omega
  have lowest : f.rise (topExp m (e + 1)) = 0 := by unfold FFmt.rise; omega
  have bits : f.roundedBits rm neg m (e + 1) = (f.onGrid rm neg m (e + 1)).1 := by simp [FFmt.roundedBits, lowest]
  have small : (m * 2 ^ (e + 1) : ℚ) < magnitude f (f.inf false) := by
    rw [magnitude_inf, mul_zpow_lt_iff hm, topSucc]
    unfold FFmt.emin at below
    have := hf.one_le_bias
    omega
  obtain ⟨picked, -⟩ := hf.picks_roundedBits rm neg hm small
  have unique : (∃ j, picks f rm neg (m * 2 ^ (e + 1)) j ∧ j < 2 * 2 ^ f.fb) ↔
      (f.onGrid rm neg m (e + 1)).1 < 2 * 2 ^ f.fb := by
    rw [← bits]
    exact ⟨fun ⟨j, hj, lt⟩ => hf.picks_unique picked hj ▸ lt, fun lt => ⟨_, picked, lt⟩⟩
  rw [double, unique, pow_succ']
  obtain ⟨-, -, sub⟩ := f.onGrid_le rm neg hm (e + 1)
  have fpos : 0 < 2 ^ f.fb := Nat.two_pow_pos _
  rcases lt_or_ge (topExp m e + 1) f.emin with far | near
  · have := sub (topSucc ▸ far)
    exact iff_of_true (.inl far) (by omega)
  · have shift : (f.rise (topExp m (e + 1)) + f.emin - f.fb : ℤ) = topExp m e - f.fb + 1 := by omega
    rw [or_iff_right near.not_gt, FFmt.onGrid, shift, roundGridAt_succ]

end

/-- R87 to R90. A rounding, with what an overflow leaves by its name. -/
theorem rounds_iff_overflow {f : FFmt} {rm : RMode} {ftz neg : Bool} {y : Rat} {r : Nat × FpFlags} :
    rounds f rm ftz neg y r ↔ (magnitude f (f.inf false) ≤ y → r = (f.overflow rm neg, fOF ||| fNX)) ∧
      (y < magnitude f (f.inf false) → ∃ k, picks f rm neg y k ∧
        if k = f.inf false then r = (f.overflow rm neg, fOF ||| fNX)
        else if ftz = true ∧ f ≠ fmt64 ∧ k < 2 ^ f.fb then r = (f.zero neg, fUF ||| fNX)
        else r.1 = f.zero neg + k ∧ ∀ b, r.2.getLsbD b = true ↔ magnitude f k ≠ y ∧
          (b = 4 ∨ (b = 3 ∧ y < pow2 f.emin ∧ ∃ j, picks f rm neg (2 * y) j ∧ j < 2 * 2 ^ f.fb))) := by
  cases rm <;> rfl

/-- R93. The bits of the flags of an inexact and of an underflowing result. -/
theorem getLsbD_inexact_underflow (x u : Bool) (b : Nat) :
    (flagIf x fNX ||| flagIf u fUF).getLsbD b = true ↔ x = true ∧ b = 4 ∨ u = true ∧ b = 3 := by
  have nx : fNX = BitVec.twoPow 6 4 := rfl
  have uf : fUF = BitVec.twoPow 6 3 := rfl
  rw [BitVec.getLsbD_or, Bool.or_eq_true]
  refine or_congr ?_ ?_
  · cases x <;> simp [flagIf, nx, BitVec.getLsbD_twoPow, eq_comm]
  · cases u <;> simp [flagIf, uf, BitVec.getLsbD_twoPow, eq_comm]

section
variable {f : FFmt} (hf : f.HasFields)
include hf

/-- R87 to R90. The model rounds a non-zero magnitude once, to the neighbour that the mode names. -/
theorem FFmt.HasFields.rounds_round (rm : RMode) (ftz neg : Bool) {m : Nat} (hm : 0 < m) (e : Int) :
    rounds f rm ftz neg (m * pow2 e) (f.round rm ftz neg m e false) := by
  rw [rounds_iff_overflow, pow2_eq_zpow, pow2_eq_zpow, hf.round_eq rm ftz neg hm e]
  refine ⟨fun large => if_pos (hf.inf_le_roundedBits rm neg hm large), fun small => ?_⟩
  obtain ⟨picked, marked⟩ := hf.picks_roundedBits rm neg hm small
  refine ⟨_, picked, ?_⟩
  rw [marked]
  split
  case isTrue top => rw [if_pos top.ge]
  case isFalse notInf =>
    rw [if_neg fun h => notInf ((picks_le_inf picked).antisymm h)]
    by_cases flushed : ftz = true ∧ f ≠ fmt64 ∧ f.roundedBits rm neg m e < 2 ^ f.fb
    · rw [if_pos flushed, if_pos flushed]
    · rw [if_neg flushed, if_neg flushed]
      refine ⟨rfl, fun b => ?_⟩
      rw [getLsbD_inexact_underflow, Bool.and_eq_true, hf.tiny_iff rm neg hm]
      simp only [Bool.not_eq_true', decide_eq_false_iff_not]
      tauto

end

/-! ### A value of a format rounds to itself -/

/-- R85. The bits of a finite value: its sign above the bits of its magnitude. -/
theorem FFmt.decode_eq_fin {f : FFmt} {b : Nat} {neg : Bool} {m : Nat} {e : Int} (h : f.decode b = .fin neg m e) :
    (b / 2 ^ (f.eb + f.fb) % 2 == 1) = neg ∧ f.decode (b % 2 ^ (f.eb + f.fb)) = .fin false m e ∧ 0 < m ∧
      b % 2 ^ (f.eb + f.fb) < f.inf false ∧ (f.subnormal b = true ↔ b % 2 ^ (f.eb + f.fb) < 2 ^ f.fb) := by
  have fpos : 0 < 2 ^ f.fb := Nat.two_pow_pos _
  have widths : 2 ^ (f.eb + f.fb) = 2 ^ f.fb * 2 ^ f.eb := by rw [add_comm, pow_add]
  have field : b % 2 ^ (f.eb + f.fb) / 2 ^ f.fb = b / 2 ^ f.fb % 2 ^ f.eb := by rw [widths, Nat.mod_mul_right_div_self]
  have frac : b % 2 ^ (f.eb + f.fb) % 2 ^ f.fb = b % 2 ^ f.fb := Nat.mod_mod_of_dvd _ (widths ▸ Nat.dvd_mul_right _ _)
  have sign : b % 2 ^ (f.eb + f.fb) / 2 ^ (f.eb + f.fb) = 0 := Nat.div_eq_of_lt (Nat.mod_lt _ (Nat.two_pow_pos _))
  have low : b % 2 ^ (f.eb + f.fb) < 2 ^ f.fb ↔ b / 2 ^ f.fb % 2 ^ f.eb = 0 := by rw [← field, Nat.div_eq_zero_iff_lt fpos]
  have notTop : b / 2 ^ f.fb % 2 ^ f.eb ≠ 2 ^ f.eb - 1 := by
    intro top
    unfold FFmt.decode at h
    simp only [top, if_true] at h
    split_ifs at h
  have below : b % 2 ^ (f.eb + f.fb) < f.inf false := by
    have lt := Nat.mod_lt (b / 2 ^ f.fb) (Nat.two_pow_pos f.eb)
    rw [← field] at notTop lt
    have := (Nat.div_lt_iff_lt_mul fpos).mp (by omega : b % 2 ^ (f.eb + f.fb) / 2 ^ f.fb < 2 ^ f.eb - 1)
    simpa [FFmt.inf] using this
  rw [low]
  unfold FFmt.decode FFmt.subnormal at *
  simp only [field, frac, sign, Nat.mod_mod, if_neg notTop] at h ⊢
  split_ifs at h with lowest noFrac <;> cases h
  · simp [lowest, noFrac, below, Nat.pos_of_ne_zero noFrac]
  · simp [lowest, below, fpos]

/-- R85. The magnitude of the bits of a finite value. -/
theorem magnitude_of_decode {f : FFmt} {k m : Nat} {e : Int} (hk : k < f.inf false)
    (h : f.decode k = .fin false m e) : magnitude f k = m * 2 ^ e := by
  simp [magnitude, hk.ne, h, exactly, pow2_eq_zpow]

/-- Bits of the format are their sign and the bits of their magnitude. -/
theorem FFmt.zero_add_mod {f : FFmt} {b : Nat} (hb : b < 2 ^ f.width) :
    f.zero (b / 2 ^ (f.eb + f.fb) % 2 == 1) + b % 2 ^ (f.eb + f.fb) = b := by
  have lt : b / 2 ^ (f.eb + f.fb) < 2 := by
    rw [Nat.div_lt_iff_lt_mul (Nat.two_pow_pos _), ← pow_succ']
    rwa [FFmt.width, add_assoc, add_comm] at hb
  conv_rhs => rw [← Nat.div_add_mod' b (2 ^ (f.eb + f.fb))]
  obtain h | h := Nat.le_one_iff_eq_zero_or_eq_one.mp (Nat.lt_succ_iff.mp lt)
  · simp [FFmt.zero, h]
  · simp [FFmt.zero, h]

/-- R88. The bits of a magnitude are those that every mode takes for it, and no bit is lost. -/
theorem FFmt.HasFields.roundedBits_magnitude {f : FFmt} (hf : f.HasFields) (rm : RMode) (neg : Bool) {k m : Nat} (hm : 0 < m)
    {e : Int} (hk : k < f.inf false) (h : magnitude f k = m * 2 ^ e) :
    f.roundedBits rm neg m e = k ∧ (f.onGrid rm neg m e).2 = true := by
  have next := hf.magnitude_lt_succ hk
  obtain ⟨picked, marked⟩ := hf.picks_roundedBits rm neg hm (h ▸ next.trans_le (hf.magnitude_mono hk le_rfl))
  have self : picks f rm neg (m * 2 ^ e) k :=
    picks_iff_neighbour.mpr ⟨k, hk, h.le, h ▸ next, (neighbour_exact h).symm⟩
  obtain rfl := hf.picks_unique picked self
  exact ⟨rfl, marked.trans (decide_eq_true h)⟩

/-- Settles O9: the bits of the magnitude are the ones that rounding takes, exactly. -/
theorem roundingExact : Obligations.RoundingExact := by
  intro f hmem rm ftz b neg m e hb hd
  have hf := FFmt.hasFields_of_mem hmem
  obtain ⟨sign, decoded, hm, below, subnormal⟩ := FFmt.decode_eq_fin hd
  obtain ⟨bits, marked⟩ := hf.roundedBits_magnitude rm neg hm below (magnitude_of_decode below decoded)
  have self := FFmt.zero_add_mod hb
  rw [sign] at self
  rw [hf.round_eq rm ftz neg hm e, bits, marked, if_neg below.not_ge, self]
  simp [subnormal, flagIf]

/-! ### Sums and products of the exact numbers -/

theorem exactly_fin (neg : Bool) (m : Nat) (e : Int) :
    exactly (.fin neg m e) = (if neg then -1 else 1) * (m * 2 ^ e : ℚ) := by
  rw [exactly, pow2_eq_zpow, mul_assoc]

@[simp] theorem exactly_zero (s : Bool) : exactly (.zero s) = 0 := rfl

@[simp] theorem signOf_zero (s : Bool) : signOf (.zero s) = s := rfl

@[simp] theorem signOf_fin (s : Bool) (m : Nat) (e : Int) : signOf (.fin s m e) = s := rfl

@[simp] theorem FVal.negIf_zero (c s : Bool) : (FVal.zero s).negIf c = .zero (s != c) := rfl

@[simp] theorem FVal.negIf_fin (c s : Bool) (m : Nat) (e : Int) : (FVal.fin s m e).negIf c = .fin (s != c) m e := rfl

/-- A sign inverted when asked. -/
theorem exactly_negIf (c : Bool) (v : FVal) : exactly (v.negIf c) = if c then -exactly v else exactly v := by
  cases v with
  | fin neg m e => cases c <;> cases neg <;> simp [exactly_fin]
  | _ => cases c <;> simp [FVal.negIf, exactly]

theorem finite_negIf {v : FVal} (h : finite v) (c : Bool) : finite (v.negIf c) := by
  cases v <;> exact h

theorem signOf_negIf {v : FVal} (h : finite v) (c : Bool) : signOf (v.negIf c) = (signOf v != c) := by
  cases v with
  | zero | fin => rfl
  | inf | nan | nar => exact h.elim

theorem isNaN_of_finite {v : FVal} (h : finite v) : v.isNaN = false := by
  cases v with
  | zero | fin | inf => rfl
  | nan | nar => exact h.elim

/-- The sum of the model is the exact sum. -/
theorem exactly_addDyadic (na nb : Bool) (ma mb : Nat) (ea eb : Int) :
    exactly (.fin (addDyadic na ma ea nb mb eb).1 (addDyadic na ma ea nb mb eb).2.1 (addDyadic na ma ea nb mb eb).2.2) =
      exactly (.fin na ma ea) + exactly (.fin nb mb eb) := by
  rw [exactly_fin na ma, exactly_fin nb mb, ← mul_two_pow_toNat_mul_zpow ma (min_le_left ea eb),
    ← mul_two_pow_toNat_mul_zpow mb (min_le_right ea eb)]
  simp only [addDyadic]
  generalize ma * 2 ^ (ea - min ea eb).toNat = x
  generalize mb * 2 ^ (eb - min ea eb).toNat = y
  by_cases same : na = nb
  · subst same
    simp only [beq_self_eq_true, if_true, exactly_fin]
    push_cast
    ring
  · obtain rfl : nb = !na := Bool.eq_not.mpr (Ne.symm same)
    rw [if_neg (by simp)]
    rcases le_or_gt y x with le | lt
    · cases na <;> simp [le, exactly_fin] <;> ring
    · cases na <;> simp [lt.not_ge, exactly_fin, lt.le] <;> ring

/-- A zero sum of non-zero values is one of values of opposite signs. -/
theorem addDyadic_eq_zero {na nb : Bool} {ma mb : Nat} {ea eb : Int} (ha : 0 < ma)
    (h : (addDyadic na ma ea nb mb eb).2.1 = 0) : na ≠ nb := by
  rintro rfl
  have : 0 < ma * 2 ^ (ea - min ea eb).toNat := Nat.mul_pos ha (Nat.two_pow_pos _)
  simp only [addDyadic, beq_self_eq_true, if_true] at h
  omega

/-- The product of the model is the exact product. -/
theorem exactly_mul (na nb : Bool) (ma mb : Nat) (ea eb : Int) :
    exactly (.fin (na != nb) (ma * mb) (ea + eb)) = exactly (.fin na ma ea) * exactly (.fin nb mb eb) := by
  simp only [exactly_fin, zpow_add₀ (two_ne_zero : (2 : ℚ) ≠ 0)]
  cases na <;> cases nb <;> (push_cast; simp; ring)

/-- R120. The exact product of finite values is a finite value with their product and the product of their signs. -/
theorem exactMul_finite {a b : FVal} (ha : finite a) (hb : finite b) :
    ∃ p, exactMul a b = some p ∧ finite p ∧ exactly p = exactly a * exactly b ∧ signOf p = (signOf a != signOf b) := by
  match a, b, ha, hb with
  | .zero s, .zero t, _, _ | .zero s, .fin t _ _, _, _ | .fin s _ _, .zero t, _, _ =>
    exact ⟨.zero (s != t), rfl, trivial, by simp [exactly], rfl⟩
  | .fin s m e, .fin t m' e', ha, hb => exact ⟨_, rfl, Nat.mul_pos ha hb, exactly_mul s t m m' e e', rfl⟩

/-! What the model's sum answers for each pair of finite values. -/

section
variable (f : FFmt) (rm : RMode) (ftz negB s t : Bool) (m m' : Nat) (e e' : Int)

theorem FFmt.addV_zero_zero :
    f.addV rm ftz negB (.zero s) (.zero t) = (f.zero (sumSign rm s (t != negB)), 0) := by
  have sign : sumSign rm s (t != negB) = if s == (t != negB) then s else zeroSumSign rm := by
    simp [sumSign, zeroSumSign, beq_eq_decide]
  rw [sign]
  rfl

theorem FFmt.addV_zero_fin : f.addV rm ftz negB (.zero s) (.fin t m e) = f.round rm ftz (t != negB) m e false := rfl

theorem FFmt.addV_fin_zero : f.addV rm ftz negB (.fin s m e) (.zero t) = f.round rm ftz s m e false := rfl

theorem FFmt.addV_fin_fin : f.addV rm ftz negB (.fin s m e) (.fin t m' e') =
    if (addDyadic s m e (t != negB) m' e').2.1 = 0 then (f.zero (zeroSumSign rm), 0)
    else f.round rm ftz (addDyadic s m e (t != negB) m' e').1 (addDyadic s m e (t != negB) m' e').2.1
      (addDyadic s m e (t != negB) m' e').2.2 false := rfl

end

/-- R120. A fused multiply-add adds the exact product. -/
theorem FFmt.fmaV_eq_addV {f : FFmt} {rm : RMode} {ftz negP negD : Bool} {a b d p : FVal} (ha : finite a) (hb : finite b)
    (hd : finite d) (h : exactMul a b = some p) : f.fmaV rm ftz negP negD a b d = f.addV rm ftz negD (p.negIf negP) d := by
  simp [FFmt.fmaV, isNaN_of_finite ha, isNaN_of_finite hb, isNaN_of_finite hd, h]

/-- R88. An exact zero takes the sign given. -/
theorem roundsNumber_zero (f : FFmt) (rm : RMode) (ftz zeroNeg : Bool) :
    roundsNumber f rm ftz 0 zeroNeg (f.zero zeroNeg, 0) :=
  ⟨fun _ => rfl, fun h => absurd h (lt_irrefl 0), fun h => absurd h (lt_irrefl 0)⟩

section
variable {f : FFmt} (hf : f.HasFields)
include hf

/-- R88. A finite value that is not zero, rounded once. -/
theorem FFmt.HasFields.roundsNumber_round (rm : RMode) (ftz zeroNeg neg : Bool) {m : Nat} (hm : 0 < m) (e : Int) :
    roundsNumber f rm ftz (exactly (.fin neg m e)) zeroNeg (f.round rm ftz neg m e false) := by
  have pos : (0 : ℚ) < m * pow2 e := by rw [pow2_eq_zpow]; positivity
  have rounded := hf.rounds_round rm ftz neg hm e
  rw [exactly, mul_assoc]
  cases neg with
  | false => exact ⟨fun h => by simp [pos.ne'] at h, fun h => by simp [pos.le.not_gt] at h, fun _ => by simpa using rounded⟩
  | true => exact ⟨fun h => by simp [pos.ne'] at h, fun _ => by simpa using rounded, fun h => by simp [pos.le.not_gt] at h⟩

/-- R120. The sum of finite values is the exact number, rounded once. -/
theorem FFmt.HasFields.addV_rounds (rm : RMode) (ftz negB : Bool) {a b : FVal} (ha : finite a) (hb : finite b) :
    roundsNumber f rm ftz (exactly a + exactly (b.negIf negB)) (sumSign rm (signOf a) (signOf b != negB))
      (f.addV rm ftz negB a b) := by
  match a, b, ha, hb with
  | .zero s, .zero t, _, _ =>
    rw [FFmt.addV_zero_zero, FVal.negIf_zero, exactly_zero, exactly_zero, add_zero]
    exact roundsNumber_zero f rm ftz _
  | .zero s, .fin t m e, _, hm =>
    rw [FFmt.addV_zero_fin, FVal.negIf_fin, exactly_zero, zero_add]
    exact hf.roundsNumber_round rm ftz _ (t != negB) hm e
  | .fin s m e, .zero t, hm, _ =>
    rw [FFmt.addV_fin_zero, FVal.negIf_zero, exactly_zero, add_zero]
    exact hf.roundsNumber_round rm ftz _ s hm e
  | .fin s m e, .fin t m' e', hm, _ =>
    rw [FFmt.addV_fin_fin, FVal.negIf_fin, ← exactly_addDyadic]
    split
    case isTrue zero =>
      have sign : sumSign rm s (t != negB) = zeroSumSign rm := if_neg (addDyadic_eq_zero hm zero)
      rw [zero, exactly_fin, Nat.cast_zero, zero_mul, mul_zero, signOf_fin, signOf_fin, sign]
      exact roundsNumber_zero f rm ftz _
    case isFalse nonzero => exact hf.roundsNumber_round rm ftz _ _ (Nat.pos_of_ne_zero nonzero) _

/-- R120. The product of finite values is the exact number, rounded once. -/
theorem FFmt.HasFields.mulV_rounds (rm : RMode) (ftz : Bool) {a b : FVal} (ha : finite a) (hb : finite b) :
    roundsNumber f rm ftz (exactly a * exactly b) (signOf a != signOf b) (f.mulV rm ftz a b) := by
  match a, b, ha, hb with
  | .zero s, .zero t, _, _ | .zero s, .fin t _ _, _, _ =>
    rw [exactly_zero, zero_mul]
    exact roundsNumber_zero f rm ftz (s != t)
  | .fin s _ _, .zero t, _, _ =>
    rw [exactly_zero, mul_zero]
    exact roundsNumber_zero f rm ftz (s != t)
  | .fin s m e, .fin t m' e', hm, hm' =>
    rw [← exactly_mul]
    exact hf.roundsNumber_round rm ftz _ (s != t) (Nat.mul_pos hm hm') (e + e')

/-- R120. The fused multiply-add of finite values is the exact number, rounded once. -/
theorem FFmt.HasFields.fmaV_rounds (rm : RMode) (ftz negP negD : Bool) {a b d : FVal} (ha : finite a) (hb : finite b)
    (hd : finite d) :
    roundsNumber f rm ftz ((if negP then -(exactly a * exactly b) else exactly a * exactly b) + exactly (d.negIf negD))
      (sumSign rm ((signOf a != signOf b) != negP) (signOf d != negD)) (f.fmaV rm ftz negP negD a b d) := by
  obtain ⟨p, product, hp, number, sign⟩ := exactMul_finite ha hb
  rw [FFmt.fmaV_eq_addV ha hb hd product, ← number, ← sign, ← exactly_negIf, ← signOf_negIf hp]
  exact hf.addV_rounds rm ftz negD (finite_negIf hp negP) hd

end

/-- Adding a value with its sign inverted subtracts it. -/
theorem add_exactly_negIf (x : Rat) (c : Bool) (v : FVal) :
    x + exactly (v.negIf c) = if c then x - exactly v else x + exactly v := by
  rw [exactly_negIf]
  cases c with
  | false => rfl
  | true => exact (sub_eq_add_neg x _).symm

/-- Settles O10: each operation on finite values is the exact number, and a non-zero one goes to the neighbour that the mode
names on the grid of its field. -/
theorem rounding : Obligations.Rounding := by
  intro f hmem rm ftz
  have hf := FFmt.hasFields_of_mem hmem
  refine ⟨fun neg m e hm => hf.rounds_round rm ftz neg hm e, fun a b ha hb => ?_⟩
  dsimp only
  simp only [← add_exactly_negIf]
  exact ⟨fun neg => hf.addV_rounds rm ftz neg ha hb, hf.mulV_rounds rm ftz ha hb,
    fun d hd negP negD => hf.fmaV_rounds rm ftz negP negD ha hb hd⟩

end Sys2Proof.Machine

end

section
/-! SUPPORT. The proofs of the statements about the integer, bit and floating instructions, the conversions, the late functions,
the compares and the predicate instructions (R110 to R134). -/

set_option Elab.async false

/-! Numbers by their bits, and the integers that bits stand for (R8, R91, R111, R116, R117). -/

namespace Sys2Proof.Machine

open Sys2Proof.Spec

/-! ### Numbers that are given by their bits -/

theorem ofBits_eq_sum (l : List Nat) : ofBits l = (l.map (2 ^ ·)).sum := by
  rw [ofBits, List.sum_eq_foldl, List.foldl_map]

/-- The set bits of the number that a list of distinct places gives are those places. -/
theorem testBit_ofBits {l : List Nat} (h : l.Nodup) (i : Nat) : (ofBits l).testBit i = decide (i ∈ l) := by
  rw [ofBits_eq_sum, ← List.sum_toFinset _ h, Bool.eq_iff_iff, decide_eq_true_iff, ← Nat.mem_bitIndices,
    ← List.mem_toFinset, Finset.toFinset_bitIndices_sum_two_pow, List.mem_toFinset]

theorem bitsWhere_eq_ofBits (n : Nat) (p : Nat → Bool) : bitsWhere n p = ofBits ((List.range n).filter p) := by
  rw [ofBits_eq_sum, bitsWhere]
  induction List.range n with
  | nil => rfl
  | cons i r ih => cases h : p i <;> simp [h, ih]

theorem testBit_bitsWhere (n : Nat) (p : Nat → Bool) (i : Nat) : (bitsWhere n p).testBit i = (decide (i < n) && p i) := by
  rw [bitsWhere_eq_ofBits, testBit_ofBits (List.nodup_range.filter _)]
  simp

/-- Two numbers with the same bits below n are the same in n bits. -/
theorem mod_two_pow_congr {n x y : Nat} (h : ∀ i, i < n → x.testBit i = y.testBit i) : x % 2 ^ n = y % 2 ^ n := by
  apply Nat.eq_of_testBit_eq
  intro i
  rw [Nat.testBit_mod_two_pow, Nat.testBit_mod_two_pow]
  by_cases hi : i < n
  · rw [h i hi]
  · simp [hi]

/-- A number that has the bits of a predicate below n is the number of that predicate in n bits. -/
theorem mod_eq_bitsWhere {n x : Nat} {p : Nat → Bool} (h : ∀ i, i < n → x.testBit i = p i) :
    x % 2 ^ n = bitsWhere n p % 2 ^ n :=
  mod_two_pow_congr fun i hi => by rw [h i hi, testBit_bitsWhere, decide_eq_true hi, Bool.true_and]

theorem setBits_nodup (n x : Nat) : (setBits n x).Nodup := List.nodup_range.filter _

theorem mem_setBits {n x i : Nat} : i ∈ setBits n x ↔ i < n ∧ x.testBit i = true := by simp [setBits]

theorem testBit_notBits (n x i : Nat) : (notBits n x).testBit i = (decide (i < n) && !x.testBit i) := by
  rw [notBits, Nat.sub_sub, Nat.add_comm 1, Nat.testBit_two_pow_sub_succ (Nat.mod_lt _ (Nat.two_pow_pos n)),
    Nat.testBit_mod_two_pow]
  by_cases hi : i < n <;> simp [hi]

/-- R117. The bits of a rotation to the left by k, of a number of n bits. -/
theorem testBit_rotBits {n x k i : Nat} (hx : x < 2 ^ n) (hk : k < n) (hi : i < n) :
    (rotBits n x k).testBit i = x.testBit ((i + (n - k)) % n) := by
  have low : x / 2 ^ (n - k) < 2 ^ k := by
    rw [Nat.div_lt_iff_lt_mul (Nat.two_pow_pos _), ← pow_add]
    simpa [Nat.add_sub_cancel' hk.le] using hx
  rw [rotBits, Nat.testBit_mod_two_pow, decide_eq_true hi, Bool.true_and, Nat.mul_comm, Nat.testBit_two_pow_mul_add _ low]
  by_cases h : i < k
  · rw [if_pos h, Nat.testBit_div_two_pow, Nat.mod_eq_of_lt (by omega)]
  · have turned : i + (n - k) = (i - k) + n := by omega
    rw [if_neg h, turned, Nat.add_mod_right, Nat.mod_eq_of_lt (by omega)]

/-! ### Counting the bits of a number -/

/-- R116. The zeros above the highest set bit of a number of n bits. -/
theorem leadingZeros_eq (n : Nat) : ∀ x, x < 2 ^ n →
    ((List.range n).reverse.takeWhile (fun i => !x.testBit i)).length = if x = 0 then n else n - 1 - Nat.log2 x := by
  induction n with
  | zero => intro x _; simp
  | succ n ih =>
    intro x hx
    rw [List.range_succ, List.reverse_append, List.reverse_singleton, List.singleton_append, List.takeWhile_cons]
    by_cases high : 2 ^ n ≤ x
    · have top : x.log2 = n := (Nat.log2_eq_iff (by have := Nat.two_pow_pos n; omega)).2 ⟨high, hx⟩
      have set : x.testBit n = true := Nat.testBit_of_two_pow_le_and_two_pow_add_one_gt high hx
      have pos : x ≠ 0 := by have := Nat.two_pow_pos n; omega
      simp [set, top, pos]
    · have clear : x.testBit n = false := Nat.testBit_lt_two_pow (by omega)
      rw [clear, Bool.not_false, if_pos rfl, List.length_cons, ih x (by omega)]
      by_cases h0 : x = 0
      · simp [h0]
      · have := (Nat.log2_lt h0).2 (by omega : x < 2 ^ n)
        rw [if_neg h0, if_neg h0]
        omega

/-- The first place of a range that satisfies a predicate is as many places in as fail it before. -/
theorem head_filter_range' (p : Nat → Bool) (n : Nat) : ∀ s,
    ((List.range' s n).filter p).head?.getD (s + n) = s + ((List.range' s n).takeWhile (fun i => !p i)).length := by
  induction n with
  | zero => intro s; rfl
  | succ n ih =>
    intro s
    rw [List.range'_succ]
    cases h : p s with
    | true => simp [h]
    | false =>
      simp only [List.filter_cons, List.takeWhile_cons, h, Bool.false_eq_true, if_false, Bool.not_false, if_true,
        List.length_cons]
      have := ih (s + 1)
      rw [show s + 1 + n = s + (n + 1) by omega] at this
      omega

/-- R116. The zeros below the lowest set bit. -/
theorem trailingZeros_eq (n x : Nat) :
    (setBits n x).head?.getD n = ((List.range n).takeWhile (fun i => !x.testBit i)).length := by
  have := head_filter_range' x.testBit n 0
  rwa [← List.range_eq_range', Nat.zero_add, Nat.zero_add] at this

/-! ### The integers of a type -/

/-- Two's complement, as bit vectors read it. -/
theorem toSigned_eq_toInt (n b : Nat) : toSigned n b = (BitVec.ofNat n b).toInt := by
  rw [toSigned, BitVec.toInt, BitVec.toNat_ofNat]
  cases n with
  | zero => simp
  | succ n =>
    rw [Nat.add_sub_cancel, pow_succ]
    by_cases h : b % (2 ^ n * 2) < 2 ^ n
    · rw [if_pos h, if_pos (by omega)]
    · rw [if_neg h, if_neg (by omega)]

theorem toSigned_eq_bmod (n b : Nat) : toSigned n b = (b : Int).bmod (2 ^ n) := by
  rw [toSigned_eq_toInt, BitVec.toInt_ofNat']

theorem wrapInt_eq_toNat (n : Nat) (x : Int) : wrapInt n x = (BitVec.ofInt n x).toNat := (BitVec.toNat_ofInt x).symm

theorem wrapInt_lt (n : Nat) (x : Int) : wrapInt n x < 2 ^ n := by
  rw [wrapInt_eq_toNat]
  exact (BitVec.ofInt n x).isLt

theorem natCast_wrapInt (n : Nat) (x : Int) : (wrapInt n x : Int) = x % 2 ^ n := by
  have pos : (0 : Int) < ((2 ^ n : Nat) : Int) := by exact_mod_cast Nat.two_pow_pos n
  rw [wrapInt, Int.toNat_of_nonneg (Int.emod_nonneg _ pos.ne'), Nat.cast_pow, Nat.cast_ofNat]

/-- The bits of a number of w bits whose sign fills the bits above them, up to n. -/
theorem testBit_wrapInt_toSigned {n w b i : Nat} (hw : 0 < w) (hi : i < n) :
    (wrapInt n (toSigned w b)).testBit i = b.testBit (if i < w then i else w - 1) := by
  rw [wrapInt_eq_toNat, toSigned_eq_toInt, BitVec.testBit_toNat]
  show ((BitVec.ofNat w b).signExtend n).getLsbD i = _
  rw [BitVec.getLsbD_signExtend, decide_eq_true hi, Bool.true_and, BitVec.msb_eq_getLsbD_last, BitVec.getLsbD_ofNat,
    BitVec.getLsbD_ofNat]
  by_cases h : i < w
  · simp [h]
  · simp [h, hw]

theorem EType.bits_pos (t : EType) : 0 < t.bits := by cases t <;> decide

/-- R8, R111. What the bits of an integer modulo 2^n stand for. -/
theorem EType.intVal_wrapInt (t : EType) (x : Int) :
    t.intVal (wrapInt t.bits x) = if t.signed then x.bmod (2 ^ t.bits) else x % 2 ^ t.bits := by
  rw [EType.intVal, Nat.mod_eq_of_lt (wrapInt_lt _ _), toSigned_eq_bmod, natCast_wrapInt]
  have := Int.emod_bmod x (2 ^ t.bits)
  push_cast at this
  rw [this]

theorem two_pow_bits (t : EType) : 2 ^ t.bits = 2 * 2 ^ (t.bits - 1) := by
  rw [← pow_succ', Nat.sub_add_cancel t.bits_pos]

/-- R91. The bits of an integer in the type's range stand for it. -/
theorem EType.intVal_wrapInt_of_mem {t : EType} {x : Int} (lo : t.minInt ≤ x) (hi : x ≤ t.maxInt) :
    t.intVal (wrapInt t.bits x) = x := by
  have bits := two_pow_bits t
  rw [EType.intVal_wrapInt]
  unfold EType.minInt at lo
  unfold EType.maxInt at hi
  cases hs : t.signed with
  | true =>
    rw [hs, if_pos rfl] at lo hi
    rw [if_pos rfl]
    exact Int.bmod_eq_of_le (by omega) (by omega)
  | false =>
    rw [hs, if_neg Bool.false_ne_true] at lo hi
    rw [if_neg Bool.false_ne_true]
    exact Int.emod_eq_of_lt lo (by push_cast at hi; omega)

theorem EType.minInt_le_maxInt (t : EType) : t.minInt ≤ t.maxInt := by
  have pos : 0 < 2 ^ (t.bits - 1) := Nat.two_pow_pos _
  have bits := two_pow_bits t
  unfold EType.minInt EType.maxInt
  split <;> omega

/-- R8. A clamped integer in n bits, with the flag that says so. -/
theorem clamped_eq (n : Nat) {lo hi : Int} (h : lo ≤ hi) (x : Int) :
    (if x < lo then (wrapInt n lo, fSATD) else if hi < x then (wrapInt n hi, fSATD) else (wrapInt n x, 0)) =
      (wrapInt n (max lo (min hi x)), if x < lo ∨ hi < x then fSATD else 0) := by
  by_cases below : x < lo
  · rw [if_pos below, if_pos (.inl below), min_eq_right (by omega), max_eq_left below.le]
  by_cases above : hi < x
  · rw [if_neg below, if_pos above, if_pos (.inr above), min_eq_left above.le, max_eq_right h]
  · rw [if_neg below, if_neg above, if_neg (by tauto), min_eq_right (by omega), max_eq_right (by omega)]

/-- R8, R111. WriteInt with SAT writes the clamped integer. -/
theorem writeInt_sat (t : EType) (x : Int) : writeInt true t x =
    (wrapInt t.bits (max t.minInt (min t.maxInt x)), if x < t.minInt ∨ t.maxInt < x then fSATD else 0) :=
  clamped_eq t.bits t.minInt_le_maxInt x

theorem writeInt_wrap (t : EType) (x : Int) : writeInt false t x = (wrapInt t.bits x, 0) := rfl

/-- Settles O2: with SAT a clamped integer is written, which its bits stand for, and without the bits stand for the integer
modulo 2^n. -/
theorem writeInt_clampsOrWraps : Obligations.WriteInt := by
  intro t _ x
  have clamped := t.minInt_le_maxInt
  rw [writeInt_sat, writeInt_wrap]
  exact ⟨wrapInt_lt _ _, wrapInt_lt _ _, rfl, t.intVal_wrapInt x,
    EType.intVal_wrapInt_of_mem (le_max_left _ _) (max_le clamped (min_le_left _ _)), rfl⟩

end Sys2Proof.Machine

/-! The integer and bit instructions (R112, R114, R116 to R119). -/

namespace Sys2Proof.Machine

open Sys2Proof.Spec

/-! ### The types that the families of instructions take -/

theorem among_ints (t : EType) : among ints t = t.isInt := by cases t <;> rfl
theorem among_words (t : EType) : among words t = t.isW := by cases t <;> rfl
theorem among_allInts (t : EType) : among allInts t = t.isAll := by cases t <;> rfl
theorem among_b32_words (t : EType) : among (.b32 :: words) t = t.isWord := by cases t <;> rfl

@[simp] theorem noFlag_fst (x : Nat) : (noFlag x).1 = x := rfl

/-! ### Integer arithmetic (R111, R112, R114) -/

/-- R112. An instruction that writes an exact integer of two slots, from its meaning. -/
theorem slotwise2_of_intOp2 {mk : Operand → Operand → Operand → Instr} {f f' : Int → Int → Int}
    (h : ∀ d a b s, exec (mk d a b) s = s.onClause (fun c => c.intOp2 d a b f')) (hf : ∀ x y, f' x y = f x y) :
    slotwise2 (among ints) mk (onInts f) :=
  slotwise2_of_alu h among_ints fun c x y _ _ _ => by rw [hf]; exact ⟨rfl, rfl⟩

/-- R112. An instruction that writes an exact integer of one slot, from its meaning. -/
theorem slotwise1_of_intOp1 {mk : Operand → Operand → Instr} {f f' : Int → Int}
    (h : ∀ d a s, exec (mk d a) s = s.onClause (fun c => c.intOp1 d a f')) (hf : ∀ x, f' x = f x) :
    slotwise1 (among ints) mk (fun c x => writeInt c.sat c.ty (f (c.ty.intVal x))) :=
  slotwise1_of_alu h among_ints fun c x _ _ => by rw [hf]; exact ⟨rfl, rfl⟩

theorem ediv_two_pow_eq_fdiv (x : Int) (n : Nat) : x / ((2 ^ n : Nat) : Int) = x.fdiv (2 ^ n) := by
  rw [Int.fdiv_eq_ediv_of_nonneg _ (by positivity), Nat.cast_pow, Nat.cast_ofNat]

/-- Settles O1: each instruction is one exact integer of its slots, and `mulh` the floor of the product by 2^n. -/
theorem integerArithmetic : Obligations.IntegerArithmetic := by
  refine ⟨?add, ?sub, ?mul, ?min, ?max, ?csub, ?abs, ?neg, ?mad, ?mulh⟩
  case add => exact slotwise2_of_intOp2 (fun _ _ _ _ => rfl) fun _ _ => rfl
  case sub => exact slotwise2_of_intOp2 (fun _ _ _ _ => rfl) fun _ _ => rfl
  case mul => exact slotwise2_of_intOp2 (fun _ _ _ _ => rfl) fun _ _ => rfl
  case min => exact slotwise2_of_intOp2 (fun _ _ _ _ => rfl) fun x y => (min_def_lt' x y).symm
  case max => exact slotwise2_of_intOp2 (fun _ _ _ _ => rfl) fun x y => (max_def_lt x y).symm
  case csub => exact slotwise2_of_intOp2 (fun _ _ _ _ => rfl) fun _ _ => rfl
  case abs =>
    refine slotwise1_of_intOp1 (f := fun x => max x (-x)) (fun _ _ _ => rfl) fun x => ?_
    split <;> omega
  case neg => exact slotwise1_of_intOp1 (f := fun x => -x) (fun _ _ _ => rfl) fun _ => rfl
  case mad => exact slotwise3_of_alu (fun _ _ _ _ => rfl) among_ints fun _ _ _ _ _ _ _ _ => ⟨rfl, rfl⟩
  case mulh =>
    refine slotwise2_of_alu (fun _ _ _ _ => rfl) among_words fun c x y _ _ _ => ?_
    rw [← ediv_two_pow_eq_fdiv]
    exact ⟨rfl, rfl⟩

/-! ### Bits (R116 to R119) -/

/-- R116. A bitwise instruction of two sources, from its meaning: what it does in n bits. -/
theorem slotwise2_of_bitOp2 {mk : Operand → Operand → Operand → Instr} {f f' : Issue → Nat → Nat → Nat}
    (h : ∀ d a b s, exec (mk d a b) s = s.onClause (fun c => c.bitOp2 d a b (f' c)))
    (hf : ∀ c x y, x < 2 ^ c.ty.bits → f' c x y % 2 ^ c.ty.bits = f c x y % 2 ^ c.ty.bits) :
    slotwise2 (among allInts) mk (fun c x y => (f c x y, 0)) :=
  slotwise2_of_alu h among_allInts fun c x y _ hx _ => ⟨hf c x y hx, rfl⟩

/-- R116. A bitwise instruction of one source, from its meaning: what it does in n bits. -/
theorem slotwise1_of_bitOp1 {mk : Operand → Operand → Instr} {f f' : Issue → Nat → Nat}
    (h : ∀ d a s, exec (mk d a) s = s.onClause (fun c => c.bitOp1 d a (f' c)))
    (hf : ∀ c x, x < 2 ^ c.ty.bits → f' c x % 2 ^ c.ty.bits = f c x % 2 ^ c.ty.bits) :
    slotwise1 (among allInts) mk (fun c x => (f c x, 0)) :=
  slotwise1_of_alu h among_allInts fun c x _ hx => ⟨hf c x hx, rfl⟩

/-- R116. The places of the set bits of an n-bit number, each counted from the other end, are distinct. -/
theorem setBits_reversed_nodup (n x : Nat) : ((setBits n x).map (fun i => n - 1 - i)).Nodup :=
  (setBits_nodup n x).map_on fun i hi j hj h => by
    have := (mem_setBits.1 hi).1
    have := (mem_setBits.1 hj).1
    omega

/-- R116. `brev`. -/
theorem testBit_brev {n x i : Nat} (hi : i < n) :
    (ofBits ((setBits n x).map (fun i => n - 1 - i))).testBit i = x.testBit (n - 1 - i) := by
  rw [testBit_ofBits (setBits_reversed_nodup n x), Bool.eq_iff_iff, decide_eq_true_iff, List.mem_map]
  constructor
  · rintro ⟨j, hj, rfl⟩
    obtain ⟨lt, set⟩ := mem_setBits.1 hj
    rwa [show n - 1 - (n - 1 - j) = j by omega]
  · exact fun set => ⟨n - 1 - i, mem_setBits.2 ⟨by omega, set⟩, by omega⟩

/-- Settles O4: each instruction has the named bits, and the counts are those of the places of its bits. -/
theorem bitwise : Obligations.Bitwise := by
  refine ⟨?and, ?or, ?xor, ?andn, ?not, ?brev, ?clz, ?ctz, ?popc⟩
  case and => exact slotwise2_of_bitOp2 (fun _ _ _ _ => rfl) fun _ x y _ => mod_eq_bitsWhere fun i _ => Nat.testBit_and x y i
  case or => exact slotwise2_of_bitOp2 (fun _ _ _ _ => rfl) fun _ x y _ => mod_eq_bitsWhere fun i _ => Nat.testBit_or x y i
  case xor => exact slotwise2_of_bitOp2 (fun _ _ _ _ => rfl) fun _ x y _ => mod_eq_bitsWhere fun i _ => Nat.testBit_xor x y i
  case andn =>
    refine slotwise2_of_bitOp2 (fun _ _ _ _ => rfl) fun c x y _ => mod_eq_bitsWhere fun i hi => ?_
    rw [Nat.testBit_and, testBit_notBits, decide_eq_true hi, Bool.true_and]
  case not =>
    refine slotwise1_of_bitOp1 (fun _ _ _ => rfl) fun c x _ => mod_eq_bitsWhere fun i hi => ?_
    rw [testBit_notBits, decide_eq_true hi, Bool.true_and]
  case brev => exact slotwise1_of_bitOp1 (fun _ _ _ => rfl) fun _ _ _ => mod_eq_bitsWhere fun _ hi => testBit_brev hi
  case clz => exact slotwise1_of_bitOp1 (fun _ _ _ => rfl) fun _ x hx => by rw [leadingZeros_eq _ x hx]
  case ctz => exact slotwise1_of_bitOp1 (fun _ _ _ => rfl) fun _ x _ => by rw [trailingZeros_eq]
  case popc => exact slotwise1_of_bitOp1 (fun _ _ _ => rfl) fun _ x _ => by rw [List.countP_eq_length_filter, setBits]

/-! ### Shifts (R117) -/

/-- R117. A number of n bits divided by 2^n or more is zero. -/
theorem div_two_pow_min {n x : Nat} (hx : x < 2 ^ n) (y : Nat) : x / 2 ^ Nat.min y n = x / 2 ^ y := by
  rcases Nat.le_total y n with h | h
  · rw [show Nat.min y n = y from Nat.min_eq_left h]
  · rw [show Nat.min y n = n from Nat.min_eq_right h, Nat.div_eq_of_lt hx,
      Nat.div_eq_of_lt (hx.trans_le (Nat.pow_le_pow_right (by omega) h))]

/-- R117. An integer of n bits shifted right by n or more leaves its sign alone. -/
theorem ediv_two_pow_min {n : Nat} {x : Int} (lo : -2 ^ n ≤ x) (hi : x < 2 ^ n) (y : Nat) :
    x / ((2 ^ Nat.min y n : Nat) : Int) = x.fdiv (2 ^ y) := by
  rw [← ediv_two_pow_eq_fdiv]
  rcases Nat.le_total y n with h | h
  · rw [show Nat.min y n = y from Nat.min_eq_left h]
  have grows : (2 : Int) ^ n ≤ 2 ^ y := pow_le_pow_right₀ (by norm_num) h
  have same (k : Nat) (hk : (2 : Int) ^ n ≤ 2 ^ k) : x / ((2 ^ k : Nat) : Int) = if x < 0 then -1 else 0 := by
    push_cast
    split
    · rw [Int.ediv_eq_iff_of_pos (by positivity)]; omega
    · exact Int.ediv_eq_zero_of_lt (by omega) (by omega)
  rw [show Nat.min y n = n from Nat.min_eq_right h, same n le_rfl, same y grows]

theorem toSigned_mem (n b : Nat) : -2 ^ n ≤ toSigned n b ∧ toSigned n b < 2 ^ n := by
  have := Nat.mod_lt b (Nat.two_pow_pos n)
  have pos : (0 : Int) < 2 ^ n := by positivity
  unfold toSigned
  split <;> push_cast <;> omega

/-- R8, R111, R117. What WriteInt makes of an integer shifted left by the width of the type or more: zero, or with SAT the end of
the range on its side. -/
theorem writeInt_shifted_out (sat : Bool) (t : EType) (v : Int) {k : Nat} (h : t.bits ≤ k) :
    writeInt sat t (v * 2 ^ k) =
      if sat = false ∨ v = 0 then (0, 0) else (wrapInt t.bits (if v < 0 then t.minInt else t.maxInt), fSATD) := by
  have grows : (2 : Int) ^ t.bits ≤ 2 ^ k := pow_le_pow_right₀ (by norm_num) h
  have zero : wrapInt t.bits (v * 2 ^ k) = 0 := by
    rw [wrapInt, Int.emod_eq_zero_of_dvd (Dvd.dvd.mul_left (by exact_mod_cast Nat.pow_dvd_pow 2 h) v), Int.toNat_zero]
  have range : -(2 : Int) ^ t.bits < t.minInt ∧ t.minInt ≤ 0 ∧ 0 ≤ t.maxInt ∧ t.maxInt < (2 : Int) ^ t.bits := by
    have bits : (2 : Int) ^ t.bits = 2 * 2 ^ (t.bits - 1) := by exact_mod_cast two_pow_bits t
    have pos : (0 : Int) < 2 ^ (t.bits - 1) := by positivity
    unfold EType.minInt EType.maxInt
    push_cast
    split <;> omega
  obtain ⟨least, neg, nonneg, greatest⟩ := range
  unfold writeInt
  cases sat with
  | false => simp [zero]
  | true =>
    rcases lt_trichotomy v 0 with hv | rfl | hv
    · have : v * 2 ^ k < t.minInt := by nlinarith
      simp [hv, hv.ne, this]
    · simp [neg.not_gt, nonneg.not_gt, wrapInt]
    · have : t.maxInt < v * 2 ^ k := by nlinarith
      simp [hv.ne', hv.not_gt, this, (neg.trans (nonneg.trans this.le)).not_gt]

/-- R117. Shifting left by more than twice the width of the type is shifting by that much. -/
theorem writeInt_shift_min (sat : Bool) (t : EType) (v : Int) (y : Nat) :
    writeInt sat t (v * ((2 ^ Nat.min y (2 * t.bits) : Nat) : Int)) = writeInt sat t (v * 2 ^ y) := by
  rw [Nat.cast_pow, Nat.cast_ofNat]
  rcases Nat.le_total y (2 * t.bits) with h | h
  · rw [show Nat.min y (2 * t.bits) = y from Nat.min_eq_left h]
  · rw [show Nat.min y (2 * t.bits) = 2 * t.bits from Nat.min_eq_right h, writeInt_shifted_out sat t v (by omega),
      writeInt_shifted_out sat t v (by omega)]

/-- R117. Turning right by y is turning left by what is left of the width. -/
theorem turn_right_place {n y i : Nat} (hn : 0 < n) (hi : i < n) : (i + (n - (n - y % n) % n)) % n = (i + y) % n := by
  have lt := Nat.mod_lt y hn
  rw [Nat.add_mod i y n, Nat.mod_eq_of_lt hi]
  by_cases h : y % n = 0
  · rw [h, Nat.sub_zero, Nat.mod_self, Nat.sub_zero, Nat.add_mod_right, Nat.add_zero]
  · rw [Nat.mod_eq_of_lt (by omega : n - y % n < n), Nat.sub_sub_self lt.le]

/-- Settles O5: the bounds that the model sets on a count change no result, and a rotation moves each bit around. -/
theorem shifts : Obligations.Shifts := by
  refine ⟨?shl, ?shr, ?sra, ?rotl, ?rotr⟩
  case shl =>
    refine slotwise2_of_alu (fun _ _ _ _ => rfl) among_allInts fun c x y _ _ _ => ?_
    rw [writeInt_shift_min]
    exact ⟨rfl, rfl⟩
  case shr => exact slotwise2_of_bitOp2 (fun _ _ _ _ => rfl) fun _ _ y hx => by rw [div_two_pow_min hx]
  case sra =>
    refine slotwise2_of_bitOp2 (fun _ _ _ _ => rfl) fun c x y _ => ?_
    obtain ⟨lo, hi⟩ := toSigned_mem c.ty.bits x
    rw [ediv_two_pow_min lo hi]
  case rotl =>
    refine slotwise2_of_bitOp2 (fun _ _ _ _ => rfl) fun c x y hx => mod_eq_bitsWhere fun i hi => ?_
    exact testBit_rotBits hx (Nat.mod_lt _ c.ty.bits_pos) hi
  case rotr =>
    refine slotwise2_of_bitOp2 (fun _ _ _ _ => rfl) fun c x y hx => mod_eq_bitsWhere fun i hi => ?_
    rw [testBit_rotBits hx (Nat.mod_lt _ c.ty.bits_pos) hi, turn_right_place c.ty.bits_pos hi]

/-! ### Bit fields and interleaves (R118, R119) -/

/-- R118. The bits of a field of a number. -/
theorem testBit_field (x o w i : Nat) : (x / 2 ^ o % 2 ^ w).testBit i = (decide (i < w) && x.testBit (o + i)) := by
  rw [Nat.testBit_mod_two_pow, Nat.testBit_div_two_pow, Nat.add_comm]

/-- R118. The bits of a number in which a field holds another value. -/
theorem testBit_setField (z x o w i : Nat) :
    (z - z / 2 ^ o % 2 ^ w * 2 ^ o + x % 2 ^ w * 2 ^ o).testBit i =
      if o ≤ i ∧ i < o + w then x.testBit (i - o) else z.testBit i := by
  have low : z % 2 ^ o < 2 ^ o := Nat.mod_lt _ (Nat.two_pow_pos o)
  have parts : z = 2 ^ o * (2 ^ w * (z / 2 ^ o / 2 ^ w) + z / 2 ^ o % 2 ^ w) + z % 2 ^ o := by
    rw [Nat.div_add_mod, Nat.div_add_mod]
  have e : z - z / 2 ^ o % 2 ^ w * 2 ^ o + x % 2 ^ w * 2 ^ o =
      2 ^ o * (2 ^ w * (z / 2 ^ o / 2 ^ w) + x % 2 ^ w) + z % 2 ^ o := by
    nth_rewrite 1 [parts]
    rw [Nat.mul_add, Nat.mul_add, Nat.mul_comm (z / 2 ^ o % 2 ^ w), Nat.mul_comm (x % 2 ^ w)]
    omega
  rw [e, Nat.testBit_two_pow_mul_add _ low, Nat.testBit_two_pow_mul_add _ (Nat.mod_lt _ (Nat.two_pow_pos w)),
    Nat.testBit_mod_two_pow, Nat.testBit_mod_two_pow, Nat.testBit_div_two_pow, Nat.testBit_div_two_pow]
  by_cases below : i < o
  · simp [below, below.not_ge]
  by_cases inside : i - o < w
  · have within : o ≤ i ∧ i < o + w := by omega
    simp [below, inside, within]
  · have above : ¬ (o ≤ i ∧ i < o + w) := by omega
    rw [if_neg below, if_neg inside, if_neg above, show i - o - w + w + o = i by omega]

/-- R118. The bits of a field that `bfe` takes, with the field's sign above it where the type is signed. -/
theorem testBit_bfe (signed : Bool) {n x o w i : Nat} (hi : i < n) :
    (if w = 0 then 0 else if signed then wrapInt n (toSigned w (x / 2 ^ o % 2 ^ w)) else x / 2 ^ o % 2 ^ w).testBit i =
      if i < w then x.testBit (o + i) else decide (0 < w) && signed && x.testBit (o + w - 1) := by
  by_cases empty : w = 0
  · simp [empty]
  have pos : 0 < w := Nat.pos_of_ne_zero empty
  cases signed with
  | false =>
    rw [if_neg empty, if_neg Bool.false_ne_true, testBit_field]
    by_cases h : i < w <;> simp [h]
  | true =>
    rw [if_neg empty, if_pos rfl, testBit_wrapInt_toSigned pos hi, testBit_field, Nat.add_sub_assoc (Nat.one_le_of_lt pos)]
    by_cases h : i < w <;> simp [h, pos]

/-- R118. The bits of the mask that `bmsk` makes. -/
theorem testBit_bmsk {n o w i : Nat} (hi : i < n) :
    (if o < n then (2 ^ fieldWidth n o w - 1) * 2 ^ o else 0).testBit i = decide (o ≤ i ∧ i < o + effWidth n o w) := by
  split
  · rw [Nat.testBit_mul_two_pow, Nat.testBit_two_pow_sub_one, ← Bool.decide_and,
      show fieldWidth n o w = effWidth n o w from rfl]
    exact decide_eq_decide.2 (by omega)
  · rw [Nat.zero_testBit, decide_eq_false (by omega)]

/-- R119. The bits of two numbers in turn, the first in the even places. -/
theorem testBit_interleave (n x y i : Nat) :
    (ofBits ((setBits n x).map (fun i => 2 * i) ++ (setBits n y).map (fun i => 2 * i + 1))).testBit i =
      (decide (i / 2 < n) && if i % 2 = 0 then x.testBit (i / 2) else y.testBit (i / 2)) := by
  have distinct : ((setBits n x).map (fun i => 2 * i) ++ (setBits n y).map (fun i => 2 * i + 1)).Nodup := by
    refine List.Nodup.append ((setBits_nodup n x).map fun i j h => by omega) ((setBits_nodup n y).map fun i j h => by omega) ?_
    intro a ha hb
    obtain ⟨j, -, rfl⟩ := List.mem_map.1 ha
    obtain ⟨k, -, h⟩ := List.mem_map.1 hb
    omega
  rw [testBit_ofBits distinct, Bool.eq_iff_iff, decide_eq_true_iff, List.mem_append, List.mem_map, List.mem_map]
  simp only [mem_setBits]
  obtain ⟨k, rfl | rfl⟩ := Nat.even_or_odd' i
  · have odd (a : Nat) : 2 * a + 1 ≠ 2 * k := by omega
    simp [odd]
  · have even (a : Nat) : 2 * a ≠ 2 * k + 1 := by omega
    have half : (2 * k + 1) / 2 = k := by omega
    simp [even, half, Nat.add_mod]

/-- R119. The bits of a number, three places apart. -/
theorem testBit_spread (n x i : Nat) :
    (ofBits ((setBits n x).map (fun i => 3 * i))).testBit i = (decide (i % 3 = 0 ∧ i / 3 < n) && x.testBit (i / 3)) := by
  rw [testBit_ofBits ((setBits_nodup n x).map fun i j h => by omega), Bool.eq_iff_iff, decide_eq_true_iff, List.mem_map]
  simp only [mem_setBits, Bool.and_eq_true, decide_eq_true_iff]
  constructor
  · rintro ⟨a, ⟨lt, set⟩, rfl⟩
    rw [Nat.mul_mod_right, Nat.mul_div_cancel_left a (by omega)]
    exact ⟨⟨rfl, lt⟩, set⟩
  · rintro ⟨⟨third, lt⟩, set⟩
    exact ⟨i / 3, ⟨lt, set⟩, by omega⟩

/-- R119. Every third bit of a number. -/
theorem testBit_gather (n x i : Nat) :
    (ofBits ((List.range n).filter (fun i => x.testBit (3 * i)))).testBit i = (decide (i < n) && x.testBit (3 * i)) := by
  rw [← bitsWhere_eq_ofBits, testBit_bitsWhere]

theorem EType.bits_even (t : EType) : t.bits % 2 = 0 := by cases t <;> decide

/-- Settles O6: each instruction has the named bits. -/
theorem bitFields : Obligations.BitFields := by
  refine ⟨?bfe, ?bfi, ?bmsk, ?bzi, ?bsp3, ?bcp3⟩
  case bfe =>
    exact slotwise2_of_alu (fun _ _ _ _ => rfl) among_b32_words fun c x y _ _ _ =>
      ⟨mod_eq_bitsWhere fun i hi => testBit_bfe c.ty.signed hi, rfl⟩
  case bfi =>
    exact slotwise3_of_alu (fun _ _ _ _ => rfl) among_b32_words fun c z x y _ _ _ _ =>
      ⟨mod_eq_bitsWhere fun i _ => testBit_setField z x _ _ i, rfl⟩
  case bmsk =>
    exact slotwise2_of_alu (fun _ _ _ _ => rfl) among_b32_words fun c x y _ _ _ =>
      ⟨mod_eq_bitsWhere fun i hi => testBit_bmsk hi, rfl⟩
  case bzi =>
    refine slotwise2_of_alu (fun _ _ _ _ => rfl) among_b32_words fun c x y _ _ _ => ⟨mod_eq_bitsWhere fun i hi => ?_, rfl⟩
    have half : i / 2 < c.ty.bits / 2 := by have := c.ty.bits_even; omega
    rw [noFlag_fst, testBit_interleave, decide_eq_true half, Bool.true_and]
  case bsp3 =>
    exact slotwise1_of_alu (fun _ _ _ => rfl) among_b32_words fun c x _ _ =>
      ⟨mod_eq_bitsWhere fun i _ => testBit_spread (thirdBits c.ty) x i, rfl⟩
  case bcp3 =>
    exact slotwise1_of_alu (fun _ _ _ => rfl) among_b32_words fun c x _ _ =>
      ⟨mod_eq_bitsWhere fun i _ => testBit_gather (thirdBits c.ty) x i, rfl⟩

end Sys2Proof.Machine

/-! Whole elements (R112, R115), the floating instructions (R120 to R126), the conversions and the block scales (R127 to R130). -/

namespace Sys2Proof.Machine

open Sys2Proof.Spec

/-! ### Whole elements (R112, R115) -/

/-- The claim about a lane by lane instruction of another type, from its meaning. -/
theorem lanewiseAs_of_computeAs {ok ok' : EType → Bool} {dst : Issue → EType} {mk : Operand → Instr}
    {f f' : Issue → Nat → Nat × FpFlags}
    (h : ∀ d s, exec (mk d) s =
      s.onClause (fun c => c.needType ok' (c.computeAs d (dst c).wide (dst c).signed (f' c))))
    (hok : ∀ t, ok t = ok' t) (hf : ∀ c l, f' c l = f c l) : lanewiseAs ok dst mk f := by
  obtain rfl : ok = ok' := funext hok
  obtain rfl : f' = f := funext fun c => funext (hf c)
  intro d
  refine ⟨refusesType_of_needType (h d), fun s c hc ht hd => ?_⟩
  rw [h]
  exact ⟨_, State.onClause_ok hc (Issue.needType_ok ht), Issue.computeAs_wrote c d _ _ _ hd⟩

theorem slotSum_eq (t : EType) (f : Int → Int → Int) (x y : Nat) : slotSum t f x y =
    ((List.range t.slots).map (fun j => f (t.intVal (slotOf t x j)) (t.intVal (slotOf t y j)))).sum := by
  rw [slotSum, List.sum_eq_foldl, List.foldl_map]

/-- Settles O7: each instruction computes the named integer of whole elements. -/
theorem wholeElement : Obligations.WholeElement := by
  refine ⟨?mov, ?lea, ?dp4, ?sad, ?sat, ?mulw⟩
  case mov => exact fun a => lanewise_of_alu (fun _ _ => rfl) (fun _ => rfl) fun _ _ _ => rfl
  case lea =>
    refine fun a b => lanewise_of_alu (fun _ _ => rfl) (fun t => by cases t <;> rfl) fun c l _ => ?_
    rw [toSigned_eq_toInt]
    rfl
  case dp4 =>
    refine fun a b => lanewise_of_alu (fun _ _ => rfl) (fun t => by cases t <;> rfl) fun c l _ => ?_
    rw [slotSum_eq]
    rfl
  case sad =>
    refine fun a b => lanewiseAs_of_computeAs (fun _ _ => rfl) (fun t => by cases t <;> rfl) fun c l => ?_
    rw [slotSum_eq]
    rfl
  case sat =>
    refine fun a => lanewise_of_alu (fun _ _ => rfl) among_ints fun c l _ => ?_
    simp only [toSigned_eq_toInt]
    exact clamped_eq _ c.ty.minInt_le_maxInt _
  case mulw => exact fun a b => lanewise_of_alu (fun _ _ => rfl) (fun t => by cases t <;> rfl) fun _ _ _ => rfl

/-! ### Floating arithmetic, exponents and classes (R120 to R126) -/

theorem among_floats (t : EType) : among floats t = t.isFloat := by cases t <;> rfl

/-- R120. A floating instruction of one source, from its meaning. -/
theorem slotwise1_of_floatOp1 {mk : Operand → Operand → Instr} {g : Issue → Nat → Nat × FpFlags}
    (h : ∀ d a s, exec (mk d a) s = s.onClause (fun c => c.floatOp1 d a (g c))) : slotwise1 (among floats) mk g :=
  slotwise1_of_alu h among_floats fun _ _ _ _ => ⟨rfl, rfl⟩

/-- R120. A floating instruction of two sources, from its meaning. -/
theorem slotwise2_of_floatOp2 {mk : Operand → Operand → Operand → Instr} {g : Issue → Nat → Nat → Nat × FpFlags}
    (h : ∀ d a b s, exec (mk d a b) s = s.onClause (fun c => c.floatOp2 d a b (g c))) : slotwise2 (among floats) mk g :=
  slotwise2_of_alu h among_floats fun _ _ _ _ _ _ => ⟨rfl, rfl⟩

/-- R120. A fused instruction, from its meaning. -/
theorem slotwise3_of_fusedOp {mk : Operand → Operand → Operand → Instr} {negP negD : Bool}
    (h : ∀ d a b s, exec (mk d a b) s = s.onClause (fun c => c.fusedOp d a b negP negD)) :
    slotwise3 (among floats) mk
      (fun c z x y => c.ty.ffmt.fmaV c.rm c.ftz negP negD (flt c x) (flt c y) (flt c z)) :=
  slotwise3_of_alu h among_floats fun _ _ _ _ _ _ _ _ => ⟨rfl, rfl⟩

/-- R122. The bits of a number under its sign bit. -/
theorem testBit_fabs {n x i : Nat} : (x % 2 ^ (n - 1)).testBit i = (decide (i + 1 < n) && x.testBit i) := by
  rw [Nat.testBit_mod_two_pow, decide_eq_decide.2 (by omega : i < n - 1 ↔ i + 1 < n)]

/-- R122. The bits of a number with its sign bit inverted. -/
theorem testBit_fneg {n x i : Nat} (hn : 0 < n) : (x ^^^ 2 ^ (n - 1)).testBit i = (x.testBit i != decide (i + 1 = n)) := by
  rw [Nat.testBit_xor, Nat.testBit_two_pow, decide_eq_decide.2 (by omega : n - 1 = i ↔ i + 1 = n)]

/-- R122. The bits of a number with the sign bit of another. -/
theorem testBit_fcps {n x y i : Nat} (hi : i < n) :
    (x % 2 ^ (n - 1) + y / 2 ^ (n - 1) * 2 ^ (n - 1)).testBit i = if i + 1 = n then y.testBit i else x.testBit i := by
  rw [Nat.add_comm, Nat.mul_comm, Nat.testBit_two_pow_mul_add _ (Nat.mod_lt _ (Nat.two_pow_pos _)), Nat.testBit_mod_two_pow,
    Nat.testBit_div_two_pow]
  by_cases last : i + 1 = n
  · rw [if_neg (by omega), if_pos last, show i - (n - 1) + (n - 1) = i by omega]
  · have below : i < n - 1 := by omega
    rw [if_pos below, if_neg last, decide_eq_true below, Bool.true_and]

/-- Settles O8: each instruction is one operation on the values of its slots, or on their sign bits. -/
theorem floatArithmetic : Obligations.FloatArithmetic := by
  refine ⟨?fadd, ?fsub, ?fmul, ?fma, ?fms, ?fnma, ?fmin, ?fmax, ?fabs, ?fneg, ?fcps⟩
  case fadd => exact slotwise2_of_floatOp2 fun _ _ _ _ => rfl
  case fsub => exact slotwise2_of_floatOp2 fun _ _ _ _ => rfl
  case fmul => exact slotwise2_of_floatOp2 fun _ _ _ _ => rfl
  case fma => exact slotwise3_of_fusedOp fun _ _ _ _ => rfl
  case fms => exact slotwise3_of_fusedOp fun _ _ _ _ => rfl
  case fnma => exact slotwise3_of_fusedOp fun _ _ _ _ => rfl
  case fmin => exact slotwise2_of_floatOp2 fun _ _ _ _ => rfl
  case fmax => exact slotwise2_of_floatOp2 fun _ _ _ _ => rfl
  case fabs =>
    exact slotwise1_of_alu (fun _ _ _ => rfl) among_floats fun _ _ _ _ =>
      ⟨mod_eq_bitsWhere fun _ _ => testBit_fabs, rfl⟩
  case fneg =>
    exact slotwise1_of_alu (fun _ _ _ => rfl) among_floats fun c _ _ _ =>
      ⟨mod_eq_bitsWhere fun _ _ => testBit_fneg c.ty.bits_pos, rfl⟩
  case fcps =>
    exact slotwise2_of_alu (fun _ _ _ _ => rfl) among_floats fun _ _ _ _ _ _ =>
      ⟨mod_eq_bitsWhere fun _ hi => testBit_fcps hi, rfl⟩

theorem eq_f64_iff_wide {t : EType} (h : among floats t = true) : t = .f64 ↔ t.wide = true := by
  revert h; cases t <;> decide

theorem execFldx_eq (d a b : Operand) (s : State) :
    exec (.fldx d a b) s = s.onClause (fun c => c.alu EType.isFloat d c.ty.wide (fun l =>
      mapSlots c.ty (fun j => c.ty.ffmt.scaleB c.rm c.ftz (flt c (slotOf c.ty (c.arg a l) j))
        (if c.ty.wide then toSigned 32 (c.src false false b l)
          else toSigned c.ty.bits (slotOf c.ty (c.src false false b l) j))))) := rfl

/-- Settles O11: each instruction is one function of the values of its slots; `fldx` reads its exponent as the type asks. -/
theorem floatExponents : Obligations.FloatExponents := by
  refine ⟨?fflr, ?fcel, ?ftrc, ?frnd, ?fgtx, ?fcls, fun d a b => ⟨?refuses, fun s c hc ht hd => ?fldx⟩⟩
  case fflr => exact slotwise1_of_floatOp1 fun _ _ _ => rfl
  case fcel => exact slotwise1_of_floatOp1 fun _ _ _ => rfl
  case ftrc => exact slotwise1_of_floatOp1 fun _ _ _ => rfl
  case frnd => exact slotwise1_of_floatOp1 fun _ _ _ => rfl
  case fgtx => exact slotwise1_of_floatOp1 fun _ _ _ => rfl
  case fcls => exact slotwise1_of_floatOp1 fun _ _ _ => rfl
  case refuses =>
    rw [funext among_floats]
    exact refusesType_of_needType (execFldx_eq d a b)
  case fldx =>
    have ok : c.ty.isFloat = true := among_floats c.ty ▸ ht
    rw [execFldx_eq]
    refine ⟨_, _, State.onClause_ok hc (Issue.needType_ok ok), Issue.compute_wrote c d _ _ hd, fun l => ?_⟩
    dsimp only
    simp only [eq_f64_iff_wide ht, ← toSigned_eq_toInt]
    exact mapSlots_slotwise _ _

/-! ### Conversions and block scales (R127 to R130) -/

theorem among_scaled (t : EType) : among [.t8, .t6, .f4] t = t.scaled := by cases t <;> rfl

/-- R127, R128. A conversion, from its meaning. -/
theorem lanewiseAs_of_convertOp {mk : Operand → Operand → Instr} {dst : Bool → EType}
    (h : ∀ d a s, exec (mk d a) s = s.onClause (fun c => c.convertOp d a (dst c.ty.wide))) (a : Operand) :
    lanewiseAs (fun t => t != .b32) (fun c => dst c.ty.wide) (fun d => mk d a) (fun c l =>
      let x := slotOf c.ty (c.arg a l) 0
      convertV c.rm c.ftz c.sat c.ty (dst c.ty.wide) (c.ty.decodeV c.ftz c.wave.xva.toNat x) x) :=
  lanewiseAs_of_computeAs (fun d s => h d a s) (fun _ => rfl) fun _ _ => rfl

/-- Settles O12: each conversion acts on the value of slot 0, and the block scales on single registers. -/
theorem conversions : Obligations.Conversions := by
  refine ⟨?cvd, ?cvs, ?cvh, ?cvb, ?cv8, ?cv6, ?cv4, ?cvi, ?cvn, ?bsc, ?bsq⟩
  case cvd => exact lanewiseAs_of_convertOp (dst := fun _ => .f64) fun _ _ _ => rfl
  case cvs => exact lanewiseAs_of_convertOp (dst := fun _ => .f32) fun _ _ _ => rfl
  case cvh => exact lanewiseAs_of_convertOp (dst := fun _ => .f16) fun _ _ _ => rfl
  case cvb => exact lanewiseAs_of_convertOp (dst := fun _ => .bf16) fun _ _ _ => rfl
  case cv8 => exact lanewiseAs_of_convertOp (dst := fun _ => .t8) fun _ _ _ => rfl
  case cv6 => exact lanewiseAs_of_convertOp (dst := fun _ => .t6) fun _ _ _ => rfl
  case cv4 => exact lanewiseAs_of_convertOp (dst := fun _ => .f4) fun _ _ _ => rfl
  case cvi => exact lanewiseAs_of_convertOp (dst := fun w => if w then .i64 else .i32) fun _ _ _ => rfl
  case cvn => exact lanewiseAs_of_convertOp (dst := fun w => if w then .n64 else .n32) fun _ _ _ => rfl
  case bsc => exact fun a => lanewise_of_alu (fun _ _ => rfl) among_scaled fun _ _ _ => rfl
  case bsq => exact fun a b => lanewise_of_alu (fun _ _ => rfl) among_scaled fun _ _ _ => rfl

end Sys2Proof.Machine

/-! The late functions (R123, R124). -/

namespace Sys2Proof.Machine

open Sys2Proof.Spec

/-! ### Late functions (R45, R123, R124) -/

/-- R94. The flags of a computation on some lanes are those of its real lanes. -/
theorem getLsbD_realFlags_onLanes (real : Lanes) (width : Nat) (m : Lanes) (f : Nat → Nat × FpFlags) (b : Nat) :
    (realFlags real (onLanes width m f)).getLsbD b = true ↔
      ∃ l, l < width ∧ m.getLsbD l = true ∧ real.getLsbD l = true ∧ (f l).2.getLsbD b = true := by
  rw [realFlags_getLsbD]
  constructor
  · rintro ⟨r, hr, isReal, set⟩
    obtain ⟨l, hl, rfl⟩ := List.mem_map.1 hr
    exact ⟨l, (mem_lanesOf.1 hl).1, (mem_lanesOf.1 hl).2, isReal, set⟩
  · rintro ⟨l, lt, on, isReal, set⟩
    exact ⟨_, List.mem_map.2 ⟨l, mem_lanesOf.2 ⟨lt, on⟩, rfl⟩, isReal, set⟩

/-- R45, R123. What a late computation of an unsupported type does. -/
theorem refusesType_of_computeLate {ok : EType → Bool} {i : Instr} {d : Operand} {f : Issue → Nat → Nat × FpFlags}
    (h : ∀ s, exec i s = s.onIssue (fun s c => s.computeLate c ok d (f c))) : refusesType ok i := by
  intro s c hc hok
  have refused : s.computeLate c ok d (f c) = (s, .error (illegal 0x05)) := by simp [State.computeLate, hok]
  rw [h, State.onIssue_error hc refused, hc]
  rfl

/-- R45, R123. The access that a late computation sends: its results and flags are fixed. -/
def State.lateAccess (s : State) (c : Issue) (d : Operand) (f : Nat → Nat × FpFlags) (fl : FpFlags) : Access :=
  { op := s.dev.nextId, ctx := s.dev.ctxOf c.wave.id, w := c.wave.id, path := c.path, clause := c.header,
    kind := .compute, width := 0, mtype := 0, lanes := [], dest := c.destOf d c.ty.wide,
    flag := some (if c.seen = 0 then c.setA else c.setB), counter := none, fp := fl,
    results := match d with
      | .k _ => [(0, BitVec.ofNat 64 (f 0).1)]
      | _ => (lanesOf c.wave.width c.active).map (fun l => (l, BitVec.ofNat 64 (f l).1))
    halves := [], failed := [] }

/-- R45, R94, R123. A late computation takes its flag and sends its access, with the flags of the computation. -/
theorem State.computeLate_eq (s : State) (c : Issue) (ok : EType → Bool) (d : Operand) (f : Nat → Nat × FpFlags)
    (ht : ok c.ty = true) : ∃ fl, c.flagsAre d f fl ∧ s.computeLate c ok d f =
      (s.fresh.2, .ok ((c.takeFlag s.dev.nextId).send (.access (s.lateAccess c d f fl)))) := by
  unfold State.computeLate
  rw [if_pos ht]
  cases d with
  | k n => exact ⟨(f 0).2, fun _ => Iff.rfl, rfl⟩
  | _ => exact ⟨_, getLsbD_realFlags_onLanes _ _ _ f, by simp only [bare_onLanes]; rfl⟩

/-- Settles O13: each function is computed slot by slot as it issues, and an access in flight holds what it gives. -/
theorem lateFunctions : Obligations.LateFunctions := by
  unfold Obligations.LateFunctions
  intro late one
  have late_of {i : Operand → Instr} {g : Issue → Nat → Nat → Nat × FpFlags}
      (h : ∀ d s, exec (i d) s = s.onIssue (fun s c => s.computeLate c EType.isFloat d (fun l => mapSlots c.ty (g c l)))) :
      late i g := by
    intro d
    rw [funext among_floats]
    refine ⟨refusesType_of_computeLate (h d), fun s c hc ht => ?_⟩
    obtain ⟨fl, flags, computed⟩ := s.computeLate_eq c EType.isFloat d (fun l => mapSlots c.ty (g c l)) ht
    refine ⟨_, s.lateAccess c d (fun l => mapSlots c.ty (g c l)) fl, fl, ?_,
      fun l => mapSlots_slotwise c.ty (g c l), flags, rfl⟩
    rw [h, State.onIssue_ok hc computed]
    rfl
  refine ⟨?fdiv, ?fsqrt, ?frcp, ?frsq, ?fex2, ?flg2, ?fsnp, ?fcsp, ?ftnh⟩
  case fdiv => exact fun a b => late_of fun _ _ => rfl
  all_goals exact fun a => late_of fun _ _ => rfl

end Sys2Proof.Machine

/-! The predicates (R56) and the carry chain (R113). -/

namespace Sys2Proof.Machine

open Sys2Proof.Spec

/-! ### Masks and predicates (R56) -/

theorem getLsbD_bitAt (i l : Nat) : (bitAt i).getLsbD l = (decide (l < 64) && decide (i = l)) := by
  rw [bitAt, BitVec.getLsbD_ofNat, Nat.testBit_two_pow]

theorem getLsbD_maskOf (ls : List Nat) {l : Nat} (hl : l < 64) : (maskOf ls).getLsbD l = decide (l ∈ ls) := by
  have fold (m : Lanes) : (ls.foldl (fun m l => m ||| bitAt l) m).getLsbD l = (m.getLsbD l || decide (l ∈ ls)) := by
    induction ls generalizing m with
    | nil => simp
    | cons i r ih =>
      simp only [List.foldl_cons, ih, BitVec.getLsbD_or, getLsbD_bitAt, hl, decide_true, Bool.true_and, List.mem_cons,
        Bool.decide_or, Bool.or_assoc, eq_comm (a := i)]
  simp [maskOf, fold]

/-- Among the lanes of a mask, those that satisfy a predicate. -/
theorem getLsbD_maskOf_filter {width l : Nat} {m : Lanes} (p : Nat → Bool) (hl : l < width) (h64 : l < 64)
    (on : m.getLsbD l = true) : (maskOf ((lanesOf width m).filter p)).getLsbD l = p l := by
  rw [getLsbD_maskOf _ h64, Bool.eq_iff_iff, decide_eq_true_iff, List.mem_filter, mem_lanesOf]
  exact and_iff_right ⟨hl, on⟩

theorem Wave.qread_qwrite_of_ne (w : Wave) {m n : Nat} (lanes x : Lanes) (h : m ≠ n ∨ m = 15) :
    (w.qwrite n lanes x).qread m = w.qread m := by
  unfold Wave.qwrite
  split
  · rfl
  · rcases h with ne | rfl
    · simp [Wave.qread, List.getD_eq_getElem?_getD, ne.symm]
    · rfl

/-- R56. A predicate after a write: the bits of the lanes that are written are new. -/
theorem Wave.getLsbD_qread_qwrite (w : Wave) {n l : Nat} (lanes x : Lanes) (hn : n ≠ 15) (hq : n < w.q.length) (hl : l < 64) :
    ((w.qwrite n lanes x).qread n).getLsbD l = if lanes.getLsbD l then x.getLsbD l else (w.qread n).getLsbD l := by
  rw [Wave.qwrite, if_neg hn, Wave.qread, Wave.qread, if_neg hn, if_neg hn]
  have set (y : Lanes) : (w.q.set n y).getD n 0 = y := by simp [List.getD_eq_getElem?_getD, hq]
  rw [set, BitVec.getLsbD_or, BitVec.getLsbD_and, BitVec.getLsbD_and, BitVec.getLsbD_not, decide_eq_true hl]
  cases lanes.getLsbD l <;> simp

theorem Wave.qwrite_eq (w : Wave) (n : Nat) (lanes x : Lanes) :
    w.qwrite n lanes x = { w with q := (w.qwrite n lanes x).q } := by
  unfold Wave.qwrite
  split <;> rfl

theorem or_noFlags (f : FpFlags) : f ||| 0 = f := BitVec.or_zero

theorem Wave.orFlags_zero (w : Wave) : w.orFlags 0 = w := by
  rw [Wave.orFlags, or_noFlags]

/-- R56. What a write of a predicate and of flags leaves of a clause, once it has retired. -/
theorem Issue.qwrite_wrote {c : Issue} (h : hasPreds c) (q : BitVec 4) (x : Lanes) (fl : FpFlags) {p : Nat → Bool}
    (hx : ∀ l, l < c.wave.width → c.active.getLsbD l = true → x.getLsbD l = p l) :
    wrotePredicate c (c.mapWave (fun w => (w.qwrite q.toNat c.active x).orFlags fl)).retire q.toNat p fl := by
  obtain ⟨fifteen, narrow, outside⟩ := h
  refine ⟨?_, fun n hn => c.wave.qread_qwrite_of_ne c.active x hn, fun hq l hl => ?_⟩
  · exact congrArg (fun w => ({ c with wave := w.orFlags fl } : Issue).retire) (c.wave.qwrite_eq q.toNat c.active x)
  · have named : q.toNat < c.wave.q.length := by have := q.isLt; omega
    refine (c.wave.getLsbD_qread_qwrite c.active x hq named hl).trans ?_
    cases on : c.active.getLsbD l with
    | false => rfl
    | true =>
      have inside : l < c.wave.width := by
        by_contra out
        exact Bool.false_ne_true ((outside l (by omega)).symm.trans on)
      exact hx l inside on

/-! ### Writes without flags -/

theorem Issue.flagsAre_noFlag {c : Issue} {d : Operand} {g : Nat → Nat} {fl : FpFlags}
    (h : c.flagsAre d (fun l => noFlag (g l)) fl) : fl = 0 := by
  apply BitVec.eq_of_getLsbD_eq
  intro b _
  rw [Bool.eq_iff_iff, h b]
  cases d <;> simp [noFlag]

/-- R7, R55. What a computation that sets no flag leaves of a clause, once it has retired. -/
theorem Issue.compute_put (c : Issue) (d : Operand) (wide : Bool) (g : Nat → Nat) (h : c.hasDst wide d) :
    c.put (c.compute d wide (fun l => noFlag (g l))).retire d wide c.ty.signed c.active g 0 := by
  obtain ⟨fl, flags, put⟩ := c.compute_wrote d wide (fun l => noFlag (g l)) h
  rwa [Issue.flagsAre_noFlag flags] at put

/-- R7, R51. What a write of the values of some lanes to a v or x register leaves of a clause, once it has retired. -/
theorem Issue.writeVec_put (c : Issue) {d : Operand} {wide : Bool} (signed : Bool) (m : Lanes) (g : Nat → Nat)
    (h : c.hasDst wide d) (hk : ∀ n, d ≠ .k n) :
    c.put (c.writeVec d wide ((lanesOf c.wave.width m).map (fun l => (l, BitVec.ofNat 64 (g l))))).retire
      d wide signed m g 0 := by
  unfold Issue.put
  rw [or_noFlags]
  cases d with
  | v n => exact ⟨rfl, rfl, rfl, writeRows_wrote _ _ _ _ _ g h.1 h.2⟩
  | x n => exact ⟨rfl, rfl, rfl, writeRows_wrote _ _ _ _ _ g h.1 h.2⟩
  | k n => exact absurd rfl (hk n)
  | _ => exact absurd h (by simp [Issue.hasDst])

/-! ### The carry chain (R113) -/

theorem Issue.compute_q (c : Issue) (d : Operand) (wide : Bool) (f : Nat → Nat × FpFlags) :
    (c.compute d wide f).wave.q = c.wave.q := by cases d <;> rfl

theorem Issue.compute_width (c : Issue) (d : Operand) (wide : Bool) (f : Nat → Nat × FpFlags) :
    (c.compute d wide f).wave.width = c.wave.width := by cases d <;> rfl

theorem Wave.qread_congr {w w' : Wave} (hq : w'.q = w.q) (hw : w'.width = w.width) (n : Nat) : w'.qread n = w.qread n := by
  rw [Wave.qread, Wave.qread, hq, hw]

/-- R113. The exact sum or difference of a lane with its bit of q14. -/
def Issue.carryExact (c : Issue) (sub : Bool) (a b : Operand) (l : Nat) : Int :=
  let cin : Int := if (c.wave.qread 14).getLsbD l then 1 else 0
  if sub then (c.arg a l : Int) - c.arg b l - cin else (c.arg a l : Int) + c.arg b l + cin

/-- R113. The lanes that carry or borrow. -/
def Issue.carryOut (c : Issue) (sub : Bool) (a b : Operand) : Lanes :=
  maskOf ((lanesOf c.wave.width c.active).filter
    (fun l => decide (c.carryExact sub a b l < 0 ∨ ((2 ^ c.ty.bits : Nat) : Int) ≤ c.carryExact sub a b l)))

theorem exec_carry (sub : Bool) (d a b : Operand) (s : State) :
    exec (if sub then .subb d a b else .addc d a b) s = s.onClause (fun c => c.needType EType.isW
      ((c.compute d c.ty.wide (fun l => noFlag (wrapInt c.ty.bits (c.carryExact sub a b l)))).mapWave
        (fun w => w.qwrite 14 c.active (c.carryOut sub a b)))) := by
  have carryOp (c : Issue) (f : Nat → Nat → Nat → Int)
      (hf : ∀ l, f (c.arg a l) (c.arg b l) (if (c.wave.qread 14).getLsbD l then 1 else 0) = c.carryExact sub a b l) :
      c.carryOp d a b f = c.needType EType.isW
        ((c.compute d c.ty.wide (fun l => noFlag (wrapInt c.ty.bits (c.carryExact sub a b l)))).mapWave
          (fun w => w.qwrite 14 c.active (c.carryOut sub a b))) := by
    unfold Issue.carryOp Issue.carryOut
    simp only [hf]
  refine (?_ : exec _ s = s.onClause _).trans (congrArg s.onClause (funext fun c =>
    carryOp c (fun x y k => if sub then (x : Int) - y - k else (x : Int) + y + k) fun l => ?_))
  · cases sub <;> rfl
  · cases sub <;> simp [Issue.carryExact]

/-- Settles O3: the result and the carry of a lane are those of one exact integer, and q14 is written in the active lanes. -/
theorem carryChain : Obligations.CarryChain := by
  intro sub d a b i
  refine ⟨?_, ?_, fun s c hc ht hd _ hq narrow => ?_⟩
  · rw [funext among_words]
    exact refusesType_of_needType (exec_carry sub d a b)
  · rintro n rfl
    cases sub <;> rfl
  · intro sum
    rw [among_words] at ht
    set w := c.compute d c.ty.wide (fun l => noFlag (wrapInt c.ty.bits (c.carryExact sub a b l))) with hw
    have same : ∀ n, w.wave.qread n = c.wave.qread n :=
      Wave.qread_congr (c.compute_q _ _ _) (c.compute_width _ _ _)
    have q : 14 < w.wave.q.length := by rw [hw, Issue.compute_q]; exact hq
    refine ⟨(w.mapWave (fun x => x.qwrite 14 c.active (c.carryOut sub a b))).retire, w.retire, ?_, ?_,
      c.compute_put d _ _ hd, fun n hn => ?_, fun l hl => ?_⟩
    · exact (exec_carry sub d a b s).trans (State.onClause_ok hc (Issue.needType_ok ht))
    · exact congrArg (fun x => ({ w with wave := x } : Issue).retire) (w.wave.qwrite_eq 14 c.active _)
    · exact (w.wave.qread_qwrite_of_ne _ _ (.inl hn)).trans (same n)
    · refine (w.wave.getLsbD_qread_qwrite _ _ (by decide) q (by omega)).trans ?_
      rw [same]
      cases on : c.active.getLsbD l with
      | false => rfl
      | true =>
        refine (getLsbD_maskOf_filter _ hl (by omega) on).trans ?_
        rw [Nat.cast_pow, Nat.cast_ofNat]
        rfl

end Sys2Proof.Machine

/-! The compares (R131) and the predicate instructions (R132 to R134). -/

namespace Sys2Proof.Machine

open Sys2Proof.Spec

/-- An instruction that acts on the clause alone and is always accepted, from its meaning. -/
theorem exec_of_accepted {i : Instr} {s : State} {c : Issue} {f : Issue → Issue}
    (h : exec i s = s.onClause (fun c => .ok (f c))) (hc : s.issue = some c) :
    exec i s = .next { s with issue := some (f c).retire } := h.trans (State.onClause_ok hc rfl)

/-! ### Compares (R131) -/

/-- R128. The value of an integer. -/
def intValue (i : Int) : FVal := if i = 0 then .zero false else .fin (i < 0) i.natAbs 0

theorem EType.decodeV_of_isAll {t : EType} (h : t.isAll = true) (ftz : Bool) (xva b : Nat) :
    t.decodeV ftz xva b = intValue (t.intVal b) := by
  cases t with
  | f64 | f32 | f16 | bf16 | t8 | t6 | f4 => exact absurd h (by decide)
  | _ => rfl

theorem cmp_ofDyadic_zero (m n : Nat) : (QVal.ofDyadic m 0).cmp (QVal.ofDyadic n 0) = compare m n := by
  simp [QVal.ofDyadic, QVal.cmp]

theorem compare_natAbs_of_nonneg {i j : Int} (hi : 0 ≤ i) (hj : 0 ≤ j) : compare i.natAbs j.natAbs = compare i j := by
  rcases lt_trichotomy i j with h | rfl | h
  · rw [compare_lt_iff_lt.2 h, compare_lt_iff_lt.2 (by omega)]
  · rw [compare_eq_iff_eq.2 rfl, compare_eq_iff_eq.2 rfl]
  · rw [compare_gt_iff_gt.2 h, compare_gt_iff_gt.2 (by omega)]

theorem compare_natAbs_of_nonpos {i j : Int} (hi : i ≤ 0) (hj : j ≤ 0) : compare j.natAbs i.natAbs = compare i j := by
  rcases lt_trichotomy i j with h | rfl | h
  · rw [compare_lt_iff_lt.2 h, compare_lt_iff_lt.2 (by omega)]
  · rw [compare_eq_iff_eq.2 rfl, compare_eq_iff_eq.2 rfl]
  · rw [compare_gt_iff_gt.2 h, compare_gt_iff_gt.2 (by omega)]

/-- R131. Integers compare in their order: by their signs, and those of one sign by their magnitudes. -/
theorem cmpV_intValue (i j : Int) : cmpV (intValue i) (intValue j) = some (compare i j) := by
  have lt {i j : Int} (h : i < j) : compare i j = .lt := compare_lt_iff_lt.2 h
  have gt {i j : Int} (h : j < i) : compare i j = .gt := compare_gt_iff_gt.2 h
  rcases lt_trichotomy i 0 with hi | rfl | hi <;> rcases lt_trichotomy j 0 with hj | rfl | hj
  · simp [cmpV, intValue, hi, hj, hi.ne, hj.ne, cmp_ofDyadic_zero, compare_natAbs_of_nonpos hi.le hj.le]
  · simp [cmpV, intValue, hi, hi.ne, lt hi]
  · simp [cmpV, intValue, hi, hi.ne, hj.ne', hj.not_gt, lt (hi.trans hj)]
  · simp [cmpV, intValue, hj, hj.ne, gt hj]
  · simp [cmpV, intValue]
  · simp [cmpV, intValue, hj.ne', hj.not_gt, lt hj]
  · simp [cmpV, intValue, hj, hi.ne', hj.ne, hi.not_gt, gt (hj.trans hi)]
  · simp [cmpV, intValue, hi.ne', hi.not_gt, gt hi]
  · simp [cmpV, intValue, hi.ne', hj.ne', hi.not_gt, hj.not_gt, cmp_ofDyadic_zero, compare_natAbs_of_nonneg hi.le hj.le]

/-- R131. The flag that a compare sets. -/
def Issue.compareFlags (c : Issue) (a b : Operand) (anyNaN : Bool) : FpFlags :=
  flagIf ((lanesOf c.wave.width c.active).any (fun l => c.wave.real.getLsbD l &&
    (c.cmpSignals (c.cmpVal a l) || c.cmpSignals (c.cmpVal b l) ||
      (anyNaN && ((c.cmpVal a l).isNaN || (c.cmpVal b l).isNaN))))) fNV

/-- R131. A compare sets NV where one of its two values, by itself, asks for it in an active real lane. -/
theorem Issue.compareFlags_eq (c : Issue) (a b : Operand) (anyNaN : Bool) :
    let bad := fun x : FVal => (c.ty.isFloat && x.isSNaN) || (anyNaN && x.isNaN)
    c.compareFlags a b anyNaN =
      if (List.range c.wave.width).any (fun l => c.active.getLsbD l && c.wave.real.getLsbD l &&
        (bad (c.cmpVal a l) || bad (c.cmpVal b l))) then fNV else 0 := by
  intro bad
  rw [Issue.compareFlags, flagIf, lanesOf, List.any_filter]
  congr 3
  funext l
  simp only [bad, Issue.cmpSignals]
  rw [Bool.and_assoc, Bool.and_or_distrib_left anyNaN]
  ac_rfl

/-- R131. What a compare leaves of a clause, once it has retired. -/
theorem Issue.compareOp_wrote {c : Issue} (h : hasPreds c) (q : BitVec 4) (a b : Operand) (anyNaN : Bool)
    (r : Option Ordering → Bool) :
    wrotePredicate c (c.compareOp q a b anyNaN r).retire q.toNat (fun l => r (cmpV (c.cmpVal a l) (c.cmpVal b l)))
      (c.compareFlags a b anyNaN) :=
  Issue.qwrite_wrote h q _ _ fun _ hl on => getLsbD_maskOf_filter _ hl (by have := h.2.1; omega) on

/-- Settles O14: a compare writes a predicate of the active lanes, and integers compare by their signs and magnitudes. -/
theorem compares : Obligations.Compares := by
  unfold Obligations.Compares
  intro cmp
  have cmp_of {i : BitVec 4 → Operand → Operand → Instr} {anyNaN : Bool} {r : Option Ordering → Bool}
      (h : ∀ q a b s, exec (i q a b) s = s.onClause (fun c => .ok (c.compareOp q a b anyNaN r))) : cmp i anyNaN r :=
    fun q a b s c hc hp => ⟨_, exec_of_accepted (h q a b s) hc,
      c.compareFlags_eq a b anyNaN ▸ Issue.compareOp_wrote hp q a b anyNaN r⟩
  clear_value cmp
  refine ⟨?ceq, ?cne, ?clt, ?cle, ?cgt, ?cge, ?cun, fun t ht ftz xva x y => ?order⟩
  case order =>
    rw [among_allInts] at ht
    rw [t.decodeV_of_isAll ht, t.decodeV_of_isAll ht, cmpV_intValue]
  all_goals exact cmp_of fun _ _ _ _ => rfl

/-! ### Predicate instructions, selection and predicate values (R132 to R134) -/

/-- R133. What a predicate instruction leaves of a clause, once it has retired. -/
theorem Issue.predOp_wrote {c : Issue} (h : hasPreds c) (q : BitVec 4) (x : Lanes) {p : Nat → Bool}
    (hx : ∀ l, l < 64 → x.getLsbD l = p l) : wrotePredicate c (c.predOp q x).retire q.toNat p 0 := by
  have wrote := Issue.qwrite_wrote h q x 0 fun l hl _ => hx l (by have := h.2.1; omega)
  simp only [Wave.orFlags_zero] at wrote
  exact wrote

/-- R134. The active lanes in which a predicate is set. -/
theorem lanesOf_and (width : Nat) (m x : Lanes) :
    lanesOf width (m &&& x) = (List.range width).filter (fun l => m.getLsbD l && x.getLsbD l) :=
  congrArg (fun p => (List.range width).filter p) (funext fun _ => BitVec.getLsbD_and)

theorem length_lanesOf_le (width : Nat) (m : Lanes) : (lanesOf width m).length ≤ 64 := by
  have below : lanesOf width m ⊆ List.range 64 := fun l hl => List.mem_range.2 (BitVec.lt_of_getLsbD (mem_lanesOf.1 hl).2)
  exact ((List.nodup_range.filter _).subperm below).length_le.trans_eq List.length_range

/-- R55. A number of 32 bits in a k register. -/
theorem scalarBits_of_lt {n : Nat} (h : n < 2 ^ 32) : scalarBits false false (BitVec.ofNat 64 n) = BitVec.ofNat 64 n := by
  apply BitVec.eq_of_toNat_eq
  simp only [scalarBits, Bool.false_eq_true, if_false, BitVec.toNat_setWidth, BitVec.extractLsb'_toNat, BitVec.toNat_ofNat,
    Nat.shiftRight_zero]
  omega

/-- R134. `qpop` counts the active lanes in which the predicate is set. -/
theorem qpop_put {s : State} {c : Issue} (hc : s.issue = some c) {d : Operand} (q : BitVec 4) (hd : c.hasDst false d) :
    ∃ c', exec (.qpop d q) s = .next { s with issue := some c' } ∧
      c.put c' d false false c.active (fun _ => (lanesOf c.wave.width (c.active &&& c.wave.qread q.toNat)).length) 0 := by
  cases d with
  | k n =>
    refine ⟨_, exec_of_accepted rfl hc, ?_⟩
    unfold Issue.put
    rw [or_noFlags, scalarBits_of_lt ((length_lanesOf_le _ _).trans_lt (by norm_num))]
    exact ⟨rfl, rfl, rfl, rfl⟩
  | v n => exact ⟨_, exec_of_accepted rfl hc, c.writeVec_put false c.active _ hd nofun⟩
  | x n => exact ⟨_, exec_of_accepted rfl hc, c.writeVec_put false c.active _ hd nofun⟩
  | _ => exact absurd hd (by simp [Issue.hasDst])

/-- Settles O15: the predicate instructions write the active lanes, and `sel` those of its path. -/
theorem predicates : Obligations.Predicates := by
  refine ⟨⟨rfl, fun _ _ _ => rfl⟩, fun s c hc hp q a b => ?preds,
    fun s c hc d a b q k => ⟨fun hd hk => ?sel, fun hd => ?qpop, fun _ => ?kq⟩⟩
  case preds =>
    intro bit wrote
    have wrote_of {i : Instr} {x : Issue → Lanes} {p : Nat → Bool}
        (h : exec i s = s.onClause (fun c => .ok (c.predOp q (x c)))) (hx : ∀ l, l < 64 → (x c).getLsbD l = p l) :
        wrote i p :=
      ⟨_, exec_of_accepted h hc, Issue.predOp_wrote hp q (x c) hx⟩
    clear_value wrote
    refine ⟨?qand, ?qor, ?qxor, ?qnot, ?qmov, fun o => ?qmsk⟩
    case qand => exact wrote_of rfl fun _ _ => BitVec.getLsbD_and
    case qor => exact wrote_of rfl fun _ _ => BitVec.getLsbD_or
    case qxor => exact wrote_of rfl fun _ _ => BitVec.getLsbD_xor
    case qnot =>
      refine wrote_of rfl fun l hl => ?_
      rw [BitVec.getLsbD_not, decide_eq_true hl, Bool.true_and]
    case qmov => exact wrote_of rfl fun _ _ => rfl
    case qmsk =>
      refine wrote_of rfl fun l hl => ?_
      rw [w64, BitVec.getLsbD_ofNat, decide_eq_true hl, Bool.true_and]
  case sel =>
    refine ⟨_, exec_of_accepted rfl hc, ?_⟩
    rw [bare_onLanes]
    exact c.writeVec_put false c.pth.mask _ hd hk
  case qpop =>
    rw [← lanesOf_and]
    exact qpop_put hc q hd
  case kq => exact ⟨_, exec_of_accepted rfl hc, rfl⟩

end Sys2Proof.Machine

end
